-- ==== Sys2Proof/Word.lean ====
section
/-! DEFINITION. The word types of the Vilyx VX9 (spec/00_scope.md R8, spec/01_machine.md R14). -/

namespace Sys2Proof

/-- One byte of memory. -/
abbrev Byte := BitVec 8
/-- One lane of a vector register (R14). -/
abbrev Word := BitVec 32
/-- A scalar register, an instruction word or an extension word (R14, R28). -/
abbrev DWord := BitVec 64
/-- A mask register: bit i belongs to lane i (R14). -/
abbrev Mask := BitVec 128

end Sys2Proof
end

