-- ==== Sys2Proof/Syntax.lean ====
section
/-! DEFINITION. The instructions of the Tlatal architecture and the other whole steps of the device:
one constructor of `Instr` for each row of spec/opcode_table.json (encodings: spec/02_encoding.md R28-R38;
steps without an encoding: spec/95_what_each_step_holds.md). -/

namespace Sys2Proof

/-- What the fabric carries: a packet, an acknowledgement or a deposit by its number, or the packet of a copy's part: a
line and a destination of an MCAST, or a chunk and 0 (R219, R315, R316). -/
inductive Parcel where
  | packet (id : Nat)
  | ack (id : Nat)
  | deposit (id : Nat)
  | part (copy k d : Nat)
  | read (id : Nat)
deriving DecidableEq, Repr

/-- F.TYPE (R36). -/
inductive Ty where
  | none | i8 | i16 | i32 | i64 | n8 | n16 | n32 | n64 | b8 | b16 | b32 | b64 | f32 | f16 | bf16
deriving DecidableEq, Repr

/-- Rounding modes (R76). -/
inductive Rnd where
  | rne | rtz | rup | rdn | rsk
deriving DecidableEq, Repr

/-- Condition codes of ICMP and FCMP (R92). -/
inductive CC where
  | eq | ne | lt | le | gt | ge | un | or
deriving DecidableEq, Repr

/-- Memory order of Format M and FENCE (R32, R166). -/
inductive MOrd where
  | rlx | acq | rel | ar
deriving DecidableEq, Repr

/-- Scopes (R32, R206). -/
inductive Scope where
  | str | pnl | qd | die | pkg | fab
deriving DecidableEq, Repr

/-- Cache policies (R32, R165). -/
inductive Pol where
  | norm | once | keep | byp
deriving DecidableEq, Repr

/-- A source operand: a 9-bit operand field (R34), or the immediate that takes the place of source B (R35).
A vector number 0xB0-0xBF names m0-m15 while the agent is in meld mode (R261). -/
inductive Opd where
  | v (n : Nat)
  | s (n : Nat)
  | pop (c : Nat)
  | peek (c : Nat)
  | imm (x : DWord)
deriving DecidableEq, Repr

/-- A destination operand field (R34). -/
inductive Dst where
  | v (n : Nat)
  | s (n : Nat)
  | push (c : Nat)
deriving DecidableEq, Repr

/-- A mask operand (R88). -/
inductive KReg where
  | k (n : Nat)
  | em
deriving DecidableEq, Repr

/-- A destination that is a register or a mask (VOTE R106, SHAS R150). -/
inductive MDst where
  | reg (d : Dst)
  | mask (k : KReg)
deriving DecidableEq, Repr

/-- The common header (R30): switch marker, mask selector, last-read bits. -/
structure Hdr where
  sw : Bool
  km : Nat
  la : Bool
  lb : Bool
  lc : Bool
deriving DecidableEq, Repr

/-- F.VAR of the floating-point instructions (R96). -/
structure FMode where
  sat : Bool
  pk : Bool
  rnd : Rnd
deriving DecidableEq, Repr

/-- The address part of Format M (R32). `ofs` is the extension word when X is 1. -/
structure MAddr where
  base : Opd
  idx : Option Opd
  ofs : Option DWord
  ord : MOrd
  scp : Scope
  str : Nat
  pol : Pol
deriving DecidableEq, Repr

/-- Element formats of QNT and DQNT (R101). -/
inductive Elem where
  | i8 | i4 | mxi8 | e4m3 | e5m2 | e2m3 | e3m2 | e2m1 | trit
deriving DecidableEq, Repr

inductive ShflMode where
  | idx | up | down | xor
deriving DecidableEq, Repr

inductive VoteKind where
  | ballot | any | all | uni
deriving DecidableEq, Repr

/-- Operations of LRED and LSCAN (R107). -/
inductive RedOp where
  | add | min | max | and | or | xor
deriving DecidableEq, Repr

/-- Operations of ATOM and RED (R175). -/
inductive AtomOp where
  | add | min | max | and | or | xor | exch | addF32
deriving DecidableEq, Repr

inductive SctOp where
  | st | add | addF32
deriving DecidableEq, Repr

inductive KopOp where
  | and | or | xor | andn | not
deriving DecidableEq, Repr

/-- The forms of KMOV (R110). -/
inductive KmovForm where
  | kk (d a : KReg)
  | loIn (d : KReg) (a : Nat)
  | hiIn (d : KReg) (a : Nat)
  | loOut (d : Nat) (a : KReg)
  | hiOut (d : Nat) (a : KReg)
  | toV (d : Nat) (a : KReg)
deriving DecidableEq, Repr

/-- Block formats of LDMX and STMX (R173). -/
inductive MxFmt where
  | mxi8 | mxf8e4m3 | mxf8e5m2 | mxf6e2m3 | mxf6e3m2 | mxf4 | mxt
deriving DecidableEq, Repr

inductive Promise where
  | conc | par | eng
deriving DecidableEq, Repr

inductive WCond where
  | eq | ne | ge
deriving DecidableEq, Repr

/-- The operand descriptor of MXLD and MXLB (R117). -/
structure MDesc where
  split : Bool
  str : Nat
  sofs : BitVec 24
  stride : Word
deriving DecidableEq, Repr

/-- The special registers of SRD and SWR (R47). -/
inductive SReg where
  | laneid | stroke | width | panel | core | lvl (n : Nat) | commid | ctx | priv | status
  | fpst | sstat | ssbytes | rstep | rkey
  | tcause | tpc | taddr | tlane0 | tlane1 | taux | tvbase
deriving DecidableEq, Repr

/-! Operands of the steps that have no encoding. -/

/-- How an outstanding read is served when its result returns: at its home, from a copy that the rules let it be
served from (R165, R171), by a remote device's response (R215-R217), by a remote refusal (R216), or by an uncorrectable
error at the remote home (R347). -/
inductive Served where
  | home
  | copy
  | remote (bytes : List Byte)
  | remoteRefused
  | remoteErr
deriving DecidableEq, Repr

/-- A PTP message: the Ethernet port on which it came, its domain, and the time that it gives (R250). -/
structure PtpMsg where
  port : Nat
  domain : Nat
  time : DWord
deriving DecidableEq, Repr

/-- A collective's participant on another device (R220): its place in the order, what it asked for, its source, and
whether its source could not be read. -/
structure CollOther where
  rank : Nat
  unit : Nat
  level : Nat
  op : Nat
  wire : Nat
  count : Nat
  src : List Word
  failed : Bool := false
deriving DecidableEq, Repr

/-- How a packet fares: at a home of this device, or as another device's home answers: performed, with the bytes that
its addresses held before, refused, dropped since the buffer that it goes to has been freed (R219), or met by an
uncorrectable error (R216, R217). -/
inductive RemoteAck where
  | here
  | ok (olds : List Byte)
  | refused
  | dropped
  | dataErr
deriving DecidableEq, Repr

/-- A commission-queue registration (R245). `super`: a supervisor queue (R304). -/
structure QueueReg where
  ctx : Nat
  qcb : DWord
  super : Bool
deriving DecidableEq, Repr

/-- A time-triggered table entry (R248). -/
structure TTEntry where
  period : Nat
  phase : Nat
  record : DWord
  ctx : Nat
  policy : Nat
  enable : Bool
  skipped : Nat
deriving DecidableEq, Repr

/-- One physical range of GRANTS (R305, R311). -/
structure Range where
  base : Nat
  size : Nat
deriving DecidableEq, Repr

/-- Parameters of context creation (R305). -/
structure CtxParams where
  ctxid : Nat
  ptroot : Nat
  grants : List Range
  setEntries : Nat
  setQuota : Nat
  setBacking : Nat
  setBackBase : Nat := 0
  tquota : Nat
  poolBase : Nat
  poolSize : Nat
  poolChunk : Nat
  shadowReserve : Nat
  easelReserve : Nat
  sealed : Bool
  saveBase : Nat
  saveVA : Nat
  saveSize : Nat
  measure : BitVec 256
deriving DecidableEq, Repr

/-- An export window (R215). -/
structure ExportWin where
  obase : Nat
  osize : Nat
  lbase : Nat
  r : Bool
  w : Bool
deriving DecidableEq, Repr

/-- An egress channel's configuration (R317). -/
structure EgressCfg where
  mac : BitVec 48
  ip : BitVec 128
  sport : BitVec 16
  dport : BitVec 16
  port : Nat
  ring : DWord
  slots : Nat
  pidx : DWord
deriving DecidableEq, Repr

/-- A unit that errors are counted for (R348). -/
structure ErrUnit where
  cls : Nat
  num : Nat
deriving DecidableEq, Repr

/-- The tile that bears a logical number: the first one, or the spare that TILEMAP brought in for it (R350). -/
structure TilePlace where
  core : Nat
  spare : Bool
deriving DecidableEq, Repr

/-- The SRAM bank that bears a number in a tile's slice: the first one, or the spare of its layer (R350). -/
structure BankPlace where
  tile : TilePlace
  bank : Nat
  spare : Bool
deriving DecidableEq, Repr

/-- The bank that BANKMAP replaces: a layer of the slice, and the bank's number in the slice (R350). -/
structure BankName where
  layer : Nat
  bank : Nat
deriving DecidableEq, Repr

/-- The lane that LANEMAP replaces: a port, and one of its four lanes (R350). -/
structure LaneName where
  port : Nat
  lane : Nat
deriving DecidableEq, Repr

/-- A unit that self-test has tested: the spare that a map command brought in under its number, or the unit that first
bore it (R353); the tile that a unit of a tile lies in, and the bank that a row lies in. -/
structure TestedUnit where
  unit : ErrUnit
  spare : Bool
  inTile : Option TilePlace := none
  inBank : Option BankPlace := none
deriving DecidableEq, Repr

/-- A management key: an ECDSA P-256 public key (R356). A request's `signer` is the key under which its signature
verifies, where it carries a valid one. -/
abbrev MgmtKey := BitVec 512

/-- A firmware image as the boot ROM sees it (R354): its header's version, length and digest, and its bytes with
the signature (R353). -/
structure FwImage where
  version : Nat
  length : Nat
  digest : BitVec 256
  bytes : List Byte
  sig : BitVec 512
deriving DecidableEq, Repr

/-- Who makes a pre-emption request (R331): system software, a commission that waits for room, an Easel queue, a
time-triggered entry, register pressure on a core. -/
inductive Requester where
  | software
  | commission (id : Nat)
  | queue (q : Nat)
  | table (entry : Nat)
  | pressure
deriving DecidableEq, Repr

/-- The whole steps of the device: one constructor for each row of spec/opcode_table.json. -/
inductive Instr where
  -- control (spec/02_encoding.md R40-R45)
  | nop (sw : Bool)
  | land (sw : Bool)
  | bra (sw : Bool) (off : BitVec 36)
  | brzMask (sw : Bool) (km : Nat) (off : BitVec 36)
  | brzScalar (sw : Bool) (n : Nat) (off : BitVec 36)
  | brnzMask (sw : Bool) (km : Nat) (off : BitVec 36)
  | brnzScalar (sw : Bool) (n : Nat) (off : BitVec 36)
  | call (sw : Bool) (l : Nat) (off : BitVec 36)
  | ret (sw : Bool) (la : Bool) (t : Nat)
  | exit (sw : Bool)
  | loop (sw : Bool) (n : Nat) (off : BitVec 36)
  | rgn (sw : Bool) (win : Nat) (app : Bool) (names : DWord)
  -- divergence (spec/14_divergence.md)
  | brx (sw la : Bool) (tok : Nat) (a : Opd)
  | split (sw : Bool) (kc tok : Nat) (off : BitVec 36)
  | join (sw : Bool) (tok : Nat)
  | meld (sw : Bool) (two : Bool) (ka kb : KReg)
  | mend (sw : Bool)
  | path (sw : Bool) (j p0 p1 p2 p3 : Nat)
  -- integer and bit (spec/05_alu_instructions.md R90-R95)
  | iadd (h : Hdr) (t : Ty) (d : Dst) (a b : Opd)
  | isub (h : Hdr) (t : Ty) (d : Dst) (a b : Opd)
  | iaddc (h : Hdr) (t : Ty) (z : Bool) (kc : Nat) (d : Dst) (a b : Opd)
  | iadds (h : Hdr) (t : Ty) (sub : Bool) (d : Dst) (a b : Opd)
  | imul (h : Hdr) (t : Ty) (d : Dst) (a b : Opd)
  | imulh (h : Hdr) (t : Ty) (d : Dst) (a b : Opd)
  | imad (h : Hdr) (t : Ty) (d : Dst) (a b c : Opd)
  | idiv (h : Hdr) (t : Ty) (d : Dst) (a b : Opd)
  | irem (h : Hdr) (t : Ty) (d : Dst) (a b : Opd)
  | imin (h : Hdr) (t : Ty) (d : Dst) (a b : Opd)
  | imax (h : Hdr) (t : Ty) (d : Dst) (a b : Opd)
  | iabs (h : Hdr) (t : Ty) (sat : Bool) (d : Dst) (a : Opd)
  | lea (h : Hdr) (t : Ty) (sh : Nat) (d : Dst) (a b : Opd)
  | icmp (h : Hdr) (t : Ty) (cc : CC) (kd : KReg) (a b : Opd)
  | sel (h : Hdr) (t : Ty) (ks : Nat) (d : Dst) (a b : Opd)
  | mov (h : Hdr) (t : Ty) (d : Dst) (a : Opd)
  | and (h : Hdr) (t : Ty) (d : Dst) (a b : Opd)
  | or (h : Hdr) (t : Ty) (d : Dst) (a b : Opd)
  | xor (h : Hdr) (t : Ty) (d : Dst) (a b : Opd)
  | andn (h : Hdr) (t : Ty) (d : Dst) (a b : Opd)
  | shl (h : Hdr) (t : Ty) (d : Dst) (a b : Opd)
  | shr (h : Hdr) (t : Ty) (d : Dst) (a b : Opd)
  | sar (h : Hdr) (t : Ty) (d : Dst) (a b : Opd)
  | rot (h : Hdr) (t : Ty) (right : Bool) (d : Dst) (a b : Opd)
  | popc (h : Hdr) (t : Ty) (d : Dst) (a : Opd)
  | clz (h : Hdr) (t : Ty) (d : Dst) (a : Opd)
  | brev (h : Hdr) (t : Ty) (d : Dst) (a : Opd)
  | bfe (h : Hdr) (t : Ty) (sgn : Bool) (d : Dst) (a b : Opd)
  | bfi (h : Hdr) (t : Ty) (d : Dst) (a b c : Opd)
  | prmt (h : Hdr) (d : Dst) (a b c : Opd)
  | movi (h : Hdr) (t : Ty) (d : Dst) (x : DWord)
  -- floating point (R96-R99)
  | fadd (h : Hdr) (t : Ty) (m : FMode) (d : Dst) (a b : Opd)
  | fsub (h : Hdr) (t : Ty) (m : FMode) (d : Dst) (a b : Opd)
  | fmul (h : Hdr) (t : Ty) (m : FMode) (d : Dst) (a b : Opd)
  | ffma (h : Hdr) (t : Ty) (m : FMode) (d : Dst) (a b c : Opd)
  | fmin (h : Hdr) (t : Ty) (pk : Bool) (d : Dst) (a b : Opd)
  | fmax (h : Hdr) (t : Ty) (pk : Bool) (d : Dst) (a b : Opd)
  | fcmp (h : Hdr) (t : Ty) (cc : CC) (kd : KReg) (a b : Opd)
  | fdiv (h : Hdr) (t : Ty) (m : FMode) (d : Dst) (a b : Opd)
  | fsqrt (h : Hdr) (t : Ty) (m : FMode) (d : Dst) (a : Opd)
  | frcp (h : Hdr) (t : Ty) (m : FMode) (d : Dst) (a : Opd)
  | frsq (h : Hdr) (t : Ty) (m : FMode) (d : Dst) (a : Opd)
  | fex2 (h : Hdr) (t : Ty) (m : FMode) (d : Dst) (a : Opd)
  | flg2 (h : Hdr) (t : Ty) (m : FMode) (d : Dst) (a : Opd)
  | ftanh (h : Hdr) (t : Ty) (m : FMode) (d : Dst) (a : Opd)
  | frnd (h : Hdr) (t : Ty) (pk : Bool) (rnd : Rnd) (d : Dst) (a : Opd)
  | fclass (h : Hdr) (t : Ty) (pk : Bool) (d : Dst) (a : Opd)
  | fdot2 (h : Hdr) (t : Ty) (sat : Bool) (rnd : Rnd) (d : Dst) (a b c : Opd)
  | fscale (h : Hdr) (t : Ty) (m : FMode) (d : Dst) (a b : Opd)
  -- conversion (R100-R103)
  | cvt (h : Hdr) (td ts : Ty) (rnd : Rnd) (d : Dst) (a : Opd)
  | qnt (h : Hdr) (el : Elem) (rnd : Rnd) (d : Dst) (a b : Opd)
  | dqnt (h : Hdr) (el : Elem) (rnd : Rnd) (d : Dst) (a b : Opd)
  | tpack (h : Hdr) (d : Dst) (a b : Opd)
  | tunpk (h : Hdr) (d : Dst) (a b : Opd)
  | pack (h : Hdr) (t : Ty) (nib : Bool) (rnd : Rnd) (d : Dst) (a b : Opd) (c : Option Opd)
  | unpk (h : Hdr) (t : Ty) (nib : Bool) (rnd : Rnd) (d : Dst) (a b : Opd)
  -- lane (R104-R109)
  | shfl (h : Hdr) (t : Ty) (mode : ShflMode) (g : Nat) (d : Dst) (a b : Opd)
  | vote (h : Hdr) (k : VoteKind) (d : MDst) (a : Opd)
  | lred (h : Hdr) (t : Ty) (op : RedOp) (rnd : Rnd) (d : Dst) (a : Opd)
  | lscan (h : Hdr) (t : Ty) (op : RedOp) (rnd : Rnd) (excl : Bool) (d : Dst) (a : Opd)
  | bcast (h : Hdr) (t : Ty) (d : Dst) (a : Opd) (b : Option Opd)
  | matchLanes (h : Hdr) (t : Ty) (cnt : Bool) (d : Nat) (a : Opd)
  | topk (h : Hdr) (t : Ty) (sc : Nat) (d : Nat) (a b : Opd)
  -- mask and special (R110, spec/02_encoding.md R46-R48)
  | kop (h : Hdr) (op : KopOp) (kd ka kb : KReg)
  | kmov (h : Hdr) (f : KmovForm)
  | kpop (h : Hdr) (d : Nat) (ka : KReg)
  | kfnd (h : Hdr) (hi : Bool) (d : Nat) (ka : KReg) (b : Opd)
  | srd (h : Hdr) (d : Dst) (r : SReg)
  | swr (h : Hdr) (r : SReg) (a : Opd)
  | clk (h : Hdr) (d : Nat)
  | clkPtp (h : Hdr) (d : Nat)
  -- memory (spec/08_memory_instructions.md R170-R174)
  | ld (h : Hdr) (wid : Nat) (sx : Bool) (d : Dst) (m : MAddr)
  | st (h : Hdr) (wid : Nat) (d : Opd) (m : MAddr)
  | ldg (h : Hdr) (w : Nat) (d : Nat) (m : MAddr)
  | sct (h : Hdr) (wid : Nat) (op : SctOp) (d : Opd) (m : MAddr)
  | ldmx (h : Hdr) (fmt : MxFmt) (split : Bool) (d : Nat) (m : MAddr)
  | stmx (h : Hdr) (fmt : MxFmt) (split : Bool) (d : Nat) (m : MAddr)
  | prf (h : Hdr) (m : MAddr)
  -- atomic and order (R175-R182)
  | atom (h : Hdr) (wid : Nat) (op : AtomOp) (sgn : Bool) (d : Dst) (m : MAddr)
  | acas (h : Hdr) (wid : Nat) (d : Dst) (m : MAddr)
  | red (h : Hdr) (wid : Nat) (op : AtomOp) (sgn ret : Bool) (d : Dst) (m : MAddr)
  | fence (h : Hdr) (ord : MOrd) (scp : Scope) (b : Opd)
  | bar (h : Hdr) (a : Opd)
  | barx (h : Hdr) (out : Bool) (scp : Scope) (d a b c : Opd)
  | binit (h : Hdr) (a b : Opd)
  | waitf (h : Hdr) (t : Ty) (lvl : Nat) (prom : Promise) (cond : WCond) (d : Nat) (a b : Opd)
  | waitfConditionMet (agent : Nat)
  -- engine (R183-R193)
  | cpy (h : Hdr) (out : Bool) (scp : Scope) (a b c : Opd)
  | waitc (h : Hdr) (scp : Scope) (d : Nat) (a b c : Opd)
  | testc (h : Hdr) (d : Nat) (a b c : Opd)
  | srel (h : Hdr) (c : Nat)
  | sbindUnbind (h : Hdr) (c : Nat)
  | sbindPrimer (h : Hdr) (c : Nat)
  | sbindRing (h : Hdr) (c : Nat) (p1 p2 p3 : Opd)
  | sbindPort (h : Hdr) (c : Nat) (p1 : Opd)
  | sbindIter (h : Hdr) (c : Nat) (p1 p2 : Opd)
  | sbindQuery (h : Hdr) (c : Nat) (d : Nat)
  | pub (h : Hdr) (scp : Scope) (a : Opd)
  | preg (h : Hdr) (d : Nat) (a b : Opd)
  | pregDrop (h : Hdr) (a : Opd)
  | mcast (h : Hdr) (n : Nat) (a b c : Opd)
  | coll (h : Hdr) (a c : Opd)
  -- matrix (spec/06_matrix.md)
  | gang (h : Hdr) (a : Opd)
  | mxld (h : Hdr) (half n : Nat) (base : Nat) (idx : Opd) (fw : Nat) (ds : MDesc)
  | mxlb (h : Hdr) (slot n : Nat) (base : Nat) (fw : Nat) (ds : MDesc)
  | mma (h : Hdr) (half tile : Nat) (fw : Nat) (skip kbase : Nat)
  | mxz (h : Hdr) (tile : Nat)
  | mxdr (h : Hdr) (tile : Nat) (d : Nat) (fw : Nat) (scales : Nat) (pos : Opd)
  | mxdrStat (h : Hdr) (tile : Nat) (d : Nat)
  | mxadd (h : Hdr) (tile : Nat) (base str : Nat)
  | mxsave (h : Hdr) (tile : Nat) (base str : Nat)
  | mxrest (h : Hdr) (tile : Nat) (base str : Nat)
  -- sets (spec/07_sets.md)
  | snew (h : Hdr) (d : Dst) (u opt : Opd)
  | sdel (h : Hdr) (a : Opd)
  | sins (h : Hdr) (d : Option Nat) (a b : Opd)
  | srem (h : Hdr) (d : Option Nat) (a b : Opd)
  | shas (h : Hdr) (d : MDst) (a b : Opd)
  | scard (h : Hdr) (d : Nat) (a : Opd)
  | sand (h : Hdr) (card : Option Nat) (d a b : Opd)
  | sor (h : Hdr) (card : Option Nat) (d a b : Opd)
  | ssub (h : Hdr) (card : Option Nat) (d a b : Opd)
  | sxor (h : Hdr) (card : Option Nat) (d a b : Opd)
  | sitr (h : Hdr) (sc : Nat) (d : Nat) (a b : Opd)
  | scost (h : Hdr) (op : Nat) (d : Nat) (a b c : Opd)
  | sinfo (h : Hdr) (d : Nat) (a b : Opd) (key : Nat)
  | sinfoPin (h : Hdr) (a b : Opd)
  | srank (h : Hdr) (sel : Bool) (d : Nat) (a b : Opd)
  | sload (h : Hdr) (str : Nat) (d : Dst) (base : Nat)
  | sstore (h : Hdr) (str : Nat) (d : Nat) (a : Opd) (base lim : Nat) (start : Option Word)
  | setAcceptance (agent : Nat)
  | setCompletion (op : Nat)
  | iteratorEntry (panel chan : Nat)
  -- tasks and the Easel (spec/15_tasks_easel.md)
  | tspawn (h : Hdr) (d : Nat) (a b : Opd)
  | tyld (h : Hdr) (d : Nat) (a b : Opd)
  | alloc (h : Hdr) (sc : Nat) (d : Dst)
  | eqpush (h : Hdr) (d : Option Nat) (e : Nat) (q : Opd)
  | eqcomb (h : Hdr) (str : Nat) (a : Opd) (grp gate : Nat)
  | eqcfg (h : Hdr) (n : Nat) (d r : Nat) (q : Opd)
  | eqstat (h : Hdr) (d : Nat) (q sel : Opd)
  -- system (spec/17_traps.md, spec/16_isolation.md R313)
  | trap (h : Hdr) (b : Opd)
  | rtt (sw : Bool)
  | pdone (h : Hdr) (a : Nat)
  | ckpt (h : Hdr) (d : Nat) (b : Opd)
  | ckptHint (h : Hdr) (b : Opd)
  | tlbiRng (h : Hdr) (a : Nat) (b : Opd)
  | tlbiAll (h : Hdr)
  | tlbiNg (h : Hdr)
  | errd (h : Hdr) (clr : Bool) (d : Nat) (b : Opd)
  | halt (h : Hdr) (b : Opd)
  -- results, packets and engines at their homes
  | resultReturn (r : Nat) (how : Served)
  | writePacketAtHome (p : Nat) (how : RemoteAck)
  | ackReceived (k : Nat)
  | acktimeout (agent : Nat)
  | remoteReadTimeout (r : Nat)
  | packetAgeDiscard (p : Parcel)
  | uncorrectableHeaderDrop (p : Parcel) (atHome : Bool) (port link layer : Nat)
  | flitCrcRetransmit (lane : Nat)
  | chunkLanded (copy chunk : Nat)
  | mcastDelivery (copy chunk dest : Nat) (how : RemoteAck)
  | collHop (coll : Nat) (others : List CollOther)
  | combineDeposit (dep : Nat)
  | easelAgeExpiry (q : Nat)
  | easelFiring (die : Nat)
  | taskFormingTimer (core : Nat)
  | taskStrokeStart (core : Nat)
  | stealRequest (core : Nat)
  | commissionLaunch (queue : Nat)
  | ttInstanceDue (entry : Nat)
  | ptpMessage (m : PtpMsg)
  | panelPlacement (comm : Nat)
  | panelRetire (panel : Nat)
  | commissionRetire (comm : Nat)
  | starvationExpiry (agent : Nat)
  | preemptRequest (who : Requester) (panel latency : Nat)
  | panelSave (panel : Nat)
  | preemptBoundExpiry (panel : Nat)
  | panelRestore (panel : Nat)
  | egressDescriptor (ctx chan : Nat)
  | rdmaWrite (ctx qp : Nat) (va : DWord) (bytes : List Byte)
  | rdmaRead (ctx qp : Nat) (va : DWord) (n : Nat)
  | rdmaRefused (qp : Nat)
  -- power, self-test and management (spec/19_health.md)
  | powerOn
  | bistComplete (failed : List TestedUnit)
  | recoverFetch
  | recoverImageReceived (img : FwImage)
  | marginSample (u : ErrUnit) (margin : Nat) (hardLimit : Bool)
  | onlineRepairSwitch (repair : Nat)
  | laneRetrainComplete (port : Nat)
  | identity
  | status
  | logread (signer : Option MgmtKey) (seq : Nat)
  | logclear (signer : Option MgmtKey)
  | counters (signer : Option MgmtKey)
  | thresh (signer : Option MgmtKey) (u : ErrUnit) (v : Word)
  | margin (signer : Option MgmtKey) (u : ErrUnit) (v : Nat)
  | mgmtFence (signer : Option MgmtKey) (core : Nat)
  | unfence (signer : Option MgmtKey) (core : Nat)
  | tilemap (signer : Option MgmtKey) (core : Nat)
  | rowmap (signer : Option MgmtKey) (core bank row : Nat) (column : Bool)
  | bankmap (signer : Option MgmtKey) (core : Nat) (bank : BankName)
  | lanemap (signer : Option MgmtKey) (lane : LaneName)
  | chanmap (signer : Option MgmtKey) (chan : Nat)
  | image (signer : Option MgmtKey) (img : FwImage)
  | reset (signer : Option MgmtKey)
  -- requests of the device manager (spec/16_isolation.md R305-R320)
  | createContext (signer : Option MgmtKey) (p : CtxParams)
  | killContext (signer : Option MgmtKey) (ctx : Nat)
  | killDrainComplete (ctx : Nat)
  | registerCommissionQueue (signer : Option MgmtKey) (queue : Nat) (r : QueueReg)
  | writeTtEntry (signer : Option MgmtKey) (entry : Nat) (e : TTEntry)
  | setExportWindow (signer : Option MgmtKey) (ctx : Nat) (w : ExportWin)
  | assignEaselQueues (signer : Option MgmtKey) (ctx : Nat) (qs : List Nat)
  | configureEgressChannel (signer : Option MgmtKey) (ctx chan : Nat) (c : EgressCfg)
  | measureIntoContext (signer : Option MgmtKey) (ctx : Nat) (bytes : List Byte)
  | attestationReport (signer : Option MgmtKey) (ctx : Nat) (nonce : BitVec 256)
  | resetChunkPool (signer : Option MgmtKey) (ctx : Nat)
  | endCommission (signer : Option MgmtKey) (comm : Nat)
  | deviceRegisterWrite (reg : Nat) (v : DWord)
  | ptpSourceUnlocked
  | operandFillComplete (fill : Nat)
  | imageReadComplete (agent : Nat)
  | unregisterCommissionQueue (signer : Option MgmtKey) (queue : Nat)
  | extendGrants (signer : Option MgmtKey) (ctx : Nat) (r : Range)
  | enlargeSaveRegion (signer : Option MgmtKey) (ctx : Nat) (size : Nat)
deriving DecidableEq, Repr

end Sys2Proof
end

