-- ==== Sys2Proof/Decode.lean ====
section
/-! DEFINITION. The decoder, total on any words and rejecting by name, and the encoder (spec/02_encoding.md R28-R38 and
the encoding tables of each instruction's rule). ILLOP is checked before RESFIELD (R38). -/

namespace Sys2Proof

/-- Why words are no instruction (R38). -/
inductive Reject where
  | illop | resfield
deriving DecidableEq, Repr

abbrev Dec := Except Reject

/-- Bits [hi:lo] of a number. -/
def fld (x hi lo : Nat) : Nat := (x / 2 ^ lo) % 2 ^ (hi + 1 - lo)

/-- An instruction's words taken apart by R30 and R31; `w` and `ext` are the words themselves. -/
structure Raw where
  w : Nat
  ext : Nat
  sw : Bool
  op : Nat
  km : Nat
  la : Bool
  lb : Bool
  lc : Bool
  x : Bool
  d : Nat
  a : Nat
  b : Nat
  c : Nat
  ft : Nat
  fv : Nat

def rawOf (w ext : Nat) : Raw :=
  { w := w, ext := ext, sw := Nat.testBit w 63, op := fld w 62 55, km := fld w 54 51, la := Nat.testBit w 50
    lb := Nat.testBit w 49, lc := Nat.testBit w 48, x := Nat.testBit w 47, d := fld w 46 38, a := fld w 37 29
    b := fld w 28 20, c := fld w 19 11, ft := fld w 10 7, fv := fld w 6 0 }

def Raw.hdr (r : Raw) : Hdr := { sw := r.sw, km := r.km, la := r.la, lb := r.lb, lc := r.lc }

/-- ILLOP unless the condition holds. -/
def legal (c : Bool) : Dec Unit := if c then .ok () else .error .illop
/-- RESFIELD unless the condition holds. -/
def field (c : Bool) : Dec Unit := if c then .ok () else .error .resfield

/-! ## Types, modes and operands -/

def tyOfCode : Nat → Ty
  | 1 => .i8 | 2 => .i16 | 3 => .i32 | 4 => .i64 | 5 => .n8 | 6 => .n16 | 7 => .n32 | 8 => .n64
  | 9 => .b8 | 10 => .b16 | 11 => .b32 | 12 => .b64 | 13 => .f32 | 14 => .f16 | 15 => .bf16 | _ => .none

def codeOfTy : Ty → Nat
  | .none => 0 | .i8 => 1 | .i16 => 2 | .i32 => 3 | .i64 => 4 | .n8 => 5 | .n16 => 6 | .n32 => 7 | .n64 => 8
  | .b8 => 9 | .b16 => 10 | .b32 => 11 | .b64 => 12 | .f32 => 13 | .f16 => 14 | .bf16 => 15

/-- Width of a type code in bits (R36). -/
def tyBits : Ty → Nat
  | .none => 0
  | .i8 => 8 | .n8 => 8 | .b8 => 8
  | .i16 => 16 | .n16 => 16 | .b16 => 16 | .f16 => 16 | .bf16 => 16
  | .i32 => 32 | .n32 => 32 | .b32 => 32 | .f32 => 32
  | .i64 => 64 | .n64 => 64 | .b64 => 64

def rndOfCode : Nat → Option Rnd
  | 0 => some .rne | 1 => some .rtz | 2 => some .rup | 3 => some .rdn | 4 => some .rsk | _ => none

def codeOfRnd : Rnd → Nat
  | .rne => 0 | .rtz => 1 | .rup => 2 | .rdn => 3 | .rsk => 4

/-- A rounding mode; codes 5-7 raise RESFIELD (R76). -/
def rndField (c : Nat) : Dec Rnd :=
  match rndOfCode c with
  | some m => .ok m
  | none => .error .resfield

def ccOfCode : Nat → CC
  | 0 => .eq | 1 => .ne | 2 => .lt | 3 => .le | 4 => .gt | 5 => .ge | 6 => .un | _ => .or

def codeOfCc : CC → Nat
  | .eq => 0 | .ne => 1 | .lt => 2 | .le => 3 | .gt => 4 | .ge => 5 | .un => 6 | .or => 7

/-- A source operand field (R34). -/
def opdOf (f : Nat) : Opd :=
  if f < 0xC0 then .v f
  else if f < 0x100 then .s (f - 0xC0)
  else if f < 0x180 then .peek (f - 0x100)
  else .pop (f - 0x180)

def opdField : Opd → Nat
  | .v n => n
  | .s n => 0xC0 + n
  | .peek c => 0x100 + c
  | .pop c => 0x180 + c
  | .imm _ => 0

/-- A destination operand field: bit 8 with bit 7 raises RESFIELD (R34). -/
def dstOf (f : Nat) : Dec Dst :=
  if f < 0xC0 then .ok (.v f)
  else if f < 0x100 then .ok (.s (f - 0xC0))
  else if f < 0x180 then .ok (.push (f - 0x100))
  else .error .resfield

def dstField : Dst → Nat
  | .v n => n
  | .s n => 0xC0 + n
  | .push c => 0x100 + c

/-- A mask field (R88). -/
def maskOf? (f : Nat) : Dec KReg :=
  if f < 0x10 then .ok (.k f) else if f = 0x10 then .ok .em else .error .resfield

def kField : KReg → Nat
  | .k n => n
  | .em => 0x10

/-- The extension rule of R35 for a width of n bits. -/
def immOk (n : Nat) (e : Nat) : Bool :=
  if 64 ≤ n then true
  else
    let hi := e / 2 ^ n
    hi == 0 || (hi == 2 ^ (64 - n) - 1 && Nat.testBit e (n - 1))

/-- Source B or the immediate that takes its place (R35). -/
def srcB (r : Raw) (n : Nat) : Dec Opd :=
  if r.x then do
    field (r.b == 0 && !r.lb)
    field (immOk n r.ext)
    return .imm (BitVec.ofNat 64 r.ext)
  else .ok (opdOf r.b)

def isVec : Opd → Bool
  | .v _ => true
  | _ => false

def isChanOpd : Opd → Bool
  | .pop _ => true
  | .peek _ => true
  | _ => false

/-- A scalar register. -/
def isSreg : Opd → Bool
  | .s _ => true
  | _ => false

/-- A scalar register or an immediate. -/
def isScalar : Opd → Bool
  | .s _ => true
  | .imm _ => true
  | _ => false

/-- A vector operand of a 64-bit type has an even number (R67). -/
def pairOk (bits : Nat) : Opd → Bool
  | .v n => bits != 64 || n % 2 == 0
  | _ => true

def dstPairOk (bits : Nat) : Dst → Bool
  | .v n => bits != 64 || n % 2 == 0
  | _ => true

def dstScalar : Dst → Bool
  | .s _ => true
  | _ => false

def dstPush : Dst → Bool
  | .push _ => true
  | _ => false

/-- A scalar destination takes scalar or immediate sources only (R87). -/
def scalarRule (d : Dst) (srcs : List Opd) : Bool := !dstScalar d || srcs.all isScalar

def noA (r : Raw) : Bool := r.a == 0 && !r.la
def noB (r : Raw) : Bool := r.b == 0 && !r.lb
def noC (r : Raw) : Bool := r.c == 0 && !r.lc

def intTys : List Ty := [.i8, .i16, .i32, .i64, .n8, .n16, .n32, .n64]
def bitTys : List Ty := [.b8, .b16, .b32, .b64]
def floatTys : List Ty := [.f32, .f16, .bf16]

/-! ## Control and divergence (R39-R45, R260-R272) -/

/-- Everything below the header, KM, X and the last-read bits are 0. -/
def bare (r : Raw) : Bool := r.w % 2 ^ 55 == 0

def offOf (r : Raw) : BitVec 36 := BitVec.ofNat 36 (fld r.w 46 11)

/-- Format B of the control instructions: F.KIND and F.SREG after the checks of R33. -/
def formatB (r : Raw) (scalarKind : Bool) : Dec (Nat × Nat) := do
  let kind := fld r.w 10 9
  field (!r.x && !r.la && !r.lb && !r.lc && fld r.w 8 6 == 0)
  field (kind == 0 || (kind == 1 && scalarKind))
  return (kind, fld r.w 5 0)

def decControl (r : Raw) : Dec Instr :=
  match r.op with
  | 0x00 => do field (bare r); return .nop r.sw
  | 0x08 => do field (bare r); return .land r.sw
  | 0x01 => do
    let (_, n) ← formatB r false
    field (r.km == 0 && n == 0)
    return .bra r.sw (offOf r)
  | 0x02 => do
    let (k, n) ← formatB r true
    if k = 0 then do field (n == 0); return .brzMask r.sw r.km (offOf r)
    else do field (r.km == 0); return .brzScalar r.sw n (offOf r)
  | 0x03 => do
    let (k, n) ← formatB r true
    if k = 0 then do field (n == 0); return .brnzMask r.sw r.km (offOf r)
    else do field (r.km == 0); return .brnzScalar r.sw n (offOf r)
  | 0x04 => do
    let (_, n) ← formatB r false
    field (r.km == 0)
    return .call r.sw n (offOf r)
  | 0x05 => do
    field (r.km == 0 && !r.x && !r.lb && !r.lc && r.d == 0 && r.b == 0 && r.c == 0 && fld r.w 10 0 == 0)
    field (isSreg (opdOf r.a))
    return .ret r.sw r.la (r.a - 0xC0)
  | 0x06 => do field (bare r); return .exit r.sw
  | 0x07 => do
    let (_, n) ← formatB r false
    field (r.km == 0)
    return .loop r.sw n (offOf r)
  | 0x0F => do
    field (r.km == 0 && r.x && r.d == 0 && noA r && noB r && noC r && r.ft == 0 && fld r.fv 6 3 == 0)
    field (fld r.fv 1 0 != 3)
    return .rgn r.sw (fld r.fv 1 0) (Nat.testBit r.fv 2) (BitVec.ofNat 64 r.ext)
  | _ => .error .illop

def decDivergence (r : Raw) : Dec Instr :=
  match r.op with
  | 0x09 => do
    legal (r.ft == 0)
    field (r.km == 0 && !r.x && r.d == 0 && noB r && noC r && fld r.fv 6 3 == 0)
    let a := opdOf r.a
    field (!isChanOpd a && pairOk 64 a)
    return .brx r.sw r.la (fld r.fv 2 0) a
  | 0x0A => do
    field (r.km == 0 && !r.x && !r.la && !r.lb && !r.lc && fld r.w 3 0 == 0)
    return .split r.sw (fld r.w 10 7) (fld r.w 6 4) (offOf r)
  | 0x0B => do
    field (r.ft == 0 && r.km == 0 && !r.x && r.d == 0 && noA r && noB r && noC r && fld r.fv 6 3 == 0)
    return .join r.sw (fld r.fv 2 0)
  | 0x0C => do
    legal (r.ft == 0)
    field (r.km == 0 && !r.x && r.d == 0 && !r.la && !r.lb && noC r && fld r.fv 6 1 == 0)
    let ka ← maskOf? r.a
    let kb ← maskOf? r.b
    field (!Nat.testBit r.fv 0 || r.b == 0)
    return .meld r.sw (Nat.testBit r.fv 0) ka kb
  | 0x0D => do field (bare r); return .mend r.sw
  | 0x0E => do
    legal (r.ft == 0)
    field (r.km == 0 && !r.x && !r.la && !r.lb && !r.lc && fld r.fv 6 4 == 0)
    field (decide (r.a < 0xC0) && decide (r.b < 0xC0) && decide (r.c < 0xC0) && decide (r.d < 0xC0))
    return .path r.sw (fld r.fv 3 0) r.a r.b r.c r.d
  | _ => .error .illop

/-! ## Integer and bit (R90-R95) -/

/-- An instruction d, a, b of one type; F.VAR has been checked. -/
def dec2 (r : Raw) (t : Ty) (k : Hdr → Ty → Dst → Opd → Opd → Instr) : Dec Instr := do
  let d ← dstOf r.d
  let a := opdOf r.a
  let b ← srcB r (tyBits t)
  field (noC r)
  field (scalarRule d [a, b] && dstPairOk (tyBits t) d && pairOk (tyBits t) a && pairOk (tyBits t) b)
  return k r.hdr t d a b

/-- As `dec2`, with b read at n bits, whatever the type: a count at 32 (R94), BFE's control at 16 (R95, R35). -/
def dec2At (r : Raw) (n : Nat) (t : Ty) (k : Hdr → Ty → Dst → Opd → Opd → Instr) : Dec Instr := do
  let d ← dstOf r.d
  let a := opdOf r.a
  let b ← srcB r n
  field (noC r)
  field (scalarRule d [a, b] && dstPairOk (tyBits t) d && pairOk (tyBits t) a)
  return k r.hdr t d a b

def dec1 (r : Raw) (t td : Ty) (k : Hdr → Ty → Dst → Opd → Instr) : Dec Instr := do
  let d ← dstOf r.d
  let a := opdOf r.a
  field (!r.x && noB r && noC r)
  field (scalarRule d [a] && dstPairOk (tyBits td) d && pairOk (tyBits t) a)
  return k r.hdr t d a

def dec3 (r : Raw) (t : Ty) (k : Hdr → Ty → Dst → Opd → Opd → Opd → Instr) : Dec Instr := do
  let d ← dstOf r.d
  let a := opdOf r.a
  let b ← srcB r (tyBits t)
  let c := opdOf r.c
  field (scalarRule d [a, b, c] && dstPairOk (tyBits t) d && pairOk (tyBits t) a && pairOk (tyBits t) b &&
    pairOk (tyBits t) c)
  return k r.hdr t d a b c

/-- BFI: as `dec3`, with the control b read at 16 bits (R95, R35). -/
def decBfi (r : Raw) (t : Ty) : Dec Instr := do
  let d ← dstOf r.d
  let a := opdOf r.a
  let b ← srcB r 16
  let c := opdOf r.c
  field (scalarRule d [a, b, c] && dstPairOk (tyBits t) d && pairOk (tyBits t) a && pairOk (tyBits t) c)
  return .bfi r.hdr t d a b c

def decInteger (r : Raw) : Dec Instr :=
  let t := tyOfCode r.ft
  let ints := intTys.contains t
  let plain := r.fv == 0
  let bit0 := fld r.fv 6 1 == 0
  let f0 := Nat.testBit r.fv 0
  match r.op with
  | 0x10 => do legal ints; field plain; dec2 r t .iadd
  | 0x11 => do legal ints; field plain; dec2 r t .isub
  | 0x12 => do
    legal (t == .n32 || t == .n64)
    field (fld r.fv 6 5 == 0)
    dec2 r t fun h t d a b => .iaddc h t (Nat.testBit r.fv 4) (fld r.fv 3 0) d a b
  | 0x13 => do legal ints; field bit0; dec2 r t fun h t d a b => .iadds h t f0 d a b
  | 0x14 => do legal ints; field plain; dec2 r t .imul
  | 0x15 => do legal ints; field plain; dec2 r t .imulh
  | 0x16 => do legal ints; field plain; dec3 r t .imad
  | 0x17 => do legal ints; field plain; dec2 r t .idiv
  | 0x18 => do legal ints; field plain; dec2 r t .irem
  | 0x19 => do legal ints; field plain; dec2 r t .imin
  | 0x1A => do legal ints; field plain; dec2 r t .imax
  | 0x1B => do
    legal ([Ty.i8, .i16, .i32, .i64].contains t)
    field bit0
    dec1 r t t fun h t d a => .iabs h t f0 d a
  | 0x1C => do
    legal ([Ty.i32, .n32, .i64, .n64].contains t)
    field (fld r.fv 6 3 == 0)
    let d ← dstOf r.d
    let a := opdOf r.a
    let b ← srcB r (tyBits t)
    field (noC r)
    field (scalarRule d [a, b] && dstPairOk 64 d && pairOk 64 a && pairOk (tyBits t) b)
    return .lea r.hdr t (fld r.fv 2 0) d a b
  | 0x1D => do
    legal (ints && fld r.fv 2 0 != 6 && fld r.fv 2 0 != 7)
    field (fld r.fv 6 3 == 0)
    let kd ← maskOf? r.d
    let a := opdOf r.a
    let b ← srcB r (tyBits t)
    field (noC r)
    field (pairOk (tyBits t) a && pairOk (tyBits t) b)
    return .icmp r.hdr t (ccOfCode (fld r.fv 2 0)) kd a b
  | 0x1E => do
    legal (t == .b32 || t == .b64)
    field (fld r.fv 6 4 == 0)
    let d ← dstOf r.d
    field (!dstScalar d)
    dec2 r t fun h t d a b => .sel h t (fld r.fv 3 0) d a b
  | 0x1F => do legal (bitTys.contains t); field plain; dec1 r t t .mov
  | 0x20 => do legal (bitTys.contains t); field plain; dec2 r t .and
  | 0x21 => do legal (bitTys.contains t); field plain; dec2 r t .or
  | 0x22 => do legal (bitTys.contains t); field plain; dec2 r t .xor
  | 0x23 => do legal (bitTys.contains t); field plain; dec2 r t .andn
  | 0x24 => do legal (bitTys.contains t); field plain; dec2At r 32 t .shl
  | 0x25 => do legal (bitTys.contains t); field plain; dec2At r 32 t .shr
  | 0x26 => do legal (bitTys.contains t); field plain; dec2At r 32 t .sar
  | 0x27 => do legal (bitTys.contains t); field bit0; dec2At r 32 t fun h t d a b => .rot h t f0 d a b
  | 0x28 => do legal (bitTys.contains t); field plain; dec1 r t .n32 .popc
  | 0x29 => do legal (bitTys.contains t); field plain; dec1 r t .n32 .clz
  | 0x2A => do legal (bitTys.contains t); field plain; dec1 r t t .brev
  | 0x2B => do legal (bitTys.contains t); field bit0; dec2At r 16 t fun h t d a b => .bfe h t f0 d a b
  | 0x2C => do legal (bitTys.contains t); field plain; decBfi r t
  | 0x2D => do legal (t == .b32); field plain; dec3 r t fun h _ d a b c => .prmt h d a b c
  | 0x2E => do
    legal (bitTys.contains t || floatTys.contains t)
    field (plain && r.x && noA r && noB r && noC r)
    let d ← dstOf r.d
    field (dstPairOk (tyBits t) d && immOk (tyBits t) r.ext)
    return .movi r.hdr t d (BitVec.ofNat 64 r.ext)
  | _ => .error .illop

/-! ## Floating point (R96-R99) -/

/-- F.VAR of R96. `allow`: SAT, PK and RND may be used. -/
def fmodeOf (r : Raw) (t : Ty) : Dec FMode := do
  field (fld r.fv 6 5 == 0 && !(Nat.testBit r.fv 3 && t == .f32))
  let m ← rndField (fld r.fv 2 0)
  return { sat := Nat.testBit r.fv 4, pk := Nat.testBit r.fv 3, rnd := m }

/-- Width of an immediate at a floating-point type: 32 for a packed pair (R35). -/
def fImm (t : Ty) (pk : Bool) : Nat := if pk then 32 else tyBits t

def decF1 (r : Raw) (t : Ty) (k : Hdr → Ty → FMode → Dst → Opd → Instr) : Dec Instr := do
  let m ← fmodeOf r t
  let d ← dstOf r.d
  let a := opdOf r.a
  field (!r.x && noB r && noC r && scalarRule d [a])
  return k r.hdr t m d a

def decF2 (r : Raw) (t : Ty) (k : Hdr → Ty → FMode → Dst → Opd → Opd → Instr) : Dec Instr := do
  let m ← fmodeOf r t
  let d ← dstOf r.d
  let a := opdOf r.a
  let b ← srcB r (fImm t m.pk)
  field (noC r && scalarRule d [a, b])
  return k r.hdr t m d a b

def decF3 (r : Raw) (t : Ty) (k : Hdr → Ty → FMode → Dst → Opd → Opd → Opd → Instr) : Dec Instr := do
  let m ← fmodeOf r t
  let d ← dstOf r.d
  let a := opdOf r.a
  let b ← srcB r (fImm t m.pk)
  let c := opdOf r.c
  field (scalarRule d [a, b, c])
  return k r.hdr t m d a b c

/-- F.VAR with PK only (FMIN, FMAX, FCLASS). -/
def pkOnly (r : Raw) (t : Ty) : Dec Bool := do
  field (fld r.fv 6 4 == 0 && fld r.fv 2 0 == 0 && !(Nat.testBit r.fv 3 && t == .f32))
  return Nat.testBit r.fv 3

def decFloat (r : Raw) : Dec Instr :=
  let t := tyOfCode r.ft
  let fl := floatTys.contains t
  match r.op with
  | 0x30 => do legal fl; decF2 r t .fadd
  | 0x31 => do legal fl; decF2 r t .fsub
  | 0x32 => do legal fl; decF2 r t .fmul
  | 0x33 => do legal fl; decF3 r t .ffma
  | 0x34 => do
    legal fl
    let pk ← pkOnly r t
    let d ← dstOf r.d
    let b ← srcB r (fImm t pk)
    field (noC r && scalarRule d [opdOf r.a, b])
    return .fmin r.hdr t pk d (opdOf r.a) b
  | 0x35 => do
    legal fl
    let pk ← pkOnly r t
    let d ← dstOf r.d
    let b ← srcB r (fImm t pk)
    field (noC r && scalarRule d [opdOf r.a, b])
    return .fmax r.hdr t pk d (opdOf r.a) b
  | 0x36 => do
    legal fl
    field (fld r.fv 6 3 == 0)
    let kd ← maskOf? r.d
    let b ← srcB r (tyBits t)
    field (noC r)
    return .fcmp r.hdr t (ccOfCode (fld r.fv 2 0)) kd (opdOf r.a) b
  | 0x37 => do legal fl; decF2 r t .fdiv
  | 0x38 => do legal fl; decF1 r t .fsqrt
  | 0x39 => do legal fl; decF1 r t .frcp
  | 0x3A => do legal fl; decF1 r t .frsq
  | 0x3B => do legal fl; decF1 r t .fex2
  | 0x3C => do legal fl; decF1 r t .flg2
  | 0x3D => do legal fl; decF1 r t .ftanh
  | 0x3E => do
    legal fl
    let m ← fmodeOf r t
    field (!m.sat)
    decF1 r t fun h t m d a => .frnd h t m.pk m.rnd d a
  | 0x3F => do
    legal fl
    let pk ← pkOnly r t
    let d ← dstOf r.d
    field (!r.x && noB r && noC r && scalarRule d [opdOf r.a])
    return .fclass r.hdr t pk d (opdOf r.a)
  | 0x40 => do
    legal (t == .f16 || t == .bf16)
    let m ← fmodeOf r t
    field (!m.pk)
    let d ← dstOf r.d
    let b ← srcB r 32
    field (scalarRule d [opdOf r.a, b, opdOf r.c])
    return .fdot2 r.hdr t m.sat m.rnd d (opdOf r.a) b (opdOf r.c)
  | 0x41 => do
    legal fl
    let m ← fmodeOf r t
    let d ← dstOf r.d
    let b ← srcB r 32
    field (noC r && scalarRule d [opdOf r.a, b])
    return .fscale r.hdr t m d (opdOf r.a) b
  | _ => .error .illop

/-! ## Conversions (R100-R103) -/

def elemOfCode : Nat → Option Elem
  | 0 => some .i8 | 1 => some .i4 | 2 => some .mxi8 | 3 => some .e4m3 | 4 => some .e5m2 | 5 => some .e2m3
  | 6 => some .e3m2 | 7 => some .e2m1 | 8 => some .trit | _ => none

def codeOfElem : Elem → Nat
  | .i8 => 0 | .i4 => 1 | .mxi8 => 2 | .e4m3 => 3 | .e5m2 => 4 | .e2m3 => 5 | .e3m2 => 6 | .e2m1 => 7 | .trit => 8

def decQ (r : Raw) (k : Hdr → Elem → Rnd → Dst → Opd → Opd → Instr) : Dec Instr :=
  match tyOfCode r.ft, elemOfCode (fld r.fv 6 3) with
  | .f32, some e => do
    let m ← rndField (fld r.fv 2 0)
    let d ← dstOf r.d
    let b ← srcB r 32
    field (noC r && scalarRule d [opdOf r.a, b])
    return k r.hdr e m d (opdOf r.a) b
  | _, _ => .error .illop

def cvtTys : List Ty := intTys ++ floatTys

def decConvert (r : Raw) : Dec Instr :=
  let t := tyOfCode r.ft
  match r.op with
  | 0x50 => do
    let ts := tyOfCode (fld r.fv 6 3)
    legal (cvtTys.contains t && cvtTys.contains ts)
    let m ← rndField (fld r.fv 2 0)
    let d ← dstOf r.d
    let a := opdOf r.a
    field (!r.x && noB r && noC r && scalarRule d [a] && dstPairOk (tyBits t) d && pairOk (tyBits ts) a)
    return .cvt r.hdr t ts m d a
  | 0x51 => decQ r .qnt
  | 0x52 => decQ r .dqnt
  | 0x53 => do
    legal (r.ft == 0)
    field (r.fv == 0)
    let d ← dstOf r.d
    let b ← srcB r 32
    field (noC r && scalarRule d [opdOf r.a, b])
    return .tpack r.hdr d (opdOf r.a) b
  | 0x54 => do
    legal (r.ft == 0)
    field (r.fv == 0)
    let d ← dstOf r.d
    let b ← srcB r 32
    field (noC r && scalarRule d [opdOf r.a, b])
    return .tunpk r.hdr d (opdOf r.a) b
  | 0x55 => do
    legal ([Ty.i8, .n8, .i16, .n16, .f16, .bf16].contains t)
    let nib := Nat.testBit r.fv 3
    let isF := floatTys.contains t
    let m ← rndField (fld r.fv 2 0)
    field (fld r.fv 6 4 == 0 && (isF || m == .rne) && (!nib || t == .i8 || t == .n8))
    let d ← dstOf r.d
    let b ← srcB r 32
    if t == .i8 || t == .n8 then do
      field (scalarRule d [opdOf r.a, b, opdOf r.c])
      return .pack r.hdr t nib m d (opdOf r.a) b (some (opdOf r.c))
    else do
      field (noC r && scalarRule d [opdOf r.a, b])
      return .pack r.hdr t nib m d (opdOf r.a) b none
  | 0x56 => do
    legal ([Ty.i8, .n8, .i16, .n16, .f16, .bf16].contains t)
    let nib := Nat.testBit r.fv 3
    let isF := floatTys.contains t
    let m ← rndField (fld r.fv 2 0)
    field (fld r.fv 6 4 == 0 && (isF || m == .rne) && (!nib || t == .i8 || t == .n8))
    let d ← dstOf r.d
    let b ← srcB r 32
    field (noC r && scalarRule d [opdOf r.a, b])
    return .unpk r.hdr t nib m d (opdOf r.a) b
  | _ => .error .illop

/-! ## Lane (R105-R109) -/

def shflOfCode : Nat → ShflMode
  | 0 => .idx | 1 => .up | 2 => .down | _ => .xor

def codeOfShfl : ShflMode → Nat
  | .idx => 0 | .up => 1 | .down => 2 | .xor => 3

def redOfCode : Nat → Option RedOp
  | 0 => some .add | 1 => some .min | 2 => some .max | 3 => some .and | 4 => some .or | 5 => some .xor | _ => none

def codeOfRed : RedOp → Nat
  | .add => 0 | .min => 1 | .max => 2 | .and => 3 | .or => 4 | .xor => 5

/-- The types that LRED and LSCAN pair with an op (R107). -/
def redTyOk (op : RedOp) (t : Ty) : Bool :=
  match op with
  | .add | .min | .max => [Ty.i32, .n32, .i64, .n64, .f32].contains t
  | _ => t == .b32 || t == .b64

/-- LRED and LSCAN (R107). LSCAN gives each lane a result of its own and takes no scalar destination (log 85). -/
def decRed (r : Raw) (excl : Bool) (k : Hdr → Ty → RedOp → Rnd → Dst → Opd → Instr) : Dec Instr :=
  let t := tyOfCode r.ft
  match redOfCode (fld r.fv 2 0) with
  | none => .error .illop
  | some op => do
    legal (redTyOk op t)
    field (excl || !Nat.testBit r.fv 6)
    let m ← rndField (fld r.fv 5 3)
    field (m == .rne || (op == .add && t == .f32))
    let d ← dstOf r.d
    let a := opdOf r.a
    -- LRED writes a scalar, from a vector source too, or a vector; LSCAN writes lanes (R107)
    field (!r.x && noB r && noC r && !dstPush d && (!excl || !dstScalar d) && dstPairOk (tyBits t) d && pairOk (tyBits t) a)
    return k r.hdr t op m d a

def voteOfCode : Nat → VoteKind
  | 0 => .ballot | 1 => .any | 2 => .all | _ => .uni

def codeOfVote : VoteKind → Nat
  | .ballot => 0 | .any => 1 | .all => 2 | .uni => 3

def decLane (r : Raw) : Dec Instr :=
  let t := tyOfCode r.ft
  let b2 := t == .b32 || t == .b64
  match r.op with
  | 0x60 => do
    legal b2
    field (fld r.fv 6 5 == 0)
    let d ← dstOf r.d
    let a := opdOf r.a
    let b ← srcB r 32
    field (noC r && scalarRule d [a, b] && dstPairOk (tyBits t) d && pairOk (tyBits t) a)
    return .shfl r.hdr t (shflOfCode (fld r.fv 1 0)) (fld r.fv 4 2) d a b
  | 0x61 => do
    legal (t == .b32 && decide (r.fv < 4))
    field (!r.x && noB r && noC r)
    if r.fv = 0 then do
      let k ← maskOf? r.d
      return .vote r.hdr .ballot (.mask k) (opdOf r.a)
    else do
      let d ← dstOf r.d
      field (!dstPush d)
      return .vote r.hdr (voteOfCode r.fv) (.reg d) (opdOf r.a)
  | 0x62 => decRed r false fun h t op m d a => .lred h t op m d a
  | 0x63 => do
    decRed r true fun h t op m d a => .lscan h t op m (Nat.testBit r.fv 6) d a
  | 0x64 => do
    legal (b2 && decide (r.fv < 2))
    let d ← dstOf r.d
    let a := opdOf r.a
    if r.fv = 0 then do
      let b ← srcB r 32
      field (noC r && !dstPush d && !isChanOpd b && dstPairOk (tyBits t) d && pairOk (tyBits t) a)
      return .bcast r.hdr t d a (some b)
    else do
      field (!r.x && noB r && noC r && !dstPush d && dstPairOk (tyBits t) d && pairOk (tyBits t) a)
      return .bcast r.hdr t d a none
  | 0x65 => do
    legal (t == .i32 || t == .n32 || t == .f32)
    field (fld r.fv 6 6 == 0 && decide (r.d ≤ 0xBE))
    let b ← srcB r 32
    field (noC r && !isChanOpd b)
    return .topk r.hdr t (fld r.fv 5 0) r.d (opdOf r.a) b
  | 0x66 => do
    legal (b2 && decide (r.fv < 2))
    field (!r.x && noB r && noC r && decide (r.d < 0xC0) && pairOk (tyBits t) (opdOf r.a))
    return .matchLanes r.hdr t (r.fv == 1) r.d (opdOf r.a)
  | _ => .error .illop

/-! ## Mask and special (R46-R48, R110) -/

def sregOfCode : Nat → Option SReg
  | 0x00 => some .laneid | 0x01 => some .stroke | 0x02 => some .width | 0x03 => some .panel | 0x04 => some .core
  | 0x05 => some (.lvl 0) | 0x06 => some (.lvl 1) | 0x07 => some (.lvl 2) | 0x08 => some (.lvl 3)
  | 0x09 => some (.lvl 4) | 0x0A => some .commid | 0x0B => some .ctx | 0x0C => some .priv | 0x0D => some .status
  | 0x10 => some .fpst | 0x11 => some .sstat | 0x12 => some .ssbytes | 0x13 => some .rstep | 0x14 => some .rkey
  | 0x20 => some .tcause | 0x21 => some .tpc | 0x22 => some .taddr | 0x23 => some .tlane0 | 0x24 => some .tlane1
  | 0x25 => some .taux | 0x26 => some .tvbase | _ => none

def codeOfSreg : SReg → Nat
  | .laneid => 0x00 | .stroke => 0x01 | .width => 0x02 | .panel => 0x03 | .core => 0x04 | .lvl n => 0x05 + n
  | .commid => 0x0A | .ctx => 0x0B | .priv => 0x0C | .status => 0x0D | .fpst => 0x10 | .sstat => 0x11
  | .ssbytes => 0x12 | .rstep => 0x13 | .rkey => 0x14 | .tcause => 0x20 | .tpc => 0x21 | .taddr => 0x22
  | .tlane0 => 0x23 | .tlane1 => 0x24 | .taux => 0x25 | .tvbase => 0x26

def sregField (f : Nat) : Dec SReg :=
  match sregOfCode f with
  | some x => .ok x
  | none => .error .resfield

/-- A scalar register field. -/
def sField (f : Nat) : Dec Nat := if 0xC0 ≤ f ∧ f < 0x100 then .ok (f - 0xC0) else .error .resfield

/-- A vector register field. -/
def vField (f : Nat) : Dec Nat := if f < 0xC0 then .ok f else .error .resfield

def kopOfCode : Nat → Option KopOp
  | 0 => some .and | 1 => some .or | 2 => some .xor | 3 => some .andn | 4 => some .not | _ => none

def codeOfKop : KopOp → Nat
  | .and => 0 | .or => 1 | .xor => 2 | .andn => 3 | .not => 4

def decMask (r : Raw) : Dec Instr :=
  match r.op with
  | 0x70 =>
    match kopOfCode r.fv with
    | none => .error .illop
    | some op => do
      legal (r.ft == 0)
      let kd ← maskOf? r.d
      let ka ← maskOf? r.a
      let kb ← maskOf? r.b
      -- a last-read bit on a mask has no effect (R17)
      field (!r.x && r.km == 0 && noC r && (op != .not || noB r))
      return .kop r.hdr op kd ka kb
  | 0x71 => do
    legal (r.ft == 0 && decide (r.fv < 6))
    field (!r.x && r.km == 0 && noB r && noC r)
    match r.fv with
    | 0 => do let kd ← maskOf? r.d; let ka ← maskOf? r.a; return .kmov r.hdr (.kk kd ka)
    | 1 => do let kd ← maskOf? r.d; let n ← sField r.a; return .kmov r.hdr (.loIn kd n)
    | 2 => do let kd ← maskOf? r.d; let n ← sField r.a; return .kmov r.hdr (.hiIn kd n)
    | 3 => do let n ← sField r.d; let ka ← maskOf? r.a; return .kmov r.hdr (.loOut n ka)
    | 4 => do let n ← sField r.d; let ka ← maskOf? r.a; return .kmov r.hdr (.hiOut n ka)
    | _ => do let n ← vField r.d; let ka ← maskOf? r.a; return .kmov r.hdr (.toV n ka)
  | 0x72 => do
    legal (r.ft == 0 && r.fv == 0)
    let n ← sField r.d
    let ka ← maskOf? r.a
    field (!r.x && r.km == 0 && noB r && noC r)
    return .kpop r.hdr n ka
  | 0x73 => do
    legal (r.ft == 0 && decide (r.fv < 2))
    let n ← sField r.d
    let ka ← maskOf? r.a
    let b ← srcB r 64
    field (isScalar b && r.km == 0 && noC r)
    return .kfnd r.hdr (r.fv == 1) n ka b
  | 0x74 => do
    legal (r.ft == 0)
    let x ← sregField r.fv
    let d ← dstOf r.d
    field (!r.x && noA r && noB r && noC r && !(dstScalar d && x == .laneid))
    return .srd r.hdr d x
  | 0x75 => do
    legal (r.ft == 0)
    let x ← sregField r.fv
    field (!r.x && r.d == 0 && noB r && noC r && !isChanOpd (opdOf r.a))
    return .swr r.hdr x (opdOf r.a)
  | 0x76 => do
    legal (r.ft == 0 && decide (r.fv < 2))
    let n ← sField r.d
    field (!r.x && r.km == 0 && noA r && noB r && noC r)
    return if r.fv = 0 then .clk r.hdr n else .clkPtp r.hdr n
  | _ => .error .illop

/-! ## System (R313, R328-R335) -/

def decSystem (r : Raw) : Dec Instr :=
  match r.op with
  | 0xE0 => do
    legal (r.ft == 0)
    field (r.fv == 0 && r.d == 0 && noA r && noC r)
    let b ← srcB r 64
    field (isScalar b && (!r.x || decide (r.ext < 2 ^ 16)))
    return .trap r.hdr b
  | 0xE1 => do field (bare r); return .rtt r.sw
  | 0xE2 => do
    field (r.ft == 0 && r.km == 0 && !r.x && r.d == 0 && noB r && noC r && r.fv == 0)
    let n ← sField r.a
    return .pdone r.hdr n
  | 0xE3 => do
    legal (r.ft == 0)
    field (fld r.fv 6 1 == 0 && r.km == 0 && noA r && noC r)
    let b ← srcB r (if r.fv = 0 then 64 else 32)
    field (isScalar b)
    if r.fv = 0 then do
      let n ← sField r.d
      field (!r.x || decide (r.ext < 2 ^ 11))
      return .ckpt r.hdr n b
    else do
      field (r.d == 0)
      return .ckptHint r.hdr b
  | 0xE4 => do
    legal (r.ft == 0 && fld r.fv 1 0 != 3)
    field (fld r.fv 6 2 == 0 && r.km == 0 && r.d == 0 && noC r)
    if fld r.fv 1 0 = 0 then do
      let n ← sField r.a
      let b ← srcB r 64
      field (isScalar b)
      return .tlbiRng r.hdr n b
    else do
      field (!r.x && noA r && noB r)
      return if fld r.fv 1 0 = 1 then .tlbiAll r.hdr else .tlbiNg r.hdr
  | 0xE5 => do
    legal (r.ft == 0)
    field (fld r.fv 6 1 == 0 && noA r && noC r)
    let n ← sField r.d
    let b ← srcB r 64
    field (isScalar b && (!r.x || decide (r.ext < 3)))
    return .errd r.hdr (Nat.testBit r.fv 0) n b
  | 0xE6 => do
    legal (r.ft == 0)
    field (r.fv == 0 && r.km == 0 && r.d == 0 && noA r && noC r)
    let b ← srcB r 64
    field (isScalar b && (!r.x || decide (r.ext < 2 ^ 16)))
    return .halt r.hdr b
  | _ => .error .illop

/-! ## Memory and atomics (R32, R167, R170-R175) -/

def ordOfCode : Nat → MOrd
  | 0 => .rlx | 1 => .acq | 2 => .rel | _ => .ar

def codeOfOrd : MOrd → Nat
  | .rlx => 0 | .acq => 1 | .rel => 2 | .ar => 3

def scopeOfCode : Nat → Option Scope
  | 0 => some .str | 1 => some .pnl | 2 => some .qd | 3 => some .die | 4 => some .pkg | 5 => some .fab | _ => none

def codeOfScope : Scope → Nat
  | .str => 0 | .pnl => 1 | .qd => 2 | .die => 3 | .pkg => 4 | .fab => 5

def scopeField (c : Nat) : Dec Scope :=
  match scopeOfCode c with
  | some x => .ok x
  | none => .error .resfield

def polOfCode : Nat → Pol
  | 0 => .norm | 1 => .once | 2 => .keep | _ => .byp

def codeOfPol : Pol → Nat
  | .norm => 0 | .once => 1 | .keep => 2 | .byp => 3

/-- WID and F of Format M. -/
def widOf (r : Raw) : Nat := fld r.w 8 6
def fnOf (r : Raw) : Nat := fld r.w 5 0

/-- The address part of Format M: an even vector base; 0x1FF is no index. `ords`: the ORD values accepted. -/
def addrOf (r : Raw) (ords : List MOrd) : Dec MAddr := do
  let ord := ordOfCode (fld r.w 19 18)
  let scp ← scopeField (fld r.w 17 15)
  field (ords.contains ord && pairOk 64 (opdOf r.a) && (r.b != 0x1FF || !r.lb))
  return { base := opdOf r.a, idx := if r.b = 0x1FF then none else some (opdOf r.b)
           ofs := if r.x then some (BitVec.ofNat 64 r.ext) else none
           ord := ord, scp := scp, str := fld r.w 14 11, pol := polOfCode (fld r.w 10 9) }

/-- Scalar base and index. -/
def scalarAddr (m : MAddr) : Bool := isSreg m.base && (match m.idx with
  | none => true
  | some i => isSreg i)

/-- A vector operand of a width code: an even pair for 64 bits, four registers from a multiple of 4 for 128 (R167). -/
def widVecOk (wid n : Nat) : Bool := if wid = 3 then n % 2 == 0 else if wid = 4 then n % 4 == 0 else true

def widDstOk (wid : Nat) : Dst → Bool
  | .v n => widVecOk wid n
  | .s _ => wid != 4
  | .push _ => decide (wid ≤ 2)

def widSrcOk (wid : Nat) : Opd → Bool
  | .v n => widVecOk wid n
  | .s _ => wid != 4
  | _ => decide (wid ≤ 2)

def loads : List MOrd := [.rlx, .acq]
def stores : List MOrd := [.rlx, .rel]
def anyOrd : List MOrd := [.rlx, .acq, .rel, .ar]

def mxFmtOfCode : Nat → Option MxFmt
  | 0 => some .mxi8 | 1 => some .mxf8e4m3 | 2 => some .mxf8e5m2 | 3 => some .mxf6e2m3 | 4 => some .mxf6e3m2
  | 5 => some .mxf4 | 6 => some .mxt | _ => none

def codeOfMxFmt : MxFmt → Nat
  | .mxi8 => 0 | .mxf8e4m3 => 1 | .mxf8e5m2 => 2 | .mxf6e2m3 => 3 | .mxf6e3m2 => 4 | .mxf4 => 5 | .mxt => 6

/-- LDMX and STMX: scalar base, a scalar index with SPLIT and none without it, a register pair from vd (R173). -/
def decMx (r : Raw) (ords : List MOrd) (lc : Bool) (k : Hdr → MxFmt → Bool → Nat → MAddr → Instr) : Dec Instr := do
  legal (decide (fnOf r < 16))
  match mxFmtOfCode (fld r.w 2 0) with
  | none => .error .illop
  | some f => do
    let split := Nat.testBit r.w 3
    let m ← addrOf r ords
    field (widOf r == 0 && scalarAddr m && (m.idx.isSome == split) && !(split && f == .mxt) && decide (r.d < 0xBF) && (lc || !r.lc))
    return k r.hdr f split r.d m

def sctOfCode : Nat → SctOp
  | 0 => .st | 1 => .add | _ => .addF32

def codeOfSct : SctOp → Nat
  | .st => 0 | .add => 1 | .addF32 => 2

def decMemory (r : Raw) : Dec Instr :=
  let wid := widOf r
  let f := fnOf r
  match r.op with
  | 0x80 => do
    legal (f == 0 || (f == 1 && decide (wid ≤ 1)))
    let m ← addrOf r loads
    let d ← dstOf r.d
    field (decide (wid ≤ 4) && !r.lc && widDstOk wid d && (!dstScalar d || scalarAddr m))
    return .ld r.hdr wid (f == 1) d m
  | 0x81 => do
    legal (f == 0)
    let m ← addrOf r stores
    let d := opdOf r.d
    field (decide (wid ≤ 4) && widSrcOk wid d && (!isSreg d || scalarAddr m))
    return .st r.hdr wid d m
  | 0x82 => do
    legal (f == 0)
    let m ← addrOf r loads
    let d ← vField r.d
    field (wid != 7 && !r.lc && d % 2 ^ wid == 0 && decide (d + 2 ^ wid ≤ 0xC0))
    return .ldg r.hdr wid d m
  | 0x83 => do
    legal (decide (f < 3))
    let m ← addrOf r stores
    let d := opdOf r.d
    field ((wid == 2 || (wid == 3 && f != 2)) && widSrcOk (if isVec d then wid else 2) d)
    return .sct r.hdr wid (sctOfCode f) d m
  | 0x84 => decMx r loads false .ldmx
  | 0x85 => decMx r stores true .stmx
  | 0x86 => do
    legal (f == 0)
    let m ← addrOf r [.rlx]
    field (r.d == 0 && wid == 0 && !r.lc)
    return .prf r.hdr m
  | _ => .error .illop

def atomOfCode : Nat → AtomOp
  | 0 => .add | 1 => .min | 2 => .max | 3 => .and | 4 => .or | 5 => .xor | 6 => .exch | _ => .addF32

def codeOfAtom : AtomOp → Nat
  | .add => 0 | .min => 1 | .max => 2 | .and => 3 | .or => 4 | .xor => 5 | .exch => 6 | .addF32 => 7

/-- WID, the signed bit and the data operand of an atomic (R175). -/
def atomField (r : Raw) (op : AtomOp) (sgn : Bool) (d : Dst) (m : MAddr) : Dec Unit :=
  field ((widOf r == 2 || (widOf r == 3 && op != .addF32)) && (!sgn || op == .min || op == .max) &&
    widDstOk (widOf r) d && decide (r.d < 0x100) && (!dstScalar d || scalarAddr m))

/-- An address operand of a stroke-wide instruction: a scalar, or a uniform vector pair (R177). -/
def wideOk (o : Opd) : Bool := !isChanOpd o && pairOk 64 o

/-- Operand B of CPY and BARX: the packed address, a scalar, or a channel (R181, R184). -/
def packedOk (o : Opd) : Bool := isSreg o || isChanOpd o

def promiseOfCode : Nat → Option Promise
  | 0 => some .conc | 1 => some .par | 2 => some .eng | _ => none

def codeOfPromise : Promise → Nat
  | .conc => 0 | .par => 1 | .eng => 2

def condOfCode : Nat → Option WCond
  | 0 => some .eq | 1 => some .ne | 2 => some .ge | _ => none

def codeOfCond : WCond → Nat
  | .eq => 0 | .ne => 1 | .ge => 2

/-- Majors 0x90 to 0x9F. A bit of F.VAR that a description gives no use is a reserved field (R38; log 115). -/
def decAtomic (r : Raw) : Dec Instr :=
  let wid := widOf r
  let f := fnOf r
  let op := atomOfCode (fld f 2 0)
  let sgn := Nat.testBit f 3
  match r.op with
  | 0x90 => do
    legal (decide (f < 16))
    let m ← addrOf r anyOrd
    let d ← dstOf r.d
    atomField r op sgn d m
    return .atom r.hdr wid op sgn d m
  | 0x91 => do
    legal (f == 0)
    let m ← addrOf r anyOrd
    let d ← dstOf r.d
    field ((wid == 2 || wid == 3) && (match d with
      | .v n => n % (if wid = 2 then 2 else 4) == 0
      | .s n => decide (n ≤ 61) && scalarAddr m
      | .push _ => false))
    return .acas r.hdr wid d m
  | 0x92 => do
    legal (decide (f < 32) && op != .exch)
    let m ← addrOf r anyOrd
    let d ← dstOf r.d
    atomField r op sgn d m
    return .red r.hdr wid op sgn (Nat.testBit f 4) d m
  | 0x93 => do
    legal (r.ft == 0)
    let scp ← scopeField (fld r.fv 4 2)
    field (fld r.fv 6 5 == 0 && fld r.fv 1 0 != 0 && r.km == 0 && r.d == 0 && noA r && noC r)
    let b ← srcB r 64
    field (isScalar b)
    return .fence r.hdr (ordOfCode (fld r.fv 1 0)) scp b
  | 0x94 => do
    field (r.ft == 0 && r.fv == 0 && !r.x && r.km == 0 && r.d == 0 && noB r && noC r && wideOk (opdOf r.a))
    return .bar r.hdr (opdOf r.a)
  | 0x95 => do
    legal (r.ft == 0)
    let scp ← scopeField (fld r.fv 3 1)
    let d := opdOf r.d
    field (fld r.fv 6 4 == 0 && !r.x && r.km == 0 && wideOk (opdOf r.a) && packedOk (opdOf r.b) && wideOk (opdOf r.c) && wideOk d)
    return .barx r.hdr (Nat.testBit r.fv 0) scp d (opdOf r.a) (opdOf r.b) (opdOf r.c)
  | 0x96 => do
    field (r.ft == 0 && r.fv == 0 && r.km == 0 && r.d == 0 && noC r && wideOk (opdOf r.a))
    let b ← srcB r 64
    field (isScalar b)
    return .binit r.hdr (opdOf r.a) b
  | 0x97 => do
    let t := tyOfCode r.ft
    legal (t == .n32 || t == .n64)
    let d ← sField r.d
    field (r.km == 0 && noC r && wideOk (opdOf r.a) && fld r.fv 2 0 != 0)
    let b ← srcB r (tyBits t)
    field (isScalar b)
    match promiseOfCode (fld r.fv 4 3), condOfCode (fld r.fv 6 5) with
    | some p, some c => return .waitf r.hdr t (fld r.fv 2 0) p c d (opdOf r.a) b
    | _, _ => .error .resfield
  | _ => .error .illop

/-! ## Engines (R184-R193) -/

/-- SBIND by its kind (R189). -/
def decSbind (r : Raw) : Dec Instr :=
  let a := opdOf r.a
  let one := fun (o : Opd) => !isChanOpd o
  match r.ft with
  | 0 => do
    field (r.km == 0 && !r.x && r.d == 0 && noA r && noB r && noC r)
    return .sbindUnbind r.hdr r.fv
  | 1 => do
    field (r.km == 0 && !r.x && r.d == 0 && noA r && noB r && noC r)
    return .sbindPrimer r.hdr r.fv
  | 2 => do
    field (r.km == 0 && r.d == 0 && wideOk a && one (opdOf r.c))
    let b ← srcB r 64
    field (one b)
    return .sbindRing r.hdr r.fv a b (opdOf r.c)
  | 3 => do
    field (r.km == 0 && !r.x && r.d == 0 && noB r && noC r && one a)
    return .sbindPort r.hdr r.fv a
  | 4 => do
    field (r.km == 0 && r.d == 0 && noC r && one a)
    let b ← srcB r 32
    field (one b)
    return .sbindIter r.hdr r.fv a b
  | 5 => do
    field (r.km == 0 && !r.x && noA r && noB r && noC r)
    let n ← sField r.d
    return .sbindQuery r.hdr r.fv n
  | _ => .error .illop

def decEngine (r : Raw) : Dec Instr :=
  let a := opdOf r.a
  match r.op with
  | 0xA0 => do
    legal (r.ft == 0)
    let scp ← scopeField (fld r.fv 3 1)
    field (fld r.fv 6 4 == 0 && !r.x && r.km == 0 && r.d == 0 && wideOk a && packedOk (opdOf r.b) && wideOk (opdOf r.c))
    return .cpy r.hdr (Nat.testBit r.fv 0) scp a (opdOf r.b) (opdOf r.c)
  | 0xA1 => do
    legal (r.ft == 0)
    let scp ← scopeField (fld r.fv 2 0)
    let d ← sField r.d
    field (fld r.fv 6 3 == 0 && r.km == 0 && wideOk a && isSreg (opdOf r.c))
    let b ← srcB r 64
    field (isScalar b)
    return .waitc r.hdr scp d a b (opdOf r.c)
  | 0xA2 => do
    legal (r.ft == 0)
    let d ← sField r.d
    field (r.fv == 0 && r.km == 0 && wideOk a && isSreg (opdOf r.c))
    let b ← srcB r 64
    field (isScalar b)
    return .testc r.hdr d a b (opdOf r.c)
  | 0xA3 => do
    field (r.ft == 0 && r.km == 0 && !r.x && r.d == 0 && noA r && noB r && noC r)
    return .srel r.hdr r.fv
  | 0xA4 => decSbind r
  | 0xA5 => do
    let scp ← scopeField (fld r.fv 2 0)
    field (r.ft == 0 && fld r.fv 6 3 == 0 && r.km == 0 && !r.x && r.d == 0 && noB r && noC r && !isChanOpd a)
    return .pub r.hdr scp a
  | 0xA6 => do
    legal (r.ft == 0)
    field (fld r.fv 6 1 == 0 && r.km == 0 && noC r)
    if r.fv = 0 then do
      let d ← sField r.d
      let b ← srcB r 64
      field (wideOk a && isScalar b)
      return .preg r.hdr d a b
    else do
      field (!r.x && r.d == 0 && noB r && !isChanOpd a)
      return .pregDrop r.hdr a
  | 0xA7 => do
    legal (r.ft == 0)
    field (fld r.fv 6 6 == 0 && r.km == 0 && !r.x && r.d == 0 && wideOk a && wideOk (opdOf r.b) && wideOk (opdOf r.c))
    return .mcast r.hdr (fld r.fv 5 0 + 1) a (opdOf r.b) (opdOf r.c)
  | 0xA8 => do
    legal (r.ft == 0)
    field (r.fv == 0 && r.km == 0 && !r.x && r.d == 0 && noB r && wideOk a && wideOk (opdOf r.c))
    return .coll r.hdr a (opdOf r.c)
  | _ => .error .illop

/-! ## Matrix (R115-R128) -/

/-- The operand descriptor of R117 in the extension word. -/
def descOf (e : Nat) : Dec MDesc := do
  let split := Nat.testBit e 63
  let sofs := fld e 55 32
  let stride := fld e 31 0
  field (fld e 62 60 == 0 && (split || sofs == 0) && (!split || stride % 32 == 0))
  return { split := split, str := fld e 59 56, sofs := BitVec.ofNat 24 sofs, stride := BitVec.ofNat 32 stride }

def descWord (m : MDesc) : Nat :=
  (if m.split then 2 ^ 63 else 0) + m.str * 2 ^ 56 + m.sofs.toNat * 2 ^ 32 + m.stride.toNat

/-- MXADD, MXSAVE and MXREST: a tile and a scalar base (R128). -/
def decTile (r : Raw) (k : Hdr → Nat → Nat → Nat → Instr) : Dec Instr := do
  field (decide (r.d < 8) && !r.x && noB r && noC r && fld r.fv 6 4 == 0)
  let n ← sField r.a
  return k r.hdr r.d n (fld r.fv 3 0)

def decMatrix (r : Raw) : Dec Instr :=
  let a := opdOf r.a
  let b := opdOf r.b
  match r.op with
  | 0xB0 => do
    legal (r.ft == 0)
    field (r.d == 0 && noC r && r.fv == 0)
    if r.x then do
      field (r.a == 0xFF && !r.la && noB r)
      return .gang r.hdr (.imm (BitVec.ofNat 64 r.ext))
    else do
      field (noB r && !isChanOpd a)
      return .gang r.hdr a
  | 0xB1 => do
    legal (r.ft == 0)
    field (r.x && r.d == 0 && fld r.fv 6 4 == 0 && (isVec b || isChanOpd b))
    let base ← sField r.a
    let fw ← vField r.c
    let ds ← descOf r.ext
    return .mxld r.hdr (fld r.fv 0 0) (fld r.fv 3 1 + 1) base b fw ds
  | 0xB2 => do
    legal (r.ft == 0)
    field (r.x && r.d == 0 && noB r && fld r.fv 6 6 == 0 && decide (fld r.fv 2 0 < 6))
    let base ← sField r.a
    let fw ← vField r.c
    let ds ← descOf r.ext
    return .mxlb r.hdr (fld r.fv 2 0) (fld r.fv 5 3 + 1) base fw ds
  | 0xB3 => do
    legal (r.ft == 0)
    field (decide (r.d < 8) && !r.x && fld r.fv 6 1 == 0)
    let fw ← vField r.a
    let skip ← sField r.b
    let kbase ← sField r.c
    return .mma r.hdr (fld r.fv 0 0) r.d fw skip kbase
  | 0xB4 => do
    legal (r.ft == 0)
    field (decide (r.d < 8) && !r.x && noA r && noB r && noC r && r.fv == 0)
    return .mxz r.hdr r.d
  | 0xB5 => do
    legal (r.ft == 0)
    field (fld r.fv 6 4 == 0)
    if Nat.testBit r.fv 3 then do
      let d ← sField r.d
      field (!r.x && noA r && noB r && noC r)
      return .mxdrStat r.hdr (fld r.fv 2 0) d
    else do
      let d ← vField r.d
      let fw ← vField r.a
      let sc ← sField r.b
      if r.x then do
        field (noC r)
        return .mxdr r.hdr (fld r.fv 2 0) d fw sc (.imm (BitVec.ofNat 64 r.ext))
      else do
        let n ← sField r.c
        return .mxdr r.hdr (fld r.fv 2 0) d fw sc (.s n)
  | 0xB6 => do legal (r.ft == 0); decTile r .mxadd
  | 0xB7 => do legal (r.ft == 0); decTile r .mxsave
  | 0xB8 => do legal (r.ft == 0); decTile r .mxrest
  | _ => .error .illop

/-! ## Sets (R150-R161) -/

/-- A destination that is a scalar or vector register, no channel. -/
def handleDst (f : Nat) : Dec Dst :=
  if f < 0xC0 then .ok (.v f) else if f < 0x100 then .ok (.s (f - 0xC0)) else .error .resfield

/-- An operand that is a scalar or vector register, no channel. -/
def plainOpd (f : Nat) : Dec Opd := if f < 0x100 then .ok (opdOf f) else .error .resfield

/-- The status vector of SINS, SREM and EQPUSH. -/
def stsField (r : Raw) : Dec (Option Nat) :=
  if Nat.testBit r.fv 0 then do
    let n ← vField r.d
    return some n
  else do
    field (r.d == 0)
    return none

def decBinarySet (r : Raw) (k : Hdr → Option Nat → Opd → Opd → Opd → Instr) : Dec Instr := do
  legal (r.ft == 0)
  field (fld r.fv 6 1 == 0 && !r.x)
  let d ← plainOpd r.d
  let a ← plainOpd r.a
  let b ← plainOpd r.b
  if Nat.testBit r.fv 0 then do
    let c ← sField r.c
    return k r.hdr (some c) d a b
  else do
    field (noC r)
    return k r.hdr none d a b

def decSet (r : Raw) : Dec Instr :=
  match r.op with
  | 0xC0 => do
    legal (r.ft == 0)
    field (r.fv == 0 && noC r)
    let d ← handleDst r.d
    let a ← plainOpd r.a
    let b ← srcB r 64
    field (isScalar b)
    return .snew r.hdr d a b
  | 0xC1 => do
    legal (r.ft == 0)
    field (r.fv == 0 && r.d == 0 && !r.x && noB r && noC r)
    let a ← plainOpd r.a
    return .sdel r.hdr a
  | 0xC2 => do
    legal (r.ft == 0)
    field (fld r.fv 6 1 == 0 && noC r)
    let d ← stsField r
    let a ← plainOpd r.a
    let b ← srcB r 32
    return .sins r.hdr d a b
  | 0xC3 => do
    legal (r.ft == 0)
    field (fld r.fv 6 1 == 0 && noC r)
    let d ← stsField r
    let a ← plainOpd r.a
    let b ← srcB r 32
    return .srem r.hdr d a b
  | 0xC4 => do
    legal (r.ft == 0)
    field (fld r.fv 6 1 == 0 && noC r)
    let a ← plainOpd r.a
    let b ← srcB r 32
    if Nat.testBit r.fv 0 then do
      let kd ← maskOf? r.d
      return .shas r.hdr (.mask kd) a b
    else do
      let n ← vField r.d
      return .shas r.hdr (.reg (.v n)) a b
  | 0xC5 => do
    legal (r.ft == 0)
    field (r.fv == 0 && !r.x && noB r && noC r)
    let n ← sField r.d
    let a ← plainOpd r.a
    return .scard r.hdr n a
  | 0xC6 => decBinarySet r .sand
  | 0xC7 => decBinarySet r .sor
  | 0xC8 => decBinarySet r .ssub
  | 0xC9 => decBinarySet r .sxor
  | 0xCA => do
    legal (r.ft == 0)
    field (fld r.fv 6 6 == 0 && noC r)
    let n ← vField r.d
    let a ← plainOpd r.a
    let b ← srcB r 32
    return .sitr r.hdr (fld r.fv 5 0) n a b
  | 0xCB => do
    let op := fld r.fv 3 0
    legal (r.ft == 0 && (op == 5 || (decide (6 ≤ op) && decide (op ≤ 9)) || op == 15))
    field (fld r.fv 6 4 == 0 && !r.x)
    let n ← sField r.d
    let a ← plainOpd r.a
    let b ← plainOpd r.b
    let c ← plainOpd r.c
    field ((decide (6 ≤ op) && decide (op ≤ 9)) || (r.b == 0xFF && r.c == 0xFF))
    return .scost r.hdr op n a b c
  | 0xCC => do
    legal (r.ft == 0)
    field (fld r.fv 6 1 == 0)
    let a ← plainOpd r.a
    let b ← srcB r 64
    field (isScalar b)
    if Nat.testBit r.fv 0 then do
      field (r.d == 0 && noC r)
      return .sinfoPin r.hdr a b
    else do
      let n ← sField r.d
      let key ← sField r.c
      return .sinfo r.hdr n a b key
  | 0xCD => do
    legal (r.ft == 0)
    field (fld r.fv 6 1 == 0 && noC r)
    let n ← vField r.d
    let a ← plainOpd r.a
    let b ← srcB r 32
    return .srank r.hdr (Nat.testBit r.fv 0) n a b
  | 0xCE => do
    legal (r.ft == 0)
    field (fld r.fv 6 4 == 0 && !r.x && noB r && noC r)
    let d ← handleDst r.d
    let n ← sField r.a
    return .sload r.hdr (fld r.fv 3 0) d n
  | 0xCF => do
    legal (r.ft == 0)
    field (fld r.fv 6 4 == 0 && (!r.x || decide (r.ext < 2 ^ 32)))
    let n ← sField r.d
    let a ← plainOpd r.a
    let base ← sField r.b
    let lim ← sField r.c
    return .sstore r.hdr (fld r.fv 3 0) n a base lim (if r.x then some (BitVec.ofNat 32 r.ext) else none)
  | _ => .error .illop

/-! ## Tasks and the Easel (R279-R301) -/

/-- A vector whose number is a multiple of m, at most `top`. -/
def groupField (f m top : Nat) : Dec Nat := if f % m = 0 ∧ f ≤ top then .ok f else .error .resfield

def decSpawn (r : Raw) (k : Hdr → Nat → Opd → Opd → Instr) : Dec Instr := do
  legal (r.ft == 0)
  field (r.fv == 0 && !r.x && noC r)
  let d ← vField r.d
  let a ← plainOpd r.a
  field (pairOk 64 a && (r.b == 0xFF || (r.b % 4 == 0 && decide (r.b ≤ 0xBC))))
  return k r.hdr d a (opdOf r.b)

def decTask (r : Raw) : Dec Instr :=
  match r.op with
  | 0xD0 => decSpawn r .tspawn
  | 0xD1 => decSpawn r .tyld
  | 0xD2 => do
    legal (r.ft == 0)
    field (fld r.fv 6 6 == 0 && !r.x && noA r && noB r && noC r)
    let d ← handleDst r.d
    field (dstPairOk 64 d)
    return .alloc r.hdr (fld r.fv 5 0) d
  | 0xD3 => do
    legal (r.ft == 0)
    field (fld r.fv 6 1 == 0 && noC r)
    let d ← stsField r
    let e ← groupField r.a 8 0xB8
    let b ← srcB r 64
    field (!isChanOpd b)
    return .eqpush r.hdr d e b
  | 0xD4 => do
    legal (r.ft == 0)
    field (fld r.fv 6 4 == 0 && !r.x && r.d == 0)
    let a ← plainOpd r.a
    field (pairOk 64 a)
    let g ← groupField r.b 4 0xBC
    let c ← vField r.c
    return .eqcomb r.hdr (fld r.fv 3 0) a g c
  | 0xD5 => do
    legal (r.ft == 0)
    field (fld r.fv 6 3 == 0 && r.km == 0 && noC r)
    let d ← sField r.d
    let a ← sField r.a
    let b ← srcB r 64
    field (isScalar b)
    return .eqcfg r.hdr (fld r.fv 2 0 + 1) d a b
  | 0xD6 => do
    legal (r.ft == 0)
    field (r.fv == 0 && noC r)
    let d ← sField r.d
    let a ← plainOpd r.a
    let b ← srcB r 64
    field (isScalar b)
    return .eqstat r.hdr d a b
  | _ => .error .illop

/-! ## The decoder -/

/-- The instruction that a first word and an extension word hold (R28-R38). -/
def decode (w ext : Nat) : Dec Instr :=
  let r := rawOf w ext
  if r.op < 0x09 then decControl r
  else if r.op < 0x0F then decDivergence r
  else if r.op = 0x0F then decControl r
  else if r.op < 0x30 then decInteger r
  else if r.op < 0x50 then decFloat r
  else if r.op < 0x60 then decConvert r
  else if r.op < 0x70 then decLane r
  else if r.op < 0x80 then decMask r
  else if r.op < 0x90 then decMemory r
  else if r.op < 0xA0 then decAtomic r
  else if r.op < 0xB0 then decEngine r
  else if r.op < 0xC0 then decMatrix r
  else if r.op < 0xD0 then decSet r
  else if r.op < 0xE0 then decTask r
  else if r.op < 0xF0 then decSystem r
  else .error .illop

/-- X, bit 47 of every format, says that an extension word follows (R30). -/
def hasExt (w : Nat) : Bool := Nat.testBit w 47

/-- An instruction's bytes as memory holds them, little-endian words (R28). -/
def bytesOfWord : Nat → Nat → List (BitVec 8)
  | 0, _ => []
  | n + 1, x => BitVec.ofNat 8 x :: bytesOfWord n (x / 256)

def wordOfBytes : List (BitVec 8) → Nat
  | [] => 0
  | b :: t => b.toNat + 256 * wordOfBytes t

/-- The instruction at the head of a list of bytes: the first word, and the second when X is 1 (R28). -/
def decodeBytes (bs : List (BitVec 8)) : Option Instr :=
  let w := wordOfBytes (bs.take 8)
  let e := if hasExt w then wordOfBytes ((bs.drop 8).take 8) else 0
  if bs.length < 8 then none
  else match decode w e with
    | .ok i => some i
    | .error _ => none

/-- The instruction that the bits `w` hold, numbered from the first word's least significant bit; every bit above the
first `nbits` is 0. -/
def decodeTableWord (nbits w : Nat) : Option Instr := decodeBytes (bytesOfWord 16 (w % 2 ^ nbits))

/-! ## The encoder (R28-R36 and the same tables) -/

def bit1 (b : Bool) : Nat := if b then 1 else 0

/-- The words of an instruction: the first word, and the extension word when X is 1 (else 0). -/
abbrev Words := Nat × Nat

/-- The header above bit 46 (R30). -/
def headWord (h : Hdr) (op : Nat) (x : Bool) : Nat :=
  bit1 h.sw * 2 ^ 63 + op * 2 ^ 55 + h.km * 2 ^ 51 + bit1 h.la * 2 ^ 50 + bit1 h.lb * 2 ^ 49 + bit1 h.lc * 2 ^ 48 +
    bit1 x * 2 ^ 47

/-- Formats A and E without an extension word (R31). -/
def encA (h : Hdr) (op d a b c ft fv : Nat) : Words :=
  (headWord h op false + d * 2 ^ 38 + a * 2 ^ 29 + b * 2 ^ 20 + c * 2 ^ 11 + ft * 2 ^ 7 + fv, 0)

/-- Formats A and E with an extension word; field B is 0. -/
def encX (h : Hdr) (op d a c ft fv : Nat) (e : DWord) : Words :=
  (headWord h op true + d * 2 ^ 38 + a * 2 ^ 29 + c * 2 ^ 11 + ft * 2 ^ 7 + fv, e.toNat)

/-- Formats A and E whose source B may be an immediate (R35). -/
def encB (h : Hdr) (op d a : Nat) (b : Opd) (c ft fv : Nat) : Words :=
  match b with
  | .imm e => encX h op d a c ft fv e
  | .v n => encA h op d a (opdField (.v n)) c ft fv
  | .s n => encA h op d a (opdField (.s n)) c ft fv
  | .pop n => encA h op d a (opdField (.pop n)) c ft fv
  | .peek n => encA h op d a (opdField (.peek n)) c ft fv

/-- A header with the switch marker and a mask selector only. -/
def swHdr (sw : Bool) (km : Nat) : Hdr := { sw := sw, km := km, la := false, lb := false, lc := false }

/-- Format B: offset, kind and register (R33). -/
def encBr (sw : Bool) (op km : Nat) (off : BitVec 36) (kind n : Nat) : Words :=
  (headWord (swHdr sw km) op false + off.toNat * 2 ^ 11 + kind * 2 ^ 9 + n, 0)

/-- Format M (R32). -/
def encM (h : Hdr) (op d : Nat) (m : MAddr) (wid f : Nat) : Words :=
  let idx := match m.idx with
    | none => 0x1FF
    | some o => opdField o
  (headWord h op m.ofs.isSome + d * 2 ^ 38 + opdField m.base * 2 ^ 29 + idx * 2 ^ 20 + codeOfOrd m.ord * 2 ^ 18 +
    codeOfScope m.scp * 2 ^ 15 + m.str * 2 ^ 11 + codeOfPol m.pol * 2 ^ 9 + wid * 2 ^ 6 + f,
   match m.ofs with
   | none => 0
   | some e => e.toNat)

/-- F.VAR of the floating-point instructions (R96). -/
def fvOf (m : FMode) : Nat := bit1 m.sat * 16 + bit1 m.pk * 8 + codeOfRnd m.rnd

def optS : Option Nat → Nat
  | none => 0
  | some n => 0xC0 + n

def optV : Option Nat → Nat
  | none => 0
  | some n => n

def mdstField : MDst → Nat
  | .reg d => dstField d
  | .mask k => kField k

/-- The words of an instruction, or none for a step that has no encoding. -/
def encode : Instr → Option Words
  | .nop sw => some (encA (swHdr sw 0) 0x00 0 0 0 0 0 0)
  | .land sw => some (encA (swHdr sw 0) 0x08 0 0 0 0 0 0)
  | .bra sw off => some (encBr sw 0x01 0 off 0 0)
  | .brzMask sw km off => some (encBr sw 0x02 km off 0 0)
  | .brzScalar sw n off => some (encBr sw 0x02 0 off 1 n)
  | .brnzMask sw km off => some (encBr sw 0x03 km off 0 0)
  | .brnzScalar sw n off => some (encBr sw 0x03 0 off 1 n)
  | .call sw l off => some (encBr sw 0x04 0 off 0 l)
  | .ret sw la t => some (encA { swHdr sw 0 with la := la } 0x05 0 (0xC0 + t) 0 0 0 0)
  | .exit sw => some (encA (swHdr sw 0) 0x06 0 0 0 0 0 0)
  | .loop sw n off => some (encBr sw 0x07 0 off 0 n)
  | .rgn sw win app names => some (encX (swHdr sw 0) 0x0F 0 0 0 0 (win + 4 * bit1 app) names)
  | .brx sw la tok a => some (encA { swHdr sw 0 with la := la } 0x09 0 (opdField a) 0 0 0 tok)
  | .split sw kc tok off => some (headWord (swHdr sw 0) 0x0A false + off.toNat * 2 ^ 11 + kc * 2 ^ 7 + tok * 2 ^ 4, 0)
  | .join sw tok => some (encA (swHdr sw 0) 0x0B 0 0 0 0 0 tok)
  | .meld sw two ka kb => some (encA (swHdr sw 0) 0x0C 0 (kField ka) (kField kb) 0 0 (bit1 two))
  | .mend sw => some (encA (swHdr sw 0) 0x0D 0 0 0 0 0 0)
  | .path sw j p0 p1 p2 p3 => some (encA (swHdr sw 0) 0x0E p3 p0 p1 p2 0 j)
  | .iadd h t d a b => some (encB h 0x10 (dstField d) (opdField a) b 0 (codeOfTy t) 0)
  | .isub h t d a b => some (encB h 0x11 (dstField d) (opdField a) b 0 (codeOfTy t) 0)
  | .iaddc h t z kc d a b => some (encB h 0x12 (dstField d) (opdField a) b 0 (codeOfTy t) (16 * bit1 z + kc))
  | .iadds h t sub d a b => some (encB h 0x13 (dstField d) (opdField a) b 0 (codeOfTy t) (bit1 sub))
  | .imul h t d a b => some (encB h 0x14 (dstField d) (opdField a) b 0 (codeOfTy t) 0)
  | .imulh h t d a b => some (encB h 0x15 (dstField d) (opdField a) b 0 (codeOfTy t) 0)
  | .imad h t d a b c => some (encB h 0x16 (dstField d) (opdField a) b (opdField c) (codeOfTy t) 0)
  | .idiv h t d a b => some (encB h 0x17 (dstField d) (opdField a) b 0 (codeOfTy t) 0)
  | .irem h t d a b => some (encB h 0x18 (dstField d) (opdField a) b 0 (codeOfTy t) 0)
  | .imin h t d a b => some (encB h 0x19 (dstField d) (opdField a) b 0 (codeOfTy t) 0)
  | .imax h t d a b => some (encB h 0x1A (dstField d) (opdField a) b 0 (codeOfTy t) 0)
  | .iabs h t sat d a => some (encA h 0x1B (dstField d) (opdField a) 0 0 (codeOfTy t) (bit1 sat))
  | .lea h t sh d a b => some (encB h 0x1C (dstField d) (opdField a) b 0 (codeOfTy t) sh)
  | .icmp h t cc kd a b => some (encB h 0x1D (kField kd) (opdField a) b 0 (codeOfTy t) (codeOfCc cc))
  | .sel h t ks d a b => some (encB h 0x1E (dstField d) (opdField a) b 0 (codeOfTy t) ks)
  | .mov h t d a => some (encA h 0x1F (dstField d) (opdField a) 0 0 (codeOfTy t) 0)
  | .and h t d a b => some (encB h 0x20 (dstField d) (opdField a) b 0 (codeOfTy t) 0)
  | .or h t d a b => some (encB h 0x21 (dstField d) (opdField a) b 0 (codeOfTy t) 0)
  | .xor h t d a b => some (encB h 0x22 (dstField d) (opdField a) b 0 (codeOfTy t) 0)
  | .andn h t d a b => some (encB h 0x23 (dstField d) (opdField a) b 0 (codeOfTy t) 0)
  | .shl h t d a b => some (encB h 0x24 (dstField d) (opdField a) b 0 (codeOfTy t) 0)
  | .shr h t d a b => some (encB h 0x25 (dstField d) (opdField a) b 0 (codeOfTy t) 0)
  | .sar h t d a b => some (encB h 0x26 (dstField d) (opdField a) b 0 (codeOfTy t) 0)
  | .rot h t right d a b => some (encB h 0x27 (dstField d) (opdField a) b 0 (codeOfTy t) (bit1 right))
  | .popc h t d a => some (encA h 0x28 (dstField d) (opdField a) 0 0 (codeOfTy t) 0)
  | .clz h t d a => some (encA h 0x29 (dstField d) (opdField a) 0 0 (codeOfTy t) 0)
  | .brev h t d a => some (encA h 0x2A (dstField d) (opdField a) 0 0 (codeOfTy t) 0)
  | .bfe h t sgn d a b => some (encB h 0x2B (dstField d) (opdField a) b 0 (codeOfTy t) (bit1 sgn))
  | .bfi h t d a b c => some (encB h 0x2C (dstField d) (opdField a) b (opdField c) (codeOfTy t) 0)
  | .prmt h d a b c => some (encB h 0x2D (dstField d) (opdField a) b (opdField c) (codeOfTy .b32) 0)
  | .movi h t d x => some (encX h 0x2E (dstField d) 0 0 (codeOfTy t) 0 x)
  | .fadd h t m d a b => some (encB h 0x30 (dstField d) (opdField a) b 0 (codeOfTy t) (fvOf m))
  | .fsub h t m d a b => some (encB h 0x31 (dstField d) (opdField a) b 0 (codeOfTy t) (fvOf m))
  | .fmul h t m d a b => some (encB h 0x32 (dstField d) (opdField a) b 0 (codeOfTy t) (fvOf m))
  | .ffma h t m d a b c => some (encB h 0x33 (dstField d) (opdField a) b (opdField c) (codeOfTy t) (fvOf m))
  | .fmin h t pk d a b => some (encB h 0x34 (dstField d) (opdField a) b 0 (codeOfTy t) (8 * bit1 pk))
  | .fmax h t pk d a b => some (encB h 0x35 (dstField d) (opdField a) b 0 (codeOfTy t) (8 * bit1 pk))
  | .fcmp h t cc kd a b => some (encB h 0x36 (kField kd) (opdField a) b 0 (codeOfTy t) (codeOfCc cc))
  | .fdiv h t m d a b => some (encB h 0x37 (dstField d) (opdField a) b 0 (codeOfTy t) (fvOf m))
  | .fsqrt h t m d a => some (encA h 0x38 (dstField d) (opdField a) 0 0 (codeOfTy t) (fvOf m))
  | .frcp h t m d a => some (encA h 0x39 (dstField d) (opdField a) 0 0 (codeOfTy t) (fvOf m))
  | .frsq h t m d a => some (encA h 0x3A (dstField d) (opdField a) 0 0 (codeOfTy t) (fvOf m))
  | .fex2 h t m d a => some (encA h 0x3B (dstField d) (opdField a) 0 0 (codeOfTy t) (fvOf m))
  | .flg2 h t m d a => some (encA h 0x3C (dstField d) (opdField a) 0 0 (codeOfTy t) (fvOf m))
  | .ftanh h t m d a => some (encA h 0x3D (dstField d) (opdField a) 0 0 (codeOfTy t) (fvOf m))
  | .frnd h t pk rnd d a => some (encA h 0x3E (dstField d) (opdField a) 0 0 (codeOfTy t) (8 * bit1 pk + codeOfRnd rnd))
  | .fclass h t pk d a => some (encA h 0x3F (dstField d) (opdField a) 0 0 (codeOfTy t) (8 * bit1 pk))
  | .fdot2 h t sat rnd d a b c =>
    some (encB h 0x40 (dstField d) (opdField a) b (opdField c) (codeOfTy t) (16 * bit1 sat + codeOfRnd rnd))
  | .fscale h t m d a b => some (encB h 0x41 (dstField d) (opdField a) b 0 (codeOfTy t) (fvOf m))
  | .cvt h td ts rnd d a =>
    some (encA h 0x50 (dstField d) (opdField a) 0 0 (codeOfTy td) (8 * codeOfTy ts + codeOfRnd rnd))
  | .qnt h el rnd d a b =>
    some (encB h 0x51 (dstField d) (opdField a) b 0 (codeOfTy .f32) (8 * codeOfElem el + codeOfRnd rnd))
  | .dqnt h el rnd d a b =>
    some (encB h 0x52 (dstField d) (opdField a) b 0 (codeOfTy .f32) (8 * codeOfElem el + codeOfRnd rnd))
  | .tpack h d a b => some (encB h 0x53 (dstField d) (opdField a) b 0 0 0)
  | .tunpk h d a b => some (encB h 0x54 (dstField d) (opdField a) b 0 0 0)
  | .pack h t nib rnd d a b c =>
    let cf := match c with
      | none => 0
      | some o => opdField o
    some (encB h 0x55 (dstField d) (opdField a) b cf (codeOfTy t) (8 * bit1 nib + codeOfRnd rnd))
  | .unpk h t nib rnd d a b =>
    some (encB h 0x56 (dstField d) (opdField a) b 0 (codeOfTy t) (8 * bit1 nib + codeOfRnd rnd))
  | .shfl h t mode g d a b => some (encB h 0x60 (dstField d) (opdField a) b 0 (codeOfTy t) (4 * g + codeOfShfl mode))
  | .vote h k d a => some (encA h 0x61 (mdstField d) (opdField a) 0 0 (codeOfTy .b32) (codeOfVote k))
  | .lred h t op rnd d a => some (encA h 0x62 (dstField d) (opdField a) 0 0 (codeOfTy t) (8 * codeOfRnd rnd + codeOfRed op))
  | .lscan h t op rnd excl d a =>
    some (encA h 0x63 (dstField d) (opdField a) 0 0 (codeOfTy t) (64 * bit1 excl + 8 * codeOfRnd rnd + codeOfRed op))
  | .bcast h t d a b =>
    match b with
    | none => some (encA h 0x64 (dstField d) (opdField a) 0 0 (codeOfTy t) 1)
    | some o => some (encB h 0x64 (dstField d) (opdField a) o 0 (codeOfTy t) 0)
  | .matchLanes h t cnt d a => some (encA h 0x66 d (opdField a) 0 0 (codeOfTy t) (bit1 cnt))
  | .topk h t sc d a b => some (encB h 0x65 d (opdField a) b 0 (codeOfTy t) sc)
  | .kop h op kd ka kb => some (encA h 0x70 (kField kd) (kField ka) (kField kb) 0 0 (codeOfKop op))
  | .kmov h f =>
    match f with
    | .kk d a => some (encA h 0x71 (kField d) (kField a) 0 0 0 0)
    | .loIn d a => some (encA h 0x71 (kField d) (0xC0 + a) 0 0 0 1)
    | .hiIn d a => some (encA h 0x71 (kField d) (0xC0 + a) 0 0 0 2)
    | .loOut d a => some (encA h 0x71 (0xC0 + d) (kField a) 0 0 0 3)
    | .hiOut d a => some (encA h 0x71 (0xC0 + d) (kField a) 0 0 0 4)
    | .toV d a => some (encA h 0x71 d (kField a) 0 0 0 5)
  | .kpop h d ka => some (encA h 0x72 (0xC0 + d) (kField ka) 0 0 0 0)
  | .kfnd h hi d ka b => some (encB h 0x73 (0xC0 + d) (kField ka) b 0 0 (bit1 hi))
  | .srd h d r => some (encA h 0x74 (dstField d) 0 0 0 0 (codeOfSreg r))
  | .swr h r a => some (encA h 0x75 0 (opdField a) 0 0 0 (codeOfSreg r))
  | .clk h d => some (encA h 0x76 (0xC0 + d) 0 0 0 0 0)
  | .clkPtp h d => some (encA h 0x76 (0xC0 + d) 0 0 0 0 1)
  | .ld h wid sx d m => some (encM h 0x80 (dstField d) m wid (bit1 sx))
  | .st h wid d m => some (encM h 0x81 (opdField d) m wid 0)
  | .ldg h w d m => some (encM h 0x82 d m w 0)
  | .sct h wid op d m => some (encM h 0x83 (opdField d) m wid (codeOfSct op))
  | .ldmx h fmt split d m => some (encM h 0x84 d m 0 (8 * bit1 split + codeOfMxFmt fmt))
  | .stmx h fmt split d m => some (encM h 0x85 d m 0 (8 * bit1 split + codeOfMxFmt fmt))
  | .prf h m => some (encM h 0x86 0 m 0 0)
  | .atom h wid op sgn d m => some (encM h 0x90 (dstField d) m wid (8 * bit1 sgn + codeOfAtom op))
  | .acas h wid d m => some (encM h 0x91 (dstField d) m wid 0)
  | .red h wid op sgn ret d m => some (encM h 0x92 (dstField d) m wid (16 * bit1 ret + 8 * bit1 sgn + codeOfAtom op))
  | .fence h ord scp b => some (encB h 0x93 0 0 b 0 0 (4 * codeOfScope scp + codeOfOrd ord))
  | .bar h a => some (encA h 0x94 0 (opdField a) 0 0 0 0)
  | .barx h out scp d a b c =>
    some (encA h 0x95 (opdField d) (opdField a) (opdField b) (opdField c) 0 (2 * codeOfScope scp + bit1 out))
  | .binit h a b => some (encB h 0x96 0 (opdField a) b 0 0 0)
  | .waitf h t lvl prom cond d a b =>
    some (encB h 0x97 (0xC0 + d) (opdField a) b 0 (codeOfTy t) (32 * codeOfCond cond + 8 * codeOfPromise prom + lvl))
  | .cpy h out scp a b c => some (encA h 0xA0 0 (opdField a) (opdField b) (opdField c) 0 (2 * codeOfScope scp + bit1 out))
  | .waitc h scp d a b c => some (encB h 0xA1 (0xC0 + d) (opdField a) b (opdField c) 0 (codeOfScope scp))
  | .testc h d a b c => some (encB h 0xA2 (0xC0 + d) (opdField a) b (opdField c) 0 0)
  | .srel h c => some (encA h 0xA3 0 0 0 0 0 c)
  | .sbindUnbind h c => some (encA h 0xA4 0 0 0 0 0 c)
  | .sbindPrimer h c => some (encA h 0xA4 0 0 0 0 1 c)
  | .sbindRing h c p1 p2 p3 => some (encB h 0xA4 0 (opdField p1) p2 (opdField p3) 2 c)
  | .sbindPort h c p1 => some (encA h 0xA4 0 (opdField p1) 0 0 3 c)
  | .sbindIter h c p1 p2 => some (encB h 0xA4 0 (opdField p1) p2 0 4 c)
  | .sbindQuery h c d => some (encA h 0xA4 (0xC0 + d) 0 0 0 5 c)
  | .pub h scp a => some (encA h 0xA5 0 (opdField a) 0 0 0 (codeOfScope scp))
  | .preg h d a b => some (encB h 0xA6 (0xC0 + d) (opdField a) b 0 0 0)
  | .pregDrop h a => some (encA h 0xA6 0 (opdField a) 0 0 0 1)
  | .mcast h n a b c => some (encA h 0xA7 0 (opdField a) (opdField b) (opdField c) 0 (n - 1))
  | .coll h a c => some (encA h 0xA8 0 (opdField a) 0 (opdField c) 0 0)
  | .gang h a =>
    match a with
    | .imm e => some (encX h 0xB0 0 0xFF 0 0 0 e)
    | o => some (encA h 0xB0 0 (opdField o) 0 0 0 0)
  | .mxld h half n base idx fw ds =>
    some (headWord h 0xB1 true + (0xC0 + base) * 2 ^ 29 + opdField idx * 2 ^ 20 + fw * 2 ^ 11 + 2 * (n - 1) + half, descWord ds)
  | .mxlb h slot n base fw ds =>
    some (headWord h 0xB2 true + (0xC0 + base) * 2 ^ 29 + fw * 2 ^ 11 + 8 * (n - 1) + slot, descWord ds)
  | .mma h half tile fw skip kbase => some (encA h 0xB3 tile fw (0xC0 + skip) (0xC0 + kbase) 0 half)
  | .mxz h tile => some (encA h 0xB4 tile 0 0 0 0 0)
  | .mxdr h tile d fw scales pos =>
    match pos with
    | .imm e => some (headWord h 0xB5 true + d * 2 ^ 38 + fw * 2 ^ 29 + (0xC0 + scales) * 2 ^ 20 + tile, e.toNat)
    | o => some (encA h 0xB5 d fw (0xC0 + scales) (opdField o) 0 tile)
  | .mxdrStat h tile d => some (encA h 0xB5 (0xC0 + d) 0 0 0 0 (8 + tile))
  | .mxadd h tile base str => some (encA h 0xB6 tile (0xC0 + base) 0 0 0 str)
  | .mxsave h tile base str => some (encA h 0xB7 tile (0xC0 + base) 0 0 0 str)
  | .mxrest h tile base str => some (encA h 0xB8 tile (0xC0 + base) 0 0 0 str)
  | .snew h d u opt => some (encB h 0xC0 (dstField d) (opdField u) opt 0 0 0)
  | .sdel h a => some (encA h 0xC1 0 (opdField a) 0 0 0 0)
  | .sins h d a b => some (encB h 0xC2 (optV d) (opdField a) b 0 0 (bit1 d.isSome))
  | .srem h d a b => some (encB h 0xC3 (optV d) (opdField a) b 0 0 (bit1 d.isSome))
  | .shas h d a b =>
    some (encB h 0xC4 (mdstField d) (opdField a) b 0 0 (match d with | .mask _ => 1 | .reg _ => 0))
  | .scard h d a => some (encA h 0xC5 (0xC0 + d) (opdField a) 0 0 0 0)
  | .sand h card d a b => some (encA h 0xC6 (opdField d) (opdField a) (opdField b) (optS card) 0 (bit1 card.isSome))
  | .sor h card d a b => some (encA h 0xC7 (opdField d) (opdField a) (opdField b) (optS card) 0 (bit1 card.isSome))
  | .ssub h card d a b => some (encA h 0xC8 (opdField d) (opdField a) (opdField b) (optS card) 0 (bit1 card.isSome))
  | .sxor h card d a b => some (encA h 0xC9 (opdField d) (opdField a) (opdField b) (optS card) 0 (bit1 card.isSome))
  | .sitr h sc d a b => some (encB h 0xCA d (opdField a) b 0 0 sc)
  | .scost h op d a b c => some (encA h 0xCB (0xC0 + d) (opdField a) (opdField b) (opdField c) 0 op)
  | .sinfo h d a b key => some (encB h 0xCC (0xC0 + d) (opdField a) b (0xC0 + key) 0 0)
  | .sinfoPin h a b => some (encB h 0xCC 0 (opdField a) b 0 0 1)
  | .srank h sel d a b => some (encB h 0xCD d (opdField a) b 0 0 (bit1 sel))
  | .sload h str d base => some (encA h 0xCE (dstField d) (0xC0 + base) 0 0 0 str)
  | .sstore h str d a base lim start =>
    some (headWord h 0xCF start.isSome + (0xC0 + d) * 2 ^ 38 + opdField a * 2 ^ 29 + (0xC0 + base) * 2 ^ 20 + (0xC0 + lim) * 2 ^ 11 + str,
      match start with
      | none => 0
      | some x => x.toNat)
  | .tspawn h d a b => some (encA h 0xD0 d (opdField a) (opdField b) 0 0 0)
  | .tyld h d a b => some (encA h 0xD1 d (opdField a) (opdField b) 0 0 0)
  | .alloc h sc d => some (encA h 0xD2 (dstField d) 0 0 0 0 sc)
  | .eqpush h d e q => some (encB h 0xD3 (optV d) e q 0 0 (bit1 d.isSome))
  | .eqcomb h str a grp gate => some (encA h 0xD4 0 (opdField a) grp gate 0 str)
  | .eqcfg h n d r q => some (encB h 0xD5 (0xC0 + d) (0xC0 + r) q 0 0 (n - 1))
  | .eqstat h d q sel => some (encB h 0xD6 (0xC0 + d) (opdField q) sel 0 0 0)
  | .trap h b => some (encB h 0xE0 0 0 b 0 0 0)
  | .rtt sw => some (encA (swHdr sw 0) 0xE1 0 0 0 0 0 0)
  | .pdone h a => some (encA h 0xE2 0 (0xC0 + a) 0 0 0 0)
  | .ckpt h d b => some (encB h 0xE3 (0xC0 + d) 0 b 0 0 0)
  | .ckptHint h b => some (encB h 0xE3 0 0 b 0 0 1)
  | .tlbiRng h a b => some (encB h 0xE4 0 (0xC0 + a) b 0 0 0)
  | .tlbiAll h => some (encA h 0xE4 0 0 0 0 0 1)
  | .tlbiNg h => some (encA h 0xE4 0 0 0 0 0 2)
  | .errd h clr d b => some (encB h 0xE5 (0xC0 + d) 0 b 0 0 (bit1 clr))
  | .halt h b => some (encB h 0xE6 0 0 b 0 0 0)
  | .waitfConditionMet _ => none
  | .setAcceptance _ => none
  | .setCompletion _ => none
  | .iteratorEntry _ _ => none
  | .resultReturn _ _ => none
  | .writePacketAtHome _ _ => none
  | .ackReceived _ => none
  | .acktimeout _ => none
  | .remoteReadTimeout _ => none
  | .packetAgeDiscard _ => none
  | .uncorrectableHeaderDrop _ _ _ _ _ => none
  | .flitCrcRetransmit _ => none
  | .chunkLanded _ _ => none
  | .mcastDelivery _ _ _ _ => none
  | .collHop _ _ => none
  | .combineDeposit _ => none
  | .easelAgeExpiry _ => none
  | .easelFiring _ => none
  | .taskFormingTimer _ => none
  | .taskStrokeStart _ => none
  | .stealRequest _ => none
  | .commissionLaunch _ => none
  | .ttInstanceDue _ => none
  | .ptpMessage _ => none
  | .panelPlacement _ => none
  | .panelRetire _ => none
  | .commissionRetire _ => none
  | .starvationExpiry _ => none
  | .preemptRequest _ _ _ => none
  | .panelSave _ => none
  | .preemptBoundExpiry _ => none
  | .panelRestore _ => none
  | .egressDescriptor _ _ => none
  | .rdmaWrite _ _ _ _ => none
  | .rdmaRead _ _ _ _ => none
  | .rdmaRefused _ => none
  | .powerOn => none
  | .bistComplete _ => none
  | .recoverFetch => none
  | .recoverImageReceived _ => none
  | .marginSample _ _ _ => none
  | .onlineRepairSwitch _ => none
  | .laneRetrainComplete _ => none
  | .identity => none
  | .status => none
  | .logread _ _ => none
  | .logclear _ => none
  | .counters _ => none
  | .thresh _ _ _ => none
  | .margin _ _ _ => none
  | .mgmtFence _ _ => none
  | .unfence _ _ => none
  | .tilemap _ _ => none
  | .rowmap _ _ _ _ _ => none
  | .bankmap _ _ _ => none
  | .lanemap _ _ => none
  | .chanmap _ _ => none
  | .image _ _ => none
  | .reset _ => none
  | .createContext _ _ => none
  | .killContext _ _ => none
  | .killDrainComplete _ => none
  | .registerCommissionQueue _ _ _ => none
  | .writeTtEntry _ _ _ => none
  | .setExportWindow _ _ _ => none
  | .assignEaselQueues _ _ _ => none
  | .configureEgressChannel _ _ _ _ => none
  | .measureIntoContext _ _ _ => none
  | .attestationReport _ _ _ => none
  | .resetChunkPool _ _ => none
  | .endCommission _ _ => none
  | .deviceRegisterWrite _ _ => none
  | .ptpSourceUnlocked => none
  | .operandFillComplete _ => none
  | .imageReadComplete _ => none
  | .unregisterCommissionQueue _ _ => none
  | .extendGrants _ _ _ => none
  | .enlargeSaveRegion _ _ _ => none

end Sys2Proof
end

