-- ==== Sys2Proof/Config.lean ====
section
/-! DEFINITION. What the spec leaves to the implementation: the free values, which no proof can see, and the functions
of cryptography that the spec names and does not give (spec/16_isolation.md R318, R320). -/

namespace Sys2Proof.Config

/-- A free value of `w` bits: the n-th value the machine takes where the spec states none (log 4). -/
opaque freeValue (w : Nat) : Nat → BitVec w

/-- The word of another device's memory at an address, when it is fetched in a cycle (R28, R216, log 12). -/
opaque farWord : (cycle pa : Nat) → BitVec 64

/-- ECDSA on P-256 with SHA-256 (R6, R318): the 64-byte signature r then s by a key over a digest (log 6). -/
opaque ecdsaSign : (key : Nat) → (digest : BitVec 256) → BitVec 512
/-- The boot key derived from the identity key and the firmware digest (R320), as a key number. -/
opaque bootKey : (firmware : BitVec 256) → Nat
/-- SHA-256 of the device identity public key (R318). -/
opaque identityHash : BitVec 256
/-- The certificate of a key by a key (R320). -/
opaque certificate : (signer : Nat) → (key : Nat) → List Byte
/-- The device identity key, as a key number. -/
opaque identityKey : Nat
/-- The bytes that stand for the creation parameters of a context in its attestation digest (R320): the spec gives no
encoding (log 15). -/
opaque paramBytes : List Nat → List Byte
/-- Whether Glowald's key verifies a signature over a digest (R354). -/
opaque glowaldVerifies : (digest : BitVec 256) → (sig : BitVec 512) → Bool

/-- The number of the SRAM row that holds a physical address: the spec numbers units within their class and does not
say how rows are numbered (R348, log 11). -/
opaque sramRow : Nat → BitVec 16

/-- The numbers of a slice bank's row, of a slice layer's bank, and of a port's lane, for the same reason (R348, R350,
log 72). -/
opaque rowUnit : (core bank row : Nat) → BitVec 16
opaque bankUnit : (core layer bank : Nat) → BitVec 16
opaque laneUnit : (port lane : Nat) → BitVec 16

/-- Whether 0 × ∞ + c sets INVALID when c is a quiet NaN: IEEE 754-2019 §7.2 leaves it to the implementation
(R85, log 10). -/
opaque fmaNanInvalid : Bool

end Sys2Proof.Config
end

