-- ==== Sys2Proof/Machine/State.lean ====
section
/-! DEFINITION. The state of the device as plain data (spec/01_machine.md R14, INVENTORY.md '## State'), the reasons
a step can stop, and the machine right after reset. -/

namespace Sys2Proof.Machine
open Sys2Proof

/-- A finite table: pairs of a key and a value, keys rising. -/
abbrev Tab (α : Type) := List (Nat × α)
/-- A program counter or virtual address (R14, R307). -/
abbrev VAddr := BitVec 57

/-! ## Traps and waits (spec/17_traps.md R321-R327, spec/13_commissions.md R243, R244) -/

/-- The trap causes of R323. -/
inductive Cause where
  | illop | resfield | nonuniform | fmtvote | partialmask | hazard | deadread | meldill | badtgt | badjoin
  | xlate | perm | align | bounds | issuerights | dataerr | acktimeout
  | illwait | starve | preempt | swtrap | setfault | primer
deriving DecidableEq, Repr

/-- A trap with the values of its registers (R323). -/
structure Trap where
  cause : Cause
  addr : DWord := 0
  aux : DWord := 0
  lanes : Mask := 0
  /-- Streams whose fault mark this trap reports, and so consumes at entry (R210). -/
  marks : BitVec 16 := 0
  /-- The unit and the address of an uncorrectable error that the instruction itself met: entry counts and logs it
  (R348). -/
  met : Option (ErrUnit × Nat) := none
deriving DecidableEq, Repr

/-- What a parked agent waits for. The kinds with a code in R244 run a starvation timer. -/
inductive WaitKind where
  | results
  /-- The acknowledgement counters of the named streams (R169). -/
  | streams (m : BitVec 16)
  /-- The response of another device to a read that the instruction makes itself (R217). -/
  | answer
  | bar | waitf | matrix | coll | chan | waitc | set | ackFull | reuse | granule | join | ckpt
deriving DecidableEq, Repr

/-- A wait and the cycle at which it began (R244). -/
structure Wait where
  kind : WaitKind
  since : Nat
deriving DecidableEq, Repr

/-- Why an instruction does not commit now: it takes a trap, or its agent parks. -/
inductive Stop where
  | trap (t : Trap)
  | park (k : WaitKind)
deriving DecidableEq, Repr

/-- Whether an agent may issue. `parked` re-executes its instruction when something has changed; `blocked` is
released by the step that completes its wait; `stopped` and `halted` are R325 and R328; `done` is PDONE (R334). -/
inductive RunState where
  | ready
  | parked (w : Wait)
  | blocked (w : Wait)
  | stopped
  | halted
  | done (pc : VAddr)
deriving DecidableEq, Repr

/-! ## Agents and strokes (spec/01_machine.md, spec/14_divergence.md) -/

inductive JoinKind where
  | solo | real | serial
deriving DecidableEq, Repr

/-- A join-stack entry (R266). `rec` names the stroke's record of a real entry; `addr` is the recorded address A of
a serial entry; `frame`: the entry owns the topmost serial frame that no later entry owns. -/
structure JoinEntry where
  tok : Nat
  kind : JoinKind
  split : Nat := 0
  addr : Option VAddr := none
  frame : Bool := false
deriving DecidableEq, Repr

/-- The shared record of a real split (R270): its members in order of creation, and those that have arrived. -/
structure SplitRec where
  tok : Nat
  members : List Nat
  arrived : List Nat := []
  exited : List Nat := []
  addr : Option VAddr := none
deriving DecidableEq, Repr

/-- A serial frame (R269): the state at the split, the groups in order, the group running, and what the finished
groups left. `live`: the view at the split; `liveAcc`: the names live in the views that finished groups left; `order`:
what comes before the accesses of each group, and of the joined agent (R199). -/
structure SerialFrame where
  s : Tab DWord
  k : Tab Mask
  rstep : Word
  live : BitVec 192 := 0
  liveAcc : BitVec 192 := 0
  order : List (Nat × Nat) := []
  orderAcc : List (Nat × Nat) := []
  groups : List (Mask × VAddr)
  idx : Nat := 0
  brx : Bool
  emAcc : Mask := 0
  kAcc : Tab Mask
  /-- s0-s62 and RSTEP of the group whose values the JOIN leaves. -/
  kept : Option (Tab DWord × Word) := none
  anyJoined : Bool := false
deriving DecidableEq, Repr

/-- What a parked WAITF waits for (R182): its place in the agent's order, the word, the condition, where the value
goes, and whether the level's scope is wider than a core. -/
structure WaitfRec where
  id : Nat
  born : Nat := 0
  va : Nat := 0
  segs : List (Nat × Nat)
  cond : WCond
  cmp : Nat
  dst : Nat
  size : Nat
  wide : Bool
  /-- Its request or its response has been dropped by the fabric (R316). -/
  lost : Bool := false
deriving DecidableEq, Repr

/-- One agent: a root stroke, a fragment or a Primer (R14, R258, R26). -/
structure Agent where
  stroke : Nat
  primer : Bool := false
  frag : Bool := false
  order : Nat := 0
  lset : Mask
  em : Mask
  s : Tab DWord := []
  /-- Scalar registers that hold an uncorrectable error (R346). -/
  badS : List Nat := []
  k : Tab Mask := []
  /-- Mask registers that hold an uncorrectable error, 16 for `em` (R346). -/
  badK : List Nat := []
  pc : VAddr
  live : BitVec 192 := 0
  hazV : BitVec 192 := 0
  hazS : BitVec 64 := 0
  hazK : BitVec 17 := 0
  staged : List Nat := []
  meld : Bool := false
  /-- Path of each lane: 2 * pathHi + pathLo (R259). -/
  pathLo : Mask := 0
  pathHi : Mask := 0
  ptab : Tab (List Nat) := []
  jstack : List JoinEntry := []
  frames : List SerialFrame := []
  handler : Bool := false
  byPreempt : Bool := false
  /-- The meld mode that trap entry suspended (R265). -/
  meldHeld : Bool := false
  run : RunState := .ready
  tcause : DWord := 0
  tpc : DWord := 0
  taddr : DWord := 0
  tlane0 : DWord := 0
  tlane1 : DWord := 0
  taux : DWord := 0
  priv : Nat := 0
  rstep : Word := 0
  prePend : Bool := false
  /-- The oldest late fault not yet taken and how many others (R326). -/
  late : Option (Trap × Nat) := none
  /-- The issue number of the instruction that `late` reports (R326). -/
  lateId : Nat := 0
  ckptMask : DWord := 0
  /-- The program order that its accesses belong to, its own number unless a serialised group runs (R195, R199). -/
  porder : Option Nat := none
  /-- Program orders whose accesses issued before the given number come before this agent's (R199). -/
  before : List (Nat × Nat) := []
  /-- The cycle of its last issue (R255). -/
  lastIssue : Nat := 0
  /-- A wait whose event has come: the re-executed instruction completes with this value. -/
  wake : Option DWord := none
  /-- The wait that the agent is retrying, with its first cycle (R244). -/
  waitFrom : Option Wait := none
  /-- The WAITF it is parked at (R182). -/
  waitf : Option WaitfRec := none
  /-- What a TLBI waits for: the steps issued before this number (R313). -/
  tlbiAt : Option Nat := none
  /-- The barrier object (scratchpad offset) at which it is parked (R180). -/
  barAt : Option Nat := none
  /-- The MMA at which it waits in the rendezvous (R116). -/
  mmaAt : Bool := false
  /-- A trap raised and not yet entered: entry waits for the agent's results (R324). -/
  owed : Option Trap := none
  /-- The set instruction that awaits acceptance, with its issue number (R140). -/
  setAt : Option (Nat × Instr) := none
deriving DecidableEq, Repr

/-- What the agents of one stroke share (R14, R267). -/
structure Stroke where
  /-- The pseudo-stroke of a Primer: it holds its counters and no stroke-table entry. -/
  primer : Bool := false
  panel : Nat
  idx : Nat
  width : Nat
  populated : Mask
  vregs : Tab (List Word) := []
  fpst : BitVec 6 := 0
  sstat : DWord := 0
  ssbytes : DWord := 0
  splitser : Bool := false
  splits : Tab SplitRec := []
  gang : Word := 0
  /-- The issue number of the set instruction that last wrote SSTAT (R142). -/
  sstatBy : Nat := 0
  /-- The 16 stream acknowledgement counters (R169). -/
  acks : Tab Nat := []
  /-- The fault mark of each stream: physical address (R210). -/
  marks : Tab Nat := []
  adm : Nat := 0
  /-- Granules of eight names reserved (R19, R251). -/
  reserve : Nat
  nextOrder : Nat := 1
  /-- A task stroke, with the ENQ of each lane's task (R283, R279). -/
  task : Bool := false
  enq : List Nat := []
  exited : Bool := false
  /-- The object whose phase counts this stroke's arrival (R180). -/
  arrivedAt : Option Nat := none
  /-- The last device time that it read (R48). -/
  ptp : DWord := 0
  /-- Vector register entries that hold an uncorrectable error: name and lane (R346). -/
  badV : List (Nat × Nat) := []
deriving DecidableEq, Repr

/-! ## Outstanding results (R21, R22, R326) -/

/-- Writes to a vector register: the named lanes take `vals`. -/
structure VWrite where
  name : Nat
  lanes : Mask
  vals : List Word
deriving DecidableEq, Repr

/-- Everything an instruction writes to its agent's registers and its stroke's flags. -/
structure Writes where
  v : List VWrite := []
  s : List (Nat × DWord) := []
  k : List (Nat × Mask × Mask) := []
  fl : BitVec 6 := 0
  push : Option (Nat × List DWord) := none
  /-- A reading of device time, which no later one of the stroke falls below (R48). -/
  ptp : Option DWord := none
deriving DecidableEq, Repr

/-- Widths and treatment of a loaded element (R170). -/
structure LoadFmt where
  bytes : Nat
  sx : Bool
deriving DecidableEq, Repr

/-- One lane's read: where it is homed, how many bytes, and the bytes once performed. -/
structure LaneRead where
  lane : Nat
  va : Nat
  /-- The pieces (physical address, bytes) in order; one unless it crosses a page. -/
  segs : List (Nat × Nat)
  /-- The page is publishable: served at the home, never kept (R165). -/
  pub : Bool := false
  /-- Where the last byte is a scale read apart from its elements (R173): its address. -/
  scaleVa : Option Nat := none
  val : Option (List Byte) := none
deriving DecidableEq, Repr

/-- What an outstanding result is. `writes`: the values are known (arithmetic). `load`, `gather`, `block`: reads of
memory. `atomic`: filled by packets at their homes. `held`: written by a step of an engine (sets, drains). -/
inductive ResKind where
  | writes (w : Writes)
  | load (f : LoadFmt)
  | gather
  | block (fmt : MxFmt)
  | atomic
  | held
deriving DecidableEq, Repr

/-- An outstanding variable-latency result. Its key in the state is its issue number. -/
structure Result where
  agent : Nat
  /-- Its program order (R195). -/
  po : Nat := 0
  ctx : Nat
  kind : ResKind
  /-- Vector destinations: register part, physical name, lanes (R261: resolved at issue). -/
  dst : List (Nat × Nat × Mask) := []
  sdst : List Nat := []
  kdst : Option (Nat × Mask) := none
  push : Option Nat := none
  mask : Mask
  reads : List LaneRead := []
  ord : MOrd := .rlx
  scp : Scope := .str
  pol : Pol := .norm
  str : Nat := 0
  /-- Packets still to perform (atomics). -/
  waits : Nat := 0
  fl : BitVec 6 := 0
  late : Option Trap := none
  before : List (Nat × Nat) := []
  issued : Nat := 0
  /-- Its request or its response has been dropped by the fabric (R316). -/
  lost : Bool := false
deriving DecidableEq, Repr

/-! ## Memory packets (spec/10_order_cores.md R210) -/

/-- What a packet does with each of its parts at the home (R170, R172, R175). -/
inductive PacketOp where
  | write
  | atom (op : AtomOp) (signed : Bool)
  | cas
deriving DecidableEq, Repr

/-- One update of a packet: the lanes it answers, its address, its operand, a compare value, flags already met. -/
structure PacketPart where
  lanes : List Nat
  segs : List (Nat × Nat)
  bytes : List Byte
  cmp : List Byte := []
  fl : BitVec 6 := 0
deriving DecidableEq, Repr

/-- A write or atomic packet. `lines`: the 128-byte lines it counts for. -/
structure Packet where
  agent : Nat
  /-- Its program order (R195). -/
  po : Nat := 0
  stroke : Nat
  core : Nat
  ctx : Nat
  str : Nat
  ord : MOrd := .rlx
  scp : Scope := .str
  op : PacketOp
  parts : List PacketPart
  lines : Nat := 1
  /-- The result it fills, and whether with the value after the update (RED.ret). -/
  result : Option Nat := none
  after : Bool := false
  /-- The flag group of an update whose flags are set when its acknowledgements have returned (R172). -/
  group : Option Nat := none
  counted : Bool := true
  before : List (Nat × Nat) := []
  born : Nat
deriving DecidableEq, Repr

/-- An acknowledgement on its way to its stroke's counter. -/
structure Ack where
  stroke : Nat
  str : Nat
  lines : Nat
  fault : Option Nat := none
  group : Option Nat := none
  fl : BitVec 6 := 0
  /-- The cycle in which it was sent (R315). -/
  born : Nat := 0
deriving DecidableEq, Repr

/-- Flags of one instruction, set when its last acknowledgement returns (R172). -/
structure FlagGroup where
  stroke : Nat
  left : Nat
  fl : BitVec 6 := 0
deriving DecidableEq, Repr

/-- A fence with accesses before it still pending: its issue number, program order and streams (R197 case 3). -/
structure FenceRec where
  id : Nat
  po : Nat
  mask : BitVec 16
  before : List (Nat × Nat) := []
deriving DecidableEq, Repr

/-! ## Engines (spec/08_memory_instructions.md R183-R193, spec/15_tasks_easel.md R278, R288-R302) -/

/-- A layout record (R183), its fields read. -/
structure Layout where
  base : Nat
  fmt : Nat
  dims : Nat
  rot : Bool
  fill : Nat
  size : List Nat
  stride : List Nat
  box : List Nat
deriving DecidableEq, Repr

/-- A committed copy of CPY, BARX or MCAST (R184). -/
structure Copy where
  agent : Nat
  stroke : Nat
  panel : Nat
  ctx : Nat
  core : Nat
  lay : Layout
  out : Bool
  /-- Packed address, and the bytes of the packed tile. -/
  packed : Nat
  bytes : Nat
  /-- Offset of the completion object in the panel's scratchpad. -/
  comp : Option Nat
  scp : Scope
  /-- Offset of the barrier object whose PENDING it counts in (R181). -/
  bar : Option Nat := none
  /-- Channel and slot of the ring it fills (R187). -/
  ring : Option (Nat × Nat) := none
  /-- The destinations of an MCAST (R192). -/
  mcast : Bool := false
  dests : List Nat := []
  done : List Nat := []
  failed : List Nat := []
  /-- What has been answered: a chunk, 0 and the bytes of its part on another device; for an MCAST of n destinations,
  also a line, 1 to n for the destination that has answered for it, and a chunk, n + 1 and its bytes once read (R219). -/
  served : List (Nat × Nat × List Byte) := []
  /-- Packets sent and counted in stream 0, by the same keys: how many lines each counts for (R169, R210). -/
  owed : List (Nat × Nat × Nat) := []
  /-- Packets that wait for room in the counter (R210), and those that the fabric has lost (R315, R316). -/
  unsent : List (Nat × Nat × Nat) := []
  lost : List (Nat × Nat) := []
  /-- Packets sent later than its start, with the cycle. -/
  sentAt : List ((Nat × Nat) × Nat) := []
  /-- Its panel's scratchpad has been freed for good (R227). -/
  orphan : Bool := false
  /-- The packed source, held while the panel is saved (R332). -/
  image : Option (List Byte) := none
  /-- The bytes of that image with an uncorrectable error: offset and ECC word (R347). -/
  imageBad : List (Nat × Nat) := []
  born : Nat
deriving DecidableEq, Repr

/-- One participant's collective (R193, R220). -/
structure Coll where
  agent : Nat
  stroke : Nat
  panel : Nat
  ctx : Nat
  core : Nat
  comm : Nat
  level : Nat
  op : Nat
  wire : Nat
  count : Nat
  step : Nat
  src : Nat
  dst : Nat
  comp : Option Nat
  /-- The unit's index at the level, and at the level above; the index of the panel. -/
  unit : Nat
  group : Nat
  pidx : Nat := 0
  /-- Its destination's bytes once the hops are over, and the chunks that have landed (R221, R222). -/
  out : Option (List Byte) := none
  landed : List Nat := []
  orphan : Bool := false
  born : Nat := 0
deriving DecidableEq, Repr

/-- A registered publishable region (R190): its live bytes are memory; the shadow's are here, under the same
addresses. -/
structure Region where
  ctx : Nat
  num : Nat
  /-- Its virtual base and its pieces of memory. -/
  base : Nat
  segs : List (Nat × Nat)
  shadow : List Host.Cell
  /-- Words of the shadow that hold an uncorrectable error, under the same addresses (R347). -/
  bad : List Nat := []
deriving DecidableEq, Repr

/-- An Easel entry (R288) with the cycle of its acceptance, the entries ahead of it then, whether it was ACCEPTED,
and where it is spilled. -/
structure QEntry where
  bytes : List Byte
  born : Nat
  ahead : Nat := 0
  accepted : Bool := true
  slot : Option Nat := none
  bad : Option Nat := none
deriving DecidableEq, Repr

/-- A task control block (R278). -/
structure Tcb where
  ctx : Nat
  comm : Nat
  entry : VAddr
  args : List Word
  kind : Bool
  enq : Nat
  /-- 512 cycles have passed since its ENQ (R281). -/
  ripe : Bool := false
deriving DecidableEq, Repr

/-- A combine deposit on its way to its slot (R301). -/
structure Deposit where
  agent : Nat
  stroke : Nat
  str : Nat
  ctx : Nat
  slot : Nat
  k : Nat
  gate : Word
  row : Nat
  counted : Bool := true
  born : Nat := 0
deriving DecidableEq, Repr

/-! ## The matrix array (spec/06_matrix.md R112) -/

/-- A latch half or a plane slot: its 64 rows of element values and of block scales, and its records. -/
structure Operand where
  fmt : Nat
  ks : Nat
  rows : List (List Int)
  scales : List (List Nat)
  /-- The bytes of each row as it was read, its blocks joined (R117, R339). -/
  raw : List (List Byte) := []
  err : Option Nat := none
  tagCtx : Nat := 0
  tagBase : Nat := 0
  tagStride : Nat := 0
deriving DecidableEq, Repr

/-- A tile (R113): its status word's fields and its elements, row by row (none: all zero). `bad`: a row whose storage
holds an uncorrectable error (R124). -/
structure Tile where
  kdone : Nat := 0
  ovf : Bool := false
  inexact : Bool := false
  nan : Bool := false
  eacc : Int := 0
  evalid : Bool := false
  acc : List Int := []
  bad : Option Nat := none
  /-- Written since the claim began or since its last MXZ (R339). -/
  written : Bool := false
deriving DecidableEq, Repr

/-- A member that has arrived at the rendezvous (R116, R122). -/
structure Member where
  agent : Nat
  tile : Nat
  half : Nat
  word : List Word
  skip : DWord
  kbase : DWord
  list : Nat
  vf : Nat
  last : Bool
deriving DecidableEq, Repr

/-- The matrix state of a core, held by one panel (R16, R112). -/
structure Matrix where
  owner : Nat
  halves : Tab Operand := []
  slots : Tab Operand := []
  tiles : Tab Tile := []
  /-- The rendezvous latch: its list and the members that have arrived. -/
  latch : Option (Nat × List Member) := none
  /-- The member steps left to a running MMA when a pre-emption under way stops it (R124, R332). -/
  stopAt : Option Nat := none
deriving DecidableEq, Repr

/-- An MXLD or MXLB fill under way (R118, R119). -/
structure Fill where
  agent : Nat
  /-- Its program order (R195). -/
  po : Nat := 0
  stroke : Nat
  /-- The panel whose claim it fills (R112). -/
  panel : Nat := 0
  core : Nat
  ctx : Nat
  isB : Bool
  idx : Nat
  fmt : Nat
  ks : Nat
  str : Nat
  /-- The pieces of each row's blocks: elements, then the scale where there is one. -/
  rows : List (List (List (Nat × Nat)))
  /-- Its pieces on publishable pages: never kept (R165). -/
  pubs : List (Nat × Nat) := []
  /-- Its accesses: virtual address and pieces. -/
  places : List (Nat × List (Nat × Nat)) := []
  base : Nat
  stride : Nat
  born : Nat := 0
  before : List (Nat × Nat) := []
  /-- Its request or its response has been dropped by the fabric (R316). -/
  lost : Bool := false
deriving DecidableEq, Repr

/-- A parked MXADD or MXREST reading its image (R128). -/
structure ImageRead where
  agent : Nat
  ctx : Nat := 0
  /-- Its program order (R195). -/
  po : Nat := 0
  add : Bool
  tile : Nat
  str : Nat
  segs : List (Nat × Nat)
  /-- Its pieces on publishable pages. -/
  pubs : List (Nat × Nat) := []
  va : Nat
  born : Nat := 0
  before : List (Nat × Nat) := []
  /-- Its request or its response has been dropped by the fabric (R316). -/
  lost : Bool := false
deriving DecidableEq, Repr

/-! ## Sets (spec/07_sets.md) -/

/-- A segment's insert counter, form (R136), whether it is held in SRAM, when it was last used, and the physical
address of an uncorrectable error in it. -/
structure Seg where
  ic : Nat := 0
  form : Nat := 0
  resident : Bool := true
  used : Nat := 0
  bad : Option Nat := none
deriving DecidableEq, Repr

/-- A set (R135): its universe, pin, home core, members in ascending order, and segments. -/
structure SetObj where
  u : Nat
  pin : Nat
  home : Nat
  keys : List Nat := []
  segs : Tab Seg := []
deriving DecidableEq, Repr

/-- A set-table entry (R133): the generation of the set it holds or will hold next. -/
structure SetEntry where
  gen : Nat
  obj : Option SetObj
deriving DecidableEq, Repr

/-- What a set instruction does at its set (R151-R161). -/
inductive SetAct where
  | snew (u pin home : Nat)
  | sdel
  | sins (sts : Bool)
  | srem (sts : Bool)
  | shas
  | scard
  | binary (op : Nat) (card : Bool)
  | sitr (start : Nat)
  | scost (op : Nat)
  | sinfo (sel : Nat) (key : Nat)
  | pin (form : Nat)
  | srank (sel : Bool)
  | sload (str base : Nat)
  | sstore (str base lim start : Nat)
deriving DecidableEq, Repr

/-- What SSTAT and SSBYTES say of an instruction (R148): codes with their cycles, conversions, RESULT, bytes fetched, and
C where R147 bounds the cycles. -/
structure SetStat where
  algs : List (Nat × Nat) := []
  convs : Nat := 0
  res : Nat := 0
  bytes : Nat := 0
  cost : Option Nat := none
deriving DecidableEq, Repr

/-- Storage that a replaced directory references (R235): its bytes in SRAM and in the backing region, and the set
instructions that still read it. -/
structure OldStore where
  sram : Nat
  back : Nat
  readers : List Nat
deriving DecidableEq, Repr

/-- An accepted set instruction before its point (R140). `handles`: the sets it names, the destination first. `keys`:
the key of each active lane. `holds`: its agent stays parked (R160, R161). `todo`: the writes still to be sent once the
count `sent` is fixed (R161), with what it will report. -/
structure SetOp where
  agent : Nat
  /-- Its program order (R195). -/
  po : Nat := 0
  stroke : Nat
  ctx : Nat
  core : Nat
  act : SetAct
  handles : List Nat := []
  lanes : Mask
  width : Nat
  keys : List (Nat × Nat) := []
  since : Nat
  issue : Nat
  size : Nat := 8
  holds : Bool := false
  /-- Names that its last-read bits free when a parked instruction goes on. -/
  freed : List Nat := []
  dst : List (Nat × Nat × Mask) := []
  sdst : List Nat := []
  kdst : Option Nat := none
  result : Option Nat := none
  before : List (Nat × Nat) := []
  sent : Option Nat := none
  todo : List PacketPart := []
  stat : SetStat := {}
  /-- Its request or its response has been dropped by the fabric (R316). -/
  lost : Bool := false
deriving DecidableEq, Repr

/-! ## Panels, cores, contexts and commissions -/

/-- The endpoint kinds of a channel (R25, R189). -/
inductive ChanKind where
  | primer | ring | port | pull | iter
deriving DecidableEq, Repr

/-- A bound channel. -/
structure Chan where
  kind : ChanKind
  /-- A ring: base address, slot bytes, slots, next free slot, oldest popped slot, copies not yet delivered in the
  order issued, and the error bit (R187, R189). -/
  base : Nat := 0
  slotBytes : Nat := 0
  slots : Nat := 0
  nextSlot : Nat := 0
  oldSlot : Nat := 0
  copies : List Nat := []
  err : Bool := false
  /-- For each held entry, whether its pop is an acquire wider than a core (R229, R292). -/
  wide : List Bool := []
  /-- For each held entry, the physical address of an uncorrectable error in it (R296). -/
  bad : List (Option Nat) := []
  /-- An iterator: set handle and next start key, none once the keys are used up (R156). -/
  set : Nat := 0
  nextKey : Option Nat := none
  /-- A port: its queue, and the batch entries not yet held as channel entries (R296, R297). -/
  queue : Nat := 0
  batch : List QEntry := []
  /-- Entries in delivery order, one value per lane: 32 bits, or a ring's 64-bit slot address (R25, R167). -/
  ents : List (List DWord) := []
  /-- An iterator whose keys or set are gone for good, or a firing's port whose batch is exhausted (R25, R296). -/
  done : Bool := false
  /-- Entries popped since binding, and a ring's slots popped and not yet released (R229). -/
  popped : Nat := 0
  slotsPopped : Nat := 0
deriving DecidableEq, Repr

/-- How a pending pre-emption request is met (R333-R335): what the device chose, or what the commission's mode asks for.
`expired`: a hardware save after the bound of a handler or checkpoint has passed. -/
inductive PreHow where
  | save | flush | drain | handler | ckpt | expired
deriving DecidableEq, Repr

/-- A pre-emption request pending for a panel (R331-R335). -/
structure PreReq where
  deadline : Option Nat
  since : Nat
  how : PreHow
  who : Requester
  /-- The event of a bound miss is owed on completion: the estimate (R333). -/
  miss : Option Nat := none
  /-- The save area taken when the save, or the user handler, began (R337): offsets and sizes of its pieces. -/
  area : Option (List (Nat × Nat)) := none
  /-- The OR of the keep masks of the group, once a checkpoint save has begun (R335). -/
  keep : Option Nat := none
deriving DecidableEq, Repr

structure Panel where
  comm : Nat
  ctx : Nat
  core : Nat
  idx : Nat
  strokes : List Nat
  primer : Option Nat := none
  chans : Tab Chan := []
  /-- Cause of the Primer's trap, 0xFF after EXIT (R330). -/
  primerState : Nat := 0
  /-- The panel error record (R330): count, reason of the last, whether its address is virtual, the address. -/
  errCount : Nat := 0
  errReason : Nat := 0
  errVirtual : Bool := false
  errAddr : Nat := 0
  /-- The progress hint and the cycle it was written (R335). -/
  hint : Option (Nat × Nat) := none
  req : Option PreReq := none
  lvls : List Word
  /-- The scratchpad allocation: slot VA, bytes and granules in order (R164, R308). -/
  slotVA : Nat
  slotBytes : Nat
  granules : List Nat
  mapped : Bool := true
  /-- Scratchpad offsets of the registered barrier objects (R179). -/
  barriers : List Nat := []
  /-- Class of each level from 1 up: 0 C, 1 P, 2 W (R238). -/
  classes : List Nat := []
  task : Bool := false
  /-- The last issues of the core's class W agents when a save for register pressure last found no room (R19, R333). -/
  pressTold : List Nat := []
deriving DecidableEq, Repr

/-- A near-cache line (R165) or a recent-table row (R171): context, first byte, bytes. `rest`: the pieces of a row after
its first one, where it crosses a page. -/
structure CacheLine where
  ctx : Nat
  pa : Nat
  bytes : List Byte
  keep : Bool := false
  rest : List (Nat × Nat) := []
deriving DecidableEq, Repr

structure Core where
  /-- Strokes admitted since the core was reset (R255). -/
  admitted : Nat := 0
  near : List CacheLine := []
  recent : List CacheLine := []
  matrix : Option Matrix := none
  /-- The source tags that its plane slots last held: context, base, stride (R295). -/
  tags : Tab (Nat × Nat × Nat) := []
  /-- The task queue, in order of entry (R278). -/
  tasks : List Tcb := []
  lastSteal : Option Nat := none
  /-- The lines of its instruction cache: context, and virtual address over 128 (R281, R306). -/
  icache : List (Nat × Nat) := []
deriving DecidableEq, Repr

/-- A commission record (R238), its fields read. Level lists start at level 1. -/
structure CommRec where
  entry : VAddr := 0
  access : VAddr := 0
  width : Nat := 32
  levels : Nat := 3
  producer : Nat := 0
  tclass : Nat := 0
  pmode : Nat := 0
  restart : Bool := false
  starvtrap : Bool := false
  starvexp : Nat := 28
  regpeak : Nat := 1
  regfloor : Nat := 1
  scratch : Nat := 0
  latency : Nat := 0
  lanes : Nat := 32
  units : Nat := 1
  tvbase : DWord := 0
  args : DWord := 0
  rank : Word := 0
  salt : Word := 0
  taskscr : Nat := 0
  core0 : Nat := 0
  ncores : Nat := 256
  devunit : Nat := 0
  tag : Word := 0
  done : DWord := 0
  classes : List Nat := []
  domains : List Nat := []
  extents : List Nat := []
deriving DecidableEq, Repr

/-- Where a commission came from (R245, R249, R295). -/
inductive Source where
  | queue (n : Nat)
  | table (n : Nat)
  | easel (q : Nat)
deriving DecidableEq, Repr

structure Comm where
  tag : Word
  rkey : DWord
  tvbase : DWord
  tclass : Nat
  ctx : Nat := 0
  record : CommRec := {}
  priv : Nat := 0
  source : Source := .queue 0
  /-- Its place in the launch order (R247, R249). -/
  order : Nat := 0
  /-- Panels not yet placed, and the placement cursor (R252). -/
  unplaced : List Nat := []
  cursor : Nat := 0
  /-- The core of the first panel of each bound unit: level, unit index, core (R253). -/
  bound : List (Nat × Nat × Nat) := []
  /-- Panels that have executed their first instruction (R241). -/
  started : List Nat := []
  /-- Collectives that have run: level, unit, STEP (R220). -/
  collsDone : List (Nat × Nat × Nat) := []
  /-- The queue, the number of the firing and the batch of an expert task (R296). -/
  batch : Option (Nat × Nat × List QEntry) := none
  /-- Draining (R333), pre-empted so that its queued tasks form no stroke (R284), ended by system software (R247). -/
  drain : Bool := false
  paused : Bool := false
  ended : Bool := false
deriving DecidableEq, Repr

/-- A cached translation of one page (R306, R312). -/
structure TlbEntry where
  va : Nat
  size : Nat
  pa : Nat
  r : Bool
  w : Bool
  x : Bool
  e : Bool
  p : Bool
  g : Bool
deriving DecidableEq, Repr

/-- An egress channel (R317): its configuration, the next descriptor's index and the next sequence number. `told`: the
uncorrectable error that stops the reading of its producer index has been counted (R348). -/
structure Egress where
  cfg : EgressCfg
  index : Nat := 0
  seq : Nat := 0
  told : Bool := false
deriving DecidableEq, Repr

structure Ctx where
  id : Nat
  params : CtxParams
  tlb : List TlbEntry := []
  extraGrants : List Range := []
  /-- The save region's bytes added since creation, and its areas in use: offset and size (R305, R337). -/
  extraSave : Nat := 0
  areas : List (Nat × Nat) := []
  sets : Tab SetEntry := []
  /-- Set instructions that are still reading a set after their point, with the set's index, and the storage kept for
  them (R235). -/
  reading : List (Nat × Nat) := []
  replaced : List OldStore := []
  /-- Chunks handed out by the pool (R286). -/
  chunks : Nat := 0
  /-- Scratch-window slots handed out, and whether their exhaustion has been reported (R308). -/
  slots : Nat := 0
  slotsTold : Bool := false
  windows : List ExportWin := []
  egress : Tab Egress := []
  digest : BitVec 256 := 0
  /-- Issue has stopped and the kill flag is raised (R314), with the cycle. -/
  killed : Option Nat := none
  /-- Step 4 of R314 is complete; the flag stays raised until the ID is used again (R315). -/
  drained : Bool := false
deriving DecidableEq, Repr

/-- What the device reports to system software (R244, R325, R327, R328 and the rules named at each). -/
inductive Event where
  /-- A double fault or an unhandled trap: the first cause (where one was being handled), the cause, context, TAG,
  panel, stroke, PC (R325). -/
  | doubleFault (first : Option Nat) (cause ctx tag panel stroke : Nat) (pc : VAddr)
  | halted (code ctx tag panel stroke : Nat) (pc : VAddr)
  | primerStop (cause ctx tag panel : Nat) (pc : VAddr)
  | starved (ctx tag panel stroke kind : Nat) (pc : VAddr)
  /-- A commission queue or table entry fault (R246, R247, R249). -/
  | queueFault (queue reason : Nat) (va : Nat)
  | noCompletion (src : Source) (tag : Nat)
  | entryDisabled (entry : Nat)
  /-- Scratch-window slots of a context are used up (R308). -/
  | slotsExhausted (ctx : Nat)
  | boundMiss (who : Requester) (panel estimate : Nat) (actual : Option Nat)
  | saveRegion (ctx bytes : Nat)
  | notResumed (comm panel : Nat)
  | queueSpill (ctx queue count : Nat)
  | easelMiss (queue age : Nat)
  | combineError (ctx slot k : Nat)
  /-- A multicast packet for a freed buffer, at the destination and at the sender (R219). -/
  | dropped (ctx dev va : Nat)
  | chunkDropped (ctx dest chunk : Nat)
  | egressFault (ctx chan : Nat) (seq : Nat)
  /-- A frame sent by the sealer: the frame, then its record (R317). -/
  | frame (ctx chan : Nat) (bytes : List Byte)
  /-- What an RDMA READ returns, and a refusal (R223, R224, R319). -/
  | rdmaData (qp : Nat) (bytes : List Byte)
  | nak (qp : Nat)
  /-- A reply of the management protocol (R356): its numbers and bytes. -/
  | reply (name : String) (ok : Bool) (values : List Nat) (bytes : List Byte)
  /-- To the server that nonvolatile storage names, else broadcast to the link (R355). -/
  | fetchRequest (server : Option Nat)
  | imageDiscarded
  | protectiveStop
deriving DecidableEq, Repr

/-- Physical memory: (address, byte), addresses strictly rising, no byte that an unlisted address reads as. -/
abbrev Memory := List Host.Cell

/-! ## Pre-emption, queues, the table, the Easel and the security block -/

/-- An update of a saved scratchpad that the device holds (R332): set bits of a byte, or take bytes off PENDING. -/
inductive Held where
  | setBits (off : Nat) (bits : Byte)
  | pending (off : Nat) (n : Nat)
deriving DecidableEq, Repr

/-- A saved panel (R332-R336): the area's offset and size in the context's save region, the mode, the header written,
and what the device holds for it: the structure of its records, and updates of its scratchpad. -/
structure Saved where
  comm : Nat
  ctx : Nat
  idx : Nat
  /-- Its area: offsets and sizes of its pieces in the save region (R337). -/
  area : List (Nat × Nat)
  size : Nat
  mode : Nat
  header : List Byte
  claim : Bool
  /-- The scratchpad comes back as a fresh allocation. -/
  fresh : Bool
  held : List Held := []
  /-- The engine operations that still write completion and barrier objects of its scratchpad. -/
  copies : List Nat := []
  task : Bool := false
  /-- What its placement charges beside its scratchpad: register bytes and stroke-table entries (R251). -/
  regBytes : Nat := 0
  entries : Nat := 0
  /-- The core where it has been placed, until its restore is complete (R336). -/
  place : Option Nat := none
  /-- Its area was not as written: it is not resumed (R336). -/
  lost : Bool := false
  panel : Panel
  strokes : Tab Stroke := []
  agents : Tab Agent := []
  matrix : Option Matrix := none
  keep : Nat := 0x7FF
  /-- Offsets of the ECC words of its scratchpad that had an uncorrectable error, which come back with it (R347). -/
  scratchBad : List Nat := []
deriving DecidableEq, Repr

/-- A commission queue as the device registers it (R245): whether a record is half read, and whether an uncorrectable
error in its control block has been reported (R348). -/
structure CQueue where
  reg : QueueReg
  reading : Bool := false
  told : Bool := false
deriving DecidableEq, Repr

/-- A time-triggered entry's progress (R249): the last instance taken, the commission launched last, a pending one. -/
structure TTState where
  cfg : TTEntry
  last : Int
  inst : Option Nat := none
  /-- The record of the pending instance, as read when it fell due. -/
  pending : Option (List Byte) := none
deriving DecidableEq, Repr

/-- An Easel queue (R288, R289). -/
structure EQueue where
  ctx : Nat
  configured : Bool := false
  template : Option CommRec := none
  spillBase : Nat := 0
  spillN : Nat := 0
  cap : Nat := 0
  fill : Nat := 0
  batch : Nat := 0
  age : Nat := 0
  wbase : Nat := 0
  wstride : Nat := 0
  prio : Nat := 0
  enable : Bool := false
  ring : List QEntry := []
  spill : List QEntry := []
  spilled : Nat := 0
  refused : Nat := 0
  firings : Nat := 0
  /-- The panel and channel of its pull binding (R297). -/
  pull : Option (Nat × Nat) := none
  /-- The oldest entry has reached the age timer (R293). -/
  expired : Bool := false
deriving DecidableEq, Repr

/-- The states of R353. -/
inductive Power where
  | rom | bist | ready | safe | recover
deriving DecidableEq, Repr

/-- Where a packet was dropped for its header: at a home or at a port, the port, the link and the physical layer (R316). -/
structure DropPlace where
  atHome : Bool
  port : Nat
  link : Nat
  layer : Nat
deriving DecidableEq, Repr

/-- A record of the error log (R348). That of a header error holds its place too, for which the 32 bytes have no field but
the unit's number. -/
structure LogRec where
  cycle : Nat
  pa : Nat
  kind : Nat
  unit : ErrUnit
  ctx : Nat
  count : Nat
  drop : Option DropPlace := none
deriving DecidableEq, Repr

/-- What the outside and the scheduler do next. -/
inductive Move where
  | event (i : Instr)
  | issue (agent : Nat)
  | tick (n : Nat)
  /-- A packet from the fabric reaches this device (R216). -/
  | arrive (p : Packet)
  /-- A packet of another device's MCAST, with the sender and the virtual address of its destination (R219). -/
  | arriveCast (p : Packet) (sender va : Nat)
  /-- System software chooses the PTP source (R250), assigns this device its number in the fabric group (R215), and
  binds a queue pair to a context (R224). -/
  | ptpSource (port domain : Nat)
  /-- System software configures the management protocol's UDP port (R356), and the address of the fetch server (R355). -/
  | mgmtPort (n : Nat)
  | fetchServer (address : Option Nat)
  /-- A management key is enrolled in Juran (R356). -/
  | enrollKey (key : MgmtKey)
  | assignDevice (n : Nat)
  | bindQp (qp ctx : Nat)
  /-- A request of the device manager: an entry of a context's page-table root or of another table of its that is no
  tenant table is written (R304, R356). -/
  | writeTable (signer : Option MgmtKey) (ctx pa : Nat) (entry : DWord)
  /-- A translation of the page that holds `va` is cached, or a cached one dropped (R312). -/
  | cacheWalk (ctx va : Nat)
  | dropWalk (ctx va : Nat)
  /-- A near-cache line leaves a core (R165). -/
  | evict (core pa : Nat)
  /-- A line leaves a core's instruction cache. -/
  | dropLine (core ctx line : Nat)
  /-- A pre-emption under way lets a core's running MMA make n more member steps (R124). -/
  | mmaStop (core n : Nat)
  /-- Some lanes' reads of a result are performed before the others, from copies or at the homes (R168, R198). -/
  | readLanes (result : Nat) (lanes : Mask) (copy : Bool)
  /-- An uncorrectable error appears: in memory, in a tile's row, in a set segment, in an Easel entry (R346). -/
  | upset (pa : Nat)
  /-- The same in the shadow of the registered region that holds an address. -/
  | upsetShadow (pa : Nat)
  | upsetTile (core tile row : Nat)
  /-- The same in a register entry, and in an operand buffer: half or slot n of a core. -/
  | upsetVector (stroke name lane : Nat)
  | upsetScalar (agent n : Nat)
  | upsetMask (agent n : Nat)
  | upsetOperand (core : Nat) (half : Bool) (n : Nat)
  | upsetSet (ctx index seg pa : Nat)
  | upsetEntry (queue idx pa : Nat)
  /-- A correctable error of a unit: the word's address, or 0, and the context whose access met it (R348). -/
  | corrected (u : ErrUnit) (pa : Nat) (ctx : Option Nat)
  /-- The dispatcher has begun to read a record of a commission queue (R246). -/
  | halfRead (queue : Nat)
deriving DecidableEq, Repr

/-- An online repair under way (R351). -/
inductive Repair where
  | row (bank : BankPlace) (row : Nat) (column : Bool)
  | chan (n : Nat)
deriving DecidableEq, Repr

/-- The security and management block (R320, R346-R356). -/
structure Juran where
  power : Power := .rom
  slots : List (Option FwImage) := [none, none]
  /-- The slot booted from, and the image that runs. -/
  active : Nat := 0
  running : Option FwImage := none
  /-- The slot not in use holds an update that has not been booted (R354). -/
  update : Bool := false
  rollback : Nat := 0
  counts : List (ErrUnit × Nat) := []
  thresholds : List (ErrUnit × Nat) := []
  margins : List (ErrUnit × Nat) := []
  log : List LogRec := []
  lost : Nat := 0
  /-- Sequence number of the oldest record held. -/
  logBase : Nat := 0
  fenced : List Nat := []
  /-- The spare map (R352): logical tiles on spares, rows and columns, banks, lanes and channels spared. -/
  tiles : List Nat := []
  rows : List Repair := []
  banks : List (TilePlace × BankName) := []
  lanes : List LaneName := []
  chans : List Nat := []
  repairs : Tab Repair := []
  retrain : List (LaneName × Nat) := []
  /-- The management keys enrolled (R356). -/
  keys : List MgmtKey := []
  /-- Requests that wait for the one whose effect is not complete (R356). -/
  waiting : List Move := []
  /-- The cycle of the last fetch request, and the period in which each monitor was last sampled (R349). -/
  fetched : Option Nat := none
  sampled : List (ErrUnit × Nat) := []
  stopped : Bool := false
  /-- The PTP source is locked, and the nanoseconds by which device time leads the local oscillator (R250). -/
  ptpLocked : Bool := false
  /-- The Ethernet port and the domain number that system software chose for it (R250). -/
  ptpPort : Nat := 0
  ptpDomain : Nat := 0
  /-- The UDP port of the management protocol (R356), and the server that the boot ROM fetches from (R355). -/
  mgmtPort : Nat := 0
  server : Option Nat := none
  ptpBase : Nat := 0
  ptpCycle : Nat := 0
  /-- Device registers that have no row of their own. -/
  regs : Tab DWord := []
  /-- This device's number in the fabric group (R215). -/
  dev : Nat := 0
deriving DecidableEq, Repr

structure State where
  cycle : Nat := 0
  cur : Nat := 0
  agenda : List Move := []
  fresh : Nat := 1
  freeN : Nat := 0
  mem : Memory := []
  badWords : List Nat := []
  agents : Tab Agent := []
  strokes : Tab Stroke := []
  panels : Tab Panel := []
  cores : Tab Core := []
  comms : Tab Comm := []
  ctxs : Tab Ctx := []
  results : Tab Result := []
  packets : Tab Packet := []
  ackq : Tab Ack := []
  groups : Tab FlagGroup := []
  fences : List FenceRec := []
  copies : Tab Copy := []
  colls : Tab Coll := []
  regions : List Region := []
  fills : Tab Fill := []
  images : Tab ImageRead := []
  setOps : Tab SetOp := []
  deposits : Tab Deposit := []
  saved : Tab Saved := []
  cqueues : Tab CQueue := []
  tt : Tab TTState := []
  easel : Tab EQueue := []
  juran : Juran := {}
  /-- The context that each RDMA queue pair is bound to (R224). -/
  qps : Tab Nat := []
  events : List Event := []
deriving DecidableEq, Repr

/-- No step of this model ends in a fault: every trap is taken (R324) and every other failure has a place the spec
names, so nothing raises it. Kept for the host's interface; safe. -/
inductive Fault where
  | unused
deriving DecidableEq, Repr

/-- Why a step gives no meaning. -/
inductive Refusal where
  /-- Raised by an arm of `exec` whose instruction has no meaning yet; safe. -/
  | notModelled (mnemonic : String)
deriving DecidableEq, Repr

/-- The device right after reset (R353): nothing is running and no context exists. -/
def State.reset : State := {}

end Sys2Proof.Machine
end

