-- ==== Sys2Proof/Machine/Bits.lean ====
section
/-! DEFINITION. Tables, masks, byte order and integer values (spec/00_scope.md R8, spec/04_number_formats.md R66). -/

namespace Sys2Proof.Machine
open Sys2Proof

/-! ## Tables -/

def tabGet {α : Type} : Tab α → Nat → Option α
  | [], _ => none
  | (k, v) :: t, n => if k = n then some v else tabGet t n

/-- Writes key `n`: replaces it where it stands, else puts it before the first greater key. -/
def tabPut {α : Type} : Tab α → Nat → α → Tab α
  | [], n, x => [(n, x)]
  | (k, v) :: t, n, x =>
    if k = n then (n, x) :: t
    else if n < k then (n, x) :: (k, v) :: t
    else (k, v) :: tabPut t n x

def tabDel {α : Type} : Tab α → Nat → Tab α
  | [], _ => []
  | (k, v) :: t, n => if k = n then tabDel t n else (k, v) :: tabDel t n

def tabMap {α : Type} (f : Nat → α → α) (t : Tab α) : Tab α := t.map fun p => (p.1, f p.1 p.2)

def tabFilter {α : Type} (f : Nat → α → Bool) (t : Tab α) : Tab α := t.filter fun p => f p.1 p.2

/-- The first entry that meets `f`. -/
def tabFind {α : Type} (f : Nat → α → Bool) : Tab α → Option (Nat × α)
  | [] => none
  | (k, v) :: t => if f k v then some (k, v) else tabFind f t

/-- Changes the entry at `n`, where there is one. -/
def tabMod {α : Type} (t : Tab α) (n : Nat) (f : α → α) : Tab α :=
  match tabGet t n with
  | some v => tabPut t n (f v)
  | none => t

/-! ## Masks -/

/-- The number whose bit i, for i below `w`, is `p i`. -/
def natOfBits (p : Nat → Bool) : Nat → Nat
  | 0 => 0
  | w + 1 => natOfBits p w + (if p w then 2 ^ w else 0)

/-- The mask whose bit i, for i below `w`, is `p i` and whose other bits are 0. -/
def maskOf (w : Nat) (p : Nat → Bool) : Mask := BitVec.ofNat 128 (natOfBits p w)

/-- The mask of lanes 0 to w - 1. -/
def lanesBelow (w : Nat) : Mask := BitVec.ofNat 128 (2 ^ w - 1)

/-- The set lanes of a mask below `w`, rising. -/
def laneList (m : Mask) (w : Nat) : List Nat := (List.range w).filter fun i => m.getLsbD i

/-- The lowest set lane below `w`. -/
def lowestLane (m : Mask) (w : Nat) : Option Nat := (laneList m w).head?

def popCount (m : Mask) (w : Nat) : Nat := (laneList m w).length

def laneBit (i : Nat) : Mask := BitVec.ofNat 128 (2 ^ i)

/-! ## Bytes (R8) -/

def bytesOf : Nat → Nat → List Byte
  | 0, _ => []
  | n + 1, x => BitVec.ofNat 8 x :: bytesOf n (x / 256)

def ofBytes : List Byte → Nat
  | [] => 0
  | b :: t => b.toNat + 256 * ofBytes t

/-- Bits [hi:lo] of a number. -/
def bitsAt (x hi lo : Nat) : Nat := (x / 2 ^ lo) % 2 ^ (hi + 1 - lo)

def bitAt (x i : Nat) : Bool := Nat.testBit x i

/-! ## Integer values (R66) -/

/-- The two's complement value of the low n bits. -/
def signedOf (n x : Nat) : Int :=
  let y := x % 2 ^ n
  if 2 * y < 2 ^ n then (y : Int) else (y : Int) - (2 ^ n : Nat)

/-- The low n bits of an integer. -/
def wrapInt (n : Nat) (x : Int) : Nat := (x % ((2 ^ n : Nat) : Int)).toNat

def clampInt (lo hi x : Int) : Int := if x < lo then lo else if hi < x then hi else x

/-- Floor and ceiling division of naturals. -/
def ceilDiv (a b : Nat) : Nat := (a + b - 1) / b

def alignDown (a n : Nat) : Nat := a / n * n

/-- Width of a type in bits (R36). -/
def Ty.bits : Ty → Nat
  | .none => 0
  | .i8 | .n8 | .b8 => 8
  | .i16 | .n16 | .b16 | .f16 | .bf16 => 16
  | .i32 | .n32 | .b32 | .f32 => 32
  | .i64 | .n64 | .b64 => 64

def Ty.signed : Ty → Bool
  | .i8 | .i16 | .i32 | .i64 => true
  | _ => false

def Ty.isFloat : Ty → Bool
  | .f32 | .f16 | .bf16 => true
  | _ => false

/-- The value of the low bits at an integer type. -/
def intVal (t : Ty) (x : Nat) : Int :=
  if Ty.signed t then signedOf (Ty.bits t) x else ((x % 2 ^ Ty.bits t : Nat) : Int)

/-- The range of an integer type. -/
def intMin (t : Ty) : Int := if Ty.signed t then -((2 ^ (Ty.bits t - 1) : Nat) : Int) else 0
def intMax (t : Ty) : Int :=
  if Ty.signed t then ((2 ^ (Ty.bits t - 1) : Nat) : Int) - 1 else ((2 ^ Ty.bits t : Nat) : Int) - 1

/-- A value of type `t` written to a register of `w` bits: the upper bits are filled as R67 says. -/
def fillTo (t : Ty) (w : Nat) (x : Nat) : Nat :=
  if Ty.signed t then wrapInt w (signedOf (Ty.bits t) x) else x % 2 ^ Ty.bits t

end Sys2Proof.Machine
end

