-- ==== Sys2Proof/Machine/Round.lean ====
section
/-! DEFINITION. Floating-point values and the one rounding function (spec/04_number_formats.md R69, R70, R76-R81). -/

namespace Sys2Proof.Machine
open Sys2Proof

/-- A floating-point format (R69). Codes are numbered without the sign: `maxCode` is the largest finite one. -/
structure FFmt where
  ebits : Nat
  mbits : Nat
  bias : Nat
  maxCode : Nat
  /-- What overflow towards larger magnitude gives: infinity, NaN (E4M3) or the largest value. -/
  above : Nat
  /-- The infinity code, where the format has infinities. -/
  inf : Option Nat
  /-- The canonical NaN, where the format has one. -/
  nan : Option Nat
deriving DecidableEq, Repr

def fmtF32 : FFmt := ⟨8, 23, 127, 0x7F7FFFFF, 0x7F800000, some 0x7F800000, some 0x7FC00000⟩
def fmtF16 : FFmt := ⟨5, 10, 15, 0x7BFF, 0x7C00, some 0x7C00, some 0x7E00⟩
def fmtBf16 : FFmt := ⟨8, 7, 127, 0x7F7F, 0x7F80, some 0x7F80, some 0x7FC0⟩
def fmtE4m3 : FFmt := ⟨4, 3, 7, 0x7E, 0x7F, none, some 0x7F⟩
def fmtE5m2 : FFmt := ⟨5, 2, 15, 0x7B, 0x7C, some 0x7C, some 0x7E⟩
def fmtE2m3 : FFmt := ⟨2, 3, 1, 0x1F, 0x1F, none, none⟩
def fmtE3m2 : FFmt := ⟨3, 2, 3, 0x1F, 0x1F, none, none⟩
def fmtE2m1 : FFmt := ⟨2, 1, 1, 0x7, 0x7, none, none⟩

def FFmt.width (f : FFmt) : Nat := 1 + f.ebits + f.mbits

def fmtOfTy : Ty → FFmt
  | .f16 => fmtF16
  | .bf16 => fmtBf16
  | _ => fmtF32

/-- A value before rounding: NaN (signalling or not), an infinity, or an exact signed rational num / den. -/
inductive Fl where
  | nan (sig : Bool)
  | inf (neg : Bool)
  | fin (neg : Bool) (num den : Nat)
deriving DecidableEq, Repr

/-- 2^e as a fraction. -/
def pow2 (e : Int) : Nat × Nat := if e < 0 then (1, 2 ^ (-e).toNat) else (2 ^ e.toNat, 1)

/-- num / den times 2^e. -/
def scaleQ (num den : Nat) (e : Int) : Nat × Nat := (num * (pow2 e).1, den * (pow2 e).2)

/-- The value of a code of a format (R69). -/
def decodeFl (f : FFmt) (c : Nat) : Fl :=
  let neg := bitAt c (f.ebits + f.mbits)
  let mag := c % 2 ^ (f.ebits + f.mbits)
  let e := mag / 2 ^ f.mbits
  let m := mag % 2 ^ f.mbits
  if mag ≤ f.maxCode then
    let (num, den) :=
      if e = 0 then scaleQ m 1 (1 - (f.bias : Int) - f.mbits)
      else scaleQ (2 ^ f.mbits + m) 1 ((e : Int) - f.bias - f.mbits)
    .fin neg num den
  else if f.inf = some mag then .inf neg
  else .nan (decide (7 ≤ f.mbits ∧ m < 2 ^ (f.mbits - 1)))

/-- The flags of FPST (R47, R85). -/
def flInvalid : BitVec 6 := 1
def flDivzero : BitVec 6 := 2
def flOverflow : BitVec 6 := 4
def flUnderflow : BitVec 6 := 8
def flInexact : BitVec 6 := 16
def flBadpack : BitVec 6 := 32

/-- One round of Philox4x32 (R80): counter words and key words. -/
def philoxRound (c : Nat × Nat × Nat × Nat) (k0 k1 : Nat) : Nat × Nat × Nat × Nat :=
  let p := 0xD2511F53 * c.1
  let q := 0xCD9E8D57 * c.2.2.1
  (((q / 2 ^ 32) ^^^ c.2.1) ^^^ k0, q % 2 ^ 32, ((p / 2 ^ 32) ^^^ c.2.2.2) ^^^ k1, p % 2 ^ 32)

def philoxLoop : Nat → Nat × Nat × Nat × Nat → Nat → Nat → Nat × Nat × Nat × Nat
  | 0, c, _, _ => c
  | n + 1, c, k0, k1 =>
    philoxLoop n (philoxRound c k0 k1) ((k0 + 0x9E3779B9) % 2 ^ 32) ((k1 + 0xBB67AE85) % 2 ^ 32)

/-- Philox4x32-10 as R80 gives it. -/
def philox (c : Nat × Nat × Nat × Nat) (k0 k1 : Nat) : Nat × Nat × Nat × Nat := philoxLoop 10 c k0 k1

/-- A rounding mode with the 24-bit word r that `.rsk` compares (R79). -/
structure RMode where
  mode : Rnd
  r : Nat
deriving DecidableEq, Repr

/-- The mode with the generator's word for a step and an element index, under the key RKEY (R79, R81). -/
def rmodeOf (m : Rnd) (rkey : DWord) (step elem : Nat) : RMode :=
  match m with
  | .rsk => ⟨m, (philox (step % 2 ^ 32, elem, 0, 0) (rkey.toNat % 2 ^ 32) (rkey.toNat / 2 ^ 32)).1 / 256⟩
  | _ => ⟨m, 0⟩

/-- Whether a magnitude q + rem/den (0 < rem < den), of a value with the given sign, is rounded up in magnitude. -/
def roundsUp (md : RMode) (neg : Bool) (q rem den : Nat) : Bool :=
  match md.mode with
  | .rne => decide (2 * rem > den) || (decide (2 * rem = den) && q % 2 == 1)
  | .rtz => false
  | .rup => !neg
  | .rdn => neg
  | .rsk =>
    -- lo and hi are taken with sign (R79)
    if neg then !decide (md.r < (den - rem) * 2 ^ 24 / den)
    else decide (md.r < rem * 2 ^ 24 / den)

/-- floor(log2(num / den)) for positive num and den. -/
def log2Q (num den : Nat) : Int :=
  let g : Int := (Nat.log2 num : Int) - (Nat.log2 den : Int)
  let (a, b) := pow2 g
  if num * b < den * a then g - 1 else g

/-- num / den in units of 2^q, rounded: the integer and whether it is exact. -/
def roundUnits (md : RMode) (neg : Bool) (num den : Nat) (q : Int) : Nat × Bool :=
  let (n, d) := scaleQ num den (-q)
  let k := n / d
  let rem := n % d
  if rem = 0 then (k, true) else (if roundsUp md neg k rem d then k + 1 else k, false)

/-- The result of an overflow: code and flags without INVALID (R77). `up`: the magnitude was rounded upwards. -/
def overflowCode (f : FFmt) (md : RMode) (sat neg up : Bool) : Nat :=
  if sat then f.maxCode
  else match md.mode with
    | .rne => f.above
    | .rtz => f.maxCode
    | .rup => if neg then f.maxCode else f.above
    | .rdn => if neg then f.above else f.maxCode
    | .rsk => if up then f.above else f.maxCode

/-- A code with its sign. The canonical NaN has none (R70). -/
def withSign (f : FFmt) (neg : Bool) (mag : Nat) : Nat :=
  if f.nan = some mag then mag else mag + (if neg then 2 ^ (f.ebits + f.mbits) else 0)

/-- The canonical NaN, or +0 with INVALID where the format has none (R76). -/
def nanCode (f : FFmt) : Nat × BitVec 6 :=
  match f.nan with
  | some c => (c, 0)
  | none => (0, flInvalid)

/-- Round(x, fmt, mode) of R76, with saturation where `sat` asks for it (R77), and the flags it sets (R85). -/
def roundFl (f : FFmt) (md : RMode) (sat : Bool) (x : Fl) : Nat × BitVec 6 :=
  match x with
  | .nan _ => nanCode f
  | .inf neg =>
    match f.inf with
    | some c => (withSign f neg c, 0)
    | none => -- under `.rsk` hi is chosen, which is the smaller magnitude of a negative value (R76, R79)
      (withSign f neg (overflowCode f md sat neg (!neg)), flInvalid)
  | .fin neg num den =>
    if num = 0 then (withSign f neg 0, 0)
    else
      let e := log2Q num den
      let emin : Int := 1 - (f.bias : Int)
      let qmin := emin - f.mbits
      let q := if e < emin then qmin else e - f.mbits
      let (k, exact) := roundUnits md neg num den q
      let code := (q - qmin).toNat * 2 ^ f.mbits + k
      if f.maxCode < code then
        let down := (roundUnits ⟨.rtz, 0⟩ neg num den q).1
        -- an x that is a multiple of the unit leaves no lo to choose (R77)
        (withSign f neg (overflowCode f md sat neg (exact || decide (down < k))), flOverflow ||| flInexact)
      else if exact then (withSign f neg code, 0)
      else
        let tinyQ := e - f.mbits
        let kt := (roundUnits md neg num den tinyQ).1
        let (a, b) := scaleQ kt 1 tinyQ
        let (ma, mb) := pow2 emin
        let tiny := decide (a * mb < ma * b)
        (withSign f neg code, if tiny then flUnderflow ||| flInexact else flInexact)

/-- Round to an integer of the range [lo, hi] (R78). -/
def roundInt (lo hi : Int) (md : RMode) (x : Fl) : Int × BitVec 6 :=
  match x with
  | .nan _ => (0, flInvalid)
  | .inf neg => (if neg then lo else hi, flInvalid)
  | .fin neg num den =>
    let (k, exact) := roundUnits md neg num den 0
    let v : Int := if neg then -(k : Int) else k
    if v < lo then (lo, flInvalid ||| flInexact)
    else if hi < v then (hi, flInvalid ||| flInexact)
    else (v, if exact then 0 else flInexact)

end Sys2Proof.Machine
end

