-- ==== Sys2Proof/Machine/Flops.lean ====
section
/-! DEFINITION. The exact results of the floating-point instructions, before rounding (spec/05_alu_instructions.md
R97-R99; spec/04_number_formats.md R70, R85). Every function gives a value for Round and the flags set so far. -/

namespace Sys2Proof.Machine
open Sys2Proof

def Fl.isNan : Fl → Bool
  | .nan _ => true
  | _ => false

def Fl.isSig : Fl → Bool
  | .nan s => s
  | _ => false

def Fl.negative : Fl → Bool
  | .nan _ => false
  | .inf n => n
  | .fin n _ _ => n

def Fl.isZero : Fl → Bool
  | .fin _ num _ => num == 0
  | _ => false

def Fl.neg : Fl → Fl
  | .nan s => .nan s
  | .inf n => .inf !n
  | .fin n a b => .fin (!n) a b

def Fl.abs : Fl → Fl
  | .nan s => .nan s
  | .inf _ => .inf false
  | .fin _ a b => .fin false a b

/-- INVALID when an operand is a signalling NaN (R70). -/
def sigFlag (xs : List Fl) : BitVec 6 := if xs.any Fl.isSig then flInvalid else 0

def qnan : Fl := .nan false

/-- The signed numerator of a finite value over a denominator. -/
def sgnNum (neg : Bool) (num : Nat) : Int := if neg then -(num : Int) else num

/-- An integer over a positive denominator as a value; an exact zero sum takes its sign from the mode (R70). -/
def ofSum (md : Rnd) (n : Int) (den : Nat) : Fl :=
  if n = 0 then .fin (md == .rdn) 0 1 else .fin (decide (n < 0)) n.natAbs den

/-- The exact sum of two values (IEEE 754-2019 §6.3 for zeros). -/
def flAdd (md : Rnd) (x y : Fl) : Fl × BitVec 6 :=
  match x, y with
  | .nan _, _ => (qnan, sigFlag [x, y])
  | _, .nan _ => (qnan, sigFlag [x, y])
  | .inf a, .inf b => if a = b then (.inf a, 0) else (qnan, flInvalid)
  | .inf a, _ => (.inf a, 0)
  | _, .inf b => (.inf b, 0)
  | .fin a n d, .fin b m e =>
    if n = 0 ∧ m = 0 then (.fin (if a = b then a else md == .rdn) 0 1, 0)
    else (ofSum md (sgnNum a n * e + sgnNum b m * d) (d * e), 0)

def flMul (x y : Fl) : Fl × BitVec 6 :=
  match x, y with
  | .nan _, _ => (qnan, sigFlag [x, y])
  | _, .nan _ => (qnan, sigFlag [x, y])
  | .inf a, .inf b => (.inf (a != b), 0)
  | .inf a, .fin b m _ => if m = 0 then (qnan, flInvalid) else (.inf (a != b), 0)
  | .fin a n _, .inf b => if n = 0 then (qnan, flInvalid) else (.inf (a != b), 0)
  | .fin a n d, .fin b m e => (.fin (a != b) (n * m) (d * e), 0)

/-- a × b + c formed exactly. -/
def flFma (md : Rnd) (x y z : Fl) : Fl × BitVec 6 :=
  let (p, fl) := flMul x y
  if z.isNan then
    -- 0 × ∞ + quiet NaN: INVALID is the implementation's choice (Config.fmaNanInvalid)
    let own := if fl = flInvalid ∧ sigFlag [x, y] = 0 ∧ !Config.fmaNanInvalid then 0 else fl
    (qnan, own ||| sigFlag [z])
  else
    let (r, fl2) := flAdd md p z
    (r, fl ||| fl2)

/-- The order of two values that are not NaN, −0 below +0 where `signedZero`. -/
def flLt (signedZero : Bool) (x y : Fl) : Bool :=
  match x, y with
  | .nan _, _ => false
  | _, .nan _ => false
  | .inf a, .inf b => a && !b
  | .inf a, _ => a
  | _, .inf b => !b
  | .fin a n d, .fin b m e =>
    if n = 0 ∧ m = 0 then signedZero && a && !b
    else decide (sgnNum a n * e < sgnNum b m * d)

def flEq (x y : Fl) : Bool := !x.isNan && !y.isNan && !flLt false x y && !flLt false y x

/-- minimumNumber or maximumNumber of IEEE 754-2019 (R97). -/
def flMinMax (isMax : Bool) (x y : Fl) : Fl × BitVec 6 :=
  let fl := sigFlag [x, y]
  if x.isNan then (if y.isNan then qnan else y, fl)
  else if y.isNan then (x, fl)
  else if flLt true y x then (if isMax then x else y, fl)
  else (if isMax then y else x, fl)

/-- FCMP's condition and INVALID (R98). -/
def flCmp (cc : CC) (x y : Fl) : Bool × BitVec 6 :=
  let un := x.isNan || y.isNan
  let loud := match cc with
    | .lt | .le | .gt | .ge => true
    | _ => false
  let fl := if (loud && un) || x.isSig || y.isSig then flInvalid else 0
  (match cc with
    | .eq => !un && flEq x y
    | .ne => un || !flEq x y
    | .lt => !un && flLt false x y
    | .le => !un && !flLt false y x
    | .gt => !un && flLt false y x
    | .ge => !un && !flLt false x y
    | .un => un
    | .or => !un, fl)

def flDiv (x y : Fl) : Fl × BitVec 6 :=
  match x, y with
  | .nan _, _ => (qnan, sigFlag [x, y])
  | _, .nan _ => (qnan, sigFlag [x, y])
  | .inf _, .inf _ => (qnan, flInvalid)
  | .inf a, .fin b _ _ => (.inf (a != b), 0)
  | .fin a _ _, .inf b => (.fin (a != b) 0 1, 0)
  | .fin a n d, .fin b m e =>
    if m = 0 then (if n = 0 then (qnan, flInvalid) else (.inf (a != b), flDivzero))
    else (.fin (a != b) (n * e) (d * m), 0)

/-! ## Roots -/

/-- Newton's descent for the integer square root, from above. -/
def isqrtGo (n : Nat) : Nat → Nat → Nat
  | 0, x => x
  | k + 1, x =>
    let y := (x + n / x) / 2
    if y < x then isqrtGo n k y else x

/-- The integer square root. -/
def isqrt (n : Nat) : Nat := if n = 0 then 0 else isqrtGo n (Nat.log2 n + 2) (2 ^ (Nat.log2 n / 2 + 1))

/-- √(num / den) for Round: exact where it is rational with the working precision, else a value strictly between
the same neighbours (guard of at least 64 bits beyond the widest significand and the 24 bits of R79). -/
def sqrtQ (num den : Nat) : Nat × Nat :=
  -- num / den = 4^k · y with y near 2^256
  let k : Int := (log2Q num den) / 2 - 128
  let (n, d) := scaleQ num den (-(2 * k))
  let t := n / d
  let s := isqrt t
  if s * s = t ∧ n % d = 0 then scaleQ s 1 k else scaleQ (2 * s + 1) 2 k

def flSqrt (x : Fl) : Fl × BitVec 6 :=
  match x with
  | .nan s => (qnan, if s then flInvalid else 0)
  | .inf neg => if neg then (qnan, flInvalid) else (x, 0)
  | .fin neg n d =>
    if n = 0 then (x, 0)
    else if neg then (qnan, flInvalid)
    else let (a, b) := sqrtQ n d; (.fin false a b, 0)

def flRcp (x : Fl) : Fl × BitVec 6 := flDiv (.fin false 1 1) x

def flRsq (x : Fl) : Fl × BitVec 6 :=
  match x with
  | .nan s => (qnan, if s then flInvalid else 0)
  | .inf neg => if neg then (qnan, flInvalid) else (.fin false 0 1, 0)
  | .fin neg n d =>
    if n = 0 then (.inf neg, flDivzero)
    else if neg then (qnan, flInvalid)
    else let (a, b) := sqrtQ d n; (.fin false a b, 0)

/-! ## Exponential, logarithm and hyperbolic tangent
Each is rational only at the values named exactly; elsewhere the value is irrational, so it lies strictly between two
neighbours. It is enclosed between two rationals and the precision grows until both round alike, in result, flags and
the fraction f of R79. -/

/-- Terms of exp(y) in units of 2^-n, truncated: the sum from term i on, `t` the current term. -/
def expTerms (y n : Nat) : Nat → Nat → Nat → Nat
  | 0, _, _ => 0
  | k + 1, i, t => t + expTerms y n k (i + 1) (t * y / (i * 2 ^ n))

/-- ln 2 in units of 2^-n from below, by the series of 1/(k 2^k); the error is below `n + 2` units. -/
def ln2Terms (n : Nat) : Nat → Nat → Nat
  | 0, _ => 0
  | k + 1, i => 2 ^ n / (i * 2 ^ i) + ln2Terms n k (i + 1)

def ln2Lo (n : Nat) : Nat := ln2Terms n n 1

/-- exp(y) for y = a / 2^n in [0, 1], enclosed in units of 2^-n. -/
def expEncl (a n : Nat) : Nat × Nat :=
  let terms := n / 2 + 8
  let s := expTerms a n terms 1 (2 ^ n)
  (s, s + 2 * terms + 4)

/-- 2^f for f = num / den in [0, 1), enclosed in units of 2^-n. -/
def exp2Encl (num den n : Nat) : Nat × Nat :=
  let l := ln2Lo n
  let ylo := num * l / den
  let yhi := num * (l + n + 2) / den + 1
  ((expEncl ylo n).1, (expEncl yhi n).2)

/-- 2 atanh(z) for z = a / 2^n in [0, 1/3], in units of 2^-n from below: Σ 2 z^(2i+1) / (2i+1). -/
def atanhTerms (zz n : Nat) : Nat → Nat → Nat → Nat
  | 0, _, _ => 0
  | k + 1, i, t => 2 * t / i + atanhTerms zz n k (i + 2) (t * zz / 2 ^ n)

/-- ln m for m = num / den in [1, 2), enclosed in units of 2^-n. -/
def lnEncl (num den n : Nat) : Nat × Nat :=
  let z := (num - den) * 2 ^ n / (num + den)
  let terms := n / 2 + 8
  let lo := atanhTerms (z * z / 2 ^ n) n terms 1 z
  let z' := z + 1
  let hi := atanhTerms (z' * z' / 2 ^ n + 1) n terms 1 z' + 3 * terms + 4
  (lo, hi)

/-- Rounds a magnitude enclosed in (lo, hi) units of 2^-n times 2^e, when both ends round alike. -/
def roundEncl (f : FFmt) (md : RMode) (sat neg : Bool) (lo hi n : Nat) (e : Int) : Option (Nat × BitVec 6) :=
  let (a, b) := scaleQ lo (2 ^ n) e
  let (c, d) := scaleQ hi (2 ^ n) e
  -- both ends are moved off the grid, where the irrational value cannot be
  let x := roundFl f md sat (.fin neg (4 * a * 2 ^ 40 + 1) (4 * b * 2 ^ 40))
  let y := roundFl f md sat (.fin neg (4 * c * 2 ^ 40 - 1) (4 * d * 2 ^ 40))
  if x = y then some x else none

/-- The first precision of the list at which both ends round alike; the last one's lower end otherwise. -/
def zivLoop (enc : Nat → Nat × Nat) (f : FFmt) (md : RMode) (sat neg : Bool) (e : Int) :
    List Nat → Nat × BitVec 6
  | [] => roundFl f md sat (.fin neg (scaleQ (2 * (enc 640).1 + 1) (2 ^ 641) e).1 (scaleQ (2 * (enc 640).1 + 1) (2 ^ 641) e).2)
  | n :: t =>
    match roundEncl f md sat neg (enc n).1 (enc n).2 n e with
    | some r => r
    | none => zivLoop enc f md sat neg e t

def zivPrecisions : List Nat := [160, 320, 640]

/-- 2^x rounded (R97). -/
def roundEx2 (f : FFmt) (md : RMode) (sat : Bool) (x : Fl) : Nat × BitVec 6 :=
  match x with
  | .nan s => ((nanCode f).1, if s then flInvalid else 0)
  | .inf neg => if neg then (0, 0) else roundFl f md sat (.inf false)
  | .fin neg n d =>
    if n = 0 then roundFl f md sat (.fin false 1 1)
    else
      let v : Int := (sgnNum neg n) / d
      let r : Nat := ((sgnNum neg n) % d).toNat
      let e : Int := clampInt (-1000) 1000 v
      if r = 0 then let (a, b) := pow2 e; roundFl f md sat (.fin false a b)
      else if n * 2 ^ 60 < d then
        -- |x| below 2^-60: strictly between 1 and its neighbour, nearer to 1 than R79's fraction can tell
        if neg then roundFl f md sat (.fin false (2 ^ 61 - 1) (2 ^ 61))
        else roundFl f md sat (.fin false (2 ^ 61 + 1) (2 ^ 61))
      else zivLoop (fun k => exp2Encl r d k) f md sat false e zivPrecisions

/-- log₂ x rounded (R97). -/
def roundLg2 (f : FFmt) (md : RMode) (sat : Bool) (x : Fl) : Nat × BitVec 6 :=
  match x with
  | .nan s => ((nanCode f).1, if s then flInvalid else 0)
  | .inf neg => if neg then ((nanCode f).1, flInvalid) else roundFl f md sat (.inf false)
  | .fin neg n d =>
    if n = 0 then let r := roundFl f md sat (.inf true); (r.1, r.2 ||| flDivzero)
    else if neg then ((nanCode f).1, flInvalid)
    else
      let e := log2Q n d
      let (a, b) := scaleQ n d (-e)
      if a = b then roundFl f md sat (.fin (decide (e < 0)) e.natAbs 1)
      else
        -- log2 x = e + ln m / ln 2 with m in (1, 2)
        let enc := fun k =>
          let (lo, hi) := lnEncl a b k
          let l := ln2Lo k
          let qlo := lo * 2 ^ k / (l + k + 2)
          let qhi := hi * 2 ^ k / l + 1
          if e < 0 then (e.natAbs * 2 ^ k - qhi, e.natAbs * 2 ^ k - qlo)
          else (e.natAbs * 2 ^ k + qlo, e.natAbs * 2 ^ k + qhi)
        zivLoop enc f md sat (decide (e < 0)) 0 zivPrecisions

/-- tanh x rounded (R97). -/
def roundTanh (f : FFmt) (md : RMode) (sat : Bool) (x : Fl) : Nat × BitVec 6 :=
  match x with
  | .nan s => ((nanCode f).1, if s then flInvalid else 0)
  | .inf neg => roundFl f md sat (.fin neg 1 1)
  | .fin neg n d =>
    if n = 0 then roundFl f md sat x
    else if n * 2 ^ 30 < d then
      -- tanh x = x (1 - δ) with 0 < δ < 2^-60
      roundFl f md sat (.fin neg (n * (2 ^ 62 - 1)) (d * 2 ^ 62))
    else if 36 * d < n then
      -- 1 - tanh x is positive and below 2^-100
      roundFl f md sat (.fin neg (2 ^ 101 - 1) (2 ^ 101))
    else
      -- e^(2x) = 2^j e^g with j = floor(2x / ln 2); tanh x = (E - 1) / (E + 1)
      let enc := fun k =>
        let l := ln2Lo k
        let y := 2 * n * 2 ^ k / d
        let j := y / (l + k + 2)
        let glo := y - j * (l + k + 2)
        let ghi := y + 1 - j * l
        let elo := (expEncl glo k).1 * 2 ^ j
        let ehi := (expEncl ghi k).2 * 2 ^ j
        ((elo - 2 ^ k) * 2 ^ k / (elo + 2 ^ k), (ehi - 2 ^ k) * 2 ^ k / (ehi + 2 ^ k) + 1)
      zivLoop enc f md sat neg 0 zivPrecisions

/-! ## FRND, FCLASS and FSCALE -/

/-- FRND: the integer neighbour chosen by the mode; INEXACT is not set (R97). -/
def flRound (md : RMode) (x : Fl) : Fl × BitVec 6 :=
  match x with
  | .nan s => (qnan, if s then flInvalid else 0)
  | .inf _ => (x, 0)
  | .fin neg n d => (.fin neg (roundUnits md neg n d 0).1 1, 0)

/-- FCLASS's one-hot code (R99). -/
def flClass (f : FFmt) (c : Nat) : Nat :=
  match decodeFl f c with
  | .nan s => if s then 2 ^ 8 else 2 ^ 9
  | .inf neg => if neg then 2 ^ 0 else 2 ^ 7
  | .fin neg n _ =>
    if n = 0 then (if neg then 2 ^ 3 else 2 ^ 4)
    else
      let sub := decide (c % 2 ^ (f.ebits + f.mbits) < 2 ^ f.mbits)
      if neg then (if sub then 2 ^ 2 else 2 ^ 1) else (if sub then 2 ^ 5 else 2 ^ 6)

/-- a × 2^b exactly; beyond ±2,000 every finite value rounds as at ±2,000. -/
def flScale (x : Fl) (b : Int) : Fl × BitVec 6 :=
  match x with
  | .nan s => (qnan, if s then flInvalid else 0)
  | .inf _ => (x, 0)
  | .fin neg n d =>
    let (a, c) := scaleQ n d (clampInt (-2000) 2000 b)
    (.fin neg a c, 0)

end Sys2Proof.Machine
end

