-- ==== Sys2Proof/Machine/Ops.lean ====
section
/-! DEFINITION. The named operations over memory, registers and agents: the only ways in which they are read and
written; translation (spec/16_isolation.md R307-R312); taking a trap and returning from one (spec/17_traps.md
R321-R329). -/

namespace Sys2Proof.Machine
open Sys2Proof

/-! ## Memory -/

/-- What an address that memory does not list reads as (log 2). -/
def unlistedByte : Byte := 0

def memGet (m : Memory) (a : Nat) : Byte := (tabGet m a).getD unlistedByte

def memSet (m : Memory) (a : Nat) (b : Byte) : Memory :=
  if b = unlistedByte then tabDel m a else tabPut m a b

/-- `n` bytes from `a` up (R8). -/
def memRead (m : Memory) (a : Nat) : Nat → List Byte
  | 0 => []
  | n + 1 => memGet m a :: memRead m (a + 1) n

def memWrite (m : Memory) (a : Nat) : List Byte → Memory
  | [] => m
  | b :: t => memWrite (memSet m a b) (a + 1) t

/-- Keys strictly rise from above `lo`. -/
def risingFrom (lo : Option Nat) : Memory → Bool
  | [] => true
  | (k, _) :: t => (match lo with | none => true | some l => decide (l < k)) && risingFrom (some k) t

/-- The canonical form: addresses strictly rising and no entry equal to what an unlisted address reads as. -/
def Memory.wf (m : Memory) : Bool := risingFrom none m && m.all fun c => c.2 != unlistedByte

/-! ## The physical map (R162, R163) -/

inductive PaKind where
  | sram (die tile off : Nat)
  | lpddr (off : Nat)
  | backing
  | devreg
  | remote (dev off : Nat)
  | absent
deriving DecidableEq, Repr

def paKind (pa : Nat) : PaKind :=
  if bitAt pa 51 then .remote (bitsAt pa 50 44) (bitsAt pa 43 0)
  else match bitsAt pa 51 48 with
    | 0 => if bitsAt pa 47 38 = 0 ∧ bitsAt pa 29 0 < 48 * 2 ^ 20 then
        .sram (bitsAt pa 37 37) (bitsAt pa 36 30) (bitsAt pa 29 0) else .absent
    | 1 => if bitsAt pa 47 40 = 0 then .lpddr (bitsAt pa 39 0) else .absent
    | 2 => .backing
    | 3 => .devreg
    | _ => .absent

/-- Core number (128 × die + tile, R238) of the slice that is home to a physical address. -/
def homeCore (pa : Nat) : Option Nat :=
  match paKind pa with
  | .sram d t _ => some (128 * d + t)
  | _ => none

/-- First physical address of a core's slice. -/
def sliceBase (core : Nat) : Nat := (core / 128) * 2 ^ 37 + (core % 128) * 2 ^ 30

/-- Physical address of granule `g` of a core's scratchpad pool. The pool stands at the start of the slice
(DESIGN CHOICE, log 7). -/
def granulePa (core g : Nat) : Nat := sliceBase core + 4096 * g

/-! ## Access to the tables of the state -/

def getAgent (s : State) (a : Nat) : Option Agent := tabGet s.agents a
def setAgent (s : State) (a : Nat) (g : Agent) : State := { s with agents := tabPut s.agents a g }
def getStroke (s : State) (k : Nat) : Option Stroke := tabGet s.strokes k
def setStroke (s : State) (k : Nat) (g : Stroke) : State := { s with strokes := tabPut s.strokes k g }
def getPanel (s : State) (k : Nat) : Option Panel := tabGet s.panels k
def setPanel (s : State) (k : Nat) (g : Panel) : State := { s with panels := tabPut s.panels k g }
def getCore (s : State) (k : Nat) : Core := (tabGet s.cores k).getD {}
def setCore (s : State) (k : Nat) (g : Core) : State := { s with cores := tabPut s.cores k g }
def getCtx (s : State) (k : Nat) : Option Ctx := tabGet s.ctxs k
def setCtx (s : State) (k : Nat) (g : Ctx) : State := { s with ctxs := tabPut s.ctxs k g }
def getComm (s : State) (k : Nat) : Option Comm := tabGet s.comms k
def setComm (s : State) (k : Nat) (g : Comm) : State := { s with comms := tabPut s.comms k g }
def report (s : State) (e : Event) : State := { s with events := s.events ++ [e] }

/-- Device time in nanoseconds: what the last source set, run on by the local oscillator at 1,050 cycles in 1,000 ns
(R48, R250). -/
def deviceTime (s : State) : Nat := s.juran.ptpBase + (s.cycle - s.juran.ptpCycle) * 1000 / 1050

/-- An acquire at a scope wider than `.pnl` empties the near cache and the recent table of the core (R165). -/
def acquireInvalidate (s : State) (core : Nat) : State :=
  setCore s core { getCore s core with near := [], recent := [] }

/-! ## Translation (R307-R311) -/

/-- Bytes of the ECC word that holds a physical address (R346). -/
def eccBytes (pa : Nat) : Nat :=
  match paKind pa with
  | .lpddr _ => 64
  | _ => 32

/-- Why an address gives no access: the cause, and TAUX (R309, R323); for a DATAERR, met in a table entry, the address of
the word (R347). -/
abbrev AddrFault := Cause × DWord

/-- Rank of an address cause (R322). -/
def causeRank : Cause → Nat
  | .align => 0
  | .bounds => 1
  | .xlate => 2
  | .perm => 3
  | _ => 4

/-- Index of a virtual address at a level (R307). -/
def vaIndex (va lvl : Nat) : Nat := bitsAt va (56 - 9 * lvl) (48 - 9 * lvl)

def xlate (lvl : Nat) (malformed grant : Bool) : AddrFault :=
  (.xlate, BitVec.ofNat 64 (lvl + (if malformed then 8 else 0) + (if grant then 16 else 0)))

/-- One table entry: its reserved bits are [63:52] and [11:10] (R309). -/
def pteReserved (e : Nat) : Bool := bitsAt e 63 52 != 0 || bitsAt e 11 10 != 0

/-- The walk of R309 from level `lvl` at table `tbl`; `bad`: the words that hold an uncorrectable error; `fuel` is the
number of levels left; `tenant`: the table is a tenant table (R311). -/
def walk (m : Memory) (bad : List Nat) (va : Nat) : Nat → Nat → Nat → Bool → Except AddrFault TlbEntry
  | 0, lvl, _, _ => .error (xlate lvl true false)
  | fuel + 1, lvl, tbl, tenant =>
    let ea := tbl + 8 * vaIndex va lvl
    let e := ofBytes (memRead m ea 8)
    if bad.contains (alignDown ea (eccBytes ea)) then .error (.dataerr, BitVec.ofNat 64 (alignDown ea (eccBytes ea)))
    else if !bitAt e 0 then .error (xlate lvl false false)
    else if !bitAt e 1 then
      if lvl = 4 ∨ pteReserved e ∨ bitsAt e 8 2 ≠ 0 ∨ (tenant ∧ bitAt e 9) then .error (xlate lvl true false)
      else walk m bad va fuel (lvl + 1) (bitsAt e 51 12 * 4096) (tenant || bitAt e 9)
    else if lvl = 0 ∨ (bitAt e 8 ∧ lvl = 1) ∨ bitAt e 9 ∨ pteReserved e then .error (xlate lvl true false)
    else
      let size := 2 ^ (12 + 9 * (4 - lvl)) * (if bitAt e 8 then 16 else 1)
      let part := if bitAt e 8 then size / 16 else size
      let j := if bitAt e 8 then vaIndex va lvl % 16 else 0
      let pa := bitsAt e 51 12 * 4096
      if pa < j * part then .error (xlate lvl true false)
      else
        let base := pa - j * part
        if pa % part ≠ 0 ∨ base % size ≠ 0 then .error (xlate lvl true false)
        else .ok { va := alignDown va size, size := size, pa := base, r := bitAt e 2, w := bitAt e 3,
                   x := bitAt e 4, e := bitAt e 5, p := bitAt e 6, g := bitAt e 7 }

/-- The panel of the context whose scratchpad slot holds `va` (R308). -/
def scratchPanel (s : State) (ctx va : Nat) : Option (Nat × Panel) :=
  tabFind (fun _ p => p.ctx == ctx && p.mapped && decide (p.slotVA ≤ va) && decide (va < p.slotVA + p.slotBytes)) s.panels

/-- Physical address of byte `off` of a panel's scratchpad. -/
def scratchPa (p : Panel) (off : Nat) : Nat := granulePa p.core ((p.granules[off / 4096]?).getD 0) + off % 4096

/-- The level of the leaf that maps a page of `size` bytes, with or without SPAN (R309). -/
def leafLevel (size : Nat) : Nat := 4 - (Nat.log2 size - 12) / 9

/-- The translation of a virtual address in a context: a cached one where the context holds one (R312), else by the
allocation map (R308) or the walk (R309) and the grants (R311). -/
def translate (s : State) (ctx va : Nat) : Except AddrFault TlbEntry :=
  if 2 ^ 57 ≤ va then .error (xlate 0 false false)
  else if 2 ^ 56 ≤ va then
    match scratchPanel s ctx va with
    | some (_, p) =>
      let off := alignDown (va - p.slotVA) 4096
      .ok { va := p.slotVA + off, size := 4096, pa := scratchPa p off, r := true, w := true, x := false, e := true,
            p := false, g := false }
    | none => .error (xlate 0 false false)
  else match getCtx s ctx with
    | none => .error (xlate 0 false false)
    | some c =>
      match c.tlb.find? (fun t => decide (t.va ≤ va) && decide (va < t.va + t.size)) with
      | some t => .ok t
      | none =>
        match walk s.mem s.badWords va 5 0 c.params.ptroot false with
        | .error e => .error e
        | .ok t =>
          if bitAt t.pa 51 || (c.params.grants ++ c.extraGrants).any (fun g => decide (g.base ≤ t.pa) && decide (t.pa + t.size ≤ g.base + g.size)) then .ok t
          else .error (xlate (leafLevel t.size) false true)

/-- The rights an access requires (R310). -/
inductive Need where
  | r | w | rw | x | we | pub
deriving DecidableEq, Repr

def hasRight (n : Need) (t : TlbEntry) : Bool :=
  match n with
  | .r => t.r
  | .w => t.w
  | .rw => t.r && t.w
  | .x => t.x
  | .we => t.w && t.e
  | .pub => t.p && t.r && t.w

/-- The physical address of one byte for an access, with its page (R309-R311, R162, R163). A page that exists but
lacks the right is PERM. The windows of device registers and reserved regions are XLATE (R162). -/
def accessByte (s : State) (ctx va : Nat) (n : Need) : Except AddrFault (Nat × TlbEntry) :=
  match translate s ctx va with
  | .error e => .error e
  | .ok t =>
    let pa := t.pa + (va - t.va)
    match paKind pa with
    | .absent => .error (xlate (leafLevel t.size) false false)
    | .devreg => .error (xlate (leafLevel t.size) false false)
    | _ => if hasRight n t then .ok (pa, t) else .error (.perm, 0)

/-- Of two faults of one access, the earlier page's first, the one that ranks first (R322). -/
def firstFault (a b : AddrFault) : AddrFault := if causeRank b.1 < causeRank a.1 then b else a

/-- The pieces of an access of `n` bytes: each stays within one 4 KiB frame. Every page is checked. `fuel` bounds the
number of frames. -/
def accessSegs (s : State) (ctx : Nat) (nd : Need) : Nat → Nat → Nat → Except AddrFault (List (Nat × Nat))
  | 0, _, _ => .ok []
  | fuel + 1, va, n =>
    if n = 0 then .ok []
    else
      let k := min n (4096 - va % 4096)
      match accessByte s ctx va nd, accessSegs s ctx nd fuel (va + k) (n - k) with
      | .ok (pa, _), .ok t => .ok ((pa, k) :: t)
      | .ok _, .error e => .error e
      | .error e, .ok _ => .error e
      | .error e, .error f => .error (firstFault e f)

def segsFor (s : State) (ctx : Nat) (nd : Need) (va n : Nat) : Except AddrFault (List (Nat × Nat)) :=
  accessSegs s ctx nd (n / 4096 + 2) va n

/-- Bytes of a list of pieces. -/
def readSegs (m : Memory) (segs : List (Nat × Nat)) : List Byte := (segs.map fun p => memRead m p.1 p.2).flatten

def writeSegs (m : Memory) : List (Nat × Nat) → List Byte → Memory
  | [], _ => m
  | (pa, n) :: t, bs => writeSegs (memWrite m pa (bs.take n)) t (bs.drop n)

/-- The first ECC word under the pieces that holds an uncorrectable error (R347). -/
def segsBad (s : State) (segs : List (Nat × Nat)) : Option Nat :=
  s.badWords.find? fun w => segs.any fun p => decide (p.1 < w + eccBytes w) && decide (w < p.1 + p.2)

/-! ## Where pieces are served (R215, R216) -/

/-- Whether pieces are named as remote: on another device, or on this one through its own windows (R215). -/
def remoteNamed (segs : List (Nat × Nat)) : Bool := segs.any fun g => bitAt g.1 51

/-- TAUX[16] of a fault that came from a remote window (R216). -/
def remoteAux (segs : List (Nat × Nat)) : DWord := if remoteNamed segs then 0x10000 else 0

inductive Reach where
  | here (segs : List (Nat × Nat))
  | away
  | refused
deriving DecidableEq, Repr

/-- The local address of an offset in this device's exported window for a context (R215). -/
def windowPa (s : State) (ctx off : Nat) (wr : Bool) : Option Nat :=
  (getCtx s ctx).bind fun c =>
    (c.windows.find? fun w => decide (w.obase ≤ off) && decide (off < w.obase + w.osize) && (if wr then w.w else w.r)).map
      fun w => w.lbase + (off - w.obase)

/-- How pieces of a context's access are reached: through this device's own windows where they name it. -/
def reachOf (s : State) (ctx : Nat) (wr : Bool) : List (Nat × Nat) → Reach
  | [] => .here []
  | (pa, n) :: t =>
    match reachOf s ctx wr t with
    | .away => .away
    | .refused => .refused
    | .here g =>
      match paKind pa with
      | .remote d off =>
        if d = s.juran.dev then
          match windowPa s ctx off wr with
          | some l => .here ((l, n) :: g)
          | none => .refused
        else .away
      | _ => .here ((pa, n) :: g)

/-! ## Register access -/

/-- s n, with s63 reading as 0 (R14). -/
def sReg (a : Agent) (n : Nat) : DWord := if n = 63 then 0 else (tabGet a.s n).getD 0

/-- Writes s n; a write to s63 is discarded (R14). -/
def setSReg (a : Agent) (n : Nat) (x : DWord) : Agent :=
  if n = 63 then a else { a with s := tabPut a.s n x, badS := a.badS.filter fun b => b != n }

/-- A mask register, whose bits from W up read as 0 (R14, R88). -/
def kReg (a : Agent) (n : Nat) : Mask := (tabGet a.k n).getD 0

def setKReg (a : Agent) (n : Nat) (m : Mask) : Agent := { a with k := tabPut a.k n m }

/-- Whether the group that runs is the one a real split leaves in the issuing agent: the first of a BRX, the last of a
SPLIT, its remainder (R268, R273). -/
def parentGroup (f : SerialFrame) : Bool := if f.brx then f.idx == 0 else f.idx + 1 == f.groups.length

/-- The lane set that bounds `em`: the agent's L, and in a group that a real split would detach, the group's lanes, which
are that fragment's L (R258, R269). -/
def laneSet (a : Agent) : Mask :=
  match a.frames.find? fun f => !parentGroup f with
  | some f => a.lset &&& ((f.groups[f.idx]?).getD (0, 0)).1
  | none => a.lset

/-- Writes `em`: any write is ANDed with the agent's lane set (R258). -/
def setEm (a : Agent) (m : Mask) : Agent := { a with em := m &&& laneSet a }

def maskReg (a : Agent) : KReg → Mask
  | .k n => kReg a n
  | .em => a.em

/-- The lanes that KM selects (R15, R262). -/
def activeMask (a : Agent) (km : Nat) : Mask :=
  if km = 0 then a.em
  else if a.meld && decide (12 ≤ km) then
    let lo := if km % 2 = 1 then a.pathLo else ~~~a.pathLo
    let hi := if 14 ≤ km then a.pathHi else ~~~a.pathHi
    a.em &&& lo &&& hi
  else a.em &&& kReg a km

/-- Path of a lane in a meld region (R259). -/
def pathOf (a : Agent) (lane : Nat) : Nat :=
  (if a.pathLo.getLsbD lane then 1 else 0) + (if a.pathHi.getLsbD lane then 2 else 0)

/-- The register that entry j of the path table gives for a path (R261). -/
def meldName (a : Agent) (j path : Nat) : Nat := (((tabGet a.ptab j).getD [])[path]?).getD 0

/-- The name that operand number n gives to a lane: itself, or through the path table inside a meld region (R14). -/
def laneName (a : Agent) (n lane : Nat) : Nat :=
  if a.meld && decide (0xB0 ≤ n) then meldName a (n - 0xB0) (pathOf a lane) else n

/-- Lane `lane` of a vector name. -/
def vLane (st : Stroke) (n lane : Nat) : Word := (((tabGet st.vregs n).getD [])[lane]?).getD 0

def isLive (a : Agent) (n : Nat) : Bool := a.live.getLsbD n

/-- Agents of a stroke. -/
def strokeAgents (s : State) (st : Nat) : List (Nat × Agent) := s.agents.filter fun p => p.2.stroke == st && !p.2.primer

/-- The views of the groups of an agent's serial frames that have finished or are still to run, which a real split
would keep beside its own (R267, R269). -/
def frameViews (a : Agent) : BitVec 192 :=
  a.frames.foldl (fun m f => m ||| f.liveAcc ||| (if f.idx + 1 < f.groups.length then f.live else 0)) 0

/-- Names live in any view of the stroke (R267). -/
def strokeLive (s : State) (st : Nat) : BitVec 192 :=
  (strokeAgents s st).foldl (fun m p => m ||| p.2.live ||| frameViews p.2) 0

/-- The program order that an agent's accesses belong to (R195, R199). -/
def orderOf (aid : Nat) (a : Agent) : Nat := a.porder.getD aid

def count192 (m : BitVec 192) : Nat := ((List.range 192).filter fun i => m.getLsbD i).length

def bit192 (n : Nat) : BitVec 192 := BitVec.ofNat 192 (2 ^ n)
def set192 (ns : List Nat) : BitVec 192 := ns.foldl (fun m n => m ||| bit192 n) 0

/-- Merges values into a register's W lanes where the mask is set; the other lanes keep their values. -/
def mergeLanes (w : Nat) (old : List Word) (m : Mask) (vals : List Word) : List Word :=
  (List.range w).map fun i => if m.getLsbD i then (vals[i]?).getD 0 else (old[i]?).getD 0

/-- One write to a vector name by an agent: a name dead in every view is allocated with its inactive lanes 0
(R17, R267). -/
def writeV (s : State) (aid : Nat) (w : VWrite) : State :=
  match getAgent s aid with
  | none => s
  | some a =>
    match getStroke s a.stroke with
    | none => s
    | some st =>
      let old := if (strokeLive s a.stroke).getLsbD w.name then (tabGet st.vregs w.name).getD [] else []
      let live := (strokeLive s a.stroke).getLsbD w.name
      let s1 := setStroke s a.stroke { st with
        vregs := tabPut st.vregs w.name (mergeLanes st.width old w.lanes w.vals)
        badV := st.badV.filter fun e => !(e.1 == w.name && (!live || w.lanes.getLsbD e.2)) }
      setAgent s1 aid { a with live := a.live ||| bit192 w.name }

/-- Makes names dead in the agent's view (R17, R267). -/
def freeNames (s : State) (aid : Nat) (ns : List Nat) : State :=
  match getAgent s aid with
  | none => s
  | some a => setAgent s aid { a with live := a.live &&& ~~~(set192 ns) }

/-- Mask write: bits of `m` where `lanes` is set (R88). k 16 stands for `em`. -/
def writeK (a : Agent) (n : Nat) (lanes m : Mask) : Agent :=
  if n = 16 then setEm a ((a.em &&& ~~~lanes) ||| (m &&& lanes))
  else setKReg a n ((kReg a n &&& ~~~lanes) ||| (m &&& lanes))

/-- A write of a whole mask register, its W bits, replaces an entry with an uncorrectable error (R346; log 60). -/
def mendK (whole : Mask) (a : Agent) (n : Nat) (lanes : Mask) : Agent :=
  if lanes &&& whole = whole then { a with badK := a.badK.filter fun b => b != n } else a

def kIndex : KReg → Nat
  | .k n => n
  | .em => 16

def setFlags (s : State) (st : Nat) (fl : BitVec 6) : State :=
  match getStroke s st with
  | none => s
  | some k => setStroke s st { k with fpst := k.fpst ||| fl }

/-- A stroke's reading of device time is kept (R48). -/
def readPtp (s : State) (st : Nat) (t : Option DWord) : State :=
  match t, getStroke s st with
  | some v, some k => setStroke s st { k with ptp := v }
  | _, _ => s

/-- Everything an instruction writes, applied at once (R10, R20). -/
def applyWrites (s : State) (aid : Nat) (w : Writes) : State :=
  let s1 := w.v.foldl (fun t x => writeV t aid x) s
  match getAgent s1 aid with
  | none => s1
  | some a =>
    let a1 := w.s.foldl (fun g x => setSReg g x.1 x.2) a
    let whole := lanesBelow (((getStroke s1 a.stroke).map (·.width)).getD 128)
    let a2 := w.k.foldl (fun g x => mendK whole (writeK g x.1 x.2.1 x.2.2) x.1 x.2.1) a1
    let s2 := setAgent s1 aid a2
    let s3 := readPtp (if w.fl = 0 then s2 else setFlags s2 a.stroke w.fl) a.stroke w.ptp
    match w.push with
    | none => s3
    | some (c, e) =>
      match getStroke s3 a.stroke with
      | none => s3
      | some st =>
        match getPanel s3 st.panel with
        | none => s3
        | some p =>
          match tabGet p.chans c with
          | none => s3
          | some ch => setPanel s3 st.panel { p with chans := tabPut p.chans c { ch with ents := ch.ents ++ [e] } }

/-! ## Traps (R321-R327) -/

/-- The codes of R323. -/
def Cause.code : Cause → Nat
  | .illop => 0x01 | .resfield => 0x02 | .nonuniform => 0x03 | .fmtvote => 0x04 | .partialmask => 0x05
  | .hazard => 0x06 | .deadread => 0x07 | .meldill => 0x08 | .badtgt => 0x09 | .badjoin => 0x0A
  | .xlate => 0x10 | .perm => 0x11 | .align => 0x12 | .bounds => 0x13 | .issuerights => 0x14
  | .dataerr => 0x15 | .acktimeout => 0x16 | .illwait => 0x20 | .starve => 0x21 | .preempt => 0x30
  | .swtrap => 0x31 | .setfault => 0x32 | .primer => 0x40

/-- Outstanding variable-latency results of an agent (R22). -/
def agentResults (s : State) (aid : Nat) : Tab Result := s.results.filter fun p => p.2.agent == aid

def hasResults (s : State) (aid : Nat) : Bool := s.results.any fun p => p.2.agent == aid

/-- The trap of a pending late fault (R326): LATE and the number of the others. -/
def lateTrap (t : Trap) (others : Nat) : Trap :=
  { t with aux := t.aux ||| BitVec.ofNat 64 (2 ^ 63) ||| BitVec.ofNat 64 (min others 15 * 2 ^ 59) }

/-- An agent's panel, commission tag and context for an event record. -/
def agentPlace (s : State) (a : Agent) : Nat × Nat × Nat × Nat :=
  match getStroke s a.stroke with
  | none => (0, 0, 0, 0)
  | some st =>
    match getPanel s st.panel with
    | none => (0, 0, 0, st.idx)
    | some p => (p.ctx, ((getComm s p.comm).map fun c => c.tag.toNat).getD 0, p.idx, st.idx)

def agentTvbase (s : State) (a : Agent) : DWord :=
  match getStroke s a.stroke with
  | none => 0
  | some st =>
    match getPanel s st.panel with
    | none => 0
    | some p => ((getComm s p.comm).map fun c => c.tvbase).getD 0

def agentCtx (s : State) (a : Agent) : Nat := (agentPlace s a).1

/-! ## Errors (R347, R348) -/

def assocGet {α : Type} (l : List (ErrUnit × α)) (u : ErrUnit) : Option α := (l.find? fun p => p.1 == u).map (·.2)

def assocPut {α : Type} (l : List (ErrUnit × α)) (u : ErrUnit) (v : α) : List (ErrUnit × α) :=
  (l.filter fun p => p.1 != u) ++ [(u, v)]

/-- One record into the ring of 4,096 (R348). -/
def addLog (s : State) (pa kind : Nat) (u : ErrUnit) (ctx count : Nat) (drop : Option DropPlace := none) : State :=
  let j := s.juran
  let r : LogRec := { cycle := s.cycle, pa := pa, kind := kind, unit := u, ctx := ctx, count := count, drop := drop }
  { s with juran := if 4096 ≤ j.log.length then
      { j with log := j.log.drop 1 ++ [r], lost := j.lost + 1, logBase := j.logBase + 1 }
    else { j with log := j.log ++ [r] } }

def unitCount (s : State) (u : ErrUnit) : Nat := (assocGet s.juran.counts u).getD 0

/-- The threshold of a unit: 1,024 where system software has set none (R348). -/
def unitThreshold (s : State) (u : ErrUnit) : Nat := (assocGet s.juran.thresholds u).getD 1024

/-- The kind of a unit's threshold record: a Ronhal lane's has a kind of its own (R348). -/
def thresholdKind (u : ErrUnit) : Nat := if u.cls = 3 then 3 else 0

/-- A detected error: 1 on its unit's saturating 32-bit counter, and a record when that brings the counter to its
threshold (R348). `ctx`: the context ID + 1, or 0. -/
def bumpUnit (s : State) (u : ErrUnit) (pa ctx : Nat) : State :=
  let n := min (unitCount s u + 1) (2 ^ 32 - 1)
  let s1 := { s with juran := { s.juran with counts := assocPut s.juran.counts u n } }
  if unitCount s u < unitThreshold s u ∧ unitThreshold s u ≤ n then addLog s1 pa (thresholdKind u) u ctx n else s1

/-- A detected uncorrectable error of a unit: its record besides (R348). -/
def countError (s : State) (u : ErrUnit) (pa ctx : Nat) : State :=
  let s1 := bumpUnit s u pa (ctx + 1)
  addLog s1 pa 1 u (ctx + 1) (unitCount s1 u)

/-- The unit of a memory word (R348): the row of a slice (log 11), or the LPDDR-6 channel PA[17:12] (R214). -/
def unitOf (pa : Nat) : ErrUnit :=
  match paKind pa with
  | .sram _ _ _ => { cls := 0, num := (Config.sramRow pa).toNat }
  | _ => { cls := 2, num := bitsAt pa 17 12 }

/-- The unit of a tile's registers, accumulator tiles and operand buffers. -/
def arraysOf (core : Nat) : ErrUnit := { cls := 5, num := core }

/-- A detected uncorrectable error of a word, met by a context's access (R348). -/
def uncorrectable (s : State) (pa ctx : Nat) : State := countError s (unitOf pa) pa ctx

/-- The uncorrectable error that a trap's instruction met is counted and logged. -/
def countMet (s : State) (ctx : Nat) (t : Trap) : State :=
  match t.met with
  | some (u, pa) => countError s u pa ctx
  | none => s

/-- The trap of an access of an instruction that its address does not give. -/
def faultTrap (f : AddrFault) (va : DWord) (lanes : Mask) : Trap :=
  if f.1 = .dataerr then
    { cause := .dataerr, addr := f.2, lanes := lanes, met := some (unitOf f.2.toNat, f.2.toNat) }
  else { cause := f.1, addr := va, aux := f.2, lanes := lanes }

/-- The error that an engine's translation met is counted and logged (R348). -/
def countWalk (s : State) (ctx : Nat) (f : AddrFault) : State :=
  if f.1 = .dataerr then uncorrectable s f.2.toNat ctx else s

/-- What another device answers to a read that no event carries the answer of is free (log 12): whether it performs the
read (0), refuses it (1) or meets an uncorrectable error (2), and the bytes; where the reader waits for it, 3 is no answer
yet, and elsewhere it performs the read. -/
def awayAnswer (s : State) : Nat := (Config.freeValue 2 s.freeN).toNat

/-- The word at a program counter with the page checks of R28; an uncorrectable error in it is DATAERR (R347). A page in
a window is read as any access to it is (R215, R216); what another device answers is free, and no answer yet stands as
ACKTIMEOUT, which those that fetch raise after 2^22 cycles (R217, log 12). -/
def fetchWord (s : State) (ctx pc : Nat) : Except Trap DWord :=
  match accessByte s ctx pc .x with
  | .error f => .error (faultTrap f (BitVec.ofNat 64 pc) 0)
  | .ok (pa, _) =>
    match reachOf s ctx false [(pa, 8)] with
    | .refused => .error { cause := .xlate, aux := 0x10000, addr := BitVec.ofNat 64 pc }
    | .away => match awayAnswer s with
      | 1 => .error { cause := .xlate, aux := 0x10000, addr := BitVec.ofNat 64 pc }
      | 2 => .error { cause := .dataerr, aux := 0x10000, addr := BitVec.ofNat 64 pa }
      | 3 => .error { cause := .acktimeout }
      | _ => .ok (Config.farWord s.cycle pa)
    | .here g =>
      match segsBad s g with
      | some w =>
        .error { cause := .dataerr, aux := remoteAux [(pa, 8)], addr := BitVec.ofNat 64 (if bitAt pa 51 then pa else w)
                 met := some (unitOf w, w) }
      | none => .ok (BitVec.ofNat 64 (ofBytes (readSegs s.mem g)))

/-- TADDR as it reads: [63:57] are reserved and read 0 (R47). -/
def taddrOf (t : Trap) : DWord := (t.addr.setWidth 57).setWidth 64

/-- A double fault or an unhandled trap: the agent stops and keeps its trap registers (R325). -/
def doubleFault (s : State) (aid : Nat) (a : Agent) (t : Trap) : State :=
  let (ctx, tag, panel, stroke) := agentPlace s a
  report (setAgent s aid { a with run := .stopped, late := none })
    (.doubleFault (if a.handler then some (a.tcause.toNat % 256) else none) t.cause.code ctx tag panel stroke a.pc)

/-- A trap in the access slice stops the Primer (R327). -/
def primerFault (s : State) (aid : Nat) (a : Agent) (t : Trap) : State :=
  let (ctx, tag, panel, _) := agentPlace s a
  let s1 := setAgent s aid
    { a with run := .stopped, late := none, taddr := taddrOf t, taux := t.aux, tcause := BitVec.ofNat 64 t.cause.code }
  let s2 := match getStroke s a.stroke with
    | none => s1
    | some st =>
      match getPanel s1 st.panel with
      | none => s1
      | some p => setPanel s1 st.panel { p with primerState := t.cause.code }
  report s2 (.primerStop t.cause.code ctx tag panel a.pc)

/-- The counters and marks that entry clears: those an ACKTIMEOUT waited on (R211) and those a DATAERR reports
(R210). Acknowledgements that come later for the cleared counts are discarded. -/
def clearStreams (s : State) (st : Nat) (t : Trap) : State :=
  match getStroke s st with
  | none => s
  | some k =>
    let m : BitVec 16 := if t.cause = .acktimeout then t.aux.setWidth 16 else 0
    let hit := fun (stroke str : Nat) => stroke == st && m.getLsbD str
    { setStroke s st
        { k with acks := tabFilter (fun n _ => !m.getLsbD n) k.acks
                 marks := tabFilter (fun n _ => !t.marks.getLsbD n) k.marks } with
      packets := tabMap (fun _ p => if hit p.stroke p.str then { p with counted := false } else p) s.packets
      deposits := tabMap (fun _ p => if hit p.stroke p.str then { p with counted := false } else p) s.deposits
      copies := tabMap (fun _ c => if hit c.stroke 0 then { c with owed := [], unsent := [] } else c) s.copies
      ackq := tabFilter (fun _ p => !hit p.stroke p.str) s.ackq }

/-- Parks an agent; a wait of the same kind keeps its starting cycle (R244). -/
def parkAgent (s : State) (aid : Nat) (k : WaitKind) : State :=
  match getAgent s aid with
  | none => s
  | some a =>
    let since := match a.waitFrom with
      | some w => if w.kind = k then w.since else s.cycle
      | none => s.cycle
    setAgent s aid { a with run := .parked ⟨k, since⟩, waitFrom := some ⟨k, since⟩ }

/-- Whether another device has not answered the fetch of an agent's vector, for less than 2^22 cycles (R217). -/
def vectorAwaited (s : State) (a : Agent) (t : Trap) : Bool :=
  !a.primer && !a.handler && agentTvbase s a != 0 &&
    (match fetchWord s (agentCtx s a) ((agentTvbase s a).toNat + 8 * t.cause.code) with
      | .error e => e.cause == .acktimeout
      | .ok _ => false) &&
    !a.waitFrom.any fun w => w.kind == .answer && decide (2 ^ 22 ≤ s.cycle - w.since)

/-- The trap that an agent enters: a pending late fault instead of the one given (R324). -/
def firstTrap (a : Agent) (t : Trap) : Trap :=
  match a.late with
  | some (l, n) => lateTrap l n
  | none => t

/-- Trap entry (R324). Entry waits as if S were set, and for its vector where another device holds that. -/
def enterTrap (s : State) (aid : Nat) (t0 : Trap) : State :=
  match getAgent s aid with
  | none => s
  | some a =>
    if hasResults s aid then
      setAgent s aid { a with run := .parked ⟨.results, s.cycle⟩, owed := some t0 }
    else if vectorAwaited s a (firstTrap a t0) then
      parkAgent (setAgent s aid { a with owed := some t0 }) aid .answer
    else
      let t := firstTrap a t0
      let a := { a with owed := none }
      let s := countMet s (agentCtx s a) t
      if a.primer then primerFault s aid a t
      else if a.handler then doubleFault s aid a t
      else
        let tv := agentTvbase s a
        let vec := tv.toNat + 8 * t.cause.code
        let vector := fetchWord s (agentCtx s a) vec
        if tv = 0 then doubleFault s aid a t
        else match vector with
        | .error e => doubleFault (countMet s (agentCtx s a) e) aid a t
        | .ok _ =>
          let cause := t.cause.code + 2 ^ 8 * a.priv + (if a.meld then 2 ^ 10 else 0) + (if a.frag then 2 ^ 11 else 0)
          let a1 := { a with
            tcause := BitVec.ofNat 64 cause
            tpc := a.pc.setWidth 64
            taddr := taddrOf t
            tlane0 := t.lanes.setWidth 64
            tlane1 := (t.lanes >>> 64).setWidth 64
            taux := t.aux
            meldHeld := a.meld
            meld := false
            staged := []
            handler := true
            byPreempt := decide (t.cause = .preempt)
            hazV := 0, hazS := 0, hazK := 0
            late := none
            run := .ready
            waitFrom := none
            prePend := if t.cause = .preempt then false else a.prePend
            pc := BitVec.ofNat 57 vec }
          clearStreams (setAgent s aid a1) a.stroke t

/-- Return from a handler: PC, privilege and meld mode as the trap registers say (R329, R265). -/
def returnFrom (a : Agent) : Agent :=
  { a with
    pc := BitVec.ofNat 57 (a.tpc.toNat % 2 ^ 57 / 8 * 8)
    priv := a.tcause.toNat / 2 ^ 8 % 4
    meld := a.tcause.getLsbD 10
    meldHeld := false
    handler := false
    byPreempt := false
    staged := []
    hazV := 0, hazS := 0, hazK := 0 }

/-! ## Waiting -/

/-- Blocks an agent until the step that completes its wait. -/
def blockAgent (s : State) (aid : Nat) (k : WaitKind) : State :=
  match getAgent s aid with
  | none => s
  | some a => setAgent s aid { a with run := .blocked ⟨k, s.cycle⟩, waitFrom := none }

/-- Waits as if S were set (R22): parks while a result is outstanding, then takes a pending late fault. -/
def waitS (s : State) (aid : Nat) : Except Stop Unit :=
  if hasResults s aid then .error (.park .results)
  else match (getAgent s aid).bind fun a => a.late with
    | some (t, n) => .error (.trap (lateTrap t n))
    | none => .ok ()

/-- A re-executed agent: every parked agent tries again when something has changed. -/
def wakeAll (s : State) : State :=
  { s with agents := tabMap (fun _ a => match a.run with
      | .parked _ => { a with run := .ready }
      | _ => a) s.agents }

/-! ## What an agent's instruction works with -/

/-- The issuing agent with its stroke, panel and commission. -/
structure Ctxt where
  aid : Nat
  a : Agent
  st : Stroke
  p : Panel
  c : Comm
  ctx : Ctx

def theCtxt (s : State) : Option Ctxt := do
  let a ← getAgent s s.cur
  let st ← getStroke s a.stroke
  let p ← getPanel s st.panel
  let c ← getComm s p.comm
  let x ← getCtx s p.ctx
  return { aid := s.cur, a := a, st := st, p := p, c := c, ctx := x }

/-- The width of the agent's row: its stroke's W, or the commission's for a Primer's pushes. -/
def Ctxt.w (x : Ctxt) : Nat := x.st.width

abbrev Eff := Except Stop

def trapAt {α : Type} (c : Cause) (lanes : Mask) (aux : DWord := 0) (addr : DWord := 0) : Eff α :=
  .error (.trap { cause := c, addr := addr, aux := aux, lanes := lanes })

/-- DATAERR for an error that the instruction itself meets: its unit, and the address in it, or 0. -/
def trapMet {α : Type} (u : ErrUnit) (lanes : Mask) (aux : DWord := 0) (pa : Nat := 0) : Eff α :=
  .error (.trap { cause := .dataerr, addr := BitVec.ofNat 64 pa, aux := aux, lanes := lanes, met := some (u, pa) })

/-- Where an instruction may stand (R89, R262, R277, R341, R342). -/
structure Place where
  primer : Bool := false
  meld : Bool := true
  handler : Bool := true
deriving DecidableEq, Repr

/-- ILLOP where the instruction may not run (R26, R342). -/
def checkPlace (x : Ctxt) (lanes : Mask) (pl : Place) : Eff Unit :=
  if (x.a.primer && !pl.primer) || (x.a.handler && !pl.handler) then trapAt .illop lanes else .ok ()

/-- MELDILL, after the checks of R38 and R24 (R262). -/
def checkMeld (x : Ctxt) (lanes : Mask) (pl : Place) : Eff Unit :=
  if x.a.meld && !pl.meld then trapAt .meldill lanes else .ok ()

/-- An instruction that commits clears the record of its agent's wait. -/
def clearWait (s : State) (aid : Nat) : State :=
  match getAgent s aid with
  | some a => setAgent s aid { a with waitFrom := none }
  | none => s

/-- What an agent's instruction comes to: its effect, the entry of the trap it raises, or a wait. -/
def settle (s : State) (aid : Nat) : Eff State → State
  | .ok t => clearWait t aid
  | .error (.trap t) => enterTrap s aid t
  | .error (.park k) => parkAgent s aid k

/-- Runs the current agent's instruction. -/
def runAgent (s : State) (body : Ctxt → Eff State) : State :=
  match theCtxt s with
  | none => s
  | some x => settle s x.aid (body x)

/-- The S bit: waits, and closes the set of names that HAZARD protects (R22). -/
def switchMark (s : State) (x : Ctxt) (sw : Bool) : Eff (State × Ctxt) :=
  if sw then do
    waitS s x.aid
    let a := { x.a with hazV := 0, hazS := 0, hazK := 0 }
    return (setAgent s x.aid a, { x with a := a })
  else .ok (s, x)

/-- Moves the agent's program counter to the next instruction. -/
def stepPc (s : State) (aid : Nat) (size : Nat) : State :=
  match getAgent s aid with
  | none => s
  | some a => setAgent s aid { a with pc := a.pc + BitVec.ofNat 57 size }

def setPc (s : State) (aid : Nat) (pc : VAddr) : State :=
  match getAgent s aid with
  | none => s
  | some a => setAgent s aid { a with pc := pc }

/-- Sets the program counter by a taken branch, which clears the staged names (R45). -/
def takeBranch (s : State) (aid : Nat) (pc : VAddr) : State :=
  match getAgent s aid with
  | none => s
  | some a => setAgent s aid { a with pc := pc, staged := [] }

end Sys2Proof.Machine
end

