-- ==== Sys2Proof/Machine/Operands.lean ====
section
/-! DEFINITION. Every operand form (spec/02_encoding.md R34, R35; spec/04_number_formats.md R67;
spec/05_alu_instructions.md R87, R88; spec/14_divergence.md R261), the checks of R24 over them, channel sources (R25),
and the commit of an instruction that writes registers (R17, R20, R22). -/

namespace Sys2Proof.Machine
open Sys2Proof

/-- A source as an instruction reads it: `regs` vector registers (1, or 2 for a 64-bit pair, or 4), its field
(0 D, 1 A, 2 B, 3 C: R323) and its last-read bit. `whole`: the base of Format M, to which a channel gives all 64
bits of an entry; any other source takes bits [31:0] (R167, R187). -/
structure Src where
  o : Opd
  regs : Nat := 1
  field : Nat
  last : Bool := false
  whole : Bool := false
deriving DecidableEq, Repr

/-- A register that an instruction names outside its operand fields or as a destination: coded as HAZARD codes it
(R323), with the field reported. -/
inductive Ref where
  | v (n regs field : Nat)
  | s (n field : Nat)
  | k (n field : Nat)
deriving DecidableEq, Repr

/-- Lanes of a path (R259). -/
def pathMask (a : Agent) (p : Nat) : Mask :=
  (if p % 2 = 1 then a.pathLo else ~~~a.pathLo) &&& (if 2 ≤ p then a.pathHi else ~~~a.pathHi)

/-- The physical names that vector number n stands for, each with its lanes (R14, R261). -/
def resolveV (a : Agent) (lanes : Mask) (n : Nat) : List (Nat × Mask) :=
  if a.meld && decide (0xB0 ≤ n) then
    (List.range 4).filterMap fun p =>
      let m := lanes &&& pathMask a p
      if m = 0 then none else some (meldName a (n - 0xB0) p, m)
  else [(n, lanes)]

/-- Every distinct name that a last-read bit on vector number n frees (R17, R261). -/
def lastNames (a : Agent) (n : Nat) : List Nat :=
  if a.meld && decide (0xB0 ≤ n) then (List.range 4).map fun p => meldName a (n - 0xB0) p else [n]

def resolveRegs (a : Agent) (lanes : Mask) (n : Nat) : Nat → List (Nat × Mask)
  | 0 => []
  | r + 1 => resolveRegs a lanes n r ++ resolveV a lanes (n + r)

/-- A wide operand inside a meld region that RESFIELD refuses: its entries do not name consecutive aligned registers
in each path, or it straddles 0xAF and 0xB0 (R87, R261). -/
def badMeld (a : Agent) (n regs : Nat) : Bool :=
  a.meld && decide (1 < regs) &&
    (if 0xB0 ≤ n then
      (List.range 4).any fun p =>
        meldName a (n - 0xB0) p % regs != 0 ||
          (List.range regs).any fun q => meldName a (n - 0xB0 + q) p != meldName a (n - 0xB0) p + q
    else decide (0xB0 < n + regs))

/-- The names, in HAZARD's coding, that an operand reads. -/
def srcKeys (a : Agent) (lanes : Mask) (x : Src) : List Nat :=
  match x.o with
  | .v n => (resolveRegs a lanes n x.regs).map (·.1)
  | .s n => if n = 63 then [] else [0xC0 + n]
  | _ => []

def refKeys (a : Agent) (lanes : Mask) : Ref → List Nat × Bool × Nat
  | .v n regs f => ((resolveRegs a lanes n regs).map (·.1), false, f)
  | .s n f => (if n = 63 then [] else [0xC0 + n], false, f)
  | .k n f => ([n], true, f)

/-- Whether a register's variable-latency write is still protected (R22). -/
def hazHit (a : Agent) (isK : Bool) (key : Nat) : Bool :=
  if isK then a.hazK.getLsbD key
  else if key < 0xC0 then a.hazV.getLsbD key else a.hazS.getLsbD (key - 0xC0)

def firstHaz (a : Agent) (l : List (List Nat × Bool × Nat)) : Option (Nat × Bool × Nat) :=
  l.findSome? fun e => (e.1.find? (hazHit a e.2.1)).map fun k => (k, e.2.1, e.2.2)

def regAux (key field : Nat) (isK : Bool) : DWord :=
  BitVec.ofNat 64 (key + 2 ^ 8 * field + (if isK then 2 ^ 10 else 0))

/-- The masks that a selector reads: `em`, and k(KM) (R15). In a meld region 12-15 select paths. -/
def selRefs (x : Ctxt) (km : Nat) : List Ref :=
  .k 16 1 :: (if km = 0 ∨ (x.a.meld ∧ 12 ≤ km) then [] else [.k km 1])

/-- HAZARD, then DEADREAD (R24): sources in field order, then the other registers, the selector's masks last. -/
def checkRegs (x : Ctxt) (lanes : Mask) (srcs : List Src) (refs : List Ref) : Eff Unit :=
  let srcL := srcs.map fun r => (srcKeys x.a lanes r, false, r.field)
  match firstHaz x.a (srcL ++ refs.map (refKeys x.a lanes)) with
  | some (k, isK, f) => trapAt .hazard lanes (regAux k f isK)
  | none =>
    match srcL.findSome? fun e => (e.1.find? fun k => decide (k < 0xC0) && !isLive x.a k).map fun k => (k, e.2.2) with
    | some (k, f) => trapAt .deadread lanes (regAux k f false)
    | none => .ok ()

/-- RESFIELD for wide operands in a meld region (R87, R261). -/
def checkMeldPairs (x : Ctxt) (lanes : Mask) (srcs : List Src) (refs : List Ref) : Eff Unit :=
  if (srcs.any fun r => match r.o with
      | .v n => badMeld x.a n r.regs
      | _ => false) ||
     (refs.any fun r => match r with
      | .v n regs _ => badMeld x.a n regs
      | _ => false)
  then trapAt .resfield lanes else .ok ()

/-- The value of `regs` registers from vector number n in one lane. -/
def vValue (x : Ctxt) (n lane : Nat) : Nat → Nat
  | 0 => 0
  | r + 1 => vValue x n lane r + (vLane x.st (laneName x.a (n + r) lane) lane).toNat * 2 ^ (32 * r)

/-! ## Channel sources (R25) -/

/-- Word j of an Easel entry (R288). -/
def entryWord (e : QEntry) (j : Nat) : DWord := BitVec.ofNat 64 (ofBytes ((e.bytes.drop (4 * j)).take 4))

/-- The eight channel entries of a group: entry j holds, in lane i, word j of the group's entry i, or 0 (R296). -/
def groupEnts (w : Nat) (g : List QEntry) : List (List DWord) :=
  (List.range 8).map fun j => (List.range w).map fun i => ((g[i]?).map fun e => entryWord e j).getD 0

/-- The physical address of the first uncorrectable error in a group. -/
def groupBad (g : List QEntry) : Option Nat := g.findSome? fun e => e.bad

def addGroup (w : Nat) (ch : Chan) (g : List QEntry) : Chan :=
  { ch with ents := ch.ents ++ groupEnts w g, wide := ch.wide ++ List.replicate 8 true
            bad := ch.bad ++ List.replicate 8 (groupBad g) }

/-- Refills a firing's port from its batch while it holds at most 8 channel entries (R296). `fuel`: groups. -/
def refillPort (w : Nat) : Nat → Chan → Chan
  | 0, ch => ch
  | fuel + 1, ch =>
    if ch.kind = .port ∧ ch.batch ≠ [] ∧ ch.ents.length ≤ 8 then
      refillPort w fuel (addGroup w { ch with batch := ch.batch.drop w } (ch.batch.take w))
    else ch

/-- Moves spilled entries into the ring while it has room (R288). An entry whose bytes in the spill area are no longer
what the Easel wrote is undefined: free values (R289). -/
def drainSpill (s : State) (q : Nat) : Nat → State
  | 0 => s
  | fuel + 1 =>
    match tabGet s.easel q with
    | none => s
    | some e =>
      match e.spill with
      | [] => s
      | x :: t =>
        if e.cap ≤ e.ring.length then s
        else
          let seen := match segsFor s e.ctx .r (e.spillBase + 32 * (x.slot.getD 0)) 32 with
            | .ok g => (readSegs s.mem g, segsBad s g)
            | .error _ => (x.bytes, none)
          let (bytes, n) := if seen.1 = x.bytes then (x.bytes, s.freeN)
            else ((List.range 32).map fun i => Config.freeValue 8 (s.freeN + i), s.freeN + 32)
          let x1 := { x with bytes := bytes, slot := none, bad := match x.bad with
            | some b => some b
            | none => seen.2 }
          drainSpill { s with easel := tabPut s.easel q { e with ring := e.ring ++ [x1], spill := t }, freeN := n } q fuel

/-- Takes the n oldest entries of a queue (R294, R297). -/
def takeEntries (s : State) (q : Nat) : Nat → State × List QEntry
  | 0 => (s, [])
  | n + 1 =>
    match tabGet s.easel q with
    | none => (s, [])
    | some e =>
      match e.ring with
      | [] => (s, [])
      | x :: t =>
        let s1 := drainSpill { s with easel := tabPut s.easel q { e with ring := t, expired := false } } q e.spill.length
        let r := takeEntries s1 q n
        (r.1, x :: r.2)

/-- A pull binding takes a group when a pop or peek finds it without the entry it needs (R297). -/
def pullGroup (s : State) (x : Ctxt) (c need : Nat) : State × Ctxt :=
  match tabGet x.p.chans c with
  | none => (s, x)
  | some ch =>
    if ch.kind = .pull ∧ ch.ents.length < need then
      let (s1, g) := takeEntries s ch.queue x.w
      if g = [] then (s, x)
      else
        let p := { x.p with chans := tabPut x.p.chans c (addGroup x.w ch g) }
        (setPanel s1 x.st.panel p, { x with p := p })
    else (s, x)

/-- The k-th next entry of a channel for the issuing agent, as W lanes: PERM where it is unbound, DATAERR where the
entry holds an uncorrectable error (R296), a park where it is empty, PRIMER at an empty queue of a stopped Primer
(R327), zeros from an exhausted firing's port (R296), all ones from an exhausted iterator. -/
def chanEntry (s : State) (x : Ctxt) (lanes : Mask) (c k : Nat) : Eff (List DWord) :=
  match tabGet x.p.chans c with
  | none => trapAt .perm lanes
  | some ch =>
    match ch.ents[k]? with
    | some e =>
      match (ch.bad[k]?).getD none with
      | some pa => trapMet (unitOf pa) lanes 0 pa
      | none => .ok e
    | none =>
      if ch.kind = .iter ∧ ch.done then .ok (List.replicate x.w 0xFFFFFFFF)
      else if ch.kind = .port ∧ ch.done then .ok (List.replicate x.w 0)
      else if ch.kind = .primer then
        match x.p.primer.bind (getAgent s) with
        | some pr =>
          if pr.run = .stopped then
            trapAt .primer lanes
              (BitVec.ofNat 64 (pr.tcause.toNat % 256 + 2 ^ 8 * (pr.pc.toNat / 8))) pr.taddr
          else .error (.park .chan)
        | none => .error (.park .chan)
      else .error (.park .chan)

/-- How many pops of channel c stand among the sources before place i: a peek sees the entry after them (R25; log 119). -/
def popsBefore (srcs : List Src) (c : Nat) (i : Nat) : Nat :=
  ((srcs.take i).filter fun r => r.o == .pop c).length

/-- What a channel entry gives to a source in a lane, of a 64-bit type (log 94) and in an inactive lane (log 127) too. -/
def entryValue (r : Src) (e : List DWord) (lane : Nat) : Nat :=
  ((e[lane]?).getD 0).toNat % 2 ^ (if r.whole then 64 else 32)

/-- Registers of a source whose entries hold an uncorrectable error: DATAERR, without an address (R346). -/
def checkEntries (x : Ctxt) (lanes : Mask) (o : Opd) (regs : Nat) : Eff Unit :=
  match o with
  | .v n =>
    let bad := maskOf x.w fun l => lanes.getLsbD l && (List.range regs).any fun r => x.st.badV.contains (laneName x.a (n + r) l, l)
    if bad = 0 then .ok () else trapMet (arraysOf x.p.core) bad
  | .s n => if x.a.badS.contains n then trapMet (arraysOf x.p.core) lanes else .ok ()
  | _ => .ok ()

/-- The scalars and masks that an instruction reads without an operand field of their own, its selector's masks among
them: DATAERR where one holds an uncorrectable error (R346). -/
def checkReads (x : Ctxt) (lanes : Mask) : List Ref → Eff Unit
  | [] => .ok ()
  | .s n (_ + 1) :: t => do
    checkEntries x lanes (.s n) 1
    checkReads x lanes t
  | .k n (_ + 1) :: t => do
    if x.a.badK.contains n then trapMet (arraysOf x.p.core) lanes
    checkReads x lanes t
  | _ :: t => checkReads x lanes t

/-- The value of source i in a lane, before narrowing. -/
def srcValue (s : State) (x : Ctxt) (lanes : Mask) (srcs : List Src) (i : Nat) : Eff (Nat → Nat) :=
  match srcs[i]? with
  | none => .ok fun _ => 0
  | some r =>
    match r.o with
    | .v n => do
      checkEntries x lanes (.v n) r.regs
      return fun lane => vValue x n lane r.regs
    | .s n => do
      checkEntries x lanes (.s n) r.regs
      return fun _ => (sReg x.a n).toNat
    | .imm v => .ok fun _ => v.toNat
    | .pop c => do
      let e ← chanEntry s x lanes c (popsBefore srcs c i)
      return entryValue r e
    | .peek c => do
      let e ← chanEntry s x lanes c (popsBefore srcs c i)
      return entryValue r e

def srcValues (s : State) (x : Ctxt) (lanes : Mask) (srcs : List Src) : Nat → Nat → Eff (List (Nat → Nat))
  | 0, _ => .ok []
  | k + 1, i => do
    let v ← srcValue s x lanes srcs i
    let t ← srcValues s x lanes srcs k (i + 1)
    return v :: t

/-- Value i of a list of lane functions. -/
def val (vs : List (Nat → Nat)) (i lane : Nat) : Nat := ((vs[i]?).getD fun _ => 0) lane

def isChan : Opd → Bool
  | .pop _ => true
  | .peek _ => true
  | _ => false

/-- Takes the first entry of a channel. -/
def popChan (s : State) (panel c : Nat) : State :=
  match getPanel s panel with
  | none => s
  | some p =>
    match tabGet p.chans c with
    | none => s
    | some ch =>
      let slots := if ch.kind = .ring ∧ ch.ents ≠ [] then ch.slotsPopped + 1 else ch.slotsPopped
      let w := ((p.strokes.head?).bind (getStroke s)).elim 32 fun st => st.width
      let ch1 := refillPort w 256 { ch with ents := ch.ents.drop 1, wide := ch.wide.drop 1, bad := ch.bad.drop 1
                                            popped := ch.popped + 1, slotsPopped := slots }
      setPanel s panel { p with chans := tabPut p.chans c ch1 }

/-- The acquire of a pop or peek whose entry was released at a scope wider than a core (R229, R292). -/
def chanAcquire (s : State) (panel c : Nat) : State :=
  match getPanel s panel with
  | none => s
  | some p =>
    match tabGet p.chans c with
    | none => s
    | some ch => if (ch.wide.head?).getD false then acquireInvalidate s p.core else s

def popAll (s : State) (panel : Nat) (srcs : List Src) : State :=
  srcs.foldl (fun t r => match r.o with
    | .pop c => popChan (chanAcquire t panel c) panel c
    | .peek c => chanAcquire t panel c
    | _ => t) s

/-- Pull bindings produce what the sources need (R297). -/
def pullAll (s : State) (x : Ctxt) (srcs : List Src) : State × Ctxt :=
  (List.range srcs.length).foldl (fun r i => match srcs[i]? with
    | some src =>
      match src.o with
      | .pop c => pullGroup r.1 r.2 c (popsBefore srcs c i + 1)
      | .peek c => pullGroup r.1 r.2 c (popsBefore srcs c i + 1)
      | _ => r
    | none => r) (s, x)

/-- NONUNIFORM over the named lanes for the sources in `uni` (R23): the lanes that differ from the lowest. -/
def checkUniform (x : Ctxt) (lanes : Mask) (srcs : List Src) (uni : List Nat) : Eff Unit :=
  match lowestLane lanes x.w with
  | none => .ok ()
  | some lo =>
    match uni.findSome? fun i =>
      match srcs[i]? with
      | some r =>
        match r.o with
        | .v n =>
          let d := maskOf x.w fun l => lanes.getLsbD l && vValue x n l r.regs != vValue x n lo r.regs
          if d = 0 then none else some (r.field, d)
        | _ => none
      | none => none with
    | some (f, d) => trapAt .nonuniform d (BitVec.ofNat 64 f)
    | none => .ok ()

/-! ## Destinations -/

/-- Writes of a destination of `regs` registers, one value per lane (R67, R87). -/
def putV (x : Ctxt) (lanes : Mask) (n : Nat) (f : Nat → Nat) : Nat → List VWrite
  | 0 => []
  | r + 1 => putV x lanes n f r ++ (resolveV x.a lanes (n + r)).map fun e =>
      { name := e.1, lanes := e.2, vals := (List.range x.w).map fun l => BitVec.ofNat 32 (f l / 2 ^ (32 * r)) }

/-- A destination field's writes: a vector takes a value per lane, a scalar the value of `lane`, a push every
lane's: its low 32 bits, which is all that an entry holds of a 64-bit result (DESIGN CHOICE, log 94). -/
def putDst (x : Ctxt) (lanes : Mask) (d : Dst) (regs : Nat) (f : Nat → Nat) (lane : Nat := 0) : Writes :=
  match d with
  | .v n => { v := putV x lanes n f regs }
  | .s n => { s := [(n, BitVec.ofNat 64 (f lane))] }
  | .push c => { push := some (c, (List.range x.w).map fun l => BitVec.ofNat 64 (f l % 2 ^ 32)) }

def dstRef (d : Dst) (regs field : Nat) : List Ref :=
  match d with
  | .v n => [.v n regs field]
  | .s n => [.s n field]
  | .push _ => []

def kRef (k : KReg) (field : Nat) : Ref :=
  match k with
  | .k n => .k n field
  | .em => .k 16 field

/-! ## Commit -/

/-- Names that last-read bits free (R17). -/
def freedBy (a : Agent) (srcs : List Src) : List Nat :=
  srcs.flatMap fun r => if r.last then
      match r.o with
      | .v n => (List.range r.regs).flatMap fun q => lastNames a (n + q)
      | _ => []
    else []

/-- Vector names an outstanding result will write. -/
def resultNames (r : Result) : List Nat :=
  match r.kind with
  | .writes w => w.v.map (·.name)
  | _ => r.dst.map (·.2.1)

/-- The stroke's footprint with the names still to be written (R18, R19). -/
def footprint (s : State) (st : Nat) (aid : Nat) (freed adds : List Nat) : Nat :=
  let others := (strokeAgents s st).foldl (fun m p =>
    m ||| frameViews p.2 ||| (if p.1 = aid then 0 else p.2.live)) (0 : BitVec 192)
  let own := ((getAgent s aid).map fun a => a.live &&& ~~~(set192 freed)).getD 0
  let pend := (s.results.filter fun p => (getAgent s p.2.agent).any fun a => a.stroke == st).foldl
    (fun m p => m ||| set192 (resultNames p.2)) (0 : BitVec 192)
  count192 (others ||| own ||| pend ||| set192 adds)

/-- Register bytes of a core not reserved by any stroke on it (R19, R251). -/
def freeRegBytes (s : State) (core : Nat) : Nat :=
  256 * 1024 - s.strokes.foldl (fun n p =>
    match getPanel s p.2.panel with
    | some q => if q.core = core ∧ !p.2.exited ∧ q.mapped then n + p.2.reserve * 32 * p.2.width else n
    | none => n) 0

/-- Takes granules for a write that goes beyond the reservation, or parks (R19). -/
def reserveFor (s : State) (x : Ctxt) (freed adds : List Nat) : Eff State :=
  let need := ceilDiv (footprint s x.a.stroke x.aid freed adds) 8
  if need ≤ x.st.reserve then .ok s
  else if (need - x.st.reserve) * 32 * x.st.width ≤ freeRegBytes s x.p.core then
    .ok (setStroke s x.a.stroke { x.st with reserve := need })
  else .error (.park .granule)

/-- How an instruction's results are written. -/
structure Issue where
  sw : Bool
  size : Nat
  srcs : List Src := []
  /-- Registers written, for HAZARD; a variable-latency instruction protects them (R22). -/
  dsts : List Ref := []
  /-- A register range that must not straddle 0xAF and 0xB0 inside a meld region (R87). -/
  straddle : Option (Nat × Nat) := none
  /-- The channel a class 1 destination pushes to (R34). -/
  push : Option Nat := none
  /-- The result is variable-latency (R21). -/
  late : Bool := false
  /-- The instruction rounds with `.rsk`: RSTEP rises if a lane is active (R81). -/
  bump : Bool := false

/-- Marks a destination of a variable-latency instruction (R22). -/
def protectRef (lanes : Mask) (a : Agent) : Ref → Agent
  | .v n regs _ => { a with hazV := a.hazV ||| set192 ((resolveRegs a lanes n regs).map (·.1)) }
  | .s n _ => if n = 63 then a else { a with hazS := a.hazS ||| BitVec.ofNat 64 (2 ^ n) }
  | .k n _ => { a with hazK := a.hazK ||| BitVec.ofNat 17 (2 ^ n) }

def protect (s : State) (aid : Nat) (lanes : Mask) (dsts : List Ref) : State :=
  match getAgent s aid with
  | none => s
  | some a => setAgent s aid (dsts.foldl (protectRef lanes) a)

/-- The channel that an outstanding result pushes to when it is written. -/
def resultPush (r : Result) : Option Nat :=
  match r.kind with
  | .writes w => w.push.map (·.1)
  | _ => r.push

/-- Whether an access of a result is still to be performed. -/
def readsLeft (r : Result) : Bool :=
  match r.kind with
  | .writes _ => false
  | .held => false
  | _ => r.reads.any fun l => l.val.isNone

/-- Whether a push that the agent made as issue number `id` is not yet visible: it is a release at `.pnl` on every
stream, so the agent's earlier reads come first, and entries are delivered in push order (R205). -/
def pushHeld (s : State) (aid : Nat) (push : Option Nat) (id : Nat) : Bool :=
  push.isSome && s.results.any fun r =>
    r.2.agent == aid && decide (r.1 < id) && (readsLeft r.2 || resultPush r.2 == push)

/-- Entries of a channel: those held and those that outstanding results will push. -/
def chanLoad (s : State) (panel c : Nat) (ch : Chan) : Nat :=
  ch.ents.length + (s.results.filter fun r => resultPush r.2 == some c &&
    ((getAgent s r.2.agent).bind fun a => getStroke s a.stroke).any fun k => k.panel == panel).length

def bumpStep (s : State) (aid : Nat) : State :=
  match getAgent s aid with
  | none => s
  | some a => setAgent s aid { a with rstep := a.rstep + 1 }

/-- A new outstanding result. -/
def addResult (s : State) (r : Result) : State :=
  { s with results := tabPut s.results s.fresh { r with issued := s.cycle }, fresh := s.fresh + 1 }

/-- What a register instruction leaves once its granules are there: pops, last-read frees, then the writes at once, or
an outstanding result that will make them; then the program counter (R15, R17, R20, R22). -/
def writeBack (s : State) (x : Ctxt) (is : Issue) (lanes : Mask) (w : Writes) : State :=
  let s2 := freeNames (popAll s x.st.panel is.srcs) x.aid (freedBy x.a is.srcs)
  let late := is.late || is.srcs.any fun r => isChan r.o
  let empty := w.v.isEmpty && w.s.isEmpty && w.k.isEmpty && w.push.isNone && w.fl == 0
  let s3 :=
    if late || pushHeld s2 x.aid (w.push.map (·.1)) s2.fresh then
      let t := protect s2 x.aid lanes is.dsts
      if empty then t else addResult t { agent := x.aid, ctx := x.p.ctx, kind := .writes w, mask := lanes }
    else applyWrites s2 x.aid w
  let s4 := if is.bump && lanes != 0 then bumpStep s3 x.aid else s3
  stepPc s4 x.aid is.size

/-- Commits a register instruction: it takes the granules of the names it writes, or parks (R19). -/
def commitRegs (s : State) (x : Ctxt) (is : Issue) (lanes : Mask) (w : Writes) : Eff State := do
  let s0 ← reserveFor s x (freedBy x.a is.srcs) (w.v.map (·.name))
  return writeBack s0 x is lanes w

/-! ## The acknowledgement counters (R169, R210) -/

def ackCount (st : Stroke) (str : Nat) : Nat := (tabGet st.acks str).getD 0

/-- Whether a set instruction of the stroke has not completed at its home (R141). -/
def setsPending (s : State) (stroke : Nat) : Bool := s.setOps.any fun o => o.2.stroke == stroke

/-- Whether an operand fill or image read of the stroke in the named streams is still to be performed (R117, R128). -/
def matrixReads (s : State) (stroke : Nat) (m : BitVec 16) : Bool :=
  s.fills.any fun f => f.2.stroke == stroke && m.getLsbD f.2.str

/-- Waits until the named streams' counters read zero; a fault mark among them is then a DATAERR (R169, R210). The
wait that lasts 2^22 cycles is ended by the step ACKTIMEOUT. Set instructions are waited for as well (R141). -/
def waitStreams (s : State) (x : Ctxt) (lanes : Mask) (m : BitVec 16) : Eff Unit :=
  match getStroke s x.a.stroke with
  | none => .ok ()
  | some st =>
    if (List.range 16).any fun i => m.getLsbD i && ackCount st i != 0 then .error (.park (.streams m))
    else if setsPending s x.a.stroke || matrixReads s x.a.stroke m then .error (.park .results)
    else match tabFind (fun i _ => m.getLsbD i) st.marks with
      | some (_, pa) =>
        let t : Trap :=
          { cause := .dataerr, addr := BitVec.ofNat 64 pa, aux := if bitAt pa 51 then 0x10000 else 0, lanes := lanes
            marks := m }
        .error (.trap t)
      | none => .ok ()

def allStreams : BitVec 16 := 0xFFFF

/-- A push: only the Primer may make it, on a Primer operand queue of its panel (R25, R34); it blocks while 16 entries
are held or on their way, and waits for the Primer's outstanding acknowledgements (R205). -/
def checkPush (s : State) (x : Ctxt) (lanes : Mask) (c : Option Nat) : Eff Unit :=
  match c with
  | none => .ok ()
  | some c =>
    if !x.a.primer then trapAt .perm lanes
    else match tabGet x.p.chans c with
      | none => trapAt .perm lanes
      | some ch =>
        if ch.kind ≠ .primer then trapAt .perm lanes
        else if 16 ≤ chanLoad s x.st.panel c ch then .error (.park .chan)
        else waitStreams s x lanes allStreams

def pushOf : Dst → Option Nat
  | .push c => some c
  | _ => none

/-- The checks of a register instruction in the order of R322, and the values of its sources. -/
def gather (s : State) (x0 : Ctxt) (is : Issue) (km : Nat) (pl : Place) (reads : List Ref) (uni : List Nat)
    (always : Bool) : Eff (State × Ctxt × List (Nat → Nat)) := do
  let lanes := activeMask x0.a km
  checkPlace x0 lanes pl
  let (s, x) ← switchMark s x0 is.sw
  checkMeldPairs x lanes is.srcs is.dsts
  match is.straddle with
  | some (n, r) => if x.a.meld && decide (n < 0xB0) && decide (0xB0 < n + r) then trapAt .resfield lanes
  | none => pure ()
  let sels := if always then [] else selRefs x km
  checkRegs x lanes is.srcs (reads ++ is.dsts ++ sels)
  checkUniform x lanes is.srcs uni
  checkMeld x lanes pl
  checkReads x lanes (reads ++ sels)
  checkPush s x lanes is.push
  let (s, x) := pullAll s x is.srcs
  let vs ← srcValues s x lanes is.srcs is.srcs.length 0
  return (s, x, vs)

/-- What is left of an instruction's writes where no lane is active: the push that its destination names (R15). -/
def idleWrites (w : Writes) : Writes := { push := w.push }

/-- A register instruction: its checks, its sources, its writes. `always`: it acts whatever lanes are active;
otherwise, with none, only frees, pops and pushes happen (R15). -/
def regInstr (s : State) (is : Issue) (km : Nat) (pl : Place) (reads : List Ref) (uni : List Nat)
    (always : Bool) (f : Ctxt → Mask → List (Nat → Nat) → Eff Writes) : State :=
  runAgent s fun x0 => do
    let lanes := activeMask x0.a km
    let (s, x, vs) ← gather s x0 is km pl reads uni always
    let w ← if lanes = 0 && !always then (if is.push.isSome then (f x lanes vs).map idleWrites else .ok {})
      else f x lanes vs
    commitRegs s x is lanes w

end Sys2Proof.Machine
end

