-- ==== Sys2Proof/Machine/Alu.lean ====
section
/-! DEFINITION. The shape shared by the instructions that compute a value per lane (spec/05_alu_instructions.md
R87-R89). -/

namespace Sys2Proof.Machine
open Sys2Proof

/-- Vector registers that a value of a type takes (R67). -/
def Ty.regs (t : Ty) : Nat := if Ty.bits t = 64 then 2 else 1

def srcOf (o : Opd) (regs field : Nat) (last : Bool) : Src := { o := o, regs := regs, field := field, last := last }

def isImm : Opd → Bool
  | .imm _ => true
  | _ => false

/-- Bytes of an instruction whose source B may be an immediate (R35). -/
def sizeOf (b : Opd) : Nat := if isImm b then 16 else 8

def isScalarOpd : Opd → Bool
  | .s _ => true
  | .imm _ => true
  | _ => false

def isVecDst : Dst → Bool
  | .v _ => true
  | _ => false

/-- An integer or bit instruction is in the Primer's set when every operand is a scalar, an immediate or a push
(R26, R89). -/
def scalarPlace (d : Dst) (srcs : List Opd) : Place :=
  { primer := !isVecDst d && srcs.all isScalarOpd }

/-- Bits that a destination register of a type holds: 32 in a vector register (64 for a pair), 64 in a scalar, 32 in
a channel entry (R67). -/
def dstBits (d : Dst) (t : Ty) : Nat :=
  match d with
  | .v _ => if Ty.bits t = 64 then 64 else 32
  | .s _ => 64
  | .push _ => 32

/-- The one result of an element-wise integer operation, filled to its register (R67). -/
def fillDst (d : Dst) (t : Ty) (x : Nat) : Nat := fillTo t (dstBits d t) x

/-- An element-wise operation of types `ts` for its sources and `td` for its result; `f` takes the sources' values
narrowed to their types, in order. -/
def lanewise (s : State) (h : Hdr) (pl : Place) (late : Bool) (d : Dst) (td : Ty) (srcs : List (Src × Nat))
    (f : List Nat → Nat) (size : Nat) : State :=
  regInstr s { sw := h.sw, size := size, srcs := srcs.map (·.1), late := late, dsts := dstRef d (Ty.regs td) 0,
               push := pushOf d } h.km pl [] [] false
    fun x lanes vs =>
      .ok (putDst x lanes d (Ty.regs td) fun l =>
        fillDst d td (f ((List.range srcs.length).map fun i =>
          val vs i l % 2 ^ (((srcs[i]?).map (·.2)).getD 32))))

def intOp1 (s : State) (h : Hdr) (t td : Ty) (d : Dst) (a : Opd) (f : Nat → Nat) : State :=
  lanewise s h (scalarPlace d [a]) false d td [(srcOf a (Ty.regs t) 1 h.la, Ty.bits t)]
    (fun v => f ((v[0]?).getD 0)) 8

def intOp2 (s : State) (h : Hdr) (late : Bool) (t : Ty) (d : Dst) (a b : Opd) (f : Nat → Nat → Nat) : State :=
  lanewise s h (scalarPlace d [a, b]) late d t
    [(srcOf a (Ty.regs t) 1 h.la, Ty.bits t), (srcOf b (Ty.regs t) 2 h.lb, Ty.bits t)]
    (fun v => f ((v[0]?).getD 0) ((v[1]?).getD 0)) (sizeOf b)

/-- As `intOp2`, with a second operand that is read as 32 bits whatever the type: a count or a control (R94, R95). -/
def intOpCount (s : State) (h : Hdr) (t : Ty) (d : Dst) (a b : Opd) (f : Nat → Nat → Nat) : State :=
  lanewise s h (scalarPlace d [a, b]) false d t
    [(srcOf a (Ty.regs t) 1 h.la, Ty.bits t), (srcOf b 1 2 h.lb, 32)]
    (fun v => f ((v[0]?).getD 0) ((v[1]?).getD 0)) (sizeOf b)

def intOp3 (s : State) (h : Hdr) (t : Ty) (d : Dst) (a b c : Opd) (f : Nat → Nat → Nat → Nat) : State :=
  lanewise s h (scalarPlace d [a, b, c]) false d t
    [(srcOf a (Ty.regs t) 1 h.la, Ty.bits t), (srcOf b (Ty.regs t) 2 h.lb, Ty.bits t),
     (srcOf c (Ty.regs t) 3 h.lc, Ty.bits t)]
    (fun v => f ((v[0]?).getD 0) ((v[1]?).getD 0) ((v[2]?).getD 0)) (sizeOf b)

/-- Bits of an integer result modulo 2^n. -/
def wrapT (t : Ty) (x : Int) : Nat := wrapInt (Ty.bits t) x

/-- A condition code over integers (R92). -/
def intCond (cc : CC) (a b : Int) : Bool :=
  match cc with
  | .eq => decide (a = b)
  | .ne => decide (a ≠ b)
  | .lt => decide (a < b)
  | .le => decide (a ≤ b)
  | .gt => decide (b < a)
  | .ge => decide (b ≤ a)
  | .un => false
  | .or => true

end Sys2Proof.Machine
end

