-- ==== Sys2Proof/Machine/Integer.lean ====
section
/-! DEFINITION. The integer and bit instructions (spec/05_alu_instructions.md R90-R95). -/

namespace Sys2Proof.Machine
open Sys2Proof

abbrev Out := Host.Outcome State Fault Refusal

def execIadd (h : Hdr) (t : Ty) (d : Dst) (a b : Opd) (s : State) : Out :=
  .next (intOp2 s h false t d a b fun x y => x + y)

def execIsub (h : Hdr) (t : Ty) (d : Dst) (a b : Opd) (s : State) : Out :=
  .next (intOp2 s h false t d a b fun x y => wrapT t ((x : Int) - y))

/-- IADDC (R92). With a scalar destination the addition is performed once, with the carry of the lowest active lane
in, and the carry out goes to every active lane. -/
def execIaddc (h : Hdr) (t : Ty) (z : Bool) (kc : Nat) (d : Dst) (a b : Opd) (s : State) : Out :=
  .next (regInstr s
    { sw := h.sw, size := sizeOf b, dsts := dstRef d (Ty.regs t) 0 ++ [.k kc 0], push := pushOf d
      srcs := [srcOf a (Ty.regs t) 1 h.la, srcOf b (Ty.regs t) 2 h.lb] }
    h.km {} (if z then [] else [.k kc 1]) [] false
    fun x lanes vs =>
      let n := Ty.bits t
      let k := kReg x.a kc
      let one := (lowestLane lanes x.w).getD 0
      let cin := fun l => if z then 0 else if k.getLsbD (if isVecDst d then l else one) then 1 else 0
      let sum := fun l => val vs 0 l % 2 ^ n + val vs 1 l % 2 ^ n + cin l
      let w := putDst x lanes d (Ty.regs t) fun l => sum l % 2 ^ n
      let carry := maskOf x.w fun l => bitAt (sum l) n
      .ok { w with k := [(kc, lanes, carry)] })

def execIadds (h : Hdr) (t : Ty) (sub : Bool) (d : Dst) (a b : Opd) (s : State) : Out :=
  .next (intOp2 s h false t d a b fun x y =>
    wrapT t (clampInt (intMin t) (intMax t) (if sub then intVal t x - intVal t y else intVal t x + intVal t y)))

def execImul (h : Hdr) (t : Ty) (d : Dst) (a b : Opd) (s : State) : Out :=
  .next (intOp2 s h false t d a b fun x y => x * y)

def execImulh (h : Hdr) (t : Ty) (d : Dst) (a b : Opd) (s : State) : Out :=
  .next (intOp2 s h false t d a b fun x y => wrapT t (intVal t x * intVal t y / ((2 ^ Ty.bits t : Nat) : Int)))

def execImad (h : Hdr) (t : Ty) (d : Dst) (a b c : Opd) (s : State) : Out :=
  .next (intOp3 s h t d a b c fun x y z => x * y + z)

/-- The quotient and remainder of R91. -/
def divRem (t : Ty) (x y : Nat) : Nat × Nat :=
  let n := Ty.bits t
  let a := intVal t x
  let b := intVal t y
  if b = 0 then
    (if !Ty.signed t then 2 ^ n - 1 else if 0 ≤ a then 2 ^ (n - 1) - 1 else 2 ^ (n - 1), x)
  else if Ty.signed t ∧ a = intMin t ∧ b = -1 then (x, 0)
  else (wrapT t (a.tdiv b), wrapT t (a.tmod b))

def execIdiv (h : Hdr) (t : Ty) (d : Dst) (a b : Opd) (s : State) : Out :=
  .next (intOp2 s h true t d a b fun x y => (divRem t x y).1)

def execIrem (h : Hdr) (t : Ty) (d : Dst) (a b : Opd) (s : State) : Out :=
  .next (intOp2 s h true t d a b fun x y => (divRem t x y).2)

def execImin (h : Hdr) (t : Ty) (d : Dst) (a b : Opd) (s : State) : Out :=
  .next (intOp2 s h false t d a b fun x y => if intVal t y < intVal t x then y else x)

def execImax (h : Hdr) (t : Ty) (d : Dst) (a b : Opd) (s : State) : Out :=
  .next (intOp2 s h false t d a b fun x y => if intVal t x < intVal t y then y else x)

def execIabs (h : Hdr) (t : Ty) (sat : Bool) (d : Dst) (a : Opd) (s : State) : Out :=
  .next (intOp1 s h t t d a fun x =>
    let v : Int := (intVal t x).natAbs
    wrapT t (if sat then clampInt (intMin t) (intMax t) v else v))

/-- LEA (R90): a and d are 64-bit; b is extended from T and shifted. -/
def execLea (h : Hdr) (t : Ty) (sh : Nat) (d : Dst) (a b : Opd) (s : State) : Out :=
  .next (lanewise s h (scalarPlace d [a, b]) false d .n64
    [(srcOf a 2 1 h.la, 64), (srcOf b (Ty.regs t) 2 h.lb, Ty.bits t)]
    (fun v => wrapInt 64 ((((v[0]?).getD 0 : Nat) : Int) + intVal t ((v[1]?).getD 0) * (2 ^ sh : Nat))) (sizeOf b))

/-- ICMP: one bit per active lane of kd (R92). -/
def execIcmp (h : Hdr) (t : Ty) (cc : CC) (kd : KReg) (a b : Opd) (s : State) : Out :=
  .next (regInstr s
    { sw := h.sw, size := sizeOf b, dsts := [kRef kd 0]
      srcs := [srcOf a (Ty.regs t) 1 h.la, srcOf b (Ty.regs t) 2 h.lb] }
    h.km { meld := kd != .em } [] [] false
    fun x lanes vs =>
      .ok { k := [(kIndex kd, lanes, maskOf x.w fun l => intCond cc (intVal t (val vs 0 l)) (intVal t (val vs 1 l)))] })

/-- SEL (R90): a where the lane's bit of ks is 1, else b. -/
def execSel (h : Hdr) (t : Ty) (ks : Nat) (d : Dst) (a b : Opd) (s : State) : Out :=
  .next (regInstr s
    { sw := h.sw, size := sizeOf b, dsts := dstRef d (Ty.regs t) 0, push := pushOf d
      srcs := [srcOf a (Ty.regs t) 1 h.la, srcOf b (Ty.regs t) 2 h.lb] }
    h.km {} [.k ks 1] [] false
    fun x lanes vs =>
      let k := kReg x.a ks
      .ok (putDst x lanes d (Ty.regs t) fun l =>
        fillDst d t (if k.getLsbD l then val vs 0 l else val vs 1 l)))

def execMov (h : Hdr) (t : Ty) (d : Dst) (a : Opd) (s : State) : Out := .next (intOp1 s h t t d a id)

/-! ## Bit instructions (R93-R95) -/

def execAnd (h : Hdr) (t : Ty) (d : Dst) (a b : Opd) (s : State) : Out :=
  .next (intOp2 s h false t d a b fun x y => x &&& y)

def execOr (h : Hdr) (t : Ty) (d : Dst) (a b : Opd) (s : State) : Out :=
  .next (intOp2 s h false t d a b fun x y => x ||| y)

def execXor (h : Hdr) (t : Ty) (d : Dst) (a b : Opd) (s : State) : Out :=
  .next (intOp2 s h false t d a b fun x y => x ^^^ y)

def execAndn (h : Hdr) (t : Ty) (d : Dst) (a b : Opd) (s : State) : Out :=
  .next (intOp2 s h false t d a b fun x y => x &&& (2 ^ Ty.bits t - 1 - y))

/-- The shifts and rotates of R94 on n bits. -/
def shlN (n a b : Nat) : Nat := if n ≤ b then 0 else a * 2 ^ b % 2 ^ n
def shrN (n a b : Nat) : Nat := if n ≤ b then 0 else a % 2 ^ n / 2 ^ b
def sarN (n a b : Nat) : Nat := wrapInt n (signedOf n a / ((2 ^ min b n : Nat) : Int))
def rotN (n : Nat) (right : Bool) (a b : Nat) : Nat :=
  let k := if right then (n - b % n) % n else b % n
  let x := a % 2 ^ n
  (x * 2 ^ k) % 2 ^ n + x / 2 ^ (n - k)

def execShl (h : Hdr) (t : Ty) (d : Dst) (a b : Opd) (s : State) : Out :=
  .next (intOpCount s h t d a b fun x y => shlN (Ty.bits t) x y)

def execShr (h : Hdr) (t : Ty) (d : Dst) (a b : Opd) (s : State) : Out :=
  .next (intOpCount s h t d a b fun x y => shrN (Ty.bits t) x y)

def execSar (h : Hdr) (t : Ty) (d : Dst) (a b : Opd) (s : State) : Out :=
  .next (intOpCount s h t d a b fun x y => sarN (Ty.bits t) x y)

def execRot (h : Hdr) (t : Ty) (right : Bool) (d : Dst) (a b : Opd) (s : State) : Out :=
  .next (intOpCount s h t d a b fun x y => rotN (Ty.bits t) right x y)

/-- The number of 1 bits below n. -/
def popN (n x : Nat) : Nat := ((List.range n).filter fun i => bitAt x i).length

/-- The number of 0 bits above the highest 1 bit of n bits. -/
def clzN (n x : Nat) : Nat := if x % 2 ^ n = 0 then n else n - 1 - Nat.log2 (x % 2 ^ n)

def brevN (n x : Nat) : Nat := natOfBits (fun j => bitAt x (n - 1 - j)) n

def execPopc (h : Hdr) (t : Ty) (d : Dst) (a : Opd) (s : State) : Out :=
  .next (intOp1 s h t .n32 d a (popN (Ty.bits t)))

def execClz (h : Hdr) (t : Ty) (d : Dst) (a : Opd) (s : State) : Out :=
  .next (intOp1 s h t .n32 d a (clzN (Ty.bits t)))

def execBrev (h : Hdr) (t : Ty) (d : Dst) (a : Opd) (s : State) : Out :=
  .next (intOp1 s h t t d a (brevN (Ty.bits t)))

/-- BFE's field (R95). -/
def bfeN (n : Nat) (sgn : Bool) (a ctl : Nat) : Nat :=
  let pos := ctl % 256
  let len := ctl / 256 % 256
  if len = 0 ∨ n ≤ pos then 0
  else
    let m := min len (n - pos)
    let f := bitsAt a (pos + m - 1) pos
    if sgn then wrapInt n (signedOf m f) else f

/-- BFI's result (R95). -/
def bfiN (n : Nat) (a ctl c : Nat) : Nat :=
  let pos := ctl % 256
  let len := ctl / 256 % 256
  let m := if n ≤ pos then 0 else min len (n - pos)
  c - bitsAt c (pos + m - 1) pos * (if m = 0 then 0 else 2 ^ pos) + a % 2 ^ m * 2 ^ pos * (if m = 0 then 0 else 1)

def execBfe (h : Hdr) (t : Ty) (sgn : Bool) (d : Dst) (a b : Opd) (s : State) : Out :=
  .next (lanewise s h (scalarPlace d [a, b]) false d t
    [(srcOf a (Ty.regs t) 1 h.la, Ty.bits t), (srcOf b 1 2 h.lb, 16)]
    (fun v => bfeN (Ty.bits t) sgn ((v[0]?).getD 0) ((v[1]?).getD 0)) (sizeOf b))

def execBfi (h : Hdr) (t : Ty) (d : Dst) (a b c : Opd) (s : State) : Out :=
  .next (lanewise s h (scalarPlace d [a, b, c]) false d t
    [(srcOf a (Ty.regs t) 1 h.la, Ty.bits t), (srcOf b 1 2 h.lb, 16), (srcOf c (Ty.regs t) 3 h.lc, Ty.bits t)]
    (fun v => bfiN (Ty.bits t) ((v[0]?).getD 0) ((v[1]?).getD 0) ((v[2]?).getD 0)) (sizeOf b))

/-- PRMT's byte selection (R95). -/
def prmtN (a b c : Nat) : Nat :=
  let byte := fun (k : Nat) => bitsAt (a + b * 2 ^ 32) (8 * k + 7) (8 * k)
  ofBytes ((List.range 4).map fun j =>
    let sel := bitsAt c (4 * j + 3) (4 * j)
    let x := byte (sel % 8)
    BitVec.ofNat 8 (if sel < 8 then x else if 128 ≤ x then 255 else 0))

def execPrmt (h : Hdr) (d : Dst) (a b c : Opd) (s : State) : Out :=
  .next (intOp3 s h .b32 d a b c prmtN)

def execMovi (h : Hdr) (t : Ty) (d : Dst) (v : DWord) (s : State) : Out :=
  .next (lanewise s h (scalarPlace d []) false d t [(srcOf (.imm v) 1 2 false, Ty.bits t)]
    (fun vs => (vs[0]?).getD 0) 16)

end Sys2Proof.Machine
end

