-- ==== Sys2Proof/Machine/Float.lean ====
section
/-! DEFINITION. The floating-point instructions (spec/05_alu_instructions.md R96-R99). -/

namespace Sys2Proof.Machine
open Sys2Proof

/-- Elements of an operand: one, or the pair of a packed form (R67, R96). -/
def elemCount (pk : Bool) : Nat := if pk then 2 else 1

def elemBits (t : Ty) (pk : Bool) : Nat := if pk then 32 else Ty.bits t

/-- Element e of a value. -/
def elemOf (t : Ty) (e x : Nat) : Nat := x / 2 ^ (16 * e) % 2 ^ Ty.bits t

/-- The flags that the active lanes meet, OR-ed (R85). -/
def orFlags (lanes : List Nat) (f : Nat → BitVec 6) : BitVec 6 := lanes.foldl (fun m l => m ||| f l) 0

/-- Joins the elements' results: the value of a lane and the flags it meets. -/
def joinElems (pk : Bool) (g : Nat → Nat × BitVec 6) : Nat × BitVec 6 :=
  if pk then
    let a := g 0
    let b := g 1
    (a.1 + b.1 * 2 ^ 16, a.2 ||| b.2)
  else g 0

/-- The lanes whose flags count: the active ones, or the one operation of a scalar destination (R87). -/
def flagLanes (x : Ctxt) (d : Dst) (lanes : Mask) : List Nat :=
  if isVecDst d then laneList lanes x.w else [0]

/-- An element-wise floating-point instruction. `f` takes the rounding mode with its word and the elements' codes,
and gives the result code and the flags. Element index under `.rsk`: 2 × LANEID + h, or h for a scalar
destination (R81, R96). -/
def floatOp (s : State) (h : Hdr) (late : Bool) (t : Ty) (pk : Bool) (rnd : Option Rnd) (d : Dst) (srcs : List Src)
    (f : RMode → List Nat → Nat × BitVec 6) (size : Nat) (tr : Ty := t) : State :=
  regInstr s
    { sw := h.sw, size := size, srcs := srcs, late := late, dsts := dstRef d 1 0, push := pushOf d
      bump := rnd == some .rsk }
    h.km {} [] [] false
    fun x lanes vs =>
      let one := fun (l : Nat) =>
        joinElems pk fun e =>
          let md := rmodeOf (rnd.getD .rne) x.c.rkey x.a.rstep.toNat ((if isVecDst d then 2 * l else 0) + e)
          f md ((List.range srcs.length).map fun i => elemOf t e (val vs i l))
      let w := putDst x lanes d 1 fun l => fillDst d (if pk then .b32 else tr) (one l).1
      .ok { w with fl := orFlags (flagLanes x d lanes) fun l => (one l).2 }

/-- Rounds an exact result and adds the flags of forming it. -/
def finish (t : Ty) (md : RMode) (sat : Bool) (r : Fl × BitVec 6) : Nat × BitVec 6 :=
  let q := roundFl (fmtOfTy t) md sat r.1
  (q.1, r.2 ||| q.2)

def dec (t : Ty) (v : List Nat) (i : Nat) : Fl := decodeFl (fmtOfTy t) ((v[i]?).getD 0)

def float1 (s : State) (h : Hdr) (late : Bool) (t : Ty) (m : FMode) (d : Dst) (a : Opd)
    (f : RMode → Fl → Nat × BitVec 6) : State :=
  floatOp s h late t m.pk (some m.rnd) d [srcOf a 1 1 h.la] (fun md v => f md (dec t v 0)) 8

def float2 (s : State) (h : Hdr) (late : Bool) (t : Ty) (m : FMode) (d : Dst) (a b : Opd)
    (f : Rnd → Fl → Fl → Fl × BitVec 6) : State :=
  floatOp s h late t m.pk (some m.rnd) d [srcOf a 1 1 h.la, srcOf b 1 2 h.lb]
    (fun md v => finish t md m.sat (f md.mode (dec t v 0) (dec t v 1))) (sizeOf b)

def execFadd (h : Hdr) (t : Ty) (m : FMode) (d : Dst) (a b : Opd) (s : State) : Out :=
  .next (float2 s h false t m d a b flAdd)

def execFsub (h : Hdr) (t : Ty) (m : FMode) (d : Dst) (a b : Opd) (s : State) : Out :=
  .next (float2 s h false t m d a b fun r x y => flAdd r x y.neg)

def execFmul (h : Hdr) (t : Ty) (m : FMode) (d : Dst) (a b : Opd) (s : State) : Out :=
  .next (float2 s h false t m d a b fun _ x y => flMul x y)

def execFfma (h : Hdr) (t : Ty) (m : FMode) (d : Dst) (a b c : Opd) (s : State) : Out :=
  .next (floatOp s h false t m.pk (some m.rnd) d [srcOf a 1 1 h.la, srcOf b 1 2 h.lb, srcOf c 1 3 h.lc]
    (fun md v => finish t md m.sat (flFma md.mode (dec t v 0) (dec t v 1) (dec t v 2))) (sizeOf b))

/-- FMIN and FMAX return an operand as it stands, or the canonical NaN (R97). -/
def execFmin (h : Hdr) (t : Ty) (pk : Bool) (d : Dst) (a b : Opd) (s : State) : Out :=
  .next (floatOp s h false t pk none d [srcOf a 1 1 h.la, srcOf b 1 2 h.lb]
    (fun md v => finish t md false (flMinMax false (dec t v 0) (dec t v 1))) (sizeOf b))

def execFmax (h : Hdr) (t : Ty) (pk : Bool) (d : Dst) (a b : Opd) (s : State) : Out :=
  .next (floatOp s h false t pk none d [srcOf a 1 1 h.la, srcOf b 1 2 h.lb]
    (fun md v => finish t md false (flMinMax true (dec t v 0) (dec t v 1))) (sizeOf b))

def execFcmp (h : Hdr) (t : Ty) (cc : CC) (kd : KReg) (a b : Opd) (s : State) : Out :=
  .next (regInstr s
    { sw := h.sw, size := sizeOf b, dsts := [kRef kd 0], srcs := [srcOf a 1 1 h.la, srcOf b 1 2 h.lb] }
    h.km { meld := kd != .em } [] [] false
    fun x lanes vs =>
      let one := fun (l : Nat) => flCmp cc (decodeFl (fmtOfTy t) (val vs 0 l % 2 ^ Ty.bits t))
        (decodeFl (fmtOfTy t) (val vs 1 l % 2 ^ Ty.bits t))
      .ok { k := [(kIndex kd, lanes, maskOf x.w fun l => (one l).1)]
            fl := orFlags (laneList lanes x.w) fun l => (one l).2 })

def execFdiv (h : Hdr) (t : Ty) (m : FMode) (d : Dst) (a b : Opd) (s : State) : Out :=
  .next (float2 s h true t m d a b fun _ x y => flDiv x y)

def execFsqrt (h : Hdr) (t : Ty) (m : FMode) (d : Dst) (a : Opd) (s : State) : Out :=
  .next (float1 s h true t m d a fun md x => finish t md m.sat (flSqrt x))

def execFrcp (h : Hdr) (t : Ty) (m : FMode) (d : Dst) (a : Opd) (s : State) : Out :=
  .next (float1 s h true t m d a fun md x => finish t md m.sat (flRcp x))

def execFrsq (h : Hdr) (t : Ty) (m : FMode) (d : Dst) (a : Opd) (s : State) : Out :=
  .next (float1 s h true t m d a fun md x => finish t md m.sat (flRsq x))

def execFex2 (h : Hdr) (t : Ty) (m : FMode) (d : Dst) (a : Opd) (s : State) : Out :=
  .next (float1 s h true t m d a fun md x => roundEx2 (fmtOfTy t) md m.sat x)

def execFlg2 (h : Hdr) (t : Ty) (m : FMode) (d : Dst) (a : Opd) (s : State) : Out :=
  .next (float1 s h true t m d a fun md x => roundLg2 (fmtOfTy t) md m.sat x)

def execFtanh (h : Hdr) (t : Ty) (m : FMode) (d : Dst) (a : Opd) (s : State) : Out :=
  .next (float1 s h true t m d a fun md x => roundTanh (fmtOfTy t) md m.sat x)

/-- FRND never sets INEXACT: the rounded integer is held exactly (R97). -/
def execFrnd (h : Hdr) (t : Ty) (pk : Bool) (rnd : Rnd) (d : Dst) (a : Opd) (s : State) : Out :=
  .next (floatOp s h false t pk (some rnd) d [srcOf a 1 1 h.la]
    (fun md v => finish t md false (flRound md (dec t v 0))) 8)

def execFclass (h : Hdr) (t : Ty) (pk : Bool) (d : Dst) (a : Opd) (s : State) : Out :=
  .next (floatOp s h false t pk none d [srcOf a 1 1 h.la]
    (fun _ v => (flClass (fmtOfTy t) ((v[0]?).getD 0), 0)) 8 .n32)

/-- FDOT2 (R97): pairs a and b of T, c and d `.f32`, one rounding. 0 × ∞ sets INVALID beside a quiet NaN too (log 126). -/
def execFdot2 (h : Hdr) (t : Ty) (sat : Bool) (rnd : Rnd) (d : Dst) (a b c : Opd) (s : State) : Out :=
  .next (floatOp s h false .f32 false (some rnd) d [srcOf a 1 1 h.la, srcOf b 1 2 h.lb, srcOf c 1 3 h.lc]
    (fun md v =>
      let el := fun (i e : Nat) => decodeFl (fmtOfTy t) (elemOf t e ((v[i]?).getD 0))
      let p := flMul (el 0 0) (el 1 0)
      let q := flMul (el 0 1) (el 1 1)
      let c := decodeFl fmtF32 ((v[2]?).getD 0)
      -- the exact sum: a zero sum takes its sign by R70 from all three terms
      let u := flAdd md.mode p.1 q.1
      let r := flAdd md.mode u.1 c
      finish .f32 md sat (r.1, p.2 ||| q.2 ||| u.2 ||| r.2 ||| sigFlag [c])) (sizeOf b))

/-- FSCALE: b is one `.i32` for every element (R97). -/
def execFscale (h : Hdr) (t : Ty) (m : FMode) (d : Dst) (a b : Opd) (s : State) : Out :=
  .next (regInstr s
    { sw := h.sw, size := sizeOf b, srcs := [srcOf a 1 1 h.la, srcOf b 1 2 h.lb], dsts := dstRef d 1 0
      push := pushOf d, bump := m.rnd == .rsk }
    h.km {} [] [] false
    fun x lanes vs =>
      let one := fun (l : Nat) =>
        joinElems m.pk fun e =>
          let md := rmodeOf m.rnd x.c.rkey x.a.rstep.toNat ((if isVecDst d then 2 * l else 0) + e)
          finish t md m.sat (flScale (decodeFl (fmtOfTy t) (elemOf t e (val vs 0 l))) (signedOf 32 (val vs 1 l)))
      let w := putDst x lanes d 1 fun l => fillDst d (if m.pk then .b32 else t) (one l).1
      .ok { w with fl := orFlags (flagLanes x d lanes) fun l => (one l).2 })

end Sys2Proof.Machine
end

