-- ==== Sys2Proof/Machine/Convert.lean ====
section
/-! DEFINITION. The conversion instructions (spec/05_alu_instructions.md R100-R103; formats of
spec/04_number_formats.md R68-R75). -/

namespace Sys2Proof.Machine
open Sys2Proof

/-- The value of a code of a CVT type. -/
def typeValue (t : Ty) (x : Nat) : Fl :=
  if Ty.isFloat t then decodeFl (fmtOfTy t) x
  else let v := intVal t x; .fin (decide (v < 0)) v.natAbs 1

/-- Round to a type of R36: the code and the flags (R76, R78). -/
def roundType (t : Ty) (md : RMode) (v : Fl) : Nat × BitVec 6 :=
  if Ty.isFloat t then roundFl (fmtOfTy t) md false v
  else let r := roundInt (intMin t) (intMax t) md v; (wrapT t r.1, r.2)

/-- CVT (R100); the element index under `.rsk` is 2 × LANEID. -/
def execCvt (h : Hdr) (td ts : Ty) (rnd : Rnd) (d : Dst) (a : Opd) (s : State) : Out :=
  .next (regInstr s
    { sw := h.sw, size := 8, srcs := [srcOf a (Ty.regs ts) 1 h.la], dsts := dstRef d (Ty.regs td) 0
      push := pushOf d, bump := rnd == .rsk }
    h.km {} [] [] false
    fun x lanes vs =>
      let one := fun (l : Nat) =>
        let v := typeValue ts (val vs 0 l % 2 ^ Ty.bits ts)
        let r := roundType td (rmodeOf rnd x.c.rkey x.a.rstep.toNat (if isVecDst d then 2 * l else 0)) v
        (r.1, r.2 ||| sigFlag [v])
      let w := putDst x lanes d (Ty.regs td) fun l => fillDst d td (one l).1
      .ok { w with fl := orFlags (flagLanes x d lanes) fun l => (one l).2 })

/-! ## Element formats (R101) -/

def elemFmt : Elem → Option FFmt
  | .e4m3 => some fmtE4m3
  | .e5m2 => some fmtE5m2
  | .e2m3 => some fmtE2m3
  | .e3m2 => some fmtE3m2
  | .e2m1 => some fmtE2m1
  | _ => none

/-- The range of an integer element, and how many fraction bits it has. -/
def elemRange : Elem → Int × Int × Nat
  | .i8 => (-128, 127, 0)
  | .i4 => (-8, 7, 0)
  | .mxi8 => (-128, 127, 6)
  | _ => (-1, 1, 0)

def elemWidth : Elem → Nat
  | .i4 => 4
  | .e2m1 => 4
  | .e2m3 => 6
  | .e3m2 => 6
  | _ => 8

/-- A 32-bit register holding an element code: sign-extended for the integer elements (R101). -/
def elemCode (el : Elem) (c : Nat) : Nat :=
  match elemFmt el with
  | some _ => c % 2 ^ elemWidth el
  | none => wrapInt 32 (signedOf (elemWidth el) c)

/-- QNT of an `.f32` code with scale X (R101). -/
def qntLane (el : Elem) (md : RMode) (a xs : Nat) : Nat × BitVec 6 :=
  let v := decodeFl fmtF32 a
  let bad : Nat × BitVec 6 :=
    match elemFmt el with
    | some f => ((nanCode f).1, flInvalid)
    | none => (0, flInvalid)
  if xs = 255 then bad
  else
    let y := match v with
      | .fin neg n q => let (a, b) := scaleQ n q (127 - (xs : Int)); Fl.fin neg a b
      | _ => v
    match elemFmt el with
    | some f =>
      let r := roundFl f md true y
      (r.1, r.2 ||| sigFlag [v])
    | none =>
      let (lo, hi, fb) := elemRange el
      let y' := match y with
        | .fin neg n q => Fl.fin neg (n * 2 ^ fb) q
        | _ => y
      let r := roundInt lo hi md y'
      (wrapInt 32 r.1, r.2 ||| sigFlag [v])

/-- The value of an element code (R69, R71, R101), BADPACK for a code that is no trit. -/
def elemValue (el : Elem) (c : Nat) : Fl × BitVec 6 :=
  match elemFmt el with
  | some f => (decodeFl f (c % 2 ^ elemWidth el), 0)
  | none =>
    let v := signedOf (elemWidth el) c
    let t := if el = .trit then clampInt (-1) 1 v else v
    (.fin (decide (t < 0)) t.natAbs (2 ^ (elemRange el).2.2), if t = v then 0 else flBadpack)

/-- DQNT of a code with scale X (R101, R73). Reading a code that is no trit sets BADPACK whatever X is (DEDUCED, log
61). -/
def dqntLane (el : Elem) (md : RMode) (a xs : Nat) : Nat × BitVec 6 :=
  let (v, fl) := elemValue el a
  if xs = 255 ∨ v.isNan then (0x7FC00000, flInvalid ||| fl)
  else
    let y := match v with
      | .fin neg n q => let (a, b) := scaleQ n q ((xs : Int) - 127); Fl.fin neg a b
      | _ => v
    let r := roundFl fmtF32 md false y
    (r.1, r.2 ||| fl)

def execQnt (h : Hdr) (el : Elem) (rnd : Rnd) (d : Dst) (a b : Opd) (s : State) : Out :=
  .next (floatOp s h false .f32 false (some rnd) d [srcOf a 1 1 h.la, srcOf b 1 2 h.lb]
    (fun md v => qntLane el md ((v[0]?).getD 0) ((v[1]?).getD 0 % 256)) (sizeOf b)
    (if (elemFmt el).isSome then .n32 else .i32))

def execDqnt (h : Hdr) (el : Elem) (rnd : Rnd) (d : Dst) (a b : Opd) (s : State) : Out :=
  .next (floatOp s h false .f32 false (some rnd) d [srcOf a 1 1 h.la, srcOf b 1 2 h.lb]
    (fun md v => dqntLane el md ((v[0]?).getD 0) ((v[1]?).getD 0 % 256)) (sizeOf b))

/-! ## Trits (R74, R75, R103) -/

/-- The five trits of a byte and whether it is 243 or more (R74). -/
def tritsOf (b : Nat) : List Int × Bool :=
  if 243 ≤ b then ([0, 0, 0, 0, 0], true)
  else ((List.range 5).map fun i => ((b / 3 ^ i % 3 : Nat) : Int) - 1, false)

/-- Σ (t_i + 1) 3^i over trits of range -1 to 1. -/
def packTrits : List Int → Nat
  | [] => 0
  | t :: r => (t + 1).toNat + 3 * packTrits r

/-- A byte as a trit: its sign where it is none, with BADPACK (R103). -/
def asTrit (b : Nat) : Int × BitVec 6 :=
  let v := signedOf 8 b
  let t := clampInt (-1) 1 v
  (t, if t = v then 0 else flBadpack)

def execTpack (h : Hdr) (d : Dst) (a b : Opd) (s : State) : Out :=
  .next (floatOp s h false .f32 false none d [srcOf a 1 1 h.la, srcOf b 1 2 h.lb]
    (fun _ v =>
      let x := (v[0]?).getD 0
      let ts := ((List.range 4).map fun i => asTrit (bitsAt x (8 * i + 7) (8 * i))) ++ [asTrit ((v[1]?).getD 0 % 256)]
      (packTrits (ts.map (·.1)), ts.foldl (fun m t => m ||| t.2) 0)) (sizeOf b) .n32)

def execTunpk (h : Hdr) (d : Dst) (a b : Opd) (s : State) : Out :=
  .next (floatOp s h false .f32 false none d [srcOf a 1 1 h.la, srcOf b 1 2 h.lb]
    (fun _ v =>
      let x := (v[0]?).getD 0
      let bs := (List.range 4).map fun i => tritsOf (bitsAt x (8 * i + 7) (8 * i))
      let ts := (bs.map (·.1)).flatten
      let j := (v[1]?).getD 0 % 32
      (ofBytes ((List.range 4).map fun m => BitVec.ofInt 8 ((ts[j + m]?).getD 0)),
        if bs.any (·.2) then flBadpack else 0)) (sizeOf b) .n32)

/-! ## PACK and UNPK (R102) -/

/-- A source value saturated to a range; where it is outside, INVALID, and INEXACT as the result differs (R102, R78). -/
def satPack (lo hi v : Int) (n : Nat) : Nat × BitVec 6 :=
  (wrapInt n (clampInt lo hi v), if v < lo ∨ hi < v then flInvalid ||| flInexact else 0)

def packBits (t : Ty) (nib : Bool) : Nat := if nib then 4 else Ty.bits t

/-- The range of a PACK element. -/
def packRange (t : Ty) (nib : Bool) : Int × Int :=
  if nib then (if Ty.signed t then (-8, 7) else (0, 15)) else (intMin t, intMax t)

def execPack (h : Hdr) (t : Ty) (nib : Bool) (rnd : Rnd) (d : Dst) (a b : Opd) (c : Option Opd) (s : State) : Out :=
  .next (regInstr s
    { sw := h.sw, size := sizeOf b, dsts := dstRef d 1 0, push := pushOf d
      bump := Ty.isFloat t && rnd == .rsk
      srcs := [srcOf a 1 1 h.la, srcOf b 1 2 h.lb] ++ (match c with
        | some o => [srcOf o 1 3 h.lc]
        | none => []) }
    h.km {} [] [] false
    fun x lanes vs =>
      let one := fun (l : Nat) =>
        let el := fun (i : Nat) =>
          let v := val vs i l % 2 ^ 32
          if Ty.isFloat t then
            let y := decodeFl fmtF32 v
            let r := roundFl (fmtOfTy t) (rmodeOf rnd x.c.rkey x.a.rstep.toNat ((if isVecDst d then 2 * l else 0) + i)) false y
            (r.1, r.2 ||| sigFlag [y])
          else
            let z : Int := if Ty.signed t then signedOf 32 v else (v : Int)
            satPack (packRange t nib).1 (packRange t nib).2 z (packBits t nib)
        let n := packBits t nib
        ((el 0).1 + (el 1).1 * 2 ^ n + val vs 2 l % 2 ^ (32 - 2 * n) * 2 ^ (2 * n), (el 0).2 ||| (el 1).2)
      let w := putDst x lanes d 1 fun l => (one l).1
      .ok { w with fl := orFlags (flagLanes x d lanes) fun l => (one l).2 })

def execUnpk (h : Hdr) (t : Ty) (nib : Bool) (_rnd : Rnd) (d : Dst) (a b : Opd) (s : State) : Out :=
  .next (floatOp s h false .f32 false none d [srcOf a 1 1 h.la, srcOf b 1 2 h.lb]
    (fun _ v =>
      let n := packBits t nib
      let j := (v[1]?).getD 0 % (32 / n)
      let c := (v[0]?).getD 0 / 2 ^ (n * j) % 2 ^ n
      if Ty.isFloat t then
        let y := decodeFl (fmtOfTy t) c
        let r := roundFl fmtF32 ⟨.rne, 0⟩ false y
        (r.1, r.2 ||| sigFlag [y])
      else (if Ty.signed t then wrapInt 32 (signedOf n c) else c, 0)) (sizeOf b) (if Ty.signed t then .i32 else .n32))

end Sys2Proof.Machine
end

