-- ==== Sys2Proof/Machine/Near.lean ====
section
/-! DEFINITION. What a core holds beside memory: the lines of its near cache and the rows of its recent table, and what
each kind of access does to them (spec/08_memory_instructions.md R165, R171; spec/10_order_cores.md R209;
spec/12_order_engines.md R233). -/

namespace Sys2Proof.Machine
open Sys2Proof

/-- Whether a line may be held in a core's near cache: not its own slice, no scratchpad, no remote device, no
publishable page (R165). -/
def cacheable (core pa : Nat) (pub : Bool) : Bool :=
  !pub && (match paKind pa with
    | .sram d t off => 128 * d + t != core && decide (4 * 2 ^ 20 ≤ off)
    | .lpddr _ => true
    | _ => false)

/-- Whether a row may be held in a core's recent table: no scratchpad of another core, no remote device, no publishable
page (R171, R203, R216). -/
def rowKept (core pa : Nat) (pub : Bool) : Bool :=
  !pub && (match paKind pa with
    | .sram d t off => 128 * d + t == core || decide (4 * 2 ^ 20 ≤ off)
    | .lpddr _ => true
    | _ => false)

def lineOf (pa : Nat) : Nat := pa / 128 * 128

/-- The pieces that a held line or row copies. -/
def linePlaces (l : CacheLine) : List (Nat × Nat) := (l.pa, l.bytes.length - (l.rest.map (·.2)).sum) :: l.rest

/-- Whether an address piece and a held line or row have a common byte. -/
def touches (segs : List (Nat × Nat)) (l : CacheLine) : Bool :=
  segs.any fun g => (linePlaces l).any fun p => decide (g.1 < p.1 + p.2) && decide (p.1 < g.1 + g.2)

/-- Lines of pieces that a core's near cache holds. -/
def nearLines (s : State) (core ctx : Nat) (segs : List (Nat × Nat)) : List (Nat × Nat) :=
  ((getCore s core).near.filter fun l => l.ctx == ctx && touches segs l).map fun l => (l.pa, l.bytes.length)

/-- Whether the home's line has no uncorrectable error: a line with one is never copied, so that no read of it is served
without the error (R347). -/
def lineSound (s : State) (pa n : Nat) : Bool := (segsBad s [(pa, n)]).isNone

/-- Copies of the lines of pieces in a core's near cache take the home's value (R209). -/
def refreshNear (s : State) (core ctx : Nat) (segs : List (Nat × Nat)) : State :=
  if nearLines s core ctx segs = [] then s
  else
    let c := getCore s core
    let fresh := fun (l : CacheLine) =>
      if l.ctx = ctx ∧ touches segs l then
        if lineSound s l.pa l.bytes.length then some { l with bytes := memRead s.mem l.pa l.bytes.length } else none
      else some l
    setCore s core { c with near := c.near.filterMap fresh }

/-- Whether an address lies in pieces. -/
def inSegs (segs : List (Nat × Nat)) (pa : Nat) : Bool :=
  segs.any fun g => decide (g.1 ≤ pa) && decide (pa < g.1 + g.2)

/-- The stored bytes of pieces in a core's copies of their lines (R165): the other bytes of a line stay as they are. -/
def updateNear (s : State) (core ctx : Nat) (segs : List (Nat × Nat)) : State :=
  if nearLines s core ctx segs = [] then s
  else
    let c := getCore s core
    setCore s core { c with near := c.near.map fun l =>
      if l.ctx = ctx ∧ touches segs l then
        { l with bytes := (List.range l.bytes.length).map fun i =>
            if inSegs segs (l.pa + i) then memGet s.mem (l.pa + i) else (l.bytes[i]?).getD 0 }
      else l }

/-- Rows of a core's recent table that hold a byte of the pieces leave it (R171, R233). -/
def dropRecent (s : State) (core ctx : Nat) (segs : List (Nat × Nat)) : State :=
  let c := getCore s core
  if c.recent.any fun l => l.ctx == ctx && touches segs l then
    setCore s core { c with recent := c.recent.filter fun l => !(l.ctx == ctx && touches segs l) }
  else s

/-- A read served at the home: the core's copies of the lines take the home's value, and the rows of what was read, or
of a line so replaced, leave its recent table (R209, R233). -/
def homeRead (s : State) (core ctx : Nat) (segs : List (Nat × Nat)) : State :=
  dropRecent (refreshNear s core ctx segs) core ctx (segs ++ nearLines s core ctx segs)

/-- A write by an agent or engine of a core: its near copies take the stored bytes and its rows leave (R165, R171). -/
def homeWrite (s : State) (core ctx : Nat) (segs : List (Nat × Nat)) : State :=
  dropRecent (updateNear s core ctx segs) core ctx segs

/-- Puts the home's value of a line into a core's near cache; the cache holds 2,048 lines, and the oldest line that is
not kept gives way (R6, R165). The fill is a read of the line at its home (R209, R233). -/
def fillLine (s : State) (core ctx pa : Nat) (keep : Bool) : State :=
  let s1 := dropRecent s core ctx [(lineOf pa, 128)]
  let c := getCore s1 core
  let rest := c.near.filter fun l => !(l.ctx == ctx && l.pa == lineOf pa)
  let rest := if 2048 ≤ rest.length then
      match rest.findIdx? fun l => !l.keep with
      | some i => rest.eraseIdx i
      | none => rest.drop 1
    else rest
  let new : List CacheLine :=
    if lineSound s (lineOf pa) 128 then [{ ctx := ctx, pa := lineOf pa, bytes := memRead s.mem (lineOf pa) 128, keep := keep }]
    else []
  setCore s1 core { c with near := rest ++ new }

/-- Puts a row that the gather engine fetched at its home into the recent table of 256 rows, the oldest giving way
(R171). -/
def fillRow (s : State) (core ctx : Nat) (segs : List (Nat × Nat)) : State :=
  match segs with
  | [] => s
  | g :: t =>
    let c := getCore s core
    let rest := if 256 ≤ c.recent.length then c.recent.drop 1 else c.recent
    setCore s core { c with recent := rest ++ [{ ctx := ctx, pa := g.1, bytes := readSegs s.mem segs, rest := t }] }

/-- One byte from a near-cache line, or from the home. -/
def nearByte (s : State) (lines : List CacheLine) (ctx pa : Nat) : Byte :=
  match lines.find? fun l => l.ctx == ctx && l.pa == lineOf pa with
  | some l => (l.bytes[pa - l.pa]?).getD 0
  | none => memGet s.mem pa

def nearBytes (s : State) (lines : List CacheLine) (ctx pa n : Nat) : List Byte :=
  (List.range n).map fun i => nearByte s lines ctx (pa + i)

/-- Whether every byte of the pieces has a copy in the near cache. -/
def allNear (lines : List CacheLine) (ctx : Nat) (segs : List (Nat × Nat)) : Bool :=
  segs.all fun g => (List.range g.2).all fun i => lines.any fun l => l.ctx == ctx && l.pa == lineOf (g.1 + i)

/-- The row of the recent table for pieces. -/
def recentRow (c : Core) (ctx : Nat) (segs : List (Nat × Nat)) : Option CacheLine :=
  c.recent.find? fun l => l.ctx == ctx && linePlaces l == segs

end Sys2Proof.Machine
end

