-- ==== Sys2Proof/Machine/Streams.lean ====
section
/-! DEFINITION. The barrier objects (spec/08_memory_instructions.md R178-R180) and the panel error record (R181,
R330). -/

namespace Sys2Proof.Machine
open Sys2Proof

/-! ## The panel error record (R181, R228, R330) -/

/-- Why a chunk fails: the reason of R330, whether the address is virtual, the address. -/
structure ChunkFault where
  reason : Nat
  virt : Bool
  addr : Nat
  drop : Bool := false
  /-- The erroneous word of this device, where the address names it through a window (R215). -/
  met : Option Nat := none

/-- A panel with one failure more in its error record. -/
def withError (p : Panel) (f : ChunkFault) : Panel :=
  { p with errCount := p.errCount + 1, errReason := f.reason, errVirtual := f.virt, errAddr := f.addr }

/-- Adds to the panel error record (R330), which a saved panel keeps. -/
def panelError (s : State) (panel : Nat) (f : ChunkFault) : State :=
  match getPanel s panel with
  | some p => setPanel s panel (withError p f)
  | none => { s with saved := tabMod s.saved panel fun v => { v with panel := withError v.panel f } }

/-- An uncorrectable word of a panel's scratchpad refuses an update that no chunk of its own can show: it is counted, and
goes to the panel error record (R330, R347, R348; log 123). -/
def refusedUpdate (s : State) (panel ctx w : Nat) : State :=
  panelError (uncorrectable s w ctx) panel { reason := 1, virt := false, addr := w }

/-! ## Barrier objects (R178) -/

/-- The object at a scratchpad offset as one 128-bit number. -/
def barObj (s : State) (p : Panel) (off : Nat) : Nat := ofBytes (memRead s.mem (scratchPa p off) 16)

/-- Writes bytes of a panel's scratchpad as an agent of its core: rows of them leave the core's recent table (R171, R225).
The bytes stay inside one granule. -/
def scratchWrite (s : State) (p : Panel) (off : Nat) (bs : List Byte) : State :=
  dropRecent { s with mem := memWrite s.mem (scratchPa p off) bs } p.core p.ctx [(scratchPa p off, bs.length)]

def setBarObj (s : State) (p : Panel) (off v : Nat) : State := scratchWrite s p off (bytesOf 16 v)

/-- The uncorrectable word under a barrier object. -/
def barBad (s : State) (p : Panel) (off : Nat) : Option Nat := segsBad s [(scratchPa p off, 16)]

/-- The core's own change of a barrier object; one whose word holds an error stays as it is (R347, log 123). -/
def changeBar (s : State) (panel off : Nat) (f : Nat → Nat) : State :=
  match getPanel s panel with
  | none => s
  | some p =>
    match barBad s p off with
    | some w => refusedUpdate s panel p.ctx w
    | none => setBarObj s p off (f (barObj s p off))

def barExpect (o : Nat) : Nat := bitsAt o 15 0
def barArrived (o : Nat) : Nat := bitsAt o 31 16
def barPhase (o : Nat) : Nat := bitsAt o 32 32
def barClass (o : Nat) : Nat := bitsAt o 34 33
def barPending (o : Nat) : Nat := bitsAt o 63 40
def barMembers (o : Nat) : Nat := bitsAt o 95 64

def mkBar (expect arrived phase cls pending members : Nat) : Nat :=
  expect % 2 ^ 16 + arrived % 2 ^ 16 * 2 ^ 16 + phase % 2 * 2 ^ 32 + cls % 4 * 2 ^ 33 + pending % 2 ^ 24 * 2 ^ 40 +
    members % 2 ^ 32 * 2 ^ 64

/-- The agents of a stroke released from a BAR go on behind it (R180). -/
def releaseBar (s : State) (stroke : Nat) : State :=
  { s with agents := tabMap (fun _ a =>
      if a.stroke = stroke ∧ a.barAt ≠ none then
        { a with run := .ready, barAt := none, pc := a.pc + 8, waitFrom := none }
      else a) s.agents }

/-- Completes the phase of an object where R178 lets it: ARRIVED becomes 0, PHASE flips, the members that arrived are
released. -/
def barCheck (s : State) (panel off : Nat) : State :=
  match getPanel s panel with
  | none => s
  | some p =>
    let o := barObj s p off
    if barBad s p off = none ∧ 1 ≤ barArrived o ∧ barArrived o = barExpect o ∧ barPending o = 0 then
      let s1 := setBarObj s p off (mkBar (barExpect o) 0 (1 - barPhase o) (barClass o) 0 (barMembers o))
      p.strokes.foldl (fun t k =>
        match getStroke t k with
        | some st => if st.arrivedAt = some off then releaseBar (setStroke t k { st with arrivedAt := none }) k else t
        | none => t) s1
    else s

/-- A stroke arrives when every live agent of it is parked at the object (R180). -/
def barArrive (s : State) (panel stroke off : Nat) : State :=
  match getPanel s panel, getStroke s stroke with
  | some p, some st =>
    if (strokeAgents s stroke).all fun g => g.2.barAt == some off then
      let s1 := changeBar s panel off fun o =>
        mkBar (barExpect o) (barArrived o + 1) (barPhase o) (barClass o) (barPending o) (barMembers o)
      if (barBad s p off).isSome then s1
      else barCheck (setStroke s1 stroke { st with arrivedAt := some off }) panel off
    else s
  | _, _ => s

/-- Takes back an arrival whose phase has not completed (R244, R332). -/
def barWithdraw (s : State) (panel stroke : Nat) : State :=
  match getStroke s stroke with
  | some st =>
    match st.arrivedAt with
    | some off =>
      setStroke (changeBar s panel off fun o =>
          mkBar (barExpect o) (barArrived o - 1) (barPhase o) (barClass o) (barPending o) (barMembers o))
        stroke { st with arrivedAt := none }
    | none => s
  | none => s

/-- EXIT of a member: it leaves MEMBERS and EXPECT of every registered object, which may complete a phase (R180). -/
def barExit (s : State) (panel idx : Nat) : State :=
  match getPanel s panel with
  | none => s
  | some p =>
    p.barriers.foldl (fun t off =>
      if (barBad t p off).isSome || bitAt (barMembers (barObj t p off)) idx then
        barCheck (changeBar t panel off fun o =>
          mkBar (barExpect o - 1) (barArrived o) (barPhase o) (barClass o) (barPending o) (barMembers o - 2 ^ idx)) panel off
      else t) s

end Sys2Proof.Machine
end

