-- ==== Sys2Proof/Machine/Control.lean ====
section
/-! DEFINITION. The control instructions but EXIT, and SRD, SWR, CLK (spec/02_encoding.md R39-R49, R357). -/

namespace Sys2Proof.Machine
open Sys2Proof

/-- The checks of a control instruction in the order of R322. `reads` are the registers it names. -/
def ctlGather (s : State) (x0 : Ctxt) (sw : Bool) (pl : Place) (reads : Ctxt → List Ref) : Eff (State × Ctxt) := do
  let lanes := x0.a.em
  checkPlace x0 lanes pl
  let (s, x) ← switchMark s x0 sw
  checkRegs x lanes [] (reads x)
  checkMeld x lanes pl
  checkReads x lanes (reads x)
  return (s, x)

/-- A control instruction: it acts whatever `em` holds (R357). -/
def ctlInstr (s : State) (sw : Bool) (pl : Place) (reads : List Ref) (body : State → Ctxt → Mask → Eff State) : State :=
  runAgent s fun x0 => do
    let (s, x) ← ctlGather s x0 sw pl fun _ => reads
    body s x x0.a.em

/-- CheckExec of R39. -/
def checkExec (s : State) (x : Ctxt) (lanes : Mask) (t : Nat) : Eff Unit :=
  match accessByte s x.p.ctx t .x with
  | .ok _ => .ok ()
  | .error f => .error (.trap (faultTrap f (BitVec.ofNat 64 t) lanes))

/-- RelTarget of R39. -/
def relTarget (s : State) (x : Ctxt) (lanes : Mask) (off : BitVec 36) : Eff VAddr :=
  let t : Int := (x.a.pc.toNat : Int) + off.toInt * 8
  if t < 0 ∨ (2 ^ 57 : Int) ≤ t then trapAt .xlate lanes 0 (BitVec.ofInt 64 t)
  else do
    checkExec s x lanes t.toNat
    return BitVec.ofNat 57 t.toNat

/-- Takes the branch where the condition holds. -/
def branchIf (s : State) (x : Ctxt) (lanes : Mask) (c : Bool) (off : BitVec 36) : Eff State :=
  if c then do
    let t ← relTarget s x lanes off
    return takeBranch s x.aid t
  else .ok (stepPc s x.aid 8)

def execNop (sw : Bool) (s : State) : Out :=
  .next (ctlInstr s sw { primer := true } [] fun s x _ => .ok (stepPc s x.aid 8))

def execLand (sw : Bool) (s : State) : Out :=
  .next (ctlInstr s sw { primer := true } [] fun s x _ => .ok (stepPc s x.aid 8))

def execBra (sw : Bool) (off : BitVec 36) (s : State) : Out :=
  .next (ctlInstr s sw { primer := true } [] fun s x lanes => branchIf s x lanes true off)

/-- The mask that a mask-form branch tests (R41). -/
def testMask (x : Ctxt) (km : Nat) : Mask := activeMask x.a km &&& lanesBelow x.w

/-- A mask-form branch, which reads the mask that it tests (R41). -/
def branchMask (s : State) (sw : Bool) (km : Nat) (off : BitVec 36) (c : Mask → Bool) : State :=
  runAgent s fun x0 => do
    let (s, x) ← ctlGather s x0 sw {} fun x => selRefs x km
    branchIf s x x0.a.em (c (testMask x km)) off

def execBrzMask (sw : Bool) (km : Nat) (off : BitVec 36) (s : State) : Out :=
  .next (branchMask s sw km off fun m => m == 0)

def execBrnzMask (sw : Bool) (km : Nat) (off : BitVec 36) (s : State) : Out :=
  .next (branchMask s sw km off fun m => m != 0)

def execBrzScalar (sw : Bool) (n : Nat) (off : BitVec 36) (s : State) : Out :=
  .next (ctlInstr s sw { primer := true } [.s n 1] fun s x lanes => branchIf s x lanes (sReg x.a n == 0) off)

def execBrnzScalar (sw : Bool) (n : Nat) (off : BitVec 36) (s : State) : Out :=
  .next (ctlInstr s sw { primer := true } [.s n 1] fun s x lanes => branchIf s x lanes (sReg x.a n != 0) off)

/-- Writes a scalar register of an agent. -/
def putS (s : State) (aid n : Nat) (v : DWord) : State :=
  match getAgent s aid with
  | none => s
  | some a => setAgent s aid (setSReg a n v)

def execCall (sw : Bool) (l : Nat) (off : BitVec 36) (s : State) : Out :=
  .next (ctlInstr s sw { meld := false } [.s l 0] fun s x lanes => do
    let t ← relTarget s x lanes off
    return takeBranch (putS s x.aid l ((x.a.pc + 8).setWidth 64)) x.aid t)

def execRet (sw _la : Bool) (t : Nat) (s : State) : Out :=
  .next (ctlInstr s sw { meld := false } [.s t 1] fun s x lanes => do
    let v := sReg x.a t
    if v.toNat % 8 ≠ 0 then trapAt .align lanes 0 v
    if 2 ^ 57 ≤ v.toNat then trapAt .xlate lanes 0 v
    checkExec s x lanes v.toNat
    return takeBranch s x.aid (v.setWidth 57))

def execLoop (sw : Bool) (n : Nat) (off : BitVec 36) (s : State) : Out :=
  .next (ctlInstr s sw { primer := true } [.s n 1] fun s x lanes =>
    let c := sReg x.a n
    if c = 0 then .ok (stepPc s x.aid 8)
    else if c = 1 then .ok (stepPc (putS s x.aid n 0) x.aid 8)
    else do
      let t ← relTarget s x lanes off
      return takeBranch (putS s x.aid n (c - 1)) x.aid t)

/-- RGN (R45): the staged names; dead names are ignored. -/
def execRgn (sw : Bool) (win : Nat) (app : Bool) (names : DWord) (s : State) : Out :=
  .next (ctlInstr s sw {} [] fun s x _ =>
    let ns := ((List.range 64).filter fun b => names.getLsbD b).map fun b => 64 * win + b
    let live := ns.filter (isLive x.a)
    let old := if app then x.a.staged else []
    let staged := (old ++ live.filter fun n => !old.contains n).take 16
    .ok (stepPc (setAgent s x.aid { x.a with staged := staged }) x.aid 16))

/-! ## Special registers (R46, R47) -/

/-- STATUS (R47). -/
def statusReg (x : Ctxt) : DWord :=
  BitVec.ofNat 64 ((if x.st.splitser then 1 else 0) + (if x.a.meld then 2 else 0) + (if x.a.frag then 4 else 0) +
    (if x.a.frames ≠ [] then 8 else 0))

/-- The value of a special register in a lane (R47). -/
def sregValue (x : Ctxt) (r : SReg) (lane : Nat) : DWord :=
  match r with
  | .laneid => BitVec.ofNat 64 lane
  | .stroke => BitVec.ofNat 64 x.st.idx
  | .width => BitVec.ofNat 64 x.st.width
  | .panel => BitVec.ofNat 64 (x.p.idx % 2 ^ 32)
  | .core => BitVec.ofNat 64 x.p.core
  | .lvl n => ((x.p.lvls[n]?).getD 0).setWidth 64
  | .commid => x.c.tag.setWidth 64
  | .ctx => BitVec.ofNat 64 (x.ctx.id % 2 ^ 12)
  | .priv => BitVec.ofNat 64 x.a.priv
  | .status => statusReg x
  | .fpst => x.st.fpst.setWidth 64
  | .sstat => x.st.sstat
  | .ssbytes => x.st.ssbytes
  | .rstep => x.a.rstep.setWidth 64
  | .rkey => x.c.rkey
  | .tcause => x.a.tcause
  | .tpc => x.a.tpc
  | .taddr => x.a.taddr
  | .tlane0 => x.a.tlane0
  | .tlane1 => x.a.tlane1
  | .taux => x.a.taux
  | .tvbase => x.c.tvbase

/-- SRD, with a vector destination at the Primer too (log 81). `lvl n` is LVL(n + 3). -/
def execSrd (h : Hdr) (d : Dst) (r : SReg) (s : State) : Out :=
  .next (regInstr s { sw := h.sw, size := 8, dsts := dstRef d 1 0, push := pushOf d } h.km { primer := true } [] [] false
    fun x lanes _ => .ok (putDst x lanes d 1 fun l =>
      if isVecDst d then (sregValue x r l).toNat % 2 ^ 32 else (sregValue x r l).toNat))

/-- Whether SWR may write a register at a privilege level (R47). -/
def writable (priv : Nat) : SReg → Bool
  | .status => true
  | .fpst => true
  | .sstat => true
  | .ssbytes => true
  | .rstep => true
  | .tpc => true
  | .tvbase => decide (1 ≤ priv)
  | _ => false

/-- Writes the writable fields of a special register (R46, R47). -/
def writeSreg (s : State) (x : Ctxt) (r : SReg) (v : DWord) : State :=
  match r with
  | .status => setStroke s x.a.stroke { x.st with splitser := x.st.splitser && v.getLsbD 0 }
  | .fpst => setStroke s x.a.stroke { x.st with fpst := v.setWidth 6 }
  | .sstat => setStroke s x.a.stroke { x.st with sstat := v &&& 0x00000FFFFFFFFFFF }
  | .ssbytes => setStroke s x.a.stroke { x.st with ssbytes := v }
  | .rstep => setAgent s x.aid { x.a with rstep := v.setWidth 32 }
  | .tpc => setAgent s x.aid { x.a with tpc := v &&& 0x01FFFFFFFFFFFFF8 }
  | .tvbase => setComm s x.p.comm { x.c with tvbase := v &&& 0x01FFFFFFFFFFFFF8 }
  | _ => s

def execSwr (h : Hdr) (r : SReg) (a : Opd) (s : State) : Out :=
  .next (runAgent s fun x0 => do
    let lanes := activeMask x0.a h.km
    let srcs := [srcOf a 1 1 h.la]
    checkPlace x0 lanes {}
    let (s, x) ← switchMark s x0 h.sw
    checkRegs x lanes srcs (selRefs x h.km)
    checkUniform x lanes srcs [0]
    checkReads x lanes (selRefs x h.km)
    if !writable x.a.priv r then trapAt .perm lanes
    let vs ← srcValues s x lanes srcs 1 0
    let v := BitVec.ofNat 64 (val vs 0 ((lowestLane lanes x.w).getD 0))
    let s1 := if lanes = 0 then s else writeSreg s x r v
    commitRegs s1 { x with a := ((getAgent s1 x.aid).getD x.a), st := (getStroke s1 x.a.stroke).getD x.st }
      { sw := h.sw, size := 8, srcs := srcs } lanes {})

def execClk (h : Hdr) (d : Nat) (s : State) : Out :=
  .next (regInstr s { sw := h.sw, size := 8, dsts := [.s d 0] } h.km { primer := true } [] [] false
    fun _ _ _ => .ok { s := [(d, BitVec.ofNat 64 s.cycle)] })

def execClkPtp (h : Hdr) (d : Nat) (s : State) : Out :=
  .next (regInstr s { sw := h.sw, size := 8, dsts := [.s d 0] } h.km { primer := true } [] [] false
    fun x _ _ =>
      let t := BitVec.ofNat 64 (max (deviceTime s) x.st.ptp.toNat)
      .ok { s := [(d, t)], ptp := some t })

end Sys2Proof.Machine
end

