-- ==== Sys2Proof/Machine/Divergence.lean ====
section
/-! DEFINITION. Melding, fragments, JOIN and BRX (spec/14_divergence.md R257-R277). -/

namespace Sys2Proof.Machine
open Sys2Proof

/-- The places of MELD, PATH, SPLIT, JOIN and BRX (R262, R277, R342). -/
def divPlace (handler : Bool) : Place := { meld := false, handler := handler }

def execMeld (sw : Bool) (two : Bool) (ka kb : KReg) (s : State) : Out :=
  .next (ctlInstr s sw (divPlace false) (kRef ka 1 :: (if two then [] else [kRef kb 2]) ++ [.k 16 1]) fun s x _ =>
    let lo := maskReg x.a ka &&& x.a.em
    let hi := if two then 0 else maskReg x.a kb &&& x.a.em
    .ok (stepPc (setAgent s x.aid { x.a with meld := true, pathLo := lo, pathHi := hi, staged := [] }) x.aid 8))

def execMend (sw : Bool) (s : State) : Out :=
  .next (ctlInstr s sw {} [] fun s x lanes =>
    if x.a.meld then .ok (stepPc (setAgent s x.aid { x.a with meld := false, staged := [] }) x.aid 8)
    else trapAt .illop lanes)

def execPath (sw : Bool) (j p0 p1 p2 p3 : Nat) (s : State) : Out :=
  .next (ctlInstr s sw (divPlace true) [] fun s x _ =>
    .ok (stepPc (setAgent s x.aid { x.a with ptab := tabPut x.a.ptab j [p0, p1, p2, p3] }) x.aid 8))

/-- BADJOIN of a kind for a token (R271). -/
def badJoin {α : Type} (lanes : Mask) (kind tok : Nat) (addr : DWord := 0) : Eff α :=
  trapAt .badjoin lanes (BitVec.ofNat 64 (kind + 16 * tok)) addr

/-- A token is held while a real entry that holds it lives (R266). -/
def tokenHeld (st : Stroke) (tok : Nat) : Bool := st.splits.any fun p => p.2.tok == tok

/-- Stroke-table entries in use on a core: one per stroke placed there and one per fragment (R251, R266). -/
def entriesUsed (s : State) (core : Nat) : Nat :=
  let onCore := fun (st : Stroke) => match getPanel s st.panel with
    | some p => p.core == core && p.mapped
    | none => false
  (s.strokes.filter fun k => onCore k.2 && !k.2.exited && !k.2.primer).length +
  (s.agents.filter fun g => g.2.frag && ((getStroke s g.2.stroke).any onCore)).length

def framesUsed (s : State) (stroke : Nat) : Nat :=
  (strokeAgents s stroke).foldl (fun n g => n + g.2.frames.length) 0

/-- A fragment of an agent with the given lanes and start (R267). -/
def newFragment (a : Agent) (parent order : Nat) (e : JoinEntry) (lanes : Mask) (pc : VAddr) (now : Nat) : Agent :=
  { a with
    frag := true, order := order, lset := lanes, em := lanes, pc := pc
    jstack := e :: a.jstack, frames := [], staged := [], run := .ready
    waitFrom := none, prePend := false, porder := none, before := (orderOf parent a, now) :: a.before }

/-- Makes fragments for groups of lanes, as members of one real record; gives the state and the new agents. -/
def makeFragments (a : Agent) (aid : Nat) (e : JoinEntry) : State → List (Mask × VAddr) → State × List Nat
  | s, [] => (s, [])
  | s, (m, pc) :: t =>
    match getStroke s a.stroke with
    | none => (s, [])
    | some st =>
      let s1 := setStroke s a.stroke { st with nextOrder := st.nextOrder + 1 }
      let s2 := { setAgent s1 s1.fresh (newFragment a aid st.nextOrder e m pc s1.fresh) with fresh := s1.fresh + 1 }
      let r := makeFragments a aid e s2 t
      (r.1, s.fresh :: r.2)

/-- Registers the record of a real split. -/
def putSplit (s : State) (stroke rec : Nat) (r : SplitRec) : State :=
  match getStroke s stroke with
  | none => s
  | some st => setStroke s stroke { st with splits := tabPut st.splits rec r }

def dropSplit (s : State) (stroke rec : Nat) : State :=
  match getStroke s stroke with
  | none => s
  | some st => setStroke s stroke { st with splits := tabDel st.splits rec }

/-- A serial frame for groups run in turn, from the state at the split at issue number `now` (R269). The accesses
before the split come before each group's; those of different groups are unordered (R199). -/
def newFrame (a : Agent) (aid now : Nat) (groups : List (Mask × VAddr)) (brx : Bool) : SerialFrame :=
  { s := a.s, k := a.k, rstep := a.rstep, live := a.live, order := (orderOf aid a, now) :: a.before
    groups := groups, brx := brx, kAcc := a.k }

/-- Starts a serialised split: the frame, STATUS.SPLITSER and the first group, in a program order of its own
(R199, R269). -/
def startSerial (s : State) (aid : Nat) (a : Agent) (e : JoinEntry) (groups : List (Mask × VAddr)) (brx : Bool) : State :=
  match groups, getStroke s a.stroke with
  | (m, pc) :: _, some st =>
    let f := newFrame a aid s.fresh groups brx
    setAgent { setStroke s a.stroke { st with splitser := true } with fresh := s.fresh + 1 } aid
      { a with jstack := { e with frame := true } :: a.jstack, frames := f :: a.frames
               em := m, pc := pc, staged := [], porder := some s.fresh, before := f.order }
  | _, _ => s

/-- SPLIT (R268, R269). It waits as if S were set, whatever its S bit (R22). -/
def execSplit (_sw : Bool) (kc tok : Nat) (off : BitVec 36) (s : State) : Out :=
  .next (ctlInstr s true (divPlace false) [.k kc 1, .k 16 1] fun s x lanes => do
    let a := { x.a with staged := [] }
    let d := kReg a kc &&& lanesBelow x.w &&& a.em
    let r := a.em &&& ~~~d
    if 16 ≤ a.jstack.length then badJoin lanes 3 tok
    let solo : JoinEntry := { tok := tok, kind := .solo }
    if d = 0 then
      return setAgent s x.aid { a with jstack := solo :: a.jstack, pc := a.pc + 8 }
    let tgt ← relTarget s x lanes off
    if r = 0 then
      return setAgent s x.aid { a with jstack := solo :: a.jstack, pc := tgt }
    else if !tokenHeld x.st tok && decide (entriesUsed s x.p.core < 32) then
      let rid := s.fresh
      let e : JoinEntry := { tok := tok, kind := .real, split := rid }
      let (s1, ms) := makeFragments a x.aid e { s with fresh := s.fresh + 1 } [(d, tgt)]
      let s2 := putSplit s1 a.stroke rid { tok := tok, members := x.aid :: ms }
      return setAgent s2 x.aid { a with jstack := e :: a.jstack, em := r, pc := a.pc + 8 }
    else if 8 ≤ framesUsed s a.stroke then badJoin lanes 4 tok
    else return startSerial s x.aid a { tok := tok, kind := .serial } [(d, tgt), (r, a.pc + 8)] false)

/-! ## JOIN (R270) -/

/-- k bits of `new` in `lanes`, of `old` elsewhere, for every mask register. -/
def mergeK (old new : Tab Mask) (lanes : Mask) : Tab Mask :=
  (List.range 16).foldl (fun t n =>
    tabPut t n ((((tabGet old n).getD 0) &&& ~~~lanes) ||| (((tabGet new n).getD 0) &&& lanes))) []

/-- The frame after the group that runs has ended, at a JOIN (`joined`) or at EXIT, at issue number `now`: what a real
split's JOIN would take from that group's agent (R267, R269). -/
def leaveGroup (a : Agent) (aid now : Nat) (f : SerialFrame) (joined : Bool) : SerialFrame :=
  let lanes := ((f.groups[f.idx]?).getD (0, 0)).1
  let f0 := { f with idx := f.idx + 1 }
  if joined then
    { f0 with
      emAcc := f.emAcc ||| a.em
      -- the parent's bits for every lane that is in no other group
      kAcc := if parentGroup f then mergeK a.k f.kAcc (((f.groups.take f.idx).map (·.1)).foldl (· ||| ·) 0)
        else mergeK f.kAcc a.k lanes
      kept := if f.brx && f.kept.isSome then f.kept else some (a.s, a.rstep)
      liveAcc := f.liveAcc ||| a.live
      orderAcc := (orderOf aid a, now) :: f.orderAcc
      anyJoined := true }
  else f0

/-- Ends the group that runs in the topmost frame and starts the next one, in a program order of its own, or restores
what the split leaves; `none` when no group remains, with whether one joined (R199, R269). -/
def endGroup (a : Agent) (aid now : Nat) (f : SerialFrame) (joined : Bool) : Agent × Option SerialFrame × Bool :=
  let f1 := leaveGroup a aid now f joined
  let a1 := { a with porder := some now, staged := [], hazV := 0, hazS := 0, hazK := 0 }
  match f.groups[f1.idx]? with
  | some (m, pc) =>
    ({ a1 with s := f.s, k := f.k, rstep := f.rstep, live := f.live, em := m, pc := pc, before := f.order }, some f1, true)
  | none =>
    let v := f1.kept.getD (a.s, a.rstep)
    ({ a1 with em := f1.emAcc, k := f1.kAcc, s := v.1, rstep := v.2, live := f1.liveAcc
               before := f1.orderAcc ++ f.order }, none, f1.anyJoined)

/-- The joined agent of the members that arrived (R267, R270). -/
def joinAgents (surv : Agent) (others : List (Nat × Agent)) (fresh : Nat) (pc : VAddr) : Agent :=
  let a := others.foldl (fun (a : Agent) g =>
    { a with
      em := a.em ||| g.2.em
      lset := a.lset ||| g.2.lset
      k := mergeK a.k g.2.k g.2.lset
      live := a.live ||| g.2.live
      badK := (a.badK ++ g.2.badK).eraseDups
      before := (orderOf g.1 g.2, fresh) :: (g.2.before ++ a.before) }) surv
  { a with jstack := surv.jstack.drop 1, pc := pc, run := .ready, staged := [], waitFrom := none
           hazV := 0, hazS := 0, hazK := 0 }

/-- Of the members that arrived, the one created earliest first (R270). -/
def insertEarly (g : Nat × Agent) : List (Nat × Agent) → List (Nat × Agent)
  | [] => [g]
  | h :: t => if g.2.order < h.2.order then g :: h :: t else h :: insertEarly g t

/-- Completes the record's JOIN when every member has arrived or exited: the surviving member created earliest goes
on as the joined agent, the others end, the token is free (R270). -/
def joinCheck (s : State) (stroke rec : Nat) : State :=
  match getStroke s stroke with
  | none => s
  | some st =>
    match tabGet st.splits rec with
    | none => s
    | some r =>
      if r.members.all fun m => r.arrived.contains m || r.exited.contains m then
        let arrived := (r.members.filterMap fun m =>
          if r.arrived.contains m then (getAgent s m).map fun g => (m, g) else none).foldl (fun l g => insertEarly g l) []
        match arrived, r.addr with
        | (m, g) :: t, some pc =>
          let s1 := t.foldl (fun u o => { u with agents := tabDel u.agents o.1 }) s
          dropSplit (setAgent s1 m (joinAgents g t s.fresh (pc + 8))) stroke rec
        | _, _ => dropSplit s stroke rec
      else s

/-- ILLWAIT of kind 5 when the last running agent of a stroke parks and the agents wait at different places (R274).
`off`: the object of a BAR, or none at a JOIN. -/
def checkMixedWaits (s : State) (x : Ctxt) (lanes : Mask) (off : Option Nat) : Eff Unit :=
  let others := (strokeAgents s x.a.stroke).filter fun g => g.1 != x.aid
  let waiting := others.all fun g => match g.2.run with
    | .blocked w => w.kind == .bar || w.kind == .join
    | _ => false
  if others ≠ [] ∧ waiting ∧ others.any fun g => g.2.barAt != off then trapAt .illwait lanes 5 else .ok ()

/-- The record after an arrival elsewhere than at its address: every parked member takes BADJOIN and its arrival is
withdrawn (R270). -/
def joinMismatch (s : State) (x : Ctxt) (rec : Nat) (r : SplitRec) (addr : VAddr) (tok : Nat) : State :=
  let s1 := putSplit s x.a.stroke rec { r with arrived := [] }
  r.arrived.foldl (fun u m =>
    match getAgent u m with
    | none => u
    | some g => enterTrap (setAgent u m { g with run := .ready }) m
        { cause := .badjoin, addr := addr.setWidth 64, aux := BitVec.ofNat 64 (1 + 16 * tok), lanes := g.em }) s1

/-- A JOIN elsewhere than at the recorded address: BADJOIN of kind 1 in the arrival, and at a real entry in every parked
member too, before it (R270). -/
def joinElsewhere (s : State) (x : Ctxt) (e : JoinEntry) (addr : VAddr) (lanes : Mask) : Eff State :=
  match e.kind, tabGet x.st.splits e.split with
  | .real, some r =>
    .ok (enterTrap (joinMismatch s x e.split r addr e.tok) x.aid
      { cause := .badjoin, addr := addr.setWidth 64, aux := BitVec.ofNat 64 (1 + 16 * e.tok), lanes := lanes })
  | _, _ => badJoin lanes 1 e.tok (addr.setWidth 64)

/-- Arrival of an agent at its real entry's JOIN. -/
def joinArrive (s : State) (x : Ctxt) (a : Agent) (e : JoinEntry) (lanes : Mask) : Eff State :=
  let rec_ := e.split
  match getStroke s a.stroke with
  | none => .ok s
  | some st =>
    match tabGet st.splits rec_ with
    | none => .ok (setAgent s x.aid { a with jstack := a.jstack.drop 1, pc := a.pc + 8 })
    | some r =>
      let addr := r.addr.getD a.pc
      if a.pc ≠ addr then joinElsewhere s x e addr lanes
      else
        let r1 := { r with addr := some addr, arrived := x.aid :: r.arrived }
        let s1 := putSplit (setAgent s x.aid a) a.stroke rec_ r1
        if r.members.all fun m => m == x.aid || r.arrived.contains m || r.exited.contains m then
          .ok (joinCheck s1 a.stroke rec_)
        else do
          checkMixedWaits s x lanes none
          return blockAgent s1 x.aid .join

/-- JOIN (R270). It waits as if S were set (R22). -/
def execJoin (_sw : Bool) (tok : Nat) (s : State) : Out :=
  .next (ctlInstr s true (divPlace false) [] fun s x lanes => do
    let a := { x.a with staged := [] }
    match a.jstack with
    | [] => badJoin lanes 2 tok
    | e :: rest =>
      if e.tok ≠ tok then badJoin lanes 2 tok
      else if e.kind = .solo then return setAgent s x.aid { a with jstack := rest, pc := a.pc + 8 }
      else if e.frame then
        match a.frames with
        | [] => return setAgent s x.aid { a with jstack := rest, pc := a.pc + 8 }
        | f :: fs =>
          -- the address that the first JOIN recorded: the entry's, or the record's of a real entry
          let recAddr := match e.kind with
            | .real => (tabGet x.st.splits e.split).bind fun r => r.addr
            | _ => e.addr
          let addr := recAddr.getD a.pc
          if a.pc ≠ addr then joinElsewhere s x e addr lanes
          else
          let s0 := match e.kind, tabGet x.st.splits e.split with
            | .real, some r => putSplit s a.stroke e.split { r with addr := some addr }
            | _, _ => s
          let s0 := { s0 with fresh := s.fresh + 1 }
          let e1 := { e with addr := some addr }
          match endGroup { a with jstack := e1 :: rest } x.aid s.fresh f true with
          | (b, some f1, _) => return setAgent s0 x.aid { b with frames := f1 :: fs }
          | (b, none, _) =>
            if e.kind = .serial then
              return setAgent s0 x.aid { b with frames := fs, jstack := rest, pc := addr + 8 }
            else
              -- a real entry: its own groups have run, so the agent arrives
              let e2 := { e1 with frame := false }
              joinArrive s0 x { b with frames := fs, jstack := e2 :: rest, pc := addr } e2 lanes
      else joinArrive s x a e lanes)

/-! ## BRX (R272, R273) -/

/-- Whether a fetch gives no word that could fail as a target: an uncorrectable error, or no answer yet. -/
def noWord (f : Trap) : Bool := f.cause == .dataerr || f.cause == .acktimeout

/-- Why a BRX target fails (R272). -/
def brxFail (s : State) (x : Ctxt) (t : Nat) : Option Nat :=
  if t % 8 ≠ 0 ∨ 2 ^ 57 ≤ t then some 2
  else match fetchWord s x.p.ctx t with
    -- a LAND with S = 0 or S = 1 (R40)
    | .ok w => if w.toNat % 2 ^ 63 = 0x0400000000000000 then none else some 3
    | .error f => if noWord f then none else some (if f.cause = .perm then 1 else 0)

/-- The word of a target with an uncorrectable error (R347), or without an answer yet (R217). -/
def brxErr (s : State) (x : Ctxt) (t : Nat) : Option Trap :=
  match fetchWord s x.p.ctx t with
  | .ok _ => none
  | .error f => if noWord f then some f else none

/-- Groups of lanes by target, in order of their lowest lanes (R273). -/
def brxGroups (t : Nat → Nat) : List Nat → List (Mask × Nat) → List (Mask × Nat)
  | [], acc => acc
  | l :: r, acc =>
    if acc.any fun g => g.2 == t l then
      brxGroups t r (acc.map fun g => if g.2 = t l then (g.1 ||| laneBit l, g.2) else g)
    else brxGroups t r (acc ++ [(laneBit l, t l)])

/-- BRX (R272, R273). It waits as if S were set, whatever its S bit (R22). -/
def execBrx (_sw la : Bool) (tok : Nat) (a : Opd) (s : State) : Out :=
  .next (runAgent s fun x0 => do
    let lanes := x0.a.em
    let src := srcOf a 2 1 la
    checkPlace x0 lanes (divPlace false)
    let (s, x) ← switchMark s x0 true
    checkMeldPairs x lanes [src] []
    checkRegs x lanes [src] []
    checkMeld x lanes (divPlace false)
    checkReads x lanes [.k 16 1]
    let vs ← srcValues s x lanes [src] 1 0
    let t := fun l => val vs 0 l
    let ls := laneList lanes x.w
    if ls.any fun l => (brxErr s x (t l)).any fun f => f.cause == .acktimeout then .error (.park .answer)
    let bad := ls.filter fun l => (brxFail s x (t l)).isSome
    match bad with
    | l :: _ =>
      trapAt .badtgt (maskOf x.w fun i => bad.contains i) (BitVec.ofNat 64 ((brxFail s x (t l)).getD 0))
        (BitVec.ofNat 64 (t l))
    | [] =>
      -- DATAERR names the word of the lowest lane that meets one (R322, R347)
      match ls.findSome? fun l => brxErr s x (t l) with
      | some f => .error (.trap { f with lanes := maskOf x.w fun i => ls.contains i && (brxErr s x (t i)).isSome })
      | none => pure ()
      if 16 ≤ x.a.jstack.length then badJoin lanes 3 tok
      let b := { x.a with staged := [], live := x.a.live &&& ~~~(set192 (freedBy x.a [src])) }
      let solo : JoinEntry := { tok := tok, kind := .solo }
      let groups := (brxGroups t ls []).map fun g => (g.1, BitVec.ofNat 57 g.2)
      match groups with
      | [] => return setAgent s x.aid { b with jstack := solo :: b.jstack, pc := b.pc + 8 }
      | [(_, pc)] => return setAgent s x.aid { b with jstack := solo :: b.jstack, pc := pc }
      | g0 :: rest =>
        let room := if tokenHeld x.st tok then 0 else min 3 (32 - entriesUsed s x.p.core)
        let frs := rest.take room
        let ser := rest.drop room
        if ser ≠ [] ∧ 8 ≤ framesUsed s b.stroke then badJoin lanes 4 tok
        else if frs = [] then return startSerial s x.aid b { tok := tok, kind := .serial } groups true
        else
          let rid := s.fresh
          let e : JoinEntry := { tok := tok, kind := .real, split := rid }
          let (s1, ms) := makeFragments b x.aid e { s with fresh := s.fresh + 1 } frs
          let s2 := putSplit s1 b.stroke rid { tok := tok, members := x.aid :: ms }
          if ser = [] then
            return setAgent s2 x.aid { b with jstack := e :: b.jstack, em := g0.1, pc := g0.2 }
          else return startSerial s2 x.aid b e (g0 :: ser) true)

/-! ## The end of an agent (R44, R270, R276) -/

/-- The heir of an agent that exits at a record: the earliest live member other than it. -/
def heirOf (s : State) (r : SplitRec) (aid : Nat) : Option Nat :=
  r.members.find? fun m => m != aid && !r.exited.contains m && (getAgent s m).isSome

/-- Takes an agent that exits out of the records of its join stack, from the top: at each record it counts as exited;
a member that lives on stands for it in the outer records. -/
def leaveSplits (stroke aid : Nat) : State → List JoinEntry → State
  | s, [] => s
  | s, e :: rest =>
    match getStroke s stroke with
    | none => s
    | some st =>
      match e.kind, tabGet st.splits e.split with
      | .real, some r =>
        let r1 := { r with exited := aid :: r.exited, arrived := r.arrived.filter fun m => m != aid }
        let s1 := putSplit s stroke e.split r1
        match heirOf s r aid with
        | some h =>
          let names := rest.filterMap fun o => if o.kind = .real then some o.split else none
          let s2 := names.foldl (fun u n =>
            match (getStroke u stroke).bind fun k => tabGet k.splits n with
            | some o => putSplit u stroke n { o with members := o.members.map fun m => if m = aid then h else m }
            | none => u) s1
          joinCheck s2 stroke e.split
        | none => leaveSplits stroke aid (dropSplit s1 stroke e.split) rest
      | _, _ => leaveSplits stroke aid s rest

end Sys2Proof.Machine
end

