-- ==== Sys2Proof/Machine/Access.lean ====
section
/-! DEFINITION. Addresses of Format M, the checks over them, and the issue of reads, writes and atomics
(spec/08_memory_instructions.md R166-R169; spec/09_order_core.md R195-R198; spec/10_order_cores.md R209, R210). -/

namespace Sys2Proof.Machine
open Sys2Proof

/-- Scopes wider than a core (R206). -/
def Scope.wide : Scope → Bool
  | .str | .pnl => false
  | _ => true

def MOrd.acquires : MOrd → Bool
  | .acq | .ar => true
  | _ => false

def MOrd.releases : MOrd → Bool
  | .rel | .ar => true
  | _ => false

/-- The sources of Format M: BASE and IDX, read as a pair or scalar and as `.i32` or `.i64` (R167). -/
def addrSrcs (h : Hdr) (m : MAddr) : List Src :=
  { srcOf m.base 2 1 h.la with whole := true } :: (match m.idx with
    | some i => [srcOf i 1 2 h.lb]
    | none => [])

def mSize (m : MAddr) : Nat := if m.ofs.isSome then 16 else 8

/-- The address of a lane, computed exactly (R167). -/
def laneAddr (m : MAddr) (vs : List (Nat → Nat)) (scale lane : Nat) : Int :=
  let idx : Int := match m.idx with
    | none => 0
    | some (.s _) => signedOf 64 (val vs 1 lane)
    | some _ => signedOf 32 (val vs 1 lane)
  let ofs : Int := match m.ofs with
    | some o => o.toInt
    | none => 0
  ((val vs 0 lane % 2 ^ 64 : Nat) : Int) + idx * scale + ofs

/-- One access to check: lane, address, bytes, alignment. -/
structure Acc where
  lane : Nat
  addr : Int
  n : Nat
  align : Nat
deriving DecidableEq, Repr

/-- An access translated: lane, address, pieces. -/
structure Placed where
  lane : Nat
  va : Nat
  segs : List (Nat × Nat)
  pub : Bool := false
deriving DecidableEq, Repr

/-- Whether the page of an address is publishable (R190). -/
def isPub (s : State) (ctx va : Nat) : Bool :=
  match translate s ctx va with
  | .ok t => t.p
  | .error _ => false

/-- Whether any page that n bytes touch is publishable: what is read of it then comes from the home (R165, R191). -/
def pubRange (s : State) (ctx va n : Nat) : Bool :=
  (List.range (n / 4096 + 2)).any fun i =>
    let a := if i = 0 then va else alignDown va 4096 + 4096 * i
    decide (a < va + n) && isPub s ctx a

def placeAcc (s : State) (ctx : Nat) (nd : Need) (c : Acc) : Except AddrFault Placed :=
  if c.addr % (c.align : Int) ≠ 0 then .error (.align, 0)
  else if c.addr < 0 ∨ (2 ^ 57 : Int) < c.addr + c.n then .error (xlate 0 false false)
  else match segsFor s ctx nd c.addr.toNat c.n with
    | .error e => .error e
    | .ok g => .ok { lane := c.lane, va := c.addr.toNat, segs := g, pub := pubRange s ctx c.addr.toNat c.n }

def addrFaults (s : State) (ctx : Nat) (nd : Need) (cs : List Acc) : List (Acc × AddrFault) :=
  cs.filterMap fun c => match placeAcc s ctx nd c with
    | .error e => some (c, e)
    | .ok _ => none

/-- How accesses belong to lanes: one access of the whole instruction, one per lane, one per group of 32 lanes. -/
inductive Share where
  | one | lane | group
deriving DecidableEq, Repr

/-- The active lanes that met a cause. -/
def faultLanes (x : Ctxt) (lanes : Mask) (sh : Share) (cs : List (Acc × AddrFault)) (c : Cause) : Mask :=
  match sh with
  | .one => lanes
  | .lane => maskOf x.w fun l => cs.any fun e => e.1.lane == l && e.2.1 == c
  | .group => lanes &&& maskOf x.w fun l => cs.any fun e => e.1.lane == l / 32 && e.2.1 == c

/-- The trap of the fault that ranks first on any lane, with the lanes that met it and the lowest one's address (R322). -/
def worstFault (x : Ctxt) (lanes : Mask) (sh : Share) (bad : List (Acc × AddrFault)) : Option Trap :=
  let best := bad.foldl (fun r e => min r (causeRank e.2.1)) 5
  (bad.find? fun e => causeRank e.2.1 == best).map fun e =>
    faultTrap e.2 (BitVec.ofInt 64 e.1.addr) (faultLanes x lanes sh bad e.2.1)

/-- Translation, permission and alignment of every access before any effect (R20, R167). -/
def placeAll (s : State) (x : Ctxt) (lanes : Mask) (sh : Share) (nd : Need) (cs : List Acc) : Eff (List Placed) :=
  match worstFault x lanes sh (addrFaults s x.p.ctx nd cs) with
  | some t => .error (.trap t)
  | none => .ok (cs.filterMap fun c => match placeAcc s x.p.ctx nd c with
    | .ok p => some p
    | .error _ => none)

/-! ## Scopes (R200, R206) -/

/-- The quad of a core: its die's 32 quads, counted on. -/
def quadOf (core : Nat) : Nat :=
  let t := core % 128
  core / 128 * 32 + 8 * (t / 16 / 2) + t % 16 / 2

/-- Whether a scope that an agent of a stroke on a core names includes an agent of its context, of this device, on
another stroke or core (R200, R206). A core's number holds its die and tile. -/
def scopeIncludes (scp : Scope) (core stroke core2 stroke2 : Nat) : Bool :=
  match scp with
  | .str => core == core2 && stroke == stroke2
  | .pnl => core == core2
  | .qd => quadOf core == quadOf core2
  | .die => core / 128 == core2 / 128
  | .pkg | .fab => true

/-! ## Issue -/

/-- An acquire wider than a core empties the issuing core's copies (R165): before any later access of the stroke is
performed, and so as it is issued, and again as its own read is performed (R200). -/
def acquirePerformed (s : State) (core : Nat) (ord : MOrd) (scp : Scope) : State :=
  if MOrd.acquires ord && Scope.wide scp then acquireInvalidate s core else s

/-- Whether an agent's reads in the named streams are still to be performed. -/
def readsPending (s : State) (aid : Nat) (m : BitVec 16) : Bool :=
  s.results.any fun r => r.2.agent == aid && m.getLsbD r.2.str && readsLeft r.2

/-- Waits of a release: the stream's counter reads zero and its earlier reads have been performed (R166, R169). -/
def waitRelease (s : State) (x : Ctxt) (lanes : Mask) (m : BitVec 16) : Eff Unit := do
  if readsPending s x.aid m then .error (.park .results)
  waitStreams s x lanes m

def streamBit (n : Nat) : BitVec 16 := BitVec.ofNat 16 (2 ^ n)

/-- Parks where a counter would exceed 4,095 packets (R210). -/
def checkRoom (s : State) (x : Ctxt) (str lines : Nat) : Eff Unit :=
  match getStroke s x.a.stroke with
  | some st => if 4095 < ackCount st str + lines then .error (.park .ackFull) else .ok ()
  | none => .ok ()

def addAcks (s : State) (stroke str lines : Nat) : State :=
  match getStroke s stroke with
  | some st => setStroke s stroke { st with acks := tabPut st.acks str (ackCount st str + lines) }
  | none => s

/-- The 128-byte lines that pieces touch, each once. -/
def segLines (segs : List (Nat × Nat)) : List Nat :=
  (segs.flatMap fun g => (List.range ((g.1 + g.2 - 1) / 128 + 1 - g.1 / 128)).map fun i => g.1 / 128 + i).eraseDups

/-- The lines that the parts of a packet touch: what it counts for (R210). -/
def partLines (ps : List PacketPart) : List Nat := segLines (ps.flatMap (·.segs))

def shareLine (ps : List PacketPart) (p : PacketPart) : Bool :=
  (partLines [p]).any (partLines ps).contains

/-- Groups parts into packets: those that share a line travel together, in order, and a part that touches several lines,
being one unit (R232), joins their packets. -/
def groupLines : List PacketPart → List (List PacketPart) → List (List PacketPart)
  | [], acc => acc
  | p :: t, acc =>
    match acc.filter (shareLine · p) with
    | [] => groupLines t (acc ++ [[p]])
    | [_] => groupLines t (acc.map fun g => if shareLine g p then g ++ [p] else g)
    | gs => groupLines t ((acc.filter fun g => !shareLine g p) ++ [gs.flatten ++ [p]])

/-- Packets that a write of these groups adds to a counter (R210). -/
def groupCount (groups : List (List PacketPart)) : Nat := (groups.map fun g => (partLines g).length).sum

def addPacket (s : State) (p : Packet) : State :=
  addAcks { s with packets := tabPut s.packets s.fresh p, fresh := s.fresh + 1 } p.stroke p.str p.lines

/-- Sends the groups, each counted for its lines (R210). -/
def sendPackets (s : State) (p : Packet) (groups : List (List PacketPart)) : State :=
  groups.foldl (fun t g => addPacket t { p with parts := g, lines := (partLines g).length }) s

/-- The program order of an agent's accesses (R195, R199). -/
def Ctxt.po (x : Ctxt) : Nat := orderOf x.aid x.a

/-- The packet of an agent, with the parts still to be filled in. -/
def packetOf (s : State) (x : Ctxt) (m : MAddr) (op : PacketOp) : Packet :=
  { agent := x.aid, po := x.po, stroke := x.a.stroke, core := x.p.core, ctx := x.p.ctx, str := m.str, ord := m.ord
    scp := m.scp, op := op, parts := [], before := x.a.before, born := s.cycle }

/-- Destination parts of a vector register range (R261: resolved at issue). -/
def dstParts (a : Agent) (lanes : Mask) (n : Nat) : Nat → List (Nat × Nat × Mask)
  | 0 => []
  | r + 1 => dstParts a lanes n r ++ (resolveV a lanes (n + r)).map fun e => (r, e.1, e.2)

/-- Only a channel bound to a ring may be a base: RESFIELD otherwise (R167). -/
def baseRing (x : Ctxt) (lanes : Mask) : Opd → Eff Unit
  | .pop c | .peek c =>
    if (tabGet x.p.chans c).any fun ch => ch.kind == .ring then .ok () else trapAt .resfield lanes
  | _ => .ok ()

/-- The checks that the memory instructions share, in the order of R322, and the values of their sources. -/
def memGather (s : State) (x0 : Ctxt) (h : Hdr) (pl : Place) (m : MAddr) (extra : List Src) (dsts : List Ref)
    (straddle : Option (Nat × Nat)) (push : Option Nat) : Eff (State × Ctxt × List (Nat → Nat)) := do
  let lanes := activeMask x0.a h.km
  let srcs := addrSrcs h m ++ extra
  checkPlace x0 lanes pl
  let (s, x) ← switchMark s x0 h.sw
  checkMeldPairs x lanes srcs dsts
  match straddle with
  | some (n, r) => if x.a.meld && decide (n < 0xB0) && decide (0xB0 < n + r) then trapAt .resfield lanes
  | none => pure ()
  baseRing x lanes m.base
  checkRegs x lanes srcs (dsts ++ selRefs x h.km)
  checkMeld x lanes pl
  checkReads x lanes (selRefs x h.km)
  checkPush s x lanes push
  let (s, x) := pullAll s x srcs
  let vs ← srcValues s x lanes srcs srcs.length 0
  return (s, x, vs)

/-- A memory instruction at its issue: its checks, then its own description. -/
def memInstr (s : State) (h : Hdr) (pl : Place) (m : MAddr) (extra : List Src) (dsts : List Ref)
    (straddle : Option (Nat × Nat)) (push : Option Nat)
    (body : State → Ctxt → Mask → List Src → List (Nat → Nat) → Eff State) : State :=
  runAgent s fun x0 => do
    let (s, x, vs) ← memGather s x0 h pl m extra dsts straddle push
    body s x (activeMask x0.a h.km) (addrSrcs h m ++ extra) vs

/-- Pops, last-read frees, and the granules of names to be written (R15, R17, R19). -/
def issueRegs (s : State) (x : Ctxt) (srcs : List Src) (adds : List Nat) : Eff State := do
  let freed := freedBy x.a srcs
  let s0 ← reserveFor s x freed adds
  return freeNames (popAll s0 x.st.panel srcs) x.aid freed

/-- Commits with no lane active: pops, frees and the program counter; a variable-latency instruction still protects
its destinations (R15, R22). -/
def commitIdle (s : State) (x : Ctxt) (srcs : List Src) (lanes : Mask) (dsts : List Ref) (size : Nat) : Eff State := do
  let s1 ← issueRegs s x srcs []
  return stepPc (protect s1 x.aid lanes dsts) x.aid size

end Sys2Proof.Machine
end

