-- ==== Sys2Proof/Machine/Memory.lean ====
section
/-! DEFINITION. The memory and atomic instructions at their issue (spec/08_memory_instructions.md R170-R175). -/

namespace Sys2Proof.Machine
open Sys2Proof

def widBytes (wid : Nat) : Nat := 2 ^ wid
def widRegs (wid : Nat) : Nat := if wid ≤ 2 then 1 else if wid = 3 then 2 else 4

/-- A scalar form makes one access; a vector form one per active lane (R170). -/
def isScalarDst : Dst → Bool
  | .s _ => true
  | _ => false

def memPlace (scalar : Bool) : Place := { primer := scalar }

/-- LD, ST and PRF may stand in the Primer in their scalar and channel forms: with no vector operand (R26, R194). -/
def isVecOpd : Opd → Bool
  | .v _ => true
  | _ => false

def noVecAddr (m : MAddr) : Bool := !isVecOpd m.base && !(m.idx.any isVecOpd)

def isScalarAddr (m : MAddr) : Bool := isScalarOpd m.base && (match m.idx with
  | none => true
  | some i => isScalarOpd i)

/-- The reads of placed accesses. -/
def laneReads (ps : List Placed) : List LaneRead :=
  ps.map fun p => { lane := p.lane, va := p.va, segs := p.segs, pub := p.pub }

/-- Issues a read: an outstanding result with its protected destination (R21, R22). -/
def issueRead (s : State) (x : Ctxt) (srcs : List Src) (lanes : Mask) (dsts : List Ref) (size : Nat) (r : Result) :
    Eff State := do
  let s1 ← issueRegs s x srcs (r.dst.map (·.2.1))
  let s2 := addResult (protect s1 x.aid lanes dsts) { r with po := x.po, before := x.a.before }
  return stepPc (acquirePerformed s2 x.p.core r.ord r.scp) x.aid size

/-- LD (R170). A channel destination is pushed whatever lanes are active, and so is read (R15). -/
def execLd (h : Hdr) (wid : Nat) (sx : Bool) (d : Dst) (m : MAddr) (s : State) : Out :=
  let n := widBytes wid
  let regs := widRegs wid
  let dsts := dstRef d regs 0
  .next (memInstr s h (memPlace (noVecAddr m && !isVecDst d)) m [] dsts none (pushOf d) fun s x lanes srcs vs =>
    if lanes = 0 && (pushOf d).isNone then commitIdle s x srcs lanes dsts (mSize m)
    else do
      let accs : List Acc := match d with
        | .v _ => (laneList lanes x.w).map fun l => { lane := l, addr := laneAddr m vs n l, n := n, align := n }
        | .s _ => [{ lane := 0, addr := laneAddr m vs n 0, n := n, align := n }]
        | .push _ => (List.range x.w).map fun l =>
            { lane := l, addr := laneAddr m vs n 0 + (l : Int) * n, n := n, align := n }
      let ps ← placeAll s x lanes (if isVecDst d then .lane else .one) .r accs
      let r : Result :=
        { agent := x.aid, ctx := x.p.ctx, kind := .load { bytes := n, sx := sx }, mask := lanes, reads := laneReads ps
          ord := m.ord, scp := m.scp, pol := m.pol, str := m.str
          dst := match d with
            | .v k => dstParts x.a lanes k regs
            | _ => []
          sdst := match d with
            | .s k => [k]
            | _ => []
          push := pushOf d }
      issueRead s x srcs lanes dsts (mSize m) r)

/-- Sends the packets of an instruction that returns no value and advances. -/
def issueWrites (s : State) (x : Ctxt) (srcs : List Src) (lanes : Mask) (m : MAddr) (op : PacketOp)
    (groups : List (List PacketPart)) (size : Nat) (flagged : Bool) : Eff State := do
  if MOrd.releases m.ord then waitRelease s x lanes (streamBit m.str)
  checkRoom s x m.str (groupCount groups)
  let s1 ← issueRegs s x srcs []
  let g := s1.fresh
  let s2 := if flagged then
      { s1 with groups := tabPut s1.groups g { stroke := x.a.stroke, left := groups.length }, fresh := g + 1 }
    else s1
  let p := { packetOf s x m op with group := if flagged then some g else none }
  return stepPc (acquirePerformed (sendPackets s2 p groups) x.p.core m.ord m.scp) x.aid size

/-- One part per lane: the lane's data at its place. -/
def dataParts (ps : List Placed) (bytes : Nat) (v : Nat → Nat) : List PacketPart :=
  ps.map fun p => { lanes := [p.lane], segs := p.segs, bytes := bytesOf bytes (v p.lane) }

/-- The accesses of a store, scatter or atomic whose data operand is `d`. -/
def dataAccs (x : Ctxt) (lanes : Mask) (m : MAddr) (vs : List (Nat → Nat)) (n : Nat) (scalar : Bool) : List Acc :=
  if scalar then [{ lane := 0, addr := laneAddr m vs n 0, n := n, align := n }]
  else (laneList lanes x.w).map fun l => { lane := l, addr := laneAddr m vs n l, n := n, align := n }

def isSregOpd : Opd → Bool
  | .s _ => true
  | _ => false

/-- ST (R170): a scalar data operand makes one access. -/
def execSt (h : Hdr) (wid : Nat) (d : Opd) (m : MAddr) (s : State) : Out :=
  let n := widBytes wid
  .next (memInstr s h (memPlace (noVecAddr m && !isVecOpd d)) m [srcOf d (widRegs wid) 0 h.lc] [] none none
    fun s x lanes srcs vs =>
      if lanes = 0 then commitIdle s x srcs lanes [] (mSize m)
      else do
        let sc := isSregOpd d
        let ps ← placeAll s x lanes (if sc then .one else .lane) .w (dataAccs x lanes m vs n sc)
        issueWrites s x srcs lanes m .write
          (groupLines (dataParts ps n (val vs (srcs.length - 1))) []) (mSize m) false)

/-- LDG (R171): one row per lane, word j to v(vd + j). -/
def execLdg (h : Hdr) (w : Nat) (d : Nat) (m : MAddr) (s : State) : Out :=
  let n := 4 * 2 ^ w
  let dsts : List Ref := (List.range (2 ^ w)).map fun j => .v (d + j) 1 0
  .next (memInstr s h {} m [] dsts none none fun s x lanes srcs vs =>
    if lanes = 0 then commitIdle s x srcs lanes dsts (mSize m)
    else do
      let accs := (laneList lanes x.w).map fun l =>
        { lane := l, addr := laneAddr m vs n l, n := n, align := min n 16 : Acc }
      let ps ← placeAll s x lanes .lane .r accs
      issueRead s x srcs lanes dsts (mSize m)
        { agent := x.aid, ctx := x.p.ctx, kind := .gather, mask := lanes, reads := laneReads ps, ord := m.ord
          scp := m.scp, pol := m.pol, str := m.str, dst := dstParts x.a lanes d (2 ^ w) })

/-- SCT (R172). -/
def execSct (h : Hdr) (wid : Nat) (op : SctOp) (d : Opd) (m : MAddr) (s : State) : Out :=
  let n := widBytes wid
  .next (memInstr s h {} m [srcOf d (widRegs wid) 0 h.lc] [] none none fun s x lanes srcs vs =>
    if lanes = 0 then commitIdle s x srcs lanes [] (mSize m)
    else do
      let ps ← placeAll s x lanes .lane .w (dataAccs x lanes m vs n false)
      let pop := match op with
        | .st => PacketOp.write
        | .add => PacketOp.atom .add false
        | .addF32 => PacketOp.atom .addF32 false
      issueWrites s x srcs lanes m pop (groupLines (dataParts ps n (val vs (srcs.length - 1))) []) (mSize m)
        (op == .addF32))

/-! ## MX blocks (R71-R75, R173) -/

/-- Element bytes of a block, and whether a joined block carries its scale inside (`.mxt`). -/
def mxBytes : MxFmt → Nat
  | .mxi8 | .mxf8e4m3 | .mxf8e5m2 => 32
  | .mxf6e2m3 | .mxf6e3m2 => 24
  | .mxf4 => 16
  | .mxt => 8

def mxWidth : MxFmt → Nat
  | .mxf6e2m3 | .mxf6e3m2 => 6
  | .mxf4 => 4
  | _ => 8

def mxSigned : MxFmt → Bool
  | .mxi8 => true
  | _ => false

/-- The block's stride in the joined arrangement (R72). -/
def mxJoined (f : MxFmt) : Nat := if f = .mxt then 8 else mxBytes f + 1

/-- The trits of the eight bytes of an `.mxt` block and BADPACK (R75). -/
def mxtTrits (bs : List Byte) : List Int × Bool :=
  let five := (bs.take 6).map fun b => tritsOf b.toNat
  let b6 := ((bs[6]?).getD 0).toNat
  let ok := decide (117 ≤ b6 ∧ b6 ≤ 125)
  let k := b6 - 117
  ((five.map (·.1)).flatten ++ (if ok then [((k % 3 : Nat) : Int) - 1, ((k / 3 : Nat) : Int) - 1] else [0, 0]),
    five.any (·.2) || !ok)

/-- The 32 element codes of a block, its scale, and BADPACK. `bs`: elements, then the scale byte. -/
def mxDecode (f : MxFmt) (bs : List Byte) : List Nat × Nat × Bool :=
  if f = .mxt then
    let (ts, bad) := mxtTrits bs
    (ts.map fun t => wrapInt 32 t, ((bs[7]?).getD 0).toNat, bad)
  else
    let e := mxBytes f
    let x := ofBytes (bs.take e)
    let b := mxWidth f
    ((List.range 32).map fun i =>
      let c := x / 2 ^ (b * i) % 2 ^ b
      if mxSigned f then wrapInt 32 (signedOf 8 c) else c, ((bs[e]?).getD 0).toNat, false)

/-- The bytes of a block from 32 element codes and a scale; BADPACK for a code that is no trit (R173, R103). -/
def mxEncode (f : MxFmt) (cs : List Nat) (scale : Nat) : List Byte × Bool :=
  if f = .mxt then
    let ts := cs.map fun c => asTrit (c % 256)
    let v := ts.map (·.1)
    let bytes := (List.range 6).map fun k => BitVec.ofNat 8 (packTrits ((v.drop (5 * k)).take 5))
    let b6 := 117 + (((v[30]?).getD 0) + 1).toNat + 3 * (((v[31]?).getD 0) + 1).toNat
    (bytes ++ [BitVec.ofNat 8 b6, BitVec.ofNat 8 scale], ts.any fun t => t.2 != 0)
  else
    let b := mxWidth f
    let rec join : List Nat → Nat
      | [] => 0
      | c :: t => c % 2 ^ b + 2 ^ b * join t
    (bytesOf (mxBytes f) (join cs) ++ [BitVec.ofNat 8 scale], false)

/-- The accesses of group g: its elements with the scale, or apart (R173). -/
def mxAccs (m : MAddr) (vs : List (Nat → Nat)) (f : MxFmt) (split : Bool) (g : Nat) : List Acc :=
  let base : Int := ((val vs 0 0 : Nat) : Int) + (match m.ofs with
    | some o => o.toInt
    | none => 0)
  if split then
    [{ lane := g, addr := base + g * mxBytes f, n := mxBytes f, align := 1 },
     { lane := g, addr := ((val vs 1 0 : Nat) : Int) + g, n := 1, align := 1 }]
  else [{ lane := g, addr := base + g * mxJoined f, n := mxJoined f, align := 1 }]

/-- The groups of 32 lanes with at least one active lane. -/
def mxGroups (x : Ctxt) (lanes : Mask) : List Nat :=
  (List.range (x.w / 32)).filter fun g => (List.range 32).any fun i => lanes.getLsbD (32 * g + i)

/-- The placed pieces of a group, joined. -/
def groupSegs (ps : List Placed) (g : Nat) : List (Nat × Nat) :=
  ((ps.filter fun p => p.lane == g).map (·.segs)).flatten

/-- The read of a group's block: a scale apart keeps its own address, which a refusal of it names (R173, R216). -/
def groupRead (ps : List Placed) (split : Bool) (g : Nat) : LaneRead :=
  let mine := ps.filter fun p => p.lane == g
  { lane := g, va := (mine.head?).elim 0 (·.va), segs := groupSegs ps g, pub := mine.any (·.pub)
    scaleVa := if split then (mine.getLast?).map (·.va) else none }

def execLdmx (h : Hdr) (f : MxFmt) (split : Bool) (d : Nat) (m : MAddr) (s : State) : Out :=
  let dsts : List Ref := [.v d 1 0, .v (d + 1) 1 0]
  .next (memInstr s h {} m [] dsts (some (d, 2)) none fun s x lanes srcs vs =>
    if lanes = 0 then commitIdle s x srcs lanes dsts (mSize m)
    else do
      let gs := mxGroups x lanes
      let ps ← placeAll s x lanes .group .r ((gs.map (mxAccs m vs f split)).flatten)
      let reads : List LaneRead := gs.map fun g => groupRead ps split g
      issueRead s x srcs lanes dsts (mSize m)
        { agent := x.aid, ctx := x.p.ctx, kind := .block f, mask := lanes, reads := reads, ord := m.ord
          scp := m.scp, pol := m.pol, str := m.str, dst := dstParts x.a lanes d 2 })

def execStmx (h : Hdr) (f : MxFmt) (split : Bool) (d : Nat) (m : MAddr) (s : State) : Out :=
  .next (memInstr s h {} m [srcOf (.v d) 1 0 h.lc, srcOf (.v (d + 1)) 1 0 h.lc] [] (some (d, 2)) none
    fun s x lanes srcs vs =>
      if lanes = 0 then commitIdle s x srcs lanes [] (mSize m)
      else do
        let gs := mxGroups x lanes
        let k := srcs.length
        let code := fun l => val vs (k - 2) l
        let scale := fun l => val vs (k - 1) l % 256
        let active := fun (g : Nat) => (List.range 32).filterMap fun i =>
          if lanes.getLsbD (32 * g + i) then some (32 * g + i) else none
        -- the scale is one value in every lane of a group
        let diff := maskOf x.w fun l =>
          lanes.getLsbD l && scale l != scale (((active (l / 32)).head?).getD l)
        if diff ≠ 0 then trapAt .nonuniform diff
        if gs.any fun g => (active g).length != 32 then trapAt .partialmask lanes
        let ps ← placeAll s x lanes .group .w ((gs.map (mxAccs m vs f split)).flatten)
        let enc := gs.map fun g =>
          (g, mxEncode f ((List.range 32).map fun i => code (32 * g + i)) (scale (32 * g)))
        -- a block is one atomic unit, so blocks that share a line are one packet (R210, R232)
        if MOrd.releases m.ord then waitRelease s x lanes (streamBit m.str)
        let groups := groupLines (enc.map fun e =>
          { lanes := active e.1, segs := groupSegs ps e.1, bytes := e.2.1 : PacketPart }) []
        checkRoom s x m.str (groupCount groups)
        let s1 ← issueRegs s x srcs []
        let s2 := sendPackets s1 (packetOf s x m .write) groups
        let s3 := if enc.any fun e => e.2.2 then setFlags s2 x.a.stroke flBadpack else s2
        return stepPc s3 x.aid (mSize m))

/-! ## Prefetch (R174) -/

def execPrf (h : Hdr) (m : MAddr) (s : State) : Out :=
  .next (memInstr s h (memPlace (noVecAddr m)) m [] [] none none fun s x lanes srcs vs => do
    let accs : List Acc := (laneList lanes x.w).map fun l => { lane := l, addr := laneAddr m vs 1 l, n := 1, align := 1 }
    let places := accs.filterMap fun c => match placeAcc s x.p.ctx .r c with
      | .ok p => some p
      | .error _ => none
    let s0 ← issueRegs s x srcs []
    -- no fault of its own, but an error that its translation meets is counted (R348)
    let s1 := (addrFaults s x.p.ctx .r accs).foldl (fun t f => countWalk t x.p.ctx f.2) s0
    let s2 := if m.pol = .norm ∨ m.pol = .keep then
        places.foldl (fun t p => p.segs.foldl (fun t g =>
          if cacheable x.p.core g.1 p.pub then fillLine t x.p.core x.p.ctx g.1 (m.pol == .keep) else t) t) s1
      else s1
    return stepPc s2 x.aid (mSize m))

/-! ## Atomics (R175) -/

/-- old op x on n bits, with the flags of a floating-point addition. -/
def atomValue (op : AtomOp) (sgn : Bool) (n old x : Nat) : Nat × BitVec 6 :=
  match op with
  | .add => ((old + x) % 2 ^ n, 0)
  | .min => (if (if sgn then decide (signedOf n x < signedOf n old) else decide (x < old)) then x else old, 0)
  | .max => (if (if sgn then decide (signedOf n old < signedOf n x) else decide (old < x)) then x else old, 0)
  | .and => (old &&& x, 0)
  | .or => (old ||| x, 0)
  | .xor => (old ^^^ x, 0)
  | .exch => (x % 2 ^ n, 0)
  | .addF32 =>
    let r := flAdd .rne (decodeFl fmtF32 old) (decodeFl fmtF32 x)
    let q := roundFl fmtF32 ⟨.rne, 0⟩ false r.1
    (q.1, r.2 ||| q.2)

/-- The place of an atomic: in the Primer, its scalar form (R194). -/
def atomPlace (d : Dst) (m : MAddr) : Place := memPlace (isScalarAddr m && isScalarDst d)

def dstOpd : Dst → Opd
  | .v n => .v n
  | .s n => .s n
  | .push c => .pop c

/-- Issues an atomic that returns a value: an outstanding result that its packets fill. -/
def issueAtomic (s : State) (x : Ctxt) (srcs : List Src) (lanes : Mask) (m : MAddr) (d : Dst) (regs : Nat)
    (op : PacketOp) (groups : List (List PacketPart)) (ps : List Placed) (after : Bool) : Eff State := do
  if MOrd.releases m.ord then waitRelease s x lanes (streamBit m.str)
  checkRoom s x m.str (groupCount groups)
  let dst := match d with
    | .v k => dstParts x.a lanes k regs
    | _ => []
  let s1 ← issueRegs s x srcs (dst.map (·.2.1))
  let r : Result :=
    { agent := x.aid, ctx := x.p.ctx, kind := .atomic, mask := lanes, reads := laneReads ps, ord := m.ord
      scp := m.scp, str := m.str, dst := dst, waits := groups.length, po := x.po, before := x.a.before
      sdst := match d with
        | .s k => [k]
        | _ => [] }
  let id := s1.fresh
  let s2 := addResult (protect s1 x.aid lanes (dstRef d regs 0)) r
  let p := { packetOf s x m op with result := some id, after := after }
  return stepPc (acquirePerformed (sendPackets s2 p groups) x.p.core m.ord m.scp) x.aid (mSize m)

def execAtom (h : Hdr) (wid : Nat) (op : AtomOp) (sgn : Bool) (d : Dst) (m : MAddr) (s : State) : Out :=
  let n := widBytes wid
  let dsts := dstRef d (widRegs wid) 0
  .next (memInstr s h (atomPlace d m) m [srcOf (dstOpd d) (widRegs wid) 0 h.lc] dsts none none
    fun s x lanes srcs vs =>
      if lanes = 0 then commitIdle s x srcs lanes dsts (mSize m)
      else do
        let ps ← placeAll s x lanes (if isScalarDst d then .one else .lane) .rw (dataAccs x lanes m vs n (isScalarDst d))
        issueAtomic s x srcs lanes m d (widRegs wid) (.atom op sgn)
          (groupLines (dataParts ps n (val vs (srcs.length - 1))) []) ps false)

/-- ACAS: compare values in D, new values in the register (or pair) after them (R175). -/
def execAcas (h : Hdr) (wid : Nat) (d : Dst) (m : MAddr) (s : State) : Out :=
  let n := widBytes wid
  let regs := widRegs wid
  let dsts := dstRef d regs 0
  let extra := match d with
    | .v k => [srcOf (.v k) regs 0 h.lc, srcOf (.v (k + regs)) regs 0 h.lc]
    | .s k => [srcOf (.s k) 1 0 h.lc, srcOf (.s (k + 1)) 1 0 h.lc]
    | .push _ => []
  .next (memInstr s h (atomPlace d m) m extra dsts none none
    fun s x lanes srcs vs =>
      if lanes = 0 then commitIdle s x srcs lanes dsts (mSize m)
      else do
        let ps ← placeAll s x lanes (if isScalarDst d then .one else .lane) .rw (dataAccs x lanes m vs n (isScalarDst d))
        let k := srcs.length
        let parts : List PacketPart := ps.map fun p =>
          { lanes := [p.lane], segs := p.segs, bytes := bytesOf n (val vs (k - 1) p.lane)
            cmp := bytesOf n (val vs (k - 2) p.lane) }
        issueAtomic s x srcs lanes m d regs .cas (groupLines parts []) ps false)

/-- The one update of each distinct address of a RED: lanes combined in rising order (R175). -/
def redParts (op : AtomOp) (sgn : Bool) (n : Nat) (v : Nat → Nat) : List Placed → List (Nat × PacketPart × Nat) →
    List PacketPart
  | [], acc => acc.map fun e => { e.2.1 with bytes := bytesOf n e.2.2 }
  | p :: t, acc =>
    let x := v p.lane % 2 ^ (8 * n)
    if acc.any fun e => e.1 == p.va then
      redParts op sgn n v t (acc.map fun e =>
        if e.1 = p.va then
          let r := atomValue op sgn (8 * n) e.2.2 x
          (e.1, { e.2.1 with lanes := e.2.1.lanes ++ [p.lane], fl := e.2.1.fl ||| r.2 }, r.1)
        else e)
    else redParts op sgn n v t (acc ++ [(p.va, { lanes := [p.lane], segs := p.segs, bytes := [] }, x)])

def execRed (h : Hdr) (wid : Nat) (op : AtomOp) (sgn ret : Bool) (d : Dst) (m : MAddr) (s : State) : Out :=
  let n := widBytes wid
  let dsts := if ret then dstRef d (widRegs wid) 0 else []
  .next (memInstr s h (atomPlace d m) m [srcOf (dstOpd d) (widRegs wid) 0 h.lc] dsts none none
    fun s x lanes srcs vs =>
      if lanes = 0 then commitIdle s x srcs lanes dsts (mSize m)
      else do
        let ps ← placeAll s x lanes (if isScalarDst d then .one else .lane) .rw (dataAccs x lanes m vs n (isScalarDst d))
        let groups := groupLines (redParts op sgn n (val vs (srcs.length - 1)) ps []) []
        if ret then issueAtomic s x srcs lanes m d (widRegs wid) (.atom op sgn) groups ps true
        else issueWrites s x srcs lanes m (.atom op sgn) groups (mSize m) (op == .addF32))

end Sys2Proof.Machine
end

