-- ==== Sys2Proof/Machine/Home.lean ====
section
/-! DEFINITION. What a home does: detection of errors and the log (spec/19_health.md R346-R348), export windows
(spec/11_order_devices.md R215), writes to regions and barrier objects (spec/12_order_engines.md R231,
spec/08_memory_instructions.md R178), and when a pending access may be performed (spec/09_order_core.md R197, R199). -/

namespace Sys2Proof.Machine
open Sys2Proof

/-! ## Where pieces are served (R215, R216) -/

/-! Reads of several pieces: each piece is read where it is homed. What another device holds comes, piece after piece,
in its answer. -/

def pieceAway (s : State) (ctx : Nat) (segs : List (Nat × Nat)) : Bool :=
  segs.any fun g => reachOf s ctx false [g] == .away

def pieceRefused (s : State) (ctx : Nat) (segs : List (Nat × Nat)) : Bool :=
  segs.any fun g => reachOf s ctx false [g] == .refused

/-- The pieces that homes of this device serve, as local addresses. -/
def localPieces (s : State) (ctx : Nat) (segs : List (Nat × Nat)) : List (Nat × Nat) :=
  segs.flatMap fun g => match reachOf s ctx false [g] with
    | .here h => h
    | _ => []

def awayCount (s : State) (ctx : Nat) (segs : List (Nat × Nat)) : Nat :=
  (segs.map fun g => if reachOf s ctx false [g] = .away then g.2 else 0).sum

def readPieces (s : State) (ctx : Nat) : List (Nat × Nat) → List Byte → List Byte
  | [], _ => []
  | g :: t, o =>
    match reachOf s ctx false [g] with
    | .here h => readSegs s.mem h ++ readPieces s ctx t o
    | _ => ((List.range g.2).map fun i => (o[i]?).getD 0) ++ readPieces s ctx t (o.drop g.2)

/-- An uncorrectable word under the local pieces that a read of `g` is served from: its address as software names it,
through this device's own window where `g` does, and where it lies (R215, R347). -/
def namedBad (s : State) (g : Nat × Nat) (parts : List (Nat × Nat)) : Option (Nat × Nat) :=
  (segsBad s parts).map fun w => (if bitAt g.1 51 then g.1 + w - ((parts.head?).elim 0 (·.1)) else w, w)

/-- The first uncorrectable word under the pieces served here, as named and where it lies (R347). -/
def piecesBad (s : State) (ctx : Nat) (segs : List (Nat × Nat)) : Option (Nat × Nat) :=
  segs.findSome? fun g => namedBad s g (localPieces s ctx [g])

/-- Free bytes after the answer. -/
def freeBytes (s : State) (n : Nat) : List Byte := (List.range n).map fun i => Config.freeValue 8 (s.freeN + 1 + i)

/-- The bytes of pieces with free bytes for what another device holds, and the state that has taken them. -/
def readFree (s : State) (ctx : Nat) (segs : List (Nat × Nat)) : List Byte × State :=
  let n := awayCount s ctx segs
  (readPieces s ctx segs (freeBytes s n), if n = 0 then s else { s with freeN := s.freeN + 1 + n })

/-- Byte k of pieces. -/
def nthByte : List (Nat × Nat) → Nat → Nat
  | [], _ => 0
  | (a, n) :: t, k => if k < n then a + k else nthByte t (k - n)

/-- The address of the word in which another device met an uncorrectable error: one of those that the pieces touch there,
by a free value (R216, R347, log 12). -/
def awayWord (s : State) (ctx : Nat) (segs : List (Nat × Nat)) : Nat :=
  let away := segs.filter fun g => reachOf s ctx false [g] == .away
  alignDown (nthByte away ((Config.freeValue 64 s.freeN).toNat % max (away.map (·.2)).sum 1)) 32

/-- Whether a packet sent in a cycle is too old to be received: it is discarded at the next port or home (R315). -/
def tooOld (s : State) (born : Nat) : Bool := decide (2 ^ 21 < s.cycle - born)

/-! Reads of the matrix unit and of the Palette: loads of policy `.norm` whose values go to no register (R117, R128,
R160). Each line may come from the core's copy of it; one that does not is read at its home, which leaves a copy
(R165, R209). -/

/-- Whether a core's near cache holds a line of a context. -/
def lineHeld (s : State) (core ctx line : Nat) : Bool :=
  (getCore s core).near.any fun l => l.ctx == ctx && l.pa == 128 * line

/-- The part of a piece in a line. -/
def lineCut (g : Nat × Nat) (line : Nat) : Nat × Nat :=
  (max g.1 (128 * line), min (g.1 + g.2) (128 * line + 128) - max g.1 (128 * line))

/-- What reading a piece leaves in the core, for a piece that its copies may serve. -/
def normCopies (s : State) (core ctx : Nat) (g : Nat × Nat) : State :=
  (segLines [g]).foldl (fun t l =>
    if lineHeld s core ctx l then t
    else if cacheable core (128 * l) false then fillLine t core ctx (128 * l) false
    else homeRead t core ctx [lineCut g l]) s

/-- One piece: its bytes, and the core's copies after it. What another device holds is free. -/
def readPiece (s : State) (core ctx : Nat) (pub : Bool) (g : Nat × Nat) : State × List Byte :=
  match reachOf s ctx false [g] with
  | .here h =>
    if pub || remoteNamed [g] then (homeRead s core ctx h, readSegs s.mem h)
    else (normCopies s core ctx g, nearBytes s (getCore s core).near ctx g.1 g.2)
  | _ => ({ s with freeN := s.freeN + g.2 }, (List.range g.2).map fun i => Config.freeValue 8 (s.freeN + i))

/-- Pieces read one after another. `pubs`: those on publishable pages. -/
def readUnit (core ctx : Nat) (pubs : List (Nat × Nat)) : State → List (Nat × Nat) → State × List Byte
  | s, [] => (s, [])
  | s, g :: t =>
    let a := readPiece s core ctx (pubs.contains g) g
    let b := readUnit core ctx pubs a.1 t
    (b.1, a.2 ++ b.2)

/-- The parts of a piece that a read of it takes from homes of this device. -/
def homeParts (s : State) (core ctx : Nat) (pubs : List (Nat × Nat)) (g : Nat × Nat) : List (Nat × Nat) :=
  match reachOf s ctx false [g] with
  | .here h =>
    if pubs.contains g || remoteNamed [g] then h
    else ((segLines [g]).filter fun l => !lineHeld s core ctx l).map (lineCut g)
  | _ => []

/-- The address of an uncorrectable word that such a read meets, as software names it: here, or at the home on another
device, whose answer and word are free (R216, R347, log 12); and whether it is met here. -/
def unitBad (s : State) (core ctx : Nat) (pubs segs : List (Nat × Nat)) : Option (Nat × Option Nat) :=
  match segs.findSome? fun g => namedBad s g (homeParts s core ctx pubs g) with
  | some (name, w) => some (name, some w)
  | none =>
    if pieceAway s ctx segs && awayAnswer s == 2 then some (awayWord s ctx segs, none) else none

/-- Whether such a read is refused, by a window of this device or by another device (R216, log 12). -/
def unitRefused (s : State) (ctx : Nat) (segs : List (Nat × Nat)) : Bool :=
  pieceRefused s ctx segs || (pieceAway s ctx segs && awayAnswer s == 1)

/-- The state that has taken the answer of another device, if one was asked. -/
def tookAnswer (s : State) (ctx : Nat) (segs : List (Nat × Nat)) : State :=
  if pieceAway s ctx segs then { s with freeN := s.freeN + 1 } else s

/-- The uncorrectable word met here is counted and logged (R348). -/
def metBad (s : State) (ctx : Nat) (b : Nat × Option Nat) : State :=
  match b.2 with
  | some w => uncorrectable s w ctx
  | none => s

/-! ## Writes at the home -/

/-- The registered region that holds a physical address. -/
def regionIdx (s : State) (pa : Nat) : Option Nat :=
  s.regions.findIdx? fun r => r.segs.any fun g => decide (g.1 ≤ pa) && decide (pa < g.1 + g.2)

/-- One byte written at its home: into the shadow of a registered region (R191, R231), else into memory. -/
def storeByte (s : State) (pa : Nat) (b : Byte) : State :=
  match regionIdx s pa with
  | some i => { s with regions := s.regions.modify i fun r => { r with shadow := memSet r.shadow pa b } }
  | none => { s with mem := memSet s.mem pa b }

def storeBytes (s : State) (pa : Nat) : List Byte → State
  | [] => s
  | b :: t => storeBytes (storeByte s pa b) (pa + 1) t

def storeSegs (s : State) : List (Nat × Nat) → List Byte → State
  | [], _ => s
  | (pa, n) :: t, bs => storeSegs (storeBytes s pa (bs.take n)) t (bs.drop n)

/-- A write to a registered barrier object other than by BINIT, BAR, BARX and EXIT has an undefined effect on it
(R178): its 16 bytes become free values. -/
def scribble (s : State) (segs : List (Nat × Nat)) : State :=
  s.panels.foldl (fun t p => p.2.barriers.foldl (fun t off =>
    let pa := scratchPa p.2 off
    if p.2.mapped && segs.any fun g => decide (g.1 < pa + 16) && decide (pa < g.1 + g.2) then
      { t with mem := memWrite t.mem pa (bytesOf 16 (Config.freeValue 128 t.freeN).toNat), freeN := t.freeN + 1 }
    else t) t) s

/-- Whether the pieces cover every byte of the ECC word at `w`. -/
def coversWord (segs : List (Nat × Nat)) (w : Nat) : Bool :=
  (List.range (eccBytes w)).all fun i => segs.any fun g => decide (g.1 ≤ w + i) && decide (w + i < g.1 + g.2)

/-- Whether pieces touch the ECC word at `w`. -/
def touchesWord (segs : List (Nat × Nat)) (w : Nat) : Bool :=
  segs.any fun p => decide (p.1 < w + eccBytes w) && decide (w < p.1 + p.2)

/-- Erroneous words that a read of the pieces touches. -/
def touchedBad (s : State) (segs : List (Nat × Nat)) : List Nat := s.badWords.filter (touchesWord segs)

/-- Erroneous words of what writes go to: the shadow of a registered region, memory elsewhere (R191). -/
def writtenBad (s : State) : List Nat :=
  s.badWords.filter (fun w => (regionIdx s w).isNone) ++ s.regions.flatMap (·.bad)

/-- The erroneous word that refuses a write of the pieces: one that they cover only in part (R347). -/
def refusingWord (s : State) (segs : List (Nat × Nat)) : Option Nat :=
  (writtenBad s).find? fun w => touchesWord segs w && !coversWord segs w

/-- Clears the errors of the words that the pieces replace whole (R347). -/
def clearBad (s : State) (segs : List (Nat × Nat)) : State :=
  { s with badWords := s.badWords.filter fun w => (regionIdx s w).isSome || !coversWord segs w
           regions := s.regions.map fun r => { r with bad := r.bad.filter fun w => !coversWord segs w } }

/-- The erroneous word that refuses an update: one that it reads, or one that its write covers in part (R347). -/
def updateRefused (s : State) (segs : List (Nat × Nat)) : Option Nat := ((touchedBad s segs).head?).or (refusingWord s segs)

/-- A write that no core makes, whole or refused (R347): the address of the word that refuses it. -/
def engineWrite (s : State) (ctx : Nat) (segs : List (Nat × Nat)) (bs : List Byte) : State × Option Nat :=
  match refusingWord s segs with
  | some w => (uncorrectable s w ctx, some w)
  | none => (scribble (storeSegs (clearBad s segs) segs bs) segs, none)

/-- A write by an engine of a core: the engine is an agent of that core (R225), so its copies follow (R165). -/
def coreWrite (s : State) (core ctx : Nat) (segs : List (Nat × Nat)) (bs : List Byte) : State × Option Nat :=
  let r := engineWrite s ctx segs bs
  if r.2.isSome then r else (homeWrite r.1 core ctx segs, none)

/-- What homes of this device take of a write: local pieces, with their bytes. -/
def hereWrites (s : State) (ctx : Nat) : List (Nat × Nat) → List Byte → List (Nat × Nat) × List Byte
  | [], _ => ([], [])
  | g :: t, bs =>
    let r := hereWrites s ctx t (bs.drop g.2)
    match reachOf s ctx true [g] with
    | .here h => (h ++ r.1, bs.take g.2 ++ r.2)
    | _ => r

/-! ## Order among pending accesses (R197, R199) -/

/-- A pending access as order sees it: its issue number, program order, stream, whether it acquires, its pieces, and
which program orders come before it. -/
structure Pend where
  id : Nat
  po : Nat
  ctx : Nat
  /-- None: every stream (the read of a WAITF, R182). -/
  str : Option Nat
  acq : Bool := false
  rel : Bool := false
  segs : List (Nat × Nat)
  before : List (Nat × Nat)

def resultPend (id : Nat) (r : Result) : Pend :=
  { id := id, po := r.po, ctx := r.ctx, str := some r.str, acq := MOrd.acquires r.ord
    segs := ((r.reads.filter fun l => l.val.isNone).map (·.segs)).flatten, before := r.before }

def packetPend (id : Nat) (p : Packet) : Pend :=
  { id := id, po := p.po, ctx := p.ctx, str := some p.str, acq := MOrd.acquires p.ord, rel := MOrd.releases p.ord
    segs := (p.parts.map (·.segs)).flatten, before := p.before }

def fillPend (id : Nat) (f : Fill) : Pend :=
  { id := id, po := f.po, ctx := f.ctx, str := some f.str, segs := ((f.rows.flatten).flatten), before := f.before }

def imagePend (id : Nat) (f : ImageRead) : Pend :=
  { id := id, po := f.po, ctx := f.ctx, str := some f.str, segs := f.segs, before := f.before }

/-- Whether a result stands for reads that are still to be performed. -/
def isRead (r : Result) : Bool := !r.reads.isEmpty && r.kind != .atomic

def pendings (s : State) : List Pend :=
  (s.results.filterMap fun r => if isRead r.2 && readsLeft r.2 then some (resultPend r.1 r.2) else none) ++
  (s.packets.map fun p => packetPend p.1 p.2) ++ (s.fills.map fun f => fillPend f.1 f.2) ++
  (s.images.map fun f => imagePend f.1 f.2)

def segsOverlap (a b : List (Nat × Nat)) : Bool :=
  a.any fun x => b.any fun y => decide (x.1 < y.1 + y.2) && decide (y.1 < x.1 + x.2)

/-- A piece at its home: one that names this device's own window is the bytes behind it (R215), so that two names of one
byte are one byte in its order (R196, R197). -/
def homePiece (s : State) (ctx : Nat) (g : Nat × Nat) : Nat × Nat :=
  match paKind g.1 with
  | .remote d off =>
    if d = s.juran.dev then
      match (getCtx s ctx).bind fun c => c.windows.find? fun w => decide (w.obase ≤ off) && decide (off < w.obase + w.osize) with
      | some w => (w.lbase + (off - w.obase), g.2)
      | none => g
    else g
  | _ => g

def homePieces (s : State) (ctx : Nat) (segs : List (Nat × Nat)) : List (Nat × Nat) := segs.map (homePiece s ctx)

/-- Whether two accesses touch one registered region: in one stream they read its select bit in order (R230). -/
def sameRegion (s : State) (a b : List (Nat × Nat)) : Bool :=
  s.regions.any fun r => segsOverlap r.segs a && segsOverlap r.segs b

/-- Bit of a stream in a mask; an access in every stream is in each. -/
def inMask (m : BitVec 16) : Option Nat → Bool
  | none => m != 0
  | some i => m.getLsbD i

def sameStream : Option Nat → Option Nat → Bool
  | some a, some b => a == b
  | _, _ => true

/-- Whether issue number i of program order o comes before issue number j of order po, which `before` continues
(R199). -/
def inOrder (o i po j : Nat) (before : List (Nat × Nat)) : Bool :=
  decide (i < j) && (o == po || before.any fun e => e.1 == o && decide (i < e.2))

/-- Whether a fence that names both streams stands between p and b in their order (R197 case 3). -/
def fenceBetween (p b : Pend) (f : FenceRec) : Bool :=
  inOrder p.po p.id f.po f.id f.before && inOrder f.po f.id b.po b.id b.before && inMask f.mask p.str && inMask f.mask b.str

/-- Whether p must be performed before b: it comes before b in agent order (R199), and they are in one stream with a
common byte or region, an acquire or a release, or a fence between them names both streams (R197 cases 1 to 3). -/
def orderedBefore (s : State) (p b : Pend) : Bool :=
  inOrder p.po p.id b.po b.id b.before &&
  ((sameStream p.str b.str && (p.acq || b.rel ||
      (let x := homePieces s p.ctx p.segs
       let y := homePieces s b.ctx b.segs
       segsOverlap x y || sameRegion s x y))) ||
    s.fences.any (fenceBetween p b))

/-- A pending access may be performed when nothing ordered before it is pending. -/
def mayPerform (s : State) (b : Pend) : Bool := (pendings s).all fun p => !orderedBefore s p b

/-- Whether a program order, or one that it continues, has a pending access. -/
def hasPending (s : State) (po : Nat) (before : List (Nat × Nat)) : Bool :=
  (pendings s).any fun p => p.po == po || before.any fun e => e.1 == p.po

/-! ## Stroke-wide instructions (R177) -/

/-- Values of a stroke-wide instruction's sources: its vector operands must agree over the stroke's populated lanes.
`regs` of each source is in the source. -/
def wideGather (s : State) (x0 : Ctxt) (h : Hdr) (pl : Place) (srcs : List Src) (refs : List Ref) :
    Eff (State × Ctxt × List Nat) := do
  let lanes := x0.a.em
  checkPlace x0 lanes pl
  let (s, x) ← switchMark s x0 h.sw
  checkMeldPairs x lanes srcs refs
  checkRegs x lanes srcs refs
  checkUniform x x.st.populated srcs (List.range srcs.length)
  checkMeld x lanes pl
  let vs ← srcValues s x lanes srcs srcs.length 0
  let lo := (lowestLane x.st.populated x.w).getD 0
  let s1 := freeNames s x.aid (freedBy x.a srcs)
  let x := { x with a := (getAgent s1 x.aid).getD x.a }
  return (s1, x, (List.range srcs.length).map fun i => val vs i lo)

/-- A stroke-wide instruction: its checks, its operands' values, then its own description. -/
def wideInstr (s : State) (h : Hdr) (pl : Place) (srcs : List Src) (refs : List Ref)
    (body : State → Ctxt → Mask → List Nat → Eff State) : State :=
  runAgent s fun x0 => do
    let (s, x, vs) ← wideGather s x0 h pl srcs refs
    body s x x0.a.em vs

/-- Bytes of an instruction one of whose operands may be an immediate. -/
def sizeOfAll (os : List Opd) : Nat := if os.any isImm then 16 else 8

def nthVal (vs : List Nat) (i : Nat) : Nat := (vs[i]?).getD 0

/-- Writes a scalar and advances. -/
def putScalar (s : State) (aid n : Nat) (v : Nat) : State :=
  match getAgent s aid with
  | none => s
  | some a => setAgent s aid (setSReg a n (BitVec.ofNat 64 v))

end Sys2Proof.Machine
end

