-- ==== Sys2Proof/Machine/Order.lean ====
section
/-! DEFINITION. FENCE, BINIT, BAR and WAITF (spec/08_memory_instructions.md R176-R182) and the units of a commission
that a wait may name (spec/13_commissions.md R240, R241). -/

namespace Sys2Proof.Machine
open Sys2Proof

/-! ## Units (R240) -/

/-- EXTENT of a level. -/
def extentOf (r : CommRec) (l : Nat) : Nat := (r.extents[l - 1]?).getD 1
def classOf (r : CommRec) (l : Nat) : Nat := (r.classes[l - 1]?).getD 1
def domainOf (r : CommRec) (l : Nat) : Nat := (r.domains[l - 1]?).getD 0

/-- E_3 × … × E_l. -/
def extentProd (r : CommRec) (l : Nat) : Nat :=
  (List.range (l - 2)).foldl (fun n i => n * extentOf r (i + 3)) 1

/-- Whether the commission's highest level is bound to `.fab`. -/
def isFab (r : CommRec) : Bool := decide (4 ≤ r.levels) && domainOf r (r.levels - 1) == 5

/-- N, the panels of a commission on this device. -/
def panelCount (r : CommRec) : Nat :=
  if isFab r then extentProd r (r.levels - 2) else (if r.units = 0 then 1 else r.units) * extentProd r (r.levels - 1)

/-- Index at level l of the unit that holds panel p; at level 2 the panel itself. -/
def unitAt (r : CommRec) (l p : Nat) : Nat :=
  let q := if isFab r then r.devunit * panelCount r + p else p
  q / extentProd r l

/-- Whether every unit of level l in the unit of level l + 1 that holds panel p, or in the whole commission at the
highest level, has started (R182, R241): a unit has started when one of its panels has. The panel itself, which asks,
has. -/
def unitsStarted (c : Comm) (l p : Nat) : Bool :=
  let r := c.record
  let mine := fun q => decide (r.levels ≤ l + 1) || unitAt r (l + 1) q == unitAt r (l + 1) p
  ((List.range (panelCount r)).filter mine).all fun q =>
    (p :: c.started).any fun t => unitAt r l t == unitAt r l q

/-- Whether the scope bound to a level is wider than a core: level 1 `.str`, level 2 `.pnl`, else its DOMAIN (R240). -/
def levelWide (l : Nat) : Bool := decide (3 ≤ l)

/-- The scope bound to a level. -/
def levelScope (r : CommRec) (l : Nat) : Scope :=
  match l with
  | 1 => .str
  | 2 => .pnl
  | _ => match domainOf r l with
    | 2 => .qd
    | 3 => .die
    | 4 => .pkg
    | _ => .fab

/-! ## FENCE (R176) -/

/-- Whether an access that comes before a fence is still to be performed. -/
def fenceNeeded (s : State) (f : FenceRec) : Bool :=
  (pendings s).any fun p => inOrder p.po p.id f.po f.id f.before && inMask f.mask p.str

/-- Records a fence while an access that it orders is still pending; fences that order nothing any more leave. -/
def addFence (s : State) (aid : Nat) (m : BitVec 16) : State :=
  match getAgent s aid with
  | none => s
  | some a =>
    let f : FenceRec := { id := s.fresh, po := orderOf aid a, mask := m, before := a.before }
    { s with fences := (s.fences ++ [f]).filter (fenceNeeded s), fresh := s.fresh + 1 }

/-- Whether an atomic without a result, which an acquire fence orders as it does reads (R195, R197, R200), is still to be
performed before it. -/
def atomicsPending (s : State) (x : Ctxt) (m : BitVec 16) : Bool :=
  s.packets.any fun p => p.2.op != .write && m.getLsbD p.2.str && inOrder p.2.po p.1 x.po s.fresh x.a.before

def execFence (h : Hdr) (ord : MOrd) (scp : Scope) (b : Opd) (s : State) : Out :=
  .next (wideInstr s h { primer := true } [srcOf b 1 2 h.lb] [] fun s x lanes vs => do
    let v := nthVal vs 0
    if v = 0 ∨ 2 ^ 16 ≤ v then trapAt .resfield lanes
    let m := BitVec.ofNat 16 v
    -- an acquire fence completes only after the reads that it makes acquires have been performed
    if readsPending s x.aid m then .error (.park .results)
    if setsPending s x.a.stroke || matrixReads s x.a.stroke m then .error (.park .results)
    if MOrd.acquires ord && atomicsPending s x m then .error (.park .results)
    if MOrd.releases ord then waitStreams s x lanes m
    let s1 := addFence s x.aid m
    let s2 := if MOrd.acquires ord && Scope.wide scp then acquireInvalidate s1 x.p.core else s1
    return stepPc s2 x.aid (sizeOf b))

/-! ## Barriers (R178-R180) -/

/-- Offset of an address in the panel's scratchpad, if n bytes from it lie inside (R164). -/
def scratchOff (p : Panel) (va n : Nat) : Option Nat :=
  if p.slotVA ≤ va ∧ va + n ≤ p.slotVA + p.slotBytes ∧ p.mapped then some (va - p.slotVA) else none

/-- DATAERR where an instruction meets an uncorrectable word as it executes (R347). -/
def soundWord (lanes : Mask) : Option Nat → Eff Unit
  | some w => trapMet (unitOf w) lanes 0 w
  | none => .ok ()

/-- An uncorrectable word among bytes that an instruction reads as it executes. -/
def checkSound (s : State) (lanes : Mask) (segs : List (Nat × Nat)) : Eff Unit := soundWord lanes (segsBad s segs)

def barPlace : Place := { meld := false }

def addrSrc (h : Hdr) (a : Opd) : Src := srcOf a 2 1 h.la

def execBinit (h : Hdr) (a b : Opd) (s : State) : Out :=
  .next (wideInstr s h barPlace [addrSrc h a, srcOf b 1 2 h.lb] [] fun s x lanes vs => do
    let va := nthVal vs 0
    if va % 16 ≠ 0 then trapAt .align lanes 0 (BitVec.ofNat 64 va)
    match scratchOff x.p va 16 with
    | none => trapAt .bounds lanes 0 (BitVec.ofNat 64 va)
    | some off =>
      let n := x.p.strokes.length
      let m := if b = .s 63 then 2 ^ n - 1 else nthVal vs 1
      if 2 ^ n ≤ m then trapAt .resfield lanes
      checkSound s lanes [(scratchPa x.p off, 16)]
      let o := barObj s x.p off
      if x.p.barriers.contains off && (barArrived o != 0 || barPending o != 0) then trapAt .illwait lanes 7
      let live := natOfBits (fun i => bitAt m i && ((x.p.strokes[i]?).bind (getStroke s)).any fun k => !k.exited) n
      let cnt := ((List.range n).filter fun i => bitAt live i).length
      let s1 := setBarObj s x.p off (mkBar cnt 0 0 (((x.p.classes.head?).getD 1)) 0 live)
      let bars := if x.p.barriers.contains off then x.p.barriers else x.p.barriers ++ [off]
      return stepPc (setPanel s1 x.st.panel { x.p with barriers := bars }) x.aid (sizeOf b))

/-- Whether the agent runs inside a serialised group (STATUS.SERIAL). -/
def inSerial (a : Agent) : Bool := a.frames != []

/-- The object of BAR and BARX: registered with the panel, else BOUNDS; of a class that allows the wait (R180). -/
def theBar (x : Ctxt) (lanes : Mask) (va : Nat) : Eff Nat :=
  match scratchOff x.p va 16 with
  | some off => if x.p.barriers.contains off then .ok off else trapAt .bounds lanes 0 (BitVec.ofNat 64 va)
  | none => trapAt .bounds lanes 0 (BitVec.ofNat 64 va)

/-- BAR (R180). It waits as if S were set, whatever its S bit (R22). -/
def execBar (h : Hdr) (a : Opd) (s : State) : Out :=
  .next (wideInstr s { h with sw := true } barPlace [addrSrc h a] [] fun s x lanes vs => do
    let off ← theBar x lanes (nthVal vs 0)
    checkSound s lanes [(scratchPa x.p off, 16)]
    let o := barObj s x.p off
    if !bitAt (barMembers o) x.st.idx then trapAt .perm lanes
    if barClass o = 2 then trapAt .illwait lanes 1
    if inSerial x.a then trapAt .illwait lanes 6
    checkMixedWaits s x lanes (some off)
    waitStreams s x lanes allStreams
    return barArrive (blockAgent (setAgent s x.aid { x.a with barAt := some off }) x.aid .bar) x.st.panel x.a.stroke off)

/-! ## WAITF (R182) -/

/-- The word of a WAITF meets its condition. -/
def waitfHolds (c : WCond) (v cmp : Nat) : Bool :=
  match c with
  | .eq => v == cmp
  | .ne => v != cmp
  | .ge => decide (cmp ≤ v)

/-- ILLWAIT unless the promise may be relied on (R182, R284). -/
def checkPromise (x : Ctxt) (lanes : Mask) (lvl : Nat) (p : Promise) : Eff Unit :=
  let cls := classOf x.c.record lvl
  let ok := match p with
    | .eng => true
    | .conc => !x.p.task && cls == 0
    | .par => !x.p.task && (cls == 0 || cls == 1) && unitsStarted x.c lvl x.p.idx
  if ok then .ok () else trapAt .illwait lanes 2

def execWaitf (h : Hdr) (t : Ty) (lvl : Nat) (prom : Promise) (cond : WCond) (d : Nat) (a b : Opd) (s : State) : Out :=
  let n := Ty.bits t / 8
  .next (wideInstr s h barPlace [addrSrc h a, srcOf b (Ty.regs t) 2 h.lb] [.s d 0] fun s x lanes vs => do
    if x.c.record.levels ≤ lvl then trapAt .resfield lanes
    let ps ← placeAll s x lanes .one .r [{ lane := 0, addr := ((nthVal vs 0 : Nat) : Int), n := n, align := n }]
    checkPromise x lanes lvl prom
    let r : WaitfRec :=
      { id := s.fresh, born := s.cycle, va := nthVal vs 0, segs := (ps.map (·.segs)).flatten, cond := cond, cmp := nthVal vs 1 % 2 ^ (8 * n), dst := d
        size := sizeOf b, wide := levelWide lvl }
    let s1 := { setAgent s x.aid { x.a with waitf := some r } with fresh := s.fresh + 1 }
    return blockAgent s1 x.aid .waitf)

def waitfBits (r : WaitfRec) : Nat := 8 * (r.segs.map (·.2)).sum

/-- A parked WAITF with its word translated anew: each of its reads is an access with the translation then in force
(R182, R313). -/
def waitfNow (s : State) (ctx : Nat) (r : WaitfRec) : Except AddrFault WaitfRec :=
  (segsFor s ctx .r r.va (waitfBits r / 8)).map fun g => { r with segs := g }

/-- The read of a parked WAITF as order sees it: in every stream of the stroke, an acquire (R182). -/
def waitfPend (s : State) (aid : Nat) (a : Agent) (r : WaitfRec) : Pend :=
  { id := r.id, po := orderOf aid a, ctx := agentCtx s a, str := none, acq := true, segs := r.segs, before := a.before }

/-- The value that the home read of a WAITF finds: of another device's word, one that meets the condition (log 12);
none where the read is refused (R216). -/
def waitfValue (s : State) (ctx : Nat) (r : WaitfRec) : Option Nat :=
  if pieceRefused s ctx r.segs then none
  else if !pieceAway s ctx r.segs then some (ofBytes (readPieces s ctx r.segs []))
  else if awayAnswer s = 1 then none
  else
    let v := ofBytes (readFree s ctx r.segs).1
    some (if waitfHolds r.cond v r.cmp then v
      else if r.cond = .ne then (r.cmp + 1) % 2 ^ waitfBits r else r.cmp)

/-- The uncorrectable word that the read meets, here or at the home on another device: its address as named (R347). -/
def waitfBad (s : State) (ctx : Nat) (r : WaitfRec) : Option Nat :=
  match piecesBad s ctx r.segs with
  | some b => some b.1
  | none => if pieceAway s ctx r.segs && awayAnswer s == 2 then some (awayWord s ctx r.segs) else none

/-- Whether the home read of a parked WAITF may be performed and ends its wait: its condition is true, or the read
traps. -/
def waitfReady (s : State) (aid : Nat) : Bool :=
  match getAgent s aid with
  | none => false
  | some a =>
    match a.run, a.waitf with
    | .blocked _, some r =>
      if r.lost then false else
      match waitfNow s (agentCtx s a) r with
      | .error _ => true
      | .ok q => mayPerform s (waitfPend s aid a q) &&
        match waitfValue s (agentCtx s a) q with
        | some v => waitfHolds r.cond v r.cmp || (waitfBad s (agentCtx s a) q).isSome
        | none => true
    | _, _ => false

/-- WAITF_CONDITION_MET: the read completes the WAITF as an acquire of the level's scope; a read that no longer
translates, is refused or meets an error traps at it (R182, R216, R313, R347). -/
def execWaitfConditionMet (aid : Nat) (s : State) : Out :=
  .next (if waitfReady s aid then
    match getAgent s aid with
    | none => s
    | some a =>
      match a.waitf.map fun r => (r, waitfNow s (agentCtx s a) r) with
      | none => s
      | some (r, .error f) =>
        enterTrap (setAgent s aid { a with waitf := none, run := .ready, waitFrom := none }) aid
          (faultTrap f (BitVec.ofNat 64 r.va) a.em)
      | some (_, .ok r) =>
        let s0 := setAgent s aid { a with waitf := none, run := .ready, waitFrom := none }
        let ctx := agentCtx s a
        match waitfValue s ctx r, waitfBad s ctx r with
        | none, _ =>
          enterTrap { s0 with freeN := s.freeN + 1 } aid
            { cause := .xlate, aux := 0x10000, addr := BitVec.ofNat 64 r.va, lanes := a.em }
        | _, some w =>
          let s1 := match piecesBad s ctx r.segs with
            | some b => uncorrectable s0 b.2 ctx
            | none => { s0 with freeN := s.freeN + 1 }
          enterTrap s1 aid
            { cause := .dataerr, addr := BitVec.ofNat 64 w, aux := if bitAt w 51 then 0x10000 else 0, lanes := a.em }
        | some v, none =>
          let core := (((getStroke s a.stroke).bind fun k => getPanel s k.panel).map (·.core)).getD 0
          let s1 := homeRead { s0 with freeN := (readFree s ctx r.segs).2.freeN } core ctx (localPieces s ctx r.segs)
          let s2 := stepPc (putScalar s1 aid r.dst v) aid r.size
          if r.wide then acquireInvalidate s2 core else s2
  else s)

end Sys2Proof.Machine
end

