-- ==== Sys2Proof/Machine/Packets.lean ====
section
/-! DEFINITION. The steps of results and packets: RESULT_RETURN, WRITE_PACKET_AT_HOME, ACK_RECEIVED, ACKTIMEOUT and the
losses of the fabric (spec/10_order_cores.md R209-R211, spec/11_order_devices.md R215-R217, spec/16_isolation.md R315,
R316, spec/17_traps.md R326). -/

namespace Sys2Proof.Machine
open Sys2Proof

/-! ## Late faults (R326) -/

/-- Records a fault found when the result issued as `id` returned: the oldest in issue order is kept. -/
def addLate (s : State) (aid id : Nat) (t : Trap) : State :=
  match getAgent s aid with
  | none => s
  | some a => setAgent s aid (match a.late with
    | none => { a with late := some (t, 0), lateId := id }
    | some (u, n) => if id < a.lateId then { a with late := some (t, n + 1), lateId := id }
      else { a with late := some (u, n + 1) })

def dropResult (s : State) (id : Nat) : State := { s with results := tabDel s.results id }

/-- Ends a result with a fault: no destination is written and no flag set. -/
def failResult (s : State) (id : Nat) (r : Result) (t : Trap) : State := addLate (dropResult s id) r.agent id t

/-! ## Values of reads (R165, R171, R209) -/

def agentCore (s : State) (aid : Nat) : Nat :=
  (((getAgent s aid).bind fun a => getStroke s a.stroke).bind fun k => getPanel s k.panel).elim 0 (·.core)

/-- Whether an access may be served from a copy: not `.byp`, not publishable, not remote, no acquire wider than a core
(R209, R216). -/
def copyAllowed (r : Result) (lr : LaneRead) : Bool :=
  r.pol != .byp && !lr.pub && !remoteNamed lr.segs && !(MOrd.acquires r.ord && Scope.wide r.scp)

/-- A lane's bytes from a copy that may serve it: a row of the recent table for a gather, lines of the near cache for a
load. -/
def copyBytes (s : State) (r : Result) (core : Nat) (lr : LaneRead) : Option (List Byte) :=
  let c := getCore s core
  if copyAllowed r lr then
    match r.kind with
    | .gather => (recentRow c r.ctx lr.segs).map (·.bytes)
    | .load _ =>
      if allNear c.near r.ctx lr.segs then some (lr.segs.map fun g => nearBytes s c.near r.ctx g.1 g.2).flatten else none
    | _ => none
  else none

/-- Whether the policy keeps what a read brings from the home: `.norm` and `.keep`, of pages that may be kept
(R165, R171, R216). -/
def keepsCopy (pol : Pol) (lr : LaneRead) : Bool := (pol == .norm || pol == .keep) && !lr.pub && !remoteNamed lr.segs

/-- What a read served at the home leaves in the core: fresh copies and no older row (R209, R233); then, as the policy
says, the lines of a load or of a block (R173), or the row of a gather (R165, R171). `segs`: the pieces that homes of this device served. -/
def afterHome (s : State) (r : Result) (core : Nat) (lr : LaneRead) (segs : List (Nat × Nat)) : State :=
  let s1 := homeRead s core r.ctx segs
  if keepsCopy r.pol lr then
    match r.kind, segs with
    | .gather, _ => if segs.all fun g => rowKept core g.1 lr.pub then fillRow s1 core r.ctx segs else s1
    | .load _, _ | .block _, _ => segs.foldl (fun t g =>
        if cacheable core g.1 lr.pub then fillLine t core r.ctx g.1 (r.pol == .keep) else t) s1
    | _, _ => s1
  else s1

/-! ## RESULT_RETURN -/

/-- The reads of a result that are still to be performed. -/
def openReads (r : Result) : List LaneRead := r.reads.filter fun l => l.val.isNone

/-- The reads of a result to distinct places, in order: lanes that name one place read one value, and the gather engine
fetches each row once (R168, R171, R198). -/
def distinctReads : List LaneRead → List LaneRead → List LaneRead
  | [], acc => acc
  | l :: t, acc => distinctReads t (if acc.any fun a => a.segs == l.segs then acc else acc ++ [l])

/-- The values of distinct reads, each with its pieces, from a copy (`copy`) or at the homes. Pieces of another device
take their bytes, in order, from `others`. -/
def fetchReads (s : State) (r : Result) (core : Nat) (copy : Bool) :
    List LaneRead → List Byte → State → State × List (List (Nat × Nat) × List Byte)
  | [], _, t => (t, [])
  | lr :: rest, o, t =>
    match if copy then copyBytes s r core lr else none with
    | some bs =>
      let q := fetchReads s r core copy rest o t
      (q.1, (lr.segs, bs) :: q.2)
    | none =>
      let t1 := afterHome t r core lr (localPieces s r.ctx lr.segs)
      let q := fetchReads s r core copy rest (o.drop (awayCount s r.ctx lr.segs)) t1
      (q.1, (lr.segs, readPieces s r.ctx lr.segs o) :: q.2)

/-- Gives the lanes named by `which` their values, all lanes of one place the same one. -/
def fillReads (s : State) (r : Result) (core : Nat) (copy : Bool) (which : LaneRead → Bool) (others : List Byte) :
    State × List LaneRead :=
  let q := fetchReads s r core copy (distinctReads ((openReads r).filter which) []) others s
  (q.1, r.reads.map fun l =>
    if l.val.isSome then l
    else match q.2.find? fun v => v.1 == l.segs with
      | some v => { l with val := some v.2 }
      | none => l)

def laneBytes (r : Result) (lane : Nat) : List Byte :=
  ((r.reads.find? fun lr => lr.lane == lane).bind (·.val)).getD []

/-- The number a load gives to a register of w bits (R170). -/
def loadValue (f : LoadFmt) (w : Nat) (bs : List Byte) : Nat :=
  if f.sx then wrapInt w (signedOf (8 * f.bytes) (ofBytes bs)) else ofBytes bs

/-- The element code, or the scale for part 1, that a block gives to a lane, and BADPACK (R173). -/
def blockValue (f : MxFmt) (r : Result) (part lane : Nat) : Nat :=
  let b := mxDecode f (laneBytes r (lane / 32))
  if part = 0 then (b.1[lane % 32]?).getD 0 else b.2.1

/-- What a result with its values writes. -/
def resultWrites (r : Result) (w : Nat) : Writes :=
  let vec := fun (f : Nat → Nat → Nat) => r.dst.map fun d =>
    { name := d.2.1, lanes := d.2.2, vals := (List.range w).map fun l => BitVec.ofNat 32 (f d.1 l) : VWrite }
  match r.kind with
  | .writes x => x
  | .load f =>
    { v := vec fun q l => loadValue f 128 (laneBytes r l) / 2 ^ (32 * q)
      s := r.sdst.map fun n => (n, BitVec.ofNat 64 (loadValue f 64 (laneBytes r 0)))
      push := r.push.map fun c => (c, (List.range w).map fun l => BitVec.ofNat 64 (loadValue f 32 (laneBytes r l))) }
  | .gather => { v := vec fun q l => ofBytes (((laneBytes r l).drop (4 * q)).take 4) }
  | .block f =>
    { v := vec fun q l => blockValue f r q l
      fl := if r.reads.any fun lr => (mxDecode f (lr.val.getD [])).2.2 then flBadpack else 0 }
  | .atomic =>
    { v := vec fun q l => ofBytes (laneBytes r l) / 2 ^ (32 * q)
      s := r.sdst.map fun n => (n, BitVec.ofNat 64 (ofBytes (laneBytes r 0)))
      fl := r.fl }
  | .held => {}

def agentW (s : State) (aid : Nat) : Nat := ((getAgent s aid).bind fun a => getStroke s a.stroke).elim 32 (·.width)

/-- Writes a result and ends it (R10, R20). -/
def writeResult (s : State) (id : Nat) (r : Result) : State :=
  applyWrites (dropResult s id) r.agent (resultWrites r (agentW s r.agent))

/-- Lanes of a fault found on some of the reads. -/
def readLanes (r : Result) (bad : List Nat) : Mask :=
  match r.kind with
  | .block _ => r.mask &&& maskOf 128 fun l => bad.contains (l / 32)
  | _ => if r.sdst ≠ [] ∨ r.push.isSome then r.mask else r.mask &&& maskOf 128 fun l => bad.contains l

/-- The address of the access that a read's refusal names: that of a scale read apart where its elements are served
here (R173, R216). -/
def refusedVa (s : State) (ctx : Nat) (l : LaneRead) : Nat :=
  match l.scaleVa with
  | some v => if (l.segs.dropLast).all fun g => reachOf s ctx false [g] matches .here _ then v else l.va
  | none => l.va

/-- A remote refusal reported late as XLATE (R216). -/
def remoteXlate (s : State) (id : Nat) (r : Result) (bad : List LaneRead) : State :=
  failResult s id r
    { cause := .xlate, aux := 0x10000, lanes := readLanes r (bad.map (·.lane))
      addr := BitVec.ofNat 64 ((bad.head?).elim 0 (refusedVa s r.ctx)) }

/-- A remote word with an uncorrectable error, reported late as DATAERR (R216, R347). -/
def remoteDataErr (s : State) (id : Nat) (r : Result) (bad : List LaneRead) : State :=
  failResult { s with freeN := s.freeN + 1 } id r
    { cause := .dataerr, aux := 0x10000, lanes := readLanes r (bad.map (·.lane))
      addr := BitVec.ofNat 64 ((bad.head?).elim 0 fun l => awayWord s r.ctx l.segs) }

/-- Reads of a result that this device's own windows refuse, and those that meet an uncorrectable word (R216, R347). -/
def refusedReads (s : State) (r : Result) : List LaneRead := (openReads r).filter fun l => pieceRefused s r.ctx l.segs

/-- A read that a copy serves meets no word. -/
def badReads (s : State) (r : Result) (copy : Bool) : List (LaneRead × Nat × Nat) :=
  (openReads r).filterMap fun l =>
    if copy && (copyBytes s r (agentCore s r.agent) l).isSome then none
    else (piecesBad s r.ctx l.segs).map fun w => (l, w)

/-- The reads of a result are performed: late faults, else its values. -/
def performRead (s : State) (id : Nat) (r : Result) (copy : Bool) (others : List Byte) : State :=
  let ref := refusedReads s r
  let bad := badReads s r copy
  if ref ≠ [] then remoteXlate s id r ref
  else match bad with
    | (_, name, _) :: _ =>
      -- one error for each word: lanes that name one word read it once
      failResult ((bad.map fun b => b.2.2).eraseDups.foldl (fun t w => uncorrectable t w r.ctx) s) id r
        { cause := .dataerr, addr := BitVec.ofNat 64 name, aux := if bitAt name 51 then 0x10000 else 0
          lanes := readLanes r (bad.map fun b => b.1.lane) }
    | [] =>
      let core := agentCore s r.agent
      let q := fillReads s r core copy (fun _ => true) others
      acquirePerformed (writeResult q.1 id { r with reads := q.2 }) core r.ord r.scp

/-- Whether another device must answer a result's reads. -/
def resultAway (s : State) (r : Result) : Bool := (openReads r).any fun l => pieceAway s r.ctx l.segs

/-- Whether the fabric has dropped a read's request or its response, by its age or by an error (R315, R316). -/
def readGone (s : State) (r : Result) : Bool := r.lost || tooOld s r.issued

/-- Whether a result can return, served so. -/
def resultReady (s : State) (id : Nat) (r : Result) (how : Served) : Bool :=
  !pushHeld s r.agent (resultPush r) id &&
  match r.kind with
  | .writes _ => true
  | .held => r.late.isSome
  | .atomic => r.waits == 0
  | _ =>
    !readGone s r && mayPerform s (resultPend id r) &&
      match how with
      | .home | .copy => !resultAway s r
      | .remote _ | .remoteRefused | .remoteErr => resultAway s r

/-- Some lanes' reads are performed before the others: accesses of one instruction to different places are unordered
(R168, R198). Only reads that meet no fault and no other device; the result returns with the last of them. -/
def performLanes (s : State) (id : Nat) (lanes : Mask) (copy : Bool) : State :=
  match tabGet s.results id with
  | none => s
  | some r =>
    let which := fun (l : LaneRead) => lanes.getLsbD l.lane && !pieceAway s r.ctx l.segs
    if isRead r && !readGone s r && mayPerform s (resultPend id r) && (refusedReads s r).isEmpty && (badReads s r copy).isEmpty then
      let q := fillReads s r (agentCore s r.agent) copy which []
      if q.2.all fun l => l.val.isSome then s
      else { q.1 with results := tabPut q.1.results id { r with reads := q.2 } }
    else s

def execResultReturn (id : Nat) (how : Served) (s : State) : Out :=
  .next (match tabGet s.results id with
    | none => s
    | some r =>
      if resultReady s id r how then
        match r.late with
        | some t => failResult s id r t
        | none =>
          if isRead r then
            match how with
            | .home => performRead s id r false []
            | .copy => performRead s id r true []
            | .remote bs => performRead s id r true bs
            | .remoteRefused => remoteXlate s id r ((openReads r).filter fun l => pieceAway s r.ctx l.segs)
            | .remoteErr => remoteDataErr s id r ((openReads r).filter fun l => pieceAway s r.ctx l.segs)
          else writeResult s id r
      else s)

/-- ACKTIMEOUT of an access in a stream (R211, R217). -/
def ackTrap (str : Nat) (lanes : Mask) : Trap := { cause := .acktimeout, aux := (streamBit str).setWidth 64, lanes := lanes }

/-- Whether 2^22 cycles have passed since a read was issued. -/
def longSince (s : State) (born : Nat) : Bool := decide (2 ^ 22 ≤ s.cycle - born)

/-- A read without a response for 2^22 cycles, or an atomic whose packet was lost, raises ACKTIMEOUT late (R217, R316). A
read served on this device has by then been dropped (R315). -/
def readTimedOut (s : State) (id : Nat) (r : Result) : Bool :=
  decide (2 ^ 22 ≤ s.cycle - r.issued) &&
    match r.kind with
    | .atomic => decide (0 < r.waits) && !(s.packets.any fun p => p.2.result == some id)
    | .writes _ => false
    | .held => false
    | _ => true

/-! ## WRITE_PACKET_AT_HOME (R170, R172, R175, R210) -/

/-- Puts a value into the lanes of a result. -/
def fillLanes (r : Result) (lanes : List Nat) (bs : List Byte) : Result :=
  { r with reads := r.reads.map fun lr => if lanes.contains lr.lane then { lr with val := some bs } else lr }

/-- One part's update on the bytes that its address holds: the bytes after it, none where nothing is written, and the
flags. -/
def partUpdate (op : PacketOp) (p : PacketPart) (old : List Byte) : Option (List Byte) × BitVec 6 :=
  match op with
  | .write => (some p.bytes, 0)
  | .atom o sgn =>
    let n := old.length
    let r := atomValue o sgn (8 * n) (ofBytes old) (ofBytes p.bytes)
    (some (bytesOf n r.1), p.fl ||| r.2)
  | .cas => (if ofBytes old = ofBytes p.cmp then some p.bytes else none, 0)

/-- What a packet's parts leave: the state, the result's lanes, the flags. Its parts are one update at the home: each sees
in `view` what the ones before it wrote, in a registered region too, whose live bytes they leave (R172, R191). -/
def updateParts (k : Packet) : List (PacketPart × List (Nat × Nat)) → Memory → State × Option Result × BitVec 6 →
    State × Option Result × BitVec 6
  | [], _, acc => acc
  | (p, segs) :: t, view, (s, r, fl) =>
    let old := readSegs view segs
    let u := partUpdate k.op p old
    let (s1, view1) := match u.1 with
      | some bs => (storeSegs s segs bs, writeSegs view segs bs)
      | none => (s, view)
    let seen := if k.after then u.1.getD old else old
    updateParts k t view1 (s1, r.map fun q => fillLanes q p.lanes seen, fl ||| u.2)

def applyParts (k : Packet) (ps : List (PacketPart × List (Nat × Nat))) (acc : State × Option Result × BitVec 6) :
    State × Option Result × BitVec 6 := updateParts k ps acc.1.mem acc

/-- Sends the acknowledgement of a packet, if it is still counted (R210, R211). -/
def sendAck (s : State) (k : Packet) (fault : Option Nat) (fl : BitVec 6) : State :=
  if k.counted then
    { s with ackq := tabPut s.ackq s.fresh
               { stroke := k.stroke, str := k.str, lines := k.lines, fault := fault, group := k.group, fl := fl, born := s.cycle }
             fresh := s.fresh + 1 }
  else s

/-- The result that a packet fills, with one packet less to wait for. -/
def packetResult (s : State) (k : Packet) : Option Result :=
  (k.result.bind (tabGet s.results)).map fun r => { r with waits := r.waits - 1 }

def putResult (s : State) (k : Packet) (r : Option Result) : State :=
  match k.result, r with
  | some id, some q => { s with results := tabPut s.results id q }
  | _, _ => s

/-- The remote address that a packet names. -/
def packetPa (k : Packet) : Nat := ((k.parts.flatMap (·.segs)).head?).elim 0 (·.1)

/-- A packet that the home or the target could not perform: nothing written, a FAULT acknowledgement (R210). -/
def failPacket (s : State) (k : Packet) (pa : Nat) (remote : Bool) : State :=
  let t : Trap := { cause := .dataerr, addr := BitVec.ofNat 64 pa, aux := if remote then 0x10000 else 0
                    lanes := maskOf 128 fun l => k.parts.any fun p => p.lanes.contains l }
  let r := (packetResult s k).map fun q => { q with late := some ((q.late).getD t) }
  sendAck (putResult s k r) k (some pa) 0

/-- What a packet leaves in the core that sent it: a store its bytes in the near copies, an atomic, whose read is served
at the home, the home's value; an acquire wider than a core empties the core's copies (R165, R200, R209). -/
def packetCopies (s : State) (k : Packet) (segs : List (Nat × Nat)) : State :=
  let s1 := if k.op = .write then homeWrite s k.core k.ctx segs else homeRead s k.core k.ctx segs
  acquirePerformed s1 k.core k.ord k.scp

/-- A packet performed at homes of this device. -/
def performPacket (s : State) (k : Packet) (parts : List (PacketPart × List (Nat × Nat))) : State :=
  let segs := (parts.map (·.2)).flatten
  let refuse := match k.op with
    | .write => refusingWord s segs
    | _ => updateRefused s segs
  match refuse with
  | some w =>
    let rem := k.parts.any fun p => remoteNamed p.segs
    failPacket (uncorrectable s w k.ctx) k (if rem then packetPa k else w) rem
  | none =>
    let s0 := clearBad s segs
    let (s1, r, fl) := applyParts k parts (s0, packetResult s k, 0)
    let s2 := putResult s1 k (r.map fun q => { q with fl := q.fl ||| fl })
    sendAck (packetCopies (scribble s2 segs) k segs) k none fl

/-- Splits the bytes that another device answered among the parts, and gives the lanes their values. -/
def remoteParts (k : Packet) : List PacketPart → List Byte → Option Result × BitVec 6 → Option Result × BitVec 6
  | [], _, acc => acc
  | p :: t, olds, (r, fl) =>
    let n := (p.segs.map (·.2)).sum
    let old := (List.range n).map fun i => (olds[i]?).getD 0
    let u := partUpdate k.op p old
    let seen := if k.after then u.1.getD old else old
    remoteParts k t (olds.drop n) (r.map fun q => fillLanes q p.lanes seen, fl ||| u.2)

/-- What homes of this device take of a write that another device also takes part of. -/
def localShare (s : State) (k : Packet) : List (Nat × Nat) × List Byte :=
  if k.op = .write then
    let r := k.parts.map fun p => hereWrites s k.ctx p.segs p.bytes
    (r.flatMap (·.1), r.flatMap (·.2))
  else ([], [])

/-- A packet that another device has performed, with the bytes that its addresses held there: this device's share of it
is written too, or refused (R232, R347). -/
def remotePacket (s : State) (k : Packet) (olds : List Byte) : State :=
  let w := localShare s k
  match engineWrite s k.ctx w.1 w.2 with
  | (s1, some b) => failPacket s1 k b false
  | (s1, none) =>
    let (r, fl) := remoteParts k k.parts olds (packetResult s1 k, 0)
    let s2 := putResult s1 k (r.map fun q => { q with fl := q.fl ||| fl })
    sendAck (acquirePerformed (homeWrite s2 k.core k.ctx w.1) k.core k.ord k.scp) k none fl

/-- Whether a packet can be performed so. -/
def packetReady (s : State) (id : Nat) (k : Packet) (how : RemoteAck) : Bool :=
  let away := k.parts.any fun p => reachOf s k.ctx true p.segs == .away
  mayPerform s (packetPend id k) && (match how with
    | .here => !away
    | _ => away)

/-- A home drops a packet of a killed context and one older than 2^21 cycles, without effect or acknowledgement (R314,
R315). -/
def packetDropped (s : State) (k : Packet) : Bool :=
  !(getCtx s k.ctx).any (fun c => c.killed.isNone) || decide (2 ^ 21 < s.cycle - k.born)

/-- WRITE_PACKET_AT_HOME: a packet is performed at its home, refused there, dropped, or answered by another device. -/
def execWritePacketAtHome (id : Nat) (how : RemoteAck) (s : State) : Out :=
  .next (match tabGet s.packets id with
    | none => s
    | some k =>
      if packetDropped s k then { s with packets := tabDel s.packets id }
      else if packetReady s id k how then
        let s0 := { s with packets := tabDel s.packets id }
        match how with
        | .here =>
          let parts := k.parts.map fun p => (p, reachOf s k.ctx true p.segs)
          if parts.any fun p => p.2 == .refused then failPacket s0 k (packetPa k) true
          else performPacket s0 k (parts.map fun p => (p.1, match p.2 with
            | .here g => g
            | _ => []))
        | .ok olds => remotePacket s0 k olds
        | .refused | .dropped => failPacket s0 k (packetPa k) true
        | .dataErr => failPacket { s0 with freeN := s.freeN + 1 } k (awayWord s k.ctx (k.parts.flatMap (·.segs))) true
      else s)

/-! ## Acknowledgements (R169, R172, R210, R211) -/

/-- One acknowledgement of a flag group: when the last has returned, the flags are set (R172). -/
def groupAck (s : State) (g : Nat) (fl : BitVec 6) : State :=
  match tabGet s.groups g with
  | none => s
  | some q =>
    let q1 := { q with left := q.left - 1, fl := q.fl ||| fl }
    if q1.left = 0 then setFlags { s with groups := tabDel s.groups g } q.stroke q1.fl
    else { s with groups := tabPut s.groups g q1 }

/-- The packets that a counter with `room` left takes now. -/
def takeRoom : Nat → List (Nat × Nat × Nat) → List (Nat × Nat × Nat)
  | _, [] => []
  | room, e :: t => if e.2.2 ≤ room then e :: takeRoom (room - e.2.2) t else []

/-- Sends the packets of a stroke's copies that its counter of stream 0 has room for (R210; log 96). -/
def sendMore (s : State) (stroke : Nat) : State :=
  s.copies.foldl (fun t e =>
    if e.2.stroke = stroke ∧ e.2.unsent ≠ [] then
      let now := takeRoom (4095 - (getStroke t stroke).elim 0 fun k => ackCount k 0) e.2.unsent
      let times := now.map fun p => ((p.1, p.2.1), t.cycle)
      let c := { e.2 with owed := e.2.owed ++ now, unsent := e.2.unsent.drop now.length, sentAt := e.2.sentAt ++ times }
      addAcks { t with copies := tabPut t.copies e.1 c } stroke 0 (now.map fun p => p.2.2).sum
    else t) s

/-- An acknowledgement takes its lines off its stream's counter; a FAULT leaves its mark, the first one's address
(R210). -/
def takeAck (s : State) (stroke str lines : Nat) (fault : Option Nat) : State :=
  match getStroke s stroke with
  | none => s
  | some st =>
    let marks := match fault with
      | some pa => (match tabGet st.marks str with
        | some _ => st.marks
        | none => tabPut st.marks str pa)
      | none => st.marks
    let left := ackCount st str - lines
    setStroke s stroke
      { st with acks := if left = 0 then tabDel st.acks str else tabPut st.acks str left, marks := marks }

/-- ACK_RECEIVED: one older than 2^21 cycles is discarded (R315). -/
def execAckReceived (id : Nat) (s : State) : Out :=
  .next (match tabGet s.ackq id with
    | none => s
    | some k =>
      let s0 := { s with ackq := tabDel s.ackq id }
      if 2 ^ 21 < s.cycle - k.born then s0
      else
        let s1 := match k.group with
          | some g => groupAck s0 g k.fl
          | none => s0
        let s2 := takeAck s1 k.stroke k.str k.lines k.fault
        if k.str = 0 then sendMore s2 k.stroke else s2)

/-- The active lanes of the instruction at which an agent is parked: its KM is bits [54:51] of its word (R30). -/
def parkedLanes (s : State) (a : Agent) : Mask :=
  match fetchWord s (agentCtx s a) a.pc.toNat with
  | .ok w => activeMask a (bitsAt w.toNat 54 51)
  | .error _ => a.em

/-- The streams on which a wait has lasted 2^22 cycles (R169). -/
def timedOut (s : State) (a : Agent) : BitVec 16 :=
  match a.run, getStroke s a.stroke with
  | .parked ⟨.streams m, since⟩, some st =>
    if 2 ^ 22 ≤ s.cycle - since then
      BitVec.ofNat 16 (natOfBits (fun i => m.getLsbD i && ackCount st i != 0) 16)
    else 0
  | _, _ => 0

/-- Whether a read that the agent's instruction makes itself has had no response for 2^22 cycles (R217). -/
def unanswered (s : State) (a : Agent) : Bool :=
  match a.run with
  | .parked ⟨.answer, since⟩ => decide (2 ^ 22 ≤ s.cycle - since)
  | _ => false

def execAcktimeout (aid : Nat) (s : State) : Out :=
  .next (match getAgent s aid with
    | none => s
    | some a =>
      let m := timedOut s a
      if m = 0 ∧ !unanswered s a then s
      else match a.owed with
        -- the vector of a trap has not come: no entry is possible (R325)
        | some t => enterTrap s aid t
        | none => enterTrap (setAgent s aid { a with run := .ready, waitFrom := none }) aid
          { cause := .acktimeout, aux := m.setWidth 64, lanes := parkedLanes s a })

/-! ## Losses (R315, R316, R346) -/

/-- Whether the packet of a copy's part is on its way: sent and not answered, and not lost. -/
def partAbroad (c : Copy) (k d : Nat) : Bool :=
  (c.served.all fun e => !(e.1 == k && e.2.1 == d)) && (c.unsent.all fun e => !(e.1 == k && e.2.1 == d)) &&
    !c.lost.contains (k, d) &&
    (if d = 0 then !c.done.contains k && !c.failed.contains k
     else c.mcast && decide (d ≤ c.dests.length) && decide (128 * k < c.bytes))

/-- The cycle in which the packet of a copy's part was sent. -/
def partBorn (c : Copy) (k d : Nat) : Nat := ((c.sentAt.find? fun e => e.1 == (k, d)).map (·.2)).getD c.born

/-- The cycle in which an outstanding read was made, if nothing of it has been dropped: of a load or a gather, of an
operand fill, of an image, of an SLOAD, of a WAITF. -/
def readBorn (s : State) (id : Nat) : Option Nat :=
  ((tabGet s.results id).bind fun r => if isRead r && !r.lost then some r.issued else none).or
  (((tabGet s.fills id).bind fun f => if f.lost then none else some f.born).or
  (((tabGet s.images id).bind fun f => if f.lost then none else some f.born).or
  (((tabGet s.setOps id).bind fun o => match o.act with
      | .sload _ _ => if o.lost then none else some o.since
      | _ => none).or
  (s.agents.findSome? fun a => a.2.waitf.bind fun r => if r.id = id ∧ !r.lost then some r.born else none))))

/-- An outstanding read has lost its request or its response. -/
def loseRead (s : State) (id : Nat) : State :=
  { s with
    results := tabMod s.results id fun r => { r with lost := true }
    fills := tabMod s.fills id fun f => { f with lost := true }
    images := tabMod s.images id fun f => { f with lost := true }
    setOps := tabMod s.setOps id fun o => { o with lost := true }
    agents := tabMap (fun _ a => { a with waitf := a.waitf.map fun r => if r.id = id then { r with lost := true } else r }) s.agents }

/-- The cycle in which what the fabric carries was sent, if it carries it. -/
def parcelBorn (s : State) : Parcel → Option Nat
  | .packet id => (tabGet s.packets id).map (·.born)
  | .ack id => (tabGet s.ackq id).map (·.born)
  | .deposit id => (tabGet s.deposits id).map (·.born)
  | .part id k d => (tabGet s.copies id).bind fun c => if partAbroad c k d then some (partBorn c k d) else none
  | .read id => readBorn s id

/-- It is lost: nobody performs or receives it. -/
def loseParcel (s : State) : Parcel → State
  | .packet id => { s with packets := tabDel s.packets id }
  | .ack id => { s with ackq := tabDel s.ackq id }
  | .deposit id => { s with deposits := tabDel s.deposits id }
  | .part id k d => { s with copies := tabMod s.copies id fun c => { c with lost := (k, d) :: c.lost } }
  | .read id => loseRead s id

def execPacketAgeDiscard (p : Parcel) (s : State) : Out :=
  .next (match parcelBorn s p with
    | none => s
    | some b => if tooOld s b then loseParcel s p else s)

/-- A header with an uncorrectable error: the packet is dropped, and the record holds the port, the link and the physical
layer (R316). -/
def execUncorrectableHeaderDrop (p : Parcel) (atHome : Bool) (port link layer : Nat) (s : State) : Out :=
  let u : ErrUnit := { cls := 4, num := link }
  .next (if (parcelBorn s p).isSome then
    let s1 := bumpUnit (loseParcel s p) u 0 0
    addLog s1 0 2 u 0 (unitCount s1 u) (some { atHome := atHome, port := port, link := link, layer := layer })
  else s)

/-- The link retransmits: only the lane's counter and the log show it (R217, R348). -/
def execFlitCrcRetransmit (lane : Nat) (s : State) : Out :=
  .next (bumpUnit s { cls := 3, num := lane } 0 0)

end Sys2Proof.Machine
end

