-- ==== Sys2Proof/Machine/Matrix.lean ====
section
/-! DEFINITION. The sign-select matrix array (spec/06_matrix.md R111-R131; spec/01_machine.md R16). -/

namespace Sys2Proof.Machine
open Sys2Proof

/-! ## Format words (R82-R84) -/

def wAfmt (w : Nat) : Nat := bitsAt w 3 0
def wBfmt (w : Nat) : Nat := bitsAt w 7 4
def wOfmt (w : Nat) : Nat := bitsAt w 11 8
def wEacc (w : Nat) : Int := signedOf 10 (bitsAt w 21 12)
def wRnd (w : Nat) : Nat := bitsAt w 24 22
def wSat (w : Nat) : Bool := bitAt w 25
def wRaw (w : Nat) : Bool := bitAt w 26

def legalA (f : Nat) : Bool := [0, 1, 2].contains f
def legalB (f : Nat) : Bool := [0, 2, 3, 4, 5].contains f
def legalOut (f : Nat) : Bool := [0, 1, 6, 7, 8, 9, 10, 11].contains f

/-- R84. -/
def wordOk (w : Nat) : Bool :=
  decide (w < 2 ^ 27) && legalA (wAfmt w) && legalB (wBfmt w) && legalOut (wOfmt w) && decide (wRnd w ≤ 4) &&
    (!wRaw w || (wOfmt w == 0 && wRnd w == 0 && !wSat w))

def rndOf (n : Nat) : Rnd :=
  match n with
  | 0 => .rne
  | 1 => .rtz
  | 2 => .rup
  | 3 => .rdn
  | _ => .rsk

/-- Fraction bits of a format (R83). -/
def fracOf (f : Nat) : Nat := if f = 2 then 6 else 0

/-- Whether a format carries block scales. -/
def isMx (f : Nat) : Bool := f == 2 || f == 5

/-! ## The claim (R16, R112) -/

/-- The core's matrix state for a panel: begun where it is free; a park while another panel holds it. -/
def claim (s : State) (x : Ctxt) : Eff (State × Matrix) :=
  match (getCore s x.p.core).matrix with
  | none =>
    let m : Matrix := { owner := x.st.panel }
    .ok (setCore s x.p.core { getCore s x.p.core with matrix := some m }, m)
  | some m => if m.owner = x.st.panel then .ok (s, m) else .error (.park .matrix)

def putMatrix (s : State) (core : Nat) (m : Matrix) : State :=
  setCore s core { getCore s core with matrix := some m }

def tileOf (m : Matrix) (t : Nat) : Tile := (tabGet m.tiles t).getD {}

def putTile (s : State) (core : Nat) (m : Matrix) (t : Nat) (v : Tile) : State :=
  putMatrix s core { m with tiles := tabPut m.tiles t v }

/-- Elements of a tile; none listed: all zero. -/
def tileAcc (t : Tile) : List Int := if t.acc = [] then List.replicate 4096 0 else t.acc

/-- An image read of the tile has not finished (R114). -/
def tileBusy (s : State) (core tile : Nat) : Bool :=
  s.images.any fun f => f.2.tile == tile && agentCore s f.2.agent == core

/-! ## The shape of a matrix instruction (R121) -/

def matPlace : Place := { meld := false }

/-- The checks of a matrix instruction in the order of R322, with its claim, and the values of its sources. `pre`: the
checks of its description that come before it may park for the claim, ILLWAIT among them (R243). -/
def matGather (s : State) (x0 : Ctxt) (h : Hdr) (ss : List Src) (refs : List Ref) (uni : List Nat)
    (pre : State → Ctxt → List (Nat → Nat) → Eff Unit := fun _ _ _ => .ok ()) :
    Eff (State × Ctxt × Matrix × List (Nat → Nat)) := do
  let lanes := activeMask x0.a h.km
  checkPlace x0 lanes matPlace
  let (s, x) ← switchMark s x0 h.sw
  checkMeldPairs x lanes ss refs
  checkRegs x lanes ss (refs ++ selRefs x h.km)
  checkUniform x lanes ss uni
  checkMeld x lanes matPlace
  if h.km ≠ 0 ∨ x.a.em ≠ x.st.populated ∨ x.a.frag ∨ x.a.frames ≠ [] then trapAt .partialmask lanes
  checkReads x lanes (selRefs x h.km)
  let (s, x) := pullAll s x ss
  let vs ← srcValues s x lanes ss ss.length 0
  pre s x vs
  let (s, m) ← claim s x
  return (s, x, m, vs)

/-- A matrix instruction up to its own description, with its claim. `srcs` by the stroke's width. -/
def matInstr (s : State) (h : Hdr) (srcs : Nat → List Src) (refs : List Ref) (uni : List Nat)
    (body : State → Ctxt → Matrix → Mask → List Src → List (Nat → Nat) → Eff State)
    (pre : Mask → State → Ctxt → List (Nat → Nat) → Eff Unit := fun _ _ _ _ => .ok ()) : State :=
  runAgent s fun x0 => do
    let (s, x, m, vs) ← matGather s x0 h (srcs x0.w) refs uni (pre (activeMask x0.a h.km))
    body s x m (activeMask x0.a h.km) (srcs x0.w) vs

/-- The one format word of the active lanes: FMTVOTE kind 1 where they differ. -/
def voteWord (x : Ctxt) (lanes : Mask) (v : Nat → Nat) : Eff Nat :=
  let ls := laneList lanes x.w
  let w := v ((ls.head?).getD 0) % 2 ^ 32
  if ls.all fun l => v l % 2 ^ 32 == w then .ok w else trapAt .fmtvote lanes 1

def checkWord (lanes : Mask) (w : Nat) : Eff Unit := if wordOk w then .ok () else trapAt .resfield lanes

/-- An error of the tile storage (R124, R323). -/
def tileErr {α : Type} (core : Nat) (lanes : Mask) (tile row : Nat) : Eff α :=
  trapMet (arraysOf core) lanes (BitVec.ofNat 64 (tile + 8 * row + 512))

/-! ## GANG (R115) -/

def gangPos (g idx : Nat) : Nat := ((List.range idx).filter fun i => bitAt g i).length

/-- Strokes of a list, in position order. -/
def gangList (g : Nat) : List Nat := (List.range 32).filter fun i => bitAt g i

/-- Every waiting member of the rendezvous takes a trap, and the latch is free (R116, R122). -/
def breakLatch (s : State) (core : Nat) (t : Trap) : State :=
  match (getCore s core).matrix with
  | none => s
  | some m =>
    match m.latch with
    | none => s
    | some (_, ms) =>
      ms.foldl (fun u e => match getAgent u e.agent with
        | none => u
        | some a => enterTrap (setAgent u e.agent { a with run := .ready, mmaAt := false, waitFrom := none }) e.agent
            { t with lanes := a.em }) (putMatrix s core { m with latch := none })

/-- A stroke named in the latch's list leaves: ILLWAIT for the members that wait (R116). -/
def leaveGang (s : State) (panel core idx : Nat) : State :=
  match (getCore s core).matrix with
  | none => s
  | some m =>
    match m.latch with
    | none => s
    | some (l, _) =>
      if m.owner = panel ∧ bitAt l idx then breakLatch s core { cause := .illwait, aux := 3 } else s

/-- The list of a GANG, from the lowest active lane. -/
def gangVal (x : Ctxt) (lanes : Mask) (vs : List (Nat → Nat)) : Nat := val vs 0 ((lowestLane lanes x.w).getD 0)

/-- The checks of a gang list (R115). -/
def checkGang (lanes : Mask) (_ : State) (x : Ctxt) (vs : List (Nat → Nat)) : Eff Unit := do
  let v := gangVal x lanes vs
  if 2 ^ 32 ≤ v then trapAt .resfield lanes
  if v ≠ 0 then
    -- no list can name a task stroke (R284)
    if x.p.task then trapAt .illwait lanes 3
    let n := (gangList v).length
    if n < 2 ∨ 6 < n ∨ 2 ^ x.p.strokes.length ≤ v ∨ !bitAt v x.st.idx then trapAt .resfield lanes
    if classOf x.c.record 1 = 2 then trapAt .illwait lanes 3

def execGang (h : Hdr) (a : Opd) (s : State) : Out :=
  let src := srcOf a 1 1 h.la
  .next (matInstr s h (fun _ => [src]) [] [0] (pre := checkGang) fun s x _ lanes srcs vs => do
    let v := gangVal x lanes vs
    let s1 := if v = x.st.gang.toNat then s else leaveGang s x.st.panel x.p.core x.st.idx
    let s2 := match getStroke s1 x.a.stroke with
      | some k => setStroke s1 x.a.stroke { k with gang := BitVec.ofNat 32 v }
      | none => s1
    commitRegs s2 { x with st := (getStroke s2 x.a.stroke).getD x.st } { sw := h.sw, size := sizeOf a, srcs := srcs }
      lanes {})

/-! ## Operand loads (R117-R120) -/

/-- Bytes of a row of ks steps, with its blocks joined (R117). -/
def rowBytes (f ks : Nat) : Nat :=
  match f with
  | 0 => 32 * ks
  | 1 => 64 * ks
  | 2 => 33 * ks
  | 3 => 16 * ks
  | 4 => ceilDiv (32 * ks) 5
  | _ => 8 * ks

/-- The accesses of one row, each tagged 16 × row + block: a block with its scale, or the whole row. -/
def rowAccs (f ks : Nat) (d : MDesc) (base : Nat) (row x : Nat) : List Acc :=
  let at0 : Int := (base : Int) + x * d.stride.toNat
  if f = 2 then
    (List.range ks).flatMap fun j =>
      if d.split then
        [{ lane := 16 * row + j, addr := at0 + 32 * j, n := 32, align := 1 },
         { lane := 16 * row + j, addr := (base : Int) + d.sofs.toInt + x * (d.stride.toNat / 32) + j, n := 1, align := 1 }]
      else [{ lane := 16 * row + j, addr := at0 + 33 * j, n := 33, align := 1 }]
  else if f = 5 then
    (List.range ks).map fun j => { lane := 16 * row + j, addr := at0 + 8 * j, n := 8, align := 1 }
  else [{ lane := 16 * row, addr := at0, n := rowBytes f ks, align := 1 }]

/-- The pieces of each of the 64 rows, block by block. -/
def rowPieces (ps : List Placed) (row : Nat) : List (List (Nat × Nat)) :=
  let mine := ps.filter fun p => p.lane / 16 == row
  (List.range 16).filterMap fun j =>
    let g := ((mine.filter fun p => p.lane % 16 == j).map (·.segs)).flatten
    if g = [] then none else some g

/-- The descriptor's rules that depend on the format (R117). -/
def checkDesc (lanes : Mask) (f : Nat) (d : MDesc) : Eff Unit :=
  if (d.split ∧ (f ≠ 2 ∨ d.stride.toNat % 32 ≠ 0)) ∨ (!d.split ∧ d.sofs ≠ 0) then trapAt .resfield lanes else .ok ()

/-- The pieces of MX blocks: each block is read as one unit, and so at its homes, since a near copy may hold bytes that
this core has stored beside older ones (R165, R232). -/
def blockPieces (f : Nat) (rows : List (List (List (Nat × Nat)))) : List (Nat × Nat) :=
  if f = 2 ∨ f = 5 then (rows.flatten).flatten else []

/-- A fill of 64 rows from placed accesses. -/
def fillOf (s : State) (x : Ctxt) (isB : Bool) (idx f n base : Nat) (d : MDesc) (ps : List Placed) : Fill :=
  let rows := (List.range 64).map (rowPieces ps)
  { agent := x.aid, po := x.po, stroke := x.a.stroke, panel := x.st.panel, core := x.p.core, ctx := x.p.ctx, isB := isB
    idx := idx, fmt := f, ks := n, str := d.str, rows := rows, places := ps.map fun p => (p.va, p.segs)
    pubs := (ps.filter (·.pub)).flatMap (·.segs) ++ blockPieces f rows, base := base, stride := d.stride.toNat
    before := x.a.before, born := s.cycle }

/-- Issues a fill: every address check, then the reads under way. `rows`: the index of each row. -/
def startFill (s : State) (x : Ctxt) (lanes : Mask) (isB : Bool) (idx f n base : Nat) (d : MDesc) (rows : Nat → Nat) :
    Eff State := do
  checkDesc lanes f d
  let ps ← placeAll s x lanes .one .r ((List.range 64).flatMap fun m => rowAccs f n d base m (rows m))
  return { s with fills := tabPut s.fills s.fresh (fillOf s x isB idx f n base d ps), fresh := s.fresh + 1 }

/-- The sources of MXLD: its index (two registers or two entries where W is 32) and its format word. -/
def mxldSrcs (h : Hdr) (idx : Opd) (fw w : Nat) : List Src :=
  let i := srcOf idx (if w = 32 ∧ !isChan idx then 2 else 1) 2 h.lb
  (match idx with
    | .pop _ => if w = 32 then [i, i] else [i]
    | _ => [i]) ++ [srcOf (.v fw) 1 3 h.lc]

/-- The index of row m (R118). -/
def rowIndex (w : Nat) (idx : Opd) (vs : List (Nat → Nat)) (second : Nat → Nat) (m : Nat) : Nat :=
  if 64 ≤ w then val vs 0 m % 2 ^ 32
  else if m < 32 then val vs 0 m % 2 ^ 32
  else match idx with
    | .v _ => val vs 0 (m - 32) / 2 ^ 32
    | .pop _ => val vs 1 (m - 32) % 2 ^ 32
    | _ => second (m - 32) % 2 ^ 32

/-- The second entry that a peeked index takes at W = 32. -/
def secondPeek (s : State) (x : Ctxt) (lanes : Mask) (idx : Opd) : Eff (Nat → Nat) :=
  match idx with
  | .peek c =>
    if x.w = 32 then do
      let e ← chanEntry s x lanes c 1
      return fun l => ((e[l]?).getD 0).toNat
    else .ok fun _ => 0
  | _ => .ok fun _ => 0

def execMxld (h : Hdr) (half n base : Nat) (idx : Opd) (fw : Nat) (ds : MDesc) (s : State) : Out :=
  .next (matInstr s h (mxldSrcs h idx fw) [.s base 1] [] fun s x _ lanes srcs vs => do
    match idx with
    | .v k => if x.w = 32 ∧ 0xBF ≤ k then trapAt .resfield lanes
    | _ => pure ()
    if gangPos x.st.gang.toNat x.st.idx ≠ 0 then trapAt .resfield lanes
    let w ← voteWord x lanes (val vs (srcs.length - 1))
    checkWord lanes w
    if 8 < n ∨ (wAfmt w = 1 ∧ 4 < n) then trapAt .resfield lanes
    let (s, x) := match idx with
      | .peek c => if x.w = 32 then pullGroup s x c 2 else (s, x)
      | _ => (s, x)
    let two ← secondPeek s x lanes idx
    let s1 ← startFill s x lanes false half (wAfmt w) n (sReg x.a base).toNat ds (rowIndex x.w idx vs two)
    commitRegs s1 x { sw := h.sw, size := 16, srcs := srcs } lanes {})

def execMxlb (h : Hdr) (slot n base : Nat) (fw : Nat) (ds : MDesc) (s : State) : Out :=
  .next (matInstr s h (fun _ => [srcOf (.v fw) 1 3 h.lc]) [.s base 1] [] fun s x _ lanes srcs vs => do
    let w ← voteWord x lanes (val vs 0)
    checkWord lanes w
    if 8 < n then trapAt .resfield lanes
    let s1 ← startFill s x lanes true slot (wBfmt w) n (sReg x.a base).toNat ds id
    commitRegs s1 x { sw := h.sw, size := 16, srcs := srcs } lanes {})

/-- The 32 element values of each block of a row, its scales, and BADPACK (R68, R71, R74, R75). -/
def rowValues (f ks : Nat) (bs : List Byte) : List Int × List Nat × Bool :=
  let b := fun (i : Nat) => ((bs[i]?).getD 0).toNat
  match f with
  | 0 => ((List.range (32 * ks)).map fun i => signedOf 8 (b i), [], false)
  | 1 => ((List.range (32 * ks)).map fun i => signedOf 16 (b (2 * i) + 256 * b (2 * i + 1)), [], false)
  | 2 => ((List.range (32 * ks)).map fun i => signedOf 8 (b (33 * (i / 32) + i % 32)),
      (List.range ks).map fun j => b (33 * j + 32), false)
  | 3 => ((List.range (32 * ks)).map fun i => signedOf 4 (b (i / 2) / 16 ^ (i % 2)), [], false)
  | 4 =>
    let t := (bs.take (rowBytes 4 ks)).map fun x => tritsOf x.toNat
    (((t.map (·.1)).flatten).take (32 * ks), [], t.any (·.2))
  | _ =>
    let t := (List.range ks).map fun j => mxtTrits ((bs.drop (8 * j)).take 8)
    ((t.map (·.1)).flatten, (List.range ks).map fun j => b (8 * j + 7), t.any (·.2))

/-- The rows of a fill read in order: elements, scales, BADPACK, with their bytes. A row at the place of an earlier one
is that one, read once: `seen` (R118, R198). -/
def fillRows (q : Fill) : State → List (List (List (Nat × Nat))) → List (List (Nat × Nat) × List Byte) →
    State × List ((List Int × List Nat × Bool) × List Byte)
  | s, [], _ => (s, [])
  | s, r :: t, seen =>
    let d := match seen.find? fun e => e.1 == r.flatten with
      | some e => (s, e.2)
      | none => readUnit q.core q.ctx q.pubs s r.flatten
    let u := fillRows q d.1 t ((r.flatten, d.2) :: seen)
    (u.1, (rowValues q.fmt q.ks d.2, d.2) :: u.2)

def fillSegs (f : Fill) : List (Nat × Nat) := (f.rows.flatten).flatten

/-- A fill may end: its reads may be performed, none has been dropped (R315, R316), and no older fill of the same half or
slot is under way (R114). -/
def fillReady (s : State) (id : Nat) (f : Fill) : Bool :=
  !f.lost && !tooOld s f.born && mayPerform s (fillPend id f) &&
    s.fills.all fun g => decide (id ≤ g.1) || g.2.core != f.core || g.2.isB != f.isB || g.2.idx != f.idx

/-- What a fill leaves in the half or slot, with the error that it met (R120). Its rows are read in one step (log 45). -/
def filled (s : State) (f : Fill) : State × Operand :=
  let bad := unitBad s f.core f.ctx f.pubs (fillSegs f)
  let r := fillRows f (tookAnswer s f.ctx (fillSegs f)) f.rows []
  let s1 := if f.isB && r.2.any (·.1.2.2) then setFlags r.1 f.stroke flBadpack else r.1
  let s2 := bad.elim s1 (metBad s1 f.ctx)
  (s2, { fmt := f.fmt, ks := f.ks, rows := r.2.map (·.1.1), scales := r.2.map (·.1.2.1), raw := r.2.map (·.2)
         err := bad.map (·.1), tagCtx := f.ctx
         tagBase := f.base, tagStride := f.stride })

/-- The virtual address of the first of a fill's accesses that is refused, or else lies on another device (R216). -/
def fillRefusedVa (s : State) (f : Fill) : Nat :=
  match f.places.find? fun p => pieceRefused s f.ctx p.2 with
  | some p => p.1
  | none => (f.places.find? fun p => pieceAway s f.ctx p.2).elim f.base (·.1)

/-- A fill that brings nothing: the half or slot stays as it was, and its agent has a late fault (R216, R217). -/
def failFill (s : State) (id : Nat) (f : Fill) (c : Cause) (aux : DWord) (addr : Nat) : State :=
  addLate { s with fills := tabDel s.fills id } f.agent id
    { cause := c, aux := aux, addr := BitVec.ofNat 64 addr, lanes := (getAgent s f.agent).elim 0 (·.em) }

/-- Puts what a fill has read into its half or slot, if its panel still holds the claim (R112). -/
def placeOperand (s : State) (f : Fill) (o : Operand) : State :=
  let c := getCore s f.core
  match c.matrix with
  | none => s
  | some m =>
    if m.owner ≠ f.panel then s
    else if f.isB then
      setCore s f.core { c with matrix := some { m with slots := tabPut m.slots f.idx o }
                                tags := tabPut c.tags f.idx (f.ctx, f.base, f.stride) }
    else setCore s f.core { c with matrix := some { m with halves := tabPut m.halves f.idx o } }

/-- OPERAND_FILL_COMPLETE (R118, R119): a refused read is a late XLATE (R216). -/
def execOperandFillComplete (id : Nat) (s : State) : Out :=
  .next (match tabGet s.fills id with
    | none => s
    | some f =>
      if fillReady s id f then
        if unitRefused s f.ctx (fillSegs f) then
          failFill (tookAnswer s f.ctx (fillSegs f)) id f .xlate 0x10000 (fillRefusedVa s f)
        else
          let r := filled { s with fills := tabDel s.fills id } f
          placeOperand r.1 f r.2
      else s)

/-! ## MMA (R122-R124) -/

/-- Block j of each row: elements and scale. -/
def blocksAt (o : Operand) (j : Nat) : List (List Int × Nat) :=
  (List.range 64).map fun m =>
    ((((o.rows[m]?).getD []).drop (32 * j)).take 32,
      if isMx o.fmt then ((((o.scales[m]?).getD [])[j]?).getD 0) else 127)

def dot (a b : List Int) : Int := (List.zipWith (· * ·) a b).foldl (· + ·) 0

/-- P × 2^s, rounded to nearest even where s is negative; whether a bit was lost. -/
def shiftPartial (p : Int) (sh : Int) : Int × Bool :=
  if 0 ≤ sh then (p * ((2 ^ sh.toNat : Nat) : Int), false)
  else
    let d := 2 ^ (-sh).toNat
    let q := p.natAbs / d
    let r := p.natAbs % d
    let k := if 2 * r > d ∨ (2 * r = d ∧ q % 2 = 1) then q + 1 else q
    (if p < 0 then -(k : Int) else k, r != 0)

def acc128Max : Int := 2 ^ 127 - 1
def acc128Min : Int := -(2 ^ 127)

/-- Saturation to 128 bits, and whether it clamped. -/
def sat128 (y : Int) : Int × Bool :=
  if acc128Max < y then (acc128Max, true) else if y < acc128Min then (acc128Min, true) else (y, false)

/-- One element's part of a step: the accumulator and OVF, INEXACT, NAN. -/
def cellStep (off : Int) (a b : List Int × Nat) (acc : Int) : Int × Bool × Bool × Bool :=
  if a.2 = 255 ∨ b.2 = 255 then (acc, false, false, true)
  else
    let q := shiftPartial (dot a.1 b.1) ((a.2 : Int) + b.2 - 254 + off)
    let y := sat128 (acc + q.1)
    (y.1, y.2, q.2, false)

/-- Every element of a tile after a step that is not skipped. -/
def stepTile (ha sb : Operand) (j : Nat) (t : Tile) : Tile :=
  let off : Int := -(fracOf ha.fmt : Int) - fracOf sb.fmt - t.eacc
  let as := blocksAt ha j
  let bs := blocksAt sb j
  let cells := List.zipWith (fun e acc => cellStep off e.1 e.2 acc) (as.flatMap fun a => bs.map fun b => (a, b)) (tileAcc t)
  { t with acc := cells.map (·.1), ovf := t.ovf || cells.any (·.2.1), inexact := t.inexact || cells.any (·.2.2.1)
           nan := t.nan || cells.any (·.2.2.2), written := true }

/-- Whether step j is skipped. -/
def skips (sM : DWord) (sK : DWord) (j : Nat) : Bool := sM.getLsbD ((sK.toNat % 64 + j) % 64)

/-- A tile with the word's EACC where it records none (R123). A tile takes it with its first step, or at the commit of
the MMA: what stops before is no commit point, and leaves the tile as it was (DEDUCED from R10 and R124, log 95). -/
def withEacc (w : Nat) (t : Tile) : Tile :=
  if t.evalid then t else { t with eacc := wEacc w, evalid := true, written := true }

/-- How the steps of a joint MMA end: all done, stopped at a step commit point, or at a row whose storage fails. -/
inductive StepEnd where
  | finished
  | stopped
  | bad (tile row : Nat)
deriving DecidableEq, Repr

/-- Step j on the tile t of member p: the tile at the step's commit point, or the row whose storage fails. -/
def memberStep (w : Nat) (ha : Operand) (slot : Nat → Operand) (skip : Bool) (j p : Nat) (t : Tile) : Except Nat Tile :=
  if skip then .ok { withEacc w t with kdone := j + 1, written := true }
  else match t.bad with
    | some row => .error row
    | none => .ok { stepTile ha (slot p) j (withEacc w t) with kdone := j + 1 }

/-- The steps of a joint MMA in order, each a step number and a member with its position. `left`: the member steps
after which a pre-emption stops it (R124). -/
def runSteps (w : Nat) (ha : Operand) (slot : Nat → Operand) :
    List (Nat × Nat × Member) → Option Nat → Tab Tile → Tab Tile × StepEnd
  | [], _, ts => (ts, .finished)
  | (j, p, e) :: rest, left, ts =>
    let t := (tabGet ts e.tile).getD {}
    if j < t.kdone then runSteps w ha slot rest left ts
    else if left = some 0 then (ts, .stopped)
    else match memberStep w ha slot (skips e.skip e.kbase j) j p t with
      | .error row => (ts, .bad e.tile row)
      | .ok u => runSteps w ha slot rest (left.map (· - 1)) (tabPut ts e.tile u)

/-- Every step of the members: for each step number, the members in position order (R123). -/
def stepList (ks : Nat) (ms : List (Nat × Member)) : List (Nat × Nat × Member) :=
  (List.range ks).flatMap fun j => ms.map fun g => (j, g.1, g.2)

/-- The first condition of R122 that fails, by kind. -/
def voteFail (m : Matrix) (ms : List (Nat × Member)) : Option Nat :=
  match ms with
  | [] => none
  | (_, e) :: _ =>
    let w := ((e.word.head?).getD 0).toNat
    let h := tabGet m.halves e.half
    let slot := fun (p : Nat) => tabGet m.slots p
    let tile := fun (g : Nat × Member) => (tabGet m.tiles g.2.tile).getD {}
    if ms.any fun g => g.2.word.any fun u => u.toNat != w then some 1
    else if (h.map (·.fmt)) ≠ some (wAfmt w) then some 2
    else if ms.any fun g => (slot g.1).map (·.fmt) != some (wBfmt w) then some 3
    else if ms.any fun g => (slot g.1).map (·.ks) != h.map (·.ks) then some 4
    else if ms.any fun g => (tile g).evalid && (tile g).eacc != wEacc w then some 5
    else if ms.any fun g => g.2.list != e.list || g.2.half != e.half || g.2.skip != e.skip || g.2.kbase != e.kbase then
      some 6
    else if (ms.map fun g => g.2.tile).eraseDups.length < ms.length then some 7
    else none

/-- Every member takes a trap; the latch is free. -/
def trapMembers (s : State) (core : Nat) (m : Matrix) (ms : List (Nat × Member)) (t : Trap) : State :=
  ms.foldl (fun u g => match getAgent u g.2.agent with
    | none => u
    | some a => enterTrap (setAgent u g.2.agent { a with run := .ready, mmaAt := false, waitFrom := none }) g.2.agent
        { t with lanes := a.em }) (putMatrix s core { m with latch := none })

/-- Every member commits: its last-read names are freed and it goes on. -/
def commitMembers (s : State) (ms : List (Nat × Member)) : State :=
  ms.foldl (fun u g => match getAgent u g.2.agent with
    | none => u
    | some a =>
      let names := if g.2.last then set192 [g.2.vf] else 0
      setAgent u g.2.agent { a with run := .ready, mmaAt := false, waitFrom := none, live := a.live &&& ~~~names
                                    pc := a.pc + 8 }) s

/-- The tiles at the commit of a joint MMA (R123). -/
def commitTiles (w : Nat) (ms : List (Nat × Member)) (ts : Tab Tile) : Tab Tile :=
  ms.foldl (fun u g => tabPut u g.2.tile { withEacc w ((tabGet u g.2.tile).getD {}) with kdone := 0 }) ts

/-- A running MMA stops at a step commit point: every member waits at its MMA, to issue it again (R124, R332). -/
def stopMembers (s : State) (ms : List (Nat × Member)) : State :=
  ms.foldl (fun u g => match getAgent u g.2.agent with
    | none => u
    | some a => setAgent u g.2.agent { a with run := .parked ⟨.matrix, u.cycle⟩, mmaAt := false }) s

/-- Whether the next move is a request to pre-empt a panel: one that stops issue finds an MMA of the panel running. -/
def requestComes (s : State) (panel : Nat) : Bool :=
  match s.agenda with
  | .event (.preemptRequest _ p _) :: _ => p == panel
  | _ => false

/-- How many member steps a pre-emption of the panel that holds the claim, requested or about to be, leaves to an MMA. -/
def stepsLeft (s : State) (m : Matrix) : Option Nat :=
  if requestComes s m.owner || (getPanel s m.owner).any fun p => p.req.isSome then m.stopAt else none

def noOperand : Operand := { fmt := 0, ks := 0, rows := [], scales := [] }

/-- The context of the panel that holds a claim. -/
def matrixCtx (s : State) (m : Matrix) : Nat := (getPanel s m.owner).elim 0 (·.ctx)

/-- The joint MMA, once every member has arrived: the checks of R122, R84 and R120, then the steps of R123. -/
def jointMma (s : State) (core : Nat) (m : Matrix) (ms : List (Nat × Member)) : State :=
  match ms with
  | [] => s
  | (_, e) :: _ =>
    let w := ((e.word.head?).getD 0).toNat
    match voteFail m ms with
    | some k => trapMembers s core m ms { cause := .fmtvote, aux := BitVec.ofNat 64 k }
    | none =>
      if !wordOk w then trapMembers s core m ms { cause := .resfield }
      else
        let ha := (tabGet m.halves e.half).getD noOperand
        let slot := fun (p : Nat) => (tabGet m.slots p).getD noOperand
        let errs := (ha.err.toList) ++ ms.filterMap fun g => (slot g.1).err
        match errs with
        | pa :: _ =>
          -- an error of a word was counted as the fill met it
          let s1 := if pa = 0 then countError s (arraysOf core) 0 (matrixCtx s m) else s
          trapMembers s1 core m ms { cause := .dataerr, addr := BitVec.ofNat 64 pa, aux := if bitAt pa 51 then 0x10000 else 0 }
        | [] =>
          match runSteps w ha slot (stepList ha.ks ms) (stepsLeft s m) m.tiles with
          | (ts, .bad tile row) =>
            trapMembers (countError s (arraysOf core) 0 (matrixCtx s m)) core { m with tiles := ts } ms
              { cause := .dataerr, aux := BitVec.ofNat 64 (tile + 8 * row + 512) }
          | (ts, .stopped) =>
            stopMembers (putMatrix s core { m with tiles := ts, latch := none, stopAt := none }) ms
          | (ts, .finished) =>
            commitMembers (putMatrix s core { m with tiles := commitTiles w ms ts, latch := none }) ms

/-- The step by which a pre-emption bounds the core's running MMA: it stops once, at that commit point, and goes on when
its members issue it again (R124). -/
def mmaStop (s : State) (core n : Nat) : State :=
  match (getCore s core).matrix with
  | none => s
  | some m => putMatrix s core { m with stopAt := some n }

/-- Whether the half, the slots and the tiles of an MMA are still being written by earlier instructions (R114). -/
def operandsBusy (s : State) (core : Nat) (ms : List (Nat × Member)) : Bool :=
  (s.fills.any fun f => f.2.core == core &&
    ms.any fun g => if f.2.isB then f.2.idx == g.1 else f.2.idx == g.2.half) ||
  ms.any fun g => tileBusy s core g.2.tile

/-- Members in position order. -/
def byPosition (s : State) (list : Nat) (ms : List Member) : List (Nat × Member) :=
  let idxOf := fun (e : Member) => ((getAgent s e.agent).bind fun a => getStroke s a.stroke).elim 0 (·.idx)
  if list = 0 then ms.map fun e => (0, e)
  else (gangList list).zipIdx.filterMap fun q => (ms.find? fun e => idxOf e == q.1).map fun e => (q.2, e)

/-- Whether a list names a stroke that has exited. -/
def namesExited (s : State) (x : Ctxt) (list : Nat) : Bool :=
  (gangList list).any fun i => !((x.p.strokes[i]?).bind (getStroke s)).any fun k => !k.exited

/-- The MMA of a member reaches the rendezvous (R116). A joint MMA stands in the core's order where its last member
arrives (log 74). -/
def arriveMma (s : State) (x : Ctxt) (m : Matrix) (lanes : Mask) (e : Member) : Eff State :=
  let run := fun (ms : List Member) => (do
    let g := byPosition s e.list ms
    if operandsBusy s x.p.core g then .error (.park .matrix)
    return jointMma s x.p.core m g : Eff State)
  let await := fun (ms : List Member) =>
    .ok (blockAgent (setAgent (putMatrix s x.p.core { m with latch := some (e.list, ms) }) x.aid { x.a with mmaAt := true })
      x.aid .matrix)
  let named := e.list ≠ 0 && (m.latch.any fun q => bitAt q.1 x.st.idx)
  if named && m.latch.any fun q => q.1 != e.list then trapAt .fmtvote lanes 6
  else if namesExited s x e.list then trapAt .illwait lanes 3
  else match m.latch with
    | none => if e.list = 0 then run [e] else await [e]
    | some (l, ms) =>
      if !named then .error (.park .matrix)
      else if ms.length + 1 = (gangList l).length then run (ms ++ [e])
      else await (ms ++ [e])

/-- An MMA that parks for the claim is checked for an illegal wait first (R116, R243). -/
def checkGangWait (lanes : Mask) (s : State) (x : Ctxt) (_ : List (Nat → Nat)) : Eff Unit :=
  if (getCore s x.p.core).matrix.any (fun m => m.owner != x.st.panel) && namesExited s x x.st.gang.toNat then
    trapAt .illwait lanes 3
  else .ok ()

def execMma (h : Hdr) (half tile fw skip kbase : Nat) (s : State) : Out :=
  .next (matInstr s h (fun _ => [srcOf (.v fw) 1 1 h.la]) [.s skip 2, .s kbase 3] [] (pre := checkGangWait)
    fun s x m lanes _ vs => arriveMma s x m lanes
      { agent := x.aid, tile := tile, half := half
        word := (laneList lanes x.w).map fun l => BitVec.ofNat 32 (val vs 0 l)
        skip := sReg x.a skip, kbase := sReg x.a kbase, list := x.st.gang.toNat, vf := fw, last := h.la })

/-! ## MXZ and the drains (R125, R126, R128) -/

/-- A matrix instruction on one tile, parked while an image read of the tile is under way (R114). -/
def tileInstr (s : State) (h : Hdr) (tile : Nat) (srcs : List Src) (refs : List Ref)
    (body : State → Ctxt → Matrix → Mask → List (Nat → Nat) → Eff State) : State :=
  matInstr s h (fun _ => srcs) refs [] fun s x m lanes _ vs =>
    if tileBusy s x.p.core tile then .error (.park .matrix) else body s x m lanes vs

def execMxz (h : Hdr) (tile : Nat) (s : State) : Out :=
  .next (tileInstr s h tile [] [] fun s x m _ _ =>
    .ok (stepPc (putTile s x.p.core m tile {}) x.aid 8))

/-- The tile status word (R113). -/
def statusWord (t : Tile) : Nat :=
  t.kdone % 16 + (if t.ovf then 2 ^ 8 else 0) + (if t.inexact then 2 ^ 9 else 0) + (if t.nan then 2 ^ 10 else 0) +
    (if t.evalid then 2 ^ 11 else 0) + wrapInt 10 t.eacc * 2 ^ 12

def execMxdrStat (h : Hdr) (tile d : Nat) (s : State) : Out :=
  .next (tileInstr s h tile [] [.s d 0] fun s x m lanes _ =>
    commitRegs s x { sw := h.sw, size := 8, dsts := [.s d 0], late := true } lanes
      { s := [(d, BitVec.ofNat 64 (statusWord (tileOf m tile)))] })

/-- Bits of an output format. -/
def outBits (f : Nat) : Nat :=
  match f with
  | 0 => 8
  | 1 => 16
  | 6 => 32
  | 7 => 32
  | 8 => 16
  | 9 => 16
  | _ => 8

/-- Round(x, OFMT, RND), saturating where SAT asks for it. -/
def roundOut (f : Nat) (md : RMode) (sat : Bool) (x : Fl) : Nat × BitVec 6 :=
  let int := fun (n : Nat) =>
    let r := roundInt (-((2 ^ (n - 1) : Nat) : Int)) (((2 ^ (n - 1) : Nat) : Int) - 1) md x
    (wrapInt n r.1, r.2)
  match f with
  | 0 => int 8
  | 1 => int 16
  | 6 => int 32
  | 7 => roundFl fmtF32 md sat x
  | 8 => roundFl fmtF16 md sat x
  | 9 => roundFl fmtBf16 md sat x
  | 10 => roundFl fmtE4m3 md sat x
  | _ => roundFl fmtE5m2 md sat x

/-- Acc × 2^E × (ta × tb), and INVALID where a scale is NaN or an infinity meets zero (R125). -/
def drainValue (acc e : Int) (ta tb : Nat) : Fl × BitVec 6 :=
  let a := decodeFl fmtF32 ta
  let b := decodeFl fmtF32 tb
  if a.isNan || b.isNan then (qnan, flInvalid)
  else
    let (p, f1) := flMul a b
    if f1 ≠ 0 then (qnan, flInvalid)
    else
      let (n, d) := scaleQ acc.natAbs 1 e
      flMul (.fin (decide (acc < 0)) n d) p

/-- One element's code and flags. `elem`: 64 m + n. -/
def drainElem (x : Ctxt) (t : Tile) (w : Nat) (e : Int) (ta tb m n : Nat) : Nat × BitVec 6 :=
  let md := rmodeOf (rndOf (wRnd w)) x.c.rkey x.a.rstep.toNat (64 * m + n)
  if t.nan then roundOut (wOfmt w) md (wSat w) qnan
  else
    let v := drainValue (((tileAcc t)[64 * m + n]?).getD 0) e ta tb
    let r := roundOut (wOfmt w) md (wSat w) v.1
    (r.1, v.2 ||| r.2)

/-- A lane's drained word and flags. -/
def drainLane (x : Ctxt) (t : Tile) (w : Nat) (e : Int) (ta tb row0 col i : Nat) : Nat × BitVec 6 :=
  let b := outBits (wOfmt w)
  let k := 32 / b
  let c0 := col - col % k
  let m := row0 + i
  (List.range k).foldl (fun r q =>
    if 63 < m then r
    else
      let v := drainElem x t w e ta tb m (c0 + q)
      (r.1 + v.1 * 2 ^ (b * q), r.2 ||| v.2)) (0, 0)

/-- The row with an error among those that the active lanes of a drain read. -/
def drainBad (t : Tile) (row0 : Nat) (lanes : Mask) : Option Nat :=
  t.bad.bind fun r => if row0 ≤ r ∧ lanes.getLsbD (r - row0) then some r else none

/-- The registers that MXDR writes: four where RAW is set in the format word of the lowest active lane (R123). -/
def drainDst (s : State) (h : Hdr) (d fw : Nat) : Ref :=
  let raw := (theCtxt s).any fun x =>
    let l := ((laneList (activeMask x.a h.km) x.w).head?).getD 0
    wRaw (vLane x.st (laneName x.a fw l) l).toNat
  if raw ∧ d % 4 = 0 ∧ d ≤ 0xBC then .v d 4 0 else .v d 1 0

def execMxdr (h : Hdr) (tile d fw scales : Nat) (pos : Opd) (s : State) : Out :=
  .next (tileInstr s h tile [srcOf (.v fw) 1 1 h.la, srcOf pos 1 3 h.lc] [.s scales 2, drainDst s h d fw]
    fun s x m lanes vs => do
      let srcs := [srcOf (.v fw) 1 1 h.la]
      let p := val vs 1 0
      let row0 := bitsAt p 5 0
      let col := bitsAt p 13 8
      if p ≠ row0 + 256 * col then trapAt .resfield lanes
      let w ← voteWord x lanes (val vs 0)
      checkWord lanes w
      if wRaw w then
        if d % 4 ≠ 0 ∨ 0xBC < d then trapAt .resfield lanes
      let t := tileOf m tile
      if t.evalid && t.eacc != wEacc w then trapAt .fmtvote lanes 5
      match drainBad t row0 lanes with
      | some r => tileErr x.p.core lanes tile r
      | none => pure ()
      if wRaw w then
        commitRegs s x { sw := h.sw, size := sizeOf pos, srcs := srcs, dsts := [.v d 4 0], late := true } lanes
          { v := putV x lanes d (fun i =>
              if row0 + i ≤ 63 then wrapInt 128 (((tileAcc t)[64 * (row0 + i) + col]?).getD 0) else 0) 4 }
      else
        let sc := if scales = 63 then 0x3F8000003F800000 else (sReg x.a scales).toNat
        let one := drainLane x t w (wEacc w) (sc % 2 ^ 32) (sc / 2 ^ 32) row0 col
        commitRegs s x
          { sw := h.sw, size := sizeOf pos, srcs := srcs, dsts := [.v d 1 0], late := true
            bump := rndOf (wRnd w) == .rsk } lanes
          { v := putV x lanes d (fun i => (one i).1) 1, fl := orFlags (laneList lanes x.w) fun i => (one i).2 })

/-! ## Tile images (R127-R129) -/

def imageBytes : Nat := 65600

/-- A tile image: the status word, 56 zero bytes, the elements. -/
def tileImage (t : Tile) : List Byte :=
  bytesOf 8 (statusWord t) ++ List.replicate 56 0 ++ (tileAcc t).flatMap fun a => bytesOf 16 (wrapInt 128 a)

/-- Splits pieces at 128-byte lines. `fuel`: pieces made at most. -/
def linePieces : Nat → List (Nat × Nat) → List (Nat × Nat)
  | 0, g => g
  | _, [] => []
  | fuel + 1, (pa, n) :: t =>
    let k := min n (128 - pa % 128)
    if n ≤ k then (pa, n) :: linePieces fuel t else (pa, k) :: linePieces fuel ((pa + k, n - k) :: t)

/-- Parts of consecutive pieces with their bytes. -/
def pieceParts : List (Nat × Nat) → List Byte → List PacketPart
  | [], _ => []
  | (pa, n) :: t, bs => { lanes := [], segs := [(pa, n)], bytes := bs.take n } :: pieceParts t (bs.drop n)

/-- The base of an image: 64-byte aligned, every byte translated (R128). -/
def placeImage (s : State) (x : Ctxt) (lanes : Mask) (nd : Need) (base : Nat) : Eff (List (Nat × Nat)) := do
  let ps ← placeAll s x lanes .one nd [{ lane := 0, addr := ((sReg x.a base).toNat : Int), n := imageBytes, align := 64 }]
  return (ps.map (·.segs)).flatten

/-- The pieces of an image on publishable pages. -/
def imagePubs (s : State) (ctx va : Nat) (segs : List (Nat × Nat)) : List (Nat × Nat) :=
  (segs.foldl (fun r g => (r.1 + g.2, if isPub s ctx r.1 then r.2 ++ [g] else r.2)) (va, ([] : List (Nat × Nat)))).2

def execMxsave (h : Hdr) (tile base str : Nat) (s : State) : Out :=
  .next (tileInstr s h tile [] [.s base 1] fun s x m lanes _ => do
    let segs ← placeImage s x lanes .w base
    let t := tileOf m tile
    match t.bad with
    | some r => tileErr x.p.core lanes tile r
    | none => pure ()
    let parts := pieceParts (linePieces 2048 segs) (tileImage t)
    checkRoom s x str parts.length
    let k : Packet :=
      { agent := x.aid, po := x.po, stroke := x.a.stroke, core := x.p.core, ctx := x.p.ctx, str := str, op := .write
        parts := [], before := x.a.before, born := s.cycle }
    return stepPc (parts.foldl (fun u p => addPacket u { k with parts := [p] }) s) x.aid 8)

/-- MXADD and MXREST park until the whole image has been read. -/
def readImage (s : State) (h : Hdr) (add : Bool) (tile base str : Nat) : State :=
  tileInstr s h tile [] [.s base 1] fun s x _ lanes _ => do
    let segs ← placeImage s x lanes .r base
    let q : ImageRead :=
      { agent := x.aid, ctx := x.p.ctx, po := x.po, add := add, tile := tile, str := str, segs := segs
        pubs := imagePubs s x.p.ctx (sReg x.a base).toNat segs, va := (sReg x.a base).toNat
        before := x.a.before, born := s.cycle }
    return blockAgent { s with images := tabPut s.images s.fresh q, fresh := s.fresh + 1 } x.aid .matrix

def execMxadd (h : Hdr) (tile base str : Nat) (s : State) : Out := .next (readImage s h true tile base str)
def execMxrest (h : Hdr) (tile base str : Nat) (s : State) : Out := .next (readImage s h false tile base str)

/-- The tile that an image's bytes describe, or none where a reserved value is not 0 (R127, R128). -/
def tileOfImage (bs : List Byte) : Option Tile :=
  let w := ofBytes (bs.take 8)
  if w / 2 ^ 22 ≠ 0 ∨ bitsAt w 7 4 ≠ 0 ∨ ofBytes ((bs.drop 8).take 56) ≠ 0 then none
  else
    let body := bs.drop 64
    let rec elems : Nat → List Byte → List Int
      | 0, _ => []
      | n + 1, b => signedOf 128 (ofBytes (b.take 16)) :: elems n (b.drop 16)
    some { kdone := bitsAt w 3 0, ovf := bitAt w 8, inexact := bitAt w 9, nan := bitAt w 10, evalid := bitAt w 11
           eacc := signedOf 10 (bitsAt w 21 12), acc := elems 4096 body, written := true }

/-- MXADD on a tile (R129); FMTVOTE kind 5 where the exponents differ. -/
def addImage (t i : Tile) : Option Tile :=
  if i.evalid && t.evalid && i.eacc != t.eacc then none
  else
    let sums := List.zipWith (fun a b => sat128 (a + b)) (tileAcc t) i.acc
    let t1 : Tile := if !t.evalid && i.evalid then { t with eacc := i.eacc, evalid := true } else t
    some { t1 with acc := sums.map (·.1), ovf := t.ovf || i.ovf || sums.any (·.2), inexact := t.inexact || i.inexact
                   nan := t.nan || i.nan, written := true }

/-- The agent's image read. -/
def imageOf (s : State) (aid : Nat) : Option (Nat × ImageRead) := tabFind (fun _ f => f.agent == aid) s.images

/-- What the image's bytes do: a trap of the parked instruction, or the tile's new value. -/
def applyImage (core : Nat) (f : ImageRead) (t : Tile) (bs : List Byte) : Except Trap Tile :=
  match tileOfImage bs with
  | none => .error { cause := .resfield }
  | some i =>
    if f.add then
      match t.bad with
      | some r => .error { cause := .dataerr, aux := BitVec.ofNat 64 (f.tile + 8 * r + 512), met := some (arraysOf core, 0) }
      | none => match addImage t i with
        | some u => .ok u
        | none => .error { cause := .fmtvote, aux := 5 }
    else if 8 < i.kdone then .error { cause := .resfield }
    else .ok i

/-- The parked MXADD or MXREST goes on. -/
def endImage (s : State) (aid id : Nat) : State :=
  match getAgent s aid with
  | none => s
  | some a => setAgent { s with images := tabDel s.images id } aid { a with run := .ready, waitFrom := none }

/-- The trap of a parked instruction, with its agent's active lanes. -/
def parkedTrap (s : State) (aid : Nat) (t : Trap) : State :=
  enterTrap s aid { t with lanes := (getAgent s aid).elim 0 (·.em) }

/-- The reads of an image may be performed, and none has been dropped (R315, R316). -/
def imageReady (s : State) (id : Nat) (f : ImageRead) : Bool :=
  !f.lost && !tooOld s f.born && mayPerform s (imagePend id f)

/-- IMAGE_READ_COMPLETE (R128): the whole image has been read, in one step (log 45); an error in it traps precisely. -/
def execImageReadComplete (aid : Nat) (s : State) : Out :=
  .next (match imageOf s aid, getAgent s aid with
    | some (id, f), some a =>
      if imageReady s id f then
        let ctx := agentCtx s a
        let core := agentCore s aid
        let s0 := tookAnswer (endImage s aid id) ctx f.segs
        if unitRefused s ctx f.segs then
          parkedTrap s0 aid { cause := .xlate, aux := 0x10000, addr := BitVec.ofNat 64 f.va }
        else match unitBad s core ctx f.pubs f.segs with
          | some b => parkedTrap (metBad s0 ctx b) aid
              { cause := .dataerr, addr := BitVec.ofNat 64 b.1, aux := if bitAt b.1 51 then 0x10000 else 0 }
          | none =>
            let d := readUnit core ctx f.pubs s0 f.segs
            match (getCore d.1 core).matrix with
            | none => d.1
            | some m =>
              match applyImage core f (tileOf m f.tile) d.2 with
              | .error t => parkedTrap d.1 aid t
              | .ok t => stepPc (putTile d.1 core m f.tile t) aid 8
      else s
    | _, _ => s)

end Sys2Proof.Machine
end

