-- ==== Sys2Proof/Machine/Engine.lean ====
section
/-! DEFINITION. The streamer, the channels' bindings, publishable regions and collectives
(spec/08_memory_instructions.md R181-R193, spec/11_order_devices.md R219-R222, spec/12_order_engines.md R226-R231). -/

namespace Sys2Proof.Machine
open Sys2Proof

/-! ## Layout records (R183) -/

def layElem (fmt : Nat) : Nat :=
  match fmt with
  | 0 => 1 | 1 => 2 | 2 => 4 | 3 => 8 | 4 => 33 | 5 => 33 | 6 => 25 | 7 => 17 | _ => 8

def listProd (l : List Nat) : Nat := l.foldl (· * ·) 1

/-- Fields of 64 record bytes, as they stand. -/
def layOf (bs : List Byte) : Layout :=
  let n := fun o k => ofBytes ((bs.drop o).take k)
  { base := n 0 8, fmt := n 8 1 % 16, dims := n 9 1, rot := n 10 1 == 1, fill := n 12 4
    size := (List.range 5).map fun d => n (16 + 4 * d) 4
    stride := (List.range 5).map fun d => n (36 + 4 * d) 4
    box := (List.range 5).map fun d => n (56 + d) 1 + 1 }

/-- Elements and bytes of the packed tile. -/
def layCount (l : Layout) : Nat := listProd (l.box.take (min l.dims 5))
def layBytes (l : Layout) : Nat := layCount l * layElem l.fmt

/-- The byte offset of the first field that breaks R183. -/
def layBad (bs : List Byte) : Option Nat :=
  let l := layOf bs
  let n := fun o k => ofBytes ((bs.drop o).take k)
  let unused := fun (o w : Nat) => (List.range 5).findSome? fun d =>
    if l.dims ≤ d ∧ n (o + w * d) w ≠ 0 then some (o + w * d) else none
  if 2 ^ 57 ≤ n 0 8 then some 0
  else if 9 ≤ n 8 1 then some 8
  else if l.dims = 0 ∨ 5 < l.dims then some 9
  else if 2 ≤ n 10 1 ∨ (l.rot ∧ (8 < layElem l.fmt ∨ layBytes l % 512 ≠ 0)) then some 10
  else if n 11 1 ≠ 0 then some 11
  else if 4 ≤ l.fmt ∧ l.fill ≠ 0 then some 12
  else match unused 16 4 with
    | some o => some o
    | none => match unused 36 4 with
      | some o => some o
      | none => match unused 56 1 with
        | some o => some o
        | none => (List.range 3).findSome? fun i => if n (61 + i) 1 ≠ 0 then some (61 + i) else none

/-- Coordinates of element i of the box, dimension 0 fastest. -/
def coords : List Nat → Nat → List Nat
  | [], _ => []
  | b :: t, i => i % b :: coords t (i / b)

/-- The address of element i, or none where it is out of bounds. -/
def elemAddr (l : Layout) (i : Nat) : Option Nat :=
  let pos := coords (l.box.take l.dims) i
  if (List.range l.dims).all fun d => decide ((pos[d]?).getD 0 < (l.size[d]?).getD 0) then
    some (l.base + ((List.range l.dims).map fun d => (pos[d]?).getD 0 * (l.stride[d]?).getD 0).sum)
  else none

/-- Where packed byte o is placed (R183). -/
def placeByte (l : Layout) (o : Nat) : Nat :=
  if l.rot then
    let r := o / 512
    r * 512 + ((o / 32 % 16 + r) % 16) * 32 + o % 32
  else o

def fillBytes (l : Layout) : List Byte := bytesOf (layElem l.fmt) l.fill

/-! ## The completion object, PENDING and the panel error record (R181, R185, R228, R330, R332) -/

/-- Sets bits of one byte of a panel's scratchpad; of a saved panel, the device holds the update. Nothing is set in a
scratchpad that stands in for one freed for good: its copies are orphans (R227). -/
def scratchBits (s : State) (id panel off : Nat) (bits : Byte) : State :=
  match getPanel s panel with
  | some p => scratchWrite s p off [memGet s.mem (scratchPa p off) ||| bits]
  | none => { s with saved := tabMap (fun _ v => if v.copies.contains id then { v with held := v.held ++ [.setBits off bits] } else v) s.saved }

/-- Takes bytes off PENDING of a barrier object. -/
def takePending (s : State) (id panel off n : Nat) : State :=
  match getPanel s panel with
  | some _ =>
    barCheck (changeBar s panel off fun o =>
      mkBar (barExpect o) (barArrived o) (barPhase o) (barClass o) (barPending o - n) (barMembers o)) panel off
  | none => { s with saved := tabMap (fun _ v => if v.copies.contains id then { v with held := v.held ++ [.pending off n] } else v) s.saved }

/-- Why an engine's access to an address fails at its translation: reason 1 where a table entry has an error, else 3. -/
def walkFault (va : Nat) (f : AddrFault) : ChunkFault :=
  if f.1 = .dataerr then { reason := 1, virt := false, addr := f.2.toNat } else { reason := 3, virt := true, addr := va }

/-- The uncorrectable word that holds a byte of a panel's scratchpad, where the panel is placed. -/
def scratchBad (s : State) (panel off : Nat) : Option Nat :=
  (getPanel s panel).bind fun p => segsBad s [(scratchPa p off, 1)]

/-- The context of a placed panel. -/
def panelCtx (s : State) (panel : Nat) : Nat := (getPanel s panel).elim 0 (·.ctx)

/-- Marks a failed chunk: ERR with its reason in the completion object, or the panel error record: there too where an
uncorrectable error refuses the write of the status word (R347, log 123). -/
def markAt (s : State) (id panel : Nat) (comp : Option Nat) (orphan : Bool) (f : ChunkFault) : State :=
  match comp with
  | some o => if orphan then s
    else match scratchBad s panel o with
      | some w => panelError (uncorrectable s w (panelCtx s panel)) panel f
      | none => scratchBits s id panel o (1 ||| (if f.reason = 1 then 2 else 0) ||| (if f.drop then 4 else 0))
  | none => panelError s panel f

def markFault (s : State) (id : Nat) (c : Copy) (f : ChunkFault) : State := markAt s id c.panel c.comp c.orphan f

/-- Sets the bit of chunk k of a completion object (R185); where its word holds an error the bit stays clear, with ERR
and DERR (R347, log 123). -/
def chunkBit (s : State) (id panel : Nat) (comp : Option Nat) (orphan : Bool) (k : Nat) : State :=
  match comp with
  | some o => if orphan then s
    else match scratchBad s panel (o + 8 + k / 8) with
      | some w => markAt (uncorrectable s w (panelCtx s panel)) id panel comp orphan { reason := 1, virt := false, addr := w }
      | none => scratchBits s id panel (o + 8 + k / 8) (BitVec.ofNat 8 (2 ^ (k % 8)))
  | none => s

/-- Takes a chunk's bytes off PENDING of the barrier object of a BARX (R181). -/
def chunkPending (s : State) (id : Nat) (c : Copy) (n : Nat) : State :=
  match c.bar with
  | some b => if c.orphan then s else takePending s id c.panel b n
  | none => s

def chunkCount (c : Copy) : Nat := ceilDiv c.bytes 512
def chunkLen (c : Copy) (k : Nat) : Nat := min 512 (c.bytes - 512 * k)

def servedOf (c : Copy) (k d : Nat) : Option (List Byte) := (c.served.find? fun e => e.1 == k && e.2.1 == d).map (·.2.2)

/-- The 128-byte lines of chunk k of a packed tile, numbered from its start (R219). -/
def chunkLines (c : Copy) (k : Nat) : List Nat := (List.range (ceilDiv (chunkLen c k) 128)).map fun i => 4 * k + i

/-- Whether every destination of an MCAST has answered for the lines. -/
def allAnswered (c : Copy) (ls : List Nat) : Bool :=
  ls.all fun l => (List.range c.dests.length).all fun d => (servedOf c l (d + 1)).isSome

/-- Whether a copy is over: its chunks have all landed or failed, and every packet of an MCAST has been answered
(R219). -/
def copyOver (c : Copy) : Bool :=
  decide (chunkCount c ≤ c.done.length + c.failed.length) &&
    (!c.mcast || allAnswered c ((List.range (chunkCount c)).flatMap (chunkLines c)))

/-! ## Ring entries (R187, R229) -/

/-- Turns the filled slots at the head of a ring's order into entries. -/
def ringDeliver (s : State) (panel ch : Nat) : Nat → State
  | 0 => s
  | fuel + 1 =>
    match getPanel s panel with
    | none => s
    | some p =>
      match tabGet p.chans ch with
      | none => s
      | some c =>
        match c.copies with
        | [] => s
        | k :: t =>
          if (tabGet s.copies k).isSome then s
          else
            let slot := (c.nextSlot + c.slots * 16 - (t.length + 1)) % c.slots
            let e := List.replicate (((p.strokes.head?).bind (getStroke s)).elim 32 (·.width)) (BitVec.ofNat 64 (c.base + slot * c.slotBytes))
            let c1 := { c with copies := t, ents := c.ents ++ [e] }
            ringDeliver (setPanel s panel { p with chans := tabPut p.chans ch c1 }) panel ch fuel

/-- Puts a copy back, or ends it where it is over. -/
def copyDone (s : State) (id : Nat) (c : Copy) : State :=
  if !copyOver c then { s with copies := tabPut s.copies id c }
  else
    let s1 := { s with copies := tabDel s.copies id
                       saved := tabMap (fun _ v => { v with copies := v.copies.filter fun k => k != id }) s.saved }
    match if c.orphan then none else c.ring with
    | none => s1
    | some (ch, _) =>
      let s2 := match getPanel s1 c.panel with
        | some p => if c.failed = [] then s1
          else setPanel s1 c.panel { p with chans := tabMod p.chans ch fun q => { q with err := true } }
        | none => s1
      ringDeliver s2 c.panel ch 16

/-- A chunk has landed: its bit, its bytes off PENDING (R185, R181). -/
def chunkOk (s : State) (id : Nat) (c : Copy) (k : Nat) : State :=
  copyDone (chunkPending (chunkBit s id c.panel c.comp c.orphan k) id c (chunkLen c k)) id { c with done := k :: c.done }

def chunkFail (s : State) (id : Nat) (c : Copy) (k : Nat) (f : ChunkFault) : State :=
  copyDone (chunkPending (markFault s id c f) id c (chunkLen c k)) id { c with failed := k :: c.failed }

/-! ## Chunks (R184, R227, R232) -/

/-- The elements from number `lo` up that start before the end of chunk k. -/
def elemsFrom (c : Copy) (k lo : Nat) : List Nat :=
  (List.range (ceilDiv (512 * k + chunkLen c k) (layElem c.lay.fmt) - lo)).map fun i => lo + i

/-- The elements that start in chunk k. -/
def chunkStarts (c : Copy) (k : Nat) : List Nat := elemsFrom c k (ceilDiv (512 * k) (layElem c.lay.fmt))

/-- The elements with a byte in chunk k. -/
def chunkSpan (c : Copy) (k : Nat) : List Nat := elemsFrom c k (512 * k / layElem c.lay.fmt)

/-- Whether a neighbour of chunk k that has landed moved the element that they share, whole (R232): chunks land in any
order (R184). -/
def sharedMoved (c : Copy) (k i : Nat) : Bool :=
  let n := layElem c.lay.fmt
  (decide (n * i < 512 * k) && c.done.contains (k - 1)) || (decide (512 * (k + 1) < n * (i + 1)) && c.done.contains (k + 1))

/-- The elements that chunk k moves: those with a byte in it that no neighbour has moved; of an MCAST, those that start
in it, whose lines carry them (R219). -/
def chunkElems (c : Copy) (k : Nat) : List Nat :=
  if c.mcast then chunkStarts c k else (chunkSpan c k).filter fun i => !sharedMoved c k i

/-- Whether an element lies across the start of chunk k. -/
def straddles (c : Copy) (k : Nat) : Bool := 512 * k % layElem c.lay.fmt != 0

/-- Bytes of packed element i in scratchpad, or of the image that the device holds. -/
def packedPieces (p : Panel) (c : Copy) (i : Nat) : List (Nat × Nat) :=
  (List.range (layElem c.lay.fmt)).map fun j =>
    (scratchPa p (c.packed - p.slotVA + placeByte c.lay (layElem c.lay.fmt * i + j)), 1)

/-- The elements that chunk k reads or writes in the tensor: a load reads every one with a byte in it. -/
def tensorElems (c : Copy) (k : Nat) : List Nat := if c.mcast || c.out then chunkElems c k else chunkSpan c k

/-- The tensor's pieces of some elements that are in bounds, with the first that does not translate. -/
def elemPieces (s : State) (c : Copy) (es : List Nat) : List (Nat × List (Nat × Nat)) × Option ChunkFault :=
  es.foldl (fun r i =>
    match elemAddr c.lay i with
    | none => r
    | some a =>
      match segsFor s c.ctx (if c.out then .we else .r) a (layElem c.lay.fmt) with
      | .ok g => (r.1 ++ [(i, g)], r.2)
      | .error f => (r.1, some (r.2.getD (walkFault a f)))) ([], none)

/-- The tensor's pieces of a chunk. -/
def tensorPieces (s : State) (c : Copy) (k : Nat) : List (Nat × List (Nat × Nat)) × Option ChunkFault :=
  elemPieces s c (tensorElems c k)

/-- Whether part of a chunk lies on another device. -/
def chunkAway (s : State) (c : Copy) (k : Nat) : Bool :=
  (tensorPieces s c k).1.any fun e => reachOf s c.ctx c.out e.2 == .away

/-- The bytes of a chunk's elements read from the tensor, in order, or why they cannot be had. -/
def readElems (s : State) (c : Copy) (pieces : List (Nat × List (Nat × Nat))) : List Nat → List Byte →
    Except ChunkFault (List (Nat × List Byte))
  | [], _ => .ok []
  | i :: t, others =>
    match pieces.find? fun e => e.1 == i with
    | none => do
      let r ← readElems s c pieces t others
      return (i, fillBytes c.lay) :: r
    | some (_, g) =>
      if pieceRefused s c.ctx g then .error { reason := 3, virt := false, addr := (g.head?).elim 0 (·.1) }
      else match piecesBad s c.ctx g with
        | some b => .error { reason := 1, virt := false, addr := b.1, met := some b.2 }
        | none => do
          let r ← readElems s c pieces t (others.drop (awayCount s c.ctx g))
          return (i, readPieces s c.ctx g others) :: r

/-- The elements that chunk k moves, with their bytes (R183). -/
def chunkBytes (s : State) (c : Copy) (k : Nat) : Except ChunkFault (List (Nat × List Byte)) :=
  let (pieces, bad) := tensorPieces s c k
  match bad with
  | some f => .error f
  | none => (readElems s c pieces (tensorElems c k) ((servedOf c k 0).getD [])).map fun es =>
      es.filter fun e => (chunkElems c k).contains e.1

/-- An uncorrectable word of this device that a chunk met is counted and logged (R348). -/
def logFault (s : State) (c : Copy) (f : ChunkFault) : State :=
  if f.reason = 1 then uncorrectable s (f.met.getD f.addr) c.ctx else s

/-- A destination that no longer translates: the landing buffer of a scratchpad freed since, whose write is dropped with
an event (R164, R219), a page unmapped since, or one whose table entry has an error. -/
def lostDest (s : State) (ctx : Nat) (f : ChunkFault) : State × ChunkFault :=
  if f.reason = 1 then (uncorrectable s f.addr ctx, f)
  else if 2 ^ 56 ≤ f.addr then (report s (.dropped ctx s.juran.dev f.addr), { f with reason := 2, drop := true })
  else (s, f)

/-- A chunk's elements are read at their homes by the engine of a core, whose copies take the homes' values (R209,
R225). -/
def chunkRead (s : State) (c : Copy) (k : Nat) : State :=
  homeRead s c.core c.ctx (localPieces s c.ctx ((tensorPieces s c k).1.flatMap (·.2)))

/-- The panel into whose scratchpad a load lands. -/
def landPanel (s : State) (c : Copy) : Option Panel := if c.orphan then none else getPanel s c.panel

/-- A load's chunk: the tensor's bytes written to the packed tile. The bytes for a scratchpad freed for good are
dropped (R219, R227). -/
def landIn (s : State) (id : Nat) (c : Copy) (k : Nat) : State :=
  match chunkBytes s c k, landPanel s c with
  | .error f, _ => chunkFail (logFault s c f) id c k f
  | .ok _, none =>
    chunkFail (report s (.dropped c.ctx s.juran.dev (c.packed + 512 * k))) id c k
      { reason := 2, virt := true, addr := c.packed + 512 * k, drop := true }
  | .ok es, some p =>
    let segs := es.flatMap fun e => (List.range (layElem c.lay.fmt)).map fun j =>
      (scratchPa p (c.packed - p.slotVA + placeByte c.lay (layElem c.lay.fmt * e.1 + j)), 1)
    match coreWrite (chunkRead s c k) p.core c.ctx segs (es.flatMap (·.2)) with
    | (s1, some w) => chunkFail s1 id c k { reason := 1, virt := false, addr := w }
    | (s1, none) => chunkOk s1 id c k

/-- The bytes of packed element i of a store, from scratchpad or from the image that the device holds. -/
def outBytes (s : State) (c : Copy) (i : Nat) : Except ChunkFault (List Byte) :=
  match c.image, getPanel s c.panel with
  | some im, _ =>
    match c.imageBad.find? fun b => (List.range (layElem c.lay.fmt)).any fun j =>
        placeByte c.lay (layElem c.lay.fmt * i + j) == b.1 with
    | some b => .error { reason := 1, virt := false, addr := b.2 }
    | none => .ok ((List.range (layElem c.lay.fmt)).map fun j => (im[placeByte c.lay (layElem c.lay.fmt * i + j)]?).getD 0)
  | none, some p =>
    match segsBad s (packedPieces p c i) with
    | some w => .error { reason := 1, virt := false, addr := w }
    | none => .ok (readSegs s.mem (packedPieces p c i))
  | none, none => .error { reason := 3, virt := true, addr := c.packed }

/-- The bytes of a chunk's elements for the pieces they go to, or why one of them fails. -/
def outAll (s : State) (c : Copy) : List (Nat × List (Nat × Nat)) → Except ChunkFault (List Byte)
  | [] => .ok []
  | (i, g) :: t =>
    match outBytes s c i, reachOf s c.ctx true g with
    | .error f, _ => .error f
    | .ok _, .refused => .error { reason := 2, virt := false, addr := (g.head?).elim 0 (·.1), drop := true }
    | .ok bs, _ => (outAll s c t).map (bs ++ ·)

/-- A store's chunk: its elements written in one step, each whole (R232); where one fails, no byte of the chunk is
written (R228). -/
def outElems (s : State) (c : Copy) (es : List (Nat × List (Nat × Nat))) : State × Option ChunkFault :=
  match outAll s c es with
  | .error f => (logFault s c f, some f)
  | .ok bs =>
    let w := hereWrites s c.ctx (es.flatMap (·.2)) bs
    match coreWrite s c.core c.ctx w.1 w.2 with
    | (s1, some w) => (s1, some { reason := 1, virt := false, addr := w })
    | (s1, none) => (s1, none)

/-- An acknowledged packet of a copy leaves its stream's counter, if it is still counted, and others take its room; a
FAULT leaves its mark (R169, R210, R211). -/
def copyAck (s : State) (id : Nat) (c : Copy) (k d : Nat) (fault : Option Nat) : State × Copy :=
  match c.owed.find? fun e => e.1 == k && e.2.1 == d with
  | none => (s, c)
  | some e =>
    let c1 := { c with owed := c.owed.erase e }
    let s1 := sendMore (takeAck { s with copies := tabPut s.copies id c1 } c.stroke 0 e.2.2 fault) c.stroke
    (s1, (tabGet s1.copies id).getD c1)

/-- The physical address that the acknowledgement of a failed write carries. -/
def ackPa (f : ChunkFault) : Nat := if f.virt then 0 else f.addr

/-- A chunk of `.out`: its elements in bounds written to the tensor, and its acknowledgement where it is counted: to
this device's own window too (R169, R215). -/
def landOut (s : State) (id : Nat) (c : Copy) (k : Nat) : State :=
  let r : State × Option ChunkFault := match tensorPieces s c k with
    | (_, some a) => let q := lostDest s c.ctx a; (q.1, some q.2)
    | (ps, none) => outElems s c ps
  let a := copyAck r.1 id c k 0 (r.2.map ackPa)
  match r.2 with
  | some f => chunkFail a.1 id a.2 k f
  | none => chunkOk a.1 id a.2 k

/-- Whether a packet of a copy waits for room, or is lost. -/
def heldBack (c : Copy) (k d : Nat) : Bool :=
  (c.unsent.any fun e => e.1 == k && e.2.1 == d) || c.lost.contains (k, d)

/-- Whether what a store's chunk shares with the chunk before it has been written where it lies on another device: the
packet of the chunk in which the element starts carries it. -/
def sharedSent (s : State) (c : Copy) (k : Nat) : Bool :=
  !straddles c k || c.done.contains (k - 1) || c.failed.contains (k - 1) || (servedOf c (k - 1) 0).isSome ||
    !((elemPieces s c [512 * k / layElem c.lay.fmt]).1.any fun e => pieceAway s c.ctx e.2)

/-- Whether a chunk can land, in any order (R184): not yet done, its remote part served; of an MCAST, the lines of its
elements answered by every destination. -/
def chunkReady (s : State) (c : Copy) (k : Nat) : Bool :=
  decide (k < chunkCount c) && !c.done.contains k && !c.failed.contains k &&
    (if c.mcast then
      allAnswered c (chunkLines c k) && (!straddles c k ||
        allAnswered c [placeByte c.lay (512 * k / layElem c.lay.fmt * layElem c.lay.fmt) / 128])
     else !heldBack c k 0 && (!c.out || sharedSent s c k) && (!chunkAway s c k || (servedOf c k 0).isSome))

/-- A chunk of a collective's destination is written, and its bit set after it (R222). What another device answers to
the write is free (log 12). -/
def collLand (s : State) (id : Nat) (c : Coll) (bytes : List Byte) (k : Nat) : State :=
  let bs := (bytes.drop (512 * k)).take 512
  let c1 := { c with landed := k :: c.landed }
  let put := fun (t : State) =>
    if c1.landed.length < ceilDiv bytes.length 512 then { t with colls := tabPut t.colls id c1 }
    else { t with colls := tabDel t.colls id }
  let bad := fun (t : State) (f : ChunkFault) => put (markAt t id c.panel c.comp c.orphan f)
  let va := c.dst + 512 * k
  match segsFor s c.ctx .we va bs.length with
  | .error f => let q := lostDest s c.ctx (walkFault va f); bad q.1 q.2
  | .ok g =>
    let away := reachOf s c.ctx true g == .away
    let s0 := if away then { s with freeN := s.freeN + 1 } else s
    if reachOf s c.ctx true g = .refused ∨ (away ∧ awayAnswer s = 1) then bad s0 { reason := 2, virt := true, addr := va, drop := true }
    else if away ∧ awayAnswer s = 2 then bad s0 { reason := 1, virt := true, addr := va }
    else
      let w := hereWrites s c.ctx g bs
      match coreWrite s0 c.core c.ctx w.1 w.2 with
      | (s1, some w) => bad s1 { reason := 1, virt := false, addr := w }
      | (s1, none) => put (chunkBit s1 id c.panel c.comp c.orphan k)

/-- CHUNK_LANDED: chunk k of a copy, or of a collective whose hops are over. -/
def execChunkLanded (id k : Nat) (s : State) : Out :=
  .next (match tabGet s.copies id with
    | some c =>
      if chunkReady s c k then
        -- its packet is older than 2^21 cycles (R315)
        if !c.mcast && (servedOf c k 0).isNone && tooOld s (partBorn c k 0) then loseParcel s (.part id k 0)
        else if c.mcast then chunkOk s id c k
        else if c.out then landOut s id c k
        else landIn s id c k
      else s
    | none =>
      match tabGet s.colls id with
      | none => s
      | some c =>
        match c.out with
        | none => s
        | some bytes => if k < ceilDiv bytes.length 512 ∧ !c.landed.contains k then collLand s id c bytes k else s)

/-! ## MCAST_DELIVERY (R192, R219) -/

/-- The elements of chunk k of an MCAST with their bytes, read from the tensor once. -/
def mcastElems (s : State) (c : Copy) (k : Nat) : Except ChunkFault (List (Nat × List Byte)) :=
  let n := layElem c.lay.fmt
  match servedOf c k (c.dests.length + 1) with
  | some bs => .ok ((chunkStarts c k).zipIdx.map fun e => (e.1, (bs.drop (n * e.2)).take n))
  | none => chunkBytes s c k

/-- The elements that travel in line l: those that start in it, each whole (R219, R232). -/
def lineElems (c : Copy) (l : Nat) : List Nat :=
  (chunkStarts c (l / 4)).filter fun i => placeByte c.lay (layElem c.lay.fmt * i) / 128 == l

/-- Where destination d takes the elements of a line: the pieces of each, or why the first address that does not
translate fails. -/
def lineSegs (s : State) (c : Copy) (d : Nat) : List Nat → Except ChunkFault (List (Nat × Nat))
  | [] => .ok []
  | i :: t =>
    let va := (c.dests[d]?).getD 0 + placeByte c.lay (layElem c.lay.fmt * i)
    match segsFor s c.ctx .we va (layElem c.lay.fmt) with
    | .error f => .error (walkFault va f)
    | .ok g => (lineSegs s c d t).map (g ++ ·)

/-- Chunks that have a byte of the elements. -/
def chunksOf (c : Copy) (es : List Nat) : List Nat :=
  (es.flatMap fun i => [layElem c.lay.fmt * i / 512, (layElem c.lay.fmt * i + layElem c.lay.fmt - 1) / 512]).eraseDups

/-- Chunks of an MCAST that will never be set: ERR with the reason; one without a completion object counts once. -/
def failChunks (s : State) (id : Nat) (f : ChunkFault) : List Nat → Copy → State × Copy
  | [], c => (s, c)
  | k :: t, c =>
    let known := c.failed.contains k
    let s1 := if c.comp.isSome || !known then markFault s id c f else s
    failChunks s1 id f t (if known then c else { c with failed := k :: c.failed })

/-- Whether a packet was dropped because the landing buffer that it names has been freed (R219). -/
def ChunkFault.freed (f : ChunkFault) : Bool := f.drop && f.virt

/-- Destination d answers for line l, with the chunk's bytes now read. A packet for a freed buffer raises no trap at the
sender (R219), and so leaves no mark; any other FAULT does (R210, R216). -/
def mcastAnswer (s : State) (id : Nat) (c : Copy) (l d : Nat) (es : List (Nat × List Byte)) (f : Option ChunkFault) : State :=
  let n := c.dests.length
  let r := copyAck s id { c with served := c.served ++ [(l, d + 1, [])] ++
    (if (servedOf c (l / 4) (n + 1)).isSome then [] else [(l / 4, n + 1, es.flatMap (·.2))]) } l (d + 1)
    (f.bind fun x => if x.freed then none else some (ackPa x))
  match f with
  | none => copyDone r.1 id r.2
  | some x =>
    let s1 := if x.freed then report r.1 (.chunkDropped c.ctx ((c.dests[d]?).getD 0) (l / 4)) else r.1
    let q := failChunks s1 id x (chunksOf c (lineElems c l)) r.2
    copyDone q.1 id q.2

/-- The source of chunk k cannot be read: none of its lines is sent. -/
def mcastNoSource (s : State) (id : Nat) (c : Copy) (k : Nat) (f : ChunkFault) : State :=
  let open_ := (chunkLines c k).flatMap fun l =>
    ((List.range c.dests.length).filter fun d => (servedOf c l (d + 1)).isNone).map fun d => (l, d + 1)
  let r := open_.foldl (fun r e => copyAck r.1 id { r.2 with served := r.2.served ++ [(e.1, e.2, [])] } e.1 e.2 none) (s, c)
  let q := failChunks r.1 id f (chunksOf c (chunkStarts c k)) r.2
  copyDone q.1 id q.2

/-- The packet of line l to destination d: performed, dropped or refused at a home of this device, or as another device
answers. -/
def mcastLine (s : State) (id : Nat) (c : Copy) (l d : Nat) (how : RemoteAck) (es : List (Nat × List Byte)) : State :=
  let mine := es.filter fun e => (lineElems c l).contains e.1
  let va := (c.dests[d]?).getD 0 + 128 * l
  let bad := fun (t : State) (f : ChunkFault) => mcastAnswer t id c l d es (some f)
  -- the first address that a window of this device refuses, and the first on another device
  let first := fun (g : List (Nat × Nat)) (r : Reach) => (g.find? fun p => reachOf s c.ctx true [p] == r).elim 0 (·.1)
  match lineSegs s c d (mine.map (·.1)) with
  | .error v => let q := lostDest s c.ctx v; bad q.1 q.2
  | .ok g =>
    match reachOf s c.ctx true g, how with
    | .refused, _ => bad s { reason := 2, virt := false, addr := first g .refused, drop := true }
    | .away, .here => s
    | .away, .refused => bad s { reason := 2, virt := false, addr := first g .away, drop := true }
    | .away, .dropped => bad s { reason := 2, virt := true, addr := va, drop := true }
    | .away, .dataErr => bad s { reason := 1, virt := false, addr := first g .away }
    | .here _, .ok _ => s
    | .here _, .refused => s
    | .here _, .dropped => s
    | .here _, .dataErr => s
    | _, _ =>
      let w := hereWrites s c.ctx g (mine.flatMap (·.2))
      match coreWrite s c.core c.ctx w.1 w.2 with
      | (s1, some b) => bad s1 { reason := 1, virt := false, addr := b }
      | (s1, none) => mcastAnswer s1 id c l d es none

/-- The address on another device that chunk k names first. -/
def chunkAwayPa (s : State) (c : Copy) (k : Nat) : Nat :=
  (((tensorPieces s c k).1.flatMap (·.2)).find? fun g => reachOf s c.ctx c.out [g] == .away).elim 0 (·.1)

/-- The part of chunk k on another device is answered: what a load or an MCAST reads, or what `.out` writes. -/
def servePart (s : State) (id : Nat) (c : Copy) (k : Nat) (how : RemoteAck) : State :=
  if chunkCount c ≤ k ∨ c.done.contains k ∨ c.failed.contains k ∨ (servedOf c k 0).isSome ∨ !chunkAway s c k ∨ heldBack c k 0 then s
  else if tooOld s (partBorn c k 0) then loseParcel s (.part id k 0)
  else
    let pa := chunkAwayPa s c k
    let f : Option ChunkFault := match how with
      | .refused | .dropped => some { reason := if c.out then 2 else 3, virt := false, addr := pa, drop := c.out }
      | .dataErr => some { reason := 1, virt := false, addr := pa }
      | _ => none
    let r := copyAck s id c k 0 (f.map ackPa)
    match f, how with
    | some x, _ => if c.mcast then mcastNoSource r.1 id r.2 k x else chunkFail r.1 id r.2 k x
    | none, .ok bs => { r.1 with copies := tabPut r.1.copies id { r.2 with served := r.2.served ++ [(k, 0, bs)] } }
    | none, _ => s

/-- MCAST_DELIVERY: destination d answers for line k of an MCAST; the number after the last destination, and a copy of
one tensor, take the part of chunk k on another device. -/
def execMcastDelivery (id k d : Nat) (how : RemoteAck) (s : State) : Out :=
  .next (match tabGet s.copies id with
    | none => s
    | some c =>
      if !c.mcast || d == c.dests.length then servePart s id c k how
      else if c.dests.length < d ∨ ceilDiv c.bytes 128 ≤ k ∨ (servedOf c k (d + 1)).isSome ∨ heldBack c k (d + 1) then s
      else if tooOld s (partBorn c k (d + 1)) then loseParcel s (.part id k (d + 1))
      else if (servedOf c (k / 4) (c.dests.length + 1)).isNone && chunkAway s c (k / 4) && (servedOf c (k / 4) 0).isNone then s
      else match mcastElems s c (k / 4) with
        | .error f => mcastNoSource (logFault s c f) id c (k / 4) f
        | .ok es => mcastLine (chunkRead s c (k / 4)) id c k d how es)

/-! ## CPY, BARX, MCAST at issue (R181, R184, R192) -/

/-- Whether the issuer holds the panel's streamer issue rights (R188). -/
def hasRights (x : Ctxt) : Bool :=
  x.p.task || (if x.c.record.producer = 0xFF then x.a.primer else !x.a.primer && x.st.idx == x.c.record.producer)

/-- The channel that operand B of a CPY names. -/
def chanOf : Opd → Option Nat
  | .pop c => some c
  | .peek c => some c
  | _ => none

/-- The ring slot that a CPY into channel c fills: PERM unbound, RESFIELD for no ring, a park while no slot is free. -/
def ringSlot (x : Ctxt) (lanes : Mask) (c : Nat) : Eff (Nat × Nat) :=
  match tabGet x.p.chans c with
  | none => trapAt .perm lanes
  | some ch =>
    if ch.kind ≠ .ring then trapAt .resfield lanes
    else if ch.slots ≤ ch.copies.length + ch.ents.length + ch.slotsPopped then .error (.park .reuse)
    else .ok (ch.base + ch.nextSlot * ch.slotBytes, ch.nextSlot)

/-- The words of a completion object of n tile bytes (R185). -/
def compSegs (p : Panel) (o n : Nat) : List (Nat × Nat) :=
  (List.range (1 + ceilDiv (ceilDiv n 512) 64)).map fun i => (scratchPa p (o + 8 * i), 8)

/-- The instruction zeros its completion object whole; an erroneous word that holds other bytes too refuses that: DATAERR
(R185, R347, log 123). -/
def checkComp (s : State) (x : Ctxt) (lanes : Mask) (co : Option Nat) (n : Nat) : Eff Unit :=
  match co with
  | some o => soundWord lanes (refusingWord s (compSegs x.p o n))
  | none => .ok ()

/-- The checks of R184 on the record, the packed tile and the completion object. `packed`: none where there is no
packed region. -/
def checkCopy (s : State) (x : Ctxt) (lanes : Mask) (rec comp : Nat) (hasComp : Bool) (packed : Option Nat) (out : Bool) :
    Eff (Layout × Option Nat) := do
  if !hasRights x then trapAt .issuerights lanes
  if rec % 64 ≠ 0 then trapAt .align lanes 0 (BitVec.ofNat 64 rec)
  if hasComp && comp % 8 != 0 then trapAt .align lanes 0 (BitVec.ofNat 64 comp)
  match scratchOff x.p rec 64 with
  | none => trapAt .bounds lanes 0 (BitVec.ofNat 64 rec)
  | some ro =>
    let bs := (List.range 64).map fun i => memGet s.mem (scratchPa x.p (ro + i))
    let l := layOf bs
    let n := layBytes l
    checkSound s lanes [(scratchPa x.p ro, 64)]
    match packed with
    | some v => if (scratchOff x.p v n).isNone then trapAt .bounds lanes 0 (BitVec.ofNat 64 v)
    | none => pure ()
    let co ← if hasComp then
        match scratchOff x.p comp (8 + 8 * ceilDiv (ceilDiv n 512) 64) with
        | some o => .ok (some o)
        | none => trapAt .bounds lanes 0 (BitVec.ofNat 64 comp)
      else .ok none
    match layBad bs with
    | some o => trapAt .resfield lanes (BitVec.ofNat 64 o)
    | none => pure ()
    let accs := (List.range (layCount l)).filterMap fun i => (elemAddr l i).map fun a =>
      { lane := 0, addr := (a : Int), n := layElem l.fmt, align := 1 : Acc }
    let _ ← placeAll s x lanes .one (if out then .we else .r) accs
    checkComp s x lanes co n
    return (l, co)

/-- Parks while an earlier copy still holds the completion object (R227). -/
def checkReuse (s : State) (x : Ctxt) (co : Option Nat) : Eff Unit :=
  match co with
  | none => .ok ()
  | some o => if s.copies.any fun c => c.2.panel == x.st.panel && c.2.comp == some o then .error (.park .reuse)
    else if s.colls.any fun c => c.2.panel == x.st.panel && c.2.comp == some o then .error (.park .reuse) else .ok ()

/-- Zeros a completion object of n tile bytes (R185). -/
def zeroComp (s : State) (p : Panel) (co : Option Nat) (n : Nat) : State :=
  match co with
  | none => s
  | some o =>
    let segs := compSegs p o n
    dropRecent { clearBad s segs with mem := writeSegs s.mem segs (List.replicate (8 * segs.length) 0) } p.core p.ctx segs

/-- The lines that chunk k of `.out` writes by a device's number, of another device or of this one (R215): those of the
elements that start in it. -/
def remoteLines (s : State) (c : Copy) (k : Nat) : Nat :=
  (segLines (((elemPieces s c (chunkStarts c k)).1.flatMap (·.2)).filter fun g => bitAt g.1 51)).length

/-- The packets that a copy counts, each with its lines: those of `.out` to pages that name a device, and of an MCAST
(R169, R215, R219). -/
def copyPackets (s : State) (c : Copy) : List (Nat × Nat × Nat) :=
  if c.mcast then (List.range c.dests.length).flatMap fun d => (List.range (ceilDiv c.bytes 128)).map fun l => (l, d + 1, 1)
  else if c.out then
    ((List.range (chunkCount c)).filter fun k => remoteLines s c k != 0).map fun k => (k, 0, remoteLines s c k)
  else []

/-- A copy that would take its stream's counter above 4,095 packets parks (R210). One of more packets than that starts
once the counter reads zero, and sends as it empties (DESIGN CHOICE, log 96). -/
def checkSend (s : State) (x : Ctxt) (c : Copy) : Eff Unit :=
  let n := ((copyPackets s c).map fun e => e.2.2).sum
  let k := (getStroke s x.a.stroke).elim 0 fun k => ackCount k 0
  if k + n ≤ 4095 ∨ k = 0 then .ok () else .error (.park .ackFull)

/-- Commits a copy. -/
def startCopy (s : State) (x : Ctxt) (c0 : Copy) (size : Nat) : State :=
  let s1 := zeroComp s x.p c0.comp c0.bytes
  let all := copyPackets s c0
  let owed := takeRoom (4095 - (getStroke s x.a.stroke).elim 0 fun k => ackCount k 0) all
  let c := { c0 with owed := owed, unsent := all.drop owed.length }
  let s2 := if owed = [] then s1 else addAcks s1 x.a.stroke 0 (owed.map fun e => e.2.2).sum
  let s3 := { s2 with copies := tabPut s2.copies s2.fresh c, fresh := s2.fresh + 1 }
  let s4 := match c.ring with
    | none => s3
    | some (ch, _) =>
      match getPanel s3 x.st.panel with
      | none => s3
      | some p => match tabGet p.chans ch with
        | none => s3
        | some q =>
          let q1 := { q with copies := q.copies ++ [s2.fresh], nextSlot := (q.nextSlot + 1) % q.slots
                             wide := q.wide ++ [Scope.wide c.scp] }
          setPanel s3 x.st.panel { p with chans := tabPut p.chans ch q1 }
  stepPc s4 x.aid size

def newCopy (s : State) (x : Ctxt) (l : Layout) (out : Bool) (packed : Nat) (co : Option Nat) (scp : Scope) : Copy :=
  { agent := x.aid, stroke := x.a.stroke, panel := x.st.panel, ctx := x.p.ctx, core := x.p.core, lay := l, out := out
    packed := packed, bytes := layBytes l, comp := co, scp := scp, born := s.cycle }

def isSz (o : Opd) : Bool := o == .s 63

/-- Sources of CPY: the record, the packed address where B is no channel, the completion object. -/
def cpySrcs (h : Hdr) (a b c : Opd) : List Src :=
  [addrSrc h a, srcOf (if (chanOf b).isSome then .s 63 else b) 2 2 h.lb, srcOf c 2 3 h.lc]

/-- The packed address of a copy and its ring slot. -/
def packedOf (x : Ctxt) (lanes : Mask) (out : Bool) (b : Opd) (v : Nat) : Eff (Nat × Option (Nat × Nat)) :=
  match chanOf b with
  | none => .ok (v, none)
  | some c => do
    if out then trapAt .resfield lanes
    let r ← ringSlot x lanes c
    return (r.1, some (c, r.2))

/-- CPY may stand in the Primer, with a ring channel too (R26, R184, R194). -/
def cpyPlace : Place := { primer := true, meld := false }

def execCpy (h : Hdr) (out : Bool) (scp : Scope) (a b c : Opd) (s : State) : Out :=
  .next (wideInstr s h cpyPlace (cpySrcs h a b c) [] fun s x lanes vs => do
    if !hasRights x then trapAt .issuerights lanes
    let (pk, ring) ← packedOf x lanes out b (nthVal vs 1)
    let (l, co) ← checkCopy s x lanes (nthVal vs 0) (nthVal vs 2) (!isSz c) (some pk) out
    checkReuse s x co
    let q := { newCopy s x l out pk co scp with ring := ring }
    checkSend s x q
    return startCopy s x q 8)

def execBarx (h : Hdr) (out : Bool) (scp : Scope) (d a b c : Opd) (s : State) : Out :=
  .next (wideInstr s h { meld := false } (cpySrcs h a b c ++ [srcOf d 2 0 false]) [] fun s x lanes vs => do
    if !hasRights x then trapAt .issuerights lanes
    let (pk, ring) ← packedOf x lanes out b (nthVal vs 1)
    let (l, co) ← checkCopy s x lanes (nthVal vs 0) (nthVal vs 2) (!isSz c) (some pk) out
    let off ← theBar x lanes (nthVal vs 3)
    checkSound s lanes [(scratchPa x.p off, 16)]
    let o := barObj s x.p off
    if 2 ^ 24 ≤ barPending o + layBytes l then trapAt .bounds lanes 0 (BitVec.ofNat 64 (nthVal vs 3))
    if barClass o = 2 then trapAt .illwait lanes 1
    checkReuse s x co
    let q := { newCopy s x l out pk co scp with ring := ring, bar := some off }
    checkSend s x q
    let s1 := setBarObj s x.p off (mkBar (barExpect o) (barArrived o) (barPhase o) (barClass o)
      (barPending o + layBytes l) (barMembers o))
    return startCopy s1 x q 8)

/-- MCAST (R192): `n` destinations listed at B. -/
def execMcast (h : Hdr) (n : Nat) (a b c : Opd) (s : State) : Out :=
  .next (wideInstr s h { meld := false } [addrSrc h a, srcOf b 2 2 h.lb, srcOf c 2 3 h.lc] [] fun s x lanes vs => do
    let (l, co) ← checkCopy s x lanes (nthVal vs 0) (nthVal vs 2) (!isSz c) none false
    let list := nthVal vs 1
    match scratchOff x.p list (8 * n) with
    | none => trapAt .bounds lanes 0 (BitVec.ofNat 64 list)
    | some lo =>
      checkSound s lanes [(scratchPa x.p lo, 8 * n)]
      let dests := (List.range n).map fun i =>
        ofBytes ((List.range 8).map fun j => memGet s.mem (scratchPa x.p (lo + 8 * i + j)))
      let ps ← placeAll s x lanes .one .we
        (dests.map fun (d : Nat) => ({ lane := 0, addr := (d : Int), n := layBytes l, align := 1 } : Acc))
      checkReuse s x co
      let fab := ps.any fun p => p.segs.any fun g => bitAt g.1 51
      let q := { newCopy s x l false 0 co (if fab then .fab else .pkg) with mcast := true, dests := dests }
      checkSend s x q
      return startCopy s x q 8)

/-! ## WAITC and TESTC (R186) -/

/-- Bytes that an engine instruction reads at their homes as it executes (R186, R193): a refused read or an erroneous
word traps precisely. A response that another device has not sent yet is waited for (R217, log 12). -/
def readNow (s : State) (x : Ctxt) (lanes : Mask) (ps : List Placed) : Eff (State × List Byte) :=
  let segs := (ps.map (·.segs)).flatten
  if pieceAway s x.p.ctx segs ∧ awayAnswer s = 3 then .error (.park .answer)
  else if unitRefused s x.p.ctx segs then trapAt .xlate lanes 0x10000 (BitVec.ofNat 64 ((ps.head?).elim 0 (·.va)))
  else match unitBad s x.p.core x.p.ctx segs segs with
    | some b =>
      .error (.trap { cause := .dataerr, addr := BitVec.ofNat 64 b.1, aux := if bitAt b.1 51 then 0x10000 else 0
                      lanes := lanes, met := b.2.map fun w => (unitOf w, w) })
    | none => .ok (readUnit x.p.core x.p.ctx segs (tookAnswer s x.p.ctx segs) segs)

/-- The status word and bitmap word w of a completion object, with the state that has read them. -/
def readWindow (s : State) (x : Ctxt) (lanes : Mask) (c w : Nat) : Eff (State × Nat × Nat) := do
  let ps ← placeAll s x lanes .one .r
    [{ lane := 0, addr := (c : Int), n := 8, align := 8 }, { lane := 0, addr := (c : Int) + 8 + 8 * w, n := 8, align := 8 }]
  let r ← readNow s x lanes ps
  return (r.1, ofBytes (r.2.take 8), ofBytes (r.2.drop 8))

/-- The mask operand: `sz` stands for all ones. -/
def windowMask (c : Opd) (v : Nat) : Nat := if isSz c then 2 ^ 64 - 1 else v

def windowSrcs (h : Hdr) (a b c : Opd) : List Src := [addrSrc h a, srcOf b 2 2 h.lb, srcOf c 2 3 h.lc]

def execWaitc (h : Hdr) (scp : Scope) (d : Nat) (a b c : Opd) (s : State) : Out :=
  .next (wideInstr s h { primer := true, meld := false } (windowSrcs h a b c) [.s d 0] fun s x lanes vs => do
    let (s, st, w) ← readWindow s x lanes (nthVal vs 0) (nthVal vs 1)
    let m := windowMask c (nthVal vs 2)
    if w &&& m = m then
      let s1 := putScalar s x.aid d 0
      return stepPc (if Scope.wide scp then acquireInvalidate s1 x.p.core else s1) x.aid (sizeOf b)
    else if bitAt st 0 then return stepPc (putScalar s x.aid d st) x.aid (sizeOf b)
    else .error (.park .waitc))

def execTestc (h : Hdr) (d : Nat) (a b c : Opd) (s : State) : Out :=
  .next (wideInstr s h { primer := true, meld := false } (windowSrcs h a b c) [.s d 0] fun s x lanes vs => do
    let (s, _, w) ← readWindow s x lanes (nthVal vs 0) (nthVal vs 1)
    return stepPc (putScalar s x.aid d (w &&& windowMask c (nthVal vs 2))) x.aid (sizeOf b))

/-! ## Channels (R187, R189, R229) -/

def putChan (s : State) (x : Ctxt) (c : Nat) (ch : Chan) : State :=
  setPanel s x.st.panel { x.p with chans := tabPut x.p.chans c ch }

def chanPlace : Place := { meld := false }

def execSrel (h : Hdr) (c : Nat) (s : State) : Out :=
  .next (wideInstr s h chanPlace [] [] fun s x lanes _ =>
    match tabGet x.p.chans c with
    | none => trapAt .resfield lanes
    | some ch => do
      if ch.kind ≠ .ring then trapAt .resfield lanes
      waitRelease s x lanes allStreams
      let s1 := if ch.slotsPopped = 0 then s
        else putChan s x c { ch with slotsPopped := ch.slotsPopped - 1, oldSlot := (ch.oldSlot + 1) % ch.slots }
      return stepPc s1 x.aid 8)

/-- Unbinds: waits for the copies into a ring, then discards the entries; a queue's pull binding ends. -/
def execSbindUnbind (h : Hdr) (c : Nat) (s : State) : Out :=
  .next (wideInstr s h chanPlace [] [] fun s x lanes _ =>
    match tabGet x.p.chans c with
    | none => trapAt .perm lanes
    | some ch =>
      if ch.copies ≠ [] then .error (.park .reuse)
      else
        let s1 := setPanel s x.st.panel { x.p with chans := tabDel x.p.chans c }
        let s2 := if ch.kind = .pull then { s1 with easel := tabMod s1.easel ch.queue fun q => { q with pull := none } } else s1
        .ok (stepPc s2 x.aid 8))

/-- Binds a channel that is not bound; PERM otherwise (R189). -/
def bindChan (s : State) (h : Hdr) (c size : Nat) (srcs : List Src)
    (f : State → Ctxt → Mask → List Nat → Eff (State × Chan)) : State :=
  wideInstr s h chanPlace srcs [] fun s x lanes vs => do
    if (tabGet x.p.chans c).isSome then trapAt .perm lanes
    let r ← f s x lanes vs
    return stepPc (putChan r.1 x c r.2) x.aid size

def execSbindPrimer (h : Hdr) (c : Nat) (s : State) : Out :=
  .next (bindChan s h c 8 [] fun s _ _ _ => .ok (s, { kind := .primer }))

/-- SBIND of a ring (R189); a bad geometry is RESFIELD (log 59). -/
def execSbindRing (h : Hdr) (c : Nat) (p1 p2 p3 : Opd) (s : State) : Out :=
  .next (bindChan s h c (sizeOf p2) [addrSrc h p1, srcOf p2 1 2 h.lb, srcOf p3 1 3 h.lc] fun s x lanes vs => do
    let base := nthVal vs 0
    let bytes := nthVal vs 1
    let n := nthVal vs 2
    if bytes = 0 ∨ bytes % 512 ≠ 0 ∨ n = 0 ∨ 16 < n then trapAt .resfield lanes
    if base % 512 ≠ 0 then trapAt .align lanes 0 (BitVec.ofNat 64 base)
    if (scratchOff x.p base (bytes * n)).isNone then trapAt .bounds lanes 0 (BitVec.ofNat 64 base)
    return (s, { kind := .ring, base := base, slotBytes := bytes, slots := n }))

/-- The queue checks of EQPUSH (R291): RESFIELD above 1,023; PERM where the queue is not the context's, or not
enabled where `enabled` asks for it. -/
def checkQueue (s : State) (x : Ctxt) (lanes : Mask) (q : Nat) (enabled : Bool) : Eff EQueue :=
  if 1023 < q then trapAt .resfield lanes
  else match tabGet s.easel q with
    | none => trapAt .perm lanes
    | some e => if e.ctx ≠ x.p.ctx ∨ (enabled ∧ !e.enable) then trapAt .perm lanes else .ok e

def execSbindPort (h : Hdr) (c : Nat) (p1 : Opd) (s : State) : Out :=
  .next (bindChan s h c 8 [srcOf p1 1 1 h.la] fun s x lanes vs => do
    let q := nthVal vs 0
    let e ← checkQueue s x lanes q false
    if e.pull.isSome then trapAt .perm lanes
    return ({ s with easel := tabPut s.easel q { e with pull := some (x.st.panel, c) } }, { kind := .pull, queue := q }))

/-- Why a handle names no set: the reason of R134. -/
def handleFault (c : Ctx) (hd : Nat) : Option Nat :=
  let gen := hd / 2 ^ 24
  let i := hd % 2 ^ 24
  if gen = 0 ∨ i = 0 then some 0
  else if c.params.setEntries ≤ i then some 1
  else match tabGet c.sets i with
    | none => some 2
    | some e => if e.obj.isNone ∨ e.gen ≠ gen then some 2 else none

/-- A Palette iterator (R156): its handle is checked as the handle of a set instruction is (R134, log 13). -/
def execSbindIter (h : Hdr) (c : Nat) (p1 p2 : Opd) (s : State) : Out :=
  .next (bindChan s h c (sizeOf p2) [srcOf p1 1 1 h.la, srcOf p2 1 2 h.lb] fun s x lanes vs => do
    let hd := nthVal vs 0
    if 2 ^ 32 ≤ hd then trapAt .resfield lanes
    match handleFault x.ctx hd with
    | some r => trapAt .setfault lanes (BitVec.ofNat 64 (1 + 4 * r))
    | none => return (s, { kind := .iter, set := hd, nextKey := some (nthVal vs 1 % 2 ^ 32) }))

def chanCode : ChanKind → Nat
  | .primer => 1 | .ring => 2 | .port => 3 | .pull => 3 | .iter => 4

def execSbindQuery (h : Hdr) (c : Nat) (d : Nat) (s : State) : Out :=
  .next (wideInstr s h chanPlace [] [.s d 0] fun s x _ _ =>
    let v := match tabGet x.p.chans c with
      | none => 0
      | some ch => chanCode ch.kind + 8 * min ch.ents.length 16 + (if ch.err then 256 else 0)
    .ok (stepPc (putScalar s x.aid d v) x.aid 8))

/-! ## Publishable regions (R190, R191, R230) -/

/-- The slice that holds every piece, if one does. -/
def oneSlice (segs : List (Nat × Nat)) : Bool :=
  match segs with
  | [] => false
  | g :: t => (homeCore g.1).isSome && t.all fun e => homeCore e.1 == homeCore g.1

def allOnes64 : Nat := 2 ^ 64 - 1

def regionBytes (r : Region) : Nat := (r.segs.map (·.2)).sum

/-- PREG (R190), with the lowest free number (log 134). -/
def execPreg (h : Hdr) (d : Nat) (a b : Opd) (s : State) : Out :=
  .next (wideInstr s h chanPlace [addrSrc h a, srcOf b 2 2 h.lb] [.s d 0] fun s x lanes vs => do
    let base := nthVal vs 0
    let n := nthVal vs 1
    if n = 0 ∨ n % 4096 ≠ 0 ∨ base % 4096 ≠ 0 then trapAt .perm lanes 0 (BitVec.ofNat 64 base)
    let segs ← match segsFor s x.p.ctx .pub base n with
      | .ok g => .ok g
      | .error f => .error (.trap (faultTrap f (BitVec.ofNat 64 base) lanes))
    if !oneSlice segs then trapAt .perm lanes 0 (BitVec.ofNat 64 base)
    let mine := s.regions.filter fun r => r.ctx == x.p.ctx
    let used := (mine.map regionBytes).sum
    if 256 ≤ mine.length ∨ x.ctx.params.shadowReserve < used + n then
      return stepPc (putScalar s x.aid d allOnes64) x.aid (sizeOf b)
    else
      checkSound s lanes segs
      let num := ((List.range 256).find? fun i => !mine.any fun r => r.num == i).getD 0
      let shadow := segs.foldl (fun m g => memWrite m g.1 (memRead s.mem g.1 g.2)) []
      let s1 := { s with regions := s.regions ++ [{ ctx := x.p.ctx, num := num, base := base, segs := segs, shadow := shadow }] }
      return stepPc (putScalar s1 x.aid d num) x.aid (sizeOf b))

/-- The region of the context with a number; PERM where there is none. -/
def theRegion (s : State) (x : Ctxt) (lanes : Mask) (n : Nat) : Eff Region :=
  match s.regions.find? fun r => r.ctx == x.p.ctx && r.num == n with
  | some r => .ok r
  | none => trapAt .perm lanes

def execPregDrop (h : Hdr) (a : Opd) (s : State) : Out :=
  .next (wideInstr s h chanPlace [srcOf a 1 1 h.la] [] fun s x lanes vs => do
    let r ← theRegion s x lanes (nthVal vs 0)
    return stepPc { s with regions := s.regions.filter fun q => q != r } x.aid 8)

/-- Exchanges live and shadow, with the errors that they hold (R191, R347). -/
def exchangeRegion (s : State) (r : Region) : State :=
  let live := r.segs.foldl (fun m g => memWrite m g.1 (memRead s.mem g.1 g.2)) []
  { s with mem := r.segs.foldl (fun m g => memWrite m g.1 (memRead r.shadow g.1 g.2)) s.mem
           badWords := (s.badWords.filter fun w => !inSegs r.segs w) ++ r.bad
           regions := s.regions.map fun q =>
             if q = r then { q with shadow := live, bad := s.badWords.filter (inSegs r.segs) } else q }

/-- Whether a copy of the panel writes into a region. -/
def copyInto (s : State) (panel : Nat) (r : Region) : Bool :=
  s.copies.any fun c => c.2.panel == panel && (c.2.out || c.2.mcast) &&
    (List.range (chunkCount c.2)).any fun k =>
      (tensorPieces s c.2 k).1.any (fun e => segsOverlap e.2 r.segs) ||
      c.2.dests.any fun d => match segsFor s c.2.ctx .we d c.2.bytes with
        | .ok g => segsOverlap g r.segs
        | .error _ => false

def execPub (h : Hdr) (_scp : Scope) (a : Opd) (s : State) : Out :=
  .next (wideInstr s h chanPlace [srcOf a 1 1 h.la] [] fun s x lanes vs => do
    let r ← theRegion s x lanes (nthVal vs 0)
    waitRelease s x lanes allStreams
    if copyInto s x.st.panel r then .error (.park .reuse)
    return stepPc (exchangeRegion s r) x.aid 8)

/-! ## Collectives (R193, R220-R222) -/

def wireFmt : Nat → FFmt
  | 0 => fmtF32 | 1 => fmtBf16 | 2 => fmtE4m3 | _ => fmtE5m2

/-- Participants of a collective among the units of level l (R220). -/
def collN (r : CommRec) (l : Nat) : Nat :=
  if r.levels ≤ l + 1 then (if r.units = 0 then 1 else r.units) else extentOf r (l + 1)

/-- The participants' common group: the unit of level l + 1 that holds panel p, or 0 at the highest level. -/
def collGroup (r : CommRec) (l p : Nat) : Nat := if r.levels ≤ l + 1 then 0 else unitAt r (l + 1) p

/-- Bytes of destination that a participant receives. -/
def collBytes (op count n : Nat) : Nat :=
  match op with
  | 0 => 4 * count
  | 1 => 4 * (count / n)
  | _ => 4 * n * count

def execColl (h : Hdr) (a c : Opd) (s : State) : Out :=
  .next (wideInstr s h chanPlace [addrSrc h a, srcOf c 2 3 h.lc] [] fun s x lanes vs => do
    if !hasRights x then trapAt .issuerights lanes
    let dv := nthVal vs 0
    let comp := nthVal vs 1
    let has := !isSz c
    if has && comp % 8 != 0 then trapAt .align lanes 0 (BitVec.ofNat 64 comp)
    let ps ← placeAll s x lanes .one .r [{ lane := 0, addr := (dv : Int), n := 32, align := 8 }]
    let (s, bs) ← readNow s x lanes ps
    let f := fun o k => ofBytes ((bs.drop o).take k)
    let r := x.c.record
    let lvl := f 25 1
    let op := f 24 1 % 16
    let wire := f 24 1 / 16
    let count := f 16 4
    let n := collN r lvl
    if count = 0 then trapAt .resfield lanes
    if 3 ≤ op ∨ 4 ≤ wire then trapAt .resfield lanes
    if lvl < 3 ∨ r.levels ≤ lvl ∨ domainOf r lvl < 4 then trapAt .resfield lanes
    if f 26 6 ≠ 0 then trapAt .resfield lanes
    if op = 1 ∧ count % n ≠ 0 then trapAt .resfield lanes
    let bytes := collBytes op count n
    let co ← if has then
        match scratchOff x.p comp (8 + 8 * ceilDiv (ceilDiv bytes 512) 64) with
        | some o => .ok (some o)
        | none => trapAt .bounds lanes 0 (BitVec.ofNat 64 comp)
      else .ok none
    let _ ← placeAll s x lanes .one .r [{ lane := 0, addr := (f 0 8 : Int), n := 4 * count, align := 4 }]
    let _ ← placeAll s x lanes .one .we [{ lane := 0, addr := (f 8 8 : Int), n := bytes, align := 4 }]
    checkComp s x lanes co bytes
    if x.p.task || classOf r lvl != 0 then trapAt .illwait lanes 4
    waitRelease s x lanes allStreams
    checkReuse s x co
    let q : Coll :=
      { agent := x.aid, stroke := x.a.stroke, panel := x.st.panel, ctx := x.p.ctx, core := x.p.core, comm := x.p.comm
        level := lvl, op := op, wire := wire, count := count, step := f 20 4, src := f 0 8, dst := f 8 8, comp := co
        unit := unitAt r lvl x.p.idx, group := collGroup r lvl x.p.idx, pidx := x.p.idx, born := s.cycle }
    let s1 := zeroComp s x.p co bytes
    return stepPc { s1 with colls := tabPut s1.colls s1.fresh q, fresh := s1.fresh + 1 } x.aid 8)

/-- The hops of one element (R221): the contributions in position order, each with its rank. -/
def collReduce (wire salt step e : Nat) : List (Nat × Fl) → Option Nat → Nat
  | [], w => w.getD 0
  | (rank, x) :: t, w =>
    let acc := match w with
      | none => x
      | some c => (flAdd .rsk (decodeFl (wireFmt wire) c) x).1
    let md : RMode := ⟨.rsk, (philox (step, e, 0, 0) rank salt).1 / 256⟩
    collReduce wire salt step e t (some (roundFl (wireFmt wire) md true acc).1)

/-- Value(w) as a `.f32` code. -/
def wireToF32 (wire c : Nat) : Nat := (roundFl fmtF32 ⟨.rne, 0⟩ false (decodeFl (wireFmt wire) c)).1

/-- The element of a participant's source. -/
def srcElem (w : List Word) (e : Nat) : Fl := decodeFl fmtF32 ((w[e]?).getD 0).toNat

/-- Destination words of the participant at position j (R221). `xs`: rank and source of each, in position order. An
element index of 2^32 or more goes to the generator as it is (log 125). -/
def collResult (op wire salt step count : Nat) (xs : List (Nat × List Word)) (j : Nat) : List Nat :=
  let red := fun e => wireToF32 wire (collReduce wire salt step e (xs.map fun p => (p.1, srcElem p.2 e)) none)
  match op with
  | 0 => (List.range count).map red
  | 1 => let m := count / xs.length
    (List.range m).map fun i => red (j * m + i)
  | _ => (List.range xs.length).flatMap fun q =>
      (List.range count).map fun e =>
        let p := (xs[q]?).getD (0, [])
        wireToF32 wire (collReduce wire salt step (q * count + e) [(p.1, srcElem p.2 e)] none)

/-- The pending collectives of this device in the issuer's group with its STEP, one from each unit: the unit's at this
level, else one that names another level (R220). -/
def collPeers (s : State) (r : CommRec) (c : Coll) : List (Nat × Coll) :=
  let near := s.colls.filter fun e => e.2.out.isNone && e.2.comm == c.comm && e.2.step == c.step &&
    collGroup r c.level e.2.pidx == c.group
  let same := near.filter fun e => e.2.level == c.level &&
    !(near.any fun f => decide (f.1 < e.1) && f.2.level == c.level && f.2.unit == e.2.unit)
  let unit := fun (e : Nat × Coll) => unitAt r c.level e.2.pidx
  near.foldl (fun l e => if l.any fun f => unit f == unit e then l else l ++ [e]) same

/-- A collective's unit has contributed with its STEP. -/
def collSpent (s : State) (c : Coll) : State :=
  { s with comms := tabMod s.comms c.comm fun m => { m with collsDone := (c.level, c.unit, c.step) :: m.collsDone } }

/-- A collective fails: ERR, no destination byte (R220); DERR where it met an uncorrectable error (R185). -/
def collFail (s : State) (e : Nat × Coll) (derr : Bool) : State :=
  markAt { s with colls := tabDel s.colls e.1 } e.1 e.2.panel e.2.comp e.2.orphan
    { reason := if derr then 1 else 3, virt := true, addr := e.2.src }

/-- A participant fails with its unit's one contribution. A second collective of the unit fails alone. -/
def collErr (s : State) (e : Nat × Coll) (derr : Bool) : State := collFail (collSpent s e.2) e derr

/-- The source words of a local participant; else whether an uncorrectable error is why there are none. -/
def collSource (s : State) (c : Coll) : State × Except Bool (List Word) :=
  match segsFor s c.ctx .r c.src (4 * c.count) with
  | .error f => (countWalk s c.ctx f, .error (f.1 == .dataerr))
  | .ok g =>
    let s0 := tookAnswer s c.ctx g
    if unitRefused s c.ctx g then (s0, .error false)
    else match unitBad s c.core c.ctx g g with
      | some b => (metBad s0 c.ctx b, .error true)
      | none =>
        let d := readUnit c.core c.ctx g s0 g
        (d.1, .ok ((List.range c.count).map fun i => BitVec.ofNat 32 (ofBytes ((d.2.drop (4 * i)).take 4))))

/-- Whether another device has not answered yet for a participant's source (R217, log 12). -/
def collSilent (s : State) (c : Coll) : Bool :=
  match segsFor s c.ctx .r c.src (4 * c.count) with
  | .error _ => false
  | .ok g => pieceAway s c.ctx g && awayAnswer s == 3

/-- The sources of the participants, in order. -/
def collSources : State → List (Nat × Coll) → State × List ((Nat × Coll) × Except Bool (List Word))
  | s, [] => (s, [])
  | s, e :: t =>
    let a := collSource s e.2
    let b := collSources a.1 t
    (b.1, (e, a.2) :: b.2)

def sourceWords (e : Except Bool (List Word)) : List Word :=
  match e with
  | .ok l => l
  | .error _ => []

def sourceFailed (e : Except Bool (List Word)) : Bool :=
  match e with
  | .ok _ => false
  | .error _ => true

def sourceDerr (e : Except Bool (List Word)) : Bool :=
  match e with
  | .ok _ => false
  | .error d => d

/-- Participants by (rank, unit), ascending: rank, unit, words, and the local collective. -/
abbrev Party := Nat × Nat × List Word × Option (Nat × Coll)

def partyLe (a b : Party) : Bool := decide (a.1 < b.1) || (a.1 == b.1 && decide (a.2.1 ≤ b.2.1))

def insertParty (p : Party) : List Party → List Party
  | [] => [p]
  | q :: t => if partyLe p q then p :: q :: t else q :: insertParty p t

/-- Whether a unit has issued two collectives with one STEP: the later of two that are pending, or one whose unit has
contributed before (R220). -/
def collSecond (s : State) (cm : Comm) (e : Nat × Coll) : Bool :=
  cm.collsDone.contains (e.2.level, e.2.unit, e.2.step) ||
  s.colls.any fun f => decide (f.1 < e.1) && f.2.comm == e.2.comm && f.2.level == e.2.level && f.2.unit == e.2.unit &&
    f.2.step == e.2.step

/-- Whether the participants agree in level, op, wire format and count (R220). -/
def collAgree (c : Coll) (peers : List (Nat × Coll)) (others : List CollOther) : Bool :=
  (peers.all fun e => e.2.level == c.level && e.2.op == c.op && e.2.wire == c.wire && e.2.count == c.count) &&
  others.all fun o => o.level == c.level && o.op == c.op && o.wire == c.wire && o.count == c.count

/-- The hops of a collective in position order give each local participant its destination's bytes (R221). -/
def collRun (s : State) (cm : Comm) (c : Coll) (srcs : List ((Nat × Coll) × Except Bool (List Word)))
    (others : List CollOther) : State :=
  let rank := cm.rkey.toNat % 2 ^ 32
  let salt := cm.rkey.toNat / 2 ^ 32
  let ps : List Party := (srcs.map fun e => ((rank, e.1.2.unit, sourceWords e.2, some e.1) : Party)) ++
    others.map fun o => ((o.rank, o.unit, o.src, none) : Party)
  let order := ps.foldl (fun l p => insertParty p l) []
  let xs := order.map fun p => (p.1, p.2.2.1)
  (List.range order.length).foldl (fun t j =>
    match (order[j]?).bind fun p => p.2.2.2 with
    | some e => collSpent { t with colls := tabPut t.colls e.1 { e.2 with
        out := some ((collResult c.op c.wire salt c.step c.count xs j).flatMap fun w => bytesOf 4 w) } } e.2
    | none => t) s

/-- COLL_HOP: the collective runs once every participant has issued; `others` are those of other devices. Its chunks
land from then on. -/
def execCollHop (id : Nat) (others : List CollOther) (s : State) : Out :=
  .next (match tabGet s.colls id with
    | none => s
    | some c =>
      match getComm s c.comm with
      | none => s
      | some cm =>
        if c.out.isSome then s
        else if collSecond s cm (id, c) then collFail s (id, c) false
        else
          let peers := collPeers s cm.record c
          if peers.length + others.length ≠ collN cm.record c.level ∨ peers.any (fun e => collSilent s e.2) then s
          else if !collAgree c peers others then peers.foldl (fun t e => collErr t e false) s
          else
            let r := collSources s peers
            if (r.2.any fun e => sourceFailed e.2) || others.any fun o => o.failed then
              r.2.foldl (fun t e => collErr t e.1 (sourceDerr e.2)) r.1
            else collRun r.1 cm c r.2 others)

end Sys2Proof.Machine
end

