-- ==== Sys2Proof/Machine/Palette.lean ====
section
/-! DEFINITION. Sets as objects: handles, segments and forms, storage and residency, algorithms and costs, and what each
set instruction does at its point (spec/07_sets.md R132-R161; spec/12_order_engines.md R234-R236). -/

namespace Sys2Proof.Machine
open Sys2Proof

/-! ## Segments and forms (R135-R139) -/

/-- Inserts a key into an ascending list. -/
def insertKey (k : Nat) : List Nat → List Nat
  | [] => [k]
  | a :: t => if k < a then k :: a :: t else if a = k then a :: t else a :: insertKey k t

/-- Keys of segment i. -/
def segKeys (o : SetObj) (i : Nat) : List Nat := o.keys.filter fun k => k / 65536 == i

/-- Maximal runs of an ascending list of keys. -/
def runsIn : Option Nat → List Nat → Nat
  | _, [] => 0
  | p, k :: t => (if p.any fun q => q + 1 == k then 0 else 1) + runsIn (some k) t

def segN (o : SetObj) (i : Nat) : Nat := (segKeys o i).length
def segR (o : SetObj) (i : Nat) : Nat := runsIn none (segKeys o i)

def getSeg (o : SetObj) (i : Nat) : Seg := (tabGet o.segs i).getD {}

/-- Segments that hold keys, rising. -/
def keyedSegs (o : SetObj) : List Nat := (o.keys.map (· / 65536)).eraseDups

/-- The least power of two that is at least n. -/
def pow2Ge (n : Nat) : Nat := if n ≤ 1 then 1 else 2 ^ (Nat.log2 (n - 1) + 1)

/-- Stored bytes of a segment (R136). -/
def formBytes (form n r : Nat) : Nat :=
  match form with
  | 1 => 8192
  | 2 => 2 * n
  | 3 => 4 * r
  | 4 => let c := max 64 (pow2Ge (2 * n)); 2 * c + c / 8
  | _ => 0

def segBytes (o : SetObj) (i : Nat) : Nat :=
  if segN o i = 0 then 0 else formBytes (getSeg o i).form (segN o i) (segR o i)

/-- R137. -/
def freeForm (n r ic : Nat) : Nat :=
  if 64 < ic ∧ n ≤ 4096 then 4
  else if 4 * r + 4 < min (2 * n) 8192 then 3
  else if n ≤ 4096 then 2
  else 1

def canHold (form n r : Nat) : Bool :=
  match form with
  | 3 => decide (r ≤ 2048)
  | 1 => true
  | _ => decide (n ≤ 4096)

/-- The form of a decided segment, and PINOVER (R137, R139). -/
def decideForm (pin n r ic : Nat) : Nat × Bool :=
  if n = 0 then (0, false)
  else if pin = 0 then (freeForm n r ic, false)
  else if canHold pin n r then (pin, false)
  else (1, true)

/-- Decides segment i; gives the set, PINOVER and whether it is a conversion (R138). `had`: it held keys before. -/
def decideSeg (o : SetObj) (i : Nat) (had : Bool) : SetObj × Bool × Bool :=
  let g := getSeg o i
  let n := segN o i
  let d := decideForm o.pin n (segR o i) g.ic
  ({ o with segs := tabPut o.segs i { g with form := d.1 } }, d.2, had && n != 0 && d.1 != g.form)

def decideSegs : List (Nat × Bool) → SetObj → SetObj × Bool × Nat
  | [], o => (o, false, 0)
  | (i, had) :: t, o =>
    let a := decideSeg o i had
    let b := decideSegs t a.1
    (b.1, a.2.1 || b.2.1, (if a.2.2 then 1 else 0) + b.2.2)

/-! ## Storage (R143-R145) -/

def chunkUp (b : Nat) : Nat := ceilDiv b 256 * 256
def dirBytes (u : Nat) : Nat := chunkUp (64 + 16 * ceilDiv u 65536)

/-- Chunk bytes of the segments of a set that are resident, or not. -/
def heldBytes (o : SetObj) (res : Bool) : Nat :=
  ((keyedSegs o).map fun i => if (getSeg o i).resident = res then chunkUp (segBytes o i) else 0).sum

def objs (t : Tab SetEntry) : List (Nat × SetObj) := t.filterMap fun e => e.2.obj.map fun o => (e.1, o)

def sramUsed (t : Tab SetEntry) : Nat := ((objs t).map fun e => dirBytes e.2.u + heldBytes e.2 true).sum
def backUsed (t : Tab SetEntry) : Nat := ((objs t).map fun e => heldBytes e.2 false).sum

/-- Resident segments with keys: set, segment, last use, chunk bytes. -/
def residents (t : Tab SetEntry) : List (Nat × Nat × Nat × Nat) :=
  (objs t).flatMap fun e => (keyedSegs e.2).filterMap fun i =>
    let g := getSeg e.2 i
    if g.resident then some (e.1, i, g.used, chunkUp (segBytes e.2 i)) else none

def leastUsed : List (Nat × Nat × Nat × Nat) → Option (Nat × Nat × Nat × Nat)
  | [] => none
  | a :: t => match leastUsed t with
    | none => some a
    | some b => if a.2.2.1 ≤ b.2.2.1 then some a else some b

def putObj (t : Tab SetEntry) (idx : Nat) (o : SetObj) : Tab SetEntry := tabMod t idx fun e => { e with obj := some o }

def modSeg (t : Tab SetEntry) (idx i : Nat) (f : Seg → Seg) : Tab SetEntry :=
  tabMod t idx fun e => { e with obj := e.obj.map fun o => { o with segs := tabPut o.segs i (f (getSeg o i)) } }

/-- Moves the least recently used segments to the backing region until the SRAM quota holds; none where it cannot
(R144, R145). One that the backing region has no room for is passed over (log 131). `fuel`: segments moved at most. -/
def fitSets (quota backing : Nat) : Nat → Tab SetEntry → Option (Tab SetEntry)
  | 0, t => if sramUsed t ≤ quota ∧ backUsed t ≤ backing then some t else none
  | fuel + 1, t =>
    if sramUsed t ≤ quota then (if backUsed t ≤ backing then some t else none)
    else match leastUsed ((residents t).filter fun r => decide (backUsed t + r.2.2.2 ≤ backing)) with
      | none => none
      | some r => fitSets quota backing fuel (modSeg t r.1 r.2.1 fun g => { g with resident := false })

/-- The storage of the segments of a set: in SRAM and in the backing region. -/
def segStore (o : SetObj) (is : List Nat) : Nat × Nat :=
  (is.map fun i => if (getSeg o i).resident then (chunkUp (segBytes o i), 0) else (0, chunkUp (segBytes o i))).foldl
    (fun a b => (a.1 + b.1, a.2 + b.2)) (0, 0)

/-- Storage of replaced directories that a reader has not finished with (R235). -/
def oldStores (c : Ctx) : List OldStore :=
  c.replaced.filter fun e => e.readers.any fun r => c.reading.any fun q => q.1 == r

def oldSram (c : Ctx) : Nat := ((oldStores c).map (·.sram)).sum
def oldBack (c : Ctx) : Nat := ((oldStores c).map (·.back)).sum

/-- A context whose sets fit its store beside what it still holds for readers, and beside `old`, the storage that the
change replaces: the new segments stand apart from the live ones until the exchange (R234, R235). None: SETFULL. -/
def fitCtx (c : Ctx) (old : Nat × Nat) (sets : Tab SetEntry) : Option Ctx :=
  let hs := oldSram c + old.1
  let hb := oldBack c + old.2
  if c.params.setQuota < hs ∨ c.params.setBacking < hb then none
  else (fitSets (c.params.setQuota - hs) (c.params.setBacking - hb) ((residents sets).length + 1) sets).map fun t =>
    { c with sets := t }

/-- The replaced storage of set `idx` stays charged while instructions accepted earlier still read it (R235). -/
def keepOld (c : Ctx) (idx : Nat) (old : Nat × Nat) : Ctx :=
  let rs := (c.reading.filter fun e => e.2 == idx).map (·.1)
  if rs = [] ∨ old = (0, 0) then { c with replaced := oldStores c }
  else { c with replaced := oldStores c ++ [{ sram := old.1, back := old.2, readers := rs }] }

/-- Reads a segment: fetched where it is in the backing region, and brought back when the quota allows (R144). Gives
the context, the bytes fetched and the error met. -/
def fetchSeg (c : Ctx) (idx : Nat) (o : SetObj) (now i : Nat) : Ctx × Nat × Option Nat :=
  let g := getSeg o i
  let b := segBytes o i
  let back := !g.resident && decide (sramUsed c.sets + oldSram c + chunkUp b ≤ c.params.setQuota)
  ({ c with sets := modSeg c.sets idx i fun q => { q with used := now, resident := q.resident || back } },
    if g.resident then 0 else b, g.bad)

def fetchSegs (now idx : Nat) (o : SetObj) : List Nat → Ctx → Ctx × Nat × Option Nat
  | [], c => (c, 0, none)
  | i :: t, c =>
    let a := fetchSeg c idx o now i
    let b := fetchSegs now idx o t a.1
    (b.1, a.2.1 + b.2.1, match a.2.2 with
      | some x => some x
      | none => b.2.2)

/-! ## Algorithms (R146-R148) -/

/-- 512-key windows that hold keys of both lists. -/
def sharedWindows (a b : List Nat) : Nat :=
  ((a.map (· / 512)).eraseDups.filter fun w => b.any fun k => k / 512 == w).length

/-- Code and cycles of the pair of segments i of two sets (R146). -/
def pairAlg (a b : SetObj) (i : Nat) : Nat × Nat :=
  let na := segN a i
  let nb := segN b i
  let fa := (getSeg a i).form
  let fb := (getSeg b i).form
  let ra := segR a i
  let rb := segR b i
  let e := fun (f n r : Nat) => if f = 3 then r else n
  if na = 0 ∨ nb = 0 then (7, 0)
  else if fa = 4 ∧ fb = 4 then (5, ceilDiv (min na nb) 8)
  else if fa = 4 then (5, ceilDiv nb 8)
  else if fb = 4 then (5, ceilDiv na 8)
  else if fa = 1 ∧ fb = 1 then (1, 128)
  else if fa = 2 ∧ fb = 2 ∧ na ≤ 512 ∧ nb ≤ 512 then (2, ceilDiv (na + nb) 32 + sharedWindows (segKeys a i) (segKeys b i))
  else if fa ≠ 1 ∧ fb ≠ 1 then (3, ceilDiv (e fa na ra + e fb nb rb) 32)
  else if fa = 2 then (4, ceilDiv na 32)
  else if fb = 2 then (4, ceilDiv nb 32)
  else if fa = 3 then (6, ra + ceilDiv na 512)
  else (6, rb + ceilDiv nb 512)

/-- Segments of either set that hold keys, rising. -/
def bothSegs (a b : SetObj) : List Nat :=
  (keyedSegs b).foldl (fun l i => insertKey i l) (keyedSegs a)

/-- Cycles for a segment that is not resident in the slice of the executing home (R147). -/
def awayCost (o : SetObj) (home i : Nat) : Nat :=
  if segN o i = 0 then 0
  else if !(getSeg o i).resident then 600 + ceilDiv (segBytes o i) 64
  else if o.home ≠ home then 20 + ceilDiv (segBytes o i) 64
  else 0

/-- The bound out of a binary operation on segments i. -/
def outBound (op : Nat) (a b : SetObj) (i : Nat) : Nat :=
  match op with
  | 6 => min (segBytes a i) (segBytes b i)
  | 8 => segBytes a i
  | _ => min (segBytes a i + segBytes b i) 8192

/-- C of R147 for a binary operation at a home. -/
def binaryCost (op : Nat) (a b : SetObj) (home : Nat) : Nat :=
  (bothSegs a b).foldl (fun c i =>
    c + 4 + (pairAlg a b i).2 + ceilDiv (outBound op a b i) 256 + awayCost a home i + awayCost b home i) 40

/-- Code 8: an ordered read of segments, charged as they are found (log 122). -/
def readAlgs (o : SetObj) (is : List Nat) : List (Nat × Nat) := is.map fun i => (8, ceilDiv (segBytes o i) 64)

/-- C of R147 for SSTORE of the whole set. -/
def storeCost (o : SetObj) : Nat :=
  (keyedSegs o).foldl (fun c i =>
    c + 4 + ceilDiv (segBytes o i) 64 + ceilDiv (4 * segN o i) 256 + awayCost o o.home i +
      (if (getSeg o i).form = 4 then 128 else 0)) 40

def algSum (l : List (Nat × Nat)) (code : Nat) : Nat := ((l.filter fun e => e.1 == code).map (·.2)).sum

/-- ALGDOM: the code whose pairs took the most cycles, the lower at a tie (R148). -/
def algDom (l : List (Nat × Nat)) : Nat :=
  let codes := (List.range 16).filter fun c => l.any fun e => e.1 == c
  codes.foldl (fun b c => if algSum l b < algSum l c ∨ !(l.any fun e => e.1 == b) then c else b) 0

/-! ## What a set instruction leaves -/

structure SetOut where
  ctx : Ctx
  /-- A value per lane, for a vector destination; a scalar; bits of a mask. -/
  lanes : List Nat := []
  scalar : Nat := 0
  kbits : Mask := 0
  algs : List (Nat × Nat) := []
  convs : Nat := 0
  res : Nat := 0
  bytes : Nat := 0
  bad : Option Nat := none
  /-- C, where R147 bounds the cycles. -/
  cost : Option Nat := none

def SetOut.stat (o : SetOut) : SetStat :=
  { algs := o.algs, convs := o.convs, res := o.res, bytes := o.bytes, cost := o.cost }

def setFull : Nat := 1

/-- RESULT of a completed instruction (R148). -/
def setRes (range late : Bool) : Nat := if range then 3 else if late then 2 else 0

def handleIdx (hd : Nat) : Nat := hd % 2 ^ 24

def getObj (c : Ctx) (hd : Nat) : Option SetObj := (tabGet c.sets (handleIdx hd)).bind (·.obj)

/-- Every lane's value of one number. -/
def sameLanes (w v : Nat) : List Nat := List.replicate w v

/-- Values by lane from pairs. -/
def laneTable (w : Nat) (l : List (Nat × Nat)) : List Nat :=
  (List.range w).map fun i => ((l.find? fun e => e.1 == i).map (·.2)).getD 0

/-! ## The sixteen instructions at their points -/

/-- The lowest free entry that may be used: index and generation (R133). -/
def freeEntry (c : Ctx) : Option (Nat × Nat) :=
  ((List.range (c.sets.length + 1)).map (· + 1)).findSome? fun i =>
    if c.params.setEntries ≤ i then none
    else match tabGet c.sets i with
      | none => some (i, 1)
      | some e => if e.obj.isNone ∧ 0 < e.gen then some (i, e.gen) else none

/-- Makes a set in the lowest free entry: the context and its handle, or none: SETFULL. -/
def makeSet (c : Ctx) (o : SetObj) : Option (Ctx × Nat) :=
  match freeEntry c with
  | none => none
  | some (i, gen) => (fitCtx c (0, 0) (tabPut c.sets i { gen := gen, obj := some o })).map fun d => (d, gen * 2 ^ 24 + i)

def runSnew (c : Ctx) (op : SetOp) (u pin home : Nat) : SetOut :=
  match makeSet c { u := u, pin := pin, home := home } with
  | some (d, hd) => { ctx := d, scalar := hd, lanes := sameLanes op.width hd }
  | none => { ctx := c, res := setFull, lanes := sameLanes op.width 0 }

/-- SDEL: the entry goes on to its next generation; one deleted at generation 255 is retired: generation 0. -/
def runSdel (c : Ctx) (hd : Nat) : SetOut :=
  let old := (getObj c hd).elim (0, 0) fun o => let b := segStore o (keyedSegs o); (b.1 + dirBytes o.u, b.2)
  let c1 := keepOld c (handleIdx hd) old
  { ctx := { c1 with sets := tabMod c1.sets (handleIdx hd) fun e => { gen := if e.gen = 255 then 0 else e.gen + 1, obj := none } } }

/-- SINS and SREM lane by lane: keys and counters of the set, the status of each lane. -/
def updateLanes (ins : Bool) : List (Nat × Nat) → SetObj → SetObj × List (Nat × Nat)
  | [], o => (o, [])
  | (l, k) :: t, o =>
    if o.u ≤ k then let r := updateLanes ins t o; (r.1, (l, 2) :: r.2)
    else
      let has := o.keys.contains k
      let g := getSeg o (k / 65536)
      let o1 : SetObj := if ins then
          { o with keys := insertKey k o.keys, segs := tabPut o.segs (k / 65536) { g with ic := min (g.ic + 1) 255 } }
        else { o with keys := o.keys.filter fun q => q != k }
      let r := updateLanes ins t o1
      (r.1, (l, if has = ins then 0 else 1) :: r.2)

/-- Segments that keys of the universe reach, rising, with how many. -/
def reached (u : Nat) (keys : List (Nat × Nat)) : List (Nat × Nat) :=
  let l := (keys.filter fun e => decide (e.2 < u)).map fun e => e.2 / 65536
  (l.foldl (fun r i => insertKey i r) []).map fun i => (i, (l.filter fun j => j == i).length)

def outOfRange (u : Nat) (keys : List (Nat × Nat)) : Bool := keys.any fun e => decide (u ≤ e.2)

/-- Whether an update changed a segment's n, r, ic or what decides it (R138). -/
def segChanged (a b : SetObj) (i : Nat) : Bool :=
  segN a i != segN b i || segR a i != segR b i || (getSeg a i).ic != (getSeg b i).ic

/-- SINS and SREM (R153). Code 9 counts for each segment that the keys reach (log 129). -/
def runUpdate (c : Ctx) (op : SetOp) (now hd : Nat) (ins : Bool) : SetOut :=
  match getObj c hd with
  | none => { ctx := c }
  | some o =>
    let rs := reached o.u op.keys
    let rd := fetchSegs now (handleIdx hd) o ((rs.map (·.1)).filter fun i => segN o i != 0) c
    let o := (getObj rd.1 hd).getD o
    let (o1, st) := updateLanes ins op.keys o
    let changed := (rs.map (·.1)).filter (segChanged o o1)
    let o2 : SetObj := { o1 with segs := changed.foldl (fun t i =>
      tabPut t i { getSeg o1 i with resident := true, used := now, bad := none }) o1.segs }
    let d := decideSegs (changed.map fun i => (i, segN o i != 0)) o2
    let algs := rs.map fun e => (9, ceilDiv e.2 8)
    let old := segStore o changed
    match fitCtx rd.1 old (putObj rd.1.sets (handleIdx hd) d.1) with
    | some c2 => { ctx := keepOld c2 (handleIdx hd) old, lanes := laneTable op.width st, algs := algs, convs := d.2.2
                   res := setRes (outOfRange o.u op.keys) d.2.1, bytes := rd.2.1, bad := rd.2.2 }
    | none => { ctx := rd.1, lanes := sameLanes op.width 3, algs := algs, res := setFull, bytes := rd.2.1, bad := rd.2.2 }

/-- SHAS (R153), with code 9 as above (log 129). -/
def runShas (c : Ctx) (op : SetOp) (now hd : Nat) : SetOut :=
  match getObj c hd with
  | none => { ctx := c }
  | some o =>
    let rs := reached o.u op.keys
    let rd := fetchSegs now (handleIdx hd) o ((rs.map (·.1)).filter fun i => segN o i != 0) c
    let yes := fun (l : Nat) => op.keys.any fun e => e.1 == l && decide (e.2 < o.u) && o.keys.contains e.2
    { ctx := rd.1, lanes := (List.range op.width).map fun l => if yes l then 1 else 0, kbits := maskOf op.width yes
      algs := rs.map fun e => (9, ceilDiv e.2 8), res := setRes (outOfRange o.u op.keys) false, bytes := rd.2.1
      bad := rd.2.2 }

def runScard (c : Ctx) (hd : Nat) : SetOut := { ctx := c, scalar := ((getObj c hd).elim 0 fun o => o.keys.length), cost := some 40 }

/-- a ∩ b, a ∪ b, a \ b, a △ b on ascending lists. -/
def combineKeys (op : Nat) (a b : List Nat) : List Nat :=
  match op with
  | 6 => a.filter fun k => b.contains k
  | 7 => (b.filter fun k => !a.contains k).foldl (fun l k => insertKey k l) a
  | 8 => a.filter fun k => !b.contains k
  | _ => (b.filter fun k => !a.contains k).foldl (fun l k => insertKey k l) (a.filter fun k => !b.contains k)

/-- SAND, SOR, SSUB and SXOR (R155): operands and destination at one single point (log 121). -/
def runBinary (c : Ctx) (now op hd ha hb : Nat) : SetOut :=
  match getObj c hd, getObj c ha, getObj c hb with
  | some d, some a, some b =>
    let rd := fetchSegs now (handleIdx ha) a (keyedSegs a) c
    -- one set as both operands is read once (R144)
    let rd2 := if handleIdx ha = handleIdx hb then (rd.1, 0, rd.2.2) else fetchSegs now (handleIdx hb) b (keyedSegs b) rd.1
    let d := (getObj rd2.1 hd).getD d
    let all := combineKeys op a.keys b.keys
    let keys := all.filter fun k => decide (k < d.u)
    let is := (keys.map (· / 65536)).eraseDups
    let segs : Tab Seg := is.foldl (fun t i => tabPut t i { (getSeg d i) with ic := 0, resident := true, used := now, bad := none }) []
    let q := decideSegs (is.map fun i => (i, segN d i != 0)) { d with keys := keys, segs := segs }
    let algs := (bothSegs a b).map (pairAlg a b)
    let bytes := rd.2.1 + rd2.2.1
    let bad := match rd.2.2 with
      | some x => some x
      | none => rd2.2.2
    let old := segStore d (keyedSegs d)
    match fitCtx rd2.1 old (putObj rd2.1.sets (handleIdx hd) q.1) with
    | some c2 => { ctx := keepOld c2 (handleIdx hd) old, scalar := keys.length, algs := algs, convs := q.2.2, bytes := bytes, bad := bad
                   res := setRes (decide (keys.length < all.length)) q.2.1, cost := some (binaryCost op a b d.home) }
    | none => { ctx := rd2.1, scalar := 2 ^ 64 - 1, algs := algs, res := setFull, bytes := bytes, bad := bad
                cost := some (binaryCost op a b d.home) }
  | _, _, _ => { ctx := c }

/-! ## Ordered reads (R138, R156, R157, R161) -/

/-- The conversion before an ordered read: ic becomes 0, and a HASH segment is decided; skipped where the chunks cannot
be had (R138). -/
def orderSeg (c : Ctx) (idx i : Nat) : Ctx × Nat :=
  match (tabGet c.sets idx).bind (·.obj) with
  | none => (c, 0)
  | some o =>
    let o1 : SetObj := { o with segs := tabPut o.segs i { getSeg o i with ic := 0 } }
    let c1 := { c with sets := putObj c.sets idx o1 }
    if (getSeg o i).form = 4 then
      let d := decideSeg o1 i true
      let old := if d.2.2 then segStore o [i] else (0, 0)
      match fitCtx c old (putObj c.sets idx d.1) with
      | some c2 => (keepOld c2 idx old, if d.2.2 then 1 else 0)
      | none => (c1, 0)
    else (c1, 0)

def orderSegs (idx : Nat) : List Nat → Ctx → Ctx × Nat
  | [], c => (c, 0)
  | i :: t, c =>
    let a := orderSeg c idx i
    let b := orderSegs idx t a.1
    (b.1, a.2 + b.2)

/-- The segments that an ordered read from `start` of at most n members reads: those with keys from the start's on, up
to the one that completes it (log 77). -/
def orderedSegs (o : SetObj) (start n : Nat) : List Nat :=
  let l := (o.keys.filter fun k => decide (start ≤ k)).take n
  let stop := if l.length < n then 65536 else (l.getLast?).elim 0 (· / 65536)
  (keyedSegs o).filter fun i => decide (start / 65536 ≤ i) && decide (i ≤ stop)

/-- An ordered read of segments: the context, the bytes fetched, the error, the conversions. -/
def orderedRead (c : Ctx) (now idx : Nat) (o : SetObj) (is : List Nat) : Ctx × Nat × Option Nat × Nat :=
  let rd := fetchSegs now idx o is c
  let cv := orderSegs idx is rd.1
  (cv.1, rd.2.1, rd.2.2, cv.2)

/-- The active lanes of a mask, rising, paired with the members that they take. -/
def laneMembers (w : Nat) (m : Mask) (l : List Nat) : List (Nat × Nat) :=
  (laneList m w).zipIdx.map fun e => (e.1, (l[e.2]?).getD 0xFFFFFFFF)

def runSitr (c : Ctx) (op : SetOp) (now hd start : Nat) : SetOut :=
  match getObj c hd with
  | none => { ctx := c }
  | some o =>
    let n := popCount op.lanes op.width
    let l := o.keys.filter fun k => decide (start ≤ k)
    let is := orderedSegs o start n
    let rd := orderedRead c now (handleIdx hd) o is
    { ctx := rd.1, lanes := laneTable op.width (laneMembers op.width op.lanes l), scalar := min n l.length
      algs := readAlgs o is, convs := rd.2.2.2, bytes := rd.2.1, bad := rd.2.2.1 }

def runSrank (c : Ctx) (op : SetOp) (now hd : Nat) (sel : Bool) : SetOut :=
  match getObj c hd with
  | none => { ctx := c }
  | some o =>
    let one := fun (k : Nat) =>
      if sel then (o.keys[k]?).getD 0xFFFFFFFF
      else if o.u ≤ k then o.keys.length
      else (o.keys.filter fun q => decide (q < k)).length
    let seg := fun (k : Nat) => if sel then (o.keys[k]?).map (· / 65536) else if o.u ≤ k then none else some (k / 65536)
    let hit := op.keys.filterMap fun e => seg e.2
    let is := (keyedSegs o).filter fun i => hit.contains i
    let rd := orderedRead c now (handleIdx hd) o is
    { ctx := rd.1, lanes := laneTable op.width (op.keys.map fun e => (e.1, one e.2 % 2 ^ 32)), algs := readAlgs o is
      convs := rd.2.2.2, bytes := rd.2.1, bad := rd.2.2.1 }

/-! ## SINFO and SCOST (R158, R159) -/

/-- A description word (R158). -/
def infoWord (o : SetObj) (gen sel key : Nat) : Nat :=
  match sel with
  | 0 => o.u % 2 ^ 32 + o.pin * 2 ^ 32 + gen * 2 ^ 40 + o.home % 128 * 2 ^ 48 + o.home / 128 * 2 ^ 55
  | 1 => dirBytes o.u + heldBytes o true
  | 2 => heldBytes o false
  | _ =>
    let i := key / 65536
    let g := getSeg o i
    let n := segN o i
    (if n = 0 then 0 else g.form) + (if n ≠ 0 ∧ g.resident then 8 else 0) + g.ic * 2 ^ 8 + n * 2 ^ 16 +
      segR o i * 2 ^ 48

def runSinfo (c : Ctx) (hd sel key : Nat) : SetOut :=
  match tabGet c.sets (handleIdx hd) with
  | some e => { ctx := c, scalar := e.obj.elim 0 fun o => infoWord o e.gen sel key }
  | none => { ctx := c }

/-- SINFO.pin: every segment is decided under the new pin. -/
def runPin (c : Ctx) (now hd form : Nat) : SetOut :=
  match getObj c hd with
  | none => { ctx := c }
  | some o =>
    let is := keyedSegs o
    let d := decideSegs (is.map fun i => (i, true)) { o with pin := form }
    let conv := is.filter fun i => (getSeg d.1 i).form != (getSeg o i).form
    let rd := fetchSegs now (handleIdx hd) o conv c
    let o := (getObj rd.1 hd).getD o
    let o2 : SetObj := { o with pin := form, segs := conv.foldl (fun t i =>
      tabPut t i { getSeg d.1 i with resident := true, used := now, bad := none }) o.segs }
    let algs := is.map fun i => if conv.contains i then (10, 128) else (0, 0)
    let old := segStore o conv
    match fitCtx rd.1 old (putObj rd.1.sets (handleIdx hd) o2) with
    | some c2 => { ctx := keepOld c2 (handleIdx hd) old, algs := algs, res := setRes false d.2.1, bytes := rd.2.1, bad := rd.2.2 }
    -- nothing converts
    | none => { ctx := rd.1, algs := is.map fun _ => (0, 0), res := setFull, bytes := rd.2.1, bad := rd.2.2 }

/-- Whether an ordered read of a segment converts it (R138). -/
def readConverts (o : SetObj) (i : Nat) : Bool :=
  (getSeg o i).form == 4 && (decideForm o.pin (segN o i) (segR o i) 0).1 != 4

/-- SCOST (R159). `hb` and `hd` are 0 where the operand is `sz`. -/
def runScost (c : Ctx) (now op ha hb hd : Nat) : SetOut :=
  match getObj c ha with
  | none => { ctx := c }
  | some a =>
    if op = 5 then { ctx := c, scalar := 40 }
    else if op = 15 then { ctx := c, scalar := storeCost a, algs := readAlgs a (keyedSegs a) ++
      (keyedSegs a).filterMap fun i => if readConverts a i then some (10, 128) else none }
    else match getObj c hb with
      | none => { ctx := c }
      | some b =>
        let home := if hd = 0 then a.home else (getObj c hd).elim a.home (·.home)
        -- the conversions of the destination that the predicted instruction would make
        let convs := if hd = 0 then 0 else (runBinary c now op hd ha hb).convs
        { ctx := c, scalar := binaryCost op a b home
          algs := (bothSegs a b).map (pairAlg a b) ++ List.replicate convs (10, 128) }

/-! ## Images (R60, R160) -/

/-- The byte offset of the first bad field of an image whose keys are given. -/
def imageBad (hdr : List Byte) (keys : List Nat) : Option Nat :=
  let u := let v := ofBytes (hdr.take 4); if v = 0 then 2 ^ 32 else v
  if 4 < ((hdr[8]?).getD 0).toNat then some 8
  else match (List.range 7).find? fun i => (hdr[9 + i]?).getD 0 != 0 with
    -- the reserved bytes are one field
    | some _ => some 9
    | none =>
      let rec go : Option Nat → Nat → List Nat → Option Nat
        | _, _, [] => none
        | p, i, k :: t => if u ≤ k ∨ (p.any fun q => decide (k ≤ q)) then some (16 + 4 * i) else go (some k) (i + 1) t
      go none 0 keys

/-- SLOAD's new set. -/
def runSload (c : Ctx) (op : SetOp) (now : Nat) (hdr : List Byte) (keys : List Nat) : SetOut :=
  let u := let v := ofBytes (hdr.take 4); if v = 0 then 2 ^ 32 else v
  let pin := ((hdr[8]?).getD 0).toNat
  let is := (keys.map (· / 65536)).eraseDups
  let segs : Tab Seg := is.foldl (fun t i => tabPut t i { used := now }) []
  let d := decideSegs (is.map fun i => (i, false)) { u := u, pin := pin, home := op.core, keys := keys, segs := segs }
  match makeSet c d.1 with
  | some (c2, hd) => { ctx := c2, scalar := hd, lanes := sameLanes op.width hd, algs := readAlgs d.1 is, res := setRes false d.2.1 }
  | none => { ctx := c, lanes := sameLanes op.width 0, algs := readAlgs d.1 is, res := setFull }

end Sys2Proof.Machine
end

