-- ==== Sys2Proof/Machine/Sets.lean ====
section
/-! DEFINITION. The set instructions from issue to completion (spec/07_sets.md R140-R142, R149-R161;
spec/12_order_engines.md R234-R237). -/

namespace Sys2Proof.Machine
open Sys2Proof

/-! ## Issue and acceptance (R134, R140, R149) -/

/-- What an accepted instruction will do, and the registers it writes. -/
structure SetPlan where
  act : SetAct
  handles : List Nat := []
  keys : List (Nat × Nat) := []
  dst : List (Nat × Nat × Mask) := []
  sdst : List Nat := []
  kdst : Option Nat := none
  holds : Bool := false

/-- A handle that an accepted SDEL will free names nothing for the instructions after it (R152). -/
def handleGone (s : State) (ctx hd : Nat) : Bool :=
  s.setOps.any fun o => o.2.ctx == ctx && o.2.act == .sdel && o.2.handles == [hd]

/-- The first handle that fails, with TAUX (R134). `hs`: operand field and value, in the order D, A, B, C. -/
def badHandle (s : State) (x : Ctxt) (hs : List (Nat × Nat)) : Option DWord :=
  hs.findSome? fun e =>
    match handleFault x.ctx e.2 with
    | some r => some (BitVec.ofNat 64 (e.1 + 4 * r))
    | none => if handleGone s x.p.ctx e.2 then some (BitVec.ofNat 64 (e.1 + 8)) else none

/-- The checks of a set instruction in the order of R322, up to R24. -/
def setGather (s : State) (x0 : Ctxt) (h : Hdr) (srcs : List Src) (dsts : List Ref) (uni : List Nat) :
    Eff (State × Ctxt) := do
  let lanes := activeMask x0.a h.km
  checkPlace x0 lanes matPlace
  let (s, x) ← switchMark s x0 h.sw
  checkMeldPairs x lanes srcs dsts
  checkRegs x lanes srcs (dsts ++ selRefs x h.km)
  if lanes ≠ 0 then checkUniform x lanes srcs uni
  checkMeld x lanes matPlace
  checkReads x lanes (selRefs x h.km)
  return (s, x)

/-- A set instruction. Not accepted yet (`acc` false): its checks up to R24, then its agent parks for acceptance. At
acceptance: the handles, its own checks in `body`, and its commit (R140). `hands`: the places of its handles in `srcs`. -/
def setInstr (acc : Bool) (i : Instr) (s : State) (h : Hdr) (size : Nat) (srcs : List Src) (dsts : List Ref)
    (uni hands : List Nat) (body : State → Ctxt → Mask → List (Nat → Nat) → Eff SetPlan) : State :=
  runAgent s fun x0 => do
    let lanes := activeMask x0.a h.km
    let (s, x) ← setGather s x0 h srcs dsts uni
    let (s, x) := pullAll s x srcs
    let vs ← srcValues s x lanes srcs srcs.length 0
    if lanes = 0 then commitIdle s x srcs lanes dsts size
    else
      let lo := (lowestLane lanes x.w).getD 0
      let hs := hands.map fun k => (((srcs[k]?).map (·.field)).getD 0, val vs k lo)
      if hs.any fun e => decide (2 ^ 32 ≤ e.2) then trapAt .resfield lanes
      if !acc then
        return blockAgent { setAgent s x.aid { x.a with setAt := some (s.fresh, i) } with fresh := s.fresh + 1 } x.aid .set
      else
        match badHandle s x hs with
        | some aux => trapAt .setfault lanes aux
        | none => pure ()
        let p ← body s x lanes vs
        let op : SetOp :=
          { agent := x.aid, po := x.po, stroke := x.a.stroke, ctx := x.p.ctx, core := x.p.core, act := p.act, handles := p.handles
            lanes := lanes, width := x.w, keys := p.keys, since := s.cycle, issue := (x.a.setAt.map (·.1)).getD s.fresh
            size := size, holds := p.holds, dst := p.dst, sdst := p.sdst, kdst := p.kdst, before := x.a.before }
        let writes := !(p.dst.isEmpty && p.sdst.isEmpty && p.kdst.isNone)
        let s1 ← if p.holds then reserveFor s x [] (p.dst.map (·.2.1)) else issueRegs s x srcs (p.dst.map (·.2.1))
        let s2 := protect s1 x.aid lanes dsts
        let id := s2.fresh
        let s3 := if writes then
            addResult s2 { agent := x.aid, po := x.po, ctx := x.p.ctx, kind := .held, mask := lanes, dst := p.dst, sdst := p.sdst
                           kdst := p.kdst.map fun k => (k, lanes) }
          else s2
        let op1 := { op with result := if writes then some id else none, freed := if p.holds then freedBy x.a srcs else [] }
        let s4 := { s3 with setOps := tabPut s3.setOps s3.fresh op1, fresh := s3.fresh + 1 }
        match getAgent s4 x.aid with
        | none => return s4
        | some a =>
          let a1 := { a with setAt := none }
          if p.holds then return blockAgent (setAgent s4 x.aid a1) x.aid .set
          else return stepPc (setAgent s4 x.aid { a1 with run := .ready }) x.aid size

/-- Keys of the active lanes. -/
def laneKeys (x : Ctxt) (lanes : Mask) (v : Nat → Nat) : List (Nat × Nat) :=
  (laneList lanes x.w).map fun l => (l, v l % 2 ^ 32)

def vecDst (x : Ctxt) (lanes : Mask) (n : Nat) : List (Nat × Nat × Mask) := dstParts x.a lanes n 1

/-- A handle or count destination that is a scalar or a vector. -/
def dstPlan (x : Ctxt) (lanes : Mask) (d : Dst) (p : SetPlan) : SetPlan :=
  match d with
  | .v n => { p with dst := vecDst x lanes n }
  | .s n => { p with sdst := [n] }
  | .push _ => p

def loVal (x : Ctxt) (lanes : Mask) (vs : List (Nat → Nat)) (k : Nat) : Nat := val vs k ((lowestLane lanes x.w).getD 0)

/-! ## The instructions -/

/-- SNEW (R151). -/
def snewStep (acc : Bool) (h : Hdr) (d : Dst) (u opt : Opd) (s : State) : State :=
  setInstr acc (.snew h d u opt) s h (sizeOf opt) [srcOf u 1 1 h.la, srcOf opt 1 2 h.lb] (dstRef d 1 0) [0] []
    fun _ x lanes vs => do
      let uv := loVal x lanes vs 0 % 2 ^ 32
      let o := loVal x lanes vs 1
      if 4 < o % 8 ∨ 2 ^ 12 ≤ o ∨ (!bitAt o 3 ∧ bitsAt o 11 4 ≠ 0) then trapAt .resfield lanes
      let home := if bitAt o 3 then 128 * bitsAt o 11 11 + bitsAt o 10 4 else x.p.core
      return dstPlan x lanes d { act := .snew (if uv = 0 then 2 ^ 32 else uv) (o % 8) home }

def execSnew (h : Hdr) (d : Dst) (u opt : Opd) (s : State) : Out := .next (snewStep false h d u opt s)

/-- SDEL (R152). -/
def sdelStep (acc : Bool) (h : Hdr) (a : Opd) (s : State) : State :=
  setInstr acc (.sdel h a) s h 8 [srcOf a 1 1 h.la] [] [0] [0] fun _ x lanes vs =>
    .ok { act := .sdel, handles := [loVal x lanes vs 0] }

def execSdel (h : Hdr) (a : Opd) (s : State) : Out := .next (sdelStep false h a s)

def optRef (d : Option Nat) : List Ref := (d.map fun n => (.v n 1 0 : Ref)).toList

/-- SINS and SREM (R153). -/
def updateStep (acc : Bool) (i : Instr) (h : Hdr) (ins : Bool) (d : Option Nat) (a b : Opd) (s : State) : State :=
  setInstr acc i s h (sizeOf b) [srcOf a 1 1 h.la, srcOf b 1 2 h.lb] (optRef d) [0] [0] fun _ x lanes vs =>
    .ok { act := if ins then .sins d.isSome else .srem d.isSome, handles := [loVal x lanes vs 0]
          keys := laneKeys x lanes (val vs 1)
          dst := match d with
            | some n => vecDst x lanes n
            | none => [] }

def sinsStep (acc : Bool) (h : Hdr) (d : Option Nat) (a b : Opd) (s : State) : State :=
  updateStep acc (.sins h d a b) h true d a b s
def sremStep (acc : Bool) (h : Hdr) (d : Option Nat) (a b : Opd) (s : State) : State :=
  updateStep acc (.srem h d a b) h false d a b s

def execSins (h : Hdr) (d : Option Nat) (a b : Opd) (s : State) : Out := .next (sinsStep false h d a b s)
def execSrem (h : Hdr) (d : Option Nat) (a b : Opd) (s : State) : Out := .next (sremStep false h d a b s)

def mdstRef (d : MDst) : List Ref :=
  match d with
  | .reg r => dstRef r 1 0
  | .mask k => [kRef k 0]

/-- SHAS (R153). -/
def shasStep (acc : Bool) (h : Hdr) (d : MDst) (a b : Opd) (s : State) : State :=
  setInstr acc (.shas h d a b) s h (sizeOf b) [srcOf a 1 1 h.la, srcOf b 1 2 h.lb] (mdstRef d) [0] [0]
    fun _ x lanes vs =>
      let p : SetPlan := { act := .shas, handles := [loVal x lanes vs 0], keys := laneKeys x lanes (val vs 1) }
      .ok (match d with
        | .reg r => dstPlan x lanes r p
        | .mask k => { p with kdst := some (kIndex k) })

def execShas (h : Hdr) (d : MDst) (a b : Opd) (s : State) : Out := .next (shasStep false h d a b s)

/-- SCARD (R154). -/
def scardStep (acc : Bool) (h : Hdr) (d : Nat) (a : Opd) (s : State) : State :=
  setInstr acc (.scard h d a) s h 8 [srcOf a 1 1 h.la] [.s d 0] [0] [0] fun _ x lanes vs =>
    .ok { act := .scard, handles := [loVal x lanes vs 0], sdst := [d] }

def execScard (h : Hdr) (d : Nat) (a : Opd) (s : State) : Out := .next (scardStep false h d a s)

/-- The four binary operations (R155). `op`: the low four bits of the major. -/
def binaryStep (acc : Bool) (i : Instr) (h : Hdr) (op : Nat) (card : Option Nat) (d a b : Opd) (s : State) : State :=
  setInstr acc i s h 8 [srcOf d 1 0 false, srcOf a 1 1 h.la, srcOf b 1 2 h.lb]
    ((card.map fun n => (.s n 3 : Ref)).toList) [0, 1, 2] [0, 1, 2] fun _ x lanes vs =>
      .ok { act := .binary op card.isSome, sdst := card.toList
            handles := [loVal x lanes vs 0, loVal x lanes vs 1, loVal x lanes vs 2] }

def sandStep (acc : Bool) (h : Hdr) (card : Option Nat) (d a b : Opd) (s : State) : State :=
  binaryStep acc (.sand h card d a b) h 6 card d a b s
def sorStep (acc : Bool) (h : Hdr) (card : Option Nat) (d a b : Opd) (s : State) : State :=
  binaryStep acc (.sor h card d a b) h 7 card d a b s
def ssubStep (acc : Bool) (h : Hdr) (card : Option Nat) (d a b : Opd) (s : State) : State :=
  binaryStep acc (.ssub h card d a b) h 8 card d a b s
def sxorStep (acc : Bool) (h : Hdr) (card : Option Nat) (d a b : Opd) (s : State) : State :=
  binaryStep acc (.sxor h card d a b) h 9 card d a b s

def execSand (h : Hdr) (card : Option Nat) (d a b : Opd) (s : State) : Out := .next (sandStep false h card d a b s)
def execSor (h : Hdr) (card : Option Nat) (d a b : Opd) (s : State) : Out := .next (sorStep false h card d a b s)
def execSsub (h : Hdr) (card : Option Nat) (d a b : Opd) (s : State) : Out := .next (ssubStep false h card d a b s)
def execSxor (h : Hdr) (card : Option Nat) (d a b : Opd) (s : State) : Out := .next (sxorStep false h card d a b s)

/-- SITR (R156). Of a channel entry the lowest active lane gives the start (log 130). -/
def sitrStep (acc : Bool) (h : Hdr) (sc d : Nat) (a b : Opd) (s : State) : State :=
  setInstr acc (.sitr h sc d a b) s h (sizeOf b) [srcOf a 1 1 h.la, srcOf b 1 2 h.lb] [.v d 1 0, .s sc 0] [0, 1] [0]
    fun _ x lanes vs =>
      .ok { act := .sitr (loVal x lanes vs 1 % 2 ^ 32), handles := [loVal x lanes vs 0], dst := vecDst x lanes d
            sdst := [sc] }

def execSitr (h : Hdr) (sc d : Nat) (a b : Opd) (s : State) : Out := .next (sitrStep false h sc d a b s)

/-- SCOST (R159): `sz` in B or C is no handle where the operation lets it be. -/
def scostStep (acc : Bool) (h : Hdr) (op d : Nat) (a b c : Opd) (s : State) : State :=
  let bin := decide (6 ≤ op) && decide (op ≤ 9)
  let hands := [0] ++ (if bin then [1] else []) ++ (if bin && !isSz c then [2] else [])
  setInstr acc (.scost h op d a b c) s h 8 [srcOf a 1 1 h.la, srcOf b 1 2 h.lb, srcOf c 1 3 h.lc] [.s d 0] hands hands
    fun _ x lanes vs =>
      .ok { act := .scost op, sdst := [d], handles := [loVal x lanes vs 0, loVal x lanes vs 1, loVal x lanes vs 2] }

def execScost (h : Hdr) (op d : Nat) (a b c : Opd) (s : State) : Out := .next (scostStep false h op d a b c s)

/-- SINFO (R158). -/
def sinfoStep (acc : Bool) (h : Hdr) (d : Nat) (a b : Opd) (key : Nat) (s : State) : State :=
  setInstr acc (.sinfo h d a b key) s h (sizeOf b) [srcOf a 1 1 h.la, srcOf b 1 2 h.lb, srcOf (.s key) 1 3 false]
    [.s d 0] [0] [0] fun _ x lanes vs => do
      let sel := loVal x lanes vs 1
      if 3 < sel ∨ (sel ≠ 3 ∧ key ≠ 63) then trapAt .resfield lanes
      let k := loVal x lanes vs 2 % 2 ^ 32
      let hd := loVal x lanes vs 0
      if sel = 3 ∧ (getObj x.ctx hd).any fun o => decide (o.u ≤ k) then trapAt .resfield lanes
      return { act := .sinfo sel k, handles := [hd], sdst := [d] }

def execSinfo (h : Hdr) (d : Nat) (a b : Opd) (key : Nat) (s : State) : Out := .next (sinfoStep false h d a b key s)

def sinfoPinStep (acc : Bool) (h : Hdr) (a b : Opd) (s : State) : State :=
  setInstr acc (.sinfoPin h a b) s h (sizeOf b) [srcOf a 1 1 h.la, srcOf b 1 2 h.lb] [] [0] [0] fun _ x lanes vs => do
    let f := loVal x lanes vs 1
    if 4 < f then trapAt .resfield lanes
    return { act := .pin f, handles := [loVal x lanes vs 0] }

def execSinfoPin (h : Hdr) (a b : Opd) (s : State) : Out := .next (sinfoPinStep false h a b s)

/-- SRANK (R157). -/
def srankStep (acc : Bool) (h : Hdr) (sel : Bool) (d : Nat) (a b : Opd) (s : State) : State :=
  setInstr acc (.srank h sel d a b) s h (sizeOf b) [srcOf a 1 1 h.la, srcOf b 1 2 h.lb] [.v d 1 0] [0] [0]
    fun _ x lanes vs =>
      .ok { act := .srank sel, handles := [loVal x lanes vs 0], keys := laneKeys x lanes (val vs 1)
            dst := vecDst x lanes d }

def execSrank (h : Hdr) (sel : Bool) (d : Nat) (a b : Opd) (s : State) : Out := .next (srankStep false h sel d a b s)

/-- SLOAD (R160): parks until its image has been read. -/
def sloadStep (acc : Bool) (h : Hdr) (str : Nat) (d : Dst) (base : Nat) (s : State) : State :=
  setInstr acc (.sload h str d base) s h 8 [srcOf (.s base) 1 1 false] (dstRef d 1 0) [] [] fun _ x lanes vs => do
    let a := loVal x lanes vs 0
    if a % 16 ≠ 0 then trapAt .align lanes 0 (BitVec.ofNat 64 a)
    return dstPlan x lanes d { act := .sload str a, holds := true }

def execSload (h : Hdr) (str : Nat) (d : Dst) (base : Nat) (s : State) : Out := .next (sloadStep false h str d base s)

/-- SSTORE (R161): parks until its writes have been sent. -/
def sstoreStep (acc : Bool) (h : Hdr) (str d : Nat) (a : Opd) (base lim : Nat) (start : Option Word) (s : State) : State :=
  setInstr acc (.sstore h str d a base lim start) s h (if start.isSome then 16 else 8)
    [srcOf a 1 1 h.la, srcOf (.s base) 1 2 false, srcOf (.s lim) 1 3 false] [.s d 0] [0] [0] fun _ x lanes vs => do
      let b := loVal x lanes vs 1
      if b % 4 ≠ 0 then trapAt .align lanes 0 (BitVec.ofNat 64 b)
      return { act := .sstore str b (loVal x lanes vs 2) ((start.map (·.toNat)).getD 0), handles := [loVal x lanes vs 0]
               sdst := [d], holds := true }

def execSstore (h : Hdr) (str d : Nat) (a : Opd) (base lim : Nat) (start : Option Word) (s : State) : Out :=
  .next (sstoreStep false h str d a base lim start s)

/-- The second half of a set instruction: at its home. -/
def acceptInstr (i : Instr) (s : State) : State :=
  match i with
  | .snew h d u opt => snewStep true h d u opt s
  | .sdel h a => sdelStep true h a s
  | .sins h d a b => sinsStep true h d a b s
  | .srem h d a b => sremStep true h d a b s
  | .shas h d a b => shasStep true h d a b s
  | .scard h d a => scardStep true h d a s
  | .sand h c d a b => sandStep true h c d a b s
  | .sor h c d a b => sorStep true h c d a b s
  | .ssub h c d a b => ssubStep true h c d a b s
  | .sxor h c d a b => sxorStep true h c d a b s
  | .sitr h sc d a b => sitrStep true h sc d a b s
  | .scost h op d a b c => scostStep true h op d a b c s
  | .sinfo h d a b key => sinfoStep true h d a b key s
  | .sinfoPin h a b => sinfoPinStep true h a b s
  | .srank h sel d a b => srankStep true h sel d a b s
  | .sload h str d base => sloadStep true h str d base s
  | .sstore h str d a base lim start => sstoreStep true h str d a base lim start s
  | _ => s

/-- A set instruction after an acquire is accepted only after it: one that returns a value, or an atomic that does not
(R141). -/
def acquirePending (s : State) (po id : Nat) (before : List (Nat × Nat)) : Bool :=
  (s.results.any fun r => MOrd.acquires r.2.ord && !r.2.reads.isEmpty && inOrder r.2.po r.1 po id before) ||
  s.packets.any fun p => MOrd.acquires p.2.ord && inOrder p.2.po p.1 po id before

/-- Whether an agent's set instruction can be accepted. -/
def acceptReady (s : State) (aid : Nat) : Option Instr :=
  match getAgent s aid with
  | none => none
  | some a =>
    match a.run, a.setAt with
    | .blocked _, some (n, i) => if acquirePending s (orderOf aid a) n a.before then none else some i
    | _, _ => none

/-- SET_ACCEPTANCE: the home accepts the instruction of a parked agent (R140). -/
def execSetAcceptance (aid : Nat) (s : State) : Out :=
  .next (match acceptReady s aid, getAgent s aid with
    | some i, some a =>
      let t := acceptInstr i { setAgent s aid { a with run := .ready } with cur := aid }
      let t1 := match getAgent t aid with
        | some b => setAgent t aid { b with setAt := none }
        | none => t
      { t1 with cur := s.cur }
    | _, _ => s)

/-! ## Completion (R140, R142, R148) -/

/-- An older accepted instruction on one of the sets is still before its point. -/
def setBlocked (s : State) (id : Nat) (op : SetOp) : Bool :=
  s.setOps.any fun o => decide (o.1 < id) && o.2.ctx == op.ctx && o.2.sent.isNone &&
    o.2.handles.any fun a => op.handles.any fun b => handleIdx a == handleIdx b

/-- The pieces of memory that an instruction reads or writes, as order sees them. -/
def setPend (s : State) (id : Nat) (op : SetOp) : Pend :=
  match op.act with
  | .sload str base =>
    let n := match segsFor s op.ctx .r (base + 4) 4 with
      | .ok g => ofBytes (readSegs s.mem g)
      | .error _ => 0
    { id := id, po := op.po, ctx := op.ctx, str := some str, before := op.before
      segs := match segsFor s op.ctx .r base (16 + 4 * n) with
        | .ok g => g
        | .error _ => [] }
  | _ => { id := id, po := op.po, ctx := op.ctx, str := none, segs := [], before := op.before }

def nthH (op : SetOp) (i : Nat) : Nat := nthVal op.handles i

/-- What an instruction that only works on sets leaves. -/
def setOutcome (c : Ctx) (id : Nat) (op : SetOp) : SetOut :=
  match op.act with
  | .snew u pin home => runSnew c op u pin home
  | .sdel => runSdel c (nthH op 0)
  | .sins _ => runUpdate c op id (nthH op 0) true
  | .srem _ => runUpdate c op id (nthH op 0) false
  | .shas => runShas c op id (nthH op 0)
  | .scard => runScard c (nthH op 0)
  | .binary o _ => runBinary c id o (nthH op 0) (nthH op 1) (nthH op 2)
  | .sitr start => runSitr c op id (nthH op 0) start
  | .scost o => runScost c id o (nthH op 0) (nthH op 1) (nthH op 2)
  | .sinfo sel key => runSinfo c (nthH op 0) sel key
  | .pin form => runPin c id (nthH op 0) form
  | .srank sel => runSrank c op id (nthH op 0) sel
  | .sload _ _ => { ctx := c }
  | .sstore _ _ _ _ => { ctx := c }

/-- SSTAT and SSBYTES of a completed instruction, unless a later one of the stroke has written them (R142, R148). -/
def writeSstat (s : State) (op : SetOp) (o : SetStat) : State :=
  match getStroke s op.stroke with
  | none => s
  | some st =>
    if op.issue < st.sstatBy then s
    else
      let algs := o.algs ++ List.replicate o.convs (10, 128)
      let spent := s.cycle - op.since
      let cycles := match o.cost with
        | some c => max spent (c - c / 8 + 128 * o.convs)
        | none => spent
      let v := min cycles (2 ^ 32 - 1) + ((o.algs.head?).elim 0 (·.1)) * 2 ^ 32 + algDom algs * 2 ^ 36 + o.res * 2 ^ 40
      setStroke s op.stroke { st with sstat := BitVec.ofNat 64 v, ssbytes := BitVec.ofNat 64 o.bytes, sstatBy := op.issue }

/-- What an instruction writes to registers. -/
def setWrites (op : SetOp) (o : SetOut) : Writes :=
  { v := op.dst.map fun d =>
      { name := d.2.1, lanes := d.2.2, vals := (List.range op.width).map fun l => BitVec.ofNat 32 (nthVal o.lanes l) }
    s := op.sdst.map fun n => (n, BitVec.ofNat 64 o.scalar)
    k := (op.kdst.map fun n => (n, op.lanes, o.kbits)).toList }

/-- Ends an instruction whose agent has gone on: its result may return. -/
def finishSet (s : State) (id : Nat) (op : SetOp) (o : SetOut) : State :=
  let s0 := { s with setOps := tabDel s.setOps id }
  match o.bad with
  | some pa =>
    let t : Trap := { cause := .dataerr, addr := BitVec.ofNat 64 pa, lanes := op.lanes }
    let s1 := uncorrectable s0 pa op.ctx
    match op.result with
    | some r => { s1 with results := tabMod s1.results r fun q => { q with late := some t } }
    | none => addLate s1 op.agent op.issue t
  | none =>
    let s1 := writeSstat (setCtx s0 op.ctx o.ctx) op o.stat
    match op.result with
    | some r => { s1 with results := tabMod s1.results r fun q => { q with kind := .writes (setWrites op o) } }
    | none => s1

/-- A parked SLOAD or SSTORE traps: nothing is made or written. -/
def trapSet (s : State) (id : Nat) (op : SetOp) (c : Cause) (addr : Nat) (aux : DWord) : State :=
  let s0 := { s with setOps := tabDel s.setOps id
                     results := match op.result with
                       | some r => tabDel s.results r
                       | none => s.results }
  match getAgent s0 op.agent with
  | none => s0
  | some a => enterTrap (setAgent s0 op.agent { a with run := .ready, waitFrom := none }) op.agent
      { cause := c, addr := BitVec.ofNat 64 addr, aux := aux, lanes := op.lanes }

/-- A parked SLOAD or SSTORE goes on. -/
def resumeSet (s : State) (op : SetOp) : State :=
  match getAgent s op.agent with
  | none => s
  | some a =>
    stepPc (freeNames (setAgent s op.agent { a with run := .ready, waitFrom := none }) op.agent op.freed) op.agent op.size

/-- Why an image is not read: the cause, its address, TAUX. -/
abbrev ImageFault := Cause × Nat × DWord

/-- n bytes of an image read for SLOAD as loads of its agent, with the state that has read them (R160). A fault reports the
address at which the header or the keys begin (log 132). -/
def readForSet (s : State) (op : SetOp) (va n : Nat) : State × Except ImageFault (List Byte) :=
  match segsFor s op.ctx .r va n with
  | .error f => (countWalk s op.ctx f, .error (if f.1 = .dataerr then (f.1, f.2.toNat, 0) else (f.1, va, f.2)))
  | .ok g =>
    let pubs := imagePubs s op.ctx va g
    let s0 := tookAnswer s op.ctx g
    if unitRefused s op.ctx g then (s0, .error (.xlate, va, 0x10000))
    else match unitBad s op.core op.ctx pubs g with
      | some b => (metBad s0 op.ctx b, .error (.dataerr, b.1, if bitAt b.1 51 then 0x10000 else 0))
      | none =>
        let r := readUnit op.core op.ctx pubs s0 g
        (r.1, .ok r.2)

def keyList : Nat → List Byte → List Nat
  | 0, _ => []
  | n + 1, bs => ofBytes (bs.take 4) :: keyList n (bs.drop 4)

def completeSload (s : State) (id : Nat) (op : SetOp) (base : Nat) : State :=
  match readForSet s op base 16 with
  | (s1, .error (c, va, aux)) => trapSet s1 id op c va aux
  | (s1, .ok hdr) =>
    let n := ofBytes ((hdr.drop 4).take 4)
    match readForSet s1 op (base + 16) (4 * n) with
    | (s2, .error (c, va, aux)) => trapSet s2 id op c va aux
    | (s2, .ok bs) =>
      let keys := keyList n bs
      match imageBad hdr keys with
      | some o => trapSet s2 id op .resfield 0 (BitVec.ofNat 64 o)
      | none =>
        match getCtx s2 op.ctx with
        | none => s2
        | some c => resumeSet (finishSet s2 id op (runSload c op id hdr keys)) op

/-- The point of an SSTORE: the count is fixed, W permission is checked, and its writes are made ready (R161). An error of
its set is precise here, after the W check (log 78). -/
def fixSstore (s : State) (id : Nat) (op : SetOp) (base lim start : Nat) : State :=
  match getCtx s op.ctx with
  | none => s
  | some c =>
    match getObj c (nthH op 0) with
    | none => s
    | some o =>
      let l := (o.keys.filter fun k => decide (start ≤ k)).take lim
      match segsFor s op.ctx .w base (4 * l.length) with
      | .error f =>
        let t := faultTrap f (BitVec.ofNat 64 base) 0
        trapSet (countWalk s op.ctx f) id op t.cause t.addr.toNat t.aux
      | .ok g =>
        let is := orderedSegs o start lim
        let rd := orderedRead c id (handleIdx (nthH op 0)) o is
        match rd.2.2.1 with
        | some pa => trapSet (uncorrectable s pa op.ctx) id op .dataerr pa 0
        | none =>
          let stat : SetStat :=
            { algs := readAlgs o is, convs := rd.2.2.2, bytes := rd.2.1
              cost := if is = keyedSegs o then some (storeCost o) else none }
          let c1 : Ctx := { rd.1 with reading := (id, handleIdx (nthH op 0)) :: rd.1.reading }
          let s1 := setCtx s op.ctx c1
          let parts := pieceParts (linePieces (l.length + 2) g) (l.flatMap fun k => bytesOf 4 k)
          { s1 with setOps := tabPut s1.setOps id { op with sent := some l.length, todo := parts, stat := stat } }

/-- An SSTORE has read its set to the end (R235). -/
def endReading (s : State) (ctx id : Nat) : State :=
  match getCtx s ctx with
  | none => s
  | some c => setCtx s ctx { c with reading := c.reading.filter fun e => e.1 != id }

/-- Sends the writes of an SSTORE while its counter has room; when all are sent, it completes: SSTAT and SSBYTES are
written, and its agent goes on (R142, R161, R210). -/
def sendSstore (s : State) (id : Nat) (op : SetOp) (str count : Nat) : State :=
  let room := 4095 - ((getStroke s op.stroke).elim 0 fun st => ackCount st str)
  let k : Packet :=
    { agent := op.agent, po := op.po, stroke := op.stroke, core := op.core, ctx := op.ctx, str := str, op := .write
      parts := [], before := op.before, born := s.cycle }
  let s1 := (op.todo.take room).foldl (fun u p => addPacket u { k with parts := [p] }) s
  let rest := op.todo.drop room
  if rest = [] then
    let s2 := writeSstat (endReading { s1 with setOps := tabDel s1.setOps id } op.ctx id) op op.stat
    let s3 := match op.result with
      | some r => { s2 with results := tabMod s2.results r fun q =>
          { q with kind := .writes { s := op.sdst.map fun n => (n, BitVec.ofNat 64 count) } } }
      | none => s2
    resumeSet s3 op
  else { s1 with setOps := tabPut s1.setOps id { op with todo := rest } }

/-- Whether an accepted instruction can reach its point, or send on. -/
def setReady (s : State) (id : Nat) (op : SetOp) : Bool :=
  match op.sent with
  | some _ => op.todo.isEmpty || decide (((getStroke s op.stroke).elim 0 fun st =>
      match op.act with
      | .sstore str _ _ _ => ackCount st str
      | _ => 0) < 4095)
  | none => !op.lost && !setBlocked s id op && mayPerform s (setPend s id op)

/-- SET_COMPLETION: the instruction's point (R140, R234). -/
def execSetCompletion (id : Nat) (s : State) : Out :=
  .next (match tabGet s.setOps id with
    | none => s
    | some op =>
      if setReady s id op then
        match op.act with
        | .sload _ base => completeSload s id op base
        | .sstore str base lim start =>
          match op.sent with
          | some n => sendSstore s id op str n
          | none => fixSstore s id op base lim start
        | _ => match getCtx s op.ctx with
          | none => { s with setOps := tabDel s.setOps id }
          | some c => finishSet s id op (setOutcome c id op)
      else s)

/-! ## Remote reads without a response (R217) -/

/-- The stream of an SLOAD whose image lies in part on another device, or whose read has been dropped, 2^22 cycles on. -/
def sloadAway (s : State) (id : Nat) (op : SetOp) : Option Nat :=
  match op.act with
  | .sload str _ => if longSince s op.since && (op.lost || pieceAway s op.ctx (setPend s id op).segs) then some str else none
  | _ => none

/-- A copy whose tensor lies in part on another device, which has not answered, or of which the fabric has lost a part: those
chunks are never set, and its agent has a late fault. -/
def copyUnread (s : State) (id : Nat) (c : Copy) : State :=
  let ks := (List.range (chunkCount c)).filter fun k =>
    !c.done.contains k && !c.failed.contains k && (chunkAway s c k || c.lost.contains (k, 0)) && (servedOf c k 0).isNone
  if c.out || ks.isEmpty then s
  else
    addLate (ks.foldl (fun t k => match tabGet t.copies id with
      | none => t
      | some q =>
        let f : ChunkFault := { reason := 3, virt := true, addr := q.lay.base }
        if q.mcast then mcastNoSource t id q k f else chunkFail t id q k f) s) c.agent id
      { cause := .acktimeout, lanes := (getAgent s c.agent).elim 0 (·.em) }

/-- A packet of a copy that the fabric lost: its chunks are never set. Its counter still holds it, until a wait on the
stream raises ACKTIMEOUT (R211, R316). -/
def copyLost (s : State) (id : Nat) (e : Nat × Nat) : State :=
  match tabGet s.copies id with
  | none => s
  | some c =>
    let f : ChunkFault := { reason := 3, virt := true, addr := c.lay.base }
    if e.2 = 0 then (if c.out then chunkFail s id c e.1 f else s)
    else
      let q := failChunks s id f (chunksOf c (lineElems c e.1)) { c with served := c.served ++ [(e.1, e.2, [])] }
      copyDone q.1 id q.2

/-- 2^22 cycles after its issue a copy has what it still misses no more. -/
def copyTimeout (s : State) (id : Nat) (c : Copy) : State :=
  if !longSince s c.born then s
  else
    let s1 := (c.lost.filter fun e => (servedOf c e.1 e.2).isNone && !(e.2 == 0 && c.failed.contains e.1)).foldl
      (fun t e => copyLost t id e) s
    match tabGet s1.copies id with
    | none => s1
    | some q => copyUnread s1 id q

/-- A collective with a participant's source on another device, which has not answered: the device's participants
fail, and that one's agent has a late fault. -/
def collTimeout (s : State) (id : Nat) (c : Coll) : State :=
  let away := match segsFor s c.ctx .r c.src (4 * c.count) with
    | .ok g => pieceAway s c.ctx g
    | .error _ => false
  if c.out.isSome || !away || !longSince s c.born then s
  else match getComm s c.comm with
    | none => s
    | some cm => addLate ((collPeers s cm.record c).foldl (fun t e => collErr t e false) s) c.agent id
        { cause := .acktimeout, lanes := (getAgent s c.agent).elim 0 (·.em) }

/-- REMOTE_READ_TIMEOUT: a read numbered `id` has had no response for 2^22 cycles: of a load or an atomic, of an operand
fill, of an image, of a WAITF, of an SLOAD, of a copy, of a collective. -/
def execRemoteReadTimeout (id : Nat) (s : State) : Out :=
  .next (match tabGet s.results id, tabGet s.fills id, tabGet s.images id with
    | some r, _, _ => if readTimedOut s id r then failResult s id r (ackTrap r.str r.mask) else s
    | none, some f, _ =>
      if longSince s f.born then
        failFill s id f .acktimeout ((streamBit f.str).setWidth 64) 0
      else s
    | none, none, some f =>
      if longSince s f.born then
        parkedTrap (endImage s f.agent id) f.agent (ackTrap f.str 0)
      else s
    | none, none, none =>
      match tabFind (fun _ a => a.waitf.any fun r => r.id == id) s.agents, tabGet s.setOps id, tabGet s.copies id with
      | some (aid, a), _, _ =>
        if a.waitf.any fun r => longSince s r.born && (r.lost || pieceAway s (agentCtx s a) r.segs) then
          parkedTrap (setAgent s aid { a with waitf := none, run := .ready, waitFrom := none }) aid
            { cause := .acktimeout }
        else s
      | none, some op, _ =>
        match sloadAway s id op with
        | some str => trapSet s id op .acktimeout 0 ((streamBit str).setWidth 64)
        | none => s
      | none, none, some c => copyTimeout s id c
      | none, none, none => match tabGet s.colls id with
        | some c => collTimeout s id c
        | none => s)

/-! ## Iterator channels (R25, R156, R236) -/

/-- The next entry of an iterator: every lane takes a member above the last key delivered, or filler. The iterator goes
on above that key while keys may stand there; it ends with the universe or with its set. -/
def iterEntry (s : State) (ctx : Nat) (ch : Chan) (w now : Nat) : State × Chan × Option Nat :=
  match getCtx s ctx with
  | none => (s, { ch with done := true, nextKey := none }, none)
  | some c =>
    match ch.nextKey, (if (handleFault c ch.set).isSome then none else getObj c ch.set) with
    | some start, some o =>
      let l := (o.keys.filter fun k => decide (start ≤ k)).take w
      let rd := orderedRead c now (handleIdx ch.set) o (orderedSegs o start w)
      let e := (List.range w).map fun i => BitVec.ofNat 64 ((l[i]?).getD 0xFFFFFFFF)
      let next := match l.getLast? with
        | some k => if k + 1 < o.u then some (k + 1) else none
        | none => some start
      (setCtx s ctx rd.1, { ch with ents := ch.ents ++ [e], wide := ch.wide ++ [false], bad := ch.bad ++ [rd.2.2.1]
                                    nextKey := next, done := next.isNone }, rd.2.2.1)
    | _, _ => (s, { ch with done := true, nextKey := none }, none)

/-- ITERATOR_ENTRY: a channel with fewer than 16 entries takes one more. -/
def execIteratorEntry (panel chan : Nat) (s : State) : Out :=
  .next (match getPanel s panel with
    | none => s
    | some p =>
      match tabGet p.chans chan with
      | none => s
      | some ch =>
        if ch.kind ≠ .iter ∨ ch.done ∨ 16 ≤ ch.ents.length ∨ !p.mapped then s
        else
          let w := ((p.strokes.head?).bind (getStroke s)).elim 32 (·.width)
          let (s1, ch1, bad) := iterEntry s p.ctx ch w s.fresh
          let s2 := match bad with
            | some pa => uncorrectable s1 pa p.ctx
            | none => s1
          setPanel { s2 with fresh := s2.fresh + 1 } panel { p with chans := tabPut p.chans chan ch1 })

end Sys2Proof.Machine
end

