-- ==== Sys2Proof/Machine/Place.lean ====
section
/-! DEFINITION. Commission records, admission groups, charges and the making of panels (spec/13_commissions.md R238-R242,
R251-R253; spec/16_isolation.md R308; spec/08_memory_instructions.md R164, R189). -/

namespace Sys2Proof.Machine
open Sys2Proof

/-! ## The record (R238, R239) -/

/-- A field of a record: `n` bytes at offset `o`. -/
def recNat (bs : List Byte) (o n : Nat) : Nat := ofBytes ((bs.drop o).take n)

/-- Byte offset of a level descriptor. -/
def lvlOff (l : Nat) : Nat := 96 + 8 * (l - 1)
def recClass (bs : List Byte) (l : Nat) : Nat := recNat bs (lvlOff l) 1
def recDomain (bs : List Byte) (l : Nat) : Nat := recNat bs (lvlOff l + 1) 1
def recExtent (bs : List Byte) (l : Nat) : Nat := recNat bs (lvlOff l + 4) 4

def recFab (bs : List Byte) : Bool := decide (4 ≤ recNat bs 17 1) && recDomain bs (recNat bs 17 1 - 1) == 5

/-- The fields of one level descriptor, each with whether it fails. -/
def levelChecks (bs : List Byte) (l : Nat) : List (Nat × Bool) :=
  let n := recNat bs 17 1
  let cls := recClass bs l
  let dom := recDomain bs l
  let ext := recExtent bs l
  let res := recNat bs (lvlOff l + 2) 2
  if n ≤ l then [(lvlOff l, cls != 0), (lvlOff l + 1, dom != 0), (lvlOff l + 2, res != 0), (lvlOff l + 4, ext != 0)]
  else
    let weak := (List.range l).any fun m => decide (2 ≤ m) && recClass bs m == 2
    let badDom :=
      if l = 1 then dom != 0
      else if l = 2 then dom != 1
      else decide (dom < 2) || decide (5 < dom) || (dom == 5 && l != n - 1) || (decide (4 ≤ l) && decide (dom < recDomain bs (l - 1)))
    [(lvlOff l, decide (3 ≤ cls) || (decide (3 ≤ l) && cls == 0 && weak)), (lvlOff l + 1, badDom), (lvlOff l + 2, res != 0),
      (lvlOff l + 4, if l ≤ 2 then ext != 0 else ext == 0 || decide (65536 < ext))]

/-- An address that breaks its limits: not 8-byte aligned, or bits [63:57] not 0. -/
def badVa (x : Nat) : Bool := x % 8 != 0 || decide (2 ^ 57 ≤ x)

/-- Every field of a record in the order of its bytes, each with whether it fails (R238, R239). -/
def recordChecks (bs : List Byte) : List (Nat × Bool) :=
  let f := recNat bs
  let w := f 16 1
  let lanes := if f 32 4 = 0 then w else f 32 4
  let pm := f 20 1
  let se := f 21 1
  let units := if f 36 4 = 0 then 1 else f 36 4
  [(0, badVa (f 0 8)), (8, badVa (f 8 8)), (16, w != 32 && w != 64 && w != 128),
   (17, decide (f 17 1 < 3) || decide (8 < f 17 1)),
   (18, (decide (31 < f 18 1) && f 18 1 != 255) || (f 18 1 == 255 && f 8 8 == 0)),
   (19, decide (4 ≤ f 19 1)), (20, pm % 4 == 3 || decide (16 ≤ pm)),
   (21, se != 0 && (decide (se < 16) || decide (40 < se))),
   (22, f 22 1 == 0 || decide (192 < f 22 1)), (23, f 23 1 == 0 || decide (f 22 1 < f 23 1)),
   (24, f 24 4 % 4096 != 0 || decide (2 ^ 21 < f 24 4)),
   (32, decide (2048 < lanes) || decide (32 < ceilDiv lanes w)),
   (36, recFab bs && units != 1), (40, badVa (f 40 8)),
   (64, f 64 4 % 256 != 0 || decide (65536 < f 64 4)),
   (68, decide (255 < f 68 2)), (70, decide (256 < f 68 2 + f 70 2)),
   (72, if recFab bs then decide (recExtent bs (f 17 1 - 1) ≤ f 72 2) else f 72 2 != 0),
   (74, f 74 2 != 0), (80, f 80 8 % 8 != 0), (88, f 88 8 != 0)] ++
  ((List.range 7).flatMap fun i => levelChecks bs (i + 1)) ++ [(152, ofBytes ((bs.drop 152).take 104) != 0)]

/-- The byte offset of the first failing field. -/
def recordBad (bs : List Byte) : Option Nat := ((recordChecks bs).find? fun c => c.2).map (·.1)

/-- The record of 256 bytes, the fields that 0 gives a default filled in. -/
def recordOf (bs : List Byte) : CommRec :=
  let f := recNat bs
  let w := f 16 1
  { entry := BitVec.ofNat 57 (f 0 8), access := BitVec.ofNat 57 (f 8 8), width := w, levels := f 17 1, producer := f 18 1
    tclass := f 19 1 % 4, pmode := f 20 1 % 4, restart := bitAt (f 20 1) 2, starvtrap := bitAt (f 20 1) 3
    starvexp := if f 21 1 = 0 then 28 else f 21 1
    regpeak := f 22 1, regfloor := f 23 1, scratch := f 24 4, latency := f 28 4
    lanes := if f 32 4 = 0 then w else f 32 4
    units := if f 36 4 = 0 then 1 else f 36 4
    tvbase := BitVec.ofNat 64 (f 40 8), args := BitVec.ofNat 64 (f 48 8)
    rank := BitVec.ofNat 32 (f 56 4), salt := BitVec.ofNat 32 (f 60 4), taskscr := f 64 4, core0 := f 68 2
    ncores := if f 70 2 = 0 then 256 - f 68 2 else f 70 2
    devunit := f 72 2, tag := BitVec.ofNat 32 (f 76 4), done := BitVec.ofNat 64 (f 80 8)
    classes := (List.range (f 17 1 - 1)).map fun i => recClass bs (i + 1)
    domains := (List.range (f 17 1 - 1)).map fun i => recDomain bs (i + 1)
    extents := (List.range (f 17 1 - 1)).map fun i => recExtent bs (i + 1) }

/-! ## Charges (R251) -/

structure Charge where
  regs : Nat
  granules : Nat
  lanes : Nat
  entries : Nat
  panels : Nat := 1
deriving DecidableEq, Repr

/-- S, the strokes of a panel (R240). -/
def strokeCount (r : CommRec) : Nat := ceilDiv r.lanes r.width

/-- Granules of eight names reserved for a stroke at admission (R19, R251). -/
def reserveOf (r : CommRec) : Nat := ceilDiv (if classOf r 1 = 2 then r.regfloor else r.regpeak) 8

def chargeOf (r : CommRec) : Charge :=
  let n := strokeCount r
  { regs := n * reserveOf r * 32 * r.width, granules := r.scratch / 4096, lanes := n * r.width, entries := n }

def onCore (s : State) (core : Nat) (k : Stroke) : Bool :=
  match getPanel s k.panel with
  | some p => p.core == core && p.mapped
  | none => false

def lanesUsed (s : State) (core : Nat) : Nat :=
  s.strokes.foldl (fun n k => if onCore s core k.2 && !k.2.exited && !k.2.primer then n + k.2.width else n) 0

/-- The granules of a core's pool that a piece touches. -/
def granulesOf (core : Nat) (g : Nat × Nat) : List Nat :=
  match paKind g.1 with
  | .sram d t off =>
    if 128 * d + t = core ∧ off < 4 * 2 ^ 20 then
      (List.range ((off + g.2 - 1) / 4096 + 1 - off / 4096)).map fun i => off / 4096 + i
    else []
  | _ => []

/-- Granules of a core that accesses still to be performed name: one that is freed is not handed on before they are
(R203). -/
def granulesNamed (s : State) (core : Nat) : List Nat :=
  ((pendings s).flatMap fun p => (homePieces s p.ctx p.segs).flatMap (granulesOf core)) ++
  -- the writes of an SSTORE that are still to be sent
  s.setOps.flatMap fun o => o.2.todo.flatMap fun q => (homePieces s o.2.ctx q.segs).flatMap (granulesOf core)

/-- Granules of a core that no new allocation may take: those of its panels, and freed ones that accesses still name. -/
def granulesUsed (s : State) (core : Nat) : List Nat :=
  let mine := s.panels.flatMap fun p => if p.2.core = core ∧ p.2.mapped then p.2.granules else []
  mine ++ ((granulesNamed s core).filter fun g => !mine.contains g).eraseDups

def panelsOn (s : State) (core : Nat) : Nat := (s.panels.filter fun p => p.2.core == core && p.2.mapped).length

def addCharge (a b : Charge) : Charge :=
  { regs := a.regs + b.regs, granules := a.granules + b.granules, lanes := a.lanes + b.lanes
    entries := a.entries + b.entries, panels := a.panels + b.panels }

/-- What a panel of a commission is charged: a saved one, what it held; a task stroke, as R283 states. -/
def savedCharge (s : State) (v : Saved) : Charge :=
  match getComm s v.comm with
  | none => { regs := 0, granules := 0, lanes := 0, entries := 0 }
  | some c =>
    { regs := v.regBytes, granules := ceilDiv v.panel.slotBytes 4096, entries := v.entries
      lanes := if v.task then c.record.width else strokeCount c.record * c.record.width }

/-- What the panels that wait on a core for their restore are charged. -/
def waitingCharge (s : State) (core : Nat) : Charge :=
  s.saved.foldl (fun n v => if v.2.place = some core then addCharge n (savedCharge s v.2) else n)
    { regs := 0, granules := 0, lanes := 0, entries := 0, panels := 0 }

/-- Whether every resource of a core has room for a charge. -/
def roomFor (s : State) (core : Nat) (c0 : Charge) : Bool :=
  let c := addCharge c0 (waitingCharge s core)
  decide (c.regs ≤ freeRegBytes s core) && decide ((granulesUsed s core).length + c.granules ≤ 1024) &&
    decide (lanesUsed s core + c.lanes ≤ 2048) && decide (entriesUsed s core + c.entries ≤ 32) &&
    decide (panelsOn s core + c.panels ≤ 16)

/-! ## Groups and cores (R242, R252, R253) -/

/-- The highest level from 2 up whose class is C. -/
def groupLevel (r : CommRec) : Option Nat :=
  ((List.range r.levels).reverse).find? fun l => decide (2 ≤ l) && classOf r l == 0

/-- Whether two panels stand in one admission group. -/
def sameGroup (r : CommRec) (p q : Nat) : Bool :=
  match groupLevel r with
  | none => p == q
  | some l => decide (r.levels ≤ l + 1) || unitAt r (l + 1) p == unitAt r (l + 1) q

/-- Whether two cores lie in one instance of a domain; `.pkg` and `.fab` place no constraint. -/
def sameDomain (d a b : Nat) : Bool :=
  match d with
  | 2 => quadOf a == quadOf b
  | 3 => a / 128 == b / 128
  | _ => true

/-- Levels from 3 up. -/
def boundLevels (r : CommRec) : List Nat := (List.range r.levels).filter fun l => decide (3 ≤ l)

/-- Whether a core lies in the instances to which the units of a panel are bound. -/
def boundOk (r : CommRec) (bound : List (Nat × Nat × Nat)) (p c : Nat) : Bool :=
  (boundLevels r).all fun l =>
    match bound.find? fun b => b.1 == l && b.2.1 == unitAt r l p with
    | some b => sameDomain (domainOf r l) c b.2.2
    | none => true

/-- Binds the units of a placed panel that are not bound. -/
def bindUnits (r : CommRec) (bound : List (Nat × Nat × Nat)) (p c : Nat) : List (Nat × Nat × Nat) :=
  (boundLevels r).foldl (fun bs l =>
    if bs.any fun b => b.1 == l && b.2.1 == unitAt r l p then bs else bs ++ [(l, unitAt r l p, c)]) bound

def eligible (s : State) (r : CommRec) (core : Nat) : Bool :=
  decide (r.core0 ≤ core) && decide (core < r.core0 + r.ncores) && !s.juran.fenced.contains core

/-- The core after one, with wrap-around. -/
def nextCursor (r : CommRec) (core : Nat) : Nat := r.core0 + (core + 1 - r.core0) % r.ncores

/-- The first core from the cursor upward, with wrap-around, that meets `ok`. -/
def firstCore (r : CommRec) (cursor : Nat) (ok : Nat → Bool) : Option Nat :=
  ((List.range r.ncores).map fun i => r.core0 + (cursor - r.core0 + i) % r.ncores).find? ok

/-- A saved panel of a commission. -/
def savedOf (s : State) (comm idx : Nat) : Option (Nat × Saved) :=
  tabFind (fun _ v => v.comm == comm && v.idx == idx && !v.task) s.saved

/-- What a panel is charged: a saved one, what it held. -/
def needOf (s : State) (comm : Nat) (r : CommRec) (p : Nat) : Charge :=
  match savedOf s comm p with
  | some (_, v) => savedCharge s v
  | none => chargeOf r

def keepsClaim (s : State) (comm p : Nat) : Bool := (savedOf s comm p).any fun v => v.2.claim

/-- The placement of a group in progress: assignments, cursor, bound units. -/
structure Assign where
  done : List (Nat × Nat) := []
  cursor : Nat
  bound : List (Nat × Nat × Nat)
deriving DecidableEq, Repr

/-- Whether a panel fits a core given the panels of its group already assigned there. -/
def fitsCore (s : State) (comm : Nat) (r : CommRec) (a : Assign) (p core : Nat) : Bool :=
  let here := (a.done.filter fun e => e.2 == core).map fun e => e.1
  let total := here.foldl (fun n q => addCharge n (needOf s comm r q)) (needOf s comm r p)
  roomFor s core total && boundOk r a.bound p core && eligible s r core &&
    (!keepsClaim s comm p || ((getCore s core).matrix.isNone && !here.any (keepsClaim s comm)))

/-- The placement procedure of R252 over the panels of a group. -/
def assignPanels (s : State) (comm : Nat) (r : CommRec) : List Nat → Assign → Option Assign
  | [], a => some a
  | p :: t, a =>
    match firstCore r a.cursor (fitsCore s comm r a p) with
    | none => none
    | some c =>
      assignPanels s comm r t { done := a.done ++ [(p, c)], cursor := nextCursor r c, bound := bindUnits r a.bound p c }

/-- The commissions in the order of R247: ascending traffic class, then launch order. -/
def commBefore (a b : Nat × Comm) : Bool :=
  decide (a.2.tclass < b.2.tclass) || (a.2.tclass == b.2.tclass && decide (a.2.order < b.2.order))

def insertComm (c : Nat × Comm) : List (Nat × Comm) → List (Nat × Comm)
  | [] => [c]
  | d :: t => if commBefore c d then c :: d :: t else d :: insertComm c t

def servedOrder (s : State) : List (Nat × Comm) := s.comms.foldl (fun l c => insertComm c l) []

/-- Whether a commission may place panels now. -/
def placing (s : State) (c : Comm) : Bool :=
  !c.drain && !c.ended && match getCtx s c.ctx with
    | some x => x.killed.isNone
    | none => false

/-- Whether a panel of a commission stands alone in its admission group (R242). -/
def lonePanel (r : CommRec) (p : Nat) : Bool :=
  decide (((List.range (panelCount r)).filter (sameGroup r p)).length ≤ 1)

/-- Work of class W: strokes or panels of that class (R241, R242). -/
def weakWork (r : CommRec) : Bool := classOf r 1 == 2 || classOf r 2 == 2

/-- Whether a panel of the admission group of a panel is still on a core: a group is placed again only when all of it
has been saved, discarded or retired (R242). -/
def groupPlaced (s : State) (comm : Nat) (r : CommRec) (p : Nat) : Bool :=
  s.panels.any fun q => q.2.comm == comm && !q.2.task && sameGroup r p q.2.idx

/-- The unplaced panels of the group that holds the lowest-numbered unplaced panel. -/
def nextGroup (c : Comm) : List Nat :=
  match c.unplaced with
  | [] => []
  | p :: t => p :: t.filter (sameGroup c.record p)

/-- Whether a saved panel comes back with a new scratchpad (R336). -/
def needsSlot (v : Saved) : Bool := v.fresh && v.panel.slotBytes != 0

/-- Whether the scratch window of a context has n more slots, beside those of the panels that wait for a restore; with
none left nothing more is placed (R308). -/
def slotsFree (s : State) (ctx n : Nat) : Bool :=
  let waiting := (s.saved.filter fun v => v.2.ctx == ctx && v.2.place.isSome && needsSlot v.2).length
  (getCtx s ctx).any fun x => decide (x.slots + waiting + max n 1 ≤ 2 ^ 35)

/-- Whether there is a slot for each panel of a group that needs a new one. -/
def slotsFor (s : State) (id : Nat) (c : Comm) (g : List Nat) : Bool :=
  slotsFree s c.ctx ((g.filter fun p => match savedOf s id p with
    | some (_, v) => needsSlot v
    | none => c.record.scratch != 0).length)

/-- Where a commission's next group would be placed, from a cursor. -/
def placeNext (s : State) (id : Nat) (c : Comm) (cursor : Nat) : Option Assign :=
  if !placing s c then none
  else match nextGroup c with
    | [] => none
    | p :: t =>
      if groupPlaced s id c.record p || !slotsFor s id c (p :: t) then none
      else assignPanels s id c.record (p :: t) { cursor := cursor, bound := c.bound }

/-- A context whose scratch-window slots are used up places nothing more, and this is reported once (R308). -/
def reportSlots (s : State) (ctx : Option Nat) : State :=
  match ctx, ctx.bind (getCtx s) with
  | some id, some c =>
    if c.slotsTold then s else report (setCtx s id { c with slotsTold := true }) (.slotsExhausted id)
  | _, _ => s

/-! ## Making a panel (R164, R189, R240, R308) -/

/-- Removes every listed byte of a range: each then reads as 0. -/
def memClear (m : Memory) (a n : Nat) : Memory := m.filter fun c => !(decide (a ≤ c.1) && decide (c.1 < a + n))

/-- Zeroes a range of physical memory whole, errors included; no core keeps a copy of what it held (R203). -/
def zeroRange (s : State) (pa n : Nat) : State :=
  let keep := fun (l : CacheLine) => !touches [(pa, n)] l
  { s with mem := memClear s.mem pa n
           badWords := s.badWords.filter fun w => !(decide (pa ≤ w) && decide (w < pa + n))
           cores := tabMap (fun _ c => { c with near := c.near.filter keep, recent := c.recent.filter keep }) s.cores }

/-- The lowest free granules of a core's pool. -/
def freeGranules (s : State) (core n : Nat) : List Nat :=
  let used := granulesUsed s core
  ((List.range 1024).filter fun g => !used.contains g).take n

/-- An allocation of `n` bytes on a core: granules, zeroed, and a fresh slot. No allocation is made for 0 bytes. -/
def allocScratch (s : State) (ctx core n : Nat) : State × Nat × List Nat :=
  if n = 0 then (s, 0, [])
  else match getCtx s ctx with
    | none => (s, 0, [])
    | some c =>
      let gs := freeGranules s core (ceilDiv n 4096)
      let s1 := gs.foldl (fun t g => zeroRange t (granulePa core g) 4096) s
      (setCtx s1 ctx { c with slots := c.slots + 1 }, 2 ^ 56 + c.slots * 2 ^ 21, gs)

/-- LVL3 to LVL7 of a panel (R47, R240). -/
def lvlsOf (r : CommRec) (p : Nat) : List Word :=
  (List.range 5).map fun i => if i + 3 < r.levels then BitVec.ofNat 32 (unitAt r (i + 3) p) else 0

/-- Channels at the start: c0 to c31 are Primer operand queues where the commission has an access slice (R189). -/
def startChans (r : CommRec) : Tab Chan :=
  if r.access = 0 then [] else (List.range 32).map fun c => (c, { kind := .primer })

/-- A root agent as it starts (R240). -/
def rootAgent (stroke : Nat) (pc : VAddr) (lanes : Mask) (regs : Tab DWord) (priv : Nat) : Agent :=
  { stroke := stroke, lset := lanes, em := lanes, s := regs, pc := pc, priv := priv }

/-- Populated lanes of stroke i of a panel (R240). -/
def populatedOf (r : CommRec) (i : Nat) : Mask := lanesBelow (min r.width (r.lanes - i * r.width))

/-- Adds one stroke with its root agent. -/
def addStroke (s : State) (k : Stroke) (pc : VAddr) (regs : Tab DWord) (priv : Nat) (core : Nat) : State × Nat :=
  let id := s.fresh
  let c := getCore s core
  let s1 := setCore s core { c with admitted := c.admitted + 1 }
  let s2 := { setStroke s1 id { k with adm := c.admitted } with fresh := id + 2 }
  (setAgent s2 (id + 1) { rootAgent id pc k.populated regs priv with lastIssue := s.cycle }, id)

/-- Adds strokes 0 to n - 1 of a panel. -/
def addStrokes (s : State) (r : CommRec) (panel core : Nat) (regs : Tab DWord) (priv : Nat) : Nat → State × List Nat
  | 0 => (s, [])
  | n + 1 =>
    let (s1, ids) := addStrokes s r panel core regs priv n
    let (s2, id) := addStroke s1
      { panel := panel, idx := n, width := r.width, populated := populatedOf r n, reserve := reserveOf r } r.entry regs priv core
    (s2, ids ++ [id])

/-- The Primer of a panel: an agent with a counter-holding pseudo-stroke. -/
def addPrimer (s : State) (r : CommRec) (panel : Nat) (regs : Tab DWord) (priv : Nat) : State × Option Nat :=
  if r.access = 0 then (s, none)
  else
    let id := s.fresh
    let all := lanesBelow r.width
    let s1 := { setStroke s id { primer := true, panel := panel, idx := 0, width := r.width, populated := all, reserve := 0 }
      with fresh := id + 2 }
    (setAgent s1 (id + 1) { rootAgent id r.access all regs priv with primer := true, lastIssue := s.cycle }, some (id + 1))

/-- The start of an expert task: its batch at the delivery port c0, its registers (R296). -/
def expertPanel (s : State) (id : Nat) (p : Panel) (r : CommRec) (b : Nat × Nat × List QEntry) : State :=
  let port := refillPort r.width 256 { kind := .port, queue := b.1, batch := b.2.2, done := true }
  let regs : List (Nat × DWord) :=
    [(0, BitVec.ofNat 64 b.2.2.length), (3, r.args), (4, BitVec.ofNat 64 b.1), (5, BitVec.ofNat 64 b.2.1)]
  { setPanel s id { p with chans := [(0, port)] } with
    agents := tabMap (fun _ a => if p.strokes.contains a.stroke then
        { a with s := regs.foldl (fun t e => tabPut t e.1 e.2) a.s }
      else a) s.agents }

/-- Places an unstarted panel of a commission on a core, whose copies it empties (log 118); the start of an expert task
is no acquire (R292). -/
def makePanel (s : State) (comm : Nat) (c : Comm) (idx core : Nat) : State :=
  let r := c.record
  let id := s.fresh
  let (s1, va, gs) := allocScratch { s with fresh := id + 1 } c.ctx core r.scratch
  let regs : Tab DWord := [(0, r.args), (1, BitVec.ofNat 64 va), (2, BitVec.ofNat 64 r.scratch)]
  let (s2, ids) := addStrokes s1 r id core regs c.priv (strokeCount r)
  let (s3, pr) := addPrimer s2 r id regs c.priv
  let p : Panel :=
    { comm := comm, ctx := c.ctx, core := core, idx := idx, strokes := ids, primer := pr, chans := startChans r
      lvls := lvlsOf r idx, slotVA := va, slotBytes := r.scratch, granules := gs, classes := r.classes }
  match c.batch with
  | some b => expertPanel s3 id p r b
  | none => acquireInvalidate (setPanel s3 id p) core

/-- Commits the assignments of a group. A saved panel waits in the table for its restore, on its core (R336). -/
def commitGroup (s : State) (id : Nat) (a : Assign) : State :=
  match getComm s id with
  | none => s
  | some c =>
    let s1 := setComm s id { c with
      unplaced := c.unplaced.filter fun p => !a.done.any fun e => e.1 == p
      cursor := a.cursor, bound := a.bound }
    a.done.foldl (fun t e =>
      match savedOf t id e.1 with
      | some (k, v) => { t with saved := tabPut t.saved k { v with place := some e.2 } }
      | none => makePanel t id c e.1 e.2) s1

/-! ## Accesses of a granule that moves -/

/-- The pieces of a piece once granules have moved, from the first address to the second of each pair. -/
def movedPiece (mv : List (Nat × Nat)) (g : Nat × Nat) : List (Nat × Nat) :=
  (List.range ((g.1 + g.2 - 1) / 4096 + 1 - g.1 / 4096)).map fun i =>
    let page := 4096 * (g.1 / 4096 + i)
    let lo := max g.1 page
    (((mv.find? fun m => m.1 == page).elim lo fun m => m.2 + (lo - page)), min (g.1 + g.2) (page + 4096) - lo)

/-- The same of the pieces of an access: those that lie elsewhere stay as they are. -/
def movedPieces (s : State) (mv : List (Nat × Nat)) (ctx : Nat) (segs : List (Nat × Nat)) : List (Nat × Nat) :=
  segs.flatMap fun g =>
    let h := homePiece s ctx g
    if mv.any fun m => decide (m.1 < h.1 + h.2) && decide (h.1 < m.1 + 4096) then movedPiece mv h else [g]

/-- Accesses still to be performed follow the granules that they name. -/
def followMove (s : State) (mv : List (Nat × Nat)) : State :=
  let f := movedPieces s mv
  let part := fun (ctx : Nat) (q : PacketPart) => { q with segs := f ctx q.segs }
  { s with
    results := tabMap (fun _ r => { r with reads := r.reads.map fun l => { l with segs := f r.ctx l.segs } }) s.results
    packets := tabMap (fun _ k => { k with parts := k.parts.map (part k.ctx) }) s.packets
    fills := tabMap (fun _ e => { e with
      rows := e.rows.map fun row => row.map (f e.ctx), pubs := f e.ctx e.pubs
      places := e.places.map fun p => (p.1, f e.ctx p.2) }) s.fills
    images := tabMap (fun _ e => { e with segs := f e.ctx e.segs, pubs := f e.ctx e.pubs }) s.images
    setOps := tabMap (fun _ o => { o with todo := o.todo.map (part o.ctx) }) s.setOps }

/-! ## Pre-emption by placement (R254, R295) -/

/-- The state without some panels. -/
def withoutPanels (s : State) (ps : List Nat) : State :=
  let gone := (s.strokes.filter fun k => ps.contains k.2.panel).map (·.1)
  { s with panels := tabFilter (fun i _ => !ps.contains i) s.panels
           strokes := tabFilter (fun i _ => !gone.contains i) s.strokes
           agents := tabFilter (fun _ a => !gone.contains a.stroke) s.agents }

/-- The state without its outstanding accesses: all of them performed. -/
def settled (s : State) : State := { s with results := [], packets := [], fills := [], images := [], setOps := [] }

/-- The state once some panels have been released: their claims too, and what outstanding accesses hold (R254). -/
def afterRelease (s : State) (ps : List Nat) : State :=
  let s1 := settled (withoutPanels s ps)
  { s1 with cores := tabMap (fun _ c =>
      if (c.matrix.map fun m => m.owner).any ps.contains then { c with matrix := none } else c) s1.cores }

def panelClass (s : State) (p : Panel) : Nat := ((getComm s p.comm).map (·.tclass)).getD 0

def insertVictim (s : State) (p : Nat × Panel) : List (Nat × Panel) → List (Nat × Panel)
  | [] => [p]
  | q :: t =>
    if panelClass s q.2 < panelClass s p.2 ∨ (panelClass s q.2 = panelClass s p.2 ∧ q.1 < p.1) then p :: q :: t
    else q :: insertVictim s p t

/-- Whether a panel may be stopped to make room: for class W work, only one whose group is itself (R242). -/
def mayYield (s : State) (p : Panel) (weak : Bool) : Bool :=
  !weak || p.task || (getComm s p.comm).all fun c => lonePanel c.record p.idx

/-- Panels of a core of traffic classes from 1 up, in descending class, the youngest first. `weak`: the room is for
class W work. -/
def victims (s : State) (core : Nat) (weak : Bool) : List (Nat × Panel) :=
  (s.panels.filter fun p => p.2.core == core && p.2.mapped && p.2.req.isNone && decide (1 ≤ panelClass s p.2) &&
    mayYield s p.2 weak).foldl (fun l p => insertVictim s p l) []

/-- The panels whose release lets waiting work of class 0 fit: on the lowest-numbered core where that can be, the
fewest of its victims in order. None where work already being stopped will make room. -/
def victimsFor (s : State) (cores : List Nat) (weak : Bool) (fits : State → Bool) : Option (List Nat) :=
  let stopping := (s.panels.filter fun p => p.2.req.isSome).map (·.1)
  if fits (afterRelease s stopping) then none
  else cores.findSome? fun c =>
    let vs := (victims s c weak).map (·.1)
    (List.range vs.length).findSome? fun i =>
      if fits (afterRelease s (stopping ++ vs.take (i + 1))) then some (vs.take (i + 1)) else none

/-- Eligible cores of a record, ascending. -/
def coresOf (s : State) (r : CommRec) : List Nat :=
  ((List.range r.ncores).map fun i => r.core0 + i).filter (eligible s r)

/-- Makes requests for panels: they are the machine's next steps (R331). -/
def requestPanels (s : State) (who : Requester) (ps : List Nat) (latency : Nat) : State :=
  { s with agenda := (ps.map fun p => Move.event (.preemptRequest who p latency)) ++ s.agenda }

end Sys2Proof.Machine
end

