-- ==== Sys2Proof/Machine/Exit.lean ====
section
/-! DEFINITION. EXIT and the end of agents and strokes (spec/02_encoding.md R44; spec/14_divergence.md R276;
spec/08_memory_instructions.md R180; spec/06_matrix.md R116). -/

namespace Sys2Proof.Machine
open Sys2Proof

/-- The Primer of a panel whose last execute stroke has exited ends, without a trap and without an event: what blocks
it is withdrawn and its queues' entries are discarded (R44). -/
def endPrimer (s : State) (panel : Nat) : State :=
  match getPanel s panel with
  | none => s
  | some p =>
    match p.primer with
    | none => s
    | some pr =>
      { setPanel s panel { p with
          primer := none
          chans := tabMap (fun _ ch => if ch.kind = .primer then { ch with ents := [], wide := [], bad := [] } else ch) p.chans } with
        agents := tabDel s.agents pr
        results := tabFilter (fun _ r => r.agent != pr) s.results }

/-- The end of a stroke: its entry and registers are freed; it leaves barriers and its gang; the panel's last stroke
ends the Primer. -/
def endStroke (s : State) (stroke : Nat) : State :=
  match getStroke s stroke with
  | none => s
  | some k =>
    let s1 := setStroke s stroke { k with exited := true, vregs := [], splits := [], reserve := 0 }
    match getPanel s1 k.panel with
    | none => s1
    | some p =>
      let s2 := leaveGang (barExit s1 k.panel k.idx) k.panel p.core k.idx
      if p.strokes.all fun i => (getStroke s2 i).all fun q => q.exited then endPrimer s2 k.panel else s2

/-- When the last running agent of a stroke ends, those that wait at one barrier arrive there (R180). -/
def arriveRest (s : State) (stroke : Nat) : State :=
  match strokeAgents s stroke, getStroke s stroke with
  | (_, g) :: _, some k =>
    match g.barAt, k.arrivedAt with
    | some off, none => barArrive s k.panel stroke off
    | _, _ => s
  | _, _ => s

/-- The end of an agent: it counts as exited at the records of its join stack. -/
def endAgent (s : State) (aid : Nat) : State :=
  match getAgent s aid with
  | none => s
  | some a =>
    let s1 := leaveSplits a.stroke aid s a.jstack
    let s2 := { s1 with agents := tabDel s1.agents aid }
    if strokeAgents s2 a.stroke = [] then endStroke s2 a.stroke else arriveRest s2 a.stroke

/-- The Primer executes EXIT: the access slice has ended (R44, R330). -/
def exitPrimer (s : State) (x : Ctxt) : State :=
  { setPanel s x.st.panel { x.p with primerState := 0xFF, primer := none } with agents := tabDel s.agents x.aid }

/-- EXIT of an execute agent: in a serialised group it ends the group; when every group has exited, the agent ends.
`fuel` bounds the serial frames. -/
def exitAgent (s : State) (x : Ctxt) (lanes : Mask) : Nat → Agent → Eff State
  | 0, _ => .ok (endAgent s x.aid)
  | fuel + 1, a =>
    match a.frames with
    | [] => .ok (endAgent (setAgent s x.aid a) x.aid)
    | f :: fs =>
      let inner := a.jstack.takeWhile fun e => !e.frame
      match a.jstack.drop inner.length with
      | [] => .ok (endAgent (setAgent s x.aid a) x.aid)
      | e :: rest =>
        let s1 := leaveSplits a.stroke x.aid (setAgent s x.aid a) inner
        let s1 := { s1 with fresh := s1.fresh + 1 }
        match endGroup { a with jstack := e :: rest } x.aid s.fresh f false with
        | (b, some f1, _) => .ok (setAgent s1 x.aid { b with frames := f1 :: fs })
        | (b, none, true) =>
          let addr := match e.kind with
            | .real => (((getStroke s1 a.stroke).bind fun k => tabGet k.splits e.split).bind fun r => r.addr).getD a.pc
            | _ => e.addr.getD a.pc
          if e.kind = .real then
            let e1 := { e with frame := false }
            joinArrive s1 x { b with frames := fs, jstack := e1 :: rest, pc := addr } e1 lanes
          else .ok (setAgent s1 x.aid { b with frames := fs, jstack := rest, pc := addr + 8 })
        | (b, none, false) =>
          let left := if e.kind = .real then { e with frame := false } :: rest else rest
          exitAgent s1 x lanes fuel { b with frames := fs, jstack := left }

/-- EXIT (R44): waits as if S were set, then until the counters of all 16 streams read zero. -/
def execExit (sw : Bool) (s : State) : Out :=
  .next (ctlInstr s sw { primer := true, meld := false } [] fun s x lanes => do
    waitS s x.aid
    waitStreams s x lanes allStreams
    if x.a.primer then return exitPrimer s x
    else exitAgent s x lanes 9 { x.a with hazV := 0, hazS := 0, hazK := 0, handler := false })

end Sys2Proof.Machine
end

