-- ==== Sys2Proof/Machine/Tasks.lean ====
section
/-! DEFINITION. Tasks, the chunk pool, and the Easel's instructions (spec/15_tasks_easel.md R278-R291, R299-R301). -/

namespace Sys2Proof.Machine
open Sys2Proof

/-- Task and Easel instructions stand in no meld region and not in the Primer (R303). -/
def taskPlace : Place := { meld := false }

/-- The checks of a task or Easel instruction in the order of R322. `ill`: where it is ILLOP; `uni`: the uniform
sources. -/
def taskGather (s : State) (x0 : Ctxt) (h : Hdr) (ill : Ctxt → Bool) (srcs : List Src) (dsts : List Ref) (uni : List Nat) :
    Eff (State × Ctxt) := do
  let lanes := activeMask x0.a h.km
  checkPlace x0 lanes taskPlace
  if ill x0 then trapAt .illop lanes
  let (s, x) ← switchMark s x0 h.sw
  checkMeldPairs x lanes srcs dsts
  checkRegs x lanes srcs (dsts ++ selRefs x h.km)
  checkUniform x lanes srcs uni
  checkMeld x lanes taskPlace
  checkReads x lanes (selRefs x h.km)
  return (s, x)

/-- An instruction with lane-wise sources. With no lane active only its frees happen (R15). -/
def taskInstr (s : State) (h : Hdr) (ill : Ctxt → Bool) (srcs : List Src) (dsts : List Ref) (uni : List Nat) (size : Nat)
    (body : State → Ctxt → Mask → List (Nat → Nat) → Eff (State × Writes)) : State :=
  runAgent s fun x0 => do
    let lanes := activeMask x0.a h.km
    let (s, x) ← taskGather s x0 h ill srcs dsts uni
    let is : Issue := { sw := h.sw, size := size, srcs := srcs, dsts := dsts }
    if lanes = 0 then commitRegs s x is lanes {}
    else do
      let vs ← srcValues s x lanes srcs srcs.length 0
      let (s1, w) ← body s x lanes vs
      commitRegs s1 x is lanes w

/-- The trap of the fault that ranks first over the lanes (R322). -/
def raiseFaults (x : Ctxt) (lanes : Mask) (bad : List (Acc × AddrFault)) : Eff Unit :=
  match worstFault x lanes .lane bad with
  | some t => .error (.trap t)
  | none => .ok ()

/-! ## TSPAWN and TYLD (R279, R280) -/

/-- Whether a core's queue takes one more task of a context (R278). -/
def queueFull (s : State) (core ctx : Nat) : Bool :=
  let q := (getCore s core).tasks
  let quota := ((getCtx s ctx).map fun c => c.params.tquota).getD 0
  decide (4096 ≤ q.length) || decide (quota ≤ (q.filter fun t => t.ctx == ctx).length)

def pushTask (s : State) (core : Nat) (t : Tcb) : State :=
  let c := getCore s core
  setCore s core { c with tasks := c.tasks ++ [t] }

/-- Queues one task per lane; gives the lanes that found the queue full. -/
def pushTasks (core : Nat) (tcb : Nat → Tcb) : List Nat → State → State × List Nat
  | [], s => (s, [])
  | l :: t, s =>
    if queueFull s core (tcb l).ctx then
      let r := pushTasks core tcb t s
      (r.1, l :: r.2)
    else pushTasks core tcb t (pushTask s core (tcb l))

/-- Word j of a four-register value. -/
def quadWord (v j : Nat) : Word := BitVec.ofNat 32 (v / 2 ^ (32 * j))

/-- The checks, the release and the queueing that TSPAWN and TYLD share: the state and the lanes that are FULL. -/
def spawnTasks (s : State) (x : Ctxt) (lanes : Mask) (vs : List (Nat → Nat)) (yield : Bool) : Eff (State × List Nat) := do
  let ls := laneList lanes x.w
  let accs : List Acc := ls.map fun l => { lane := l, addr := ((val vs 0 l % 2 ^ 64 : Nat) : Int), n := 8, align := 8 }
  let _ ← placeAll s x lanes .lane .x accs
  waitRelease s x lanes allStreams
  let tcb := fun (l : Nat) =>
    { ctx := x.p.ctx, comm := x.p.comm, entry := BitVec.ofNat 57 (val vs 0 l)
      args := (List.range 4).map (quadWord (val vs 1 l)), kind := yield
      enq := if yield then (x.st.enq[l]?).getD s.cycle else s.cycle : Tcb }
  return pushTasks x.p.core tcb ls s

def statusWrites (x : Ctxt) (lanes : Mask) (d : Nat) (full : List Nat) : Writes :=
  { v := putV x lanes d (fun l => if full.contains l then 1 else 0) 1 }

def taskSrcs (h : Hdr) (a b : Opd) : List Src := [srcOf a 2 1 h.la, srcOf b 4 2 h.lb]

def execTspawn (h : Hdr) (d : Nat) (a b : Opd) (s : State) : Out :=
  .next (taskInstr s h (fun _ => false) (taskSrcs h a b) [.v d 1 0] [] 8 fun s x lanes vs => do
    let (s1, full) ← spawnTasks s x lanes vs false
    return (s1, statusWrites x lanes d full))

/-- TYLD may run only in a task stroke that is not split (R280). -/
def notTask (x : Ctxt) : Bool := !x.st.task || x.a.frag || inSerial x.a || !x.st.splits.isEmpty

/-- The lanes of continuations leave the stroke; when `em` is empty the stroke ends (R280). -/
def leaveLanes (s : State) (aid : Nat) (gone : Mask) : State :=
  match getAgent s aid with
  | none => s
  | some a =>
    let s1 := setAgent s aid { a with em := a.em &&& ~~~gone, lset := a.lset &&& ~~~gone }
    if a.em &&& ~~~gone = 0 then endAgent s1 aid else s1

def execTyld (h : Hdr) (d : Nat) (a b : Opd) (s : State) : Out :=
  .next (runAgent s fun x0 => do
    let lanes := activeMask x0.a h.km
    let srcs := taskSrcs h a b
    let (s, x) ← taskGather s x0 h notTask srcs [.v d 1 0] []
    let is : Issue := { sw := h.sw, size := 8, srcs := srcs, dsts := [.v d 1 0] }
    if lanes = 0 then commitRegs s x is lanes {}
    else do
      let vs ← srcValues s x lanes srcs srcs.length 0
      let (s1, full) ← spawnTasks s x lanes vs true
      let gone := maskOf x.w fun l => lanes.getLsbD l && !full.contains l
      -- a stroke that ends here waits as EXIT does
      if x.a.em &&& ~~~gone = 0 then waitS s x.aid
      let s2 ← commitRegs s1 x is lanes (statusWrites x lanes d full)
      return leaveLanes s2 x.aid gone)

/-! ## ALLOC (R286, R287) -/

/-- Takes one chunk: its address, or none where the pool is exhausted. -/
def takeChunk (s : State) (ctx : Nat) : State × Option Nat :=
  match getCtx s ctx with
  | none => (s, none)
  | some c =>
    if c.params.poolChunk = 0 ∨ c.params.poolSize / c.params.poolChunk ≤ c.chunks then (s, none)
    else (setCtx s ctx { c with chunks := c.chunks + 1 }, some (c.params.poolBase + c.chunks * c.params.poolChunk))

/-- One chunk for each lane of a list, in order. -/
def takeChunks (ctx : Nat) : List Nat → State → State × List (Nat × Option Nat)
  | [], s => (s, [])
  | l :: t, s =>
    let (s1, a) := takeChunk s ctx
    let r := takeChunks ctx t s1
    (r.1, (l, a) :: r.2)

def execAlloc (h : Hdr) (sc : Nat) (d : Dst) (s : State) : Out :=
  .next (taskInstr s h (fun _ => false) [] (dstRef d 2 0 ++ [.s sc 0]) [] 8 fun s x lanes _ =>
    let ls := match d with
      | .v _ => laneList lanes x.w
      | _ => [0]
    let (s1, got) := takeChunks x.p.ctx ls s
    let n := (got.filter fun e => e.2.isSome).length
    let w := putDst x lanes d 2 fun l => ((got.find? fun e => e.1 == l).bind (·.2)).getD 0
    .ok (s1, { w with s := w.s ++ [(sc, BitVec.ofNat 64 n)] }))

/-! ## Entries of the Easel (R288, R291) -/

/-- Entries a queue holds, in the ring and in the spill area. -/
def queueCount (e : EQueue) : Nat := e.ring.length + e.spill.length

def oldestEntry (e : EQueue) : Option QEntry := (e.ring ++ e.spill).head?

def oldestAge (s : State) (e : EQueue) : Nat := ((oldestEntry e).map fun x => s.cycle - x.born).getD 0

/-- A queue's age timer has run out on its oldest entry (R293). -/
def timerOut (s : State) (e : EQueue) : Bool := e.age != 0 && (oldestEntry e).isSome && decide (e.age ≤ oldestAge s e)

/-- Ready as R293 states it: `late` says whether the timer has run out. -/
def queueReady (e : EQueue) (late : Bool) : Bool :=
  e.template.isSome && (e.enable || queueCount e != 0) && (decide (e.fill ≤ queueCount e) || late)

/-- A free slot of the spill area. -/
def freeSlot (e : EQueue) : Nat :=
  ((List.range e.spillN).find? fun i => !e.spill.any fun x => x.slot == some i).getD 0

/-- Writes a spilled entry into the spill area. -/
def spillWrite (s : State) (e : EQueue) (x : QEntry) : State × QEntry :=
  match segsFor s e.ctx .w (e.spillBase + 32 * (x.slot.getD 0)) 32 with
  | .error f => (countWalk s e.ctx f, x)
  | .ok g =>
    match engineWrite s e.ctx g x.bytes with
    | (s1, some w) => (s1, { x with bad := some w })
    | (s1, none) => (s1, x)

/-- Pushes one entry: the status of R291. -/
def pushEntry (s : State) (q : Nat) (bytes : List Byte) : State × Nat :=
  match tabGet s.easel q with
  | none => (s, 2)
  | some e =>
    let x : QEntry := { bytes := bytes, born := s.cycle, ahead := queueCount e }
    if e.ring.length < e.cap ∧ e.spill = [] then ({ s with easel := tabPut s.easel q { e with ring := e.ring ++ [x] } }, 0)
    else if e.spill.length < e.spillN then
      let (s1, y) := spillWrite s e { x with accepted := false, slot := some (freeSlot e) }
      ({ s1 with easel := tabPut s1.easel q { e with spill := e.spill ++ [y], spilled := e.spilled + 1 } }, 1)
    else ({ s with easel := tabPut s.easel q { e with refused := min (e.refused + 1) (2 ^ 32 - 1) } }, 2)

def pushEntries (q : Nat) (bytes : Nat → List Byte) : List Nat → State → State × List (Nat × Nat)
  | [], s => (s, [])
  | l :: t, s =>
    let (s1, st) := pushEntry s q (bytes l)
    let r := pushEntries q bytes t s1
    (r.1, (l, st) :: r.2)

/-- An entry's KIDX above 7, or a reserved byte that is not 0. -/
def entryBad (bs : List Byte) : Bool :=
  decide (7 < recNat bs 12 1) || recNat bs 14 2 != 0 || recNat bs 20 4 != 0

def execEqpush (h : Hdr) (d : Option Nat) (e : Nat) (q : Opd) (s : State) : Out :=
  let dsts : List Ref := match d with
    | some n => [.v n 1 0]
    | none => []
  .next (taskInstr s h (fun _ => false) [srcOf (.v e) 8 1 h.la, srcOf q 1 2 h.lb] dsts [1] (sizeOf q) fun s x lanes vs => do
    let lo := (lowestLane lanes x.w).getD 0
    let n := val vs 1 lo
    let bytes := fun l => bytesOf 32 (val vs 0 l)
    let bad := (laneList lanes x.w).filter fun l => entryBad (bytes l)
    if 1023 < n then trapAt .resfield lanes
    let _ ← checkQueue s x lanes n true
    match bad with
    | l :: _ => trapAt .resfield (maskOf x.w fun i => bad.contains i) (BitVec.ofNat 64 l)
    | [] => pure ()
    waitRelease s x lanes allStreams
    let (s1, st) := pushEntries n bytes (laneList lanes x.w) s
    let refused := (st.filter fun p => p.2 == 2).length
    let s2 := if refused = 0 then s1 else report s1 (.queueSpill x.p.ctx n refused)
    let w : Writes := match d with
      | some k => { v := putV x lanes k (fun l => ((st.find? fun p => p.1 == l).map (·.2)).getD 0) 1 }
      | none => {}
    return (s2, w))

/-! ## EQSTAT (R299) -/

def statValue (s : State) (e : EQueue) (sel : Nat) : Nat :=
  if !e.configured then 0
  else match sel with
    | 0 => queueCount e % 2 ^ 32 + 2 ^ 32 * min e.spill.length 0xFFFF + (if e.enable then 2 ^ 48 else 0) +
        (if queueReady e (timerOut s e) then 2 ^ 49 else 0)
    | 1 => min (oldestAge s e) (2 ^ 64 - 1)
    | 2 => e.refused + 2 ^ 32 * min e.firings (2 ^ 32 - 1)
    | _ => e.fill % 2 ^ 16 + 2 ^ 16 * (e.batch % 512) + 2 ^ 32 * e.age

def execEqstat (h : Hdr) (d : Nat) (q sel : Opd) (s : State) : Out :=
  .next (taskInstr s h (fun _ => false) [srcOf q 1 1 h.la, srcOf sel 1 2 h.lb] [.s d 0] [0] (sizeOf sel) fun s x lanes vs => do
    let lo := (lowestLane lanes x.w).getD 0
    let n := val vs 0 lo
    if 1023 < n ∨ 4 ≤ val vs 1 lo then trapAt .resfield lanes
    let e ← checkQueue s x lanes n false
    return (s, { s := [(d, BitVec.ofNat 64 (statValue s e (val vs 1 lo)))] }))

/-! ## EQCFG (R289, R290) -/

/-- Whether n bytes lie on LPDDR-6 pages with R and W. -/
def spillPages (s : State) (ctx va n : Nat) : Bool :=
  match segsFor s ctx .rw va n with
  | .error _ => false
  | .ok g => g.all fun p => match paKind p.1 with
    | .lpddr _ => true
    | _ => false

/-- The byte offset of the first field of a configuration record that breaks R289. -/
def configBad (s : State) (ctx : Nat) (bs : List Byte) : Option Nat :=
  let f := recNat bs
  let cap := f 20 4
  let age := f 28 4
  let checks : List (Nat × Bool) :=
    [(0, f 0 8 % 64 != 0), (8, f 8 8 != 0 && (f 8 8 % 32 != 0 || !spillPages s ctx (f 8 8) (32 * f 16 4))),
     (16, f 8 8 == 0 && f 16 4 != 0),
     (20, cap == 0 || decide (65536 < cap) || cap &&& (cap - 1) != 0),
     (24, f 24 2 == 0 || decide (cap < f 24 2)), (26, f 26 2 == 0 || decide (256 < f 26 2)),
     (28, age != 0 && (decide (age < 64) || decide (2 ^ 31 < age))),
     (44, decide (4 ≤ f 44 1)), (45, decide (2 ≤ f 45 1)), (46, f 46 8 != 0 || f 54 8 != 0 || f 62 2 != 0)]
  (checks.find? fun c => c.2).map (·.1)

/-- The byte offset of the first field of a template that breaks R239 or R289. -/
def templateBad (bs : List Byte) : Option Nat :=
  let f := recNat bs
  let own := [(8, f 8 8 != 0), (17, f 17 1 != 3), (36, decide (1 < f 36 4)), (80, f 80 8 != 0)].filterMap fun c =>
    if c.2 then some c.1 else none
  match recordBad bs, own with
  | some a, b :: _ => some (min a b)
  | some a, [] => some a
  | none, b :: _ => some b
  | none, [] => none

/-- A range read by EQCFG as an acquire at `.pkg`, with the state that has read it: a translation, permission or storage
failure traps. -/
def readRange (s : State) (x : Ctxt) (lanes : Mask) (va n : Nat) : Eff (State × List Byte) := do
  let ps ← placeAll s x lanes .one .r [{ lane := 0, addr := (va : Int), n := n, align := 1 }]
  readNow s x lanes ps

/-- The records and their templates, in order. -/
def readConfigs (s : State) (x : Ctxt) (lanes : Mask) (base : Nat) : Nat → Eff (State × List (List Byte × Option (List Byte)))
  | 0 => .ok (s, [])
  | n + 1 => do
    let (s, before) ← readConfigs s x lanes base n
    let (s, bs) ← readRange s x lanes (base + 64 * n) 64
    let t := recNat bs 0 8
    if t = 0 ∨ t % 64 ≠ 0 then return (s, before ++ [(bs, none)])
    else do
      let (s, tb) ← readRange s x lanes t 256
      return (s, before ++ [(bs, some tb)])

/-- RESFIELD for the first record or template that breaks R289. -/
def checkConfigs (s : State) (x : Ctxt) (lanes : Mask) : Nat → List (List Byte × Option (List Byte)) → Eff Unit
  | _, [] => .ok ()
  | i, (bs, tb) :: t =>
    match configBad s x.p.ctx bs, tb.bind templateBad with
    | some o, _ => trapAt .resfield lanes (BitVec.ofNat 64 (64 * i + o))
    | none, some o => trapAt .resfield lanes (BitVec.ofNat 64 (0x8000 + o))
    | none, none => checkConfigs s x lanes (i + 1) t

/-- What a record installs in a queue. -/
def installQueue (e : EQueue) (bs : List Byte) (tb : Option (List Byte)) : EQueue :=
  let f := recNat bs
  { e with
    configured := true, template := tb.map recordOf, spillBase := f 8 8, spillN := f 16 4, cap := f 20 4
    fill := f 24 2, batch := f 26 2, age := f 28 4, wbase := f 32 8, wstride := f 40 4, prio := f 44 1
    enable := f 45 1 == 1, expired := false }

def installQueues (q : Nat) : List (List Byte × Option (List Byte)) → State → State
  | [], s => s
  | (bs, tb) :: t, s =>
    let s1 := match tabGet s.easel q with
      | some e => { s with easel := tabPut s.easel q (installQueue e bs tb) }
      | none => s
    installQueues (q + 1) t s1

/-- A record changes the ring or the spill area of a queue that holds entries. -/
def changesRing (e : EQueue) (bs : List Byte) : Bool :=
  queueCount e != 0 && (recNat bs 20 4 != e.cap || recNat bs 8 8 != e.spillBase || recNat bs 16 4 != e.spillN)

/-- Ring bytes that the queues of a context take. -/
def ringBytes (s : State) (ctx : Nat) : Nat :=
  s.easel.foldl (fun n e => if e.2.ctx = ctx then n + 32 * e.2.cap else n) 0

/-- EQCFG of `n` queues (R290). -/
def execEqcfg (h : Hdr) (n : Nat) (d r : Nat) (q : Opd) (s : State) : Out :=
  .next (wideInstr s h taskPlace [srcOf (.s r) 1 1 false, srcOf q 1 2 h.lb] [.s d 0] fun s x lanes vs => do
    let base := nthVal vs 0
    let first := nthVal vs 1
    if x.a.priv = 0 then trapAt .perm lanes
    if base % 8 ≠ 0 then trapAt .align lanes 0 (BitVec.ofNat 64 base)
    let (s, cs) ← readConfigs s x lanes base n
    let qs := (List.range n).map fun i => first + i
    if qs.any fun k => decide (1023 < k) || (tabGet s.easel k).all fun e => e.ctx != x.p.ctx then trapAt .perm lanes
    checkConfigs s x lanes 0 cs
    if (List.range n).any fun i => (tabGet s.easel (first + i)).any fun e => changesRing e ((cs[i]?).getD ([], none)).1 then
      trapAt .resfield lanes 0xFFFF
    let s1 := acquireInvalidate (installQueues first cs s) x.p.core
    let ok := decide (ringBytes s1 x.p.ctx ≤ x.ctx.params.easelReserve)
    let s2 := if ok then s1 else acquireInvalidate s x.p.core
    return stepPc (putScalar s2 x.aid d (if ok then 0 else 1)) x.aid (sizeOf q))

/-! ## EQCOMB (R300, R301) -/

/-- LEN of a slot as the home gives it: free, by the lane, where that is another device (log 12). -/
def slotLen (s : State) (ctx lane : Nat) (segs : List (Nat × Nat)) : Nat :=
  match reachOf s ctx true segs with
  | .here g => recNat (readSegs s.mem g) 24 2
  | _ => (Config.freeValue 16 (s.freeN + lane)).toNat

/-- Whether another device has not given LEN of a slot yet (R217, log 12). -/
def lenAwaited (s : State) (ctx lane slot : Nat) : Bool :=
  match placeAcc s ctx .w { lane := lane, addr := (slot : Int), n := 64, align := 64 } with
  | .error _ => false
  | .ok p => reachOf s ctx true p.segs == .away && awayAnswer s == 3

/-- The faults of one lane's slot and row. -/
def combFaults (s : State) (ctx lane slot row : Nat) : List (Acc × AddrFault) :=
  let sa : Acc := { lane := lane, addr := (slot : Int), n := 64, align := 64 }
  let ra : Acc := { lane := lane, addr := (row : Int), n := 1, align := 4 }
  let align := if row % 4 ≠ 0 then [(ra, ((.align, 0) : AddrFault))] else []
  match placeAcc s ctx .w sa with
  | .error e => align ++ [(sa, e)]
  | .ok p =>
    if align ≠ [] then align
    else if reachOf s ctx true p.segs = .refused then [(sa, (.xlate, 0x10000))]
    else match placeAcc s ctx .r { ra with n := 4 * slotLen s ctx lane p.segs } with
      | .error e => [(ra, e)]
      | .ok _ => []

def execEqcomb (h : Hdr) (str : Nat) (a : Opd) (grp gate : Nat) (s : State) : Out :=
  .next (taskInstr s h (fun _ => false) [addrSrc h a, srcOf (.v grp) 4 2 h.lb, srcOf (.v gate) 1 3 h.lc] [] [0] 8
    fun s x lanes vs => do
      let ls := laneList lanes x.w
      let word := fun (l j : Nat) => val vs 1 l / 2 ^ (32 * j) % 2 ^ 32
      let slot := fun l => val vs 0 l + 64 * word l 0
      let row := fun l => val vs 1 l / 2 ^ 64 % 2 ^ 64
      if ls.any fun l => lenAwaited s x.p.ctx l (slot l) then .error (.park .answer)
      raiseFaults x lanes (ls.flatMap fun l => combFaults s x.p.ctx l (slot l) (row l))
      waitRelease s x lanes allStreams
      checkRoom s x str ls.length
      let s1 := ls.foldl (fun t l =>
        let dep : Deposit :=
          { agent := x.aid, stroke := x.a.stroke, str := str, ctx := x.p.ctx, slot := slot l, k := word l 1
            gate := BitVec.ofNat 32 (val vs 2 l), row := row l, born := s.cycle }
        { t with deposits := tabPut t.deposits t.fresh dep, fresh := t.fresh + 1 }) { s with freeN := s.freeN + x.w }
      return (addAcks s1 x.a.stroke str ls.length, {}))

end Sys2Proof.Machine
end

