-- ==== Sys2Proof/Machine/Easel.lean ====
section
/-! DEFINITION. The combine unit, the Easel's firings, and the dispatcher's task strokes and donations
(spec/15_tasks_easel.md R281-R285, R292-R298, R302, R358). -/

namespace Sys2Proof.Machine
open Sys2Proof

/-! ## The combine unit (R302, R358) -/

/-- The fields of a combine slot (R300). -/
structure CombSlot where
  out : Nat
  stage : Nat
  notify : Nat
  len : Nat
  ktot : Nat
  kseen : Nat
  done : Bool
  reserved : Nat
  gates : List Nat

def combSlot (bs : List Byte) : CombSlot :=
  let f := recNat bs
  { out := f 0 8, stage := f 8 8, notify := f 16 8, len := f 24 2, ktot := f 26 1, kseen := f 27 1, done := bitAt (f 28 1) 0
    reserved := f 30 2, gates := (List.range 8).map fun k => f (32 + 4 * k) 4 }

/-- Acknowledges a deposit. -/
def ackDeposit (s : State) (d : Deposit) (fault : Option Nat) : State :=
  if d.counted then
    { s with ackq := tabPut s.ackq s.fresh { stroke := d.stroke, str := d.str, lines := 1, fault := fault, born := s.cycle }
             fresh := s.fresh + 1 }
  else s

/-- Sets bits of a slot's STATUS byte. -/
def slotStatus (s : State) (segs : List (Nat × Nat)) (bits : Byte) : State :=
  let bs := readSegs s.mem segs
  storeSegs s segs (bs.take 28 ++ [((bs[28]?).getD 0) ||| bits] ++ bs.drop 29)

def combEvent (s : State) (d : Deposit) : State := report s (.combineError d.ctx d.slot d.k)

/-- A deposit discarded with ERR; acknowledged OK, or FAULT where storage failed. -/
def combDrop (s : State) (d : Deposit) (segs : List (Nat × Nat)) (fault : Option Nat) : State :=
  ackDeposit (combEvent (slotStatus s segs 2) d) d fault

/-- One FFMA step of the combine arithmetic: codes of the gate, the staged element and the sum so far. -/
def combStep (g y acc : Nat) : Nat × BitVec 6 :=
  let r := flFma .rne (decodeFl fmtF32 g) (decodeFl fmtF32 y) (decodeFl fmtF32 acc)
  let q := roundFl fmtF32 ⟨.rne, 0⟩ false r.1
  (q.1, r.2 ||| q.2)

/-- An output element: the steps over k from 0 up. -/
def combElem : List (Nat × Nat) → Nat → BitVec 6 → Nat × BitVec 6
  | [], acc, fl => (acc, fl)
  | (g, y) :: t, acc, fl =>
    let r := combStep g y acc
    combElem t r.1 (fl ||| r.2)

/-- Word j of bytes. -/
def wordAt (bs : List Byte) (j : Nat) : Nat := recNat bs (4 * j) 4

/-- The pieces of an engine write; none where it cannot be made. -/
def unitSegs (s : State) (ctx va n : Nat) : Option (List (Nat × Nat)) :=
  match segsFor s ctx .we va n with
  | .error _ => none
  | .ok g => if g.any fun p => reachOf s ctx true [p] == .refused then none else some g

/-- What homes of this device hold of the pieces of a write. -/
def unitHere (s : State) (ctx : Nat) (g : List (Nat × Nat)) : List (Nat × Nat) := (hereWrites s ctx g []).1

/-- The unit's write of pieces: what lies on another device is that device's to hold. -/
def unitWrite (s : State) (ctx : Nat) (g : List (Nat × Nat)) (bs : List Byte) : State × Option Nat :=
  let h := hereWrites s ctx g bs
  engineWrite s ctx h.1 h.2

/-- The unit's read of pieces that it writes, with the free values it has taken: another device's are free (log 12). -/
def unitRead (s : State) (ctx : Nat) : List (Nat × Nat) → Nat → List Byte × Nat
  | [], n => ([], n)
  | g :: t, n =>
    match reachOf s ctx true [g] with
    | .here h =>
      let r := unitRead s ctx t n
      (readSegs s.mem h ++ r.1, r.2)
    | _ =>
      let r := unitRead s ctx t (n + g.2)
      ((List.range g.2).map (fun i => Config.freeValue 8 (n + i)) ++ r.1, r.2)

/-- The NOTIFY add, atomic at its home. A word in error is not written. -/
def notifyAdd (s : State) (ctx : Nat) (g : List (Nat × Nat)) : State × Bool :=
  match reachOf s ctx true g with
  | .here segs =>
    match (touchedBad s segs).head? with
    | some w => (uncorrectable s w ctx, false)
    | none => (storeSegs s segs (bytesOf 4 (ofBytes (readSegs s.mem segs) + 1)), true)
  | _ => (s, true)

/-- Writes the output row, element by element: whether every element was written (R358). -/
def writeOut (ctx : Nat) : List (List (Nat × Nat)) → List Nat → State → Bool → State × Bool
  | g :: gs, v :: vs, s, ok =>
    match unitWrite s ctx g (bytesOf 4 v) with
    | (s1, some _) => writeOut ctx gs vs s1 false
    | (s1, none) => writeOut ctx gs vs s1 ok
  | _, _, s, ok => (s, ok)

/-- The pieces of each element of a row, or none where one cannot be written. -/
def rowSegs (s : State) (ctx va : Nat) : Nat → Option (List (List (Nat × Nat)))
  | 0 => some []
  | n + 1 => do
    let t ← rowSegs s ctx va n
    let g ← unitSegs s ctx (va + 4 * n) 4
    return t ++ [g]

/-- The pieces of a slot's NOTIFY word: empty where it has none, none where it cannot be written. -/
def notifySegs (s : State) (ctx : Nat) (c : CombSlot) : Option (List (Nat × Nat)) :=
  if c.notify = 0 then some [] else unitSegs s ctx c.notify 4

/-- The completion of a slot whose last contribution has arrived. `outs`, `notify`: where its row and its NOTIFY word are
written, none where they cannot be. -/
def combFinish (s : State) (d : Deposit) (segs : List (Nat × Nat)) (c : CombSlot) (stage : List Byte)
    (outs : Option (List (List (Nat × Nat)))) (notify : Option (List (Nat × Nat))) : State :=
  let row := fun j => combElem ((List.range c.ktot).map fun k => (((c.gates[k]?).getD 0), wordAt stage (k * c.len + j))) 0 0
  let rows := (List.range c.len).map row
  let fl := rows.foldl (fun f r => f ||| r.2) (0 : BitVec 6)
  let doNotify := fun (t : State) => match notify with
    | some [] => (t, true)
    | some g => notifyAdd t d.ctx g
    | none => (t, false)
  match outs, notify with
  | some row, some _ =>
    let (s1, ok) := writeOut d.ctx row (rows.map (·.1)) s true
    let bs := readSegs s1.mem segs
    let s2 := storeSegs s1 segs (bs.take 29 ++ [BitVec.ofNat 8 (fl.toNat % 32)] ++ bs.drop 30)
    let (s3, ok2) := doNotify (slotStatus s2 segs (if ok then 1 else 3))
    if ok ∧ ok2 then s3 else combEvent (if ok2 then s3 else slotStatus s3 segs 2) d
  | _, _ => combEvent (doNotify (slotStatus s segs 3)).1 d

/-- The row's bytes with the state that has read them, or the address of an error in it. What another device answers is
free (log 12). -/
def rowBytesOf (s : State) (ctx va n : Nat) : Except (Nat × Option Nat) (List Byte × State) :=
  match segsFor s ctx .r va n with
  | .error f => if f.1 = .dataerr then .error (f.2.toNat, some f.2.toNat) else .error (0, none)
  | .ok g =>
    if unitRefused s ctx g then .error ((g.head?).elim 0 (·.1), none)
    else if pieceAway s ctx g && awayAnswer s == 2 then .error (awayWord s ctx g, none)
    else match piecesBad s ctx g with
      | some b => .error (b.1, some b.2)
      | none => .ok (readFree s ctx g)

/-- A deposit performed at its slot. -/
def combPerform (s : State) (d : Deposit) (segs : List (Nat × Nat)) : State :=
  let c := combSlot (readSegs s.mem segs)
  if c.ktot ≤ d.k ∨ bitAt c.kseen d.k ∨ c.done then combDrop s d segs none
  else if c.len = 0 ∨ 1024 < c.len ∨ c.ktot = 0 ∨ 8 < c.ktot ∨ c.reserved ≠ 0 then combDrop s d segs none
  else
    let last := (List.range c.ktot).all fun j => j == d.k || bitAt c.kseen j
    match unitSegs s d.ctx (c.stage + 4 * d.k * c.len) (4 * c.len), unitSegs s d.ctx c.stage (4 * c.ktot * c.len) with
    | some own, some all =>
      match rowBytesOf s d.ctx d.row (4 * c.len) with
      | .error b => combDrop (metBad s d.ctx b) d segs (some b.1)
      | .ok (row, s0) =>
        let mine := unitHere s d.ctx own
        let others := (touchedBad s (unitHere s d.ctx all)).filter fun w => last && !coversWord mine w
        match refusingWord s mine, others with
        | some w, _ => combDrop (uncorrectable s w d.ctx) d segs (some w)
        | none, w :: _ => combDrop (uncorrectable s w d.ctx) d segs (some w)
        | none, [] =>
          let s1 := (unitWrite s0 d.ctx own row).1
          let bs := readSegs s1.mem segs
          let seen := bs.take 27 ++ [BitVec.ofNat 8 (c.kseen ||| 2 ^ d.k)] ++ (bs.drop 28).take (4 + 4 * d.k) ++
            bytesOf 4 d.gate.toNat ++ bs.drop (36 + 4 * d.k)
          let s2 := storeSegs s1 segs seen
          let stage := unitRead s2 d.ctx all s2.freeN
          let s3 := if last then
              combFinish { s2 with freeN := stage.2 } d segs { c with gates := c.gates.set d.k d.gate.toNat } stage.1
                (rowSegs s d.ctx c.out c.len) (notifySegs s d.ctx c)
            else s2
          ackDeposit s3 d none
    | _, _ => combDrop s d segs none

/-- COMBINE_DEPOSIT: one deposit, atomic at the slot's home. A slot on another device is that device's to change; one
that no longer translates answers FAULT. -/
def execCombineDeposit (id : Nat) (s : State) : Out :=
  .next (match tabGet s.deposits id with
    | none => s
    | some d =>
      let s0 := { s with deposits := tabDel s.deposits id }
      if 2 ^ 21 < s.cycle - d.born then s0
      else match segsFor s d.ctx .w d.slot 64 with
      | .error f => ackDeposit (combEvent (countWalk s0 d.ctx f) d) d (some (if f.1 = .dataerr then f.2.toNat else 0))
      | .ok g =>
        match reachOf s d.ctx true g with
        | .refused => ackDeposit (combEvent s0 d) d (some ((g.head?).elim 0 (·.1)))
        | .away => ackDeposit s0 d none
        | .here h =>
          match (touchedBad s h).head? with
          | some w => ackDeposit (combEvent (uncorrectable s0 w d.ctx) d) d (some w)
          | none => combPerform s0 d h)

/-! ## Firings (R293-R298) -/

/-- EASEL_AGE_EXPIRY: the oldest entry of a queue has reached the age timer. -/
def execEaselAgeExpiry (q : Nat) (s : State) : Out :=
  .next (match tabGet s.easel q with
    | none => s
    | some e => if timerOut s e then { s with easel := tabPut s.easel q { e with expired := true } } else s)

/-- Whether a queue's timer has expired (R293). -/
def aged (s : State) (e : EQueue) : Bool := e.expired || timerOut s e

/-- A queue that may fire. -/
def mayFire (s : State) (e : EQueue) : Bool :=
  queueReady e (aged s e) && queueCount e != 0 && (getCtx s e.ctx).any fun c => c.killed.isNone

/-- The order of ready queues (R293). -/
def queueBefore (s : State) (a b : Nat × EQueue) : Bool :=
  let born := fun (e : EQueue) => ((oldestEntry e).map (·.born)).getD s.cycle
  if a.2.prio ≠ b.2.prio then decide (a.2.prio < b.2.prio)
  else if aged s a.2 ≠ aged s b.2 then aged s a.2
  else if aged s a.2 ∧ born a.2 ≠ born b.2 then decide (born a.2 < born b.2)
  else
    let x := queueCount a.2 * b.2.fill
    let y := queueCount b.2 * a.2.fill
    if x ≠ y then decide (y < x) else decide (a.1 < b.1)

def insertQueue (s : State) (q : Nat × EQueue) : List (Nat × EQueue) → List (Nat × EQueue)
  | [] => [q]
  | r :: t => if queueBefore s q r then q :: r :: t else r :: insertQueue s q t

/-- The ready queues of both dies in order. -/
def readyQueues (s : State) : List (Nat × EQueue) :=
  (s.easel.filter fun q => mayFire s q.2).foldl (fun l q => insertQueue s q l) []

/-- The template of a firing: its traffic class is the queue's PRIO, its level 2 is class P (R289, R296). -/
def firingRecord (e : EQueue) : CommRec :=
  let r := e.template.getD {}
  { r with tclass := e.prio, classes := r.classes.set 1 1 }

/-- Whether a core's plane slots last held the queue's source tag (R295). -/
def heldTag (s : State) (core : Nat) (e : EQueue) : Bool :=
  e.wbase != 0 && (getCore s core).tags.any fun t => t.2 == (e.ctx, e.wbase, e.wstride)

/-- Whether a core's instruction cache holds the line of an address of a context (R281, R295). -/
def holdsLine (s : State) (core ctx va : Nat) : Bool := (getCore s core).icache.contains (ctx, va / 128)

/-- The core that a firing takes (R295). -/
def firingCore (s : State) (e : EQueue) : Option Nat :=
  let r := firingRecord e
  let fit := (coresOf s r).filter fun c => roomFor s c (chargeOf r)
  if !slotsFree s e.ctx (if r.scratch = 0 then 0 else 1) then none
  else match fit.find? fun c => heldTag s c e with
    | some c => some c
    | none =>
      match fit.find? fun c => holdsLine s c e.ctx r.entry.toNat with
      | some c => some c
      | none => fit.head?

/-- The next firing: the first ready queue that can be placed, with its core. `top`: only queues of PRIO 0. -/
def nextFiring (s : State) (top : Bool) : Option (Nat × EQueue × Nat) :=
  (readyQueues s).findSome? fun q =>
    if top && q.2.prio != 0 then none else (firingCore s q.2).map fun c => (q.1, q.2, c)

/-- The bound of R298 for an entry, in cycles after its acceptance. -/
def deliveryBound (e : EQueue) (r : CommRec) (x : QEntry) : Nat :=
  e.age + (x.ahead / e.batch + 1) * (512 + 1050 * r.latency)

/-- Reports entries delivered later than the bound of R298. -/
def reportMisses (s : State) (q : Nat) (e : EQueue) (r : CommRec) (batch : List QEntry) : State :=
  if e.prio = 0 ∧ e.age ≠ 0 ∧ r.latency ≠ 0 then
    batch.foldl (fun t x =>
      if x.accepted ∧ deliveryBound e r x < s.cycle - x.born then report t (.easelMiss q (s.cycle - x.born)) else t) s
  else s

/-- Starts an expert task on the oldest entries of a queue (R294-R296). -/
def fire (s : State) (q : Nat) (e : EQueue) (core : Nat) : State :=
  let r := firingRecord e
  let (s1, batch) := takeEntries s q (min e.batch (queueCount e))
  let s2 := { reportMisses s1 q e r batch with easel := tabMod s1.easel q fun u => { u with firings := u.firings + 1 } }
  let cid := s2.fresh
  let c : Comm :=
    { tag := r.tag, rkey := (r.salt ++ r.rank : BitVec 64), tvbase := r.tvbase, tclass := r.tclass, ctx := e.ctx
      record := r, source := .easel q, order := cid * 2 ^ 32, batch := some (q, e.firings, batch) }
  makePanel { setComm s2 cid c with fresh := cid + 1 } cid c 0 core

/-- The commission that the distributor serves next: the first in the order of R247 whose next group can be placed. -/
def nextPlaced (s : State) : Option (Nat × Assign) :=
  (servedOrder s).findSome? fun c =>
    (placeNext s c.1 c.2 c.2.cursor).map fun a => (c.1, a)

/-- The requests of a PRIO 0 queue with a bound that fits no core (R295). -/
def firingRequests (s : State) : Option (Nat × List Nat × Nat) :=
  (readyQueues s).findSome? fun q =>
    let r := firingRecord q.2
    if q.2.prio = 0 ∧ r.latency ≠ 0 ∧ (firingCore s q.2).isNone then
      (victimsFor s (coresOf s r) (weakWork r) fun t => (firingCore t q.2).isSome).map fun ps => (q.1, ps, r.latency)
    else none

/-- A context whose ready queue is held back for want of a scratch-window slot (R308). -/
def firingHeld (s : State) : Option Nat :=
  ((readyQueues s).find? fun q => !slotsFree s q.2.ctx (if (firingRecord q.2).scratch = 0 then 0 else 1)).map fun q => q.2.ctx

/-- EASEL_FIRING: the Easel of a die fires its ready queue when that is the next of both dies; room goes to firings of
PRIO 0, then to groups, then to other firings (R295). -/
def execEaselFiring (die : Nat) (s : State) : Out :=
  .next (match nextFiring s (nextPlaced s).isSome with
    | some (q, e, core) => if q / 512 = die then fire s q e core else s
    | none =>
      match firingRequests s with
      | some (q, ps, l) => requestPanels s (.queue q) ps l
      | none => reportSlots s (firingHeld s))

/-! ## Task strokes (R281, R283) -/

/-- The TCBs of a core's queue that a forming stroke of a key takes, oldest first. -/
def insertTcb (t : Tcb) : List Tcb → List Tcb
  | [] => [t]
  | u :: l => if t.enq < u.enq then t :: u :: l else u :: insertTcb t l

def keyTasks (ts : List Tcb) (comm : Nat) (entry : VAddr) : List Tcb :=
  (ts.filter fun t => t.comm == comm && t.entry == entry).foldl (fun l t => insertTcb t l) []

/-- TASK_FORMING_TIMER: 512 cycles have passed since the ENQ of TCBs of the core. -/
def execTaskFormingTimer (core : Nat) (s : State) : Out :=
  let c := getCore s core
  .next (if c.tasks.any fun t => !t.ripe && decide (t.enq + 512 ≤ s.cycle) then
      setCore s core { c with tasks := c.tasks.map fun t => if t.enq + 512 ≤ s.cycle then { t with ripe := true } else t }
    else s)

/-- The charge of a task stroke (R283). -/
def taskCharge (r : CommRec) : Charge :=
  { regs := ceilDiv r.regfloor 8 * 32 * r.width, granules := ceilDiv r.taskscr 4096, lanes := r.width, entries := 1 }

/-- The forming strokes of a core that are eligible: their TCBs, by key. -/
def eligibleTasks (s : State) (core : Nat) : List (Nat × Comm × List Tcb) :=
  let ts := (getCore s core).tasks
  (ts.map fun t => (t.comm, t.entry)).eraseDups.filterMap fun k =>
    match getComm s k.1 with
    | none => none
    | some c =>
      let l := (keyTasks ts k.1 k.2).take c.record.width
      if (l.length == c.record.width || (l.head?).any fun t => t.ripe) && !c.paused && !c.ended then some (k.1, c, l) else none

/-- Whether one forming stroke starts before another: its entry's line is in the instruction cache, then the oldest
ENQ, then the lower COMM (R281). -/
def startsBefore (s : State) (core : Nat) (a b : Nat × Comm × List Tcb) : Bool :=
  let held := fun (e : Nat × Comm × List Tcb) => (e.2.2.head?).any fun t => holdsLine s core e.2.1.ctx t.entry.toNat
  let enq := fun (e : Nat × Comm × List Tcb) => (((e.2.2.head?).map fun t => t.enq).getD 0 : Nat)
  if held a ≠ held b then held a else decide (enq a < enq b) || (enq a == enq b && decide (a.1 < b.1))

/-- The eligible forming stroke that starts first. -/
def nextTasks (s : State) (core : Nat) : Option (Nat × Comm × List Tcb) :=
  ((eligibleTasks s core).filter fun e => roomFor s core (taskCharge e.2.1.record) && slotsFree s e.2.1.ctx 1).foldl
    (fun best e =>
      match best with
      | none => some e
      | some b => if startsBefore s core e b then some e else some b) none

/-- Starts a task stroke (R283): an acquire at `.die` for its lanes (R282). -/
def startTask (s : State) (core comm : Nat) (c : Comm) (ts : List Tcb) : State :=
  let r := c.record
  let cr := getCore s core
  let s0 := setCore s core { cr with tasks := ts.foldl (fun l t => l.erase t) cr.tasks }
  let bytes := ceilDiv r.taskscr 4096 * 4096
  let id := s0.fresh
  let (s1, va, gs) := allocScratch { s0 with fresh := id + 1 } c.ctx core bytes
  let n := ts.length
  let regs : Tab DWord := [(0, r.args), (1, BitVec.ofNat 64 va), (2, BitVec.ofNat 64 bytes), (3, BitVec.ofNat 64 n)]
  let arg := fun (j : Nat) => (List.range r.width).map fun l => ((ts[l]?).bind fun t => t.args[j]?).getD 0
  let k : Stroke :=
    { panel := id, idx := 0, width := r.width, populated := lanesBelow n, reserve := ceilDiv r.regfloor 8, task := true
      enq := ts.map (·.enq), vregs := (List.range 4).map fun j => (j, arg j) }
  let (s2, st) := addStroke s1 k ((ts.head?).elim 0 (·.entry)) regs c.priv core
  let p : Panel :=
    { comm := comm, ctx := c.ctx, core := core, idx := 2 ^ 32 - 1, strokes := [st], lvls := List.replicate 5 0xFFFFFFFF
      slotVA := va, slotBytes := bytes, granules := gs, classes := List.replicate 7 2, task := true }
  let s3 := { s2 with agents := tabMap (fun _ a => if a.stroke = st then { a with live := set192 [0, 1, 2, 3] } else a) s2.agents }
  acquireInvalidate (setPanel s3 id p) core

/-- TASK_STROKE_START: room goes to task strokes when no firing and no group can take it (R281, R295). -/
def execTaskStrokeStart (core : Nat) (s : State) : Out :=
  .next (if (nextFiring s false).isSome || (nextPlaced s).isSome then s
    else match nextTasks s core with
      | none => reportSlots s (((eligibleTasks s core).find? fun e => !slotsFree s e.2.1.ctx 1).map fun e => e.2.1.ctx)
      | some (comm, c, ts) => startTask s core comm c ts)

/-! ## Donation (R285) -/

/-- Whether no agent of a panel has issued: each still stands as R240 starts it. -/
def untouched (s : State) (id : Nat) (c : Comm) : Bool :=
  s.agents.all fun a => match getStroke s a.2.stroke with
    | some k => k.panel != id ||
        (a.2.run == .ready && a.2.waitFrom.isNone && !a.2.handler && a.2.pc == (if k.primer then c.record.access else c.record.entry))
    | none => true

/-- A panel that no stroke has issued from, alone in its group (R242), of class P at level 2, whose bound instances hold the
thief, and which fits there. -/
def donatable (s : State) (thief : Nat) (id : Nat) (p : Panel) : Bool :=
  match getComm s p.comm with
  | none => false
  | some c =>
    !p.task && p.mapped && p.req.isNone && !c.started.contains p.idx && lonePanel c.record p.idx &&
      classOf c.record 2 == 1 && (match c.source with
        | .easel _ => false
        | _ => true) &&
      boundOk c.record c.bound p.idx thief && eligible s c.record thief && roomFor s thief (chargeOf c.record) &&
      (s.strokes.all fun k => k.2.panel != id || !k.2.exited) && untouched s id c

def donatableTasks (s : State) (thief core : Nat) : List Tcb :=
  (getCore s core).tasks.filter fun t => (getComm s t.comm).any fun c => eligible s c.record thief && !c.ended

def donatablePanels (s : State) (thief core : Nat) : List (Nat × Panel) :=
  s.panels.filter fun p => p.2.core == core && donatable s thief p.1 p.2

/-- Distance of two cores of one die. -/
def coreDistance (a b : Nat) : Nat :=
  let d := fun x y => (x - y) + (y - x)
  d (a % 16) (b % 16) + d (a % 128 / 16) (b % 128 / 16)

/-- The nearest core of the thief's die that holds at least two donatable items, ties to the lower number. -/
def victimCore (s : State) (thief : Nat) : Option Nat :=
  let die := thief / 128
  ((List.range 128).map fun t => 128 * die + t).foldl (fun best c =>
    if c ≠ thief ∧ 2 ≤ (donatableTasks s thief c).length + (donatablePanels s thief c).length then
      match best with
      | none => some c
      | some b => if coreDistance thief c < coreDistance thief b then some c else some b
    else best) none

/-- Whether a core is idle (R285): no stroke of it is ready; the Primer is none (R195). -/
def coreIdle (s : State) (core : Nat) : Bool :=
  (s.agents.all fun a => match getStroke s a.2.stroke with
    | some k => !onCore s core k || k.primer || a.2.run != .ready
    | none => true) &&
  eligibleTasks s core = [] &&
  !((readyQueues s).any fun q => match firingCore s q.2 with
    | some c => c == core
    | none => eligible s (firingRecord q.2) core) &&
  s.comms.any fun c => eligible s c.2.record core && roomFor s core (taskCharge c.2.record)

/-- Moves an unstarted panel to another core: its charges, and its scratchpad under the same address, with its errors, where
accesses to it that are under way follow (logs 39, 118). -/
def movePanel (s : State) (id : Nat) (p : Panel) (core : Nat) : State :=
  let gs := freeGranules s core p.granules.length
  let s1 := (p.granules.zip gs).foldl (fun t e =>
    let t1 := zeroRange t (granulePa core e.2) 4096
    { t1 with
      mem := memWrite t1.mem (granulePa core e.2) (memRead t.mem (granulePa p.core e.1) 4096)
      badWords := t1.badWords ++ (t.badWords.filter fun w => decide (w / 4096 = granulePa p.core e.1 / 4096)).map fun w =>
        granulePa core e.2 + w % 4096 }) s
  let mv := (p.granules.zip gs).map fun e => (granulePa p.core e.1, granulePa core e.2)
  let s2 := setPanel (followMove s1 mv) id { p with core := core, granules := gs }
  p.strokes.foldl (fun t k =>
    match getStroke t k with
    | none => t
    | some st =>
      let c := getCore t core
      setStroke (setCore t core { c with admitted := c.admitted + 1 }) k { st with adm := c.admitted }) s2

/-- The key that holds the most unstarted TCBs, ties to the oldest ENQ, with its TCBs oldest first. -/
def largestKey (ts : List Tcb) : List Tcb :=
  (ts.map fun t => (t.comm, t.entry)).eraseDups.foldl (fun (best : List Tcb) k =>
    let l := keyTasks ts k.1 k.2
    let x : Nat := ((l.head?).map (·.enq)).getD 0
    let y : Nat := ((best.head?).map (·.enq)).getD 0
    if best.length < l.length ∨ (best.length = l.length ∧ x < y) then l else best) []

/-- How many of some TCBs a core's queue has room for (R278). -/
def shipRoom (s : State) (thief : Nat) : List Tcb → Nat
  | [] => 0
  | t :: l => if queueFull s thief t.ctx then 0 else shipRoom (pushTask s thief t) thief l + 1

/-- Ships the youngest half of a key's TCBs, at most W, and at most what the thief's queue takes. -/
def shipTasks (s : State) (victim thief : Nat) : State :=
  let l := largestKey (donatableTasks s thief victim)
  let w := ((l.head?).bind fun t => getComm s t.comm).elim 0 fun c => c.record.width
  let n := min (l.length / 2) w
  let n := min n (shipRoom s thief (l.drop (l.length - n)))
  let ship := l.drop (l.length - n)
  let v := getCore s victim
  let s1 := setCore s victim { v with tasks := ship.foldl (fun q t => q.erase t) v.tasks }
  let c := getCore s1 thief
  setCore s1 thief { c with tasks := c.tasks ++ ship }

/-- STEAL_REQUEST (R285): at most once every 256 cycles, by an idle core. -/
def execStealRequest (core : Nat) (s : State) : Out :=
  .next (if coreIdle s core ∧ ((getCore s core).lastSteal.all fun t => decide (t + 256 ≤ s.cycle)) then
    match victimCore s core with
    | none => s
    | some v =>
      let c := getCore s core
      let s1 := setCore s core { c with lastSteal := some s.cycle }
      match (donatablePanels s core v).foldl (fun (best : Option (Nat × Panel)) p =>
          match best with
          | none => some p
          | some b => if b.2.idx < p.2.idx then some p else some b) none with
      | some (id, p) => movePanel s1 id p core
      | none => shipTasks s1 v core
  else s)

end Sys2Proof.Machine
end

