-- ==== Sys2Proof/Machine/Launch.lean ====
section
/-! DEFINITION. How commissions arrive, are placed and retire; the time-triggered table and device time; starvation
(spec/13_commissions.md R239, R243-R254; spec/02_encoding.md R44; spec/15_tasks_easel.md R284, R295). -/

namespace Sys2Proof.Machine
open Sys2Proof

/-- Whether programs run: the device is READY and has not stopped itself (R353, R349). -/
def running (s : State) : Bool := s.juran.power == .ready && !s.juran.stopped

/-! ## Completion words (R247) -/

/-- The completion word: status, the byte offset of a refused record's field, TAG. -/
def completionWord (status off : Nat) (tag : Word) : Nat := status + 2 ^ 8 * off + 2 ^ 32 * tag.toNat

/-- Writes a completion word at DONE; where it cannot be written, an event is reported instead. -/
def writeCompletion (s : State) (ctx : Nat) (src : Source) (done : DWord) (tag : Word) (status off : Nat) : State :=
  let fail := fun (t : State) => report t (.noCompletion src tag.toNat)
  -- for a killed context no completion word is written (R314)
  if done = 0 ∨ (getCtx s ctx).any (fun c => c.killed.isSome) then s
  else if done.toNat % 8 ≠ 0 then fail s
  else match segsFor s ctx .w done.toNat 8 with
    | .error f => fail (countWalk s ctx f)
    | .ok g =>
      match reachOf s ctx true g with
      | .refused => fail s
      | .away => s
      | .here h =>
        match engineWrite s ctx h (bytesOf 8 (completionWord status off tag)) with
        | (s1, some _) => fail s1
        | (s1, none) => s1

/-! ## Launching a record (R239) -/

/-- The device with nothing placed, on which a group must fit. -/
def emptied (s : State) : State := settled { s with panels := [], strokes := [], agents := [], cores := [], saved := [] }

/-- Whether one admission group fits the empty eligible cores. -/
def groupFits (s : State) (r : CommRec) : Bool :=
  let g := (List.range (panelCount r)).filter (sameGroup r 0)
  (assignPanels (emptied s) 0 r g { cursor := r.core0, bound := [] }).isSome

/-- Launches a record of 256 bytes: refused, not fitting, or a new commission, whose number is given. `order`: its
place in the launch order, where it is not the next. -/
def launchRecord (s : State) (ctx priv : Nat) (src : Source) (bs : List Byte) (order : Option Nat) : State × Option Nat :=
  let tag := BitVec.ofNat 32 (recNat bs 76 4)
  let done := BitVec.ofNat 64 (recNat bs 80 8)
  match recordBad bs with
  | some off => (writeCompletion s ctx src done tag 1 off, none)
  | none =>
    let r := recordOf bs
    if !groupFits s r then (writeCompletion s ctx src done tag 2 0, none)
    else
      let id := s.fresh
      let c : Comm :=
        { tag := r.tag, rkey := (r.salt ++ r.rank : BitVec 64), tvbase := r.tvbase, tclass := r.tclass, ctx := ctx
          record := r, priv := priv, source := src, order := order.getD (id * 2 ^ 32)
          unplaced := List.range (panelCount r), cursor := r.core0 }
      ({ setComm s id c with fresh := id + 1 }, some id)

/-! ## Commission queues (R245, R246) -/

/-- Fields of a queue control block. The registered address is physical (log 14). -/
def qcbField (s : State) (q : CQueue) (o n : Nat) : Nat := ofBytes (memRead s.mem (q.reg.qcb.toNat + o) n)

/-- Writes a field of the block; one in a word with an uncorrectable error is refused and counted (R347). -/
def setQcb (s : State) (q : CQueue) (o n v : Nat) : State :=
  (engineWrite s q.reg.ctx [(q.reg.qcb.toNat + o, n)] (bytesOf n v)).1

/-- The word of the block that holds an uncorrectable error. -/
def qcbBad (s : State) (q : CQueue) : Option Nat := segsBad s [(q.reg.qcb.toNat, 64)]

/-- What the dispatcher finds at a queue: nothing to read, an error in its control block, a fault with its reason, its
address and the erroneous word it met, or a record. -/
inductive QueueHead where
  | idle
  | broken (pa : Nat)
  | fault (reason : Nat) (va met : Option Nat)
  | record (bs : List Byte)
deriving DecidableEq, Repr

/-- Why a unit of the device does not read: the reason of R246, and the erroneous word that it met. -/
abbrev ReadFault := Nat × Option Nat

/-- Bytes that the dispatcher reads as an acquire at `.pkg`, or why it does not. `k`: the free values that the same step
has used before, should another device hold them (log 12). -/
def dispatchRead (s : State) (ctx va n k : Nat) : Except ReadFault (List Byte) :=
  match segsFor s ctx .r va n with
  | .error f => .error (if f.1 = .dataerr then (3, some f.2.toNat) else (if f.1 = .perm then 2 else 1, none))
  | .ok g =>
    match reachOf s ctx false g with
    | .refused => .error (1, none)
    | .away => match awayAnswer s with
      | 1 => .error (1, none)
      | 2 => .error (3, none)
      | _ => .ok ((List.range n).map fun i => Config.freeValue 8 (s.freeN + k + i))
    | .here h =>
      match segsBad s h with
      | some w => .error (3, some w)
      | none => .ok (readSegs s.mem h)

/-- Whether another device has not answered the dispatcher's read yet (R217, log 12). -/
def readAwaited (s : State) (ctx va n : Nat) : Bool :=
  match segsFor s ctx .r va n with
  | .error _ => false
  | .ok g => reachOf s ctx false g == .away && awayAnswer s == 3

/-- The erroneous word of a read is counted and logged (R348). -/
def countRead (s : State) (ctx : Nat) (met : Option Nat) : State := met.elim s fun w => uncorrectable s w ctx

def queueHead (s : State) (q : CQueue) : QueueHead :=
  let f := qcbField s q
  match qcbBad s q with
  | some w => .broken w
  | none =>
    if f 12 1 ≠ 1 ∨ readAwaited s q.reg.ctx (f 16 8) 8 then .idle
    else match dispatchRead s q.reg.ctx (f 16 8) 8 0 with
      | .error r => .fault r.1 (some (f 16 8)) r.2
      | .ok ps =>
        let pidx := ofBytes ps
        let cidx := f 24 8
        if pidx ≤ cidx then .idle
        else if f 8 4 < pidx - cidx then .fault 4 none none
        else
          let va := f 0 8 + 256 * (cidx % f 8 4)
          if readAwaited s q.reg.ctx va 256 then .idle
          else match dispatchRead s q.reg.ctx va 256 8 with
          | .error r => .fault r.1 (some va) r.2
          | .ok bs => .record bs

/-- A queue enters FAULTED (R246). A reason without an address leaves FAULTVA undefined. -/
def faultQueue (s : State) (n : Nat) (q : CQueue) (reason : Nat) (va : Option Nat) : State :=
  let v := va.getD (Config.freeValue 64 s.freeN).toNat
  let s1 := setQcb (setQcb (setQcb s q 12 1 2) q 13 1 reason) q 32 8 v
  report { s1 with freeN := s.freeN + 1, cqueues := tabPut s1.cqueues n { q with reading := false, told := false } } (.queueFault n reason v)

/-- Traffic class of a queue's head record. -/
def headClass (bs : List Byte) : Nat := recNat bs 19 1 % 4

/-- Whether another queue's head launches before this one's: ascending traffic class, then queue number (R247). -/
def headBefore (s : State) (n : Nat) (bs : List Byte) : Bool :=
  s.cqueues.any fun q => q.1 != n && (getCtx s q.2.reg.ctx).any (fun c => c.killed.isNone) && match queueHead s q.2 with
    | .record b => decide (headClass b < headClass bs) || (headClass b == headClass bs && decide (q.1 < n))
    | _ => false

/-- COMMISSION_LAUNCH: the record at the head of a queue is read, checked and launched, and CIDX advances. -/
def execCommissionLaunch (n : Nat) (s : State) : Out :=
  .next (match tabGet s.cqueues n with
    | none => s
    | some q =>
      if !running s || !(getCtx s q.reg.ctx).any (fun c => c.killed.isNone) then s
      else match queueHead s q with
        | .idle => s
        | .broken w =>
          -- no field of the block can be used: the queue is not read until the word has been replaced (log 117)
          if q.told then s
          else report { uncorrectable s w q.reg.ctx with cqueues := tabPut s.cqueues n { q with told := true } } (.queueFault n 3 w)
        | .fault r va met => faultQueue (countRead s q.reg.ctx met) n q r va
        | .record bs =>
          if headBefore s n bs then s
          else
            let cidx := qcbField s q 24 8
            let s1 := (launchRecord { s with freeN := s.freeN + 264 } q.reg.ctx (if q.reg.super then 1 else 0) (.queue n) bs none).1
            setQcb { s1 with cqueues := tabPut s1.cqueues n { q with reading := false, told := false } } q 24 8 (cidx + 1))

/-! ## The time-triggered table (R248, R249) -/

/-- The limits of R248 on an entry's fields. -/
def entryOk (e : TTEntry) : Bool :=
  decide (1000 ≤ e.period) && decide (e.period ≤ 2 ^ 40) && decide (e.phase < e.period) && decide (e.policy < 3) &&
    decide (e.ctx < 4096)

/-- The last k whose T_k has been reached. -/
def lastDue (e : TTEntry) (now : Nat) : Int := ((now : Int) - e.phase) / e.period

def ttDue (s : State) (t : TTState) : Bool :=
  t.cfg.enable && entryOk t.cfg && decide (t.last < lastDue t.cfg (deviceTime s))

def skipMore (e : TTEntry) (n : Nat) : TTEntry := { e with skipped := min (e.skipped + n) (2 ^ 32 - 1) }

/-- The instance of an entry launched last, where it has not retired: the one that a due instance may find running
(R249; log 116). -/
def ttRunning (s : State) (t : TTState) : Option (Nat × Comm) :=
  t.inst.bind fun c => (getComm s c).map fun x => (c, x)

/-- Launches an instance of an entry. -/
def ttLaunch (s : State) (n : Nat) (t : TTState) (bs : List Byte) (order : Option Nat) : State :=
  let (s1, c) := launchRecord s t.cfg.ctx 0 (.table n) bs order
  { s1 with tt := tabPut s1.tt n { t with inst := c } }

/-- TT_INSTANCE_DUE: the last due time of an entry is taken; its record is read at that time. -/
def execTtInstanceDue (n : Nat) (s : State) : Out :=
  .next (match tabGet s.tt n with
    | none => s
    | some t =>
      if !running s || !ttDue s t || readAwaited s t.cfg.ctx t.cfg.record.toNat 256 then s
      else
        let k := lastDue t.cfg (deviceTime s)
        let t1 := { t with last := k, cfg := skipMore t.cfg (k - t.last - 1).toNat }
        -- a record of a context that is not live cannot be read (R314)
        let live := (getCtx s t.cfg.ctx).any fun c => c.killed.isNone
        let read := if t.cfg.record.toNat % 64 ≠ 0 ∨ !live then .error (1, none)
          else dispatchRead s t.cfg.ctx t.cfg.record.toNat 256 0
        match read with
        | .error r =>
          let s1 := countRead s t.cfg.ctx r.2
          report { s1 with tt := tabPut s1.tt n { t1 with cfg := { t1.cfg with enable := false } } } (.entryDisabled n)
        | .ok bs =>
          let s := { s with freeN := s.freeN + 256 }
          match ttRunning s t1 with
          | none => ttLaunch s n t1 bs none
          | some (c, x) =>
            match t.cfg.policy with
            | 0 => { s with tt := tabPut s.tt n { t1 with cfg := skipMore t1.cfg 1 } }
            | 1 =>
              if t1.pending.isSome then { s with tt := tabPut s.tt n { t1 with cfg := skipMore t1.cfg 1 } }
              else { s with tt := tabPut s.tt n { t1 with pending := some bs } }
            | _ =>
              -- the due instance is served before the running one, whose panels are requested under its own LATENCY
              let ps := (s.panels.filter fun p => p.2.comm == c).map (·.1)
              requestPanels (ttLaunch s n t1 bs (some (x.order - 1))) (.table n) ps x.record.latency)

/-- PTP_MESSAGE: from the port and in the domain that system software chose, device time is set, and runs on from there;
a step back delays the table to the first due time after it (R249, R250). -/
def execPtpMessage (m : PtpMsg) (s : State) : Out :=
  if s.juran.power ≠ .ready ∨ m.port ≠ s.juran.ptpPort ∨ m.domain ≠ s.juran.ptpDomain then .next s
  else
  let time := m.time
  let back := decide (time.toNat < deviceTime s)
  let s1 := { s with juran := { s.juran with ptpLocked := true, ptpBase := time.toNat, ptpCycle := s.cycle } }
  .next (if back then
      { s1 with tt := tabMap (fun _ t => if t.cfg.period = 0 then t else { t with last := lastDue t.cfg time.toNat }) s1.tt }
    else s1)

/-- PTP_SOURCE_UNLOCKED: device time runs on from the local oscillator, and the status bit says so (R250). -/
def execPtpSourceUnlocked (s : State) : Out := .next { s with juran := { s.juran with ptpLocked := false } }

/-- The tasks of a commission form strokes again once no panel of it is stopping or saved (R284). -/
def updatePaused (s : State) (comm : Nat) : State :=
  match getComm s comm with
  | none => s
  | some c =>
    if c.paused ∧ !(s.panels.any fun p => p.2.comm == comm && p.2.req.isSome) ∧ !(s.saved.any fun v => v.2.comm == comm) then
      setComm s comm { c with paused := false }
    else s

/-! ## Placement (R252, R254) -/

/-- The requests of the first class 0 commission with a bound whose next group cannot be placed (R254). -/
def placementRequests (s : State) (id : Nat) : Option (List Nat × Nat) :=
  match getComm s id with
  | none => none
  | some c =>
    if c.tclass = 0 ∧ c.record.latency ≠ 0 ∧ placing s c ∧ c.unplaced ≠ [] ∧ (placeNext s id c c.cursor).isNone then
      (victimsFor s (coresOf s c.record) (weakWork c.record) fun t => (placeNext t id c c.cursor).isSome).map fun ps => (ps, c.record.latency)
    else none

/-- Whether a group of a commission is held back for want of scratch-window slots (R308). -/
def groupHeld (s : State) (id : Nat) : Option Nat :=
  (getComm s id).bind fun c => if placing s c && nextGroup c != [] && !slotsFor s id c (nextGroup c) then some c.ctx else none

/-- PANEL_PLACEMENT: the commission's next group is placed when it is the commission served next and no firing of
PRIO 0 waits for room (R295); a class 0 commission with a bound that cannot be placed asks for room (R254). -/
def execPanelPlacement (comm : Nat) (s : State) : Out :=
  .next (if !running s || (nextFiring s true).isSome then s
    else match nextPlaced s with
      | some (id, a) => if id = comm then updatePaused (commitGroup s id a) id else s
      | none =>
        match placementRequests s comm with
        | some (ps, l) => requestPanels s (.commission comm) ps l
        | none => reportSlots s (groupHeld s comm))

/-! ## Retirement (R44, R247) -/

/-- Whether every stroke of a panel has exited and every engine operation that it issued has completed. -/
def panelDone (s : State) (id : Nat) (p : Panel) : Bool :=
  (p.strokes.all fun k => (getStroke s k).all fun q => q.exited) &&
  !(s.copies.any fun c => c.2.panel == id) && !(s.colls.any fun c => c.2.panel == id) &&
  !(s.deposits.any fun d => p.strokes.contains d.2.stroke) && !(s.fills.any fun f => p.strokes.contains f.2.stroke) &&
  !(s.setOps.any fun o => p.strokes.contains o.2.stroke)

/-- A save region without some areas. -/
def dropAreas (c : Ctx) (l : List (Nat × Nat)) : Ctx := { c with areas := l.foldl (fun t e => t.erase e) c.areas }

/-- Gives back an area. -/
def freeArea (s : State) (ctx : Nat) (a : Option (List (Nat × Nat))) : State :=
  match a, getCtx s ctx with
  | some l, some c => setCtx s ctx (dropAreas c l)
  | _, _ => s

/-- Removes a panel with its strokes, agents and claim, and the area that a request has taken for it; its pull bindings
end. -/
def dropPanel (s : State) (id : Nat) (p : Panel) : State :=
  let gone := (s.strokes.filter fun k => k.2.panel == id).map (·.1)
  let dead := (s.agents.filter fun a => gone.contains a.2.stroke).map (·.1)
  let s1 := withoutPanels (freeArea s p.ctx (p.req.bind (·.area))) [id]
  let s2 := { s1 with
    results := tabFilter (fun _ r => !dead.contains r.agent) s1.results
    images := tabFilter (fun _ r => !dead.contains r.agent) s1.images
    easel := tabMap (fun _ e => if (e.pull.map (·.1)) = some id then { e with pull := none } else e) s1.easel }
  let c := getCore s2 p.core
  if (c.matrix.map fun m => m.owner) = some id then setCore s2 p.core { c with matrix := none } else s2

/-- Firings of PRIO 0 take the freed room first, each on the core that it chooses, in the order of R293 (R295). -/
def fireTop (s : State) : Nat → State
  | 0 => s
  | fuel + 1 =>
    match nextFiring s true with
    | some (q, e, c) => fireTop (fire s q e c) fuel
    | none => s

/-- The refill of R252: the first commission whose next group can be placed from the freed core takes it. -/
def refill (s : State) (core : Nat) : State :=
  let take := (servedOrder s).findSome? fun c =>
    if !eligible s c.2.record core then none
    else match placeNext s c.1 c.2 core with
      | some a => if (a.done.head?).map (·.2) = some core then some (c.1, a) else none
      | none => none
  match take with
  | some (id, a) => updatePaused (commitGroup s id a) id
  | none => s

/-- A commission drains while a panel of it does (R333). -/
def updateDrain (s : State) (comm : Nat) : State :=
  match getComm s comm with
  | none => s
  | some c =>
    if c.drain ∧ !(s.panels.any fun p => p.2.comm == comm && (p.2.req.map (·.how)) == some .drain) then
      setComm s comm { c with drain := false }
    else s

/-- Whether two placed panels stand in one admission group; a task stroke's stands alone (R242, R284). -/
def oneGroup (s : State) (p q : Panel) : Bool :=
  !p.task && !q.task && p.comm == q.comm && (getComm s p.comm).any fun c => sameGroup c.record p.idx q.idx

/-- The event of a bound miss that a request owes when it has been met for the whole group (R333). -/
def owedMiss (s : State) (id : Nat) (p : Panel) : State :=
  match p.req with
  | some r => match r.miss with
    | some est =>
      if s.panels.any fun q => q.1 != id && oneGroup s p q.2 && (q.2.req.bind (·.miss)).isSome then s
      else report s (.boundMiss r.who id est (some (s.cycle - r.since)))
    | none => s
  | none => s

/-- PANEL_RETIRE: scratchpad, channels, claim and charges are released, and the freed core is offered (R44, R252). -/
def execPanelRetire (id : Nat) (s : State) : Out :=
  .next (match getPanel s id with
    | none => s
    | some p =>
      if panelDone s id p then
        let s1 := updatePaused (updateDrain (dropPanel (owedMiss s id p) id p) p.comm) p.comm
        if running s then refill (fireTop s1 1024) p.core else s1
      else s)

/-- Whether a commission may retire: every panel placed and retired, every task started and retired (R247, R284). -/
def commDone (s : State) (id : Nat) (c : Comm) : Bool :=
  c.unplaced.isEmpty && !(s.panels.any fun p => p.2.comm == id) && !(s.saved.any fun v => v.2.comm == id) &&
  !(s.cores.any fun k => k.2.tasks.any fun t => t.comm == id)

/-- Starts the pending instance of a table entry whose running one has retired (R249). -/
def startPending (s : State) (src : Source) : State :=
  match src with
  | .table n =>
    match tabGet s.tt n with
    | some t =>
      match t.pending, ttRunning s t with
      | some bs, none => ttLaunch s n { t with pending := none } bs none
      | _, _ => s
    | none => s
  | _ => s

/-- COMMISSION_RETIRE: the completion word is written, COMPLETED or ENDED (R247). -/
def execCommissionRetire (id : Nat) (s : State) : Out :=
  .next (match getComm s id with
    | none => s
    | some c =>
      if commDone s id c then
        let s1 := writeCompletion s c.ctx c.source c.record.done c.tag (if c.ended then 3 else 0) 0
        startPending { s1 with comms := tabDel s1.comms id } c.source
      else s)

/-! ## Starvation (R244, R332 step 1) -/

/-- The code of a wait that has a starvation timer. -/
def waitCode : WaitKind → Option Nat
  | .results => none
  | .streams _ => none
  | .answer => none
  | .bar => some 1
  | .waitf => some 2
  | .matrix => some 3
  | .coll => some 4
  | .chan => some 5
  | .waitc => some 6
  | .set => some 7
  | .ackFull => some 8
  | .reuse => some 9
  | .granule => some 10
  | .join => some 11
  | .ckpt => some 12

/-- The wait an agent is in, also while it tries again. -/
def waitOf (a : Agent) : Option Wait :=
  match a.run with
  | .parked w => some w
  | .blocked w => some w
  | .ready => a.waitFrom
  | _ => none

/-- Withdraws a wait: its arrival is taken back, and its instruction will be re-executed. -/
def withdrawWait (s : State) (aid : Nat) : State :=
  match getAgent s aid with
  | none => s
  | some a =>
    match getStroke s a.stroke with
    | none => s
    | some st =>
      let s1 := if a.barAt.isSome then barWithdraw s st.panel a.stroke else s
      let s2 := match getStroke s1 a.stroke with
        | some k =>
          let leave := fun (r : SplitRec) => { r with arrived := r.arrived.filter fun m => m != aid }
          setStroke s1 a.stroke { k with splits := tabMap (fun _ r => leave r) k.splits }
        | none => s1
      let core := (getPanel s2 st.panel).elim 0 (·.core)
      let s3 := if a.mmaAt then
          match (getCore s2 core).matrix with
          | some m =>
            let latch := m.latch.bind fun l =>
              let ms := l.2.filter fun e => e.agent != aid
              if ms = [] then none else some (l.1, ms)
            putMatrix s2 core { m with latch := latch }
          | none => s2
        else s2
      let mine := s3.setOps.filter fun o => o.2.agent == aid && o.2.holds
      let s4 := mine.foldl (fun t o => endReading t o.2.ctx o.1) { s3 with
        setOps := tabFilter (fun _ o => !(o.agent == aid && o.holds)) s3.setOps
        results := tabFilter (fun r _ => !mine.any fun o => o.2.result == some r) s3.results
        images := tabFilter (fun _ i => i.agent != aid) s3.images }
      match getAgent s4 aid with
      | none => s4
      | some b => setAgent s4 aid { b with
          run := .ready, waitFrom := none, barAt := none, mmaAt := false, waitf := none, setAt := none, tlbiAt := none }

/-- The record of an agent's commission. -/
def agentRecord (s : State) (a : Agent) : CommRec :=
  ((((getStroke s a.stroke).bind fun k => getPanel s k.panel).bind fun p => getComm s p.comm).map fun c => c.record).getD {}

/-- The wait that an agent is in; none while it tries again, since a wait that completes in the cycle of expiry
completes (R244). -/
def restingWait (a : Agent) : Option Wait :=
  match a.run with
  | .parked w => some w
  | .blocked w => some w
  | _ => none

/-- The wait code of an agent whose timer has expired. -/
def starving (s : State) (a : Agent) : Option (Nat × Wait) :=
  match restingWait a with
  | none => none
  | some w => (waitCode w.kind).bind fun c =>
      if 2 ^ (agentRecord s a).starvexp ≤ s.cycle - w.since then some (c, w) else none

/-- Whether the wait of an agent ends by a step of the device that is enabled now: in the cycle of expiry it completes
(R244). -/
def waitEnds (s : State) (aid : Nat) : Bool := waitfReady s aid || (acceptReady s aid).isSome

/-- The wait of an agent starts again now. -/
def restartWait (s : State) (aid : Nat) : State :=
  match getAgent s aid with
  | none => s
  | some a =>
    let again := fun (w : Wait) => { w with since := s.cycle }
    setAgent s aid { a with
      waitFrom := a.waitFrom.map again
      run := match a.run with
        | .parked w => .parked (again w)
        | .blocked w => .blocked (again w)
        | r => r }

/-- STARVATION_EXPIRY: an event; with STARVTRAP, outside a handler, STARVE at the parked instruction. -/
def execStarvationExpiry (aid : Nat) (s : State) : Out :=
  .next (match getAgent s aid with
    | none => s
    | some a =>
      match if waitEnds s aid then none else starving s a with
      | none => s
      | some (code, _) =>
        let (ctx, tag, panel, stroke) := agentPlace s a
        let s1 := report s (.starved ctx tag panel stroke code a.pc)
        if (agentRecord s a).starvtrap ∧ !a.handler then
          enterTrap (withdrawWait s1 aid) aid
            { cause := .starve, aux := BitVec.ofNat 64 code, lanes := a.em }
        else restartWait s1 aid)

end Sys2Proof.Machine
end

