-- ==== Sys2Proof/Machine/Area.lean ====
section
/-! DEFINITION. The context save area: how a panel's state is laid out in memory, and read back
(spec/17_traps.md R337-R339). -/

namespace Sys2Proof.Machine
open Sys2Proof

/-! ## Layout helpers -/

/-- `n` bytes, 0 but for fields: byte offset, length, value. -/
def layout (n : Nat) (fs : List (Nat × Nat × Nat)) : List Byte :=
  fs.foldl (fun bs f => bs.take f.1 ++ bytesOf f.2.1 f.2.2 ++ bs.drop (f.1 + f.2.1)) (List.replicate n 0)

/-- Pads to a multiple of 64 bytes. -/
def pad64 (bs : List Byte) : List Byte := bs ++ List.replicate ((64 - bs.length % 64) % 64) 0

/-- Areas in use by offset. -/
def insertArea (a : Nat × Nat) : List (Nat × Nat) → List (Nat × Nat)
  | [] => [a]
  | b :: t => if a.1 < b.1 then a :: b :: t else b :: insertArea a t

/-- The free runs of a region of `total` bytes from `off` on, between areas in order. -/
def freeRuns (total : Nat) : List (Nat × Nat) → Nat → List (Nat × Nat)
  | [], off => if off < total then [(off, total - off)] else []
  | (o, n) :: t, off => (if off < o then [(off, o - off)] else []) ++ freeRuns total t (max off (o + n))

/-- The first n bytes of runs. -/
def takeBytes : Nat → List (Nat × Nat) → List (Nat × Nat)
  | _, [] => []
  | n, (o, k) :: t => if n = 0 then [] else if n ≤ k then [(o, n)] else (o, k) :: takeBytes (n - k) t

/-- The pieces that n bytes from byte o on take of an area's. -/
def areaCut : List (Nat × Nat) → Nat → Nat → List (Nat × Nat)
  | [], _, _ => []
  | (a, k) :: t, o, n =>
    if n = 0 then [] else if k ≤ o then areaCut t (o - k) n
    else (a + o, min n (k - o)) :: areaCut t 0 (n - min n (k - o))

/-- Room for an area of n bytes in a context's save region, judged against its free bytes (R337): its lowest free run
that holds n bytes, else, unless it must be one run, the lowest free bytes (log 113). -/
def roomInRegion (c : Ctx) (n : Nat) (whole : Bool) : Option (List (Nat × Nat)) :=
  let runs := freeRuns (c.params.saveSize + c.extraSave) (c.areas.foldl (fun l a => insertArea a l) []) 0
  match runs.find? fun r => decide (n ≤ r.2) with
  | some r => some [(r.1, n)]
  | none => if !whole && decide (n ≤ (runs.map (·.2)).sum) then some (takeBytes n runs) else none

/-! ## Agent records (R338) -/

/-- STATUS of an agent, as SRD reads it. -/
def agentStatus (st : Stroke) (a : Agent) : Nat :=
  (if st.splitser then 1 else 0) + (if a.meld then 2 else 0) + (if a.frag then 4 else 0) + (if a.frames ≠ [] then 8 else 0)

def joinCode : JoinKind → Nat
  | .solo => 0 | .real => 1 | .serial => 2

/-- The address that a join-stack entry records, its own or its record's. -/
def entryAddr (st : Stroke) (e : JoinEntry) : Nat :=
  match e.kind with
  | .real => (((tabGet st.splits e.split).bind fun r => r.addr).map (·.toNat)).getD 0
  | _ => (e.addr.map (·.toNat)).getD 0

/-- Tokens held by a stroke. -/
def tokensHeld (st : Stroke) : Nat := natOfBits (fun t => tokenHeld st t) 8

/-- Where an agent resumes: a finished PREEMPT handler's resume PC, or its own. -/
def resumePc (a : Agent) : Nat :=
  match a.run with
  | .done pc => pc.toNat
  | _ => a.pc.toNat

/-- Whether an agent has executed PDONE. -/
def isDone (a : Agent) : Bool :=
  match a.run with
  | .done _ => true
  | _ => false

/-- An agent that stays stopped when it is restored: it double-faulted or halted (R325, R328), or it has executed PDONE,
and is saved as stopped at its resume PC (R334). -/
def staysStopped (a : Agent) : Bool := a.run == .stopped || a.run == .halted || isDone a

def isCkpt (a : Agent) : Bool :=
  match a.run with
  | .blocked w => w.kind == .ckpt
  | _ => false

def agentFlags (a : Agent) : Nat :=
  (if a.handler then 1 else 0) + (if a.meld then 2 else 0) + (if a.frag then 4 else 0) + (if staysStopped a then 8 else 0) +
    (if a.late.isSome then 16 else 0) + (if a.prePend then 32 else 0) + (if isCkpt a then 64 else 0)

/-- Two bits of path for each lane. -/
def lanePaths (a : Agent) : Nat :=
  (List.range 128).foldl (fun n l => n + pathOf a l * 4 ^ l) 0

def kFields (off : Nat) (k : Tab Mask) : List (Nat × Nat × Nat) :=
  (List.range 16).map fun i => (off + 16 * i, 16, (((tabGet k i).getD 0).toNat))

def sFields (off : Nat) (s : Tab DWord) : List (Nat × Nat × Nat) :=
  (List.range 63).map fun i => (off + 8 * i, 8, (((tabGet s i).getD 0).toNat))

def agentBytes (st : Stroke) (a : Agent) (order : Nat) : List Byte :=
  layout 1280
    ([(0, 8, resumePc a), (8, 8, agentStatus st a), (16, 16, a.lset.toNat), (32, 16, a.em.toNat)] ++
     kFields 48 a.k ++ sFields 304 a.s ++
     [(808, 8, st.fpst.toNat), (816, 8, st.sstat.toNat), (824, 8, st.ssbytes.toNat), (832, 4, a.rstep.toNat),
      (836, 4, st.gang.toNat), (840, 8, a.tcause.toNat), (848, 8, a.tpc.toNat), (856, 8, a.taddr.toNat),
      (864, 8, a.tlane0.toNat), (872, 8, a.tlane1.toNat), (880, 8, a.taux.toNat), (888, 1, agentFlags a),
      (889, 1, a.jstack.length), (890, 1, if a.frag then 0 else tokensHeld st), (891, 1, a.frames.length),
      (892, 1, st.idx), (893, 1, order)] ++
     ((List.range 16).flatMap fun j => (List.range 4).map fun q => (896 + 4 * j + q, 1, meldName a j q)) ++
     [(960, 32, lanePaths a), (992, 24, a.live.toNat)] ++
     ((List.range a.jstack.length).map fun i =>
       let e := (a.jstack[i]?).getD { tok := 0, kind := .solo }
       let fr := ((a.jstack.take i).filter fun x => x.frame).length
       (1024 + 8 * i, 8, e.tok % 8 + 8 * joinCode e.kind + 32 * (fr % 8) + 2 ^ 8 * (entryAddr st e / 8))) ++
     (match a.late with
      | some (t, n) => [(1152, 8, t.cause.code), (1160, 8, t.addr.toNat), (1168, 8, (lateTrap t n).aux.toNat)]
      | none => []))

def frameBytes (f : SerialFrame) : List Byte :=
  layout 1024
    (sFields 0 f.s ++ kFields 504 f.k ++ [(760, 4, f.rstep.toNat), (764, 4, f.idx)] ++
     ((List.range (min 8 f.groups.length)).flatMap fun i =>
       let g := (f.groups[i]?).getD (0, 0)
       [(768 + 24 * i, 16, g.1.toNat), (784 + 24 * i, 8, g.2.toNat)]))

/-- The Primer as its record shows it: it has no vector state (R338). -/
def scalarOnly (a : Agent) : Agent := { a with lset := 0, em := 0, live := 0, ptab := [], pathLo := 0, pathHi := 0 }

/-- The Primer's record. -/
def primerBytes (st : Stroke) (a : Agent) : List Byte := agentBytes st (scalarOnly a) 0

/-- An agent's record followed by its serial frames. -/
def agentRecordBytes (st : Stroke) (a : Agent) (order : Nat) : List Byte :=
  agentBytes st a order ++ a.frames.flatMap frameBytes

/-- Agents of a stroke, the root first, then fragments in creation order. -/
def insertAgent (g : Nat × Agent) : List (Nat × Agent) → List (Nat × Agent)
  | [] => [g]
  | h :: t => if g.2.order < h.2.order then g :: h :: t else h :: insertAgent g t

def orderedAgents (as : Tab Agent) (stroke : Nat) : List (Nat × Agent) :=
  (as.filter fun g => g.2.stroke == stroke && !g.2.primer).foldl (fun l g => insertAgent g l) []

/-- Names live in any view, ascending. -/
def liveNames (as : List (Nat × Agent)) : List Nat :=
  (List.range 192).filter fun n => as.any fun g => (g.2.live ||| frameViews g.2).getLsbD n

/-- A stroke's register image. -/
def strokeImage (st : Stroke) (names : List Nat) : List Byte :=
  names.flatMap fun n => (List.range st.width).flatMap fun l => bytesOf 4 (vLane st n l).toNat

/-- The records and the register image of one stroke. -/
def strokeBytes (as : Tab Agent) (id : Nat) (st : Stroke) : List Byte :=
  let gs := orderedAgents as id
  (gs.flatMap fun g => agentRecordBytes st g.2 g.2.order) ++ strokeImage st (liveNames gs)

/-! ## Channels (R337) -/

/-- Words of a held entry. -/
def entryBytes (w : Nat) (e : List DWord) : List Byte :=
  (List.range w).flatMap fun l => bytesOf 4 (((e[l]?).getD 0).toNat)

def chanBytes (ch : Chan) : List Byte :=
  let p := match ch.kind with
    | .ring => (ch.base, ch.slotBytes, ch.slots)
    | .port => (ch.queue, 0, 0)
    | .pull => (ch.queue, 0, 0)
    | .iter => (ch.set, (ch.nextKey.getD 0), 0)
    | .primer => (0, 0, 0)
  layout 32 [(0, 1, chanCode ch.kind), (1, 1, ch.ents.length), (8, 8, p.1), (16, 4, p.2.1), (20, 4, p.2.2),
    (24, 1, ch.nextSlot), (25, 1, ch.oldSlot), (26, 1, ch.slotsPopped), (27, 1, if ch.err then 1 else 0)]

def channelSection (w : Nat) (chans : Tab Chan) : List Byte :=
  ((List.range 128).flatMap fun c => match tabGet chans c with
    | some ch => chanBytes ch
    | none => List.replicate 32 0) ++
  chans.flatMap fun c => c.2.ents.flatMap (entryBytes w)

/-! ## Matrix state (R339) -/

def operandBytes (o : Option Operand) : List Byte :=
  match o with
  | none => List.replicate 16960 0
  | some o =>
    layout 64 [(0, 1, o.fmt), (1, 1, o.ks), (2, 1, 1 + (if o.err.isSome then 2 else 0)), (8, 8, o.err.getD 0),
      (16, 8, o.tagBase), (24, 4, o.tagStride), (28, 2, o.tagCtx)] ++
    (List.range 64).flatMap fun r =>
      let b := ((o.raw[r]?).getD []).take 264
      b ++ List.replicate (264 - b.length) 0

/-- Tiles that are saved: written, and named by the keep mask. -/
def savedTiles (m : Matrix) (keep : Nat) : List Nat :=
  (List.range 8).filter fun t => bitAt keep t && (tileOf m t).written

/-- The operands that the keep mask keeps. -/
def keptMatrix (m : Matrix) (keep : Nat) : Matrix :=
  { m with halves := if bitAt keep 8 then m.halves else []
           slots := if bitAt keep 9 then m.slots else []
           tiles := tabFilter (fun t _ => bitAt keep t) m.tiles
           latch := none }

def matrixSection (m : Matrix) (keep : Nat) : List Byte :=
  let k := keptMatrix m keep
  let loaded := natOfBits (fun i => if i < 2 then (tabGet k.halves i).isSome else (tabGet k.slots (i - 2)).isSome) 8
  layout 64 [(0, 1, natOfBits (fun t => (savedTiles m keep).contains t) 8), (1, 1, loaded)] ++
  ((List.range 2).flatMap fun i => operandBytes (tabGet k.halves i)) ++
  ((List.range 6).flatMap fun i => operandBytes (tabGet k.slots i)) ++
  (savedTiles m keep).flatMap fun t => tileImage (tileOf m t)

/-! ## The area -/

/-- The undelivered entries of an expert task. -/
def easelSection (chans : Tab Chan) : List Byte :=
  let es := chans.flatMap fun c => if c.2.kind = .port then c.2.batch else []
  bytesOf 8 es.length ++ es.flatMap fun e => e.bytes.take 32

/-- Raw bytes of a panel's scratchpad. -/
def scratchBytes (s : State) (p : Panel) : List Byte :=
  p.granules.flatMap fun g => memRead s.mem (granulePa p.core g) 4096

/-- What a save writes (R337): the mode, and whether the claim, the scratchpad's contents and the records are kept. -/
structure SavePlan where
  mode : Nat
  keep : Nat
  claim : Bool
  image : Bool
deriving DecidableEq, Repr

/-- Offsets of consecutive sections after the header, 0 for an absent one. -/
def sectionOffsets : Nat → List (List Byte) → List Nat
  | _, [] => []
  | at_, b :: t => (if b = [] then 0 else at_) :: sectionOffsets (at_ + (pad64 b).length) t

/-- The bytes of a save area. -/
def areaBytes (s : State) (id : Nat) (p : Panel) (pl : SavePlan) : List Byte :=
  let ks := p.strokes.filterMap fun k => (getStroke s k).bind fun st => if st.exited then none else some (k, st)
  let w := ((ks.head?).map fun k => k.2.width).getD 32
  let m := (getCore s p.core).matrix.bind fun m => if m.owner = id ∧ pl.claim then some m else none
  let primer := (p.primer.bind (getAgent s)).map fun a =>
    match getStroke s a.stroke with
    | some st => primerBytes st a
    | none => []
  let agents := (ks.map fun k => (orderedAgents s.agents k.1).length).sum
  let stopped := s.agents.any fun a => (ks.any (fun k => k.1 == a.2.stroke) || p.primer == some a.1) && staysStopped a.2
  let hasEasel := p.chans.any fun c => c.2.kind == .port
  let secs : List (List Byte) :=
    [p.barriers.flatMap (bytesOf 4), channelSection w p.chans, ks.flatMap fun k => strokeBytes s.agents k.1 k.2,
     primer.getD [], (m.map fun m => matrixSection m pl.keep).getD [], if pl.image then scratchBytes s p else [],
     if hasEasel then easelSection p.chans else []]
  let body := secs.flatMap pad64
  let offs := sectionOffsets 256 secs
  let head := layout 256
    ([(0, 4, 0x41535856), (4, 2, 1), (6, 1, pl.mode),
      (7, 1, (if m.isSome then 1 else 0) + (if pl.image then 2 else 0) + (if primer.isSome then 4 else 0) +
        (if hasEasel then 8 else 0) + (if stopped then 16 else 0)),
      (8, 8, 256 + body.length), (16, 2, p.ctx % 4096), (18, 1, p.strokes.length), (19, 1, agents),
      (20, 4, ((getComm s p.comm).map fun c => c.tag.toNat).getD 0), (24, 4, p.idx % 2 ^ 32), (28, 2, p.core),
      (30, 1, (m.map fun m => natOfBits (fun t => (savedTiles m pl.keep).contains t) 8).getD 0),
      (32, 8, p.slotVA), (40, 4, if pl.image then p.slotBytes else 0), (44, 4, p.barriers.length), (104, 8, s.cycle)] ++
     (List.range 7).map fun i => (48 + 8 * i, 8, (offs[i]?).getD 0))
  head ++ body

/-! ## Reading it back -/

def slice (bs : List Byte) (o n : Nat) : List Byte := (bs.drop o).take n

/-- MAGIC, VERSION, SIZE and the reserved bits of a header (R336, R337). -/
def headerKey (h : List Byte) : List Byte :=
  slice h 0 6 ++ [((h[7]?).getD 0) &&& 0xE0] ++ slice h 8 8 ++ [((h[17]?).getD 0) &&& 0xF0, (h[31]?).getD 0] ++ slice h 112 144

/-- Offset of section i, as the header that was written says. -/
def sectionAt (h : List Byte) (i : Nat) : Nat := recNat h (48 + 8 * i) 8

def readK (bs : List Byte) (off : Nat) : Tab Mask := (List.range 16).map fun i => (i, BitVec.ofNat 128 (recNat bs (off + 16 * i) 16))
def readS (bs : List Byte) (off : Nat) : Tab DWord := (List.range 63).map fun i => (i, BitVec.ofNat 64 (recNat bs (off + 8 * i) 8))

/-- Path bit h of each lane, from two bits a lane. -/
def readPaths (x h : Nat) : Mask := maskOf 128 fun l => bitAt x (2 * l + h)

/-- Whether n bytes from o on are as reserved fields are written. -/
def zeroAt (bs : List Byte) (o n : Nat) : Bool := (slice bs o n).all (· == 0)

/-- The reserved fields of an agent record and of its serial frames (R338). -/
def recordClean (bs : List Byte) (frames : Nat) : Bool :=
  decide (recNat bs 888 1 < 128) && zeroAt bs 894 2 && zeroAt bs 1016 8 && zeroAt bs 1176 104 &&
    (List.range frames).all fun i => zeroAt bs (1280 + 1024 * i + 960) 64

def readFrame (bs : List Byte) (f : SerialFrame) : SerialFrame :=
  { f with s := readS bs 0, k := readK bs 504, rstep := BitVec.ofNat 32 (recNat bs 760 4) }

/-- An agent from its record: its registers as the area holds them; its lanes, its stacks and what the layout has no
place for as the device holds them; TCAUSE keeps the fields of R47, whose privilege is 0 or 1 (log 34). -/
def readAgent (bs : List Byte) (a : Agent) : Agent :=
  let f := recNat bs
  let paths := f 960 32
  { a with
    pc := BitVec.ofNat 57 (f 0 8 / 8 * 8)
    em := BitVec.ofNat 128 (f 32 16) &&& laneSet a
    k := readK bs 48
    s := readS bs 304
    rstep := BitVec.ofNat 32 (f 832 4)
    tcause := BitVec.ofNat 64 (f 840 8) &&& 0xDFF, tpc := BitVec.ofNat 64 (f 848 8) &&& 0x01FFFFFFFFFFFFF8
    taddr := BitVec.ofNat 64 (f 856 8) &&& 0x01FFFFFFFFFFFFFF
    tlane0 := BitVec.ofNat 64 (f 864 8), tlane1 := BitVec.ofNat 64 (f 872 8), taux := BitVec.ofNat 64 (f 880 8)
    ptab := (List.range 16).map fun j => (j, (List.range 4).map fun q => f (896 + 4 * j + q) 1 % 192)
    pathLo := readPaths paths 0
    pathHi := readPaths paths 1
    frames := (List.range a.frames.length).filterMap fun i =>
      (a.frames[i]?).map fun fr => readFrame (slice bs (1280 + 1024 * i) 1024) fr
    run := if isDone a then .done (BitVec.ofNat 57 (f 0 8 / 8 * 8)) else if staysStopped a then a.run else .ready
    wake := if isCkpt a then some 1 else a.wake
    waitFrom := none }

/-- The Primer from its record: its vector state is the device's. -/
def readPrimer (bs : List Byte) (a : Agent) : Agent :=
  { readAgent bs a with em := a.em, ptab := a.ptab, pathLo := a.pathLo, pathHi := a.pathHi }

/-- Bytes that an agent's record takes. -/
def recordLen (a : Agent) : Nat := 1280 + 1024 * a.frames.length

/-- The agents of a stroke from consecutive records. -/
def readAgents : List (Nat × Agent) → List Byte → Tab Agent → Tab Agent
  | [], _, t => t
  | (i, a) :: l, bs, t => readAgents l (bs.drop (recordLen a)) (tabPut t i (readAgent bs a))

/-- Whether the records of agents hold zeros where nothing is listed. -/
def recordsClean : List (Nat × Agent) → List Byte → Bool
  | [], _ => true
  | (_, a) :: l, bs => recordClean bs a.frames.length && recordsClean l (bs.drop (recordLen a))

/-- A stroke's counters and registers from its first record and its register image. -/
def readStroke (bs image : List Byte) (st : Stroke) (names : List Nat) : Stroke :=
  let f := recNat bs
  { st with
    fpst := BitVec.ofNat 6 (f 808 8), sstat := BitVec.ofNat 64 (f 816 8) &&& 0x00000FFFFFFFFFFF, ssbytes := BitVec.ofNat 64 (f 824 8)
    gang := BitVec.ofNat 32 (f 836 4)
    splitser := bitAt (f 8 8) 0
    vregs := (List.range names.length).foldl (fun t i =>
      tabPut t ((names[i]?).getD 0) ((List.range st.width).map fun l =>
        BitVec.ofNat 32 (recNat image (4 * (st.width * i + l)) 4))) st.vregs }

/-- Every stroke with its agents, section by section. -/
def readStrokes (as : Tab Agent) : List (Nat × Stroke) → List Byte → Tab Stroke × Tab Agent → Tab Stroke × Tab Agent
  | [], _, r => r
  | (k, st) :: t, bs, r =>
    if st.exited || st.primer then readStrokes as t bs (tabPut r.1 k st, r.2)
    else
      let gs := orderedAgents as k
      let n := (gs.map fun g => recordLen g.2).sum
      let names := liveNames gs
      readStrokes as t (bs.drop (n + 4 * st.width * names.length))
        (tabPut r.1 k (readStroke bs (bs.drop n) st names), readAgents gs bs r.2)

/-- The same of the records of every stroke. -/
def strokesClean (as : Tab Agent) : List (Nat × Stroke) → List Byte → Bool
  | [], _ => true
  | (k, st) :: t, bs =>
    if st.exited || st.primer then strokesClean as t bs
    else
      let gs := orderedAgents as k
      recordsClean gs bs &&
        strokesClean as t (bs.drop ((gs.map fun g => recordLen g.2).sum + 4 * st.width * (liveNames gs).length))

/-- A channel with its held entries from the section. A ring's 64-bit addresses keep their upper words. -/
def readChan (w : Nat) (d ents : List Byte) (ch : Chan) : Chan :=
  let f := recNat d
  let word := fun (i l : Nat) => recNat ents (4 * (w * i + l)) 4
  let c1 := match ch.kind with
    | .ring => { ch with base := f 8 8, slotBytes := f 16 4, slots := f 20 4 }
    | .iter => { ch with set := f 8 8, nextKey := ch.nextKey.map fun _ => f 16 4 }
    | _ => ch
  { c1 with ents := (List.range ch.ents.length).map fun i =>
      (List.range w).map fun l =>
        BitVec.ofNat 64 ((((ch.ents[i]?).getD [])[l]?.getD 0).toNat / 2 ^ 32 * 2 ^ 32 + word i l) }

def readChans (w : Nat) (sec : List Byte) : List (Nat × Chan) → List Byte → Tab Chan → Tab Chan
  | [], _, t => t
  | (c, ch) :: l, ents, t =>
    readChans w sec l (ents.drop (4 * w * ch.ents.length)) (tabPut t c (readChan w (slice sec (32 * c) 32) ents ch))

/-- Entries of an Easel batch from their 32 bytes each (R288, R337). -/
def readBatch (bs : List Byte) (es : List QEntry) : List QEntry :=
  (List.range es.length).filterMap fun i => (es[i]?).map fun e => { e with bytes := slice bs (32 * i) 32 ++ e.bytes.drop 32 }

/-- The undelivered entries of the ports, in order, from the Easel section. -/
def readEasel : List (Nat × Chan) → List Byte → Tab Chan → Tab Chan
  | [], _, t => t
  | (c, ch) :: l, bs, t =>
    if ch.kind = .port then readEasel l (bs.drop (32 * ch.batch.length)) (tabMod t c fun q => { q with batch := readBatch bs ch.batch })
    else readEasel l bs t

/-- The reserved fields of the channel descriptors and of the matrix section (R337, R339). -/
def descriptorsClean (sec : List Byte) : Bool :=
  (List.range 128).all fun c => zeroAt sec (32 * c + 2) 6 && zeroAt sec (32 * c + 28) 4

/-- The same of a tile image: of its status word and the bytes after it (R113, R127). -/
def tileClean (bs : List Byte) : Bool :=
  decide (recNat bs 0 8 < 2 ^ 22) && bitsAt (recNat bs 0 8) 7 4 == 0 && zeroAt bs 8 56

/-- The same of the matrix section with its `tiles` tile images. -/
def matrixClean (sec : List Byte) (tiles : Nat) : Bool :=
  ((List.range tiles).all fun i => tileClean (slice sec (64 + 16960 * 8 + imageBytes * i) imageBytes)) &&
  zeroAt sec 2 62 && (List.range 8).all fun i =>
    decide (recNat sec (64 + 16960 * i + 2) 1 < 4) && zeroAt sec (64 + 16960 * i + 3) 5 && zeroAt sec (64 + 16960 * i + 30) 34

/-- An operand recoded from its stored rows. -/
def readOperand (bs : List Byte) (o : Operand) : Operand :=
  let raw := (List.range 64).map fun r => slice bs (64 + 264 * r) (rowBytes o.fmt o.ks)
  let v := raw.map (rowValues o.fmt o.ks)
  { o with raw := raw, rows := v.map (·.1), scales := v.map (·.2.1) }

/-- Matrix state from its section: the operands and the tiles saved. -/
def readMatrix (sec : List Byte) (m : Matrix) (keep : Nat) : Matrix :=
  let k := keptMatrix m keep
  let tiles := savedTiles m keep
  { k with
    halves := tabMap (fun i o => readOperand (slice sec (64 + 16960 * i) 16960) o) k.halves
    slots := tabMap (fun i o => readOperand (slice sec (64 + 16960 * (2 + i)) 16960) o) k.slots
    tiles := (List.range tiles.length).foldl (fun t i =>
      let n := (tiles[i]?).getD 0
      let bs := slice sec (64 + 16960 * 8 + imageBytes * i) imageBytes
      -- an error of the tile storage comes back with the tile (R347)
      tabPut t n (((tileOfImage bs).map fun u => { u with bad := (tileOf m n).bad }).getD (tileOf m n))) k.tiles }

end Sys2Proof.Machine
end

