-- ==== Sys2Proof/Machine/Preempt.lean ====
section
/-! DEFINITION. Pre-emption: requests, how they are met, saving and restoring panels (spec/17_traps.md R331-R336;
spec/01_machine.md R19; spec/15_tasks_easel.md R284). -/

namespace Sys2Proof.Machine
open Sys2Proof

/-! ## Stopping (R332) -/

/-- How a request is met once its panels no longer issue. -/
def PreHow.freezes : PreHow → Bool
  | .save => true | .flush => true | .expired => true | .drain => false | .handler => false | .ckpt => false

/-- The placed panels of the admission group of a panel; a task stroke's panel stands alone. -/
def groupPanels (s : State) (id : Nat) (p : Panel) : List (Nat × Panel) :=
  if p.task then [(id, p)]
  else match getComm s p.comm with
    | none => [(id, p)]
    | some c => s.panels.filter fun q => q.2.comm == p.comm && !q.2.task && sameGroup c.record p.idx q.2.idx

/-- Execute agents of a panel. -/
def panelAgents (s : State) (id : Nat) : List (Nat × Agent) :=
  s.agents.filter fun a => !a.2.primer && (getStroke s a.2.stroke).any fun k => k.panel == id

/-- Strokes of a panel and its Primer's counters. -/
def panelStrokes (s : State) (id : Nat) : List Nat := (s.strokes.filter fun k => k.2.panel == id).map (·.1)

/-- Stops an agent at an instruction boundary: its wait is withdrawn, but for a set instruction already accepted,
which completes (R332 steps 1 and 3). -/
def stopAgent (s : State) (aid : Nat) : State :=
  match getAgent s aid with
  | none => s
  | some a =>
    let s1 := match a.run with
      | .parked _ => withdrawWait s aid
      | .blocked w => if w.kind = .set ∧ a.setAt.isNone then s else withdrawWait s aid
      | .ready => if a.waitFrom.isSome then withdrawWait s aid else s
      | _ => s
    match getAgent s1 aid with
    | none => s1
    | some b => setAgent s1 aid { b with owed := none }

/-- Stops every agent of a panel and its Primer. -/
def stopPanel (s : State) (id : Nat) : State :=
  let ks := panelStrokes s id
  ((s.agents.filter fun a => ks.contains a.2.stroke).map (·.1)).foldl stopAgent s

/-- Whether every live agent of the panels has met a condition, and there is one. -/
def allAgents (s : State) (g : List (Nat × Panel)) (f : Agent → Bool) : Bool :=
  let as := g.flatMap fun p => panelAgents s p.1
  !as.isEmpty && as.all fun a => f a.2

/-- Whether panels of a panel's admission group, saved at a bound's expiry, have still to be restored: the user handlers
of the group end together (R334). -/
def groupAway (s : State) (p : Panel) : Bool :=
  !p.task && s.saved.any fun v => v.2.mode == 3 && v.2.comm == p.comm && !v.2.task &&
    (getComm s p.comm).any fun c => sameGroup c.record p.idx v.2.idx

/-- Whether a request has stopped its group: by itself, or because every live agent has executed PDONE, or stands at a
CKPT, or has stood there when the save began (R334, R335). -/
def frozen (s : State) (id : Nat) (p : Panel) : Bool :=
  match p.req with
  | none => false
  | some r => r.how.freezes ||
    (r.how == .handler && allAgents s (groupPanels s id p) isDone && !groupAway s p) ||
    (r.how == .ckpt && (r.keep.isSome || allAgents s (groupPanels s id p) isCkpt))

/-- Whether a range of addresses has a byte in a panel's scratchpad. -/
def inSlot (p : Panel) (va n : Nat) : Bool := decide (va < p.slotVA + p.slotBytes) && decide (p.slotVA < va + n)

/-- A copy with a destination in its panel's scratchpad: a load, or one of `.out` or an MCAST that names it. -/
def toScratch (p : Panel) (c : Copy) : Bool :=
  if c.mcast then c.dests.any fun d => inSlot p d c.bytes
  else !c.out || (List.range (layCount c.lay)).any fun i => (elemAddr c.lay i).any fun a => inSlot p a (layElem c.lay.fmt)

def collToScratch (p : Panel) (c : Coll) : Bool := decide (p.slotVA ≤ c.dst) && decide (c.dst < p.slotVA + p.slotBytes)

/-- Whether nothing that R332 steps 2 to 4 wait for is left of a panel, and no access of another panel that was issued
while the slot was mapped is still to be performed in it: it would find other bytes there (R196, R201; log 135). -/
def panelQuiet (s : State) (id : Nat) (p : Panel) : Bool :=
  let ks := panelStrokes s id
  let as := (s.agents.filter fun a => ks.contains a.2.stroke).map (·.1)
  !(s.results.any fun r => as.contains r.2.agent) && !(s.packets.any fun q => ks.contains q.2.stroke) &&
  !(s.ackq.any fun a => ks.contains a.2.stroke) && !(s.setOps.any fun o => ks.contains o.2.stroke) &&
  !(s.fills.any fun f => ks.contains f.2.stroke) && !(s.deposits.any fun d => ks.contains d.2.stroke) &&
  (ks.all fun k => (getStroke s k).all fun q => q.acks.all fun a => a.2 == 0) &&
  !(s.copies.any fun c => c.2.panel == id && toScratch p c.2) && !(s.colls.any fun c => c.2.panel == id && collToScratch p c.2) &&
  (granulesNamed s p.core).all fun g => !p.granules.contains g

/-! ## Choosing an option (R333) -/

/-- Q of a panel. -/
def queuedCost (s : State) (id : Nat) (p : Panel) : Nat :=
  let ks := panelStrokes s id
  let writes := (s.packets.filter fun q => ks.contains q.2.stroke).foldl (fun n q => n + (q.2.parts.map (·.bytes.length)).sum) 0
  let copies := (s.copies.filter fun c => c.2.panel == id && toScratch p c.2).foldl
    (fun n c => n + (c.2.bytes - 512 * (c.2.done.length + c.2.failed.length))) 0
  ceilDiv (writes + copies) 64

/-- What a hardware save of a panel writes. -/
def fullPlan (p : Panel) (mode : Nat) : SavePlan := { mode := mode, keep := 0x7FF, claim := true, image := p.slotBytes != 0 }

def areaSize (s : State) (id : Nat) (p : Panel) : Nat := (areaBytes s id p (fullPlan p 0)).length

/-- Takes areas of the given sizes from a context's save region, in order. -/
def takeAreas (whole : Bool) : List Nat → Ctx → Option (Ctx × List (List (Nat × Nat)))
  | [], c => some (c, [])
  | n :: t, c =>
    match roomInRegion c n whole with
    | none => none
    | some a =>
      match takeAreas whole t { c with areas := c.areas ++ a } with
      | none => none
      | some (c1, l) => some (c1, a :: l)

def maxOf (l : List Nat) : Nat := l.foldl max 0

/-- Cycles that a panel's hint leaves. -/
def hintLeft (s : State) (p : Panel) : Nat := (p.hint.map fun h => h.1 - (s.cycle - h.2)).getD 0

/-- The candidates of a group with their estimates: drain, save, flush. -/
def options (s : State) (g : List (Nat × Panel)) (c : Comm) : List (PreHow × Nat) :=
  let q := fun (p : Nat × Panel) => queuedCost s p.1 p.2
  let room := (getCtx s c.ctx).any fun x => (takeAreas false (g.map fun p => areaSize s p.1 p.2) x).isSome
  (if g.all fun p => p.2.hint.isSome then [(.drain, maxOf (g.map fun p => hintLeft s p.2 + q p))] else []) ++
  (if room then [(.save, maxOf (g.map fun p => q p + 1024 + ceilDiv (areaSize s p.1 p.2) 256))] else []) ++
  (if c.record.restart && g.all fun p => !p.2.task then [(.flush, maxOf (g.map fun p => q p + 256))] else [])

def cheapest (l : List (PreHow × Nat)) : Option (PreHow × Nat) :=
  l.foldl (fun b x => match b with
    | none => some x
    | some y => if x.2 < y.2 then some x else some y) none

/-- The option taken, its estimate, and whether it misses the bound. -/
def chooseOption (l : List (PreHow × Nat)) (bound : Option Nat) : Option (PreHow × Nat × Bool) :=
  match cheapest (l.filter fun x => bound.all fun b => decide (x.2 ≤ b)) with
  | some (h, e) => some (h, e, false)
  | none => (cheapest l).map fun x => (x.1, x.2, true)

/-! ## Requests (R331, R333-R335) -/

/-- Bytes of the areas of a group's panels. -/
def groupSizes (s : State) (g : List (Nat × Panel)) : List Nat := g.map fun p => areaSize s p.1 p.2

def putReq (s : State) (id : Nat) (r : PreReq) : State :=
  match getPanel s id with
  | none => s
  | some p => setPanel s id { p with req := some r }

def putReqs (s : State) (g : List (Nat × Panel)) (r : PreReq) : State := g.foldl (fun t p => putReq t p.1 r) s

/-- An agent that a request which found no room has stopped goes on: behind its PDONE at its resume PC, or at its CKPT,
which then writes 0. -/
def goOn (a : Agent) : Agent :=
  let b := match a.run with
    | .done pc => { returnFrom a with pc := pc, run := .ready }
    | .blocked _ => if isCkpt a then { a with run := .ready, waitFrom := none } else a
    | _ => a
  { b with prePend := false }

def goOnPanels (s : State) (g : List (Nat × Panel)) : State :=
  { s with agents := tabMap (fun _ a =>
      if g.any fun p => (getStroke s a.stroke).any fun k => k.panel == p.1 then goOn a else a) s.agents }

/-- Takes the areas of a group's panels, and puts their request with them: a save begins (R337). -/
def giveAreas (s : State) (g : List (Nat × Panel)) (ctx : Nat) (whole : Bool) (sizes : List Nat) (r : PreReq) : Option State :=
  (getCtx s ctx).bind fun c => (takeAreas whole sizes c).map fun x =>
    (g.zip x.2).foldl (fun t e => putReq t e.1.1 { r with area := some e.2 }) (setCtx s ctx x.1)

/-- Gives back the areas that a group's requests have taken. -/
def freeAreas (s : State) (g : List (Nat × Panel)) : State :=
  g.foldl (fun t q => freeArea t q.2.ctx (q.2.req.bind (·.area))) s

/-- The fallback of R333: the group drains, with a bound miss and a save-region event. -/
def drainFallback (s : State) (g : List (Nat × Panel)) (comm ctx : Nat) (r : PreReq) (bytes : Nat) : State :=
  let s1 := goOnPanels (putReqs (freeAreas s g) g { r with how := .drain, miss := some 0xFFFFFFFF, area := none, keep := none }) g
  let s2 := match getComm s1 comm with
    | none => s1
    | some c => setComm s1 comm { c with drain := true }
  let head := (g.head?).elim 0 (·.1)
  report (report s2 (.boundMiss r.who head 0xFFFFFFFF none)) (.saveRegion ctx bytes)

/-- Bytes that the areas of a group take. -/
def groupBytes (s : State) (g : List (Nat × Panel)) : Nat := (groupSizes s g).sum

/-- Hardware-chosen mode. -/
def requestHardware (s : State) (g : List (Nat × Panel)) (comm : Nat) (c : Comm) (r : PreReq) (bound : Option Nat) : State :=
  match chooseOption (options s g c) bound with
  | none => drainFallback s g comm c.ctx r (groupBytes s g)
  | some (how, est, miss) =>
    let q := { r with how := how, miss := if miss then some est else none }
    let s1 := if miss then report s (.boundMiss r.who ((g.head?).elim 0 (·.1)) est none) else s
    match how with
    | .drain => setComm (putReqs s1 g q) comm { c with drain := true }
    | .save => (g.map (·.1)).foldl stopPanel ((giveAreas s1 g c.ctx false (groupSizes s g) q).getD (putReqs s1 g q))
    | _ => (g.map (·.1)).foldl stopPanel (putReqs s1 g q)

/-- PREEMPT becomes pending for an agent; outside a handler its wait is withdrawn. -/
def pendAgent (s : State) (aid : Nat) : State :=
  match getAgent s aid with
  | none => s
  | some a =>
    let s1 := if a.handler then s else stopAgent s aid
    match getAgent s1 aid with
    | none => s1
    | some b => setAgent s1 aid { b with prePend := true }

/-- User-handler mode: each panel is given its area, and every agent takes PREEMPT. -/
def requestHandler (s : State) (g : List (Nat × Panel)) (comm : Nat) (c : Comm) (r : PreReq) : State :=
  match giveAreas s g c.ctx true (groupSizes s g) { r with how := .handler } with
  | none => drainFallback s g comm c.ctx r (groupBytes s g)
  | some t => (g.flatMap fun p => (panelAgents s p.1).map (·.1)).foldl pendAgent t

/-- A request for a group that has none. -/
def requestGroup (s : State) (who : Requester) (g : List (Nat × Panel)) (comm : Nat) (bound : Option Nat) : State :=
  match getComm s comm with
  | none => s
  | some c =>
    let r : PreReq := { deadline := bound.map fun b => s.cycle + b, since := s.cycle, how := .save, who := who }
    match c.record.pmode with
    | 0 => requestHardware s g comm c r bound
    | 1 => requestHandler s g comm c r
    | _ => putReqs s g { r with how := .ckpt }

def tighter (a : Option Nat) (b : Option Nat) : Option Nat :=
  match a, b with
  | some x, some y => some (min x y)
  | some x, none => some x
  | none, y => y

/-- A request that merges into one pending: the tighter bound stands. -/
def mergeGroup (s : State) (g : List (Nat × Panel)) (bound : Option Nat) : State :=
  g.foldl (fun t p => match p.2.req with
    | none => t
    | some r => putReq t p.1 { r with deadline := tighter r.deadline (bound.map fun b => s.cycle + b) }) s

/-- Panels of class W at level 1 on a core. -/
def isClassW (p : Panel) : Bool := (p.classes.head?) == some 2

/-- The youngest class W panel of a core, of those that stand alone in their groups (R242), where all class W strokes of
the core are parked and an agent waits there for a granule (R19). A request that does not stop it is no reason to pass it
over. -/
def pressurePanel (s : State) (core : Nat) : Option (Nat × Panel) :=
  let on := fun (a : Agent) => (getStroke s a.stroke).any fun k => onCore s core k
  let ws := s.panels.filter fun p => p.2.core == core && p.2.mapped && isClassW p.2
  let alone := ws.filter fun p => mayYield s p.2 true
  let waits := s.agents.any fun a => on a.2 && (waitOf a.2).any fun w => w.kind == .granule
  let parked := ws.all fun p => (panelAgents s p.1).all fun a => a.2.run != .ready
  if waits && parked && !(ws.any fun p => frozen s p.1 p.2) then alone.getLast? else none

/-- The last issues of the agents of a core's class W panels: they stay as they are while all of them are parked. -/
def pressKey (s : State) (core : Nat) : List Nat :=
  (s.panels.filter fun p => p.2.core == core && isClassW p.2).flatMap fun p => (panelAgents s p.1).flatMap fun a => [a.1, a.2.lastIssue]

/-- The request of R19's save: without a bound, or the one already pending, which now saves. -/
def pressureReq (s : State) (p : Panel) : PreReq :=
  match p.req with
  | some r => { r with how := .save, area := none }
  | none => { deadline := none, since := s.cycle, how := .save, who := .pressure }

/-- The save of R19: the panel's group is saved by hardware; without room nothing is saved. -/
def pressureSave (s : State) (id : Nat) (p : Panel) : State :=
  let g := groupPanels s id p
  let s1 := freeAreas s g
  match giveAreas s1 g p.ctx false (groupSizes s1 g) (pressureReq s p) with
  | some t => updateDrain ((g.map (·.1)).foldl stopPanel t) p.comm
  | none =>
    -- once for each time that all of them have parked
    if p.pressTold = pressKey s p.core then s
    else report (setPanel s id { p with pressTold := pressKey s p.core }) (.saveRegion p.ctx (groupBytes s g))

/-- A request on a group reaches the running task strokes of its commission, whose queued tasks stay queued (R284). -/
def requestTasks (s : State) (who : Requester) (comm : Nat) (bound : Option Nat) : State :=
  match getComm s comm with
  | none => s
  | some c =>
    ((s.panels.filter fun p => p.2.comm == comm && p.2.task && p.2.req.isNone).map (·.1)).foldl (fun t i =>
      match getPanel t i with
      | none => t
      | some p => requestGroup t who [(i, p)] comm bound) (setComm s comm { c with paused := true })

/-- PREEMPT_REQUEST (R331). A latency of 0 is no bound; a panel that is saved takes no second request. -/
def execPreemptRequest (who : Requester) (id latency : Nat) (s : State) : Out :=
  .next (match getPanel s id with
    | none => s
    | some p =>
      let bound := if latency = 0 ∨ who = .pressure then none else some (1050 * latency)
      if who = .pressure then
        if (pressurePanel s p.core).map (·.1) = some id then pressureSave s id p else s
      else if p.req.isSome then mergeGroup s (groupPanels s id p) bound
      else
        let s1 := requestGroup s who (groupPanels s id p) p.comm bound
        if p.task then s1 else requestTasks s1 who p.comm bound)

/-! ## Saving (R332, R334, R335) -/

/-- Index into the list of unplaced panels. -/
def insertIdx (i : Nat) : List Nat → List Nat
  | [] => [i]
  | j :: t => if i ≤ j then (if i = j then j :: t else i :: j :: t) else j :: insertIdx i t

/-- The packed source of `.out` copies is held by the device from here on. -/
def holdImages (s : State) (id : Nat) (p : Panel) : State :=
  { s with copies := tabMap (fun _ c =>
      if c.panel = id ∧ c.out ∧ c.image.isNone then
        let at_ := fun (o : Nat) => scratchPa p (c.packed - p.slotVA + o)
        { c with image := some ((List.range c.bytes).map fun o => memGet s.mem (at_ o))
                 imageBad := if s.badWords = [] then [] else
                   (List.range c.bytes).filterMap fun o => (segsBad s [(at_ o, 1)]).map fun w => (o, w) }
      else c) s.copies }

/-- Takes a panel off its core: its strokes, agents, charges and claim; its pull binding stays with it. -/
def liftPanel (s : State) (id : Nat) (p : Panel) : State :=
  let s1 := withoutPanels (holdImages s id p) [id]
  let c := getCore s1 p.core
  if (c.matrix.map fun m => m.owner) = some id then setCore s1 p.core { c with matrix := none } else s1

/-- A panel's index becomes unplaced again. -/
def unplace (s : State) (p : Panel) (started : Bool) : State :=
  if p.task then s
  else match getComm s p.comm with
    | none => s
    | some c => setComm s p.comm { c with
        unplaced := insertIdx p.idx c.unplaced
        started := if started then c.started else c.started.filter fun i => i != p.idx }

/-- Flush: the panel is discarded and starts anew later. -/
def flushPanel (s : State) (id : Nat) (p : Panel) : State :=
  let s1 := liftPanel (owedMiss s id p) id p
  unplace { s1 with easel := tabMap (fun _ e => if (e.pull.map (·.1)) = some id then { e with pull := none } else e) s1.easel } p false

/-- Offsets of the erroneous words of a panel's scratchpad. -/
def scratchBadOf (s : State) (p : Panel) : List Nat :=
  (List.range p.granules.length).flatMap fun i =>
    let pa := granulePa p.core ((p.granules[i]?).getD 0)
    (touchedBad s [(pa, 4096)]).map fun w => 4096 * i + (w - pa)

/-- The errors that a save meets in the scratchpad and in the tiles it reads are counted and logged (R348). -/
def metSaving (s : State) (p : Panel) (image : Bool) (tiles : List Tile) : State :=
  let s1 := if image then
      (p.granules.flatMap fun g => touchedBad s [(granulePa p.core g, 4096)]).foldl (fun t w => uncorrectable t w p.ctx) s
    else s
  (tiles.filter fun t => t.bad.isSome).foldl (fun t _ => countError t (arraysOf p.core) 0 p.ctx) s1

/-- What the device keeps of a panel beside its area. -/
def savedOfPanel (s : State) (id : Nat) (p : Panel) (area : List (Nat × Nat)) (size mode keep : Nat) (claim image : Bool) (header : List Byte) : Saved :=
  let ks := p.strokes.filterMap fun k => (getStroke s k).map fun q => (k, q)
  let live := ks.filter fun k => !k.2.exited
  { comm := p.comm, ctx := p.ctx, idx := p.idx, area := area, size := size, mode := mode, header := header, claim := claim
    fresh := !image, task := p.task, keep := keep, panel := { p with req := none }
    scratchBad := if image then scratchBadOf s p else []
    regBytes := (live.map fun k => k.2.reserve * 32 * k.2.width).sum
    entries := (live.map fun k => (strokeAgents s k.1).length).sum
    copies := if image then (s.copies.filter fun c => c.2.panel == id).map (·.1) ++ (s.colls.filter fun c => c.2.panel == id).map (·.1)
      else []
    strokes := s.strokes.filter fun k => k.2.panel == id
    agents := s.agents.filter fun a => (panelStrokes s id).contains a.2.stroke
    matrix := if claim then (getCore s p.core).matrix else none }

/-- A panel whose scratchpad is freed for good: what its copies and collectives still do reaches it no more (R227,
R228). -/
def orphanCopies (s : State) (id : Nat) : State :=
  { s with copies := tabMap (fun _ c => if c.panel = id then { c with orphan := true } else c) s.copies
           colls := tabMap (fun _ c => if c.panel = id then { c with orphan := true } else c) s.colls }

/-- Writes an area, and puts the panel aside under its own number. -/
def putAside (s : State) (id : Nat) (p : Panel) (v : Saved) (parts : List (Nat × List Byte)) : State :=
  match getCtx s p.ctx with
  | none => s
  | some c =>
    let base := c.params.saveBase
    let put := fun (t : State) (e : Nat × List Byte) =>
      let segs := (areaCut v.area e.1 e.2.length).map fun g => (base + g.1, g.2)
      storeSegs (clearBad t segs) segs e.2
    let s1 := parts.foldl put (owedMiss s id p)
    let s2 := if v.fresh then orphanCopies s1 id else s1
    unplace { liftPanel s2 id p with saved := tabPut s2.saved id v } p true

/-- The area that a save of n bytes writes: of the one taken when it began, or where that has become too small, a new
one. -/
def saveRoom (c : Ctx) (held : List (Nat × Nat)) (n : Nat) : Option (List (Nat × Nat)) :=
  if n ≤ (held.map (·.2)).sum then some (takeBytes n held) else roomInRegion (dropAreas c held) n false

/-- A save by hardware or at checkpoints. Without room the group drains. -/
def savePanel (s : State) (id : Nat) (p : Panel) (r : PreReq) (pl : SavePlan) : State :=
  match getCtx s p.ctx with
  | none => s
  | some c =>
    let claim := pl.claim && ((getCore s p.core).matrix.map fun m => m.owner) == some id
    let bs := areaBytes s id p { pl with claim := claim }
    let held := r.area.getD []
    match saveRoom c held bs.length with
    | none => drainFallback s (groupPanels s id p) p.comm p.ctx r bs.length
    | some a =>
      let tiles := ((getCore s p.core).matrix.map fun m => if claim then (savedTiles m pl.keep).map (tileOf m) else []).getD []
      let c1 := dropAreas c held
      let s1 := setCtx (metSaving s p pl.image tiles) p.ctx { c1 with areas := c1.areas ++ a }
      putAside s1 id p (savedOfPanel s id p a bs.length pl.mode pl.keep claim pl.image (bs.take 256)) [(0, bs)]

/-- Root records of a user handler's area: they follow the header, one for each stroke, the Primer's after them
(log 34). -/
def handlerParts (s : State) (p : Panel) (size : Nat) : List (Nat × List Byte) :=
  let roots := p.strokes.filterMap fun k => (getStroke s k).bind fun q => if q.exited then none else (orderedAgents s.agents k).head?
  let n := roots.length
  let primer := (p.primer.bind (getAgent s)).bind fun a => (getStroke s a.stroke).map fun k => primerBytes k a
  let head := layout 256
    [(0, 4, 0x41535856), (4, 2, 1), (6, 1, 1), (7, 1, (if primer.isSome then 4 else 0) + (if (p.primer.bind (getAgent s)).any staysStopped then 16 else 0)), (8, 8, size), (16, 2, p.ctx % 4096),
     (18, 1, p.strokes.length), (19, 1, n), (20, 4, ((getComm s p.comm).map fun c => c.tag.toNat).getD 0), (24, 4, p.idx % 2 ^ 32),
     (28, 2, p.core), (32, 8, p.slotVA), (64, 8, 256), (72, 8, if primer.isSome then 256 + 1280 * n else 0), (104, 8, s.cycle)]
  (0, head) :: ((List.range n).map fun i => (256 + 1280 * i, bytesOf 8 (((roots[i]?).map fun a => resumePc a.2).getD 0))) ++
    match primer with
    | some b => [(256 + 1280 * n, b)]
    | none => []

/-- The end of a user handler: the panel is stopped and its scratchpad freed for good. -/
def finishHandler (s : State) (id : Nat) (p : Panel) (area : List (Nat × Nat)) : State :=
  let size := (area.map (·.2)).sum
  let parts := handlerParts s p size
  putAside s id p (savedOfPanel s id p area size 1 0 false false (((parts.head?).map (·.2)).getD [])) parts

/-- The keep masks of a group's agents, together. -/
def keepOf (s : State) (g : List (Nat × Panel)) : Nat :=
  (g.flatMap fun p => panelAgents s p.1).foldl (fun n a => n ||| a.2.ckptMask.toNat) 0

/-- What a checkpoint save of a panel writes, by the masks of its group (R335). -/
def ckptPlan (p : Panel) (k : Nat) : SavePlan :=
  { mode := 2, keep := k, claim := k % 2 ^ 10 != 0, image := bitAt k 10 && p.slotBytes != 0 }

/-- A checkpoint save begins: the masks of the whole group together stand for each of its panels, and their areas are
taken. -/
def beginCkpt (s : State) (id : Nat) (p : Panel) (r : PreReq) : State :=
  let g := groupPanels s id p
  let k := keepOf s g
  let sizes := g.map fun q => (areaBytes s q.1 q.2 (ckptPlan q.2 k)).length
  (giveAreas s g p.ctx false sizes { r with keep := some k }).getD (drainFallback s g p.comm p.ctx r sizes.sum)

/-- The end of the user handlers of a group, panel by panel. One whose restored panels have no area takes it now, or
drains (R333; log 114). -/
def finishHandlers (s : State) (id : Nat) (p : Panel) (r : PreReq) : State :=
  let g := groupPanels s id p
  if g.all fun q => (q.2.req.bind (·.area)).isSome then
    g.foldl (fun t q =>
      match q.2.req.bind (·.area) with
      | some a => if panelQuiet t q.1 q.2 then finishHandler t q.1 q.2 a else t
      | none => t) s
  else
    let s1 := freeAreas s g
    (giveAreas s1 g p.ctx true (groupSizes s1 g) r).getD (drainFallback s g p.comm p.ctx r (groupBytes s g))

/-- PANEL_SAVE: a stopped panel with nothing outstanding is saved or flushed. -/
def execPanelSave (id : Nat) (s : State) : Out :=
  .next (match getPanel s id with
    | none => s
    | some p =>
      match p.req with
      | none => s
      | some r =>
        if !frozen s id p then s
        else
          let s1 := match p.primer with
            | some a => stopAgent s a
            | none => s
          match r.how, r.keep with
          | .ckpt, none => beginCkpt s1 id p r
          | how, keep =>
            if !panelQuiet s1 id p then s1
            else match how with
              | .flush => flushPanel s1 id p
              | .save => savePanel s1 id p r (fullPlan p 0)
              | .expired => savePanel s1 id p r (fullPlan p 3)
              | .ckpt => savePanel s1 id p r (ckptPlan p (keep.getD 0))
              | .handler => finishHandlers s1 id p r
              | .drain => s1)

/-- PREEMPT_BOUND_EXPIRY: a user-handler or checkpoint request whose bound has passed becomes a hardware save (R334,
R335); without room the group drains (R333). -/
def execPreemptBoundExpiry (id : Nat) (s : State) : Out :=
  .next (match getPanel s id with
    | none => s
    | some p =>
      match p.req with
      | none => s
      | some r =>
        let late := r.deadline.any fun d => decide (d < s.cycle)
        if !late || (r.how != .handler && r.how != .ckpt) || frozen s id p then s
        else
          let g := groupPanels s id p
          let s1 := freeAreas s g
          match giveAreas s1 g p.ctx false (groupSizes s1 g) { r with how := .expired, area := none } with
          | some t => (g.map (·.1)).foldl stopPanel t
          | none => drainFallback s g p.comm p.ctx r (groupBytes s g))

/-! ## Restoring (R336) -/

/-- The core on which a saved panel is restored: where its group was placed; a task stroke, the first with room. -/
def restoreCore (s : State) (v : Saved) : Option Nat :=
  if v.lost then none
  else match v.place with
    | some c => some c
    | none =>
      if v.task then
        match getComm s v.comm with
        | none => none
        | some c =>
          if slotsFree s v.ctx (if needsSlot v then 1 else 0) then
            (coresOf s c.record).find? fun k => roomFor s k (savedCharge s v)
          else none
      else none

/-- A root agent and its stroke as R240 starts them, at a user handler's resume PC. -/
def restartStroke (v : Saved) (c : Comm) (area va adm : Nat) (i : Nat) (bs : List Byte) (k : Nat × Stroke) :
    Stroke × Option (Nat × Agent) :=
  let r := c.record
  let q := k.2
  let st : Stroke :=
    { panel := q.panel, idx := q.idx, width := q.width, populated := q.populated, reserve := q.reserve, task := q.task
      enq := q.enq, adm := adm, ptp := q.ptp }
  let pc := recNat bs (256 + 1280 * i) 8
  let regs : Tab DWord := [(0, r.args), (1, BitVec.ofNat 64 va), (2, BitVec.ofNat 64 (if va = 0 then 0 else v.panel.slotBytes)),
    (3, BitVec.ofNat 64 area)]
  (st, ((orderedAgents v.agents k.1).head?).map fun a =>
    (a.1, rootAgent k.1 (BitVec.ofNat 57 (pc / 8 * 8)) st.populated regs c.priv))

/-- Every stroke of a panel restarted. -/
def restartAll (v : Saved) (c : Comm) (area va : Nat) (bs : List Byte) :
    Nat → Nat → List (Nat × Stroke) → Tab Stroke × Tab Agent → Tab Stroke × Tab Agent
  | _, _, [], r => r
  | i, adm, k :: t, r =>
    if k.2.exited || k.2.primer then restartAll v c area va bs i adm t (tabPut r.1 k.1 k.2, r.2)
    else
      let (st, a) := restartStroke v c area va adm i bs k
      restartAll v c area va bs (i + 1) (adm + 1) t (tabPut r.1 k.1 st, match a with
        | some (n, g) => tabPut r.2 n g
        | none => r.2)

/-- Saved strokes in the order of their panel. -/
def savedStrokes (v : Saved) : List (Nat × Stroke) :=
  v.panel.strokes.filterMap fun k => (tabGet v.strokes k).map fun q => (k, q)

/-- The Primer restored from its record. -/
def restorePrimer (v : Saved) (bs : List Byte) : Tab Agent :=
  (v.agents.filter fun a => a.2.primer).map fun a => (a.1, readPrimer (bs.drop (sectionAt v.header 3)) a.2)

/-- Adds the tables of a restored panel to the state. -/
def putTables (s : State) (ks : Tab Stroke) (as : Tab Agent) : State :=
  let s1 := ks.foldl (fun t k => setStroke t k.1 k.2) s
  as.foldl (fun t a => setAgent t a.1 { a.2 with lastIssue := s.cycle }) s1

/-- The updates that the device held reach the restored scratchpad. -/
def applyHeld (s : State) (id : Nat) (h : Held) : State :=
  match h with
  | .setBits off bits => scratchBits s 0 id off bits
  | .pending off n => takePending s 0 id off n

/-- The restored scratchpad: fresh, or the saved bytes at the same address. -/
def restoreScratch (s : State) (v : Saved) (core : Nat) (bs : List Byte) : State × Nat × List Nat :=
  if v.fresh then allocScratch s v.ctx core v.panel.slotBytes
  else
    let gs := freeGranules s core (ceilDiv v.panel.slotBytes 4096)
    let img := slice bs (sectionAt v.header 5) v.panel.slotBytes
    let s1 := (List.range gs.length).foldl (fun t i =>
      let pa := granulePa core ((gs[i]?).getD 0)
      let t1 := zeroRange t pa 4096
      { t1 with mem := memWrite t1.mem pa (slice img (4096 * i) 4096)
                badWords := t1.badWords ++ (v.scratchBad.filter fun o => o / 4096 == i).map fun o => pa + o % 4096 }) s
    (s1, v.panel.slotVA, gs)

/-- Gives the strokes of a restored panel their places in the core's order of admission. -/
def admitStrokes (core : Core) (ks : List (Nat × Stroke)) : Core × List (Nat × Stroke) :=
  ks.foldl (fun r k =>
    if k.2.exited || k.2.primer then (r.1, r.2 ++ [k])
    else
      let c1 : Core := { r.1 with admitted := r.1.admitted + 1 }
      let k1 : Stroke := { k.2 with adm := r.1.admitted }
      (c1, r.2 ++ [(k.1, k1)])) (core, [])

/-- Registered barrier objects as the area lists them. -/
def readBarriers (v : Saved) (bs : List Byte) : List Nat :=
  if v.fresh then []
  else (List.range v.panel.barriers.length).map fun i => recNat bs (sectionAt v.header 0 + 4 * i) 4

/-- An agent resumed at a CKPT without its scratchpad's contents finds the fresh allocation in s1 and s2 (R335). -/
def freshSlot (v : Saved) (va : Nat) (a : Agent) : Agent :=
  if v.mode = 2 ∧ v.fresh ∧ v.panel.slotBytes ≠ 0 then
    setSReg (setSReg a 1 (BitVec.ofNat 64 va)) 2 (BitVec.ofNat 64 v.panel.slotBytes)
  else a

/-- The request under which a panel that hardware saved within its user handlers goes on: where an agent of it takes
PREEMPT, is in its handler, or has executed PDONE, the panel is stopped once all have (R334; log 114). Its area may be
the one that the restore gives back. -/
def resumedReq (s : State) (v : Saved) (x : Ctx) (as : Tab Agent) : Option PreReq :=
  if as.any fun a => !a.2.primer && (isDone a.2 || a.2.prePend || (a.2.handler && a.2.byPreempt)) then
    some { deadline := none, since := s.cycle, how := .handler, who := .software
           area := (takeAreas true [v.size] (dropAreas x v.area)).bind fun t => t.2.head? }
  else none

/-- Records the area taken for a panel's standing request. -/
def takeArea (s : State) (ctx : Nat) (r : Option PreReq) : State :=
  match getCtx s ctx, r.bind (·.area) with
  | some c, some a => setCtx s ctx { c with areas := c.areas ++ a }
  | _, _ => s

/-- Whether an area's reserved fields are as they were written (R336-R339). Of a user handler's area the device wrote
the header and the Primer's record alone. -/
def areaClean (v : Saved) (bs : List Byte) : Bool :=
  headerKey (bs.take 256) == headerKey v.header &&
  ((v.agents.filter fun a => a.2.primer).all fun _ => recordClean (bs.drop (sectionAt v.header 3)) 0) &&
  (v.mode == 1 ||
    (descriptorsClean (bs.drop (sectionAt v.header 1)) &&
     strokesClean v.agents (savedStrokes v) (bs.drop (sectionAt v.header 2)) &&
     (!v.claim || matrixClean (bs.drop (sectionAt v.header 4)) (v.matrix.elim 0 fun m => (savedTiles m v.keep).length))))

/-- The restore of R336 on a core, whose copies it empties (log 118). `bs`: the area. -/
def restoreOn (s : State) (id : Nat) (v : Saved) (c : Comm) (x : Ctx) (core : Nat) (bs : List Byte) : State :=
  let (s1, va, gs) := restoreScratch s v core bs
  let cr0 := getCore s1 core
  let w := ((savedStrokes v).head?).elim 32 fun k => k.2.width
  let chans := if v.mode = 1 then v.panel.chans
    else
      let sec := bs.drop (sectionAt v.header 1)
      readEasel v.panel.chans ((bs.drop (sectionAt v.header 6)).drop 8) (readChans w sec v.panel.chans (sec.drop 4096) v.panel.chans)
  let admitted := admitStrokes cr0 (savedStrokes v)
  let tables := if v.mode = 1 then
      restartAll v c (x.params.saveVA + (v.area.head?).elim 0 (·.1)) va bs 0 cr0.admitted (savedStrokes v) ([], [])
    else readStrokes v.agents admitted.2 (bs.drop (sectionAt v.header 2)) ([], [])
  let agents := tabMap (fun _ a => freshSlot v va a) (tables.2 ++ restorePrimer v bs)
  let again := resumedReq s v x agents
  let pst := v.strokes.filter fun k => k.2.primer
  let p := { v.panel with core := core, slotVA := va, granules := gs, chans := chans, barriers := readBarriers v bs, req := again }
  let cr := { admitted.1 with matrix := match v.matrix with
    | some m => if v.claim then some (readMatrix (bs.drop (sectionAt v.header 4)) m v.keep) else cr0.matrix
    | none => cr0.matrix }
  let s2 := putTables (setPanel (setCore (takeArea s1 v.ctx again) core cr) id p) (tables.1 ++ pst) agents
  let s3 := { s2 with saved := tabDel s2.saved id }
  acquireInvalidate (v.held.foldl (fun t h => applyHeld t id h) s3) core

/-- The context whose scratch-window slots a saved task stroke waits for in vain (R308). -/
def slotWait (s : State) (v : Saved) : Option Nat :=
  if v.task && !v.lost && v.place.isNone && !slotsFree s v.ctx (if needsSlot v then 1 else 0) then some v.ctx else none

/-- PANEL_RESTORE: a saved panel that has been placed is restored, and its area is returned. -/
def execPanelRestore (id : Nat) (s : State) : Out :=
  .next (match tabGet s.saved id with
    | none => s
    | some v =>
      match restoreCore s v, getComm s v.comm, getCtx s v.ctx with
      | some core, some c, some x =>
        if v.claim && (getCore s core).matrix.isSome then s
        else
          let segs := v.area.map fun g => (x.params.saveBase + g.1, g.2)
          let bs := readSegs s.mem segs
          if !areaClean v bs ∨ (segsBad s segs).isSome then
            let s1 := (touchedBad s segs).foldl (fun t w => uncorrectable t w v.ctx) s
            report { s1 with saved := tabPut s1.saved id { v with place := none, lost := true } } (.notResumed v.comm v.idx)
          else
            let s1 := restoreOn s id v c x core bs
            updatePaused (freeArea s1 v.ctx (some v.area)) v.comm
      | _, _, _ => reportSlots s (slotWait s v))

end Sys2Proof.Machine
end

