-- ==== Sys2Proof/Machine/Juran.lean ====
section
/-! DEFINITION. Power-on, self-test, firmware, margins, spares and the management protocol (spec/19_health.md
R348-R356; spec/16_isolation.md R320). -/

namespace Sys2Proof.Machine
open Sys2Proof

/-! ## Firmware and the states of R353 -/

/-- Whether the boot ROM accepts an image: its header, its signature, and its version against the rollback counter
(R353, R354). -/
def imageVerifies (j : Juran) (i : FwImage) : Bool :=
  i.length == i.bytes.length && i.digest == sha256 i.bytes && Config.glowaldVerifies i.digest i.sig && decide (j.rollback ≤ i.version)

/-- The slot to boot from: an update that verifies, else the slot in use, else the other one (R354). -/
def bootSlot (j : Juran) : Option (Nat × FwImage) :=
  let other := 1 - j.active
  let order := if j.update then [other, j.active] else [j.active, other]
  order.findSome? fun n => match j.slots[n]? with
    | some (some i) => if imageVerifies j i then some (n, i) else none
    | _ => none

/-- What a reset keeps: nonvolatile storage (slots, rollback counter, spare map, device number) and what has left the
device; the rest is as right after reset, the clock included (R48, R352, R353, R356; log 16). -/
def resetDevice (s : State) : State :=
  let j := s.juran
  let kept : Juran :=
    { slots := j.slots, active := j.active, update := j.update, rollback := j.rollback, tiles := j.tiles, rows := j.rows
      banks := j.banks, lanes := j.lanes, chans := j.chans, dev := j.dev, ptpPort := j.ptpPort, ptpDomain := j.ptpDomain
      mgmtPort := j.mgmtPort, server := j.server, keys := j.keys
      log := j.log, lost := j.lost, logBase := j.logBase }
  { State.reset with juran := kept, agenda := s.agenda, events := s.events, freeN := s.freeN, fresh := s.fresh }

/-- The work of the ROM state: boot an image that verifies, or enter RECOVER. -/
def romBoot (s : State) : State :=
  let j := s.juran
  match bootSlot j with
  | none => { s with juran := { j with power := .recover } }
  | some (n, i) =>
    { s with juran := { j with power := .bist, active := n, running := some i, rollback := max j.rollback i.version
                               update := if n = j.active then j.update else false } }

/-- POWER_ON: the device comes up from reset and does the work of the ROM state. -/
def execPowerOn (s : State) : Out := .next (romBoot (if s.juran.power = .rom then s else resetDevice s))

/-- The tile that bears a logical number now, and the bank that bears a number in its slice: each has rows, columns and
spares of its own. -/
def tileNow (j : Juran) (core : Nat) : TilePlace := { core := core, spare := j.tiles.contains core }

def bankNow (j : Juran) (core bank : Nat) : BankPlace :=
  let p := tileNow j core
  { tile := p, bank := bank, spare := j.banks.any fun b => b.1 == p && b.2.bank == bank }

/-- Whether the stored map replaces, by a spare, the unit that a tested unit's number first named where it lies. How rows,
banks and lanes are numbered is the implementation's (log 72). -/
def spared (j : Juran) (t : TestedUnit) : Bool :=
  match t.unit.cls with
  | 0 => j.rows.any fun r => match r with
    | .row b n column => !column && (Config.rowUnit b.tile.core b.bank n).toNat == t.unit.num && t.inBank.all (· == b)
    | .chan _ => false
  | 1 => j.banks.any fun b => (Config.bankUnit b.1.core b.2.layer b.2.bank).toNat == t.unit.num && t.inTile.all (· == b.1)
  | 2 => j.chans.contains t.unit.num
  | 3 => j.lanes.any fun l => (Config.laneUnit l.port l.lane).toNat == t.unit.num
  | 5 => j.tiles.contains t.unit.num
  | _ => false

/-- Whether the stored map leaves a tested unit in use: the tile and the bank that it lies in, and of the units that bear
its number the spare where the map has brought one in, else the first. -/
def unitInUse (j : Juran) (t : TestedUnit) : Bool :=
  (t.inTile.all fun p => p == tileNow j p.core) && (t.inBank.all fun b => b == bankNow j b.tile.core b.bank) &&
    t.spare == spared j t

/-- BIST_COMPLETE: READY, or SAFE with every failed unit in use logged. -/
def execBistComplete (failed : List TestedUnit) (s : State) : Out :=
  let bad := (failed.filter (unitInUse s.juran)).map (·.unit)
  .next (if s.juran.power ≠ .bist then s
    else if bad = [] then { s with juran := { s.juran with power := .ready } }
    else
      let s1 := bad.foldl (fun t u =>
        let t1 := bumpUnit t u 0 0
        addLog t1 0 5 u 0 (unitCount t1 u)) s
      { s1 with juran := { s1.juran with power := .safe } })

/-- RECOVER_FETCH: a request on both ports every 2^30 cycles (R355). -/
def execRecoverFetch (s : State) : Out :=
  .next (if s.juran.power = .recover ∧ (s.juran.fetched.all fun t => decide (t + 2 ^ 30 ≤ s.cycle)) then
      report { s with juran := { s.juran with fetched := some s.cycle } } (.fetchRequest s.juran.server)
    else s)

/-- Puts an image into the slot not in use. -/
def storeImage (j : Juran) (i : FwImage) : Juran := { j with slots := j.slots.set (1 - j.active) (some i), update := true }

/-- RECOVER_IMAGE_RECEIVED: an image that verifies is stored and the device returns to ROM; any other is discarded and
logged. The spec gives such a record no kind and no unit: they are free values. -/
def execRecoverImageReceived (img : FwImage) (s : State) : Out :=
  .next (if s.juran.power ≠ .recover then s
    else if imageVerifies s.juran img then { s with juran := { storeImage s.juran img with power := .rom, fetched := none } }
    else
      let u : ErrUnit := { cls := (Config.freeValue 8 (s.freeN + 1)).toNat, num := (Config.freeValue 16 (s.freeN + 2)).toNat }
      report (addLog { s with freeN := s.freeN + 3 } 0 (Config.freeValue 8 s.freeN).toNat u 0 0) .imageDiscarded)

/-! ## The management protocol (R356) -/

/-- A reply: the state, values and bytes; none refuses the request, which then has no effect. -/
abbrev Answer := Option (State × List Nat × List Byte)

def reply (s : State) (name : String) (a : Answer) : State :=
  match a with
  | some (t, v, b) => report t (.reply name true v b)
  | none => report s (.reply name false [] [])

/-- Whether a context is being killed (R314). -/
def killing (s : State) : Bool := s.ctxs.any fun c => c.2.killed.isSome && !c.2.drained

/-- Whether a request's effect is still under way: a repair, a retraining, the killing of a context. -/
def busy (s : State) : Bool := s.juran.repairs != [] || s.juran.retrain != [] || killing s

/-- Whether a request carries a signature by an enrolled management key (R356). -/
def enrolled (s : State) (key : Option MgmtKey) : Bool := key.any s.juran.keys.contains

/-- A request that is executed as `f` says. One whose predecessor's effect is not complete waits; in ROM and RECOVER only
those that `early` names are answered; one that must be signed and is not is refused. -/
def takeRequest (s : State) (m : Move) (name : String) (early signed : Bool) (f : State → State) : State :=
  if (s.juran.power = .rom ∨ s.juran.power = .recover) ∧ !early then s
  else if busy s then { s with juran := { s.juran with waiting := s.juran.waiting ++ [m] } }
  else if !signed then reply s name none
  else f s

/-- A request whose effect is complete at once, with its reply. -/
def manage (s : State) (i : Instr) (name : String) (early signed : Bool) (f : State → Answer) : State :=
  takeRequest s (.event i) name early signed fun t => reply t name (f t)

/-- A request of the device manager: as `manage`. -/
def devmgr (s : State) (i : Instr) (name : String) (signed : Bool) (f : State → Option State) : State :=
  manage s i name false signed fun t => (f t).map fun u => (u, [], [])

/-- A request whose effect is complete only later: refused now, or started. -/
def startRequest (s : State) (i : Instr) (name : String) (signed : Bool) (f : State → Option State) : State :=
  takeRequest s (.event i) name false signed fun t =>
    if t.juran.power = .bist then reply t name none
    else match f t with
      | some u => u
      | none => reply t name none

/-- The effect of a request that was started is complete: its reply is sent, and the requests that waited come next. -/
def complete (s : State) (name : String) : State :=
  let s1 := report s (.reply name true [] [])
  if busy s1 then s1
  else { s1 with agenda := s1.juran.waiting ++ s1.agenda, juran := { s1.juran with waiting := [] } }

/-! ## Margins (R349) -/

/-- Stops issue everywhere and enters the safe state, in which no context exists: every context is lost with what runs
for it; memory, the clock and the security block stay (R349, R353; log 106). -/
def protectiveStop (s : State) : State :=
  let j := { s.juran with power := .safe, stopped := true }
  let kept := { State.reset with
    juran := j, mem := s.mem, badWords := s.badWords, cycle := s.cycle, agenda := s.agenda, events := s.events
    freeN := s.freeN, fresh := s.fresh }
  report (if killing s then complete kept "KILL_CONTEXT" else kept) .protectiveStop

/-- A monitor's sample, once in each period of 2^24 cycles (log 71). -/
def takeSample (u : ErrUnit) (margin : Nat) (s : State) : State :=
  let j := s.juran
  let period := s.cycle / 2 ^ 24
  if j.power = .rom ∨ j.power = .recover ∨ period ≤ (assocGet j.sampled u).getD 0 then s
  else
    let s1 := { s with juran := { j with sampled := assocPut j.sampled u period } }
    if margin < (assocGet j.margins u).getD 0 then addLog s1 0 4 u 0 (unitCount s1 u) else s1

/-- MARGIN_SAMPLE. `hardLimit`: a rail or a die temperature is beyond its hard limit, which stops the device at any
time. -/
def execMarginSample (u : ErrUnit) (margin : Nat) (hardLimit : Bool) (s : State) : Out :=
  let s1 := takeSample u margin s
  .next (if hardLimit then protectiveStop s1 else s1)

/-! ## Requests (R350-R356) -/

def powerCode : Power → Nat
  | .rom => 0 | .bist => 1 | .ready => 2 | .safe => 3 | .recover => 4

def fwDigest (j : Juran) : BitVec 256 := (j.running.map (·.digest)).getD 0

def fwVersion (j : Juran) : Nat := (j.running.map (·.version)).getD 0

/-- The identity with its certificate. -/
def identityBytes : List Byte := beBytes 32 Config.identityHash.toNat ++ Config.certificate 0 Config.identityKey

def execIdentity (s : State) : Out :=
  .next (manage s .identity "IDENTITY" true true fun t => some (t, [fwVersion t.juran, powerCode t.juran.power], identityBytes))

def sameBank (a : Repair) (b : BankPlace) (column : Bool) : Bool :=
  match a with
  | .row c _ k => c == b && k == column
  | .chan _ => false

/-- What is left of a bank's 64 spare rows, or of its 16 spare columns. -/
def lineStock (j : Juran) (b : BankPlace) (column : Bool) : Nat :=
  (if column then 16 else 64) - (j.rows.filter fun a => sameBank a b column).length

/-- The banks in use from which a row or column has been taken. -/
def minedBanks (j : Juran) : List BankPlace :=
  (j.rows.filterMap fun a => match a with
    | .row b _ _ => if b = bankNow j b.tile.core b.bank then some b else none
    | .chan _ => none).eraseDups

/-- Whether a layer of a tile's slice has its spare bank left. -/
def layerSpare (j : Juran) (p : TilePlace) (layer : Nat) : Bool := !(j.banks.any fun b => b.1 == p && b.2.layer == layer)

/-- Spare stock: tiles of each die, LPDDR-6 channels of each die, lanes of the 48 ports, the bank of each layer of the
256 slices; and for each bank that has not its whole stock, its core and number, its rows and its columns. -/
def spareStock (j : Juran) : List Nat :=
  (List.range 2).map (fun d => 8 - (j.tiles.filter fun c => c / 128 == d).length) ++
  (List.range 2).map (fun d => 1 - (j.chans.filter fun c => c / 32 == d).length) ++
  (List.range 48).map (fun p => if j.lanes.any fun l => l.port == p then 0 else 1) ++
  ((List.range 256).flatMap fun c => (List.range 3).map fun l => if layerSpare j (tileNow j c) l then 1 else 0) ++
  (minedBanks j).flatMap fun b => [b.tile.core, b.bank, lineStock j b false, lineStock j b true]

/-- STATUS: the state, firmware version, whether a PTP source is locked (R250), the spare stock; temperatures are free
values. -/
def execStatus (s : State) : Out :=
  .next (manage s .status "STATUS" true true fun t =>
    let j := t.juran
    some ({ t with freeN := t.freeN + 1 },
      [powerCode j.power, fwVersion j, if j.ptpLocked then 1 else 0, (Config.freeValue 16 t.freeN).toNat] ++ spareStock j, identityBytes))

/-- The 32 bytes of a record (R348). -/
def logBytes (r : LogRec) : List Byte :=
  bytesOf 8 r.cycle ++ bytesOf 8 r.pa ++ bytesOf 1 r.kind ++ bytesOf 1 r.unit.cls ++ bytesOf 2 r.unit.num ++
  bytesOf 2 r.ctx ++ bytesOf 2 0 ++ bytesOf 4 r.count ++ bytesOf 4 0

/-- LOGREAD: the records from a sequence number on, the number of the first of them, and the lost-record count. -/
def execLogread (signer : Option MgmtKey) (seq : Nat) (s : State) : Out :=
  .next (manage s (.logread signer seq) "LOGREAD" false (enrolled s signer) fun t =>
    let j := t.juran
    some (t, [max seq j.logBase, j.lost], (j.log.drop (seq - j.logBase)).flatMap logBytes))

/-- LOGCLEAR: the log and the lost-record count. -/
def execLogclear (signer : Option MgmtKey) (s : State) : Out :=
  .next (manage s (.logclear signer) "LOGCLEAR" false (enrolled s signer) fun t =>
    let j := t.juran
    some ({ t with juran := { j with log := [], lost := 0, logBase := j.logBase + j.log.length } }, [], []))

def execCounters (signer : Option MgmtKey) (s : State) : Out :=
  .next (manage s (.counters signer) "COUNTERS" false (enrolled s signer) fun t =>
    some (t, t.juran.counts.flatMap fun c => [c.1.cls, c.1.num, c.2], []))

/-- THRESH: from 1 to 2^32 - 1; a counter that the new threshold reaches writes its record (R348). -/
def execThresh (signer : Option MgmtKey) (u : ErrUnit) (v : Word) (s : State) : Out :=
  .next (manage s (.thresh signer u v) "THRESH" false (enrolled s signer) fun t =>
    if v = 0 then none
    else
      let j := t.juran
      let old := unitThreshold t u
      let n := unitCount t u
      let t1 := { t with juran := { j with thresholds := assocPut j.thresholds u v.toNat } }
      some (if n < old ∧ v.toNat ≤ n then addLog t1 0 (thresholdKind u) u 0 n else t1, [], []))

def execMargin (signer : Option MgmtKey) (u : ErrUnit) (v : Nat) (s : State) : Out :=
  .next (manage s (.margin signer u v) "MARGIN" false (enrolled s signer) fun t =>
    some ({ t with juran := { t.juran with margins := assocPut t.juran.margins u v } }, [], []))

/-! ## Spares (R350-R352) -/

def execMgmtFence (signer : Option MgmtKey) (core : Nat) (s : State) : Out :=
  .next (manage s (.mgmtFence signer core) "FENCE" false (enrolled s signer) fun t =>
    if 256 ≤ core then none
    else some ({ t with juran := { t.juran with fenced := if t.juran.fenced.contains core then t.juran.fenced else core :: t.juran.fenced } }, [], []))

def execUnfence (signer : Option MgmtKey) (core : Nat) (s : State) : Out :=
  .next (manage s (.unfence signer core) "UNFENCE" false (enrolled s signer) fun t =>
    if 256 ≤ core then none
    else some ({ t with juran := { t.juran with fenced := t.juran.fenced.filter fun c => c != core } }, [], []))

/-- Whether the page of an address lies in a slice, through this device's own window too, whatever its rights. -/
def pageInSlice (s : State) (core ctx va : Nat) : Bool :=
  match translate s ctx va with
  | .error _ => false
  | .ok t =>
    let pa := t.pa + (va - t.va)
    homeCore ((localPieces s ctx [(pa, 1)]).head?.elim pa (·.1)) == some core

/-- Whether bytes of a context's memory lie in a slice: some of their pages, mapped or not as the others are. -/
def inSlice (s : State) (core ctx va n : Nat) : Bool :=
  (List.range (n / 4096 + 2)).any fun i =>
    let a := if i = 0 then va else alignDown va 4096 + 4096 * i
    decide (a < va + n) && pageInSlice s core ctx a

/-- Whether a queue uses a slice: a commission queue's control block, its index line or its slots, an egress channel's
index line or ring, an Easel queue's spill area. -/
def queueIn (s : State) (core : Nat) : Bool :=
  (s.cqueues.any fun q =>
    let f := qcbField s q.2
    homeCore q.2.reg.qcb.toNat == some core || inSlice s core q.2.reg.ctx (f 16 8) 8 ||
      inSlice s core q.2.reg.ctx (f 0 8) (256 * f 8 4)) ||
  (s.ctxs.any fun c => c.2.egress.any fun e =>
    inSlice s core c.1 e.2.cfg.pidx.toNat 8 || inSlice s core c.1 e.2.cfg.ring.toNat (32 * e.2.cfg.slots)) ||
  s.easel.any fun q => q.2.configured && inSlice s core q.2.ctx q.2.spillBase (32 * q.2.spillN)

/-- Whether a logical tile is fenced and nothing of any context uses its slice. -/
def tileFree (s : State) (core : Nat) : Bool :=
  s.juran.fenced.contains core && !(s.panels.any fun p => p.2.core == core) &&
  !(s.saved.any fun v => v.2.place == some core) && (getCore s core).tasks.isEmpty &&
  !(s.ctxs.any fun c => (objs c.2.sets).any fun o => o.2.home == core) && !queueIn s core &&
  !(s.regions.any fun r => r.segs.any fun g => homeCore g.1 == some core)

/-- Map commands are refused during self-test (R352). -/
def mapCommand (s : State) (i : Instr) (name : String) (signed : Bool) (f : State → Option State) : State :=
  devmgr s i name signed fun t => if t.juran.power = .bist then none else f t

/-- TILEMAP: the logical number names the spare, whose slice holds nothing that was written (log 2). -/
def execTilemap (signer : Option MgmtKey) (core : Nat) (s : State) : Out :=
  .next (mapCommand s (.tilemap signer core) "TILEMAP" (enrolled s signer) fun t =>
    let j := t.juran
    if tileFree t core ∧ !j.tiles.contains core ∧ (j.tiles.filter fun c => c / 128 == core / 128).length < 8 then
      let t1 := zeroRange t (sliceBase core) (48 * 2 ^ 20)
      some (setCore { t1 with juran := { j with tiles := core :: j.tiles } } core {})
    else none)

/-- ROWMAP: an online repair of a row or column; 64 rows and 16 columns a bank. -/
def execRowmap (signer : Option MgmtKey) (core bank row : Nat) (column : Bool) (s : State) : Out :=
  .next (startRequest s (.rowmap signer core bank row column) "ROWMAP" (enrolled s signer) fun t =>
    let j := t.juran
    let b := bankNow j core bank
    let r : Repair := .row b row column
    if 256 ≤ core ∨ j.rows.contains r ∨ lineStock j b column = 0 then none
    else some { t with juran := { j with repairs := tabPut j.repairs t.fresh r }, fresh := t.fresh + 1 })

/-- BANKMAP: one bank for each of a slice's three layers; the contents are copied, then the bank is switched. -/
def execBankmap (signer : Option MgmtKey) (core : Nat) (bank : BankName) (s : State) : Out :=
  .next (mapCommand s (.bankmap signer core bank) "BANKMAP" (enrolled s signer) fun t =>
    let j := t.juran
    let p := tileNow j core
    if tileFree t core ∧ bank.layer < 3 ∧ layerSpare j p bank.layer ∧ !(bankNow j core bank.bank).spare then
      some { t with juran := { j with banks := (p, bank) :: j.banks } }
    else none)

/-- LANEMAP: the port retrains with its spare lane. -/
def execLanemap (signer : Option MgmtKey) (lane : LaneName) (s : State) : Out :=
  .next (startRequest s (.lanemap signer lane) "LANEMAP" (enrolled s signer) fun t =>
    let j := t.juran
    if 48 ≤ lane.port ∨ 4 ≤ lane.lane ∨ (j.lanes.any fun l => l.port == lane.port) then none
    else some { t with juran := { j with retrain := [(lane, t.cycle)] } })

/-- CHANMAP: an online repair of an LPDDR-6 channel; one a die. -/
def execChanmap (signer : Option MgmtKey) (chan : Nat) (s : State) : Out :=
  .next (startRequest s (.chanmap signer chan) "CHANMAP" (enrolled s signer) fun t =>
    let j := t.juran
    if 64 ≤ chan ∨ (j.chans.any fun c => c / 32 == chan / 32) then none
    else some { t with juran := { j with repairs := tabPut j.repairs t.fresh (.chan chan) }, fresh := t.fresh + 1 })

/-- ONLINE_REPAIR_SWITCH: the copy is complete, and the home switches in one step; no byte and no error changes. -/
def execOnlineRepairSwitch (repair : Nat) (s : State) : Out :=
  .next (match tabGet s.juran.repairs repair with
    | none => s
    | some r =>
      let j := { s.juran with repairs := tabDel s.juran.repairs repair }
      match r with
      | .row _ _ _ => complete { s with juran := { j with rows := r :: j.rows } } "ROWMAP"
      | .chan n => complete { s with juran := { j with chans := n :: j.chans } } "CHANMAP")

/-- LANE_RETRAIN_COMPLETE: the port runs on its spare lane. -/
def execLaneRetrainComplete (port : Nat) (s : State) : Out :=
  let j := s.juran
  .next (match j.retrain.find? fun e => e.1.port == port with
    | some (l, _) =>
      complete { s with juran := { j with retrain := j.retrain.filter fun e => e.1.port != port, lanes := l :: j.lanes } } "LANEMAP"
    | none => s)

/-- IMAGE: upload to the inactive slot, answered in every state. -/
def execImage (signer : Option MgmtKey) (img : FwImage) (s : State) : Out :=
  .next (manage s (.image signer img) "IMAGE" true (enrolled s signer) fun t => some ({ t with juran := storeImage t.juran img }, [], []))

/-- RESET: to ROM; every context is lost. -/
def execReset (signer : Option MgmtKey) (s : State) : Out :=
  .next (manage s (.reset signer) "RESET" false (enrolled s signer) fun t => some (resetDevice t, [], []))

/-! ## Device registers (R9, R248) -/

/-- A write of a register whose reserved fields are ignored: registers 0 to 1,023 are the words of the time-triggered
table, four an entry (log 17); the others have no fields that the spec gives. -/
def ttWord (e : TTEntry) (w v : Nat) : TTEntry :=
  match w with
  | 0 => { e with period := v }
  | 1 => { e with phase := v }
  | 2 => { e with record := BitVec.ofNat 64 v }
  | _ => { e with ctx := bitsAt v 11 0, policy := bitsAt v 17 16, enable := bitAt v 23, skipped := bitsAt v 63 32 }

def emptyEntry : TTEntry := { period := 0, phase := 0, record := 0, ctx := 0, policy := 0, enable := false, skipped := 0 }

/-- An entry as written now: its first due time is the next one. -/
def armEntry (s : State) (n : Nat) (e : TTEntry) : State :=
  let old := (tabGet s.tt n).bind fun t => t.inst
  let last : Int := if e.period = 0 then 0 else lastDue e (deviceTime s)
  { s with tt := tabPut s.tt n { cfg := e, last := last, inst := old } }

def execDeviceRegisterWrite (reg : Nat) (v : DWord) (s : State) : Out :=
  .next (if reg < 1024 then
      let e := (tabGet s.tt (reg / 4)).elim emptyEntry fun t => t.cfg
      armEntry s (reg / 4) (ttWord e (reg % 4) v.toNat)
    else { s with juran := { s.juran with regs := tabPut s.juran.regs reg v } })

end Sys2Proof.Machine
end

