-- ==== Sys2Proof/Machine/Lane.lean ====
section
/-! DEFINITION. The lane instructions (spec/05_alu_instructions.md R104-R109) and the mask instructions (R110). -/

namespace Sys2Proof.Machine
open Sys2Proof

/-- Segment size of SHFL (R105). -/
def shflSeg (w g : Nat) : Nat := if g = 7 then w else min (2 ^ (g + 1)) w

/-- The lane that SHFL reads for lane i (R105). -/
def shflLane (mode : ShflMode) (sz i x : Nat) : Nat :=
  let base := i - i % sz
  match mode with
  | .idx => base + x % sz
  | .up => if i % sz < x then i else i - x
  | .down => if sz ≤ i % sz + x then i else i + x
  | .xor => base + (i % sz ^^^ x % sz)

/-- SHFL (R104). A channel's entry gives the value of an inactive source lane too (log 127). -/
def execShfl (h : Hdr) (t : Ty) (mode : ShflMode) (g : Nat) (d : Dst) (a b : Opd) (s : State) : Out :=
  .next (regInstr s
    { sw := h.sw, size := sizeOf b, late := true, dsts := dstRef d (Ty.regs t) 0, push := pushOf d
      srcs := [srcOf a (Ty.regs t) 1 h.la, srcOf b 1 2 h.lb] }
    h.km {} [] [] false
    fun x lanes vs =>
      let sz := shflSeg x.w g
      .ok (putDst x lanes d (Ty.regs t) fun i =>
        fillDst d t (val vs 0 (shflLane mode sz i (val vs 1 i % 2 ^ 32)))))

/-- VOTE (R106). -/
def execVote (h : Hdr) (k : VoteKind) (d : MDst) (a : Opd) (s : State) : Out :=
  .next (regInstr s
    { sw := h.sw, size := 8, srcs := [srcOf a 1 1 h.la]
      dsts := match d with
        | .reg r => dstRef r 1 0
        | .mask m => [kRef m 0]
      push := match d with
        | .reg r => pushOf r
        | .mask _ => none }
    h.km { meld := d != .mask .em } [] [] false
    fun x lanes vs =>
      let v := fun (l : Nat) => val vs 0 l % 2 ^ 32
      let ls := laneList lanes x.w
      match d with
      | .mask m =>
        -- ballot: the bits of inactive lanes below W become 0
        .ok { k := [(kIndex m, lanesBelow x.w, maskOf x.w fun l => lanes.getLsbD l && v l != 0)] }
      | .reg r =>
        let res := match k with
          | .all => ls.all fun l => v l != 0
          | .uni => ls.all fun l => v l == v ((ls.head?).getD 0)
          | _ => ls.any fun l => v l != 0
        .ok (putDst x lanes r 1 fun _ => if res then 1 else 0))

/-! ## Reductions (R107) -/

/-- Types of LRED and LSCAN read as integers or as `.f32`. -/
def redInt (t : Ty) (op : RedOp) (x y : Nat) : Nat :=
  match op with
  | .add => wrapT t (intVal t x + intVal t y)
  | .min => if intVal t y < intVal t x then y else x
  | .max => if intVal t x < intVal t y then y else x
  | .and => x &&& y
  | .or => x ||| y
  | .xor => x ^^^ y

/-- Identities for `.excl` (R107). -/
def redIdent (t : Ty) (op : RedOp) : Nat :=
  match op with
  | .add => 0
  | .min => if Ty.isFloat t then 0x7F800000 else wrapT t (intMax t)
  | .max => if Ty.isFloat t then 0xFF800000 else wrapT t (intMin t)
  | .and => 2 ^ Ty.bits t - 1
  | .or => 0
  | .xor => 0

/-- The exact sum of `.f32` values, rounded once, independent of their order (R107). -/
def sumF32 (md : RMode) (vs : List Fl) : Nat × BitVec 6 :=
  let sig := sigFlag vs
  if vs.any Fl.isNan then (0x7FC00000, sig)
  else if vs.any (· == .inf false) then
    (if vs.any (· == .inf true) then (0x7FC00000, flInvalid) else (0x7F800000, 0))
  else if vs.any (· == .inf true) then (0xFF800000, 0)
  else
    -- every finite `.f32` is a multiple of 2^-149
    let units := vs.foldl (fun n v => match v with
      | .fin neg a b => n + sgnNum neg (a * 2 ^ 149 / b)
      | _ => n) (0 : Int)
    let z := if units = 0 ∧ vs ≠ [] ∧ vs.all fun v => v.negative && v.isZero then Fl.fin true 0 1
      else ofSum md.mode units (2 ^ 149)
    roundFl fmtF32 md false z

/-- FMIN or FMAX over a list of codes, in rising lane order (R107, R97). -/
def minMaxF32 (isMax : Bool) : List Nat → Nat × BitVec 6
  | [] => (0, 0)
  | c :: t => t.foldl (fun r y =>
      let q := flMinMax isMax (decodeFl fmtF32 r.1) (decodeFl fmtF32 y)
      ((roundFl fmtF32 ⟨.rne, 0⟩ false q.1).1, r.2 ||| q.2))
    (match flMinMax isMax (decodeFl fmtF32 c) (decodeFl fmtF32 c) with
      | (v, fl) => ((roundFl fmtF32 ⟨.rne, 0⟩ false v).1, fl))

/-- The reduction of a list of contributions, or the identity of an empty one (R107). -/
def reduce (t : Ty) (op : RedOp) (md : RMode) (cs : List Nat) : Nat × BitVec 6 :=
  match cs with
  | [] => (redIdent t op, 0)
  | c :: r =>
    if Ty.isFloat t then
      match op with
      | .min => minMaxF32 false cs
      | .max => minMaxF32 true cs
      | _ => sumF32 md (cs.map (decodeFl fmtF32))
    else (r.foldl (redInt t op) c, 0)

def execLred (h : Hdr) (t : Ty) (op : RedOp) (rnd : Rnd) (d : Dst) (a : Opd) (s : State) : Out :=
  .next (regInstr s
    { sw := h.sw, size := 8, late := true, dsts := dstRef d (Ty.regs t) 0, push := pushOf d, bump := rnd == .rsk
      srcs := [srcOf a (Ty.regs t) 1 h.la] }
    h.km {} [] [] false
    fun x lanes vs =>
      let ls := laneList lanes x.w
      let md := rmodeOf rnd x.c.rkey x.a.rstep.toNat (2 * ((ls.head?).getD 0))
      let r := reduce t op md (ls.map fun l => val vs 0 l % 2 ^ Ty.bits t)
      let w := putDst x lanes d (Ty.regs t) fun _ => fillDst d t r.1
      .ok { w with fl := r.2 })

def execLscan (h : Hdr) (t : Ty) (op : RedOp) (rnd : Rnd) (excl : Bool) (d : Dst) (a : Opd) (s : State) : Out :=
  .next (regInstr s
    { sw := h.sw, size := 8, late := true, dsts := dstRef d (Ty.regs t) 0, push := pushOf d, bump := rnd == .rsk
      srcs := [srcOf a (Ty.regs t) 1 h.la] }
    h.km {} [] [] false
    fun x lanes vs =>
      let ls := laneList lanes x.w
      let one := fun (i : Nat) =>
        let md := rmodeOf rnd x.c.rkey x.a.rstep.toNat (2 * i)
        reduce t op md ((ls.filter fun l => if excl then decide (l < i) else decide (l ≤ i)).map fun l =>
          val vs 0 l % 2 ^ Ty.bits t)
      let w := putDst x lanes d (Ty.regs t) fun i => fillDst d t (one i).1
      .ok { w with fl := orFlags ls fun i => (one i).2 })

/-- BCAST (R108). `b` none: the lowest active lane. A channel's entry gives the value of an inactive source lane too
(log 127). -/
def execBcast (h : Hdr) (t : Ty) (d : Dst) (a : Opd) (b : Option Opd) (s : State) : Out :=
  .next (regInstr s
    { sw := h.sw, size := match b with
        | some o => sizeOf o
        | none => 8
      late := true, dsts := dstRef d (Ty.regs t) 0, push := pushOf d
      srcs := [srcOf a (Ty.regs t) 1 h.la] ++ (match b with
        | some o => [srcOf o 1 2 h.lb]
        | none => []) }
    h.km {} [] [1] false
    fun x lanes vs =>
      let lo := (lowestLane lanes x.w).getD 0
      let j := match b with
        | some _ => val vs 1 lo % 2 ^ 32 % x.w
        | none => lo
      .ok (putDst x lanes d (Ty.regs t) fun _ => fillDst d t (val vs 0 j)))

/-- MATCH (R108): the lowest active lane with the same value, or their number. -/
def execMatchLanes (h : Hdr) (t : Ty) (cnt : Bool) (d : Nat) (a : Opd) (s : State) : Out :=
  .next (regInstr s
    { sw := h.sw, size := 8, late := true, dsts := [.v d 1 0], srcs := [srcOf a (Ty.regs t) 1 h.la] }
    h.km {} [] [] false
    fun x lanes vs =>
      let v := fun (l : Nat) => val vs 0 l % 2 ^ Ty.bits t
      .ok (putDst x lanes (.v d) 1 fun i =>
        let same := (laneList lanes x.w).filter fun l => v l == v i
        if cnt then same.length else (same.head?).getD 0))

/-! ## TOPK (R109) -/

/-- Whether value x stands before value y in descending order. -/
def topBefore (t : Ty) (x y : Nat) : Bool :=
  if Ty.isFloat t then flLt false (decodeFl fmtF32 y) (decodeFl fmtF32 x) else decide (intVal t y < intVal t x)

/-- Inserts a lane behind every lane that is not smaller. -/
def topInsert (t : Ty) (v : Nat → Nat) (i : Nat) : List Nat → List Nat
  | [] => [i]
  | j :: r => if topBefore t (v i) (v j) then i :: j :: r else j :: topInsert t v i r

def topSort (t : Ty) (v : Nat → Nat) (ls : List Nat) : List Nat := ls.foldl (fun acc i => topInsert t v i acc) []

def topLow : Ty → Nat
  | .f32 => 0xFF800000
  | .i32 => 0x80000000
  | _ => 0

/-- TOPK (R109). Its pair counts as a straddling one where R87 says so of a 64-bit pair (log 120); with k = 0 it makes no
write, so a dead pair stays dead (log 128). -/
def execTopk (h : Hdr) (t : Ty) (sc : Nat) (d : Nat) (a b : Opd) (s : State) : Out :=
  .next (regInstr s
    { sw := h.sw, size := sizeOf b, late := true, straddle := some (d, 2)
      dsts := [.v d 1 0, .v (d + 1) 1 0] ++ (if sc = 63 then [] else [.s sc 0])
      srcs := [srcOf a 1 1 h.la, srcOf b 1 2 h.lb] }
    h.km {} [] [1] false
    fun x lanes vs =>
      let v := fun (l : Nat) => val vs 0 l % 2 ^ 32
      let lo := (lowestLane lanes x.w).getD 0
      let k := val vs 1 lo % 2 ^ 32
      let cand := topSort t v ((laneList lanes x.w).filter fun l =>
        if Ty.isFloat t then !(decodeFl fmtF32 (v l)).isNan && !(decodeFl fmtF32 (v l)).isZero else v l != 0)
      let m := min k cand.length
      let slots := lanesBelow (min k x.w)
      let at' := fun (j : Nat) => if j < m then cand[j]? else none
      let vals := putV x slots d (fun j => match at' j with
        | some l => v l
        | none => topLow t) 1
      let idxs := putV x slots (d + 1) (fun j => (at' j).getD 0xFFFFFFFF) 1
      -- a signalling NaN among the candidates' row is an operand (R85)
      let fl := if Ty.isFloat t then sigFlag ((laneList lanes x.w).map fun l => decodeFl fmtF32 (v l)) else 0
      .ok { v := if k = 0 then [] else vals ++ idxs, s := if sc = 63 then [] else [(sc, BitVec.ofNat 64 m)], fl := fl })

/-! ## Mask instructions (R110) -/

/-- The place of a mask instruction: not in the Primer, and a write of `em` not in a meld region (R88, R89). -/
def maskPlace (kd : Option KReg) : Place := { meld := kd != some .em }

def execKop (h : Hdr) (op : KopOp) (kd ka kb : KReg) (s : State) : Out :=
  .next (regInstr s { sw := h.sw, size := 8, dsts := [kRef kd 0] } h.km (maskPlace (some kd))
    (kRef ka 1 :: (if op = .not then [] else [kRef kb 2])) [] true
    fun x _ _ =>
      let a := maskReg x.a ka
      let b := maskReg x.a kb
      let r := match op with
        | .and => a &&& b
        | .or => a ||| b
        | .xor => a ^^^ b
        | .andn => a &&& ~~~b
        | .not => ~~~a
      .ok { k := [(kIndex kd, BitVec.allOnes 128, r &&& lanesBelow x.w)] })

/-- A mask with its low or high half replaced. -/
def halfMask (old : Mask) (hi : Bool) (v : DWord) : Mask :=
  if hi then (old &&& BitVec.ofNat 128 (2 ^ 64 - 1)) ||| (v.setWidth 128 <<< 64)
  else ((old >>> 64) <<< 64) ||| v.setWidth 128

def execKmov (h : Hdr) (f : KmovForm) (s : State) : Out :=
  .next (match f with
    | .kk kd ka =>
      regInstr s { sw := h.sw, size := 8, dsts := [kRef kd 0] } h.km (maskPlace (some kd)) [kRef ka 1] [] true
        fun x _ _ => .ok { k := [(kIndex kd, BitVec.allOnes 128, maskReg x.a ka &&& lanesBelow x.w)] }
    | .loIn kd n =>
      regInstr s { sw := h.sw, size := 8, dsts := [kRef kd 0] } h.km (maskPlace (some kd)) [.s n 1] [] true
        fun x _ _ => .ok { k := [(kIndex kd, BitVec.allOnes 128,
          halfMask (maskReg x.a kd) false (sReg x.a n) &&& lanesBelow x.w)] }
    | .hiIn kd n =>
      regInstr s { sw := h.sw, size := 8, dsts := [kRef kd 0] } h.km (maskPlace (some kd)) [.s n 1] [] true
        fun x _ _ => .ok { k := [(kIndex kd, BitVec.allOnes 128,
          halfMask (maskReg x.a kd) true (sReg x.a n) &&& lanesBelow x.w)] }
    | .loOut n ka =>
      regInstr s { sw := h.sw, size := 8, dsts := [.s n 0] } h.km {} [kRef ka 1] [] false
        fun x _ _ => .ok { s := [(n, (maskReg x.a ka &&& lanesBelow x.w).setWidth 64)] }
    | .hiOut n ka =>
      regInstr s { sw := h.sw, size := 8, dsts := [.s n 0] } h.km {} [kRef ka 1] [] false
        fun x _ _ => .ok { s := [(n, ((maskReg x.a ka &&& lanesBelow x.w) >>> 64).setWidth 64)] }
    | .toV n ka =>
      regInstr s { sw := h.sw, size := 8, dsts := [.v n 1 0] } h.km {} [kRef ka 1] [] false
        fun x lanes _ =>
          .ok { v := putV x lanes n (fun l => if (maskReg x.a ka).getLsbD l then 1 else 0) 1 })

def execKpop (h : Hdr) (d : Nat) (ka : KReg) (s : State) : Out :=
  .next (regInstr s { sw := h.sw, size := 8, dsts := [.s d 0] } h.km {} [kRef ka 1] [] false
    fun x _ _ => .ok { s := [(d, BitVec.ofNat 64 (popCount (maskReg x.a ka) x.w))] })

/-- KFND: the lowest set bit at or above b, or the highest at or below Min(b, W − 1) (R110). -/
def kfnd (m : Mask) (w : Nat) (hi : Bool) (b : Nat) : DWord :=
  let l := laneList m w
  let r := if hi then (l.filter fun i => decide (i ≤ min b (w - 1))).getLast? else (l.filter fun i => decide (b ≤ i)).head?
  match r with
  | some i => BitVec.ofNat 64 i
  | none => BitVec.allOnes 64

def execKfnd (h : Hdr) (hi : Bool) (d : Nat) (ka : KReg) (b : Opd) (s : State) : Out :=
  .next (regInstr s { sw := h.sw, size := sizeOf b, dsts := [.s d 0], srcs := [srcOf b 1 2 h.lb] } h.km {}
    [kRef ka 1] [] false
    fun x _ vs => .ok { s := [(d, kfnd (maskReg x.a ka) x.w hi (val vs 0 0))] })

end Sys2Proof.Machine
end

