-- ==== Sys2Proof/Machine/Manage.lean ====
section
/-! DEFINITION. Contexts and the requests of the device manager; killing a context; the sealed egress and RDMA
(spec/16_isolation.md R304-R320; spec/13_commissions.md R245-R248; spec/11_order_devices.md R215, R223, R224). -/

namespace Sys2Proof.Machine
open Sys2Proof

/-- A live context. -/
def liveCtx (s : State) (id : Nat) : Option Ctx := (getCtx s id).bind fun c => if c.killed.isNone then some c else none

/-- A request about a live context. -/
def ctxRequest (s : State) (i : Instr) (name : String) (signed : Bool) (ctx : Nat) (f : State → Ctx → Option State) : State :=
  devmgr s i name signed fun t => (liveCtx t ctx).bind (f t)

/-! ## Contexts (R305, R314, R315) -/

/-- Whether a range lies in LPDDR-6. -/
def lpddrRange (base size : Nat) : Bool :=
  match paKind base, paKind (base + size - 1) with
  | .lpddr _, .lpddr _ => true
  | _, _ => false

def inRanges (gs : List Range) (base size : Nat) : Bool :=
  gs.any fun g => decide (g.base ≤ base) && decide (base + size ≤ g.base + g.size)

/-- A save region of a size is an LPDDR-6 range within grants. -/
def saveOk (p : CtxParams) (grants : List Range) (size : Nat) : Bool :=
  size == 0 || (lpddrRange p.saveBase size && inRanges grants p.saveBase size)

/-- The limits that R305 states for the parameters. -/
def paramsOk (p : CtxParams) : Bool :=
  decide (p.ctxid < 4096) && p.ptroot % 4096 == 0 && decide (p.grants.length ≤ 16) &&
  (p.grants.all fun g => g.base % 4096 == 0 && g.size % 4096 == 0) &&
  decide (1 ≤ p.setEntries) && decide (p.setEntries ≤ 2 ^ 24) && decide (1 ≤ p.tquota) && decide (p.tquota ≤ 4096) &&
  (p.poolChunk == 256 || p.poolChunk == 4096) && p.poolBase % p.poolChunk == 0 && p.poolSize % p.poolChunk == 0 &&
  saveOk p p.grants p.saveSize && (p.setBacking == 0 || lpddrRange p.setBackBase p.setBacking)

/-- Whether an ID names no live context, and its kill flag has been held for 2^22 cycles (R315). -/
def idFree (s : State) (id : Nat) : Bool :=
  match getCtx s id with
  | none => true
  | some c => c.drained && c.killed.any fun t => decide (t + 2 ^ 22 ≤ s.cycle)

/-- The creation parameters as numbers, in the order of R305. -/
def paramList (p : CtxParams) : List Nat :=
  [p.ctxid, p.ptroot] ++ (p.grants.flatMap fun g => [g.base, g.size]) ++
  [p.setEntries, p.setQuota, p.setBackBase, p.setBacking, p.tquota, p.poolBase, p.poolSize, p.poolChunk, p.shadowReserve, p.easelReserve,
    if p.sealed then 1 else 0, p.saveBase, p.saveSize, p.measure.toNat]

/-- The first attestation digest (R320). -/
def firstDigest (j : Juran) (p : CtxParams) : BitVec 256 :=
  sha256 (beBytes 32 (fwDigest j).toNat ++ beBytes 32 p.measure.toNat ++ Config.paramBytes (paramList p))

/-- Whether a range still belongs to a killed context whose memory has not been freed (R314 step 4). -/
def heldMemory (s : State) (r : Range) : Bool :=
  s.ctxs.any fun c => c.2.killed.isSome && !c.2.drained &&
    (⟨c.2.params.setBackBase, c.2.params.setBacking⟩ :: c.2.params.grants ++ c.2.extraGrants).any fun g =>
      decide (g.base < r.base + r.size) && decide (r.base < g.base + g.size)

/-- The physical ranges that creation assigns to a context. -/
def assigned (p : CtxParams) : List Range := ⟨p.setBackBase, p.setBacking⟩ :: p.grants

/-- CREATE_CONTEXT: in READY; the memory assigned to the context is zeroed. -/
def execCreateContext (signer : Option MgmtKey) (p : CtxParams) (s : State) : Out :=
  .next (devmgr s (.createContext signer p) "CREATE_CONTEXT" (enrolled s signer) fun t =>
    if t.juran.power = .ready ∧ paramsOk p ∧ idFree t p.ctxid ∧ !(assigned p).any (heldMemory t) then
      let t1 := (assigned p).foldl (fun u g => zeroRange u g.base g.size) t
      some (setCtx t1 p.ctxid { id := p.ctxid, params := p, digest := firstDigest t.juran p })
    else none)

/-- Everything of a context that executes, waits or is outstanding is discarded; nothing more is launched (R314 steps 1
and 2). A packet in flight is dropped at the flag. -/
def stopContext (s : State) (id : Nat) : State :=
  let ps := (s.panels.filter fun p => p.2.ctx == id).map (·.1)
  let ks := (s.strokes.filter fun k => ps.contains k.2.panel).map (·.1)
  let as := (s.agents.filter fun a => ks.contains a.2.stroke).map (·.1)
  { s with
    panels := tabFilter (fun i _ => !ps.contains i) s.panels
    strokes := tabFilter (fun i _ => !ks.contains i) s.strokes
    agents := tabFilter (fun i _ => !as.contains i) s.agents
    comms := tabFilter (fun _ c => c.ctx != id) s.comms
    saved := tabFilter (fun _ v => v.ctx != id) s.saved
    results := tabFilter (fun _ r => r.ctx != id) s.results
    packets := tabFilter (fun _ p => p.ctx != id) s.packets
    ackq := tabFilter (fun _ k => !ks.contains k.stroke) s.ackq
    groups := tabFilter (fun _ g => !ks.contains g.stroke) s.groups
    copies := tabFilter (fun _ c => c.ctx != id) s.copies
    colls := tabFilter (fun _ c => c.ctx != id) s.colls
    fills := tabFilter (fun _ f => f.ctx != id) s.fills
    images := tabFilter (fun _ r => !as.contains r.agent) s.images
    setOps := tabFilter (fun _ o => o.ctx != id) s.setOps
    deposits := tabFilter (fun _ d => d.ctx != id) s.deposits
    tt := tabMap (fun _ t => if t.cfg.ctx = id then { t with cfg := { t.cfg with enable := false }, pending := none, inst := none } else t) s.tt
    easel := tabMap (fun _ e => if e.ctx = id then { e with ring := [], spill := [], pull := none } else e) s.easel
    cores := tabMap (fun _ c => { c with
      tasks := c.tasks.filter fun t => t.ctx != id
      matrix := c.matrix.bind fun m => if ps.contains m.owner then none else some m }) s.cores }

/-- KILL_CONTEXT (R314 steps 1 and 2): its reply follows when step 4 is complete (R356). -/
def execKillContext (signer : Option MgmtKey) (id : Nat) (s : State) : Out :=
  .next (startRequest s (.killContext signer id) "KILL_CONTEXT" (enrolled s signer) fun t =>
    (liveCtx t id).map fun c => setCtx (stopContext t id) id { c with killed := some t.cycle })

/-- Whether nothing is outstanding for a context (R314 step 3). -/
def ctxQuiet (s : State) (id : Nat) : Bool :=
  !(s.packets.any fun p => p.2.ctx == id) && !(s.copies.any fun c => c.2.ctx == id) && !(s.colls.any fun c => c.2.ctx == id) &&
  !(s.fills.any fun f => f.2.ctx == id) && !(s.setOps.any fun o => o.2.ctx == id) && !(s.deposits.any fun d => d.2.ctx == id)

/-- KILL_DRAIN_COMPLETE (R314 step 4): cached lines and translations go, and what the context held is released. -/
def execKillDrainComplete (id : Nat) (s : State) : Out :=
  .next (match getCtx s id with
    | none => s
    | some c =>
      if c.killed.isNone || c.drained || !ctxQuiet s id then s
      else
        let s1 := { s with
          cores := tabMap (fun _ k => { k with
            near := k.near.filter fun l => l.ctx != id
            recent := k.recent.filter fun l => l.ctx != id
            icache := k.icache.filter fun l => l.1 != id
            tags := tabFilter (fun _ t => t.1 != id) k.tags }) s.cores
          qps := tabFilter (fun _ c => c != id) s.qps
          regions := s.regions.filter fun r => r.ctx != id
          cqueues := tabFilter (fun _ q => q.reg.ctx != id) s.cqueues
          easel := tabFilter (fun _ e => e.ctx != id) s.easel }
        complete (setCtx s1 id { c with tlb := [], sets := [], windows := [], egress := [], areas := [], drained := true })
          "KILL_CONTEXT")

/-- EXTEND_GRANTS: up to 16 ranges in all; the new one is zeroed. -/
def execExtendGrants (signer : Option MgmtKey) (id : Nat) (r : Range) (s : State) : Out :=
  .next (ctxRequest s (.extendGrants signer id r) "EXTEND_GRANTS" (enrolled s signer) id fun t c =>
    if r.base % 4096 ≠ 0 ∨ r.size % 4096 ≠ 0 ∨ 16 ≤ c.params.grants.length + c.extraGrants.length ∨ heldMemory t r then none
    else some (setCtx (zeroRange t r.base r.size) id { c with extraGrants := c.extraGrants ++ [r] }))

/-- ENLARGE_SAVE_REGION: the region's new size, still within the grants. -/
def execEnlargeSaveRegion (signer : Option MgmtKey) (id size : Nat) (s : State) : Out :=
  .next (ctxRequest s (.enlargeSaveRegion signer id size) "ENLARGE_SAVE_REGION" (enrolled s signer) id fun t c =>
    if size < c.params.saveSize + c.extraSave ∨ !saveOk c.params (c.params.grants ++ c.extraGrants) size then none
    else some (setCtx t id { c with extraSave := size - c.params.saveSize }))

/-! ## Queues, the table, windows and channels -/

/-- REGISTER_COMMISSION_QUEUE: the queue is ACTIVE from then on; registering a FAULTED queue again makes it ACTIVE
(log 14). -/
def execRegisterCommissionQueue (signer : Option MgmtKey) (n : Nat) (r : QueueReg) (s : State) : Out :=
  .next (ctxRequest s (.registerCommissionQueue signer n r) "REGISTER_COMMISSION_QUEUE" (enrolled s signer) r.ctx fun t _ =>
    if 256 ≤ n ∨ ((tabGet t.cqueues n).any fun q => q.reg.ctx != r.ctx) then none
    else
      let q : CQueue := { reg := r }
      some (setQcb { t with cqueues := tabPut t.cqueues n q } q 12 1 1))

/-- UNREGISTER_COMMISSION_QUEUE: a queue whose record is half read faults with DESTROYED (R246). -/
def execUnregisterCommissionQueue (signer : Option MgmtKey) (n : Nat) (s : State) : Out :=
  .next (devmgr s (.unregisterCommissionQueue signer n) "UNREGISTER_COMMISSION_QUEUE" (enrolled s signer) fun t =>
    (tabGet t.cqueues n).map fun q =>
      let t1 := if q.reading then faultQueue t n q 5 none else t
      { t1 with cqueues := tabDel t1.cqueues n })

/-- WRITE_TT_ENTRY, within the ranges of R248. -/
def execWriteTtEntry (signer : Option MgmtKey) (n : Nat) (e : TTEntry) (s : State) : Out :=
  .next (devmgr s (.writeTtEntry signer n e) "WRITE_TT_ENTRY" (enrolled s signer) fun t =>
    if n < 256 ∧ entryOk e ∧ e.skipped < 2 ^ 32 then
      some (armEntry t n e)
    else none)

/-- Whether a window's local range lies in SRAM or in LPDDR-6 (R215). -/
def windowLocal (w : ExportWin) : Bool :=
  match paKind w.lbase, paKind (w.lbase + w.osize - 1) with
  | .sram d t _, .sram e u _ => d == e && t == u
  | .lpddr _, .lpddr _ => true
  | _, _ => false

/-- SET_EXPORT_WINDOW: up to 16 windows that do not overlap; one that is set stays for the life of the context (R215,
R305). -/
def execSetExportWindow (signer : Option MgmtKey) (id : Nat) (w : ExportWin) (s : State) : Out :=
  .next (ctxRequest s (.setExportWindow signer id w) "SET_EXPORT_WINDOW" (enrolled s signer) id fun t c =>
    if w.obase % 4096 ≠ 0 ∨ w.osize % 4096 ≠ 0 ∨ w.osize = 0 ∨ !windowLocal w ∨ 16 ≤ c.windows.length ∨
        (c.windows.any fun v => decide (v.obase < w.obase + w.osize) && decide (w.obase < v.obase + v.osize)) then none
    else some (setCtx t id { c with windows := c.windows ++ [w] }))

/-- ASSIGN_EASEL_QUEUES: queues of 0 to 1,023 that no context holds. -/
def execAssignEaselQueues (signer : Option MgmtKey) (id : Nat) (qs : List Nat) (s : State) : Out :=
  .next (ctxRequest s (.assignEaselQueues signer id qs) "ASSIGN_EASEL_QUEUES" (enrolled s signer) id fun t _ =>
    if qs.any fun q => decide (1023 < q) || (tabGet t.easel q).isSome then none
    else some { t with easel := qs.foldl (fun m q => tabPut m q { ctx := id }) t.easel })

def isPow2 (n : Nat) : Bool := (List.range 13).any fun k => n == 2 ^ k

/-- CONFIGURE_EGRESS_CHANNEL: up to 16 channels, each configured once, a ring of 1 to 4,096 slots (R305, R317). -/
def execConfigureEgressChannel (signer : Option MgmtKey) (id chan : Nat) (e : EgressCfg) (s : State) : Out :=
  .next (ctxRequest s (.configureEgressChannel signer id chan e) "CONFIGURE_EGRESS_CHANNEL" (enrolled s signer) id fun t c =>
    if 16 ≤ chan ∨ !isPow2 e.slots ∨ (tabGet c.egress chan).isSome then none
    else some (setCtx t id { c with egress := tabPut c.egress chan { cfg := e } }))

/-- Zeroes n bytes of a context's memory, page by page, errors included: a page that does not translate has none, and an
error that its walk meets is counted (R348, log 124). `fuel` bounds the pages. -/
def zeroPages (ctx : Nat) : Nat → Nat → Nat → State → State
  | 0, _, _, s => s
  | fuel + 1, va, n, s =>
    if n = 0 then s
    else
      let k := min n (4096 - va % 4096)
      zeroPages ctx fuel (va + k) (n - k) (match accessByte s ctx va .rw with
        | .ok (pa, _) => zeroRange s pa k
        | .error f => countWalk s ctx f)

/-- RESET_CHUNK_POOL: while no commission of the context runs; the pool's bytes read as 0 again (R286). -/
def execResetChunkPool (signer : Option MgmtKey) (id : Nat) (s : State) : Out :=
  .next (ctxRequest s (.resetChunkPool signer id) "RESET_CHUNK_POOL" (enrolled s signer) id fun t c =>
    if t.comms.any fun m => m.2.ctx == id then none
    else
      let n := c.params.poolSize
      some (setCtx (zeroPages id (n / 4096 + 2) c.params.poolBase n t) id { c with chunks := 0 }))

/-- END_COMMISSION: its panels, tasks and saved panels are discarded, and it retires as ENDED (R247). -/
def execEndCommission (signer : Option MgmtKey) (id : Nat) (s : State) : Out :=
  .next (devmgr s (.endCommission signer id) "END_COMMISSION" (enrolled s signer) fun t =>
    (getComm t id).map fun c =>
      let t1 := (t.panels.filter fun p => p.2.comm == id).foldl (fun u p => dropPanel u p.1 p.2) t
      let mine := t1.saved.filter fun v => v.2.comm == id
      let t2 := mine.foldl (fun u v => freeArea u v.2.ctx (some v.2.area)) t1
      setComm { t2 with
        saved := tabFilter (fun _ v => v.comm != id) t2.saved
        easel := tabMap (fun _ e => if mine.any fun v => (e.pull.map (·.1)) == some v.1 then { e with pull := none } else e) t2.easel
        cores := tabMap (fun _ k => { k with tasks := k.tasks.filter fun x => x.comm != id }) t2.cores } id
        { c with unplaced := [], ended := true })

/-! ## Measurement and attestation (R320) -/

/-- MEASURE_INTO_CONTEXT: digest ← SHA-256(digest ‖ SHA-256 of the bytes). -/
def execMeasureIntoContext (signer : Option MgmtKey) (id : Nat) (bytes : List Byte) (s : State) : Out :=
  .next (ctxRequest s (.measureIntoContext signer id bytes) "MEASURE_INTO_CONTEXT" (enrolled s signer) id fun t c =>
    some (setCtx t id { c with digest := sha256 (beBytes 32 c.digest.toNat ++ beBytes 32 (sha256 bytes).toNat) }))

/-- The contents of a report: identity, firmware digest, context ID and digest, nonce, PTP time. -/
def reportBytes (s : State) (c : Ctx) (nonce : BitVec 256) : List Byte :=
  beBytes 32 Config.identityHash.toNat ++ beBytes 32 (fwDigest s.juran).toNat ++ bytesOf 2 c.id ++ beBytes 32 c.digest.toNat ++
  beBytes 32 nonce.toNat ++ bytesOf 8 (deviceTime s)

/-- The boot key of the running firmware. -/
def bootKeyOf (s : State) : Nat := Config.bootKey (fwDigest s.juran)

/-- ATTESTATION_REPORT: signed by the boot key, with both certificates. -/
def execAttestationReport (signer : Option MgmtKey) (id : Nat) (nonce : BitVec 256) (s : State) : Out :=
  .next (manage s (.attestationReport signer id nonce) "ATTESTATION_REPORT" false (enrolled s signer) fun t =>
    (liveCtx t id).map fun c =>
      let b := reportBytes t c nonce
      (t, [], b ++ beBytes 64 (Config.ecdsaSign (bootKeyOf t) (sha256 b)).toNat ++ Config.certificate 0 Config.identityKey ++
        Config.certificate Config.identityKey (bootKeyOf t)))

/-! ## The egress sealer (R317-R319) -/

/-- Bytes 0 to 127 of a provenance record. -/
def provenance (s : State) (c : Ctx) (chan seq : Nat) (frame : List Byte) : List Byte :=
  bytesOf 4 0x52505856 ++ bytesOf 2 1 ++ bytesOf 2 0 ++ beBytes 32 Config.identityHash.toNat ++ beBytes 32 c.digest.toNat ++
  bytesOf 8 (deviceTime s) ++ bytesOf 8 seq ++ bytesOf 4 frame.length ++ bytesOf 2 c.id ++ bytesOf 2 chan ++
  beBytes 32 (sha256 frame).toNat

/-- The record of 192 bytes. -/
def provenanceRecord (s : State) (c : Ctx) (chan seq : Nat) (frame : List Byte) : List Byte :=
  let b := provenance s c chan seq frame
  b ++ beBytes 64 (Config.ecdsaSign (bootKeyOf s) (sha256 b)).toNat

/-- Writes a descriptor's status word. -/
def egressStatus (s : State) (ctx addr seq status : Nat) : State :=
  if addr = 0 ∨ addr % 8 ≠ 0 then s
  else match segsFor s ctx .we addr 8 with
    | .error e => countWalk s ctx e
    | .ok g =>
      match reachOf s ctx true g with
      | .here h => (engineWrite s ctx h (bytesOf 8 (status + 2 ^ 8 * seq))).1
      | _ => s

/-- One descriptor: its frame is sent, or the fault or the reserved field is reported. -/
def sealDescriptor (s : State) (c : Ctx) (chan seq : Nat) (d : List Byte) : State :=
  let f := recNat d
  let fault := fun (t : State) => report (egressStatus t c.id (f 16 8) seq 1) (.egressFault c.id chan seq)
  if f 12 4 ≠ 0 ∨ f 24 8 ≠ 0 then egressStatus s c.id (f 16 8) seq 2
  else if f 8 4 = 0 ∨ 8192 < f 8 4 ∨ f 16 8 % 8 ≠ 0 then fault s
  else match dispatchRead s c.id (f 0 8) (f 8 4) 0 with
    | .error r => fault (countRead s c.id r.2)
    | .ok frame =>
      egressStatus (report { s with freeN := s.freeN + frame.length }
        (.frame c.id chan (frame ++ provenanceRecord s c chan seq frame))) c.id (f 16 8) seq 0

/-- Whether a channel's producer index is ahead of the sealer, or the erroneous word that it met in reading it. -/
def egressReady (s : State) (c : Ctx) (e : Egress) : Except (Option Nat) Bool :=
  match dispatchRead s c.id e.cfg.pidx.toNat 8 0 with
  | .ok b => .ok (decide (e.index < ofBytes b))
  | .error r => .error r.2

/-- EGRESS_DESCRIPTOR: the sealer takes a channel's next descriptor. One that cannot be read is a faulting one. -/
def execEgressDescriptor (ctx chan : Nat) (s : State) : Out :=
  .next (match liveCtx s ctx with
    | none => s
    | some c =>
      match tabGet c.egress chan with
      | none => s
      | some e =>
        if !running s then s
        else match egressReady s c e with
        | .ok false => s
        | .error none => s
        | .error (some w) =>
          -- counted and logged once while it stands (R348)
          if e.told then s
          else setCtx (uncorrectable s w ctx) ctx { c with egress := tabPut c.egress chan { e with told := true } }
        | .ok true =>
          let s1 := setCtx { s with freeN := s.freeN + 40 } ctx
            { c with egress := tabPut c.egress chan { e with index := e.index + 1, seq := e.seq + 1, told := false } }
          match dispatchRead s ctx (e.cfg.ring.toNat + 32 * (e.index % e.cfg.slots)) 32 8 with
          | .error r => report (countRead s1 ctx r.2) (.egressFault ctx chan e.seq)
          | .ok d => sealDescriptor s1 c chan e.seq d)

/-! ## What system software and the device manager set without a request of their own (R215, R224, R250, R304) -/

/-- Whether an entry's address lies in a table of a context that is no tenant table: its root, or one below it through
entries whose TEN is 0. `fuel`: levels. -/
def inTable (m : Memory) (pa : Nat) : Nat → Nat → Bool
  | 0, _ => false
  | fuel + 1, tbl =>
    (decide (tbl ≤ pa) && decide (pa < tbl + 4096)) || (List.range 512).any fun i =>
      let e := ofBytes (memRead m (tbl + 8 * i) 8)
      bitAt e 0 && !bitAt e 1 && !bitAt e 9 && inTable m pa fuel (bitsAt e 51 12 * 4096)

/-- WRITE_TABLE, a request of the device manager: one entry of a page-table root or of a table that is no tenant table is
written (R304, R309, R356); refused where an uncorrectable error refuses the write (R347). -/
def writeTable (s : State) (signer : Option MgmtKey) (ctx pa : Nat) (entry : DWord) : State :=
  takeRequest s (.writeTable signer ctx pa entry) "WRITE_TABLE" false (enrolled s signer) fun t =>
    if (liveCtx t ctx).any fun c => pa % 8 == 0 && inTable t.mem pa 5 c.params.ptroot then
      let r := engineWrite t ctx [(pa, 8)] (bytesOf 8 entry.toNat)
      report r.1 (.reply "WRITE_TABLE" r.2.isNone [] [])
    else reply t "WRITE_TABLE" none

/-- System software binds a queue pair to a live context (R224). -/
def bindQp (s : State) (qp ctx : Nat) : State :=
  if qp < 1024 ∧ (liveCtx s ctx).isSome then { s with qps := tabPut s.qps qp ctx } else s

/-- System software chooses the PTP source: one of the two Ethernet ports, and a domain (R250). -/
def choosePtp (s : State) (port domain : Nat) : State :=
  if port < 2 ∧ domain < 256 then { s with juran := { s.juran with ptpPort := port, ptpDomain := domain, ptpLocked := false } }
  else s

/-- A management key is enrolled (R356). -/
def enrollKey (s : State) (k : MgmtKey) : State :=
  if s.juran.keys.contains k then s else { s with juran := { s.juran with keys := k :: s.juran.keys } }

/-- System software assigns this device its number (R215). -/
def assignDevice (s : State) (n : Nat) : State := if n < 128 then { s with juran := { s.juran with dev := n } } else s

/-! ## RDMA (R223, R224) -/

/-- The live context that a message names, where its queue pair is bound to it (R224). -/
def qpCtx (s : State) (ctx qp : Nat) : Option Ctx :=
  if s.juran.power ≠ .ready ∨ tabGet s.qps qp ≠ some ctx then none else liveCtx s ctx

/-- RDMA_WRITE: one message, performed at its homes; refused with a NAK where it cannot be written. -/
def execRdmaWrite (ctx qp : Nat) (va : DWord) (bytes : List Byte) (s : State) : Out :=
  .next (match qpCtx s ctx qp with
    | none => report s (.nak qp)
    | some c =>
      match segsFor s c.id .we va.toNat bytes.length with
      | .error e => report (countWalk s c.id e) (.nak qp)
      | .ok g =>
        if g.any fun p => reachOf s c.id true [p] == .refused then report s (.nak qp)
        else match unitWrite s c.id g bytes with
          | (s1, some _) => report s1 (.nak qp)
          | (s1, none) => s1)

/-- RDMA_READ: refused with a NAK for a sealed context (R319). -/
def execRdmaRead (ctx qp : Nat) (va : DWord) (n : Nat) (s : State) : Out :=
  .next (match qpCtx s ctx qp with
    | none => report s (.nak qp)
    | some c =>
      if c.params.sealed then report s (.nak qp)
      else match dispatchRead s c.id va.toNat n 0 with
        | .error r => report (countRead s ctx r.2) (.nak qp)
        | .ok bs => report { s with freeN := s.freeN + n } (.rdmaData qp bs))

/-- RDMA_REFUSED: SEND, an atomic or an unreliable datagram. -/
def execRdmaRefused (qp : Nat) (s : State) : Out := .next (report s (.nak qp))

end Sys2Proof.Machine
end

