-- ==== Sys2Proof/Machine/System.lean ====
section
/-! DEFINITION. The system instructions (spec/17_traps.md R328-R335, R341; spec/16_isolation.md R313). -/

namespace Sys2Proof.Machine
open Sys2Proof

/-- The checks of a system instruction in the order of R322, and the value of its operand B. `runs`: whether the agent
may run it at all, ILLOP otherwise, unless a meld region forbids it first (R262, log 100); `masked`: it acts under its mask, which it therefore reads. -/
def sysGather (s : State) (x0 : Ctxt) (h : Hdr) (pl : Place) (reads : List Ref) (b : List Opd) (runs : Agent → Bool)
    (masked : Bool) : Eff (State × Ctxt × DWord) := do
  let lanes := activeMask x0.a h.km
  let srcs := b.map fun o => srcOf o 1 2 h.lb
  if !runs x0.a && !(x0.a.meld && !pl.meld) then trapAt .illop lanes
  checkPlace x0 lanes pl
  let (s, x) ← switchMark s x0 h.sw
  let reads := reads ++ (if masked then selRefs x h.km else [])
  checkRegs x lanes srcs reads
  checkMeld x lanes pl
  checkReads x lanes reads
  let vs ← srcValues s x lanes srcs srcs.length 0
  return (s, x, BitVec.ofNat 64 (val vs 0 0))

/-- A system instruction with one scalar or immediate operand B. -/
def sysInstr (s : State) (h : Hdr) (pl : Place) (reads : List Ref) (b : List Opd)
    (body : State → Ctxt → Mask → DWord → Eff State) (runs : Agent → Bool := fun _ => true) (masked : Bool := false) : State :=
  runAgent s fun x0 => do
    let (s, x, v) ← sysGather s x0 h pl reads b runs masked
    body s x (activeMask x0.a h.km) v

/-- TRAP: SWTRAP where a lane is active (R328). -/
def execTrap (h : Hdr) (b : Opd) (s : State) : Out :=
  .next (sysInstr s h {} [] [b] (masked := true) fun s x lanes v =>
    if lanes = 0 then .ok (stepPc s x.aid (sizeOf b))
    else if 2 ^ 16 ≤ v.toNat then trapAt .resfield lanes
    else trapAt .swtrap lanes v)

/-- HALT: the agent stops once nothing is outstanding, and the code is reported (R328). -/
def execHalt (h : Hdr) (b : Opd) (s : State) : Out :=
  .next (sysInstr s h { meld := false } [] [b] fun s x lanes v => do
    if 2 ^ 16 ≤ v.toNat then trapAt .resfield lanes
    waitS s x.aid
    waitStreams s x lanes allStreams
    let (ctx, tag, panel, stroke) := agentPlace s x.a
    return report (setAgent s x.aid { x.a with run := .halted, hazV := 0, hazS := 0, hazK := 0 })
      (.halted v.toNat ctx tag panel stroke x.a.pc))

def execRtt (sw : Bool) (s : State) : Out :=
  .next (ctlInstr s sw { meld := false } [] fun s x lanes => do
    if !x.a.handler then trapAt .illop lanes
    waitS s x.aid
    return setAgent s x.aid (returnFrom x.a))

/-- PDONE: the agent of a handler entered by PREEMPT stops with its resume PC (R334); in a group that drains it goes on
there (log 133). -/
def execPdone (h : Hdr) (n : Nat) (s : State) : Out :=
  .next (sysInstr s h { meld := false } [.s n 1] [] (runs := fun a => a.handler && a.byPreempt) fun s x lanes _ => do
    waitS s x.aid
    waitStreams s x lanes allStreams
    let v := if n = 63 then x.a.tpc else sReg x.a n
    let pc : VAddr := if v.toNat % 8 ≠ 0 ∨ 2 ^ 57 ≤ v.toNat then 0 else v.setWidth 57
    -- a group that drains, since its request found no room, runs on (R333)
    if x.p.req.any fun r => r.how == .drain then return setAgent s x.aid { returnFrom x.a with pc := pc }
    else return setAgent s x.aid { x.a with run := .done pc, hazV := 0, hazS := 0, hazK := 0 })

/-- Whether a checkpoint-mode request is pending for the agent's panel (R335). -/
def ckptPending (x : Ctxt) : Bool :=
  match x.p.req with
  | some r => r.how == .ckpt
  | none => false

/-- CKPT: 0 without a request; else the agent parks, and the resumed panel gives 1 (R335). -/
def execCkpt (h : Hdr) (d : Nat) (b : Opd) (s : State) : Out :=
  .next (sysInstr s h { meld := false } [.s d 0] [b] fun s x lanes v =>
    if 2 ^ 11 ≤ v.toNat then trapAt .resfield lanes
    else match if x.a.handler then none else x.a.wake with
      | some w =>
        .ok (stepPc (setAgent s x.aid (setSReg { x.a with wake := none } d w)) x.aid (sizeOf b))
      | none =>
        if !ckptPending x || x.a.handler then .ok (stepPc (putS s x.aid d 0) x.aid (sizeOf b))
        else do
          waitS s x.aid
          return blockAgent (setAgent s x.aid { x.a with ckptMask := v, hazV := 0, hazS := 0, hazK := 0 }) x.aid .ckpt)

def execCkptHint (h : Hdr) (b : Opd) (s : State) : Out :=
  .next (sysInstr s h { meld := false } [] [b] fun s x _ v =>
    .ok (stepPc (setPanel s x.st.panel { x.p with hint := some (v.toNat % 2 ^ 32, s.cycle) }) x.aid (sizeOf b)))

/-- ERRD: the error records of the panel (R330). -/
def execErrd (h : Hdr) (clr : Bool) (d : Nat) (b : Opd) (s : State) : Out :=
  .next (sysInstr s h { meld := false } [.s d 0] [b] (masked := true) fun s x lanes v =>
    if lanes = 0 then .ok (stepPc s x.aid (sizeOf b))
    else if 3 ≤ v.toNat then trapAt .resfield lanes
    else
      let r := match v.toNat with
        | 0 => min x.p.errCount (2 ^ 16 - 1) + 2 ^ 16 * (x.p.errReason % 256) + (if x.p.errVirtual then 2 ^ 24 else 0)
        | 1 => x.p.errAddr % 2 ^ 57
        | _ => x.p.primerState
      let p := if clr then { x.p with errCount := 0, errReason := 0, errVirtual := false, errAddr := 0 } else x.p
      .ok (stepPc (putS (setPanel s x.st.panel p) x.aid d (BitVec.ofNat 64 r)) x.aid (sizeOf b)))

/-! ## TLBI (R313) -/

/-- Some access of the context issued before `bound` is not yet performed: a read, a packet, an operand fill, an image
read, or the writes of an SSTORE. -/
def accessesBefore (s : State) (ctx bound : Nat) : Bool :=
  (s.results.any fun r => decide (r.1 < bound) && r.2.ctx == ctx && !r.2.reads.isEmpty) ||
  (s.packets.any fun p => decide (p.1 < bound) && p.2.ctx == ctx) ||
  (s.fills.any fun f => decide (f.1 < bound) && f.2.ctx == ctx) ||
  (s.images.any fun m => decide (m.1 < bound) && ((getAgent s m.2.agent).map fun a => agentCtx s a) == some ctx) ||
  (s.setOps.any fun o => decide (o.1 < bound) && o.2.ctx == ctx && !o.2.todo.isEmpty)

/-- TLBI of the translations that `hit` names. `size`: bytes of the instruction. -/
def tlbiCommon (s : State) (x : Ctxt) (lanes : Mask) (size : Nat) (hit : TlbEntry → Bool) : Eff State := do
  waitStreams s x lanes allStreams
  match getCtx s x.p.ctx with
  | none => return s
  | some c =>
    let bound := x.a.tlbiAt.getD s.fresh
    let s1 := setCtx s x.p.ctx { c with tlb := c.tlb.filter fun t => !hit t }
    if accessesBefore s1 x.p.ctx bound then
      -- parks until the accesses made with such a translation have been performed
      return parkAgent (setAgent s1 x.aid { x.a with tlbiAt := some bound }) x.aid .results
    else
      return stepPc (acquireInvalidate (setAgent s1 x.aid { x.a with tlbiAt := none }) x.p.core) x.aid size

def tlbiPlace : Place := { meld := false }

def execTlbiRng (h : Hdr) (n : Nat) (b : Opd) (s : State) : Out :=
  .next (sysInstr s h tlbiPlace [.s n 1] [b] fun s x lanes v => do
    if x.a.priv = 0 then trapAt .perm lanes
    let base := (sReg x.a n).toNat
    if base % 4096 ≠ 0 then trapAt .align lanes 0 (sReg x.a n)
    if v = 0 ∨ 2 ^ 57 < base + v.toNat then trapAt .resfield lanes
    tlbiCommon s x lanes (sizeOf b) fun t => decide (t.va < base + v.toNat) && decide (base < t.va + t.size))

def execTlbiAll (h : Hdr) (s : State) : Out :=
  .next (sysInstr s h tlbiPlace [] [] fun s x lanes _ => do
    if x.a.priv = 0 then trapAt .perm lanes
    tlbiCommon s x lanes 8 fun _ => true)

def execTlbiNg (h : Hdr) (s : State) : Out :=
  .next (sysInstr s h tlbiPlace [] [] fun s x lanes _ => do
    if x.a.priv = 0 then trapAt .perm lanes
    tlbiCommon s x lanes 8 fun t => !t.g)

end Sys2Proof.Machine
end

