-- ==== Sys2Proof/Machine/Dispatch.lean ====
section
/-! DEFINITION. The meaning of every instruction: one call for each constructor. -/

namespace Sys2Proof.Machine
open Sys2Proof

def exec (i : Instr) (s : State) : Host.Outcome State Fault Refusal :=
  match i with
  | .nop x0 => Sys2Proof.Machine.execNop x0 s
  | .land x0 => Sys2Proof.Machine.execLand x0 s
  | .bra x0 x1 => Sys2Proof.Machine.execBra x0 x1 s
  | .brzMask x0 x1 x2 => Sys2Proof.Machine.execBrzMask x0 x1 x2 s
  | .brzScalar x0 x1 x2 => Sys2Proof.Machine.execBrzScalar x0 x1 x2 s
  | .brnzMask x0 x1 x2 => Sys2Proof.Machine.execBrnzMask x0 x1 x2 s
  | .brnzScalar x0 x1 x2 => Sys2Proof.Machine.execBrnzScalar x0 x1 x2 s
  | .call x0 x1 x2 => Sys2Proof.Machine.execCall x0 x1 x2 s
  | .ret x0 x1 x2 => Sys2Proof.Machine.execRet x0 x1 x2 s
  | .exit x0 => Sys2Proof.Machine.execExit x0 s
  | .loop x0 x1 x2 => Sys2Proof.Machine.execLoop x0 x1 x2 s
  | .rgn x0 x1 x2 x3 => Sys2Proof.Machine.execRgn x0 x1 x2 x3 s
  | .brx x0 x1 x2 x3 => Sys2Proof.Machine.execBrx x0 x1 x2 x3 s
  | .split x0 x1 x2 x3 => Sys2Proof.Machine.execSplit x0 x1 x2 x3 s
  | .join x0 x1 => Sys2Proof.Machine.execJoin x0 x1 s
  | .meld x0 x1 x2 x3 => Sys2Proof.Machine.execMeld x0 x1 x2 x3 s
  | .mend x0 => Sys2Proof.Machine.execMend x0 s
  | .path x0 x1 x2 x3 x4 x5 => Sys2Proof.Machine.execPath x0 x1 x2 x3 x4 x5 s
  | .iadd x0 x1 x2 x3 x4 => Sys2Proof.Machine.execIadd x0 x1 x2 x3 x4 s
  | .isub x0 x1 x2 x3 x4 => Sys2Proof.Machine.execIsub x0 x1 x2 x3 x4 s
  | .iaddc x0 x1 x2 x3 x4 x5 x6 => Sys2Proof.Machine.execIaddc x0 x1 x2 x3 x4 x5 x6 s
  | .iadds x0 x1 x2 x3 x4 x5 => Sys2Proof.Machine.execIadds x0 x1 x2 x3 x4 x5 s
  | .imul x0 x1 x2 x3 x4 => Sys2Proof.Machine.execImul x0 x1 x2 x3 x4 s
  | .imulh x0 x1 x2 x3 x4 => Sys2Proof.Machine.execImulh x0 x1 x2 x3 x4 s
  | .imad x0 x1 x2 x3 x4 x5 => Sys2Proof.Machine.execImad x0 x1 x2 x3 x4 x5 s
  | .idiv x0 x1 x2 x3 x4 => Sys2Proof.Machine.execIdiv x0 x1 x2 x3 x4 s
  | .irem x0 x1 x2 x3 x4 => Sys2Proof.Machine.execIrem x0 x1 x2 x3 x4 s
  | .imin x0 x1 x2 x3 x4 => Sys2Proof.Machine.execImin x0 x1 x2 x3 x4 s
  | .imax x0 x1 x2 x3 x4 => Sys2Proof.Machine.execImax x0 x1 x2 x3 x4 s
  | .iabs x0 x1 x2 x3 x4 => Sys2Proof.Machine.execIabs x0 x1 x2 x3 x4 s
  | .lea x0 x1 x2 x3 x4 x5 => Sys2Proof.Machine.execLea x0 x1 x2 x3 x4 x5 s
  | .icmp x0 x1 x2 x3 x4 x5 => Sys2Proof.Machine.execIcmp x0 x1 x2 x3 x4 x5 s
  | .sel x0 x1 x2 x3 x4 x5 => Sys2Proof.Machine.execSel x0 x1 x2 x3 x4 x5 s
  | .mov x0 x1 x2 x3 => Sys2Proof.Machine.execMov x0 x1 x2 x3 s
  | .and x0 x1 x2 x3 x4 => Sys2Proof.Machine.execAnd x0 x1 x2 x3 x4 s
  | .or x0 x1 x2 x3 x4 => Sys2Proof.Machine.execOr x0 x1 x2 x3 x4 s
  | .xor x0 x1 x2 x3 x4 => Sys2Proof.Machine.execXor x0 x1 x2 x3 x4 s
  | .andn x0 x1 x2 x3 x4 => Sys2Proof.Machine.execAndn x0 x1 x2 x3 x4 s
  | .shl x0 x1 x2 x3 x4 => Sys2Proof.Machine.execShl x0 x1 x2 x3 x4 s
  | .shr x0 x1 x2 x3 x4 => Sys2Proof.Machine.execShr x0 x1 x2 x3 x4 s
  | .sar x0 x1 x2 x3 x4 => Sys2Proof.Machine.execSar x0 x1 x2 x3 x4 s
  | .rot x0 x1 x2 x3 x4 x5 => Sys2Proof.Machine.execRot x0 x1 x2 x3 x4 x5 s
  | .popc x0 x1 x2 x3 => Sys2Proof.Machine.execPopc x0 x1 x2 x3 s
  | .clz x0 x1 x2 x3 => Sys2Proof.Machine.execClz x0 x1 x2 x3 s
  | .brev x0 x1 x2 x3 => Sys2Proof.Machine.execBrev x0 x1 x2 x3 s
  | .bfe x0 x1 x2 x3 x4 x5 => Sys2Proof.Machine.execBfe x0 x1 x2 x3 x4 x5 s
  | .bfi x0 x1 x2 x3 x4 x5 => Sys2Proof.Machine.execBfi x0 x1 x2 x3 x4 x5 s
  | .prmt x0 x1 x2 x3 x4 => Sys2Proof.Machine.execPrmt x0 x1 x2 x3 x4 s
  | .movi x0 x1 x2 x3 => Sys2Proof.Machine.execMovi x0 x1 x2 x3 s
  | .fadd x0 x1 x2 x3 x4 x5 => Sys2Proof.Machine.execFadd x0 x1 x2 x3 x4 x5 s
  | .fsub x0 x1 x2 x3 x4 x5 => Sys2Proof.Machine.execFsub x0 x1 x2 x3 x4 x5 s
  | .fmul x0 x1 x2 x3 x4 x5 => Sys2Proof.Machine.execFmul x0 x1 x2 x3 x4 x5 s
  | .ffma x0 x1 x2 x3 x4 x5 x6 => Sys2Proof.Machine.execFfma x0 x1 x2 x3 x4 x5 x6 s
  | .fmin x0 x1 x2 x3 x4 x5 => Sys2Proof.Machine.execFmin x0 x1 x2 x3 x4 x5 s
  | .fmax x0 x1 x2 x3 x4 x5 => Sys2Proof.Machine.execFmax x0 x1 x2 x3 x4 x5 s
  | .fcmp x0 x1 x2 x3 x4 x5 => Sys2Proof.Machine.execFcmp x0 x1 x2 x3 x4 x5 s
  | .fdiv x0 x1 x2 x3 x4 x5 => Sys2Proof.Machine.execFdiv x0 x1 x2 x3 x4 x5 s
  | .fsqrt x0 x1 x2 x3 x4 => Sys2Proof.Machine.execFsqrt x0 x1 x2 x3 x4 s
  | .frcp x0 x1 x2 x3 x4 => Sys2Proof.Machine.execFrcp x0 x1 x2 x3 x4 s
  | .frsq x0 x1 x2 x3 x4 => Sys2Proof.Machine.execFrsq x0 x1 x2 x3 x4 s
  | .fex2 x0 x1 x2 x3 x4 => Sys2Proof.Machine.execFex2 x0 x1 x2 x3 x4 s
  | .flg2 x0 x1 x2 x3 x4 => Sys2Proof.Machine.execFlg2 x0 x1 x2 x3 x4 s
  | .ftanh x0 x1 x2 x3 x4 => Sys2Proof.Machine.execFtanh x0 x1 x2 x3 x4 s
  | .frnd x0 x1 x2 x3 x4 x5 => Sys2Proof.Machine.execFrnd x0 x1 x2 x3 x4 x5 s
  | .fclass x0 x1 x2 x3 x4 => Sys2Proof.Machine.execFclass x0 x1 x2 x3 x4 s
  | .fdot2 x0 x1 x2 x3 x4 x5 x6 x7 => Sys2Proof.Machine.execFdot2 x0 x1 x2 x3 x4 x5 x6 x7 s
  | .fscale x0 x1 x2 x3 x4 x5 => Sys2Proof.Machine.execFscale x0 x1 x2 x3 x4 x5 s
  | .cvt x0 x1 x2 x3 x4 x5 => Sys2Proof.Machine.execCvt x0 x1 x2 x3 x4 x5 s
  | .qnt x0 x1 x2 x3 x4 x5 => Sys2Proof.Machine.execQnt x0 x1 x2 x3 x4 x5 s
  | .dqnt x0 x1 x2 x3 x4 x5 => Sys2Proof.Machine.execDqnt x0 x1 x2 x3 x4 x5 s
  | .tpack x0 x1 x2 x3 => Sys2Proof.Machine.execTpack x0 x1 x2 x3 s
  | .tunpk x0 x1 x2 x3 => Sys2Proof.Machine.execTunpk x0 x1 x2 x3 s
  | .pack x0 x1 x2 x3 x4 x5 x6 x7 => Sys2Proof.Machine.execPack x0 x1 x2 x3 x4 x5 x6 x7 s
  | .unpk x0 x1 x2 x3 x4 x5 x6 => Sys2Proof.Machine.execUnpk x0 x1 x2 x3 x4 x5 x6 s
  | .shfl x0 x1 x2 x3 x4 x5 x6 => Sys2Proof.Machine.execShfl x0 x1 x2 x3 x4 x5 x6 s
  | .vote x0 x1 x2 x3 => Sys2Proof.Machine.execVote x0 x1 x2 x3 s
  | .lred x0 x1 x2 x3 x4 x5 => Sys2Proof.Machine.execLred x0 x1 x2 x3 x4 x5 s
  | .lscan x0 x1 x2 x3 x4 x5 x6 => Sys2Proof.Machine.execLscan x0 x1 x2 x3 x4 x5 x6 s
  | .bcast x0 x1 x2 x3 x4 => Sys2Proof.Machine.execBcast x0 x1 x2 x3 x4 s
  | .matchLanes x0 x1 x2 x3 x4 => Sys2Proof.Machine.execMatchLanes x0 x1 x2 x3 x4 s
  | .topk x0 x1 x2 x3 x4 x5 => Sys2Proof.Machine.execTopk x0 x1 x2 x3 x4 x5 s
  | .kop x0 x1 x2 x3 x4 => Sys2Proof.Machine.execKop x0 x1 x2 x3 x4 s
  | .kmov x0 x1 => Sys2Proof.Machine.execKmov x0 x1 s
  | .kpop x0 x1 x2 => Sys2Proof.Machine.execKpop x0 x1 x2 s
  | .kfnd x0 x1 x2 x3 x4 => Sys2Proof.Machine.execKfnd x0 x1 x2 x3 x4 s
  | .srd x0 x1 x2 => Sys2Proof.Machine.execSrd x0 x1 x2 s
  | .swr x0 x1 x2 => Sys2Proof.Machine.execSwr x0 x1 x2 s
  | .clk x0 x1 => Sys2Proof.Machine.execClk x0 x1 s
  | .clkPtp x0 x1 => Sys2Proof.Machine.execClkPtp x0 x1 s
  | .ld x0 x1 x2 x3 x4 => Sys2Proof.Machine.execLd x0 x1 x2 x3 x4 s
  | .st x0 x1 x2 x3 => Sys2Proof.Machine.execSt x0 x1 x2 x3 s
  | .ldg x0 x1 x2 x3 => Sys2Proof.Machine.execLdg x0 x1 x2 x3 s
  | .sct x0 x1 x2 x3 x4 => Sys2Proof.Machine.execSct x0 x1 x2 x3 x4 s
  | .ldmx x0 x1 x2 x3 x4 => Sys2Proof.Machine.execLdmx x0 x1 x2 x3 x4 s
  | .stmx x0 x1 x2 x3 x4 => Sys2Proof.Machine.execStmx x0 x1 x2 x3 x4 s
  | .prf x0 x1 => Sys2Proof.Machine.execPrf x0 x1 s
  | .atom x0 x1 x2 x3 x4 x5 => Sys2Proof.Machine.execAtom x0 x1 x2 x3 x4 x5 s
  | .acas x0 x1 x2 x3 => Sys2Proof.Machine.execAcas x0 x1 x2 x3 s
  | .red x0 x1 x2 x3 x4 x5 x6 => Sys2Proof.Machine.execRed x0 x1 x2 x3 x4 x5 x6 s
  | .fence x0 x1 x2 x3 => Sys2Proof.Machine.execFence x0 x1 x2 x3 s
  | .bar x0 x1 => Sys2Proof.Machine.execBar x0 x1 s
  | .barx x0 x1 x2 x3 x4 x5 x6 => Sys2Proof.Machine.execBarx x0 x1 x2 x3 x4 x5 x6 s
  | .binit x0 x1 x2 => Sys2Proof.Machine.execBinit x0 x1 x2 s
  | .waitf x0 x1 x2 x3 x4 x5 x6 x7 => Sys2Proof.Machine.execWaitf x0 x1 x2 x3 x4 x5 x6 x7 s
  | .waitfConditionMet x0 => Sys2Proof.Machine.execWaitfConditionMet x0 s
  | .cpy x0 x1 x2 x3 x4 x5 => Sys2Proof.Machine.execCpy x0 x1 x2 x3 x4 x5 s
  | .waitc x0 x1 x2 x3 x4 x5 => Sys2Proof.Machine.execWaitc x0 x1 x2 x3 x4 x5 s
  | .testc x0 x1 x2 x3 x4 => Sys2Proof.Machine.execTestc x0 x1 x2 x3 x4 s
  | .srel x0 x1 => Sys2Proof.Machine.execSrel x0 x1 s
  | .sbindUnbind x0 x1 => Sys2Proof.Machine.execSbindUnbind x0 x1 s
  | .sbindPrimer x0 x1 => Sys2Proof.Machine.execSbindPrimer x0 x1 s
  | .sbindRing x0 x1 x2 x3 x4 => Sys2Proof.Machine.execSbindRing x0 x1 x2 x3 x4 s
  | .sbindPort x0 x1 x2 => Sys2Proof.Machine.execSbindPort x0 x1 x2 s
  | .sbindIter x0 x1 x2 x3 => Sys2Proof.Machine.execSbindIter x0 x1 x2 x3 s
  | .sbindQuery x0 x1 x2 => Sys2Proof.Machine.execSbindQuery x0 x1 x2 s
  | .pub x0 x1 x2 => Sys2Proof.Machine.execPub x0 x1 x2 s
  | .preg x0 x1 x2 x3 => Sys2Proof.Machine.execPreg x0 x1 x2 x3 s
  | .pregDrop x0 x1 => Sys2Proof.Machine.execPregDrop x0 x1 s
  | .mcast x0 x1 x2 x3 x4 => Sys2Proof.Machine.execMcast x0 x1 x2 x3 x4 s
  | .coll x0 x1 x2 => Sys2Proof.Machine.execColl x0 x1 x2 s
  | .gang x0 x1 => Sys2Proof.Machine.execGang x0 x1 s
  | .mxld x0 x1 x2 x3 x4 x5 x6 => Sys2Proof.Machine.execMxld x0 x1 x2 x3 x4 x5 x6 s
  | .mxlb x0 x1 x2 x3 x4 x5 => Sys2Proof.Machine.execMxlb x0 x1 x2 x3 x4 x5 s
  | .mma x0 x1 x2 x3 x4 x5 => Sys2Proof.Machine.execMma x0 x1 x2 x3 x4 x5 s
  | .mxz x0 x1 => Sys2Proof.Machine.execMxz x0 x1 s
  | .mxdr x0 x1 x2 x3 x4 x5 => Sys2Proof.Machine.execMxdr x0 x1 x2 x3 x4 x5 s
  | .mxdrStat x0 x1 x2 => Sys2Proof.Machine.execMxdrStat x0 x1 x2 s
  | .mxadd x0 x1 x2 x3 => Sys2Proof.Machine.execMxadd x0 x1 x2 x3 s
  | .mxsave x0 x1 x2 x3 => Sys2Proof.Machine.execMxsave x0 x1 x2 x3 s
  | .mxrest x0 x1 x2 x3 => Sys2Proof.Machine.execMxrest x0 x1 x2 x3 s
  | .snew x0 x1 x2 x3 => Sys2Proof.Machine.execSnew x0 x1 x2 x3 s
  | .sdel x0 x1 => Sys2Proof.Machine.execSdel x0 x1 s
  | .sins x0 x1 x2 x3 => Sys2Proof.Machine.execSins x0 x1 x2 x3 s
  | .srem x0 x1 x2 x3 => Sys2Proof.Machine.execSrem x0 x1 x2 x3 s
  | .shas x0 x1 x2 x3 => Sys2Proof.Machine.execShas x0 x1 x2 x3 s
  | .scard x0 x1 x2 => Sys2Proof.Machine.execScard x0 x1 x2 s
  | .sand x0 x1 x2 x3 x4 => Sys2Proof.Machine.execSand x0 x1 x2 x3 x4 s
  | .sor x0 x1 x2 x3 x4 => Sys2Proof.Machine.execSor x0 x1 x2 x3 x4 s
  | .ssub x0 x1 x2 x3 x4 => Sys2Proof.Machine.execSsub x0 x1 x2 x3 x4 s
  | .sxor x0 x1 x2 x3 x4 => Sys2Proof.Machine.execSxor x0 x1 x2 x3 x4 s
  | .sitr x0 x1 x2 x3 x4 => Sys2Proof.Machine.execSitr x0 x1 x2 x3 x4 s
  | .scost x0 x1 x2 x3 x4 x5 => Sys2Proof.Machine.execScost x0 x1 x2 x3 x4 x5 s
  | .sinfo x0 x1 x2 x3 x4 => Sys2Proof.Machine.execSinfo x0 x1 x2 x3 x4 s
  | .sinfoPin x0 x1 x2 => Sys2Proof.Machine.execSinfoPin x0 x1 x2 s
  | .srank x0 x1 x2 x3 x4 => Sys2Proof.Machine.execSrank x0 x1 x2 x3 x4 s
  | .sload x0 x1 x2 x3 => Sys2Proof.Machine.execSload x0 x1 x2 x3 s
  | .sstore x0 x1 x2 x3 x4 x5 x6 => Sys2Proof.Machine.execSstore x0 x1 x2 x3 x4 x5 x6 s
  | .setAcceptance x0 => Sys2Proof.Machine.execSetAcceptance x0 s
  | .setCompletion x0 => Sys2Proof.Machine.execSetCompletion x0 s
  | .iteratorEntry x0 x1 => Sys2Proof.Machine.execIteratorEntry x0 x1 s
  | .tspawn x0 x1 x2 x3 => Sys2Proof.Machine.execTspawn x0 x1 x2 x3 s
  | .tyld x0 x1 x2 x3 => Sys2Proof.Machine.execTyld x0 x1 x2 x3 s
  | .alloc x0 x1 x2 => Sys2Proof.Machine.execAlloc x0 x1 x2 s
  | .eqpush x0 x1 x2 x3 => Sys2Proof.Machine.execEqpush x0 x1 x2 x3 s
  | .eqcomb x0 x1 x2 x3 x4 => Sys2Proof.Machine.execEqcomb x0 x1 x2 x3 x4 s
  | .eqcfg x0 x1 x2 x3 x4 => Sys2Proof.Machine.execEqcfg x0 x1 x2 x3 x4 s
  | .eqstat x0 x1 x2 x3 => Sys2Proof.Machine.execEqstat x0 x1 x2 x3 s
  | .trap x0 x1 => Sys2Proof.Machine.execTrap x0 x1 s
  | .rtt x0 => Sys2Proof.Machine.execRtt x0 s
  | .pdone x0 x1 => Sys2Proof.Machine.execPdone x0 x1 s
  | .ckpt x0 x1 x2 => Sys2Proof.Machine.execCkpt x0 x1 x2 s
  | .ckptHint x0 x1 => Sys2Proof.Machine.execCkptHint x0 x1 s
  | .tlbiRng x0 x1 x2 => Sys2Proof.Machine.execTlbiRng x0 x1 x2 s
  | .tlbiAll x0 => Sys2Proof.Machine.execTlbiAll x0 s
  | .tlbiNg x0 => Sys2Proof.Machine.execTlbiNg x0 s
  | .errd x0 x1 x2 x3 => Sys2Proof.Machine.execErrd x0 x1 x2 x3 s
  | .halt x0 x1 => Sys2Proof.Machine.execHalt x0 x1 s
  | .resultReturn x0 x1 => Sys2Proof.Machine.execResultReturn x0 x1 s
  | .writePacketAtHome x0 x1 => Sys2Proof.Machine.execWritePacketAtHome x0 x1 s
  | .ackReceived x0 => Sys2Proof.Machine.execAckReceived x0 s
  | .acktimeout x0 => Sys2Proof.Machine.execAcktimeout x0 s
  | .remoteReadTimeout x0 => Sys2Proof.Machine.execRemoteReadTimeout x0 s
  | .packetAgeDiscard x0 => Sys2Proof.Machine.execPacketAgeDiscard x0 s
  | .uncorrectableHeaderDrop x0 x1 x2 x3 x4 => Sys2Proof.Machine.execUncorrectableHeaderDrop x0 x1 x2 x3 x4 s
  | .flitCrcRetransmit x0 => Sys2Proof.Machine.execFlitCrcRetransmit x0 s
  | .chunkLanded x0 x1 => Sys2Proof.Machine.execChunkLanded x0 x1 s
  | .mcastDelivery x0 x1 x2 x3 => Sys2Proof.Machine.execMcastDelivery x0 x1 x2 x3 s
  | .collHop x0 x1 => Sys2Proof.Machine.execCollHop x0 x1 s
  | .combineDeposit x0 => Sys2Proof.Machine.execCombineDeposit x0 s
  | .easelAgeExpiry x0 => Sys2Proof.Machine.execEaselAgeExpiry x0 s
  | .easelFiring x0 => Sys2Proof.Machine.execEaselFiring x0 s
  | .taskFormingTimer x0 => Sys2Proof.Machine.execTaskFormingTimer x0 s
  | .taskStrokeStart x0 => Sys2Proof.Machine.execTaskStrokeStart x0 s
  | .stealRequest x0 => Sys2Proof.Machine.execStealRequest x0 s
  | .commissionLaunch x0 => Sys2Proof.Machine.execCommissionLaunch x0 s
  | .ttInstanceDue x0 => Sys2Proof.Machine.execTtInstanceDue x0 s
  | .ptpMessage x0 => Sys2Proof.Machine.execPtpMessage x0 s
  | .panelPlacement x0 => Sys2Proof.Machine.execPanelPlacement x0 s
  | .panelRetire x0 => Sys2Proof.Machine.execPanelRetire x0 s
  | .commissionRetire x0 => Sys2Proof.Machine.execCommissionRetire x0 s
  | .starvationExpiry x0 => Sys2Proof.Machine.execStarvationExpiry x0 s
  | .preemptRequest x0 x1 x2 => Sys2Proof.Machine.execPreemptRequest x0 x1 x2 s
  | .panelSave x0 => Sys2Proof.Machine.execPanelSave x0 s
  | .preemptBoundExpiry x0 => Sys2Proof.Machine.execPreemptBoundExpiry x0 s
  | .panelRestore x0 => Sys2Proof.Machine.execPanelRestore x0 s
  | .egressDescriptor x0 x1 => Sys2Proof.Machine.execEgressDescriptor x0 x1 s
  | .rdmaWrite x0 x1 x2 x3 => Sys2Proof.Machine.execRdmaWrite x0 x1 x2 x3 s
  | .rdmaRead x0 x1 x2 x3 => Sys2Proof.Machine.execRdmaRead x0 x1 x2 x3 s
  | .rdmaRefused x0 => Sys2Proof.Machine.execRdmaRefused x0 s
  | .powerOn => Sys2Proof.Machine.execPowerOn s
  | .bistComplete x0 => Sys2Proof.Machine.execBistComplete x0 s
  | .recoverFetch => Sys2Proof.Machine.execRecoverFetch s
  | .recoverImageReceived x0 => Sys2Proof.Machine.execRecoverImageReceived x0 s
  | .marginSample x0 x1 x2 => Sys2Proof.Machine.execMarginSample x0 x1 x2 s
  | .onlineRepairSwitch x0 => Sys2Proof.Machine.execOnlineRepairSwitch x0 s
  | .laneRetrainComplete x0 => Sys2Proof.Machine.execLaneRetrainComplete x0 s
  | .identity => Sys2Proof.Machine.execIdentity s
  | .status => Sys2Proof.Machine.execStatus s
  | .logread x0 x1 => Sys2Proof.Machine.execLogread x0 x1 s
  | .logclear x0 => Sys2Proof.Machine.execLogclear x0 s
  | .counters x0 => Sys2Proof.Machine.execCounters x0 s
  | .thresh x0 x1 x2 => Sys2Proof.Machine.execThresh x0 x1 x2 s
  | .margin x0 x1 x2 => Sys2Proof.Machine.execMargin x0 x1 x2 s
  | .mgmtFence x0 x1 => Sys2Proof.Machine.execMgmtFence x0 x1 s
  | .unfence x0 x1 => Sys2Proof.Machine.execUnfence x0 x1 s
  | .tilemap x0 x1 => Sys2Proof.Machine.execTilemap x0 x1 s
  | .rowmap x0 x1 x2 x3 x4 => Sys2Proof.Machine.execRowmap x0 x1 x2 x3 x4 s
  | .bankmap x0 x1 x2 => Sys2Proof.Machine.execBankmap x0 x1 x2 s
  | .lanemap x0 x1 => Sys2Proof.Machine.execLanemap x0 x1 s
  | .chanmap x0 x1 => Sys2Proof.Machine.execChanmap x0 x1 s
  | .image x0 x1 => Sys2Proof.Machine.execImage x0 x1 s
  | .reset x0 => Sys2Proof.Machine.execReset x0 s
  | .createContext x0 x1 => Sys2Proof.Machine.execCreateContext x0 x1 s
  | .killContext x0 x1 => Sys2Proof.Machine.execKillContext x0 x1 s
  | .killDrainComplete x0 => Sys2Proof.Machine.execKillDrainComplete x0 s
  | .registerCommissionQueue x0 x1 x2 => Sys2Proof.Machine.execRegisterCommissionQueue x0 x1 x2 s
  | .writeTtEntry x0 x1 x2 => Sys2Proof.Machine.execWriteTtEntry x0 x1 x2 s
  | .setExportWindow x0 x1 x2 => Sys2Proof.Machine.execSetExportWindow x0 x1 x2 s
  | .assignEaselQueues x0 x1 x2 => Sys2Proof.Machine.execAssignEaselQueues x0 x1 x2 s
  | .configureEgressChannel x0 x1 x2 x3 => Sys2Proof.Machine.execConfigureEgressChannel x0 x1 x2 x3 s
  | .measureIntoContext x0 x1 x2 => Sys2Proof.Machine.execMeasureIntoContext x0 x1 x2 s
  | .attestationReport x0 x1 x2 => Sys2Proof.Machine.execAttestationReport x0 x1 x2 s
  | .resetChunkPool x0 x1 => Sys2Proof.Machine.execResetChunkPool x0 x1 s
  | .endCommission x0 x1 => Sys2Proof.Machine.execEndCommission x0 x1 s
  | .deviceRegisterWrite x0 x1 => Sys2Proof.Machine.execDeviceRegisterWrite x0 x1 s
  | .ptpSourceUnlocked => Sys2Proof.Machine.execPtpSourceUnlocked s
  | .operandFillComplete x0 => Sys2Proof.Machine.execOperandFillComplete x0 s
  | .imageReadComplete x0 => Sys2Proof.Machine.execImageReadComplete x0 s
  | .unregisterCommissionQueue x0 x1 => Sys2Proof.Machine.execUnregisterCommissionQueue x0 x1 s
  | .extendGrants x0 x1 x2 => Sys2Proof.Machine.execExtendGrants x0 x1 x2 s
  | .enlargeSaveRegion x0 x1 x2 => Sys2Proof.Machine.execEnlargeSaveRegion x0 x1 x2 s

end Sys2Proof.Machine
end

