-- ==== Sys2Proof/Machine/Issue.lean ====
section
/-! DEFINITION. What stands around an instruction's own meaning: fetching and decoding it and the traps of a word that
is none (spec/02_encoding.md R28, R38), the trap that an agent owes or is delivered (spec/17_traps.md R324, R334), the
choice of the agent that issues (spec/13_commissions.md R255), what the outside does to the device, and the order in
which the device's own steps are tried when nothing else is asked for (log 1). -/

namespace Sys2Proof.Machine
open Sys2Proof

/-- The state that an outcome leaves, or the given one where it leaves none. -/
def nextOr (s : State) (o : Out) : State :=
  match o with
  | .next t => t
  | _ => s

/-! ## Fetch (R28, R347) -/

/-- The words of the instruction at a program counter: the extension word is 0 where X is 0. -/
def fetchInstr (s : State) (ctx pc : Nat) : Except Trap (Nat × Nat) :=
  match fetchWord s ctx pc with
  | .error t => .error t
  | .ok w =>
    if hasExt w.toNat then
      match fetchWord s ctx (pc + 8) with
      | .error t => .error t
      | .ok e => .ok (w.toNat, e.toNat)
    else .ok (w.toNat, 0)

/-! ## Words that are no instruction (R38, R26, R342) -/

/-- The fields of an integer or bit word that name its sources. -/
def sourceFields (r : Raw) : List Nat :=
  if [0x1B, 0x1F, 0x28, 0x29, 0x2A].contains r.op then [r.a]
  else if r.op = 0x2E then []
  else r.a :: (if r.x then [] else [r.b]) ++ (if [0x16, 0x2C, 0x2D].contains r.op then [r.c] else [])

/-- Majors of the Primer's set, in the forms that it holds (R26, R49, R89, R194). -/
def primerMajor (r : Raw) : Bool :=
  let scalar := fun (f : Nat) => decide (0xC0 ≤ f) && decide (f < 0x100)
  let noVec := fun (f : Nat) => decide (0xC0 ≤ f)
  [0x00, 0x01, 0x06, 0x07, 0x08, 0x74, 0x76, 0x93, 0xA0, 0xA1, 0xA2].contains r.op ||
    ((r.op == 0x02 || r.op == 0x03) && fld r.w 10 9 == 1) ||
    ((r.op == 0x80 || r.op == 0x81) && [r.d, r.a, r.b].all noVec) || (r.op == 0x86 && [r.a, r.b].all noVec) ||
    ([0x90, 0x91, 0x92].contains r.op && [r.d, r.a].all scalar && (scalar r.b || r.b == 0x1FF)) ||
    (decide (0x10 ≤ r.op) && decide (r.op ≤ 0x2E) && r.op != 0x12 && r.op != 0x1D && r.op != 0x1E && noVec r.d &&
      (sourceFields r).all scalar)

/-- SPLIT, BRX, JOIN and MELD (R342). -/
def handlerMajor (op : Nat) : Bool := [0x09, 0x0A, 0x0B, 0x0C].contains op

/-- Whether the instruction of a word may not run where it stands: outside the Primer's set in the Primer, SPLIT, BRX,
JOIN and MELD in a handler (R342), MEND outside a meld region (R263), TYLD outside a task stroke that is not split (R280),
RTT and PDONE outside a handler of their kind and outside a meld region, where MELDILL ranks later (R329, R334, log 100). -/
def outOfPlace (s : State) (a : Agent) (r : Raw) : Bool :=
  (a.primer && !primerMajor r) || (a.handler && handlerMajor r.op) || (r.op == 0x0D && !a.meld) ||
  (r.op == 0xD1 && (getStroke s a.stroke).any fun k => !k.task || a.frag || inSerial a || !k.splits.isEmpty) ||
  (r.op == 0xE1 && !a.handler && !a.meld) || (r.op == 0xE2 && !(a.handler && a.byPreempt) && !a.meld)

/-- The trap of a word with a reserved field: ILLOP comes first where its instruction may not run (R38). -/
def fieldCause (s : State) (a : Agent) (r : Raw) : Cause := if outOfPlace s a r then .illop else .resfield

/-- The lanes of a word's trap: those that its selector names; a control word names none (R357). -/
def wordLanes (a : Agent) (r : Raw) : Mask := if r.op < 0x10 then a.em else activeMask a r.km

/-! ## Delivered traps (R325, R334) -/

/-- PREEMPT: TADDR the panel's save area, TAUX the cycles left of the bound; a free value where there is none. -/
def deliverPreempt (s : State) (aid : Nat) (a : Agent) : State :=
  let p := (getStroke s a.stroke).bind fun k => getPanel s k.panel
  let req := p.bind (·.req)
  let base := p.bind fun q => getCtx s q.ctx
  let addr := match req.bind (·.area), base with
    | some ((off, _) :: _), some c => BitVec.ofNat 64 (c.params.saveVA + off)
    | _, _ => Config.freeValue 64 s.freeN
  let left := match req.bind (·.deadline) with
    | some t => BitVec.ofNat 64 (min (t - s.cycle) (2 ^ 32 - 1))
    | none => (Config.freeValue 32 (s.freeN + 1)).setWidth 64
  enterTrap { s with freeN := s.freeN + 2 } aid { cause := .preempt, addr := addr, aux := left, lanes := a.em }

/-! ## Issue -/

/-- The agent that issues, and the cycle of its issue (R255). -/
def markIssue (s : State) (aid : Nat) (a : Agent) : State :=
  setAgent { s with cur := aid } aid { a with lastIssue := s.cycle }

/-- A panel has executed its first instruction (R241). -/
def markStarted (s : State) (stroke : Nat) : State :=
  match (getStroke s stroke).bind fun k => getPanel s k.panel with
  | none => s
  | some p =>
    match getComm s p.comm with
    | none => s
    | some c => if p.task || c.started.contains p.idx then s else setComm s p.comm { c with started := c.started ++ [p.idx] }

/-- Whether an agent has left the first instruction of its slice: one that only trapped stands in its handler's first
instruction, with it as TPC. -/
def pastFirst (s : State) (a : Agent) : Bool :=
  let first : VAddr := match ((getStroke s a.stroke).bind fun k => getPanel s k.panel).bind fun p => getComm s p.comm with
    | some c => if a.primer then c.record.access else c.record.entry
    | none => 0
  if a.handler then
    a.tpc != first.setWidth 64 || a.pc != BitVec.ofNat 57 ((agentTvbase s a).toNat + 8 * (a.tcause.toNat % 256))
  else a.pc != first

/-- Panels whose first instruction a step of the device has completed have started (R241). -/
def markPanels (s : State) : State :=
  s.agents.foldl (fun t a => if pastFirst t a.2 then markStarted t a.2.stroke else t) s

/-- Whether an agent has executed the instruction that it issued, or one before it: it neither trapped nor waits, or it
has left the first instruction of its slice. An agent that is gone has executed EXIT, or has double-faulted. -/
def hasExecuted (s : State) (aid : Nat) (a : Agent) (w : Nat) : Bool :=
  match getAgent s aid with
  | some b => (b.run == .ready && b.handler == a.handler) || b.run == .halted || started a || (ended b.run && fld w 62 55 == 0x06)
  | none => fld w 62 55 == 0x06 || started a
where
  started (a : Agent) : Bool := pastFirst s a
  ended (r : RunState) : Bool :=
    match r with
    | .ready | .parked _ | .blocked _ | .done _ => false
    | _ => true

/-- The panel of an agent that has executed an instruction has started. -/
def afterRun (aid : Nat) (a : Agent) (w : Nat) (o : Out) : Out :=
  match o with
  | .next t => .next (if hasExecuted t aid a w then markStarted t a.stroke else t)
  | .fault f => .fault f
  | .refused r => .refused r

/-- What a fetch leaves: the lines of its words in the core's instruction cache (R281). -/
def afterFetch (s : State) (a : Agent) (w : Nat) : State :=
  match (getStroke s a.stroke).bind fun k => getPanel s k.panel with
  | none => s
  | some p =>
    let pc := a.pc.toNat
    let c := getCore s p.core
    let lines := ([pc] ++ (if hasExt w then [pc + 8] else [])).map fun v => (p.ctx, v / 128)
    let new := lines.eraseDups.filter fun l => !c.icache.contains l
    if new = [] then s else setCore s p.core { c with icache := c.icache ++ new }

/-- Whether an agent may issue now: programs run, it is ready, and no save has stopped its panel. -/
def mayIssue (s : State) (aid : Nat) : Bool :=
  running s && match getAgent s aid with
    | none => false
    | some a => a.run == .ready && match getStroke s a.stroke with
      | none => false
      | some k => match getPanel s k.panel with
        | none => false
        | some p => !frozen s k.panel p

/-- An agent's word as fetched: its instruction's meaning, or its trap. -/
def runWord (s : State) (aid : Nat) (a : Agent) (w e : Nat) : Out :=
  match decode w e with
  | .ok i => exec i s
  | .error .illop => .next (enterTrap s aid { cause := .illop, lanes := wordLanes a (rawOf w e) })
  | .error .resfield =>
    .next (enterTrap s aid { cause := fieldCause s a (rawOf w e), lanes := wordLanes a (rawOf w e) })

/-- One issue of a ready agent: the trap that it owes, a pending PREEMPT, or the instruction at its program counter. -/
def issueAgent (s : State) (aid : Nat) : Out :=
  match getAgent s aid with
  | none => .next s
  | some a =>
    if !mayIssue s aid then .next s
    else match a.owed with
      | some t => .next (enterTrap s aid t)
      | none =>
        if a.prePend && !a.handler && a.wake.isNone && a.setAt.isNone then .next (deliverPreempt s aid a)
        else
          let s1 := markIssue s aid a
          match fetchInstr s1 (agentCtx s a) a.pc.toNat with
          | .error t =>
            -- a word that another device has not sent yet is waited for (R217)
            .next (if t.cause = .acktimeout then parkAgent s1 aid .answer else enterTrap s1 aid { t with lanes := a.em })
          | .ok (w, e) => afterRun aid a w (runWord (afterFetch s1 a w) aid a w e)

/-- Whether an agent has parked in a step. -/
def hasParked (s : State) (aid : Nat) : Bool :=
  match getAgent s aid with
  | some a => match a.run with
    | .parked _ => true
    | _ => false
  | none => false

/-- An agent whose instruction's interlocks or wait forbid it to go on has not issued (R255). -/
def unmarkIssue (s : State) (aid last : Nat) : State :=
  match getAgent s aid with
  | some a => setAgent s aid { a with lastIssue := last }
  | none => s

/-- After a step that changed something other agents may wait for, every parked agent tries again. -/
def afterIssue (s : State) (aid : Nat) (o : Out) : Out :=
  match o with
  | .next t => .next (if hasParked t aid then unmarkIssue t aid ((getAgent s aid).elim 0 (·.lastIssue)) else wakeAll t)
  | .fault f => .fault f
  | .refused r => .refused r

/-! ## The choice of R255 -/

/-- The rank of a ready agent: waiting longest from 256 cycles up, then class 0, then the others, by admission. -/
def issueRank (s : State) (a : Agent) : List Nat :=
  let k := getStroke s a.stroke
  let adm := (k.map (·.adm)).getD 0
  let cls := ((k.bind fun x => getPanel s x.panel).bind fun p => getComm s p.comm).elim 3 (·.tclass)
  if 256 ≤ s.cycle - a.lastIssue then [0, a.lastIssue, adm, a.order]
  else if cls = 0 then [1, adm, a.order] else [2, adm, a.order]

def rankBefore : List Nat → List Nat → Bool
  | [], _ => false
  | _, [] => false
  | x :: t, y :: u => decide (x < y) || (x == y && rankBefore t u)

/-- The issue slot of an agent: its stroke's admission number modulo 4 on its core; the Primers of a core have a slot of
their own. -/
def slotOf (s : State) (a : Agent) : Nat :=
  match getStroke s a.stroke with
  | none => 0
  | some k => 5 * ((getPanel s k.panel).elim 0 (·.core)) + (if k.primer then 4 else k.adm % 4)

/-- The agent that a slot issues: of its ready ones, the first by the rank of R255. -/
def slotIssue (s : State) (slot : Nat) : Option Nat :=
  (s.agents.foldl (fun best p =>
    if slotOf s p.2 = slot ∧ mayIssue s p.1 then
      match best with
      | none => some (p.1, issueRank s p.2)
      | some b => if rankBefore (issueRank s p.2) b.2 then some (p.1, issueRank s p.2) else best
    else best) none).map (·.1)

/-- The slots that have a ready agent. -/
def readySlots (s : State) : List Nat :=
  (s.agents.filterMap fun p => if mayIssue s p.1 then some (slotOf s p.2) else none).eraseDups

/-- One slot issues one instruction in a cycle: of its ready agents the first that can go on. `fuel`: agents tried at
most. -/
def issueSlot : Nat → State → Nat → State
  | 0, s, _ => s
  | fuel + 1, s, slot =>
    match slotIssue s slot with
    | none => s
    | some a =>
      let t := nextOr s (afterIssue s a (issueAgent s a))
      if hasParked t a then issueSlot fuel t slot else t

/-! ## The device's own steps -/

def keysOf {α : Type} (t : Tab α) : List Nat := t.map (·.1)

/-- Chunks of a copy still to land. -/
def openChunks (c : Copy) : List Nat :=
  (List.range (chunkCount c)).filter fun k => !c.done.contains k && !c.failed.contains k

/-- The numbers of reads that another device may leave without a response (R217). -/
def readNumbers (s : State) : List Nat :=
  keysOf s.results ++ keysOf s.fills ++ keysOf s.images ++ (s.agents.filterMap fun a => a.2.waitf.map (·.id)) ++
    keysOf s.setOps ++ keysOf s.copies ++ keysOf s.colls

/-- The device's own steps in their order. One that is not enabled changes nothing. -/
def ownSteps (s : State) : List Instr :=
  let anyTask := s.cores.any fun c => !c.2.tasks.isEmpty
  List.flatten [
    (if s.juran.power = .rom then [.powerOn] else []),
    [.recoverFetch],
    (keysOf s.ackq).map .ackReceived,
    (keysOf s.packets).map (fun p => .writePacketAtHome p .here),
    (keysOf s.results).map (fun r => .resultReturn r .copy),
    (keysOf s.agents).map .waitfConditionMet,
    (keysOf s.agents).map .setAcceptance,
    (keysOf s.setOps).map .setCompletion,
    (keysOf s.fills).map .operandFillComplete,
    (keysOf s.agents).map .imageReadComplete,
    (s.copies.flatMap fun c =>
      (if c.2.mcast then (List.range (ceilDiv c.2.bytes 128)).flatMap fun k =>
        (List.range c.2.dests.length).map fun d => .mcastDelivery c.1 k d .here else []) ++
      (openChunks c.2).map fun k => .chunkLanded c.1 k),
    (s.colls.flatMap fun c => if c.2.out.isSome then (List.range (ceilDiv (c.2.out.elim 0 List.length) 512)).map fun k => .chunkLanded c.1 k
      else [.collHop c.1 []]),
    (keysOf s.deposits).map .combineDeposit,
    (s.panels.flatMap fun p => (keysOf p.2.chans).map fun c => .iteratorEntry p.1 c),
    (keysOf s.easel).map .easelAgeExpiry,
    (keysOf s.panels).map .preemptBoundExpiry,
    (keysOf s.panels).map .panelSave,
    (keysOf s.panels).map .panelRetire,
    (keysOf s.comms).map .commissionRetire,
    (keysOf s.tt).map .ttInstanceDue,
    (keysOf s.cqueues).map .commissionLaunch,
    (if s.easel = [] then [] else [.easelFiring 0, .easelFiring 1]),
    (keysOf s.comms).map .panelPlacement,
    (keysOf s.saved).map .panelRestore,
    (if anyTask then (keysOf s.cores).map .taskFormingTimer ++ (keysOf s.cores).map .taskStrokeStart ++
      (List.range 256).map .stealRequest else []),
    (s.ctxs.flatMap fun c => (keysOf c.2.egress).map fun e => .egressDescriptor c.1 e),
    (keysOf s.ctxs).map .killDrainComplete,
    (keysOf s.juran.repairs).map .onlineRepairSwitch,
    s.juran.retrain.map (fun e => .laneRetrainComplete e.1.port),
    (keysOf s.agents).map .acktimeout,
    (readNumbers s).map .remoteReadTimeout,
    (keysOf s.agents).map .starvationExpiry,
    ((keysOf s.cores).filterMap fun c => (pressurePanel s c).map fun p => .preemptRequest .pressure p.1 0)]

/-- Each of the device's own steps, once and in order. -/
def ownPass (s : State) : State :=
  let t := (ownSteps s).foldl (fun u i => nextOr u (exec i u)) s
  if t = s then s else markPanels (wakeAll t)

/-! ## What the outside does -/

/-- A packet of another device: its home accepts it only for a context that the device holds (R306), with the kill flag
down (R314), in this device's own exported window (R215), each piece in one 4 KiB page of it, and not older than 2^21 cycles
(R315). No acknowledgement returns through this device's counters, and no core of this device holds it among its own
accesses (R216). -/
def arrivePacket (s : State) (p : Packet) : State :=
  let mine := p.parts.all fun q => q.segs.all fun g => match paKind g.1 with
    | .remote d off => d == s.juran.dev && decide (off % 4096 + g.2 ≤ 4096)
    | _ => false
  if !mine || !(getCtx s p.ctx).any (fun c => c.killed.isNone) || decide (2 ^ 21 < s.cycle - p.born) then s
  else
    { s with
      packets := tabPut s.packets s.fresh
        { p with agent := 0, stroke := 0, core := 256, counted := false, result := none, group := none, before := []
                 ord := .rlx, born := min p.born s.cycle }
      fresh := s.fresh + 1 }

/-- A packet of another device's MCAST: one for a landing buffer that has been freed is dropped whole, with an event of
the sender's number and the virtual address (R219). -/
def arriveCast (s : State) (p : Packet) (sender va : Nat) : State :=
  if (getCtx s p.ctx).any (fun c => c.killed.isNone) ∧ ¬ 2 ^ 21 < s.cycle - p.born then
    match translate s p.ctx va with
    | .error (c, m) => if c = .dataerr then countWalk s p.ctx (c, m) else report s (.dropped p.ctx sender va)
    | .ok _ => arrivePacket s p
  else s

/-- Caches the translation of a page as the tables hold it now (R306, R312). -/
def cachePage (s : State) (ctx va : Nat) : State :=
  match getCtx s ctx, translate s ctx va with
  | some c, .ok t => if 2 ^ 56 ≤ va ∨ c.tlb.contains t then s else setCtx s ctx { c with tlb := c.tlb ++ [t] }
  | _, _ => s

def uncachePage (s : State) (ctx va : Nat) : State :=
  match getCtx s ctx with
  | none => s
  | some c => setCtx s ctx { c with tlb := c.tlb.filter fun t => !(decide (t.va ≤ va) && decide (va < t.va + t.size)) }

/-- Near-cache lines and recent rows that hold an address leave a core (R165, R171). -/
def evictLine (s : State) (core pa : Nat) : State :=
  let c := getCore s core
  let keep := fun (l : CacheLine) => !(decide (l.pa ≤ pa) && decide (pa < l.pa + l.bytes.length))
  setCore s core { c with near := c.near.filter keep, recent := c.recent.filter keep }

/-- A line leaves a core's instruction cache. -/
def dropFetched (s : State) (core ctx line : Nat) : State :=
  let c := getCore s core
  setCore s core { c with icache := c.icache.filter fun l => l != (ctx, line) }

/-- An uncorrectable error appears in the ECC word of an address (R346). -/
def upsetWord (s : State) (pa : Nat) : State :=
  match paKind pa with
  | .sram _ _ _ =>
    let w := alignDown pa (eccBytes pa)
    if s.badWords.contains w then s else { s with badWords := s.badWords ++ [w] }
  | .lpddr _ =>
    let w := alignDown pa (eccBytes pa)
    if s.badWords.contains w then s else { s with badWords := s.badWords ++ [w] }
  | _ => s

/-- The same in the word of a registered region's shadow. -/
def upsetShadow (s : State) (pa : Nat) : State :=
  let w := alignDown pa (eccBytes pa)
  match regionIdx s pa with
  | none => s
  | some i => { s with regions := s.regions.modify i fun r => if r.bad.contains w then r else { r with bad := r.bad ++ [w] } }

def upsetTileRow (s : State) (core tile row : Nat) : State :=
  let c := getCore s core
  match c.matrix with
  | none => s
  | some m => match tabGet m.tiles tile with
    | none => s
    | some t => setCore s core { c with matrix := some { m with tiles := tabPut m.tiles tile { t with bad := some (row % 64) } } }

/-- The same in a mask register of an agent: k n, or `em` for 16. -/
def upsetMask (s : State) (aid n : Nat) : State :=
  match getAgent s aid with
  | none => s
  | some a => if 16 < n ∨ a.badK.contains n then s else setAgent s aid { a with badK := n :: a.badK }

def upsetVector (s : State) (stroke name lane : Nat) : State :=
  match getStroke s stroke with
  | none => s
  | some k =>
    if (tabGet k.vregs name).isSome ∧ lane < k.width ∧ !k.badV.contains (name, lane) then
      setStroke s stroke { k with badV := k.badV ++ [(name, lane)] }
    else s

def upsetScalar (s : State) (aid n : Nat) : State :=
  match getAgent s aid with
  | none => s
  | some a => if n < 63 ∧ !a.badS.contains n then setAgent s aid { a with badS := a.badS ++ [n] } else s

/-- An error in an operand buffer: the mark of R120, without a physical address. -/
def upsetOperand (s : State) (core : Nat) (half : Bool) (n : Nat) : State :=
  let c := getCore s core
  let mark := fun (t : Tab Operand) => tabMod t n fun o => { o with err := some (o.err.getD 0) }
  match c.matrix with
  | none => s
  | some m => setCore s core { c with matrix := some (if half then { m with halves := mark m.halves } else { m with slots := mark m.slots }) }

def upsetSegment (s : State) (ctx idx seg pa : Nat) : State :=
  match getCtx s ctx with
  | none => s
  | some c => match tabGet c.sets idx with
    | none => s
    | some e => match e.obj with
      | none => s
      | some o => match tabGet o.segs seg with
        | none => s
        | some g =>
          setCtx s ctx { c with sets := tabPut c.sets idx { e with obj := some { o with segs := tabPut o.segs seg { g with bad := some pa } } } }

def upsetQueue (s : State) (q idx pa : Nat) : State :=
  match tabGet s.easel q with
  | none => s
  | some e => match e.ring[idx]? with
    | none => s
    | some x => { s with easel := tabPut s.easel q { e with ring := e.ring.set idx { x with bad := some pa } } }

/-- The dispatcher begins to read the record at a queue's head (R246). -/
def beginRead (s : State) (q : Nat) : State :=
  match tabGet s.cqueues q with
  | none => s
  | some c => if running s then { s with cqueues := tabPut s.cqueues q { c with reading := true } } else s

/-- One move of the outside or of the scheduler. -/
def doMove (s : State) (m : Move) : Out :=
  match m with
  | .event i => .next (markPanels (wakeAll (nextOr s (exec i s))))
  | .issue a => afterIssue s a (issueAgent s a)
  | .tick n => .next { s with cycle := s.cycle + n }
  | .arrive p => .next (wakeAll (arrivePacket s p))
  | .arriveCast p d va => .next (wakeAll (arriveCast s p d va))
  | .cacheWalk c va => .next (cachePage s c va)
  | .dropWalk c va => .next (uncachePage s c va)
  | .ptpSource p d => .next (choosePtp s p d)
  | .mgmtPort n => .next { s with juran := { s.juran with mgmtPort := n } }
  | .fetchServer a => .next { s with juran := { s.juran with server := a } }
  | .enrollKey k => .next (enrollKey s k)
  | .assignDevice n => .next (assignDevice s n)
  | .bindQp q c => .next (bindQp s q c)
  | .writeTable k c pa e => .next (wakeAll (writeTable s k c pa e))
  | .evict c pa => .next (evictLine s c pa)
  | .dropLine c x l => .next (dropFetched s c x l)
  | .mmaStop c n => .next (mmaStop s c n)
  | .readLanes r lanes copy => .next (wakeAll (performLanes s r lanes copy))
  | .upset pa => .next (upsetWord s pa)
  | .upsetShadow pa => .next (upsetShadow s pa)
  | .upsetTile c t r => .next (upsetTileRow s c t r)
  | .upsetVector k n l => .next (upsetVector s k n l)
  | .upsetScalar a n => .next (upsetScalar s a n)
  | .upsetMask a n => .next (upsetMask s a n)
  | .upsetOperand c h n => .next (upsetOperand s c h n)
  | .upsetSet c i g pa => .next (upsetSegment s c i g pa)
  | .upsetEntry q i pa => .next (upsetQueue s q i pa)
  | .corrected u pa c => .next (bumpUnit s u pa (c.elim 0 (· + 1)))
  | .halfRead q => .next (beginRead s q)

/-- What happens in a cycle when nothing is asked for: the device's own steps, then one instruction of each issue slot of
every core (R255; log 1). -/
def defaultMove (s : State) : Out :=
  let t := ownPass s
  .next ((readySlots t).foldl (issueSlot t.agents.length) t)

/-- A cycle passes with each step. -/
def passCycle (o : Out) : Out :=
  match o with
  | .next t => .next { t with cycle := t.cycle + 1 }
  | .fault f => .fault f
  | .refused r => .refused r

/-- One step of the device. -/
def stepDevice (s : State) : Out :=
  match s.agenda with
  | [] => passCycle (defaultMove s)
  | m :: t => passCycle (doMove { s with agenda := t } m)

/-! ## A program placed from outside (log 9) -/

/-- First physical address of the pages of a placed program, and the virtual address at which it starts. -/
def placedBase : Nat := 2 ^ 48
def placedEntry : Nat := 0x10000

/-- The context of a placed program: one page of 2^39 bytes from virtual address 0, readable, writable, executable. -/
def placedCtx : Ctx :=
  { id := 1
    params := { ctxid := 1, ptroot := placedBase + 0x1000, grants := [{ base := placedBase, size := 2 ^ 39 }]
                setEntries := 0, setQuota := 0, setBacking := 0, tquota := 0, poolBase := 0, poolSize := 0, poolChunk := 0
                shadowReserve := 0, easelReserve := 0, sealed := false, saveBase := 0, saveVA := 0, saveSize := 0, measure := 0 } }

/-- Its commission: one panel of one stroke. -/
def placedComm : Comm :=
  { tag := 0, rkey := 0, tvbase := 0, tclass := 0, ctx := 1
    record := { entry := BitVec.ofNat 57 placedEntry, regpeak := 192 } }

/-- The device READY, running one stroke whose next instruction is the given bytes. -/
def placeProgram (s : State) (bs : List Byte) : State :=
  let mem := memWrite (memWrite (memWrite s.mem (placedBase + 0x1000) (bytesOf 8 (placedBase + 0x2001)))
    (placedBase + 0x2000) (bytesOf 8 (placedBase + 0x1F))) (placedBase + placedEntry) bs
  let s1 := { s with
    mem := mem, juran := { s.juran with power := .ready, stopped := false }, ctxs := [(1, placedCtx)]
    comms := [(s.fresh, placedComm)], panels := [], strokes := [], agents := [], fresh := s.fresh + 1 }
  let s2 := makePanel s1 s.fresh placedComm 0 0
  { s2 with agenda := [.issue (s.fresh + 3)] }

end Sys2Proof.Machine
end

