-- ==== Sys2Proof/Machine/Step.lean ====
section
/-! DEFINITION. The step function, and the machine with an instruction placed where its next step fetches. -/

namespace Sys2Proof.Machine
open Sys2Proof

/-- One step of the device: what the agenda asks for, else a step of its own. -/
def step (s : State) : Host.Outcome State Fault Refusal := stepDevice s

/-- `s` with an instruction as the next one that the machine runs: its low `nbits` bits are `w`, all others 0. It stands
for the loading of a program from outside (log 9). -/
def State.withFetchWord (s : State) (nbits w : Nat) : State := placeProgram s (bytesOfWord 16 (w % 2 ^ nbits))

end Sys2Proof.Machine
end

