-- ==== Sys2Proof/Claims/Access.lean ====
section
/-! DEFINITION. What the rules of spec/08_memory_instructions.md R166-R182 say that each memory, atomic, fence and
barrier instruction leaves at its issue, where the checks of R322 pass. -/

namespace Sys2Proof.Claims
open Sys2Proof Sys2Proof.Machine

/-- The current agent's memory instruction passes its checks, with the values of its sources by lane. -/
def MemRuns (s : State) (h : Hdr) (pl : Place) (m : MAddr) (extra : List Src) (dsts : List Ref)
    (straddle : Option (Nat × Nat)) (push : Option Nat) (x0 x : Ctxt) (u : State) (vs : List (Nat → Nat)) : Prop :=
  theCtxt s = some x0 ∧ memGather s x0 h pl m extra dsts straddle push = .ok (u, x, vs)

/-- One access per active lane, of n bytes at the lane's address (R167). -/
def perLane (x : Ctxt) (lanes : Mask) (m : MAddr) (vs : List (Nat → Nat)) (n align : Nat) : List Acc :=
  (laneList lanes x.w).map fun l => { lane := l, addr := laneAddr m vs n l, n := n, align := align }

/-- One access of the whole instruction. -/
def single (m : MAddr) (vs : List (Nat → Nat)) (n : Nat) : List Acc :=
  [{ lane := 0, addr := laneAddr m vs n 0, n := n, align := n }]

/-! ## Reads (R170, R171, R173) -/

/-- A reading instruction: its accesses, and the outstanding result that it leaves. -/
structure LoadOp where
  h : Hdr
  pl : Place := {}
  m : MAddr
  dsts : List Ref
  straddle : Option (Nat × Nat) := none
  push : Option Nat := none
  share : Share
  accs : Ctxt → Mask → List (Nat → Nat) → List Acc
  reads : Ctxt → Mask → List Placed → List LaneRead
  res : Ctxt → Mask → Result

/-- The result of a read: whose it is, and its order, scope, policy and stream. -/
def readResult (x : Ctxt) (lanes : Mask) (m : MAddr) (k : ResKind) : Result :=
  { agent := x.aid, ctx := x.p.ctx, kind := k, mask := lanes, ord := m.ord, scp := m.scp, pol := m.pol, str := m.str }

def loadOp : Instr → Option LoadOp
  | .ld h wid sx (.v n) m => some
      { h := h, m := m, dsts := [.v n (widRegs wid) 0], share := .lane
        accs := fun x lanes vs => perLane x lanes m vs (widBytes wid) (widBytes wid), reads := fun _ _ => laneReads
        res := fun x lanes => { readResult x lanes m (.load ⟨widBytes wid, sx⟩) with dst := dstParts x.a lanes n (widRegs wid) } }
  | .ld h wid sx (.s n) m => some
      { h := h, pl := { primer := noVecAddr m }, m := m, dsts := [.s n 0], share := .one
        accs := fun _ _ vs => single m vs (widBytes wid), reads := fun _ _ => laneReads
        res := fun x lanes => { readResult x lanes m (.load ⟨widBytes wid, sx⟩) with sdst := [n] } }
  | .ld h wid sx (.push c) m => some
      -- every lane's element, contiguous from the address
      { h := h, pl := { primer := noVecAddr m }, m := m, dsts := [], push := some c, share := .one
        accs := fun x _ vs => (List.range x.w).map fun l =>
          { lane := l, addr := laneAddr m vs (widBytes wid) 0 + (l : Int) * widBytes wid, n := widBytes wid, align := widBytes wid }
        reads := fun _ _ => laneReads
        res := fun x lanes => { readResult x lanes m (.load ⟨widBytes wid, sx⟩) with push := some c } }
  | .ldg h w n m => some
      { h := h, m := m, dsts := (List.range (2 ^ w)).map fun j => .v (n + j) 1 0, share := .lane
        accs := fun x lanes vs => perLane x lanes m vs (4 * 2 ^ w) (min (4 * 2 ^ w) 16), reads := fun _ _ => laneReads
        res := fun x lanes => { readResult x lanes m .gather with dst := dstParts x.a lanes n (2 ^ w) } }
  | .ldmx h f split n m => some
      { h := h, m := m, dsts := [.v n 1 0, .v (n + 1) 1 0], straddle := some (n, 2), share := .group
        accs := fun x lanes vs => ((mxGroups x lanes).map (mxAccs m vs f split)).flatten
        reads := fun x lanes ps => (mxGroups x lanes).map (groupRead ps split)
        res := fun x lanes => { readResult x lanes m (.block f) with dst := dstParts x.a lanes n 2 } }
  | _ => none

/-- A reading instruction whose accesses translate leaves an outstanding result (R21); one to a channel does so with no
lane active as well (R15). -/
def loadRule (i : Instr) (s t : State) : Prop :=
  ∃ o, loadOp i = some o ∧ ∃ x0 x u v vs ps,
    let lanes := activeMask x0.a o.h.km
    let r := { o.res x lanes with reads := o.reads x lanes ps, po := x.po, before := x.a.before }
    MemRuns s o.h o.pl o.m [] o.dsts o.straddle o.push x0 x u vs ∧ (lanes ≠ 0 ∨ o.push.isSome = true) ∧
    placeAll u x lanes o.share .r (o.accs x lanes vs) = .ok ps ∧
    issueRegs u x (addrSrcs o.h o.m) (r.dst.map (·.2.1)) = .ok v ∧
    t = clearWait (stepPc (acquirePerformed (addResult (protect v x.aid lanes o.dsts) r) x.p.core r.ord r.scp) x.aid
      (mSize o.m)) x.aid

/-- PRF (R174) never traps on an address; it may bring lines into the core's near cache and changes nothing else. -/
def prefetchRule (i : Instr) (s t : State) : Prop :=
  match i with
  | .prf h m => ∃ x0 x u v vs,
      let lanes := activeMask x0.a h.km
      MemRuns s h { primer := noVecAddr m } m [] [] none none x0 x u vs ∧ issueRegs u x (addrSrcs h m) [] = .ok v ∧
      let places := (laneList lanes x.w).filterMap fun l =>
        (placeAcc u x.p.ctx .r { lane := l, addr := laneAddr m vs 1 l, n := 1, align := 1 }).toOption
      let pieces := if m.pol = .norm ∨ m.pol = .keep then places.flatMap fun p => p.segs.map fun g => (g.1, p.pub) else []
      let w := pieces.foldl (fun w g =>
        if cacheable x.p.core g.1 g.2 then fillLine w x.p.core x.p.ctx g.1 (m.pol == .keep) else w) v
      t = clearWait (stepPc w x.aid (mSize m)) x.aid
  | _ => False

/-! ## Writes and atomics (R170, R172, R173, R175, R210) -/

/-- An instruction that sends packets: its accesses, what the packets do, their parts by 128-byte line, and whether
its flags wait for its last acknowledgement. -/
structure StoreOp where
  h : Hdr
  pl : Place := {}
  m : MAddr
  extra : List Src
  dsts : List Ref := []
  share : Share
  need : Need
  accs : Ctxt → Mask → List (Nat → Nat) → List Acc
  op : PacketOp
  groups : List (Nat → Nat) → List Placed → List (List PacketPart)
  flagged : Bool := false

/-- The place of data operand j from the end among an instruction's sources. -/
def dataVal (h : Hdr) (m : MAddr) (n j : Nat) (vs : List (Nat → Nat)) : Nat → Nat :=
  val vs ((addrSrcs h m).length + n - j)

/-- The accesses of a data operand: one for a scalar, one per lane otherwise. -/
def dataOf (scalar : Bool) (m : MAddr) (n : Nat) (x : Ctxt) (lanes : Mask) (vs : List (Nat → Nat)) : List Acc :=
  if scalar then single m vs n else perLane x lanes m vs n n

def storeOp : Instr → Option StoreOp
  | .st h wid d m => some
      { h := h, pl := { primer := noVecAddr m && !isVecOpd d }, m := m, extra := [srcOf d (widRegs wid) 0 h.lc]
        share := if isSregOpd d then .one else .lane, need := .w, accs := dataOf (isSregOpd d) m (widBytes wid), op := .write
        groups := fun vs ps => groupLines (dataParts ps (widBytes wid) (dataVal h m 1 1 vs)) [] }
  | .sct h wid op d m => some
      { h := h, m := m, extra := [srcOf d (widRegs wid) 0 h.lc]
        share := .lane, need := .w, accs := dataOf false m (widBytes wid)
        op := match op with
          | .st => .write
          | .add => .atom .add false
          | .addF32 => .atom .addF32 false
        groups := fun vs ps => groupLines (dataParts ps (widBytes wid) (dataVal h m 1 1 vs)) []
        flagged := op == .addF32 }
  | .red h wid op sgn false d m => some
      { h := h, pl := { primer := isScalarAddr m && isScalarDst d }, m := m, extra := [srcOf (dstOpd d) (widRegs wid) 0 h.lc]
        share := if isScalarDst d then .one else .lane, need := .rw, accs := dataOf (isScalarDst d) m (widBytes wid)
        op := .atom op sgn, groups := fun vs ps => groupLines (redParts op sgn (widBytes wid) (dataVal h m 1 1 vs) ps []) []
        flagged := op == .addF32 }
  | _ => none

/-- The waits of a release at its scope, where the instruction is one (R166). -/
def Released (u : State) (x : Ctxt) (lanes : Mask) (m : MAddr) : Prop :=
  MOrd.releases m.ord = true → waitRelease u x lanes (streamBit m.str) = .ok ()

/-- A writing instruction whose accesses translate sends its packets, each counted in its stream (R169, R210). -/
def storeRule (i : Instr) (s t : State) : Prop :=
  (∃ o, storeOp i = some o ∧ ∃ x0 x u v vs ps,
    let lanes := activeMask x0.a o.h.km
    MemRuns s o.h o.pl o.m o.extra [] none none x0 x u vs ∧ lanes ≠ 0 ∧
    placeAll u x lanes o.share o.need (o.accs x lanes vs) = .ok ps ∧ Released u x lanes o.m ∧
    checkRoom u x o.m.str (groupCount (o.groups vs ps)) = .ok () ∧ issueRegs u x (addrSrcs o.h o.m ++ o.extra) [] = .ok v ∧
    let g := (o.groups vs ps)
    let w := if o.flagged then
      { v with groups := tabPut v.groups v.fresh { stroke := x.a.stroke, left := g.length }, fresh := v.fresh + 1 } else v
    t = clearWait (stepPc (acquirePerformed (sendPackets w
      { packetOf u x o.m o.op with group := if o.flagged then some v.fresh else none } g) x.p.core o.m.ord o.m.scp) x.aid
      (mSize o.m)) x.aid) ∨
  (∃ h f split d m, i = .stmx h f split d m ∧ ∃ x0 x u v vs ps,
    let lanes := activeMask x0.a h.km
    let extra := [srcOf (.v d) 1 0 h.lc, srcOf (.v (d + 1)) 1 0 h.lc]
    let code := dataVal h m 2 2 vs
    let scale := fun l => dataVal h m 2 1 vs l % 256
    MemRuns s h {} m extra [] (some (d, 2)) none x0 x u vs ∧ lanes ≠ 0 ∧ x.w % 32 = 0 ∧
    -- every group is whole, with one scale
    (∀ g ∈ mxGroups x lanes, ∀ j < 32, lanes.getLsbD (32 * g + j) = true ∧ scale (32 * g + j) = scale (32 * g)) ∧
    placeAll u x lanes .group .w ((mxGroups x lanes).map (mxAccs m vs f split)).flatten = .ok ps ∧ Released u x lanes m ∧
    let enc := (mxGroups x lanes).map fun g =>
      (g, mxEncode f ((List.range 32).map fun j => code (32 * g + j)) (scale (32 * g)))
    -- blocks that share a line travel together
    let groups := groupLines (enc.map fun e =>
      { lanes := (List.range 32).map (32 * e.1 + ·), segs := groupSegs ps e.1, bytes := e.2.1 : PacketPart }) []
    checkRoom u x m.str (groupCount groups) = .ok () ∧ issueRegs u x (addrSrcs h m ++ extra) [] = .ok v ∧
    let w := sendPackets v (packetOf u x m .write) groups
    t = clearWait (stepPc (if enc.any fun e => e.2.2 then setFlags w x.a.stroke flBadpack else w) x.aid (mSize m)) x.aid)

/-- An atomic that returns a value (R175): ATOM, ACAS, RED.ret. -/
def atomicOp : Instr → Option (StoreOp × Dst × Nat × Bool)
  | .atom h wid op sgn d m => some (
      { h := h, pl := { primer := isScalarAddr m && isScalarDst d }, m := m, extra := [srcOf (dstOpd d) (widRegs wid) 0 h.lc]
        dsts := dstRef d (widRegs wid) 0, share := if isScalarDst d then .one else .lane, need := .rw
        accs := dataOf (isScalarDst d) m (widBytes wid), op := .atom op sgn
        groups := fun vs ps => groupLines (dataParts ps (widBytes wid) (dataVal h m 1 1 vs)) [] }, d, widRegs wid, false)
  | .red h wid op sgn true d m => some (
      { h := h, pl := { primer := isScalarAddr m && isScalarDst d }, m := m, extra := [srcOf (dstOpd d) (widRegs wid) 0 h.lc]
        dsts := dstRef d (widRegs wid) 0, share := if isScalarDst d then .one else .lane, need := .rw
        accs := dataOf (isScalarDst d) m (widBytes wid), op := .atom op sgn
        groups := fun vs ps => groupLines (redParts op sgn (widBytes wid) (dataVal h m 1 1 vs) ps []) [] }, d, widRegs wid, true)
  | .acas h wid (.v k) m => some (
      -- the compare values in D, the new values in the registers after them
      { h := h, pl := {}, m := m, dsts := [.v k (widRegs wid) 0], share := .lane, need := .rw, op := .cas
        extra := [srcOf (.v k) (widRegs wid) 0 h.lc, srcOf (.v (k + widRegs wid)) (widRegs wid) 0 h.lc]
        accs := dataOf false m (widBytes wid)
        groups := fun vs ps => groupLines (ps.map fun p =>
          { lanes := [p.lane], segs := p.segs, bytes := bytesOf (widBytes wid) (dataVal h m 2 1 vs p.lane)
            cmp := bytesOf (widBytes wid) (dataVal h m 2 2 vs p.lane) }) [] }, .v k, widRegs wid, false)
  | .acas h wid (.s k) m => some (
      { h := h, pl := { primer := isScalarAddr m }, m := m, dsts := [.s k 0], share := .one, need := .rw, op := .cas
        extra := [srcOf (.s k) 1 0 h.lc, srcOf (.s (k + 1)) 1 0 h.lc], accs := dataOf true m (widBytes wid)
        groups := fun vs ps => groupLines (ps.map fun p =>
          { lanes := [p.lane], segs := p.segs, bytes := bytesOf (widBytes wid) (dataVal h m 2 1 vs p.lane)
            cmp := bytesOf (widBytes wid) (dataVal h m 2 2 vs p.lane) }) [] }, .s k, widRegs wid, false)
  | _ => none

/-- Such an atomic leaves an outstanding result that its packets fill. -/
def atomicRule (i : Instr) (s t : State) : Prop :=
  ∃ o d regs after, atomicOp i = some (o, d, regs, after) ∧ ∃ x0 x u v vs ps,
    let lanes := activeMask x0.a o.h.km
    MemRuns s o.h o.pl o.m o.extra o.dsts none none x0 x u vs ∧ lanes ≠ 0 ∧
    placeAll u x lanes o.share o.need (o.accs x lanes vs) = .ok ps ∧ Released u x lanes o.m ∧
    checkRoom u x o.m.str (groupCount (o.groups vs ps)) = .ok () ∧
    let dst := match d with
      | .v k => dstParts x.a lanes k regs
      | _ => []
    issueRegs u x (addrSrcs o.h o.m ++ o.extra) (dst.map (·.2.1)) = .ok v ∧
    let r : Result :=
      { agent := x.aid, ctx := x.p.ctx, kind := .atomic, mask := lanes, reads := laneReads ps, ord := o.m.ord
        scp := o.m.scp, str := o.m.str, dst := dst, waits := (o.groups vs ps).length, po := x.po, before := x.a.before
        sdst := match d with
          | .s k => [k]
          | _ => [] }
    t = clearWait (stepPc (acquirePerformed (sendPackets (addResult (protect v x.aid lanes o.dsts) r)
      { packetOf u x o.m o.op with result := some v.fresh, after := after } (o.groups vs ps)) x.p.core o.m.ord o.m.scp)
      x.aid (mSize o.m)) x.aid

/-! ## Alignment (R167, R322) -/

/-- A memory instruction with its accesses. -/
structure AccessOp where
  h : Hdr
  pl : Place
  m : MAddr
  extra : List Src := []
  dsts : List Ref := []
  straddle : Option (Nat × Nat) := none
  push : Option Nat := none
  share : Share
  accs : Ctxt → Mask → List (Nat → Nat) → List Acc

/-- LD to a vector, a scalar or a channel, LDG, LDMX, ST, SCT, RED, ATOM, ACAS, RED.ret and STMX. -/
def accessOp (i : Instr) : Option AccessOp :=
  match loadOp i, storeOp i, atomicOp i with
  | some o, _, _ => some
      { h := o.h, pl := o.pl, m := o.m, dsts := o.dsts, straddle := o.straddle, push := o.push, share := o.share, accs := o.accs }
  | none, some o, _ => some { h := o.h, pl := o.pl, m := o.m, extra := o.extra, share := o.share, accs := o.accs }
  | none, none, some (o, _) => some
      { h := o.h, pl := o.pl, m := o.m, extra := o.extra, dsts := o.dsts, share := o.share, accs := o.accs }
  | none, none, none => match i with
    | .stmx h f split d m => some
        { h := h, pl := {}, m := m, extra := [srcOf (.v d) 1 0 h.lc, srcOf (.v (d + 1)) 1 0 h.lc], straddle := some (d, 2)
          share := .group, accs := fun x lanes vs => ((mxGroups x lanes).map (mxAccs m vs f split)).flatten }
    | _ => none

/-- The lanes to which misaligned accesses belong. -/
def wrongLanes (x : Ctxt) (lanes : Mask) (share : Share) (bad : List Acc) : Mask :=
  match share with
  | .one => lanes
  | .lane => maskOf x.w fun l => bad.any fun a => a.lane == l
  | .group => lanes &&& maskOf x.w fun l => bad.any fun a => a.lane == l / 32

/-! ## Fences, barriers and WAITF (R176-R182) -/

/-- The current agent's stroke-wide instruction passes its checks, with its operands' values (R177). -/
def WideRuns (s : State) (h : Hdr) (pl : Place) (srcs : List Src) (refs : List Ref) (x0 x : Ctxt) (u : State)
    (vs : List Nat) : Prop :=
  theCtxt s = some x0 ∧ wideGather s x0 h pl srcs refs = .ok (u, x, vs)

def syncRule (i : Instr) (s t : State) : Prop :=
  match i with
  | .fence h ord scp b => ∃ x0 x u vs, WideRuns s h { primer := true } [srcOf b 1 2 h.lb] [] x0 x u vs ∧
      let m := BitVec.ofNat 16 (nthVal vs 0)
      nthVal vs 0 ≠ 0 ∧ nthVal vs 0 < 2 ^ 16 ∧
      -- the reads that it orders have been performed, and what a release waits for has been acknowledged
      (∀ r ∈ u.results, r.2.agent = x.aid → m.getLsbD r.2.str = true → readsLeft r.2 = false) ∧
      setsPending u x.a.stroke = false ∧ matrixReads u x.a.stroke m = false ∧
      (MOrd.acquires ord = true → atomicsPending u x m = false) ∧ (MOrd.releases ord = true → waitStreams u x x0.a.em m = .ok ()) ∧
      t = clearWait (stepPc (if MOrd.acquires ord && Scope.wide scp then acquireInvalidate (addFence u x.aid m) x.p.core
        else addFence u x.aid m) x.aid (Machine.sizeOf b)) x.aid
  | .binit h a b => ∃ x0 x u vs off, WideRuns s h barPlace [addrSrc h a, srcOf b 1 2 h.lb] [] x0 x u vs ∧
      nthVal vs 0 % 16 = 0 ∧ scratchOff x.p (nthVal vs 0) 16 = some off ∧
      let n := x.p.strokes.length
      let m := if b = .s 63 then 2 ^ n - 1 else nthVal vs 1
      m < 2 ^ n ∧ segsBad u [(scratchPa x.p off, 16)] = none ∧ (off ∈ x.p.barriers → barArrived (barObj u x.p off) = 0 ∧ barPending (barObj u x.p off) = 0) ∧
      -- the strokes named that have not exited are its members
      let live := natOfBits (fun i => bitAt m i && ((x.p.strokes[i]?).bind (getStroke u)).any fun k => !k.exited) n
      let cnt := ((List.range n).filter fun i => bitAt live i).length
      t = clearWait (stepPc (setPanel (setBarObj u x.p off (mkBar cnt 0 0 ((x.p.classes.head?).getD 1) 0 live)) x.st.panel
        { x.p with barriers := if x.p.barriers.contains off then x.p.barriers else x.p.barriers ++ [off] }) x.aid
        (Machine.sizeOf b)) x.aid
  | .bar h a => ∃ x0 x u vs off, WideRuns s { h with sw := true } barPlace [addrSrc h a] [] x0 x u vs ∧
      scratchOff x.p (nthVal vs 0) 16 = some off ∧ off ∈ x.p.barriers ∧ segsBad u [(scratchPa x.p off, 16)] = none ∧
      bitAt (barMembers (barObj u x.p off)) x.st.idx = true ∧ barClass (barObj u x.p off) ≠ 2 ∧ x.a.frames = [] ∧
      checkMixedWaits u x x0.a.em (some off) = .ok () ∧ waitStreams u x x0.a.em allStreams = .ok () ∧
      -- the agent parks at the object; its stroke arrives when all its agents have
      t = clearWait (barArrive (blockAgent (setAgent u x.aid { x.a with barAt := some off }) x.aid .bar) x.st.panel
        x.a.stroke off) x.aid
  | .waitf h ty lvl prom cond d a b => ∃ x0 x u vs ps,
      let n := Ty.bits ty / 8
      WideRuns s h barPlace [addrSrc h a, srcOf b (Ty.regs ty) 2 h.lb] [.s d 0] x0 x u vs ∧ lvl < x.c.record.levels ∧
      placeAll u x x0.a.em .one .r [{ lane := 0, addr := ((nthVal vs 0 : Nat) : Int), n := n, align := n }] = .ok ps ∧
      checkPromise x x0.a.em lvl prom = .ok () ∧
      let r : WaitfRec :=
        { id := u.fresh, born := u.cycle, va := nthVal vs 0, segs := (ps.map (·.segs)).flatten, cond := cond, cmp := nthVal vs 1 % 2 ^ (8 * n), dst := d
          size := Machine.sizeOf b, wide := levelWide lvl }
      let w := setAgent u x.aid { x.a with waitf := some r }
      t = clearWait (blockAgent { w with fresh := u.fresh + 1 } x.aid .waitf) x.aid
  | .waitfConditionMet aid => waitfReady s aid = true ∧ ∃ a r0 r v, getAgent s aid = some a ∧ a.waitf = some r0 ∧
      waitfNow s (agentCtx s a) r0 = .ok r ∧
      waitfValue s (agentCtx s a) r = some v ∧ waitfBad s (agentCtx s a) r = none ∧
      let core := (((getStroke s a.stroke).bind fun k => getPanel s k.panel).map (·.core)).getD 0
      let s0 := setAgent s aid { a with waitf := none, run := .ready, waitFrom := none }
      -- the core's copies and rows of what was read give way to the home's value (R209, R233)
      let w := stepPc (putScalar (homeRead { s0 with freeN := (readFree s (agentCtx s a) r.segs).2.freeN } core (agentCtx s a)
        (localPieces s (agentCtx s a) r.segs)) aid r.dst v) aid r.size
      t = if r.wide then acquireInvalidate w core else w
  | _ => False

end Sys2Proof.Claims
end

