-- ==== Sys2Proof/Claims/Control.lean ====
section
/-! DEFINITION. What the rules of spec/02_encoding.md R39-R47, spec/14_divergence.md R257-R277 and spec/17_traps.md
R328-R335 say that each control, divergence and system instruction leaves: relations between the state before and
after, where the checks of R322 pass. -/

namespace Sys2Proof.Claims
open Sys2Proof Sys2Proof.Machine

/-- The current agent's control instruction passes its checks: `x0` is the agent with what it belongs to, `x` and `u`
stand behind the instruction's switch marker (R22). -/
def CtlRuns (s : State) (sw : Bool) (pl : Place) (reads : List Ref) (x0 x : Ctxt) (u : State) : Prop :=
  theCtxt s = some x0 ∧ ctlGather s x0 sw pl (fun _ => reads) = .ok (u, x)

/-- As `CtlRuns`, for a branch that tests the mask that KM selects (R41). -/
def MaskRuns (s : State) (sw : Bool) (km : Nat) (x0 x : Ctxt) (u : State) : Prop :=
  theCtxt s = some x0 ∧ ctlGather s x0 sw {} (fun y => selRefs y km) = .ok (u, x)

/-- As `CtlRuns`, for a system instruction with its operand's value. -/
def SysRuns (s : State) (h : Hdr) (pl : Place) (reads : List Ref) (b : List Opd) (x0 x : Ctxt) (u : State) (v : DWord)
    (runs : Agent → Bool := fun _ => true) (masked : Bool := false) : Prop :=
  theCtxt s = some x0 ∧ sysGather s x0 h pl reads b runs masked = .ok (u, x, v)

/-- The target of a relative branch (R39): computed exactly, below 2^57 and executable. -/
def Target (u : State) (x : Ctxt) (off : BitVec 36) (tgt : Nat) : Prop :=
  (x.a.pc.toNat : Int) + 8 * off.toInt = tgt ∧ tgt < 2 ^ 57 ∧ ∃ p, accessByte u x.p.ctx tgt .x = .ok p

/-- What a branch leaves: the program counter at its target and no staged names, or at the next instruction. -/
def Branches (u : State) (x : Ctxt) (c : Bool) (off : BitVec 36) (t : State) : Prop :=
  if c then ∃ tgt, Target u x off tgt ∧ t = clearWait (takeBranch u x.aid (BitVec.ofNat 57 tgt)) x.aid
  else t = clearWait (stepPc u x.aid 8) x.aid

/-- The branches of R40, R41 and R43, the calls of R42 and RGN (R45). -/
def branchRule (i : Instr) (s t : State) : Prop :=
  match i with
  | .nop sw => ∃ x0 x u, CtlRuns s sw { primer := true } [] x0 x u ∧ t = clearWait (stepPc u x.aid 8) x.aid
  | .land sw => ∃ x0 x u, CtlRuns s sw { primer := true } [] x0 x u ∧ t = clearWait (stepPc u x.aid 8) x.aid
  | .bra sw off => ∃ x0 x u, CtlRuns s sw { primer := true } [] x0 x u ∧ Branches u x true off t
  | .brzMask sw km off => ∃ x0 x u, MaskRuns s sw km x0 x u ∧
      Branches u x (activeMask x.a km &&& lanesBelow x.w == 0) off t
  | .brnzMask sw km off => ∃ x0 x u, MaskRuns s sw km x0 x u ∧
      Branches u x (activeMask x.a km &&& lanesBelow x.w != 0) off t
  | .brzScalar sw n off => ∃ x0 x u, CtlRuns s sw { primer := true } [.s n 1] x0 x u ∧
      Branches u x (sReg x.a n == 0) off t
  | .brnzScalar sw n off => ∃ x0 x u, CtlRuns s sw { primer := true } [.s n 1] x0 x u ∧
      Branches u x (sReg x.a n != 0) off t
  | .call sw l off => ∃ x0 x u tgt, CtlRuns s sw { meld := false } [.s l 0] x0 x u ∧ Target u x off tgt ∧
      t = clearWait (takeBranch (putS u x.aid l ((x.a.pc + 8).setWidth 64)) x.aid (BitVec.ofNat 57 tgt)) x.aid
  | .ret sw _ n => ∃ x0 x u, CtlRuns s sw { meld := false } [.s n 1] x0 x u ∧ (sReg x.a n).toNat % 8 = 0 ∧
      (sReg x.a n).toNat < 2 ^ 57 ∧ (∃ p, accessByte u x.p.ctx (sReg x.a n).toNat .x = .ok p) ∧
      t = clearWait (takeBranch u x.aid ((sReg x.a n).setWidth 57)) x.aid
  | .loop sw n off => ∃ x0 x u, CtlRuns s sw { primer := true } [.s n 1] x0 x u ∧
      (if 2 ≤ (sReg x.a n).toNat then ∃ tgt, Target u x off tgt ∧
          t = clearWait (takeBranch (putS u x.aid n (sReg x.a n - 1)) x.aid (BitVec.ofNat 57 tgt)) x.aid
        else t = clearWait (stepPc (if sReg x.a n = 0 then u else putS u x.aid n 0) x.aid 8) x.aid)
  | .rgn sw win app names => ∃ x0 x u, CtlRuns s sw {} [] x0 x u ∧
      -- the window's live names that are named, behind those already staged, 16 at most
      let new := ((List.range 64).filter fun b => names.getLsbD b && isLive x.a (64 * win + b)).map (64 * win + ·)
      let old := if app then x.a.staged else []
      t = clearWait (stepPc (setAgent u x.aid
        { x.a with staged := (old ++ new.filter fun n => !old.contains n).take 16 }) x.aid 16) x.aid
  | _ => False

/-- The end of an agent (R44): its stroke's counters read zero and nothing of it is outstanding. -/
def exitRule (i : Instr) (s t : State) : Prop :=
  match i with
  | .exit sw => ∃ x0 x u, CtlRuns s sw { primer := true, meld := false } [] x0 x u ∧ waitS u x.aid = .ok () ∧
      waitStreams u x x0.a.em allStreams = .ok () ∧
      (if x.a.primer then
        -- the access slice has ended: PRIMER_STATE reads FFH
        t = clearWait { setPanel u x.st.panel { x.p with primerState := 0xFF, primer := none } with
          agents := tabDel u.agents x.aid } x.aid
      else if x.a.frames = [] then
        t = clearWait (endAgent (setAgent u x.aid { x.a with hazV := 0, hazS := 0, hazK := 0, handler := false }) x.aid) x.aid
      else ∃ v, exitAgent u x x0.a.em 9 { x.a with hazV := 0, hazS := 0, hazK := 0, handler := false } = .ok v ∧
        t = clearWait v x.aid)
  | _ => False

/-- MELD, MEND and PATH (R257-R261), SPLIT, JOIN and BRX (R266-R273). The last three wait as if S were set, so what
they read may be an outstanding result (R22). -/
def divergenceRule (i : Instr) (s t : State) : Prop :=
  match i with
  | .meld sw two ka kb => ∃ x0 x u, CtlRuns s sw (divPlace false)
        (kRef ka 1 :: (if two then [] else [kRef kb 2]) ++ [.k 16 1]) x0 x u ∧
      t = clearWait (stepPc (setAgent u x.aid
        { x.a with meld := true, staged := [], pathLo := maskReg x.a ka &&& x.a.em
                   pathHi := if two then 0 else maskReg x.a kb &&& x.a.em }) x.aid 8) x.aid
  | .mend sw => ∃ x0 x u, CtlRuns s sw {} [] x0 x u ∧ x.a.meld = true ∧
      t = clearWait (stepPc (setAgent u x.aid { x.a with meld := false, staged := [] }) x.aid 8) x.aid
  | .path sw j p0 p1 p2 p3 => ∃ x0 x u, CtlRuns s sw (divPlace true) [] x0 x u ∧
      t = clearWait (stepPc (setAgent u x.aid { x.a with ptab := tabPut x.a.ptab j [p0, p1, p2, p3] }) x.aid 8) x.aid
  | .split _ kc tok off => ∃ x0 x u, CtlRuns s true (divPlace false) [.k kc 1, .k 16 1] x0 x u ∧ x.a.jstack.length < 16 ∧
      let a := { x.a with staged := [] }
      -- the lanes that divert, and those that stay
      let d := kReg x.a kc &&& lanesBelow x.w &&& x.a.em
      let r := x.a.em &&& ~~~d
      let solo : JoinEntry := { tok := tok, kind := .solo }
      if d = 0 then t = clearWait (setAgent u x.aid { a with jstack := solo :: a.jstack, pc := a.pc + 8 }) x.aid
      else ∃ tgt, Target u x off tgt ∧
        if r = 0 then
          t = clearWait (setAgent u x.aid { a with jstack := solo :: a.jstack, pc := BitVec.ofNat 57 tgt }) x.aid
        else if tokenHeld x.st tok = false ∧ entriesUsed u x.p.core < 32 then
          -- a real split: a fragment takes the lanes that divert
          let e : JoinEntry := { tok := tok, kind := .real, split := u.fresh }
          let f := makeFragments a x.aid e { u with fresh := u.fresh + 1 } [(d, BitVec.ofNat 57 tgt)]
          t = clearWait (setAgent (putSplit f.1 a.stroke u.fresh { tok := tok, members := x.aid :: f.2 }) x.aid
            { a with jstack := e :: a.jstack, em := r, pc := a.pc + 8 }) x.aid
        else framesUsed u x.a.stroke < 8 ∧
          t = clearWait (startSerial u x.aid a { tok := tok, kind := .serial }
            [(d, BitVec.ofNat 57 tgt), (r, a.pc + 8)] false) x.aid
  | .join _ tok => ∃ x0 x u e rest, CtlRuns s true (divPlace false) [] x0 x u ∧ x.a.jstack = e :: rest ∧ e.tok = tok ∧
      let a := { x.a with staged := [] }
      ((e.kind = .solo ∧ t = clearWait (setAgent u x.aid { a with jstack := rest, pc := a.pc + 8 }) x.aid) ∨
       (e.kind = .real ∧ e.frame = false ∧ ∃ v, joinArrive u x a e x0.a.em = .ok v ∧ t = clearWait v x.aid) ∨
       (e.kind = .serial ∧ e.frame = true ∧ ∃ f fs, x.a.frames = f :: fs ∧ e.addr.getD a.pc = a.pc ∧
         -- a group ends: the next one runs, or the split is whole again
         let g := endGroup { a with jstack := { e with addr := some a.pc } :: rest } x.aid u.fresh f true
         let u1 := { u with fresh := u.fresh + 1 }
         match g.2.1 with
         | some f1 => t = clearWait (setAgent u1 x.aid { g.1 with frames := f1 :: fs }) x.aid
         | none => t = clearWait (setAgent u1 x.aid { g.1 with frames := fs, jstack := rest, pc := a.pc + 8 }) x.aid) ∨
       (e.kind = .real ∧ e.frame = true ∧ ∃ f fs r, x.a.frames = f :: fs ∧ tabGet x.st.splits e.split = some r ∧
         r.addr.getD a.pc = a.pc ∧
         -- a group of the BRX ends: the next one runs, or the agent arrives for its own lanes
         let e1 := { e with addr := some a.pc }
         let g := endGroup { a with jstack := e1 :: rest } x.aid u.fresh f true
         let u1 := { putSplit u a.stroke e.split { r with addr := some a.pc } with fresh := u.fresh + 1 }
         match g.2.1 with
         | some f1 => t = clearWait (setAgent u1 x.aid { g.1 with frames := f1 :: fs }) x.aid
         | none =>
           let e2 := { e1 with frame := false }
           ∃ v, joinArrive u1 x { g.1 with frames := fs, jstack := e2 :: rest, pc := a.pc } e2 x0.a.em = .ok v ∧
             t = clearWait v x.aid))
  | .brx _ la tok a => ∃ x0 x u vs v,
      let src := srcOf a 2 1 la
      let ls := laneList x0.a.em x.w
      theCtxt s = some x0 ∧ checkPlace x0 x0.a.em (divPlace false) = .ok () ∧ switchMark s x0 true = .ok (u, x) ∧
      checkMeldPairs x x0.a.em [src] [] = .ok () ∧ checkRegs x x0.a.em [src] [] = .ok () ∧
      checkMeld x x0.a.em (divPlace false) = .ok () ∧ checkReads x x0.a.em [.k 16 1] = .ok () ∧ srcValues u x x0.a.em [src] 1 0 = .ok vs ∧
      (∀ l ∈ ls, brxFail u x (val vs 0 l) = none ∧ brxErr u x (val vs 0 l) = none) ∧ x.a.jstack.length < 16 ∧
      let b := { x.a with staged := [], live := x.a.live &&& ~~~(set192 (freedBy x.a [src])) }
      let solo : JoinEntry := { tok := tok, kind := .solo }
      (match (brxGroups (val vs 0) ls []).map fun g => (g.1, BitVec.ofNat 57 g.2) with
      | [] => v = setAgent u x.aid { b with jstack := solo :: b.jstack, pc := b.pc + 8 }
      | [(_, pc)] => v = setAgent u x.aid { b with jstack := solo :: b.jstack, pc := pc }
      | g0 :: rest =>
        -- as many fragments as there is room for, the other groups in turn
        let room := if tokenHeld x.st tok then 0 else min 3 (32 - entriesUsed u x.p.core)
        let ser := rest.drop room
        (ser = [] ∨ framesUsed u x.a.stroke < 8) ∧
        if room = 0 then v = startSerial u x.aid b { tok := tok, kind := .serial } (g0 :: rest) true
        else
          let e : JoinEntry := { tok := tok, kind := .real, split := u.fresh }
          let f := makeFragments b x.aid e { u with fresh := u.fresh + 1 } (rest.take room)
          let w := putSplit f.1 b.stroke u.fresh { tok := tok, members := x.aid :: f.2 }
          v = if ser = [] then setAgent w x.aid { b with jstack := e :: b.jstack, em := g0.1, pc := g0.2 }
            else startSerial w x.aid b e (g0 :: ser) true) ∧ t = clearWait v x.aid
  | _ => False

/-- A write of a special register that the privilege level allows (R46, R47), with the value of the lowest active
lane. -/
def swrRule (i : Instr) (s t : State) : Prop :=
  match i with
  | .swr h r a => ∃ x0 x u vs v,
      let lanes := activeMask x0.a h.km
      let srcs := [srcOf a 1 1 h.la]
      theCtxt s = some x0 ∧ checkPlace x0 lanes {} = .ok () ∧ switchMark s x0 h.sw = .ok (u, x) ∧
      checkRegs x lanes srcs (selRefs x h.km) = .ok () ∧ checkUniform x lanes srcs [0] = .ok () ∧
      checkReads x lanes (selRefs x h.km) = .ok () ∧ lanes ≠ 0 ∧
      (r = .status ∨ r = .fpst ∨ r = .sstat ∨ r = .ssbytes ∨ r = .rstep ∨ r = .tpc ∨ (r = .tvbase ∧ 1 ≤ x.a.priv)) ∧
      srcValues u x lanes srcs 1 0 = .ok vs ∧
      let w := writeSreg u x r (BitVec.ofNat 64 (val vs 0 ((lowestLane lanes x.w).getD 0)))
      let x1 := { x with a := (getAgent w x.aid).getD x.a, st := (getStroke w x.a.stroke).getD x.st }
      reserveFor w x1 (freedBy x1.a srcs) [] = .ok v ∧
      t = clearWait (writeBack v x1 { sw := h.sw, size := 8, srcs := srcs } lanes {}) x.aid
  | _ => False

/-- What a TLBI leaves when no access made with a translation that it names is still to be performed (R313): the
translations are gone, and the core's copies with them. -/
def Forgets (u : State) (x : Ctxt) (lanes : Mask) (size : Nat) (hit : TlbEntry → Bool) (t : State) : Prop :=
  waitStreams u x lanes allStreams = .ok () ∧
  accessesBefore u x.p.ctx (x.a.tlbiAt.getD u.fresh) = false ∧
  ∃ c, getCtx u x.p.ctx = some c ∧
    t = clearWait (stepPc (acquireInvalidate (setAgent (setCtx u x.p.ctx { c with tlb := c.tlb.filter fun e => !hit e })
      x.aid { x.a with tlbiAt := none }) x.p.core) x.aid size) x.aid

/-- The system instructions: TRAP, HALT, RTT, PDONE, CKPT, CKPT.hint, ERRD (R328-R335) and TLBI (R313). -/
def systemRule (i : Instr) (s t : State) : Prop :=
  match i with
  | .trap h b => ∃ x0 x u v, SysRuns s h {} [] [b] x0 x u v (masked := true) ∧
      (if activeMask x0.a h.km = 0 then t = clearWait (stepPc u x.aid (Machine.sizeOf b)) x.aid
       else v.toNat < 2 ^ 16 ∧
        -- the trap SWTRAP with its code
        t = enterTrap s x0.aid { cause := .swtrap, aux := v, lanes := activeMask x0.a h.km })
  | .halt h b => ∃ x0 x u v, SysRuns s h { meld := false } [] [b] x0 x u v ∧ v.toNat < 2 ^ 16 ∧ waitS u x.aid = .ok () ∧
      waitStreams u x (activeMask x0.a h.km) allStreams = .ok () ∧
      let p := agentPlace u x.a
      t = clearWait (report (setAgent u x.aid { x.a with run := .halted, hazV := 0, hazS := 0, hazK := 0 })
        (.halted v.toNat p.1 p.2.1 p.2.2.1 p.2.2.2 x.a.pc)) x.aid
  | .rtt sw => ∃ x0 x u, CtlRuns s sw { meld := false } [] x0 x u ∧ x.a.handler = true ∧ waitS u x.aid = .ok () ∧
      t = clearWait (setAgent u x.aid { x.a with
        pc := BitVec.ofNat 57 (x.a.tpc.toNat % 2 ^ 57 / 8 * 8), priv := x.a.tcause.toNat / 2 ^ 8 % 4
        meld := x.a.tcause.getLsbD 10, meldHeld := false, handler := false, byPreempt := false, staged := []
        hazV := 0, hazS := 0, hazK := 0 }) x.aid
  | .pdone h n => ∃ x0 x u v,
      SysRuns s h { meld := false } [.s n 1] [] x0 x u v (runs := fun a => a.handler && a.byPreempt) ∧ waitS u x.aid = .ok () ∧ waitStreams u x (activeMask x0.a h.km) allStreams = .ok () ∧
      let r := if n = 63 then x.a.tpc else sReg x.a n
      let pc : VAddr := if r.toNat % 8 = 0 ∧ r.toNat < 2 ^ 57 then r.setWidth 57 else 0
      if (x.p.req.map (·.how)) = some .drain then
        -- the group drains, since its request found no room: the agent runs on at its resume PC (R333)
        t = clearWait (setAgent u x.aid { returnFrom x.a with pc := pc }) x.aid
      else t = clearWait (setAgent u x.aid { x.a with run := .done pc, hazV := 0, hazS := 0, hazK := 0 }) x.aid
  | .ckpt h d b => ∃ x0 x u v, SysRuns s h { meld := false } [.s d 0] [b] x0 x u v ∧ v.toNat < 2 ^ 11 ∧
      (((x.a.handler = true ∨ (x.a.wake = none ∧ ckptPending x = false)) ∧
          t = clearWait (stepPc (putS u x.aid d 0) x.aid (Machine.sizeOf b)) x.aid) ∨
       (∃ w, x.a.handler = false ∧ x.a.wake = some w ∧
          t = clearWait (stepPc (setAgent u x.aid (setSReg { x.a with wake := none } d w)) x.aid (Machine.sizeOf b)) x.aid) ∨
       (x.a.wake = none ∧ ckptPending x = true ∧ x.a.handler = false ∧ waitS u x.aid = .ok () ∧
          t = clearWait (blockAgent (setAgent u x.aid { x.a with ckptMask := v, hazV := 0, hazS := 0, hazK := 0 })
            x.aid .ckpt) x.aid))
  | .ckptHint h b => ∃ x0 x u v, SysRuns s h { meld := false } [] [b] x0 x u v ∧
      t = clearWait (stepPc (setPanel u x.st.panel { x.p with hint := some (v.toNat % 2 ^ 32, u.cycle) }) x.aid
        (Machine.sizeOf b)) x.aid
  | .errd h clr d b => ∃ x0 x u v, SysRuns s h { meld := false } [.s d 0] [b] x0 x u v (masked := true) ∧ activeMask x0.a h.km ≠ 0 ∧
      v.toNat ≤ 2 ∧
      let r := if v = 0 then min x.p.errCount 0xFFFF + 2 ^ 16 * (x.p.errReason % 256) + (if x.p.errVirtual then 2 ^ 24 else 0)
        else if v = 1 then x.p.errAddr % 2 ^ 57 else x.p.primerState
      let p := if clr then { x.p with errCount := 0, errReason := 0, errVirtual := false, errAddr := 0 } else x.p
      t = clearWait (stepPc (putS (setPanel u x.st.panel p) x.aid d (BitVec.ofNat 64 r)) x.aid (Machine.sizeOf b)) x.aid
  | .tlbiRng h n b => ∃ x0 x u v, SysRuns s h tlbiPlace [.s n 1] [b] x0 x u v ∧ x.a.priv ≠ 0 ∧
      (sReg x.a n).toNat % 4096 = 0 ∧ v ≠ 0 ∧ (sReg x.a n).toNat + v.toNat ≤ 2 ^ 57 ∧
      Forgets u x (activeMask x0.a h.km) (Machine.sizeOf b) (fun e =>
        decide (e.va < (sReg x.a n).toNat + v.toNat) && decide ((sReg x.a n).toNat < e.va + e.size)) t
  | .tlbiAll h => ∃ x0 x u v, SysRuns s h tlbiPlace [] [] x0 x u v ∧ x.a.priv ≠ 0 ∧
      Forgets u x (activeMask x0.a h.km) 8 (fun _ => true) t
  | .tlbiNg h => ∃ x0 x u v, SysRuns s h tlbiPlace [] [] x0 x u v ∧ x.a.priv ≠ 0 ∧
      Forgets u x (activeMask x0.a h.km) 8 (fun e => !e.g) t
  | _ => False

end Sys2Proof.Claims
end

