-- ==== Sys2Proof/Claims/Engine.lean ====
section
/-! DEFINITION. What the rules of spec/08_memory_instructions.md R181-R193 and spec/11_order_devices.md R219-R222 say
that the streamer's instructions, the channels' instructions, publishable regions and collectives leave, and the steps
of the engines. -/

namespace Sys2Proof.Claims
open Sys2Proof Sys2Proof.Machine

/-- A completion object at `comp`, where the instruction names one: its offset in the panel's scratchpad (R185). No erroneous
word that it shares with other bytes refuses its zeroing (R347, log 123). -/
def CompletionAt (u : State) (x : Ctxt) (has : Bool) (comp bytes : Nat) (co : Option Nat) : Prop :=
  if has then comp % 8 = 0 ∧ ∃ o, scratchOff x.p comp (8 + 8 * ceilDiv (ceilDiv bytes 512) 64) = some o ∧ co = some o ∧
    refusingWord u (compSegs x.p o bytes) = none
  else co = none

/-- The checks of R184 on a copy pass: its record reads as `l`, without an error, its packed tile lies in the panel's scratchpad, every
element in bounds translates, and no earlier copy holds its completion object. -/
def CopyChecks (u : State) (x : Ctxt) (lanes : Mask) (rec comp : Nat) (has : Bool) (packed : Option Nat) (out : Bool)
    (l : Layout) (co : Option Nat) : Prop :=
  hasRights x = true ∧ rec % 64 = 0 ∧
  (∃ ro, scratchOff x.p rec 64 = some ro ∧
    let bs := (List.range 64).map fun i => memGet u.mem (scratchPa x.p (ro + i))
    l = layOf bs ∧ layBad bs = none ∧ segsBad u [(scratchPa x.p ro, 64)] = none) ∧
  (∀ v, packed = some v → (scratchOff x.p v (layBytes l)).isSome) ∧ CompletionAt u x has comp (layBytes l) co ∧
  (∃ ps, placeAll u x lanes .one (if out then .we else .r) ((List.range (layCount l)).filterMap fun i =>
    (elemAddr l i).map fun a => { lane := 0, addr := (a : Int), n := layElem l.fmt, align := 1 }) = .ok ps) ∧
  checkReuse u x co = .ok ()

/-- The writes of a copy that its stream counts have room in the stream's counter, or the counter reads zero (R210). -/
def HasRoom (u : State) (x : Ctxt) (q : Copy) : Prop :=
  let n := (getStroke u x.a.stroke).elim 0 fun k => ackCount k 0
  n + ((copyPackets u q).map fun e => e.2.2).sum ≤ 4095 ∨ n = 0

/-- Where the packed tile of CPY and BARX lies: at operand B, or in the next free slot of the ring it names (R187). -/
def PackedAt (x : Ctxt) (out : Bool) (b : Opd) (v pk : Nat) (ring : Option (Nat × Nat)) : Prop :=
  match chanOf b with
  | none => pk = v ∧ ring = none
  | some c => out = false ∧ ∃ ch, tabGet x.p.chans c = some ch ∧ ch.kind = .ring ∧
      ch.copies.length + ch.ents.length + ch.slotsPopped < ch.slots ∧
      pk = ch.base + ch.nextSlot * ch.slotBytes ∧ ring = some (c, ch.nextSlot)

def copyRule (i : Instr) (s t : State) : Prop :=
  match i with
  | .cpy h out scp a b c => ∃ x0 x u vs pk ring l co,
      WideRuns s h cpyPlace (cpySrcs h a b c) [] x0 x u vs ∧ PackedAt x out b (nthVal vs 1) pk ring ∧
      CopyChecks u x x0.a.em (nthVal vs 0) (nthVal vs 2) (!isSz c) (some pk) out l co ∧
      let q := { newCopy u x l out pk co scp with ring := ring }
      HasRoom u x q ∧ t = clearWait (startCopy u x q 8) x.aid
  | .barx h out scp d a b c => ∃ x0 x u vs pk ring l co off,
      WideRuns s h { meld := false } (cpySrcs h a b c ++ [srcOf d 2 0 false]) [] x0 x u vs ∧
      PackedAt x out b (nthVal vs 1) pk ring ∧
      CopyChecks u x x0.a.em (nthVal vs 0) (nthVal vs 2) (!isSz c) (some pk) out l co ∧
      scratchOff x.p (nthVal vs 3) 16 = some off ∧ off ∈ x.p.barriers ∧ segsBad u [(scratchPa x.p off, 16)] = none ∧
      let o := barObj u x.p off
      barPending o + layBytes l < 2 ^ 24 ∧ barClass o ≠ 2 ∧
      let q := { newCopy u x l out pk co scp with ring := ring, bar := some off }
      -- the bytes of the tile are added to PENDING
      HasRoom u x q ∧ t = clearWait (startCopy (setBarObj u x.p off (mkBar (barExpect o) (barArrived o) (barPhase o)
        (barClass o) (barPending o + layBytes l) (barMembers o))) x q 8) x.aid
  | .mcast h n a b c => ∃ x0 x u vs l co lo ps,
      WideRuns s h { meld := false } [addrSrc h a, srcOf b 2 2 h.lb, srcOf c 2 3 h.lc] [] x0 x u vs ∧
      CopyChecks u x x0.a.em (nthVal vs 0) (nthVal vs 2) (!isSz c) none false l co ∧
      scratchOff x.p (nthVal vs 1) (8 * n) = some lo ∧
      let dests := (List.range n).map fun i =>
        ofBytes ((List.range 8).map fun j => memGet u.mem (scratchPa x.p (lo + 8 * i + j)))
      placeAll u x x0.a.em .one .we
        (dests.map fun (d : Nat) => { lane := 0, addr := (d : Int), n := layBytes l, align := 1 }) = .ok ps ∧
      segsBad u [(scratchPa x.p lo, 8 * n)] = none ∧
      let q := { newCopy u x l false 0 co (if ps.any fun p => p.segs.any fun g => bitAt g.1 51 then .fab else .pkg) with
        mcast := true, dests := dests }
      HasRoom u x q ∧ t = clearWait (startCopy u x q 8) x.aid
  | _ => False

/-- WAITC and TESTC (R186): the status word is `st`, the bitmap word `w`, both read at their homes, which leaves `v`. -/
def windowRule (i : Instr) (s t : State) : Prop :=
  match i with
  | .waitc h scp d a b c => ∃ x0 x u v vs st w, WideRuns s h { primer := true, meld := false } (windowSrcs h a b c) [.s d 0] x0 x u vs ∧
      readWindow u x x0.a.em (nthVal vs 0) (nthVal vs 1) = .ok (v, st, w) ∧
      let m := if isSz c then 2 ^ 64 - 1 else nthVal vs 2
      ((w &&& m = m ∧ t = clearWait (stepPc (if Scope.wide scp then acquireInvalidate (putScalar v x.aid d 0) x.p.core
          else putScalar v x.aid d 0) x.aid (Machine.sizeOf b)) x.aid) ∨
       (w &&& m ≠ m ∧ bitAt st 0 = true ∧ t = clearWait (stepPc (putScalar v x.aid d st) x.aid (Machine.sizeOf b)) x.aid))
  | .testc h d a b c => ∃ x0 x u v vs st w, WideRuns s h { primer := true, meld := false } (windowSrcs h a b c) [.s d 0] x0 x u vs ∧
      readWindow u x x0.a.em (nthVal vs 0) (nthVal vs 1) = .ok (v, st, w) ∧
      t = clearWait (stepPc (putScalar v x.aid d (w &&& if isSz c then 2 ^ 64 - 1 else nthVal vs 2)) x.aid
        (Machine.sizeOf b)) x.aid
  | _ => False

/-- A channel bound by an SBIND (R189). -/
def Binds (s : State) (h : Hdr) (c size : Nat) (srcs : List Src)
    (ok : State → Ctxt → List Nat → State → Chan → Prop) (t : State) : Prop :=
  ∃ x0 x u vs w ch, WideRuns s h chanPlace srcs [] x0 x u vs ∧ tabGet x.p.chans c = none ∧ ok u x vs w ch ∧
    t = clearWait (stepPc (putChan w x c ch) x.aid size) x.aid

def channelRule (i : Instr) (s t : State) : Prop :=
  match i with
  | .srel h c => ∃ x0 x u vs ch, WideRuns s h chanPlace [] [] x0 x u vs ∧ tabGet x.p.chans c = some ch ∧ ch.kind = .ring ∧
      waitRelease u x x0.a.em allStreams = .ok () ∧
      t = clearWait (stepPc (if ch.slotsPopped = 0 then u
        else putChan u x c { ch with slotsPopped := ch.slotsPopped - 1, oldSlot := (ch.oldSlot + 1) % ch.slots }) x.aid 8) x.aid
  | .sbindUnbind h c => ∃ x0 x u vs ch, WideRuns s h chanPlace [] [] x0 x u vs ∧ tabGet x.p.chans c = some ch ∧ ch.copies = [] ∧
      let w := setPanel u x.st.panel { x.p with chans := tabDel x.p.chans c }
      t = clearWait (stepPc (if ch.kind = .pull then
        { w with easel := tabMod w.easel ch.queue fun q => { q with pull := none } } else w) x.aid 8) x.aid
  | .sbindPrimer h c => Binds s h c 8 [] (fun u _ _ w ch => w = u ∧ ch = { kind := .primer }) t
  | .sbindRing h c p1 p2 p3 => Binds s h c (Machine.sizeOf p2) [addrSrc h p1, srcOf p2 1 2 h.lb, srcOf p3 1 3 h.lc]
      (fun u x vs w ch => nthVal vs 0 % 512 = 0 ∧ (scratchOff x.p (nthVal vs 0) (nthVal vs 1 * nthVal vs 2)).isSome ∧
        nthVal vs 1 ≠ 0 ∧ nthVal vs 1 % 512 = 0 ∧ 1 ≤ nthVal vs 2 ∧ nthVal vs 2 ≤ 16 ∧ w = u ∧
        ch = { kind := .ring, base := nthVal vs 0, slotBytes := nthVal vs 1, slots := nthVal vs 2 }) t
  | .sbindPort h c p1 => Binds s h c 8 [srcOf p1 1 1 h.la]
      (fun u x vs w ch => ∃ e, nthVal vs 0 ≤ 1023 ∧ tabGet u.easel (nthVal vs 0) = some e ∧ e.ctx = x.p.ctx ∧ e.pull = none ∧
        w = { u with easel := tabPut u.easel (nthVal vs 0) { e with pull := some (x.st.panel, c) } } ∧
        ch = { kind := .pull, queue := nthVal vs 0 }) t
  | .sbindIter h c p1 p2 => Binds s h c (Machine.sizeOf p2) [srcOf p1 1 1 h.la, srcOf p2 1 2 h.lb]
      (fun u x vs w ch => nthVal vs 0 < 2 ^ 32 ∧ handleFault x.ctx (nthVal vs 0) = none ∧ w = u ∧
        ch = { kind := .iter, set := nthVal vs 0, nextKey := some (nthVal vs 1 % 2 ^ 32) }) t
  | .sbindQuery h c d => ∃ x0 x u vs, WideRuns s h chanPlace [] [.s d 0] x0 x u vs ∧
      let v := match tabGet x.p.chans c with
        | none => 0
        | some ch => (match ch.kind with
            | .primer => 1
            | .ring => 2
            | .port => 3
            | .pull => 3
            | .iter => 4) + 8 * min ch.ents.length 16 + (if ch.err then 256 else 0)
      t = clearWait (stepPc (putScalar u x.aid d v) x.aid 8) x.aid
  | _ => False

/-- PREG, PREG.drop and PUB (R190, R191). -/
def regionRule (i : Instr) (s t : State) : Prop :=
  match i with
  | .preg h d a b => ∃ x0 x u vs segs, WideRuns s h chanPlace [addrSrc h a, srcOf b 2 2 h.lb] [.s d 0] x0 x u vs ∧
      let base := nthVal vs 0
      let n := nthVal vs 1
      n ≠ 0 ∧ n % 4096 = 0 ∧ base % 4096 = 0 ∧ segsFor u x.p.ctx .pub base n = .ok segs ∧ oneSlice segs = true ∧
      let mine := u.regions.filter fun r => r.ctx == x.p.ctx
      if 256 ≤ mine.length ∨ x.ctx.params.shadowReserve < (mine.map regionBytes).sum + n then
        -- no number or no shadow left: all ones
        t = clearWait (stepPc (putScalar u x.aid d (2 ^ 64 - 1)) x.aid (Machine.sizeOf b)) x.aid
      else
        segsBad u segs = none ∧
        let num := ((List.range 256).find? fun i => !mine.any fun r => r.num == i).getD 0
        let r : Region :=
          { ctx := x.p.ctx, num := num, base := base, segs := segs
            shadow := segs.foldl (fun m g => memWrite m g.1 (memRead u.mem g.1 g.2)) [] }
        t = clearWait (stepPc (putScalar { u with regions := u.regions ++ [r] } x.aid d num) x.aid (Machine.sizeOf b)) x.aid
  | .pregDrop h a => ∃ x0 x u vs r, WideRuns s h chanPlace [srcOf a 1 1 h.la] [] x0 x u vs ∧
      (u.regions.find? fun q => q.ctx == x.p.ctx && q.num == nthVal vs 0) = some r ∧
      t = clearWait (stepPc { u with regions := u.regions.filter fun q => q != r } x.aid 8) x.aid
  | .pub h _ a => ∃ x0 x u vs r, WideRuns s h chanPlace [srcOf a 1 1 h.la] [] x0 x u vs ∧
      (u.regions.find? fun q => q.ctx == x.p.ctx && q.num == nthVal vs 0) = some r ∧
      waitRelease u x x0.a.em allStreams = .ok () ∧ copyInto u x.st.panel r = false ∧
      -- live and shadow change places, with the errors that they hold
      let live := r.segs.foldl (fun m g => memWrite m g.1 (memRead u.mem g.1 g.2)) []
      t = clearWait (stepPc { u with
        mem := r.segs.foldl (fun m g => memWrite m g.1 (memRead r.shadow g.1 g.2)) u.mem
        badWords := (u.badWords.filter fun w => !inSegs r.segs w) ++ r.bad
        regions := u.regions.map fun q => if q = r then
          { q with shadow := live, bad := u.badWords.filter (inSegs r.segs) } else q } x.aid 8) x.aid
  | _ => False

/-- COLL (R193): the participant's collective begins. The descriptor's bytes are `bs`, read at their homes, which leaves
`v`. -/
def collectiveRule (i : Instr) (s t : State) : Prop :=
  match i with
  | .coll h a c => ∃ x0 x u v vs ps bs co p1 p2, WideRuns s h chanPlace [addrSrc h a, srcOf c 2 3 h.lc] [] x0 x u vs ∧
      hasRights x = true ∧
      placeAll u x x0.a.em .one .r [{ lane := 0, addr := (nthVal vs 0 : Int), n := 32, align := 8 }] = .ok ps ∧
      readNow u x x0.a.em ps = .ok (v, bs) ∧
      let f := fun o k => ofBytes ((bs.drop o).take k)
      let r := x.c.record
      let op := f 24 1 % 16
      let lvl := f 25 1
      let n := collN r lvl
      let bytes := collBytes op (f 16 4) n
      f 16 4 ≠ 0 ∧ op < 3 ∧ f 24 1 / 16 < 4 ∧ 3 ≤ lvl ∧ lvl < r.levels ∧ 4 ≤ domainOf r lvl ∧ f 26 6 = 0 ∧
      (op = 1 → f 16 4 % n = 0) ∧ CompletionAt v x (!isSz c) (nthVal vs 1) bytes co ∧
      placeAll v x x0.a.em .one .r [{ lane := 0, addr := (f 0 8 : Int), n := 4 * f 16 4, align := 4 }] = .ok p1 ∧
      placeAll v x x0.a.em .one .we [{ lane := 0, addr := (f 8 8 : Int), n := bytes, align := 4 }] = .ok p2 ∧
      x.p.task = false ∧ classOf r lvl = 0 ∧ waitRelease v x x0.a.em allStreams = .ok () ∧ checkReuse v x co = .ok () ∧
      let w := zeroComp v x.p co bytes
      let q : Coll :=
        { agent := x.aid, stroke := x.a.stroke, panel := x.st.panel, ctx := x.p.ctx, core := x.p.core, comm := x.p.comm
          level := lvl, op := op, wire := f 24 1 / 16, count := f 16 4, step := f 20 4, src := f 0 8, dst := f 8 8, comp := co
          unit := unitAt r lvl x.p.idx, group := if r.levels ≤ lvl + 1 then 0 else unitAt r (lvl + 1) x.p.idx
          pidx := x.p.idx }
      t = clearWait (stepPc { w with colls := tabPut w.colls w.fresh q, fresh := w.fresh + 1 } x.aid 8) x.aid
  | _ => False

/-! ## Steps of the engines -/

/-- A chunk of a copy lands (R183, R185, R227, R232). -/
def ChunkLands (s : State) (id k : Nat) (c : Copy) (t : State) : Prop :=
  chunkReady s c k = true ∧ (c.mcast = false → servedOf c k 0 = none → tooOld s (partBorn c k 0) = false) ∧
  ((c.mcast = true ∧ t = chunkOk s id c k) ∨
   -- a load: the tensor's bytes stand in the packed tile, the chunk's bit is set
   (c.mcast = false ∧ c.out = false ∧ ∃ bs p w, chunkBytes s c k = .ok bs ∧ landPanel s c = some p ∧
     -- the core's copies of what the copy reads take the homes' values (R225)
     coreWrite (chunkRead s c k) p.core c.ctx (bs.flatMap fun e => (List.range (layElem c.lay.fmt)).map fun j =>
       (scratchPa p (c.packed - p.slotVA + placeByte c.lay (layElem c.lay.fmt * e.1 + j)), 1)) (bs.flatMap (·.2)) =
       (w, none) ∧ t = chunkOk w id c k) ∨
   -- a store: every element in bounds has been written whole, and its acknowledgement arrives (R169)
   (c.mcast = false ∧ c.out = true ∧ ∃ ps w, tensorPieces s c k = (ps, none) ∧ outElems s c ps = (w, none) ∧
     let a := copyAck w id c k 0 none
     t = chunkOk a.1 id a.2 k))

/-- A chunk of a collective's destination lands: written whole, then its bit is set; the last one ends the collective
(R222). -/
def CollLands (s : State) (id k : Nat) (c : Coll) (bytes : List Byte) (t : State) : Prop :=
  k < ceilDiv bytes.length 512 ∧ c.landed.contains k = false ∧
  let bs := (bytes.drop (512 * k)).take 512
  let done := k :: c.landed
  ∃ g w v, segsFor s c.ctx .we (c.dst + 512 * k) bs.length = .ok g ∧ reachOf s c.ctx true g ≠ .refused ∧
    reachOf s c.ctx true g ≠ .away ∧
    coreWrite s c.core c.ctx (hereWrites s c.ctx g bs).1 (hereWrites s c.ctx g bs).2 = (w, none) ∧
    v = chunkBit w id c.panel c.comp c.orphan k ∧
    t = { v with colls := if done.length < ceilDiv bytes.length 512 then tabPut v.colls id { c with landed := done }
                          else tabDel v.colls id }

/-- Destination d of an MCAST answers for line l: the elements that start in it are written at a home of this device, or
another device has taken them (R192, R219, R232). -/
def LineDelivered (s : State) (id l d : Nat) (how : RemoteAck) (c : Copy) (t : State) : Prop :=
  c.mcast = true ∧ d < c.dests.length ∧ l < ceilDiv c.bytes 128 ∧ servedOf c l (d + 1) = none ∧ heldBack c l (d + 1) = false ∧
  tooOld s (partBorn c l (d + 1)) = false ∧
  (chunkAway s c (l / 4) = true → (servedOf c (l / 4) 0).isSome ∨ (servedOf c (l / 4) (c.dests.length + 1)).isSome) ∧
  let s0 := chunkRead s c (l / 4)
  ∃ es g w, mcastElems s c (l / 4) = .ok es ∧
    let mine := es.filter fun e => (lineElems c l).contains e.1
    lineSegs s0 c d (mine.map (·.1)) = .ok g ∧
    ((∃ g1, reachOf s0 c.ctx true g = .here g1 ∧ how = .here) ∨ (reachOf s0 c.ctx true g = .away ∧ ∃ b, how = .ok b)) ∧
    let q := hereWrites s0 c.ctx g (mine.flatMap (·.2))
    coreWrite s0 c.core c.ctx q.1 q.2 = (w, none) ∧ t = mcastAnswer w id c l d es none

/-- The part of chunk k on another device is answered, once (R217). -/
def PartServed (s : State) (id k d : Nat) (how : RemoteAck) (c : Copy) (t : State) : Prop :=
  (c.mcast = false ∨ d = c.dests.length) ∧ k < chunkCount c ∧ c.done.contains k = false ∧ c.failed.contains k = false ∧
  servedOf c k 0 = none ∧ chunkAway s c k = true ∧ heldBack c k 0 = false ∧
  tooOld s (partBorn c k 0) = false ∧ ∃ bs, how = .ok bs ∧
    let r := copyAck s id c k 0 none
    t = { r.1 with copies := tabPut r.1.copies id { r.2 with served := r.2.served ++ [(k, 0, bs)] } }

/-- A collective's hops run: every participant has issued once, alike, and every source can be read (R220, R221). -/
def HopsRun (s : State) (c : Coll) (id : Nat) (others : List CollOther) (t : State) : Prop :=
  ∃ cm, getComm s c.comm = some cm ∧ c.out = none ∧ collSecond s cm (id, c) = false ∧
    let peers := collPeers s cm.record c
    let r := collSources s peers
    let rank := cm.rkey.toNat % 2 ^ 32
    peers.length + others.length = collN cm.record c.level ∧ (∀ e ∈ peers, collSilent s e.2 = false) ∧
    (∀ e ∈ peers, e.2.level = c.level ∧ e.2.op = c.op ∧ e.2.wire = c.wire ∧ e.2.count = c.count) ∧
    (∀ o ∈ others, o.level = c.level ∧ o.op = c.op ∧ o.wire = c.wire ∧ o.count = c.count ∧ o.failed = false) ∧
    (∀ e ∈ r.2, ∃ ws, e.2 = .ok ws) ∧
    let ps : List Party := (r.2.map fun e => ((rank, e.1.2.unit, sourceWords e.2, some e.1) : Party)) ++
      others.map fun o => ((o.rank, o.unit, o.src, none) : Party)
    let order := ps.foldl (fun l p => insertParty p l) []
    t = (List.range order.length).foldl (fun w j =>
      match (order[j]?).bind fun p => p.2.2.2 with
      | some e => collSpent { w with colls := tabPut w.colls e.1 { e.2 with
          out := some ((collResult c.op c.wire (cm.rkey.toNat / 2 ^ 32) c.step c.count
            (order.map fun p => (p.1, p.2.2.1)) j).flatMap fun v => bytesOf 4 v) } } e.2
      | none => w) r.1

/-- CHUNK_LANDED, MCAST_DELIVERY and COLL_HOP, where each is enabled. -/
def engineStepRule (i : Instr) (s t : State) : Prop :=
  match i with
  | .chunkLanded id k =>
      (∃ c, tabGet s.copies id = some c ∧ ChunkLands s id k c t) ∨
      (tabGet s.copies id = none ∧ ∃ c bytes, tabGet s.colls id = some c ∧ c.out = some bytes ∧ CollLands s id k c bytes t)
  | .mcastDelivery id l d how => ∃ c, tabGet s.copies id = some c ∧
      (LineDelivered s id l d how c t ∨ PartServed s id l d how c t)
  | .collHop id others => ∃ c, tabGet s.colls id = some c ∧ HopsRun s c id others t
  | _ => False

end Sys2Proof.Claims
end

