-- ==== Sys2Proof/Claims/Tasks.lean ====
section
/-! DEFINITION. What the rules of spec/15_tasks_easel.md R278-R302 say that the task and Easel instructions leave, and the
steps of the Easel, of the combine unit and of the dispatcher's tasks. -/

namespace Sys2Proof.Claims
open Sys2Proof Sys2Proof.Machine

/-- The current agent's task or Easel instruction passes its checks, with the values of its sources by lane. -/
def TaskRuns (s : State) (h : Hdr) (ill : Ctxt → Bool) (srcs : List Src) (dsts : List Ref) (uni : List Nat) (x0 x : Ctxt)
    (u : State) (vs : List (Nat → Nat)) : Prop :=
  let lanes := activeMask x0.a h.km
  theCtxt s = some x0 ∧ lanes ≠ 0 ∧ taskGather s x0 h ill srcs dsts uni = .ok (u, x) ∧
    srcValues u x lanes srcs srcs.length 0 = .ok vs

/-- The commit of such an instruction. -/
def Commits (u : State) (x : Ctxt) (h : Hdr) (lanes : Mask) (srcs : List Src) (dsts : List Ref) (size : Nat) (w : Writes)
    (v : State) : Prop :=
  commitRegs u x { sw := h.sw, size := size, srcs := srcs, dsts := dsts } lanes w = .ok v

/-- Every lane's entry point may be executed at, and its writes before have been acknowledged (R279). -/
def SpawnChecks (u : State) (x : Ctxt) (lanes : Mask) (vs : List (Nat → Nat)) : Prop :=
  (∃ ps, placeAll u x lanes .lane .x ((laneList lanes x.w).map fun l =>
    { lane := l, addr := ((val vs 0 l % 2 ^ 64 : Nat) : Int), n := 8, align := 8 }) = .ok ps) ∧
  waitRelease u x lanes allStreams = .ok ()

/-- The task of a lane: its entry, four argument words, and its ENQ time. -/
def laneTask (u : State) (x : Ctxt) (vs : List (Nat → Nat)) (yield : Bool) (l : Nat) : Tcb :=
  { ctx := x.p.ctx, comm := x.p.comm, entry := BitVec.ofNat 57 (val vs 0 l)
    args := (List.range 4).map fun j => BitVec.ofNat 32 (val vs 1 l / 2 ^ (32 * j)), kind := yield
    enq := if yield then (x.st.enq[l]?).getD u.cycle else u.cycle }

def spawnRule (i : Instr) (s t : State) : Prop :=
  match i with
  | .tspawn h d a b => ∃ x0 x u vs v, TaskRuns s h (fun _ => false) (taskSrcs h a b) [.v d 1 0] [] x0 x u vs ∧
      let lanes := activeMask x0.a h.km
      SpawnChecks u x lanes vs ∧
      let r := pushTasks x.p.core (laneTask u x vs false) (laneList lanes x.w) u
      -- one task per lane; status 1 in the lanes that found the queue full
      Commits r.1 x h lanes (taskSrcs h a b) [.v d 1 0] 8
        { v := putV x lanes d (fun l => if r.2.contains l then 1 else 0) 1 } v ∧ t = clearWait v x0.aid
  | .tyld h d a b => ∃ x0 x u vs v, TaskRuns s h notTask (taskSrcs h a b) [.v d 1 0] [] x0 x u vs ∧
      let lanes := activeMask x0.a h.km
      SpawnChecks u x lanes vs ∧
      let r := pushTasks x.p.core (laneTask u x vs true) (laneList lanes x.w) u
      let gone := maskOf x.w fun l => lanes.getLsbD l && !r.2.contains l
      (x.a.em &&& ~~~gone = 0 → waitS u x.aid = .ok ()) ∧
      Commits r.1 x h lanes (taskSrcs h a b) [.v d 1 0] 8
        { v := putV x lanes d (fun l => if r.2.contains l then 1 else 0) 1 } v ∧
      -- the lanes that yielded leave the stroke
      t = clearWait (leaveLanes v x.aid gone) x0.aid
  | .alloc h sc d => ∃ x0 x u vs v, TaskRuns s h (fun _ => false) [] (dstRef d 2 0 ++ [.s sc 0]) [] x0 x u vs ∧
      let lanes := activeMask x0.a h.km
      let ls := match d with
        | .v _ => laneList lanes x.w
        | _ => [0]
      -- one chunk for each lane, lanes rising; 0 where the pool is empty; the count in the scalar
      let r := takeChunks x.p.ctx ls u
      let w := putDst x lanes d 2 fun l => ((r.2.find? fun e => e.1 == l).bind (·.2)).getD 0
      Commits r.1 x h lanes [] (dstRef d 2 0 ++ [.s sc 0]) 8
        { w with s := w.s ++ [(sc, BitVec.ofNat 64 (r.2.filter fun e => e.2.isSome).length)] } v ∧ t = clearWait v x0.aid
  | _ => False

/-- A queue of the context, configured where that is asked. -/
def QueueOf (u : State) (x : Ctxt) (lanes : Mask) (n : Nat) (conf : Bool) (e : EQueue) : Prop :=
  n ≤ 1023 ∧ checkQueue u x lanes n conf = .ok e

def pushDst (d : Option Nat) : List Ref :=
  match d with
  | some n => [.v n 1 0]
  | none => []

def queueRule (i : Instr) (s t : State) : Prop :=
  match i with
  | .eqpush h d e q => ∃ x0 x u vs k v,
      TaskRuns s h (fun _ => false) [srcOf (.v e) 8 1 h.la, srcOf q 1 2 h.lb] (pushDst d) [1] x0 x u vs ∧
      let lanes := activeMask x0.a h.km
      let n := val vs 1 ((lowestLane lanes x.w).getD 0)
      let bytes := fun l => bytesOf 32 (val vs 0 l)
      QueueOf u x lanes n true k ∧ (∀ l ∈ laneList lanes x.w, entryBad (bytes l) = false) ∧
      waitRelease u x lanes allStreams = .ok () ∧
      -- lane by lane: 0 in the ring, 1 spilled, 2 refused; a refusal is reported
      let r := pushEntries n bytes (laneList lanes x.w) u
      let refused := (r.2.filter fun p => p.2 == 2).length
      Commits (if refused = 0 then r.1 else report r.1 (.queueSpill x.p.ctx n refused)) x h lanes
        [srcOf (.v e) 8 1 h.la, srcOf q 1 2 h.lb] (pushDst d) (Machine.sizeOf q)
        { v := match d with
            | some k => putV x lanes k (fun l => ((r.2.find? fun p => p.1 == l).map (·.2)).getD 0) 1
            | none => [] } v ∧ t = clearWait v x0.aid
  | .eqstat h d q sel => ∃ x0 x u vs k v,
      TaskRuns s h (fun _ => false) [srcOf q 1 1 h.la, srcOf sel 1 2 h.lb] [.s d 0] [0] x0 x u vs ∧
      let lanes := activeMask x0.a h.km
      let lo := (lowestLane lanes x.w).getD 0
      QueueOf u x lanes (val vs 0 lo) false k ∧ val vs 1 lo < 4 ∧
      let n := queueCount k
      let word := if k.configured = false then 0 else match val vs 1 lo with
        | 0 => n % 2 ^ 32 + 2 ^ 32 * min k.spill.length 0xFFFF + (if k.enable then 2 ^ 48 else 0) +
            (if queueReady k (timerOut u k) then 2 ^ 49 else 0)
        | 1 => min (oldestAge u k) (2 ^ 64 - 1)
        | 2 => k.refused + 2 ^ 32 * min k.firings (2 ^ 32 - 1)
        | _ => k.fill % 2 ^ 16 + 2 ^ 16 * (k.batch % 512) + 2 ^ 32 * k.age
      Commits u x h lanes [srcOf q 1 1 h.la, srcOf sel 1 2 h.lb] [.s d 0] (Machine.sizeOf sel)
        { s := [(d, BitVec.ofNat 64 word)] } v ∧ t = clearWait v x0.aid
  | .eqcfg h n d r q => ∃ x0 x u u1 vs cs, WideRuns s h taskPlace [srcOf (.s r) 1 1 false, srcOf q 1 2 h.lb] [.s d 0] x0 x u vs ∧
      let base := nthVal vs 0
      let first := nthVal vs 1
      x.a.priv ≠ 0 ∧ base % 8 = 0 ∧ readConfigs u x x0.a.em base n = .ok (u1, cs) ∧
      (∀ j < n, first + j ≤ 1023 ∧ ∃ e, tabGet u1.easel (first + j) = some e ∧ e.ctx = x.p.ctx ∧
        changesRing e ((cs[j]?).getD ([], none)).1 = false) ∧
      checkConfigs u1 x x0.a.em 0 cs = .ok () ∧
      -- all the queues take their records, or none where the rings would not fit: status 1
      let v := acquireInvalidate (installQueues first cs u1) x.p.core
      let fits := ringBytes v x.p.ctx ≤ x.ctx.params.easelReserve
      t = clearWait (stepPc (putScalar (if fits then v else acquireInvalidate u1 x.p.core) x.aid d (if fits then 0 else 1))
        x.aid (Machine.sizeOf q)) x0.aid
  | .eqcomb h str a grp gate => ∃ x0 x u vs v,
      TaskRuns s h (fun _ => false) [addrSrc h a, srcOf (.v grp) 4 2 h.lb, srcOf (.v gate) 1 3 h.lc] [] [0] x0 x u vs ∧
      let lanes := activeMask x0.a h.km
      let ls := laneList lanes x.w
      let word := fun (l j : Nat) => val vs 1 l / 2 ^ (32 * j) % 2 ^ 32
      (∀ l ∈ ls, lenAwaited u x.p.ctx l (val vs 0 l + 64 * word l 0) = false ∧
        combFaults u x.p.ctx l (val vs 0 l + 64 * word l 0) (val vs 1 l / 2 ^ 64 % 2 ^ 64) = []) ∧
      waitRelease u x lanes allStreams = .ok () ∧ checkRoom u x str ls.length = .ok () ∧
      -- one deposit per lane, each to be acknowledged
      let w := ls.foldl (fun t l =>
        let dep : Deposit :=
          { agent := x.aid, stroke := x.a.stroke, str := str, ctx := x.p.ctx, slot := val vs 0 l + 64 * word l 0
            k := word l 1, gate := BitVec.ofNat 32 (val vs 2 l), row := val vs 1 l / 2 ^ 64 % 2 ^ 64
            born := u.cycle }
        { t with deposits := tabPut t.deposits t.fresh dep, fresh := t.fresh + 1 }) { u with freeN := u.freeN + x.w }
      Commits (addAcks w x.a.stroke str ls.length) x h lanes
        [addrSrc h a, srcOf (.v grp) 4 2 h.lb, srcOf (.v gate) 1 3 h.lc] [] 8 {} v ∧ t = clearWait v x0.aid
  | _ => False

/-! ## Steps of the Easel, the combine unit and the dispatcher -/

/-- A deposit whose slot and row are readable, its element K not seen before, is staged with its gate; the last of a slot
also writes the output row and STATUS (R302, R358). -/
def Deposited (s0 : State) (d : Deposit) (g : List (Nat × Nat)) (t : State) : Prop :=
  ∃ c own all row sr, c = combSlot (readSegs s0.mem g) ∧ d.k < c.ktot ∧ bitAt c.kseen d.k = false ∧ c.done = false ∧
    1 ≤ c.len ∧ c.len ≤ 1024 ∧ c.ktot ≤ 8 ∧ c.reserved = 0 ∧
    unitSegs s0 d.ctx (c.stage + 4 * d.k * c.len) (4 * c.len) = some own ∧
    unitSegs s0 d.ctx c.stage (4 * c.ktot * c.len) = some all ∧ rowBytesOf s0 d.ctx d.row (4 * c.len) = .ok (row, sr) ∧
    refusingWord s0 (unitHere s0 d.ctx own) = none ∧
    let last := (List.range c.ktot).all fun j => j == d.k || bitAt c.kseen j
    ((touchedBad s0 (unitHere s0 d.ctx all)).filter fun w => last && !coversWord (unitHere s0 d.ctx own) w) = [] ∧
    let s1 := (unitWrite sr d.ctx own row).1
    let bs := readSegs s1.mem g
    let s2 := storeSegs s1 g (bs.take 27 ++ [BitVec.ofNat 8 (c.kseen ||| 2 ^ d.k)] ++ (bs.drop 28).take (4 + 4 * d.k) ++
      bytesOf 4 d.gate.toNat ++ bs.drop (36 + 4 * d.k))
    -- the staged rows as their homes hold them
    let stage := unitRead s2 d.ctx all s2.freeN
    t = ackDeposit (if last then
        combFinish { s2 with freeN := stage.2 } d g { c with gates := c.gates.set d.k d.gate.toNat } stage.1
          (rowSegs s0 d.ctx c.out c.len) (notifySegs s0 d.ctx c)
      else s2) d none

/-- COMBINE_DEPOSIT, EASEL_AGE_EXPIRY, EASEL_FIRING, TASK_FORMING_TIMER, TASK_STROKE_START and STEAL_REQUEST, where each
is enabled. -/
def easelStepRule (i : Instr) (s t : State) : Prop :=
  match i with
  | .combineDeposit id => ∃ d g h, tabGet s.deposits id = some d ∧ s.cycle - d.born ≤ 2 ^ 21 ∧ segsFor s d.ctx .w d.slot 64 = .ok g ∧
      reachOf s d.ctx true g = .here h ∧ touchedBad s h = [] ∧ Deposited { s with deposits := tabDel s.deposits id } d h t
  | .easelAgeExpiry q => ∃ e, tabGet s.easel q = some e ∧ timerOut s e = true ∧
      t = { s with easel := tabPut s.easel q { e with expired := true } }
  | .easelFiring die => ∃ q e core, nextFiring s (nextPlaced s).isSome = some (q, e, core) ∧ q / 512 = die ∧
      t = fire s q e core
  | .taskFormingTimer core => let c := getCore s core
      (∃ k ∈ c.tasks, k.ripe = false ∧ k.enq + 512 ≤ s.cycle) ∧
      t = setCore s core { c with tasks := c.tasks.map fun k => if k.enq + 512 ≤ s.cycle then { k with ripe := true } else k }
  | .taskStrokeStart core => ∃ comm c ts, nextFiring s false = none ∧ nextPlaced s = none ∧
      nextTasks s core = some (comm, c, ts) ∧ t = startTask s core comm c ts
  | .stealRequest core => ∃ v, coreIdle s core = true ∧
      (∀ b, (getCore s core).lastSteal = some b → b + 256 ≤ s.cycle) ∧ victimCore s core = some v ∧
      let s1 := setCore s core { getCore s core with lastSteal := some s.cycle }
      -- an unstarted panel, the highest index first; else the youngest half of a key's tasks
      ((∃ id p, (id, p) ∈ donatablePanels s core v ∧
          (donatablePanels s core v).find? (fun q => (donatablePanels s core v).all fun r => decide (r.2.idx ≤ q.2.idx)) =
            some (id, p) ∧ t = movePanel s1 id p core) ∨
       (donatablePanels s core v = [] ∧ t = shipTasks s1 v core))
  | _ => False

/-! ## What starts hold (R203, R240, R283, R296) -/

/-- The granules of an allocation read 0 (R203). -/
def Zeroed (t : State) (core : Nat) (gs : List Nat) : Prop :=
  ∀ g ∈ gs, ∀ o < 4096, memGet t.mem (granulePa core g + o) = 0

/-- The root agent of a stroke as it starts: its program counter, lanes, live names, privilege and scalars, and no trap,
meld region, join-stack entry or serialised group. -/
def StartsAt (t : State) (aid st : Nat) (pc : VAddr) (lanes : Mask) (live : BitVec 192) (priv : Nat)
    (regs : List (Nat × DWord)) : Prop :=
  ∃ a, getAgent t aid = some a ∧ a.stroke = st ∧ a.primer = false ∧ a.run = .ready ∧ a.pc = pc ∧ a.lset = lanes ∧
    a.em = lanes ∧ a.live = live ∧ a.priv = priv ∧ a.handler = false ∧ a.meld = false ∧ a.jstack = [] ∧ a.frames = [] ∧
    ∀ e ∈ regs, sReg a e.1 = e.2

/-- A panel of a record that has started: one stroke for each W of its lanes, each at ENTRY, its Primer at ACCESS, and a
zeroed scratchpad. -/
def PanelStarts (t : State) (id : Nat) (p : Panel) (r : CommRec) (priv : Nat) (regs : List (Nat × DWord)) : Prop :=
  p.strokes.length = strokeCount r ∧
  (∀ i st, p.strokes[i]? = some st → ∃ k aid, getStroke t st = some k ∧ k.panel = id ∧ k.idx = i ∧ k.width = r.width ∧
    k.populated = populatedOf r i ∧ k.exited = false ∧ StartsAt t aid st r.entry (populatedOf r i) 0 priv regs) ∧
  (r.access = 0 → p.primer = none) ∧
  (r.access ≠ 0 → ∃ aid a, p.primer = some aid ∧ getAgent t aid = some a ∧ a.primer = true ∧ a.pc = r.access) ∧
  p.slotBytes = r.scratch ∧ Zeroed t p.core p.granules

/-- A task stroke has started on a core: lane l holds task l with its words in v0 to v3, s0 to s3 hold ARGS, the
scratchpad and the number of tasks, and the tasks have left the queue. -/
def TaskStarted (s : State) (core comm : Nat) (c : Comm) (ts : List Tcb) (t : State) : Prop :=
  let r := c.record
  let n := ts.length
  ∃ id p st k aid, getPanel t id = some p ∧ p.comm = comm ∧ p.ctx = c.ctx ∧ p.core = core ∧ p.task = true ∧
    p.strokes = [st] ∧ p.slotBytes = ceilDiv r.taskscr 4096 * 4096 ∧ Zeroed t core p.granules ∧
    getStroke t st = some k ∧ k.panel = id ∧ k.width = r.width ∧ k.populated = lanesBelow n ∧ k.task = true ∧
    (∀ j < 4, ∀ l < r.width, ∀ b, ts[l]? = some b → vLane k j l = (b.args[j]?).getD 0) ∧
    StartsAt t aid st ((ts.head?).elim 0 (·.entry)) (lanesBelow n) (set192 [0, 1, 2, 3]) c.priv
      [(0, r.args), (1, BitVec.ofNat 64 p.slotVA), (2, BitVec.ofNat 64 p.slotBytes), (3, BitVec.ofNat 64 n)] ∧
    (getCore t core).tasks = ts.foldl (fun l b => l.erase b) (getCore s core).tasks

/-- A queue has fired on a core: an expert task of its template with the oldest entries, at most BATCH of them, at the
delivery port c0, and s0 to s5 as R296 says. -/
def Fired (s : State) (q : Nat) (e : EQueue) (core : Nat) (t : State) : Prop :=
  let r := firingRecord e
  let took := takeEntries s q (min e.batch (queueCount e))
  ∃ cid c id p, getComm t cid = some c ∧ c.record = r ∧ c.ctx = e.ctx ∧ c.source = .easel q ∧ c.unplaced = [] ∧
    getPanel t id = some p ∧ p.comm = cid ∧ p.ctx = e.ctx ∧ p.core = core ∧ p.idx = 0 ∧
    p.chans = [(0, refillPort r.width 256 { kind := .port, queue := q, batch := took.2, done := true })] ∧
    PanelStarts t id p r 0 [(0, BitVec.ofNat 64 took.2.length), (1, BitVec.ofNat 64 p.slotVA), (2, BitVec.ofNat 64 r.scratch),
      (3, r.args), (4, BitVec.ofNat 64 q), (5, BitVec.ofNat 64 e.firings)] ∧
    tabGet t.easel q = (tabGet took.1.easel q).map fun u => { u with firings := u.firings + 1 }

/-- A commission's next group is placed: each panel starts on the core assigned to it, a saved one waits there for its
restore, and they are no longer to be placed (R240, R252, R336). -/
def GroupPlaced (s : State) (comm : Nat) (c : Comm) (a : Assign) (t : State) : Prop :=
  (∃ d, getComm t comm = some d ∧ d.unplaced = c.unplaced.filter (fun p => !a.done.any fun e => e.1 == p) ∧
    d.cursor = a.cursor ∧ d.bound = a.bound) ∧
  (c.batch = none → ∀ e ∈ a.done, savedOf s comm e.1 = none → ∃ id p, getPanel t id = some p ∧ p.comm = comm ∧
    p.ctx = c.ctx ∧ p.core = e.2 ∧ p.idx = e.1 ∧ p.task = false ∧ p.req = none ∧ p.chans = startChans c.record ∧
    p.lvls = lvlsOf c.record e.1 ∧ PanelStarts t id p c.record c.priv
      [(0, c.record.args), (1, BitVec.ofNat 64 p.slotVA), (2, BitVec.ofNat 64 c.record.scratch)]) ∧
  -- a saved panel, whose number no other of the group has
  ∀ e ∈ a.done, ∀ k v, savedOf s comm e.1 = some (k, v) →
    (∀ f ∈ a.done, f.1 ≠ e.1 → ∀ w, savedOf s comm f.1 ≠ some (k, w)) →
    ∃ core, (e.1, core) ∈ a.done ∧ tabGet t.saved k = some { v with place := some core }

end Sys2Proof.Claims
end

