-- ==== Sys2Proof/Claims/Events.lean ====
section
/-! DEFINITION. What the steps beside the instructions leave: results, packets and acknowledgements
(spec/10_order_cores.md R209-R211, spec/11_order_devices.md R215-R224), commissions (spec/13_commissions.md R239-R254),
pre-emption (spec/17_traps.md R331-R336), and the device (spec/16_isolation.md R304-R320, spec/19_health.md
R348-R356). -/

namespace Sys2Proof.Claims
open Sys2Proof Sys2Proof.Machine

/-! ## Results, packets and acknowledgements -/

/-- What the fabric carries is taken from it (R315, R316). -/
def Lost (s : State) (p : Parcel) (t : State) : Prop :=
  match p with
  | .packet id => t = { s with packets := tabDel s.packets id }
  | .ack id => t = { s with ackq := tabDel s.ackq id }
  | .deposit id => t = { s with deposits := tabDel s.deposits id }
  | .read id => t = loseRead s id
  | .part id k d => t = { s with copies := tabMod s.copies id fun c => { c with lost := (k, d) :: c.lost } }

def packetRule (i : Instr) (s t : State) : Prop :=
  match i with
  | .resultReturn id how => ∃ r, tabGet s.results id = some r ∧ resultReady s id r how = true ∧ r.late = none ∧
      let core := agentCore s r.agent
      let acq := MOrd.acquires r.ord = true ∧ Scope.wide r.scp = true
      -- a read whose lanes are all reached and without an error takes its values; an acquire wider than a core then
      -- empties the core's copies
      ((isRead r = true ∧ (∀ l ∈ r.reads, l.val = none → pieceRefused s r.ctx l.segs = false) ∧
          ∃ copy others, (how = .home ∧ copy = false ∧ others = [] ∨ how = .copy ∧ copy = true ∧ others = [] ∨
            how = .remote others ∧ copy = true) ∧ badReads s r copy = [] ∧
          let q := fillReads s r core copy (fun _ => true) others
          let w := writeResult q.1 id { r with reads := q.2 }
          t = if acq then acquireInvalidate w core else w) ∨
       -- a computed result, or an atomic whose packets have all been performed
       (isRead r = false ∧ t = writeResult s id r))
  | .writePacketAtHome id how => ∃ k c, tabGet s.packets id = some k ∧ getCtx s k.ctx = some c ∧ c.killed = none ∧
      s.cycle - k.born ≤ 2 ^ 21 ∧ packetReady s id k how = true ∧
      let s0 := { s with packets := tabDel s.packets id }
      -- an acquire wider than a core empties the issuing core's copies as it is performed
      let acquired := fun (u : State) =>
        if MOrd.acquires k.ord = true ∧ Scope.wide k.scp = true then acquireInvalidate u k.core else u
      ((how = .here ∧ ∃ parts : List (PacketPart × List (Nat × Nat)), parts.map (·.1) = k.parts ∧
          (∀ p ∈ parts, reachOf s k.ctx true p.1.segs = .here p.2) ∧
          let segs := (parts.map (·.2)).flatten
          -- no word in error is written in part, nor read by an atomic (R347)
          (match k.op with
            | .write => refusingWord s0 segs
            | _ => updateRefused s0 segs) = none ∧
          let a := applyParts k parts (clearBad s0 segs, packetResult s0 k, 0)
          let w := putResult a.1 k (a.2.1.map fun q => { q with fl := q.fl ||| a.2.2 })
          let v := scribble w segs
          t = sendAck (acquired (if k.op = .write then homeWrite v k.core k.ctx segs else homeRead v k.core k.ctx segs)) k
            none a.2.2) ∨
       -- on another device, and here as far as a block lies here
       (∃ olds v, how = .ok olds ∧ engineWrite s0 k.ctx (localShare s0 k).1 (localShare s0 k).2 = (v, none) ∧
          let a := remoteParts k k.parts olds (packetResult v k, 0)
          t = sendAck (acquired (homeWrite (putResult v k (a.1.map fun q => { q with fl := q.fl ||| a.2 })) k.core k.ctx
            (localShare s0 k).1)) k none a.2))
  | .ackReceived id => ∃ k st, tabGet s.ackq id = some k ∧ s.cycle - k.born ≤ 2 ^ 21 ∧
      let s0 := { s with ackq := tabDel s.ackq id }
      let s1 := match k.group with
        | some g => groupAck s0 g k.fl
        | none => s0
      getStroke s1 k.stroke = some st ∧
      let left := ackCount st k.str - k.lines
      let s2 := setStroke s1 k.stroke { st with
        acks := if left = 0 then tabDel st.acks k.str else tabPut st.acks k.str left
        -- a FAULT marks the stream with the first address
        marks := match k.fault, tabGet st.marks k.str with
          | some pa, none => tabPut st.marks k.str pa
          | _, _ => st.marks }
      -- the room that it makes in stream 0 lets a copy's next packets go (log 96)
      t = if k.str = 0 then sendMore s2 k.stroke else s2
  | .acktimeout aid => ∃ a, getAgent s aid = some a ∧ (timedOut s a ≠ 0 ∨ unanswered s a = true) ∧
      a.owed = none ∧ t = enterTrap (setAgent s aid { a with run := .ready, waitFrom := none }) aid
        { cause := .acktimeout, aux := (timedOut s a).setWidth 64, lanes := parkedLanes s a }
  | .remoteReadTimeout id => ∃ r, tabGet s.results id = some r ∧ readTimedOut s id r = true ∧
      t = addLate { s with results := tabDel s.results id } r.agent id
        { cause := .acktimeout, aux := (streamBit r.str).setWidth 64, lanes := r.mask }
  -- a packet, an acknowledgement, a deposit or a copy's packet on its way is lost: nobody performs or receives it
  | .packetAgeDiscard p => ∃ b, parcelBorn s p = some b ∧ 2 ^ 21 < s.cycle - b ∧ Lost s p t
  | .uncorrectableHeaderDrop p atHome port link layer => ∃ b w, parcelBorn s p = some b ∧ Lost s p w ∧
      let u : ErrUnit := { cls := 4, num := link }
      let s1 := bumpUnit w u 0 0
      t = addLog s1 0 2 u 0 (unitCount s1 u) (some { atHome := atHome, port := port, link := link, layer := layer })
  | .flitCrcRetransmit lane => t = bumpUnit s { cls := 3, num := lane } 0 0
  | _ => False

/-! ## Commissions -/

/-- A record that launches (R239): it breaks no rule, its group fits the device, and its commission has its fields and
every panel still to be placed. -/
def Launches (s : State) (ctx priv : Nat) (src : Source) (bs : List Byte) (order : Option Nat) (c : Comm) (t : State) : Prop :=
  recordBad bs = none ∧ groupFits s (recordOf bs) = true ∧
  let r := recordOf bs
  c = { tag := r.tag, rkey := (r.salt ++ r.rank : BitVec 64), tvbase := r.tvbase, tclass := r.tclass, ctx := ctx, record := r
        priv := priv, source := src, order := order.getD (s.fresh * 2 ^ 32), unplaced := List.range (panelCount r)
        cursor := r.core0 } ∧
  t = { setComm s s.fresh c with fresh := s.fresh + 1 }

/-- A record that is refused, or whose group fits no empty device: nothing is launched, and the completion word at DONE
tells it (R239, R247). -/
def Refuses (s : State) (ctx : Nat) (src : Source) (bs : List Byte) (t : State) : Prop :=
  let word := writeCompletion s ctx src (BitVec.ofNat 64 (recNat bs 80 8)) (BitVec.ofNat 32 (recNat bs 76 4))
  (∃ off, recordBad bs = some off ∧ t = word 1 off) ∨
  (recordBad bs = none ∧ groupFits s (recordOf bs) = false ∧ t = word 2 0)

def commissionRule (i : Instr) (s t : State) : Prop :=
  match i with
  | .commissionLaunch n => ∃ q x, tabGet s.cqueues n = some q ∧ running s = true ∧ getCtx s q.reg.ctx = some x ∧
      x.killed = none ∧
      ((∃ bs w, queueHead s q = .record bs ∧ headBefore s n bs = false ∧
          let u := { s with freeN := s.freeN + 264 }
          ((∃ c, Launches u q.reg.ctx (if q.reg.super then 1 else 0) (.queue n) bs none c w) ∨
            Refuses u q.reg.ctx (.queue n) bs w) ∧
          t = setQcb { w with cqueues := tabPut w.cqueues n { q with reading := false, told := false } } q 24 8 (qcbField s q 24 8 + 1)) ∨
       -- an erroneous word that its read met is counted and logged (R348)
       (∃ r va met, queueHead s q = .fault r va met ∧ t = faultQueue (countRead s q.reg.ctx met) n q r va))
  | .ttInstanceDue n => ∃ e x bs w, tabGet s.tt n = some e ∧ running s = true ∧ ttDue s e = true ∧
      getCtx s e.cfg.ctx = some x ∧ x.killed = none ∧
      e.cfg.record.toNat % 64 = 0 ∧ readAwaited s e.cfg.ctx e.cfg.record.toNat 256 = false ∧ dispatchRead s e.cfg.ctx e.cfg.record.toNat 256 0 = .ok bs ∧
      let u := { s with freeN := s.freeN + 256 }
      -- the last due time counts; the earlier ones were skipped
      let k := lastDue e.cfg (deviceTime s)
      let e1 := { e with last := k, cfg := skipMore e.cfg (k - e.last - 1).toNat }
      let skip := { u with tt := tabPut s.tt n { e1 with cfg := skipMore e1.cfg 1 } }
      ((ttRunning s e1 = none ∧ (∃ c, Launches u e.cfg.ctx 0 (.table n) bs none c w) ∧
          t = { w with tt := tabPut w.tt n { e1 with inst := some s.fresh } }) ∨
       (ttRunning s e1 = none ∧ Refuses u e.cfg.ctx (.table n) bs w ∧
          t = { w with tt := tabPut w.tt n { e1 with inst := none } }) ∨
       (ttRunning s e1 ≠ none ∧ e.cfg.policy = 0 ∧ t = skip) ∨
       (ttRunning s e1 ≠ none ∧ e.cfg.policy = 1 ∧
          t = if e1.pending.isSome then skip else { u with tt := tabPut s.tt n { e1 with pending := some bs } }) ∨
       -- the due instance is served before the running one, whose panels are asked to give way under its own LATENCY
       (∃ r x, ttRunning s e1 = some (r, x) ∧ 2 ≤ e.cfg.policy ∧
          (∃ c, Launches u e.cfg.ctx 0 (.table n) bs (some (x.order - 1)) c w) ∧
          t = requestPanels { w with tt := tabPut w.tt n { e1 with inst := some s.fresh } } (.table n)
            ((s.panels.filter fun p => p.2.comm == r).map (·.1)) x.record.latency))
  -- a time from another port or domain than system software chose is ignored, and any before READY (R353)
  | .ptpMessage m => if s.juran.power ≠ .ready ∨ m.port ≠ s.juran.ptpPort ∨ m.domain ≠ s.juran.ptpDomain then t = s else
      let time := m.time
      let s1 := { s with juran := { s.juran with ptpLocked := true, ptpBase := time.toNat, ptpCycle := s.cycle } }
      t = if time.toNat < deviceTime s then
          { s1 with tt := tabMap (fun _ e => if e.cfg.period = 0 then e else { e with last := lastDue e.cfg time.toNat }) s1.tt }
        else s1
  | .ptpSourceUnlocked => t = { s with juran := { s.juran with ptpLocked := false } }
  | .panelPlacement comm => ∃ a, running s = true ∧ nextFiring s true = none ∧ nextPlaced s = some (comm, a) ∧
      t = updatePaused (commitGroup s comm a) comm
  | .panelRetire id => ∃ p, getPanel s id = some p ∧ panelDone s id p = true ∧
      let s1 := updatePaused (updateDrain (dropPanel (owedMiss s id p) id p) p.comm) p.comm
      t = if running s then refill (fireTop s1 1024) p.core else s1
  | .commissionRetire id => ∃ c, getComm s id = some c ∧ commDone s id c = true ∧
      let s1 := writeCompletion s c.ctx c.source c.record.done c.tag (if c.ended then 3 else 0) 0
      t = startPending { s1 with comms := tabDel s1.comms id } c.source
  | .starvationExpiry aid => ∃ a code w, getAgent s aid = some a ∧ waitEnds s aid = false ∧ starving s a = some (code, w) ∧
      let at0 := agentPlace s a
      let s1 := report s (.starved at0.1 at0.2.1 at0.2.2.1 at0.2.2.2 code a.pc)
      t = if (agentRecord s a).starvtrap = true ∧ a.handler = false then
          enterTrap (withdrawWait s1 aid) aid
            { cause := .starve, aux := BitVec.ofNat 64 code, lanes := a.em }
        else restartWait s1 aid
  | _ => False

/-! ## Pre-emption -/

/-- The request of a group that has none (R333-R335): by its commission's mode. -/
def Requested (s : State) (who : Requester) (g : List (Nat × Panel)) (comm : Nat) (bound : Option Nat) (t : State) : Prop :=
  ∃ c, getComm s comm = some c ∧
    let r : PreReq := { deadline := bound.map fun b => s.cycle + b, since := s.cycle, how := .save, who := who }
    match c.record.pmode with
    | 0 => ∃ how est miss, chooseOption (options s g c) bound = some (how, est, miss) ∧
        let q := { r with how := how, miss := if miss then some est else none }
        let s1 := if miss then report s (.boundMiss who ((g.head?).elim 0 (·.1)) est none) else s
        -- a save takes its areas as it begins (R337)
        (how = .drain ∧ t = setComm (putReqs s1 g q) comm { c with drain := true }) ∨
        (how = .save ∧ ∃ u, giveAreas s1 g c.ctx false (groupSizes s g) q = some u ∧ t = (g.map (·.1)).foldl stopPanel u) ∨
        (how = .flush ∧ t = (g.map (·.1)).foldl stopPanel (putReqs s1 g q))
    | 1 => ∃ u, giveAreas s g c.ctx true (groupSizes s g) { r with how := .handler } = some u ∧
        t = (g.flatMap fun p => (panelAgents s p.1).map (·.1)).foldl pendAgent u
    | _ => t = putReqs s g { r with how := .ckpt }

def preemptRule (i : Instr) (s t : State) : Prop :=
  match i with
  | .preemptRequest who id latency => ∃ p, getPanel s id = some p ∧
      let bound := if latency = 0 ∨ who = .pressure then none else some (1050 * latency)
      let g := groupPanels s id p
      ((p.req = none ∧ who ≠ .pressure ∧ ∃ w, Requested s who g p.comm bound w ∧
          t = if p.task then w else requestTasks w who p.comm bound) ∨
       -- a second request merges: the tighter bound stands
       (p.req ≠ none ∧ who ≠ .pressure ∧ t = mergeGroup s g bound) ∨
       -- the register file is full and every class W stroke is parked: a save (R19), by the request pending or a new one
       -- without a bound
       (who = .pressure ∧ (pressurePanel s p.core).map (·.1) = some id ∧ ∃ u,
          giveAreas (freeAreas s g) g p.ctx false (groupSizes (freeAreas s g) g) (pressureReq s p) = some u ∧
          t = updateDrain ((g.map (·.1)).foldl stopPanel u) p.comm))
  | .panelSave id => ∃ p r, getPanel s id = some p ∧ p.req = some r ∧ frozen s id p = true ∧
      let s1 := match p.primer with
        | some a => stopAgent s a
        | none => s
      let g := groupPanels s1 id p
      ((r.how = .flush ∧ panelQuiet s1 id p = true ∧ t = flushPanel s1 id p) ∨
       -- a save by hardware, or at a checkpoint by the masks of the whole group
       (∃ pl, (r.how = .save ∧ pl = fullPlan p 0 ∨ r.how = .expired ∧ pl = fullPlan p 3 ∨
            ∃ k, r.how = .ckpt ∧ r.keep = some k ∧ pl = ckptPlan p k) ∧ panelQuiet s1 id p = true ∧
          ∃ c a, getCtx s1 p.ctx = some c ∧
          let claim := pl.claim && ((getCore s1 p.core).matrix.map fun m => m.owner) == some id
          let bs := areaBytes s1 id p { pl with claim := claim }
          let held := r.area.getD []
          saveRoom c held bs.length = some a ∧
          -- the errors that it meets in the scratchpad and the tiles are counted and logged (R348)
          let tiles := ((getCore s1 p.core).matrix.map fun m => if claim then (savedTiles m pl.keep).map (tileOf m) else []).getD []
          let s2 := setCtx (metSaving s1 p pl.image tiles) p.ctx { dropAreas c held with areas := (dropAreas c held).areas ++ a }
          t = putAside s2 id p (savedOfPanel s2 id p a bs.length pl.mode pl.keep claim pl.image (bs.take 256)) [(0, bs)]) ∨
       (r.how = .handler ∧ panelQuiet s1 id p = true ∧ (∀ q ∈ g, ∃ x, q.2.req.bind (·.area) = some x) ∧
          t = g.foldl (fun u q =>
            match q.2.req.bind (·.area) with
            | some a => if panelQuiet u q.1 q.2 then finishHandler u q.1 q.2 a else u
            | none => u) s1) ∨
       -- a checkpoint save begins: the masks of the group together, and its areas
       (r.how = .ckpt ∧ r.keep = none ∧
          giveAreas s1 g p.ctx false (g.map fun q => (areaBytes s1 q.1 q.2 (ckptPlan q.2 (keepOf s1 g))).length)
            { r with keep := some (keepOf s1 g) } = some t))
  | .preemptBoundExpiry id => ∃ p r d u, getPanel s id = some p ∧ p.req = some r ∧ r.deadline = some d ∧ d < s.cycle ∧
      (r.how = .handler ∨ r.how = .ckpt) ∧ frozen s id p = false ∧
      let g := groupPanels s id p
      let s1 := freeAreas s g
      giveAreas s1 g p.ctx false (groupSizes s1 g) { r with how := .expired, area := none } = some u ∧
      t = (g.map (·.1)).foldl stopPanel u
  | .panelRestore id => ∃ v core c x, tabGet s.saved id = some v ∧ restoreCore s v = some core ∧ getComm s v.comm = some c ∧
      getCtx s v.ctx = some x ∧ (v.claim = true → (getCore s core).matrix = none) ∧
      let segs := v.area.map fun g => (x.params.saveBase + g.1, g.2)
      let bs := readSegs s.mem segs
      areaClean v bs = true ∧ segsBad s segs = none ∧
      t = updatePaused (freeArea (restoreOn s id v c x core bs) v.ctx (some v.area)) v.comm
  | _ => False

/-! ## The sealer, RDMA and the device -/

def outsideRule (i : Instr) (s t : State) : Prop :=
  match i with
  | .egressDescriptor ctx chan => ∃ c e d, liveCtx s ctx = some c ∧ tabGet c.egress chan = some e ∧ running s = true ∧
      egressReady s c e = .ok true ∧
      let s1 := setCtx { s with freeN := s.freeN + 40 } ctx
        { c with egress := tabPut c.egress chan { e with index := e.index + 1, seq := e.seq + 1, told := false } }
      dispatchRead s ctx (e.cfg.ring.toNat + 32 * (e.index % e.cfg.slots)) 32 8 = .ok d ∧
      let f := recNat d
      let clean := f 12 4 = 0 ∧ f 24 8 = 0
      let fits := 1 ≤ f 8 4 ∧ f 8 4 ≤ 8192 ∧ f 16 8 % 8 = 0
      -- no reserved field is set, the length is 1 to 8,192, the status word is aligned, the frame is readable: it is sent
      ((clean ∧ fits ∧ ∃ frame, dispatchRead s1 c.id (f 0 8) (f 8 4) 0 = .ok frame ∧
          t = egressStatus (report { s1 with freeN := s1.freeN + frame.length }
            (.frame c.id chan (frame ++ provenanceRecord s1 c chan e.seq frame))) c.id (f 16 8) e.seq 0) ∨
       -- else no frame: status 2 for a reserved field, status 1 and an event for a fault
       (¬ clean ∧ t = egressStatus s1 c.id (f 16 8) e.seq 2) ∨
       (clean ∧ ∃ w, (¬ fits ∧ w = s1 ∨
            fits ∧ ∃ r, dispatchRead s1 c.id (f 0 8) (f 8 4) 0 = .error r ∧ w = countRead s1 c.id r.2) ∧
          t = report (egressStatus w c.id (f 16 8) e.seq 1) (.egressFault c.id chan e.seq)))
  | .rdmaWrite ctx qp va bytes =>
      -- the queue pair is bound to the context, which is alive
      (∃ c g, qpCtx s ctx qp = some c ∧ segsFor s c.id .we va.toNat bytes.length = .ok g ∧
        (∀ p ∈ g, reachOf s c.id true [p] ≠ .refused) ∧ unitWrite s c.id g bytes = (t, none)) ∨
      -- refused: a NAK
      (qpCtx s ctx qp = none ∧ t = report s (.nak qp)) ∨
      (∃ c e, qpCtx s ctx qp = some c ∧ segsFor s c.id .we va.toNat bytes.length = .error e ∧
        t = report (countWalk s c.id e) (.nak qp))
  | .rdmaRead ctx qp va n =>
      (∃ c bs, qpCtx s ctx qp = some c ∧ c.params.sealed = false ∧ dispatchRead s c.id va.toNat n 0 = .ok bs ∧
        t = report { s with freeN := s.freeN + n } (.rdmaData qp bs)) ∨
      ((qpCtx s ctx qp = none ∨ ∃ c, qpCtx s ctx qp = some c ∧ c.params.sealed = true) ∧ t = report s (.nak qp)) ∨
      (∃ c e, qpCtx s ctx qp = some c ∧ c.params.sealed = false ∧ dispatchRead s c.id va.toNat n 0 = .error e ∧
        t = report (countRead s ctx e.2) (.nak qp))
  | .rdmaRefused qp => t = report s (.nak qp)
  | _ => False

def deviceRule (i : Instr) (s t : State) : Prop :=
  match i with
  -- from ROM, or from a reset: the first image in the boot order that verifies runs, else RECOVER
  | .powerOn => ∃ w, (w = if s.juran.power = .rom then s else resetDevice s) ∧
      ((bootSlot w.juran = none ∧ t = { w with juran := { w.juran with power := .recover } }) ∨
       (∃ n img, bootSlot w.juran = some (n, img) ∧
          t = { w with juran := { w.juran with
            power := .bist, active := n, running := some img, rollback := max w.juran.rollback img.version
            update := if n = w.juran.active then w.juran.update else false } }))
  | .bistComplete failed => s.juran.power = .bist ∧
      let bad := (failed.filter (unitInUse s.juran)).map (·.unit)
      let w := bad.foldl (fun u e => addLog (bumpUnit u e 0 0) 0 5 e 0 (unitCount (bumpUnit u e 0 0) e)) s
      t = if bad = [] then { s with juran := { s.juran with power := .ready } }
        else { w with juran := { w.juran with power := .safe } }
  | .recoverFetch => s.juran.power = .recover ∧ (∀ c, s.juran.fetched = some c → c + 2 ^ 30 ≤ s.cycle) ∧
      t = report { s with juran := { s.juran with fetched := some s.cycle } } (.fetchRequest s.juran.server)
  | .recoverImageReceived img => s.juran.power = .recover ∧
      ((imageVerifies s.juran img = true ∧ t = { s with juran := { s.juran with
          slots := s.juran.slots.set (1 - s.juran.active) (some img), update := true, power := .rom, fetched := none } }) ∨
       -- discarded and logged, whatever the record's kind and unit are
       (imageVerifies s.juran img = false ∧ ∃ kind u,
          t = report (addLog { s with freeN := s.freeN + 3 } 0 kind u 0 0) .imageDiscarded ∧
          kind = (Config.freeValue 8 s.freeN).toNat ∧
          u = { cls := (Config.freeValue 8 (s.freeN + 1)).toNat, num := (Config.freeValue 16 (s.freeN + 2)).toNat }))
  | .marginSample u margin hard =>
      -- a sample counts once in a period, where the monitors run
      let counts := s.juran.power ≠ .rom ∧ s.juran.power ≠ .recover ∧
        (assocGet s.juran.sampled u).getD 0 < s.cycle / 2 ^ 24
      let s1 := { s with juran := { s.juran with sampled := assocPut s.juran.sampled u (s.cycle / 2 ^ 24) } }
      let s2 := if counts then
        (if margin < (assocGet s.juran.margins u).getD 0 then addLog s1 0 4 u 0 (unitCount s1 u) else s1) else s
      -- beyond a hard limit issue stops everywhere and no context exists; memory and the clock stay
      let j := { s2.juran with power := .safe, stopped := true }
      t = if hard then
          let kept := { State.reset with
            juran := j, mem := s.mem, badWords := s.badWords, cycle := s.cycle, agenda := s.agenda, events := s.events
            freeN := s.freeN, fresh := s.fresh }
          -- a context that was being killed is gone with the others: the request is answered
          report (if killing s then complete kept "KILL_CONTEXT" else kept) .protectiveStop
        else s2
  | .onlineRepairSwitch n => ∃ r, tabGet s.juran.repairs n = some r ∧
      let j := { s.juran with repairs := tabDel s.juran.repairs n }
      t = match r with
        | .row _ _ _ => complete { s with juran := { j with rows := r :: j.rows } } "ROWMAP"
        | .chan c => complete { s with juran := { j with chans := c :: j.chans } } "CHANMAP"
  | .laneRetrainComplete port => ∃ l n, s.juran.retrain = [(l, n)] ∧ l.port = port ∧
      t = complete { s with juran := { s.juran with retrain := [], lanes := l :: s.juran.lanes } } "LANEMAP"
  | .deviceRegisterWrite reg v =>
      if reg < 1024 then
        let e := (tabGet s.tt (reg / 4)).elim emptyEntry fun k => k.cfg
        let e1 := match reg % 4 with
          | 0 => { e with period := v.toNat }
          | 1 => { e with phase := v.toNat }
          | 2 => { e with record := v }
          | _ => { e with ctx := v.toNat % 4096, policy := v.toNat / 2 ^ 16 % 4, enable := v.getLsbD 23, skipped := v.toNat / 2 ^ 32 }
        t = armEntry s (reg / 4) e1
      else t = { s with juran := { s.juran with regs := tabPut s.juran.regs reg v } }
  | _ => False

end Sys2Proof.Claims
end

