-- ==== Sys2Proof/Safety.lean ====
section
/-! DEFINITION. What claims are stated in: a register instruction with its checks and its writes, when it runs, the
state that it leaves, and the canonical form that a run keeps. -/

namespace Sys2Proof.Machine
open Sys2Proof

/-- A register instruction: its operands, its selector, where it may stand, the masks that it names, its uniform
operands, whether it acts with no lane active, and what it writes. -/
structure RegOp where
  is : Issue
  km : Nat
  place : Place := {}
  reads : List Ref := []
  uni : List Nat := []
  always : Bool := false
  writes : Ctxt → Mask → List (Nat → Nat) → Writes

/-- The instruction of the current agent runs: no check of spec/17_traps.md R322 stops it, a lane is active or it acts
without one (R15), and the granules of the names it writes are there (R19). `x0` is the agent with what it belongs to,
`x` the same behind the instruction's switch marker (R22), `vs` the values of its sources by lane, `s2` the state in
which it commits. -/
structure RegReady (s : State) (o : RegOp) (x0 x : Ctxt) (vs : List (Nat → Nat)) (s2 : State) : Prop where
  current : theCtxt s = some x0
  checks : ∃ s1, gather s x0 o.is o.km o.place o.reads o.uni o.always = .ok (s1, x, vs) ∧
    reserveFor s1 x (freedBy x.a o.is.srcs) ((o.writes x (activeMask x0.a o.km) vs).v.map (·.name)) = .ok s2
  active : activeMask x0.a o.km ≠ 0 ∨ o.always = true

/-- The state in which it leaves the machine. -/
def regDone (s2 : State) (o : RegOp) (x0 x : Ctxt) (vs : List (Nat → Nat)) : State :=
  clearWait (writeBack s2 x o.is (activeMask x0.a o.km) (o.writes x (activeMask x0.a o.km) vs)) x0.aid

/-- As `RegReady`, where no lane is active and the instruction acts only on active lanes. -/
structure RegIdle (s : State) (o : RegOp) (x0 x : Ctxt) (vs : List (Nat → Nat)) (s2 : State) : Prop where
  current : theCtxt s = some x0
  checks : ∃ s1, gather s x0 o.is o.km o.place o.reads o.uni o.always = .ok (s1, x, vs) ∧
    reserveFor s1 x (freedBy x.a o.is.srcs) [] = .ok s2
  idle : activeMask x0.a o.km = 0 ∧ o.always = false

/-- What it leaves then: pops, frees, the push that its destination names and the program counter, and no register or
flag written (R15). -/
def regIdle (s2 : State) (o : RegOp) (x0 x : Ctxt) (vs : List (Nat → Nat)) : State :=
  clearWait (writeBack s2 x o.is (activeMask x0.a o.km)
    { push := if o.is.push.isSome then (o.writes x (activeMask x0.a o.km) vs).push else none }) x0.aid

end Sys2Proof.Machine
end

