-- ==== Sys2Proof/WellFormed.lean ====
section
/-! DEFINITION. Which terms of `Instr` are instructions: every field in the range that its encoding gives it and every
RESFIELD and ILLOP rule of the encoding met (spec/02_encoding.md R28-R38, and each instruction's rule). A step without
an encoding is well-formed whatever it names: a step that nothing enables changes nothing. -/

namespace Sys2Proof

/-- A register or channel operand in the range of R34. -/
def opdWf : Opd → Bool
  | .v n => decide (n < 0xC0)
  | .s n => decide (n < 64)
  | .pop c => decide (c < 128)
  | .peek c => decide (c < 128)
  | .imm _ => false

/-- Source B: a register or channel operand, or an immediate of n bits that meets the extension rule (R35) and has no
last-read bit. -/
def srcWf (lb : Bool) (n : Nat) : Opd → Bool
  | .imm e => immOk n e.toNat && !lb
  | .v k => opdWf (.v k)
  | .s k => opdWf (.s k)
  | .pop k => opdWf (.pop k)
  | .peek k => opdWf (.peek k)

/-- As `srcWf`, a scalar register or an immediate only. -/
def sclWf (lb : Bool) (n : Nat) (b : Opd) : Bool := srcWf lb n b && isScalar b

/-- A scalar or vector register. -/
def plainWf : Opd → Bool
  | .v n => decide (n < 0xC0)
  | .s n => decide (n < 64)
  | _ => false

def dstWf : Dst → Bool
  | .v n => decide (n < 0xC0)
  | .s n => decide (n < 64)
  | .push c => decide (c < 128)

/-- A scalar or vector destination. -/
def plainDstWf : Dst → Bool
  | .v n => decide (n < 0xC0)
  | .s n => decide (n < 64)
  | .push _ => false

def kWf : KReg → Bool
  | .k n => decide (n < 16)
  | .em => true

def sregWf : SReg → Bool
  | .lvl n => decide (n < 5)
  | _ => true

def vWf (n : Nat) : Bool := decide (n < 0xC0)
def sWf (n : Nat) : Bool := decide (n < 64)

/-- A header of Format A with the last-read bits that the instruction has fields for. -/
def hdrWf (h : Hdr) (la lb lc : Bool) : Bool := decide (h.km < 16) && (la || !h.la) && (lb || !h.lb) && (lc || !h.lc)

/-- As `hdrWf` with KM = 0. -/
def hdr0 (h : Hdr) (la lb lc : Bool) : Bool := h.km == 0 && hdrWf h la lb lc

/-- Destination and one, two or three sources of one width (R67, R87). -/
def w1 (h : Hdr) (bits dbits : Nat) (d : Dst) (a : Opd) : Bool :=
  hdrWf h true false false && dstWf d && opdWf a && scalarRule d [a] && dstPairOk dbits d && pairOk bits a

def w2 (h : Hdr) (bits : Nat) (d : Dst) (a b : Opd) : Bool :=
  hdrWf h true true false && dstWf d && opdWf a && srcWf h.lb bits b && scalarRule d [a, b] && dstPairOk bits d &&
    pairOk bits a && pairOk bits b

/-- With b read at n bits whatever the type (R94, R95). -/
def w2At (h : Hdr) (n bits : Nat) (d : Dst) (a b : Opd) : Bool :=
  hdrWf h true true false && dstWf d && opdWf a && srcWf h.lb n b && scalarRule d [a, b] && dstPairOk bits d && pairOk bits a

def w3 (h : Hdr) (bits : Nat) (d : Dst) (a b c : Opd) : Bool :=
  hdrWf h true true true && dstWf d && opdWf a && srcWf h.lb bits b && opdWf c && scalarRule d [a, b, c] &&
    dstPairOk bits d && pairOk bits a && pairOk bits b && pairOk bits c

/-- Operands without a pair rule: floating point and conversions (R96). -/
def wf1 (h : Hdr) (d : Dst) (a : Opd) : Bool := hdrWf h true false false && dstWf d && opdWf a && scalarRule d [a]

def wf2 (h : Hdr) (n : Nat) (d : Dst) (a b : Opd) : Bool :=
  hdrWf h true true false && dstWf d && opdWf a && srcWf h.lb n b && scalarRule d [a, b]

def wf3 (h : Hdr) (n : Nat) (d : Dst) (a b c : Opd) : Bool :=
  hdrWf h true true true && dstWf d && opdWf a && srcWf h.lb n b && opdWf c && scalarRule d [a, b, c]

/-- PK is not used with `.f32` (R96). -/
def pkWf (t : Ty) (pk : Bool) : Bool := floatTys.contains t && !(pk && t == .f32)

/-- The address part of Format M (R32). -/
def addrWf (lb : Bool) (m : MAddr) (ords : List MOrd) : Bool :=
  opdWf m.base && pairOk 64 m.base && ords.contains m.ord && decide (m.str < 16) && (match m.idx with
    | none => !lb
    | some i => opdWf i && i != .pop 127)

/-- KM = 0 and a scalar data register form no pair: a memory header. -/
def memHdr (h : Hdr) (lc : Bool) : Bool := hdrWf h true true lc

def mxWf (h : Hdr) (lc : Bool) (f : MxFmt) (split : Bool) (d : Nat) (m : MAddr) (ords : List MOrd) : Bool :=
  memHdr h lc && addrWf h.lb m ords && scalarAddr m && m.idx.isSome == split && !(split && f == .mxt) && decide (d < 0xBF)

def atomWf (h : Hdr) (wid : Nat) (op : AtomOp) (sgn : Bool) (d : Dst) (m : MAddr) : Bool :=
  memHdr h true && addrWf h.lb m anyOrd && plainDstWf d && (wid == 2 || (wid == 3 && op != .addF32)) &&
    (!sgn || op == .min || op == .max) && widDstOk wid d && (!dstScalar d || scalarAddr m)

def descWf (m : MDesc) : Bool :=
  decide (m.str < 16) && (m.split || m.sofs == 0) && (!m.split || m.stride.toNat % 32 == 0)

def wideWf (o : Opd) : Bool := plainWf o && pairOk 64 o

def optVWf : Option Nat → Bool
  | none => true
  | some n => vWf n

def optSWf : Option Nat → Bool
  | none => true
  | some n => sWf n

def binSetWf (h : Hdr) (card : Option Nat) (d a b : Opd) : Bool :=
  hdrWf h true true card.isSome && optSWf card && plainWf d && plainWf a && plainWf b

def groupWf (n m top : Nat) : Bool := n % m == 0 && decide (n ≤ top)

/-- An instruction's fields meet the rules of its encoding. -/
def wfInstr : Instr → Bool
  | .nop _ => true
  | .land _ => true
  | .exit _ => true
  | .mend _ => true
  | .rtt _ => true
  | .bra _ _ => true
  | .brzMask _ km _ => decide (km < 16)
  | .brzScalar _ n _ => sWf n
  | .brnzMask _ km _ => decide (km < 16)
  | .brnzScalar _ n _ => sWf n
  | .call _ l _ => sWf l
  | .ret _ _ t => sWf t
  | .loop _ n _ => sWf n
  | .rgn _ win _ _ => decide (win < 3)
  | .brx _ _ tok a => decide (tok < 8) && wideWf a
  | .split _ kc tok _ => decide (kc < 16) && decide (tok < 8)
  | .join _ tok => decide (tok < 8)
  | .meld _ two ka kb => kWf ka && kWf kb && (!two || kb == .k 0)
  | .path _ j p0 p1 p2 p3 => decide (j < 16) && vWf p0 && vWf p1 && vWf p2 && vWf p3
  | .iadd h t d a b => intTys.contains t && w2 h (tyBits t) d a b
  | .isub h t d a b => intTys.contains t && w2 h (tyBits t) d a b
  | .imul h t d a b => intTys.contains t && w2 h (tyBits t) d a b
  | .imulh h t d a b => intTys.contains t && w2 h (tyBits t) d a b
  | .idiv h t d a b => intTys.contains t && w2 h (tyBits t) d a b
  | .irem h t d a b => intTys.contains t && w2 h (tyBits t) d a b
  | .imin h t d a b => intTys.contains t && w2 h (tyBits t) d a b
  | .imax h t d a b => intTys.contains t && w2 h (tyBits t) d a b
  | .iaddc h t _ kc d a b => (t == .n32 || t == .n64) && decide (kc < 16) && w2 h (tyBits t) d a b
  | .iadds h t _ d a b => intTys.contains t && w2 h (tyBits t) d a b
  | .imad h t d a b c => intTys.contains t && w3 h (tyBits t) d a b c
  | .iabs h t _ d a => [Ty.i8, .i16, .i32, .i64].contains t && w1 h (tyBits t) (tyBits t) d a
  | .lea h t sh d a b =>
    [Ty.i32, .n32, .i64, .n64].contains t && decide (sh < 8) && hdrWf h true true false && dstWf d && opdWf a &&
      srcWf h.lb (tyBits t) b && scalarRule d [a, b] && dstPairOk 64 d && pairOk 64 a && pairOk (tyBits t) b
  | .icmp h t cc kd a b =>
    intTys.contains t && cc != .un && cc != .or && hdrWf h true true false && kWf kd && opdWf a && srcWf h.lb (tyBits t) b &&
      pairOk (tyBits t) a && pairOk (tyBits t) b
  | .sel h t ks d a b => (t == .b32 || t == .b64) && decide (ks < 16) && !dstScalar d && w2 h (tyBits t) d a b
  | .mov h t d a => bitTys.contains t && w1 h (tyBits t) (tyBits t) d a
  | .and h t d a b => bitTys.contains t && w2 h (tyBits t) d a b
  | .or h t d a b => bitTys.contains t && w2 h (tyBits t) d a b
  | .xor h t d a b => bitTys.contains t && w2 h (tyBits t) d a b
  | .andn h t d a b => bitTys.contains t && w2 h (tyBits t) d a b
  | .shl h t d a b => bitTys.contains t && w2At h 32 (tyBits t) d a b
  | .shr h t d a b => bitTys.contains t && w2At h 32 (tyBits t) d a b
  | .sar h t d a b => bitTys.contains t && w2At h 32 (tyBits t) d a b
  | .rot h t _ d a b => bitTys.contains t && w2At h 32 (tyBits t) d a b
  | .popc h t d a => bitTys.contains t && w1 h (tyBits t) 32 d a
  | .clz h t d a => bitTys.contains t && w1 h (tyBits t) 32 d a
  | .brev h t d a => bitTys.contains t && w1 h (tyBits t) (tyBits t) d a
  | .bfe h t _ d a b => bitTys.contains t && w2At h 16 (tyBits t) d a b
  | .bfi h t d a b c =>
    bitTys.contains t && hdrWf h true true true && dstWf d && opdWf a && srcWf h.lb 16 b && opdWf c && scalarRule d [a, b, c] &&
      dstPairOk (tyBits t) d && pairOk (tyBits t) a && pairOk (tyBits t) c
  | .prmt h d a b c => w3 h 32 d a b c
  | .movi h t d x =>
    (bitTys.contains t || floatTys.contains t) && hdrWf h false false false && dstWf d && dstPairOk (tyBits t) d &&
      immOk (tyBits t) x.toNat
  | .fadd h t m d a b => pkWf t m.pk && wf2 h (fImm t m.pk) d a b
  | .fsub h t m d a b => pkWf t m.pk && wf2 h (fImm t m.pk) d a b
  | .fmul h t m d a b => pkWf t m.pk && wf2 h (fImm t m.pk) d a b
  | .fdiv h t m d a b => pkWf t m.pk && wf2 h (fImm t m.pk) d a b
  | .ffma h t m d a b c => pkWf t m.pk && wf3 h (fImm t m.pk) d a b c
  | .fmin h t pk d a b => pkWf t pk && wf2 h (fImm t pk) d a b
  | .fmax h t pk d a b => pkWf t pk && wf2 h (fImm t pk) d a b
  | .fcmp h t _ kd a b =>
    floatTys.contains t && hdrWf h true true false && kWf kd && opdWf a && srcWf h.lb (tyBits t) b
  | .fsqrt h t m d a => pkWf t m.pk && wf1 h d a
  | .frcp h t m d a => pkWf t m.pk && wf1 h d a
  | .frsq h t m d a => pkWf t m.pk && wf1 h d a
  | .fex2 h t m d a => pkWf t m.pk && wf1 h d a
  | .flg2 h t m d a => pkWf t m.pk && wf1 h d a
  | .ftanh h t m d a => pkWf t m.pk && wf1 h d a
  | .frnd h t pk _ d a => pkWf t pk && wf1 h d a
  | .fclass h t pk d a => pkWf t pk && wf1 h d a
  | .fdot2 h t _ _ d a b c => (t == .f16 || t == .bf16) && wf3 h 32 d a b c
  | .fscale h t m d a b => pkWf t m.pk && wf2 h 32 d a b
  | .cvt h td ts _ d a => cvtTys.contains td && cvtTys.contains ts && w1 h (tyBits ts) (tyBits td) d a
  | .qnt h _ _ d a b => wf2 h 32 d a b
  | .dqnt h _ _ d a b => wf2 h 32 d a b
  | .tpack h d a b => wf2 h 32 d a b
  | .tunpk h d a b => wf2 h 32 d a b
  | .pack h t nib rnd d a b c =>
    [Ty.i8, .n8, .i16, .n16, .f16, .bf16].contains t && (floatTys.contains t || rnd == .rne) && (!nib || t == .i8 || t == .n8) &&
      (match c with
        | some o => (t == .i8 || t == .n8) && wf3 h 32 d a b o
        | none => !(t == .i8 || t == .n8) && wf2 h 32 d a b)
  | .unpk h t nib rnd d a b =>
    [Ty.i8, .n8, .i16, .n16, .f16, .bf16].contains t && (floatTys.contains t || rnd == .rne) && (!nib || t == .i8 || t == .n8) &&
      wf2 h 32 d a b
  | .shfl h t _ g d a b => (t == .b32 || t == .b64) && decide (g < 8) && w2At h 32 (tyBits t) d a b
  | .vote h k d a =>
    hdrWf h true false false && opdWf a && (match d with
      | .mask kd => k == .ballot && kWf kd
      | .reg r => k != .ballot && dstWf r && !dstPush r)
  | .lred h t op rnd d a =>
    redTyOk op t && (rnd == .rne || (op == .add && t == .f32)) && hdrWf h true false false && dstWf d && !dstPush d &&
      opdWf a && dstPairOk (tyBits t) d && pairOk (tyBits t) a
  | .lscan h t op rnd _ d a =>
    redTyOk op t && (rnd == .rne || (op == .add && t == .f32)) && hdrWf h true false false && dstWf d && !dstPush d &&
      !dstScalar d && opdWf a && dstPairOk (tyBits t) d && pairOk (tyBits t) a
  | .bcast h t d a b =>
    (t == .b32 || t == .b64) && dstWf d && !dstPush d && opdWf a && dstPairOk (tyBits t) d && pairOk (tyBits t) a && (match b with
      | none => hdrWf h true false false
      | some o => hdrWf h true true false && srcWf h.lb 32 o && !isChanOpd o)
  | .matchLanes h t _ d a => (t == .b32 || t == .b64) && hdrWf h true false false && vWf d && opdWf a && pairOk (tyBits t) a
  | .topk h t sc d a b =>
    (t == .i32 || t == .n32 || t == .f32) && decide (sc < 64) && decide (d ≤ 0xBE) && hdrWf h true true false && opdWf a &&
      srcWf h.lb 32 b && !isChanOpd b
  | .kop h op kd ka kb => hdr0 h true (op != .not) false && kWf kd && kWf ka && kWf kb && (op != .not || kb == .k 0)
  | .kmov h f =>
    match f with
    | .kk d a => hdr0 h true false false && kWf d && kWf a
    | .loIn d a => hdr0 h true false false && kWf d && sWf a
    | .hiIn d a => hdr0 h true false false && kWf d && sWf a
    | .loOut d a => hdr0 h true false false && sWf d && kWf a
    | .hiOut d a => hdr0 h true false false && sWf d && kWf a
    | .toV d a => hdr0 h true false false && vWf d && kWf a
  | .kpop h d ka => hdr0 h true false false && sWf d && kWf ka
  | .kfnd h _ d ka b => hdr0 h true true false && sWf d && kWf ka && sclWf h.lb 64 b
  | .srd h d r => hdrWf h false false false && dstWf d && sregWf r && !(dstScalar d && r == .laneid)
  | .swr h r a => hdrWf h true false false && sregWf r && plainWf a
  | .clk h d => hdr0 h false false false && sWf d
  | .clkPtp h d => hdr0 h false false false && sWf d
  | .ld h wid sx d m =>
    memHdr h false && addrWf h.lb m loads && decide (wid ≤ 4) && (!sx || decide (wid ≤ 1)) && dstWf d && widDstOk wid d &&
      (!dstScalar d || scalarAddr m)
  | .st h wid d m =>
    memHdr h true && addrWf h.lb m stores && decide (wid ≤ 4) && opdWf d && widSrcOk wid d && (!isSreg d || scalarAddr m)
  | .ldg h w d m =>
    memHdr h false && addrWf h.lb m loads && decide (w < 7) && d % 2 ^ w == 0 && decide (d + 2 ^ w ≤ 0xC0)
  | .sct h wid op d m =>
    memHdr h true && addrWf h.lb m stores && (wid == 2 || (wid == 3 && op != .addF32)) && opdWf d &&
      widSrcOk (if isVec d then wid else 2) d
  | .ldmx h fmt split d m => mxWf h false fmt split d m loads
  | .stmx h fmt split d m => mxWf h true fmt split d m stores
  | .prf h m => memHdr h false && addrWf h.lb m [.rlx]
  | .atom h wid op sgn d m => atomWf h wid op sgn d m
  | .acas h wid d m =>
    memHdr h true && addrWf h.lb m anyOrd && (wid == 2 || wid == 3) && plainDstWf d && (match d with
      | .v n => n % (if wid = 2 then 2 else 4) == 0
      | .s n => decide (n ≤ 61) && scalarAddr m
      | .push _ => false)
  | .red h wid op sgn _ d m => op != .exch && atomWf h wid op sgn d m
  | .fence h ord _ b => hdr0 h false true false && ord != .rlx && sclWf h.lb 64 b
  | .bar h a => hdr0 h true false false && wideWf a
  | .barx h _ _ d a b c => hdr0 h true true true && wideWf d && wideWf a && opdWf b && packedOk b && wideWf c
  | .binit h a b => hdr0 h true true false && wideWf a && sclWf h.lb 64 b
  | .waitf h t lvl _ _ d a b =>
    (t == .n32 || t == .n64) && hdr0 h true true false && decide (lvl < 8) && lvl != 0 && sWf d && wideWf a && sclWf h.lb (tyBits t) b
  | .cpy h _ _ a b c => hdr0 h true true true && wideWf a && opdWf b && packedOk b && wideWf c
  | .waitc h _ d a b c => hdr0 h true true true && sWf d && wideWf a && sclWf h.lb 64 b && opdWf c && isSreg c
  | .testc h d a b c => hdr0 h true true true && sWf d && wideWf a && sclWf h.lb 64 b && opdWf c && isSreg c
  | .srel h c => hdr0 h false false false && decide (c < 128)
  | .sbindUnbind h c => hdr0 h false false false && decide (c < 128)
  | .sbindPrimer h c => hdr0 h false false false && decide (c < 128)
  | .sbindRing h c p1 p2 p3 =>
    hdr0 h true true true && decide (c < 128) && wideWf p1 && srcWf h.lb 64 p2 && !isChanOpd p2 && plainWf p3
  | .sbindPort h c p1 => hdr0 h true false false && decide (c < 128) && plainWf p1
  | .sbindIter h c p1 p2 => hdr0 h true true false && decide (c < 128) && plainWf p1 && srcWf h.lb 32 p2 && !isChanOpd p2
  | .sbindQuery h c d => hdr0 h false false false && decide (c < 128) && sWf d
  | .pub h _ a => hdr0 h true false false && plainWf a
  | .preg h d a b => hdr0 h true true false && sWf d && wideWf a && sclWf h.lb 64 b
  | .pregDrop h a => hdr0 h true false false && plainWf a
  | .mcast h n a b c => hdr0 h true true true && decide (1 ≤ n) && decide (n ≤ 64) && wideWf a && wideWf b && wideWf c
  | .coll h a c => hdr0 h true false true && wideWf a && wideWf c
  | .gang h a =>
    match a with
    | .imm _ => hdrWf h false false false
    | o => hdrWf h true false false && plainWf o
  | .mxld h half n base idx fw ds =>
    hdrWf h true true true && decide (half < 2) && decide (1 ≤ n) && decide (n ≤ 8) && sWf base && opdWf idx && !isSreg idx && vWf fw &&
      descWf ds
  | .mxlb h slot n base fw ds =>
    hdrWf h true false true && decide (slot < 6) && decide (1 ≤ n) && decide (n ≤ 8) && sWf base && vWf fw && descWf ds
  | .mma h half tile fw skip kbase => hdrWf h true true true && decide (half < 2) && decide (tile < 8) && vWf fw && sWf skip && sWf kbase
  | .mxz h tile => hdrWf h false false false && decide (tile < 8)
  | .mxdr h tile d fw scales pos =>
    decide (tile < 8) && vWf d && vWf fw && sWf scales && (match pos with
      | .imm _ => hdrWf h true true false
      | o => hdrWf h true true true && opdWf o && isSreg o)
  | .mxdrStat h tile d => hdrWf h false false false && decide (tile < 8) && sWf d
  | .mxadd h tile base str => hdrWf h true false false && decide (tile < 8) && sWf base && decide (str < 16)
  | .mxsave h tile base str => hdrWf h true false false && decide (tile < 8) && sWf base && decide (str < 16)
  | .mxrest h tile base str => hdrWf h true false false && decide (tile < 8) && sWf base && decide (str < 16)
  | .snew h d u opt => hdrWf h true true false && plainDstWf d && plainWf u && sclWf h.lb 64 opt
  | .sdel h a => hdrWf h true false false && plainWf a
  | .sins h d a b => hdrWf h true true false && optVWf d && plainWf a && srcWf h.lb 32 b
  | .srem h d a b => hdrWf h true true false && optVWf d && plainWf a && srcWf h.lb 32 b
  | .shas h d a b =>
    hdrWf h true true false && plainWf a && srcWf h.lb 32 b && (match d with
      | .mask kd => kWf kd
      | .reg (.v n) => vWf n
      | .reg _ => false)
  | .scard h d a => hdrWf h true false false && sWf d && plainWf a
  | .sand h card d a b => binSetWf h card d a b
  | .sor h card d a b => binSetWf h card d a b
  | .ssub h card d a b => binSetWf h card d a b
  | .sxor h card d a b => binSetWf h card d a b
  | .sitr h sc d a b => hdrWf h true true false && decide (sc < 64) && vWf d && plainWf a && srcWf h.lb 32 b
  | .scost h op d a b c =>
    hdrWf h true true true && sWf d && plainWf a && plainWf b && plainWf c && (op == 5 || op == 15 || (decide (6 ≤ op) && decide (op ≤ 9))) &&
      ((decide (6 ≤ op) && decide (op ≤ 9)) || (b == .s 63 && c == .s 63))
  | .sinfo h d a b key => hdrWf h true true true && sWf d && plainWf a && sclWf h.lb 64 b && sWf key
  | .sinfoPin h a b => hdrWf h true true false && plainWf a && sclWf h.lb 64 b
  | .srank h _ d a b => hdrWf h true true false && vWf d && plainWf a && srcWf h.lb 32 b
  | .sload h str d base => hdrWf h true false false && decide (str < 16) && plainDstWf d && sWf base
  | .sstore h str d a base lim _ => hdrWf h true true true && decide (str < 16) && sWf d && plainWf a && sWf base && sWf lim
  | .tspawn h d a b =>
    hdrWf h true true false && vWf d && wideWf a && plainWf b && (match b with
      | .v n => n % 4 == 0
      | o => o == .s 63)
  | .tyld h d a b =>
    hdrWf h true true false && vWf d && wideWf a && plainWf b && (match b with
      | .v n => n % 4 == 0
      | o => o == .s 63)
  | .alloc h sc d => hdrWf h false false false && decide (sc < 64) && plainDstWf d && dstPairOk 64 d
  | .eqpush h d e q => hdrWf h true true false && optVWf d && groupWf e 8 0xB8 && srcWf h.lb 64 q && !isChanOpd q
  | .eqcomb h str a grp gate => hdrWf h true true true && decide (str < 16) && wideWf a && groupWf grp 4 0xBC && vWf gate
  | .eqcfg h n d r q => hdr0 h true true false && decide (1 ≤ n) && decide (n ≤ 8) && sWf d && sWf r && sclWf h.lb 64 q
  | .eqstat h d q sel => hdrWf h true true false && sWf d && plainWf q && sclWf h.lb 64 sel
  | .trap h b =>
    hdrWf h false true false && sclWf h.lb 64 b && (match b with
      | .imm e => decide (e.toNat < 2 ^ 16)
      | _ => true)
  | .pdone h a => hdr0 h true false false && sWf a
  | .ckpt h d b =>
    hdr0 h false true false && sWf d && sclWf h.lb 64 b && (match b with
      | .imm e => decide (e.toNat < 2 ^ 11)
      | _ => true)
  | .ckptHint h b => hdr0 h false true false && sclWf h.lb 32 b
  | .tlbiRng h a b => hdr0 h true true false && sWf a && sclWf h.lb 64 b
  | .tlbiAll h => hdr0 h false false false
  | .tlbiNg h => hdr0 h false false false
  | .errd h _ d b =>
    hdrWf h false true false && sWf d && sclWf h.lb 64 b && (match b with
      | .imm e => decide (e.toNat < 3)
      | _ => true)
  | .halt h b =>
    hdr0 h false true false && sclWf h.lb 64 b && (match b with
      | .imm e => decide (e.toNat < 2 ^ 16)
      | _ => true)
  | .waitfConditionMet _ => true
  | .setAcceptance _ => true
  | .setCompletion _ => true
  | .iteratorEntry _ _ => true
  | .resultReturn _ _ => true
  | .writePacketAtHome _ _ => true
  | .ackReceived _ => true
  | .acktimeout _ => true
  | .remoteReadTimeout _ => true
  | .packetAgeDiscard _ => true
  | .uncorrectableHeaderDrop _ _ _ _ _ => true
  | .flitCrcRetransmit _ => true
  | .chunkLanded _ _ => true
  | .mcastDelivery _ _ _ _ => true
  | .collHop _ _ => true
  | .combineDeposit _ => true
  | .easelAgeExpiry _ => true
  | .easelFiring _ => true
  | .taskFormingTimer _ => true
  | .taskStrokeStart _ => true
  | .stealRequest _ => true
  | .commissionLaunch _ => true
  | .ttInstanceDue _ => true
  | .ptpMessage _ => true
  | .panelPlacement _ => true
  | .panelRetire _ => true
  | .commissionRetire _ => true
  | .starvationExpiry _ => true
  | .preemptRequest _ _ _ => true
  | .panelSave _ => true
  | .preemptBoundExpiry _ => true
  | .panelRestore _ => true
  | .egressDescriptor _ _ => true
  | .rdmaWrite _ _ _ _ => true
  | .rdmaRead _ _ _ _ => true
  | .rdmaRefused _ => true
  | .powerOn => true
  | .bistComplete _ => true
  | .recoverFetch => true
  | .recoverImageReceived _ => true
  | .marginSample _ _ _ => true
  | .onlineRepairSwitch _ => true
  | .laneRetrainComplete _ => true
  | .identity => true
  | .status => true
  | .logread _ _ => true
  | .logclear _ => true
  | .counters _ => true
  | .thresh _ _ _ => true
  | .margin _ _ _ => true
  | .mgmtFence _ _ => true
  | .unfence _ _ => true
  | .tilemap _ _ => true
  | .rowmap _ _ _ _ _ => true
  | .bankmap _ _ _ => true
  | .lanemap _ _ => true
  | .chanmap _ _ => true
  | .image _ _ => true
  | .reset _ => true
  | .createContext _ _ => true
  | .killContext _ _ => true
  | .killDrainComplete _ => true
  | .registerCommissionQueue _ _ _ => true
  | .writeTtEntry _ _ _ => true
  | .setExportWindow _ _ _ => true
  | .assignEaselQueues _ _ _ => true
  | .configureEgressChannel _ _ _ _ => true
  | .measureIntoContext _ _ _ => true
  | .attestationReport _ _ _ => true
  | .resetChunkPool _ _ => true
  | .endCommission _ _ => true
  | .deviceRegisterWrite _ _ => true
  | .ptpSourceUnlocked => true
  | .operandFillComplete _ => true
  | .imageReadComplete _ => true
  | .unregisterCommissionQueue _ _ => true
  | .extendGrants _ _ _ => true
  | .enlargeSaveRegion _ _ _ => true

abbrev Instr.WellFormed (i : Instr) : Prop := wfInstr i = true

end Sys2Proof
end

