-- ==== Sys2Proof/Claims/Register.lean ====
section
/-! DEFINITION. What the rules of spec/05_alu_instructions.md and spec/02_encoding.md R46-R48 say that each register
instruction computes and writes: one table for each family. -/

namespace Sys2Proof.Claims
open Sys2Proof Sys2Proof.Machine

/-! ## Element-wise integer and bit instructions (R87, R90-R95) -/

/-- An element-wise instruction: its header, whether its result is variable-latency, where it may stand, its
destination with the result's type, its sources with the bits that are read of each, its bytes, and the result's bits
from the bits of its sources. -/
structure LaneOp where
  h : Hdr
  late : Bool := false
  d : Dst
  td : Ty
  srcs : List (Src × Nat)
  place : Place
  size : Nat
  f : List Nat → Nat

/-- Operand i of a list. -/
def arg (v : List Nat) (i : Nat) : Nat := (v[i]?).getD 0

/-- The bits that a lane gives to each source. -/
def LaneOp.args (o : LaneOp) (vs : List (Nat → Nat)) (l : Nat) : List Nat :=
  (List.range o.srcs.length).map fun i => val vs i l % 2 ^ (((o.srcs[i]?).map (·.2)).getD 32)

/-- The instruction: every active lane's result, extended to its register as R67 says. -/
def LaneOp.reg (o : LaneOp) : RegOp where
  is := { sw := o.h.sw, size := o.size, srcs := o.srcs.map (·.1), late := o.late, dsts := dstRef o.d (Ty.regs o.td) 0
          push := pushOf o.d }
  km := o.h.km
  place := o.place
  writes := fun x lanes vs => putDst x lanes o.d (Ty.regs o.td) fun l => fillDst o.d o.td (o.f (o.args vs l))

def one (h : Hdr) (t td : Ty) (d : Dst) (a : Opd) (f : Nat → Nat) : LaneOp :=
  { h := h, d := d, td := td, place := scalarPlace d [a], size := 8
    srcs := [(srcOf a (Ty.regs t) 1 h.la, Ty.bits t)], f := fun v => f (arg v 0) }

def two (h : Hdr) (t : Ty) (d : Dst) (a b : Opd) (f : Nat → Nat → Nat) (late : Bool := false) : LaneOp :=
  { h := h, d := d, td := t, place := scalarPlace d [a, b], size := Machine.sizeOf b, late := late
    srcs := [(srcOf a (Ty.regs t) 1 h.la, Ty.bits t), (srcOf b (Ty.regs t) 2 h.lb, Ty.bits t)]
    f := fun v => f (arg v 0) (arg v 1) }

/-- With a second operand that is read as `bits` bits whatever the type. -/
def counted (h : Hdr) (t : Ty) (bits : Nat) (d : Dst) (a b : Opd) (f : Nat → Nat → Nat) : LaneOp :=
  { h := h, d := d, td := t, place := scalarPlace d [a, b], size := Machine.sizeOf b
    srcs := [(srcOf a (Ty.regs t) 1 h.la, Ty.bits t), (srcOf b 1 2 h.lb, bits)]
    f := fun v => f (arg v 0) (arg v 1) }

def three (h : Hdr) (t : Ty) (bbits : Nat) (bregs : Nat) (d : Dst) (a b c : Opd) (f : Nat → Nat → Nat → Nat) : LaneOp :=
  { h := h, d := d, td := t, place := scalarPlace d [a, b, c], size := Machine.sizeOf b
    srcs := [(srcOf a (Ty.regs t) 1 h.la, Ty.bits t), (srcOf b bregs 2 h.lb, bbits),
             (srcOf c (Ty.regs t) 3 h.lc, Ty.bits t)]
    f := fun v => f (arg v 0) (arg v 1) (arg v 2) }

/-- The sums, products and choices of R90 on n bits. -/
def arithOp : Instr → Option LaneOp
  | .iadd h t d a b => some (two h t d a b fun x y => (x + y) % 2 ^ Ty.bits t)
  | .isub h t d a b => some (two h t d a b fun x y => (BitVec.ofNat (Ty.bits t) x - BitVec.ofNat (Ty.bits t) y).toNat)
  | .iadds h t sub d a b => some (two h t d a b fun x y =>
      let r := if sub then intVal t x - intVal t y else intVal t x + intVal t y
      wrapInt (Ty.bits t) (max (intMin t) (min r (intMax t))))
  | .imul h t d a b => some (two h t d a b fun x y => x * y % 2 ^ Ty.bits t)
  | .imulh h t d a b => some (two h t d a b fun x y =>
      wrapInt (Ty.bits t) (intVal t x * intVal t y / 2 ^ Ty.bits t))
  | .imad h t d a b c => some (three h t (Ty.bits t) (Ty.regs t) d a b c fun x y z => (x * y + z) % 2 ^ Ty.bits t)
  | .imin h t d a b => some (two h t d a b fun x y => if intVal t x ≤ intVal t y then x else y)
  | .imax h t d a b => some (two h t d a b fun x y => if intVal t x ≤ intVal t y then y else x)
  | .iabs h t sat d a => some (one h t t d a fun x =>
      if intVal t x = intMin t then (if sat then wrapInt (Ty.bits t) (intMax t) else x)
      else wrapInt (Ty.bits t) (intVal t x).natAbs)
  | .lea h t sh d a b => some
      { h := h, d := d, td := .n64, place := scalarPlace d [a, b], size := Machine.sizeOf b
        srcs := [(srcOf a 2 1 h.la, 64), (srcOf b (Ty.regs t) 2 h.lb, Ty.bits t)]
        f := fun v => wrapInt 64 ((arg v 0 : Int) + intVal t (arg v 1) * 2 ^ sh) }
  | .mov h t d a => some (one h t t d a fun x => x)
  | .movi h t d x => some
      { h := h, d := d, td := t, place := scalarPlace d [], size := 16
        srcs := [(srcOf (.imm x) 1 2 false, Ty.bits t)], f := fun v => arg v 0 }
  | _ => none

/-- Quotients and remainders towards zero (R91), which return later. -/
def divideOp : Instr → Option LaneOp
  | .idiv h t d a b => some (two h t d a b (late := true) fun x y =>
      if intVal t y = 0 then
        (if Ty.signed t then (if 0 ≤ intVal t x then wrapInt (Ty.bits t) (intMax t) else wrapInt (Ty.bits t) (intMin t))
         else 2 ^ Ty.bits t - 1)
      else wrapInt (Ty.bits t) ((intVal t x).tdiv (intVal t y)))
  | .irem h t d a b => some (two h t d a b (late := true) fun x y =>
      if intVal t y = 0 then x else wrapInt (Ty.bits t) (intVal t x - (intVal t x).tdiv (intVal t y) * intVal t y))
  | _ => none

/-- The bit operations of R93 to R95 on n bits. -/
def bitsOp : Instr → Option LaneOp
  | .and h t d a b => some (two h t d a b fun x y => (BitVec.ofNat (Ty.bits t) x &&& BitVec.ofNat (Ty.bits t) y).toNat)
  | .or h t d a b => some (two h t d a b fun x y => (BitVec.ofNat (Ty.bits t) x ||| BitVec.ofNat (Ty.bits t) y).toNat)
  | .xor h t d a b => some (two h t d a b fun x y => (BitVec.ofNat (Ty.bits t) x ^^^ BitVec.ofNat (Ty.bits t) y).toNat)
  | .andn h t d a b => some (two h t d a b fun x y =>
      (BitVec.ofNat (Ty.bits t) x &&& ~~~BitVec.ofNat (Ty.bits t) y).toNat)
  | .shl h t d a b => some (counted h t 32 d a b fun x y => (BitVec.ofNat (Ty.bits t) x <<< y).toNat)
  | .shr h t d a b => some (counted h t 32 d a b fun x y => (BitVec.ofNat (Ty.bits t) x >>> y).toNat)
  | .sar h t d a b => some (counted h t 32 d a b fun x y => ((BitVec.ofNat (Ty.bits t) x).sshiftRight y).toNat)
  | .rot h t right d a b => some (counted h t 32 d a b fun x y =>
      if right then ((BitVec.ofNat (Ty.bits t) x).rotateRight y).toNat
      else ((BitVec.ofNat (Ty.bits t) x).rotateLeft y).toNat)
  | .popc h t d a => some (one h t .n32 d a fun x => ((List.range (Ty.bits t)).countP fun i => x.testBit i))
  | .clz h t d a => some (one h t .n32 d a fun x =>
      ((List.range (Ty.bits t)).takeWhile fun i => !x.testBit (Ty.bits t - 1 - i)).length)
  | .brev h t d a => some (one h t t d a fun x => (BitVec.ofNat (Ty.bits t) x).reverse.toNat)
  | .bfe h t sgn d a b => some (counted h t 16 d a b fun x ctl =>
      let n := Ty.bits t
      let pos := ctl % 256
      let m := min (ctl / 256) (n - pos)
      let f := x / 2 ^ pos % 2 ^ m
      if m = 0 then 0 else if sgn && f.testBit (m - 1) then f + (2 ^ n - 2 ^ m) else f)
  | .bfi h t d a b c => some (three h t 16 1 d a b c fun x ctl z =>
      let pos := ctl % 256
      let m := min (ctl / 256) (Ty.bits t - pos)
      if m = 0 then z else z / 2 ^ (pos + m) * 2 ^ (pos + m) + x % 2 ^ m * 2 ^ pos + z % 2 ^ pos)
  | .prmt h d a b c => some (three h .b32 32 1 d a b c fun x y z =>
      let byte := fun (k : Nat) => if k < 4 then x / 256 ^ k % 256 else y / 256 ^ (k - 4) % 256
      let pick := fun (j : Nat) =>
        let sel := z / 16 ^ j % 16
        if sel < 8 then byte sel else if 128 ≤ byte (sel - 8) then 255 else 0
      pick 0 + pick 1 * 256 + pick 2 * 256 ^ 2 + pick 3 * 256 ^ 3)
  | _ => none

/-! ## Comparisons, carries and choices (R90, R92, R98) -/

/-- Comparisons write one bit per active lane of kd; IADDC adds with its mask's bits in and out; SEL chooses by a mask. -/
def compareOp : Instr → Option RegOp
  | .icmp h t cc kd a b => some
      { is := { sw := h.sw, size := Machine.sizeOf b, dsts := [kRef kd 0]
                srcs := [srcOf a (Ty.regs t) 1 h.la, srcOf b (Ty.regs t) 2 h.lb] }
        km := h.km, place := { meld := kd != .em }
        writes := fun x lanes vs => { k := [(kIndex kd, lanes, maskOf x.w fun l =>
          match cc with
          | .eq => intVal t (val vs 0 l) == intVal t (val vs 1 l)
          | .ne => intVal t (val vs 0 l) != intVal t (val vs 1 l)
          | .lt => decide (intVal t (val vs 0 l) < intVal t (val vs 1 l))
          | .le => decide (intVal t (val vs 0 l) ≤ intVal t (val vs 1 l))
          | .gt => decide (intVal t (val vs 1 l) < intVal t (val vs 0 l))
          | .ge => decide (intVal t (val vs 1 l) ≤ intVal t (val vs 0 l))
          | .un => false
          | .or => true)] } }
  | .fcmp h t cc kd a b =>
      let f := fun (vs : List (Nat → Nat)) (i l : Nat) => decodeFl (fmtOfTy t) (val vs i l % 2 ^ Ty.bits t)
      some
      { is := { sw := h.sw, size := Machine.sizeOf b, dsts := [kRef kd 0], srcs := [srcOf a 1 1 h.la, srcOf b 1 2 h.lb] }
        km := h.km, place := { meld := kd != .em }
        writes := fun x lanes vs =>
          { k := [(kIndex kd, lanes, maskOf x.w fun l => (flCmp cc (f vs 0 l) (f vs 1 l)).1)]
            fl := orFlags (laneList lanes x.w) fun l => (flCmp cc (f vs 0 l) (f vs 1 l)).2 } }
  | .iaddc h t z kc d a b =>
      let n := Ty.bits t
      -- the carry that a lane takes in: its own bit, or that of the lowest active lane with a scalar destination
      let cin := fun (x : Ctxt) (lanes : Mask) (l : Nat) =>
        if !z && (kReg x.a kc).getLsbD (if isVecDst d then l else (lowestLane lanes x.w).getD 0) then 1 else 0
      let sum := fun x lanes vs l => val vs 0 l % 2 ^ n + val vs 1 l % 2 ^ n + cin x lanes l
      some
      { is := { sw := h.sw, size := Machine.sizeOf b, dsts := dstRef d (Ty.regs t) 0 ++ [.k kc 0], push := pushOf d
                srcs := [srcOf a (Ty.regs t) 1 h.la, srcOf b (Ty.regs t) 2 h.lb] }
        km := h.km, reads := if z then [] else [.k kc 1]
        writes := fun x lanes vs =>
          { putDst x lanes d (Ty.regs t) (fun l => sum x lanes vs l % 2 ^ n) with
            k := [(kc, lanes, maskOf x.w fun l => decide (2 ^ n ≤ sum x lanes vs l))] } }
  | .sel h t ks d a b => some
      { is := { sw := h.sw, size := Machine.sizeOf b, dsts := dstRef d (Ty.regs t) 0, push := pushOf d
                srcs := [srcOf a (Ty.regs t) 1 h.la, srcOf b (Ty.regs t) 2 h.lb] }
        km := h.km, reads := [.k ks 1]
        writes := fun x lanes vs => putDst x lanes d (Ty.regs t) fun l =>
          if (kReg x.a ks).getLsbD l then fillDst d t (val vs 0 l) else fillDst d t (val vs 1 l) }
  | _ => none

/-! ## Floating point and conversions (R96-R103) -/

/-- A floating-point instruction: its element type, whether it takes pairs, its rounding, its result's type, and the
result and flags of one element from the rounding mode and the elements' codes. -/
structure FloatOp where
  h : Hdr
  late : Bool := false
  t : Ty
  pk : Bool
  rnd : Option Rnd
  d : Dst
  srcs : List Src
  size : Nat
  tr : Ty
  f : RMode → List Nat → Nat × BitVec 6

/-- One element of a lane: element e is under index 2 × LANEID + e for `.rsk`, or e with a scalar destination (R96). -/
def FloatOp.elem (o : FloatOp) (x : Ctxt) (vs : List (Nat → Nat)) (l e : Nat) : Nat × BitVec 6 :=
  o.f (rmodeOf (o.rnd.getD .rne) x.c.rkey x.a.rstep.toNat (if isVecDst o.d then 2 * l + e else e))
    ((List.range o.srcs.length).map fun i => val vs i l / 2 ^ (16 * e) % 2 ^ Ty.bits o.t)

/-- A lane's result: one element, or two side by side. -/
def FloatOp.result (o : FloatOp) (x : Ctxt) (vs : List (Nat → Nat)) (l : Nat) : Nat :=
  if o.pk then (o.elem x vs l 0).1 + (o.elem x vs l 1).1 * 2 ^ 16 else (o.elem x vs l 0).1

def FloatOp.flags (o : FloatOp) (x : Ctxt) (vs : List (Nat → Nat)) (l : Nat) : BitVec 6 :=
  if o.pk then (o.elem x vs l 0).2 ||| (o.elem x vs l 1).2 else (o.elem x vs l 0).2

/-- The instruction: the results of the active lanes, and every flag they meet (R85). -/
def FloatOp.reg (o : FloatOp) : RegOp where
  is := { sw := o.h.sw, size := o.size, srcs := o.srcs, late := o.late, dsts := dstRef o.d 1 0, push := pushOf o.d
          bump := o.rnd == some .rsk }
  km := o.h.km
  writes := fun x lanes vs =>
    { putDst x lanes o.d 1 (fun l => fillDst o.d (if o.pk then .b32 else o.tr) (o.result x vs l)) with
      fl := orFlags (flagLanes x o.d lanes) (o.flags x vs) }

/-- Rounds an exact value to a type; the flags of forming it and of rounding it are both set (R76, R85). -/
def rounded (t : Ty) (md : RMode) (sat : Bool) (v : Fl × BitVec 6) : Nat × BitVec 6 :=
  ((roundFl (fmtOfTy t) md sat v.1).1, v.2 ||| (roundFl (fmtOfTy t) md sat v.1).2)

def unary (h : Hdr) (t : Ty) (m : FMode) (d : Dst) (a : Opd) (f : RMode → Fl → Nat × BitVec 6) : FloatOp :=
  { h := h, late := true, t := t, pk := m.pk, rnd := some m.rnd, d := d, srcs := [srcOf a 1 1 h.la], size := 8, tr := t
    f := fun md v => f md (decodeFl (fmtOfTy t) (arg v 0)) }

def binary (h : Hdr) (t : Ty) (m : FMode) (d : Dst) (a b : Opd) (f : Rnd → Fl → Fl → Fl × BitVec 6)
    (late : Bool := false) : FloatOp :=
  { h := h, late := late, t := t, pk := m.pk, rnd := some m.rnd, d := d, srcs := [srcOf a 1 1 h.la, srcOf b 1 2 h.lb]
    size := Machine.sizeOf b, tr := t
    f := fun md v => rounded t md m.sat
      (f md.mode (decodeFl (fmtOfTy t) (arg v 0)) (decodeFl (fmtOfTy t) (arg v 1))) }

/-- The arithmetic of R97, each result rounded once from the exact value. -/
def floatOp : Instr → Option FloatOp
  | .fadd h t m d a b => some (binary h t m d a b flAdd)
  | .fsub h t m d a b => some (binary h t m d a b fun r x y => flAdd r x y.neg)
  | .fmul h t m d a b => some (binary h t m d a b fun _ => flMul)
  | .ffma h t m d a b c => some
      { h := h, t := t, pk := m.pk, rnd := some m.rnd, d := d, tr := t, size := Machine.sizeOf b
        srcs := [srcOf a 1 1 h.la, srcOf b 1 2 h.lb, srcOf c 1 3 h.lc]
        f := fun md v => rounded t md m.sat (flFma md.mode (decodeFl (fmtOfTy t) (arg v 0))
          (decodeFl (fmtOfTy t) (arg v 1)) (decodeFl (fmtOfTy t) (arg v 2))) }
  | .fmin h t pk d a b => some
      { h := h, t := t, pk := pk, rnd := none, d := d, tr := t, size := Machine.sizeOf b
        srcs := [srcOf a 1 1 h.la, srcOf b 1 2 h.lb]
        f := fun md v => rounded t md false
          (flMinMax false (decodeFl (fmtOfTy t) (arg v 0)) (decodeFl (fmtOfTy t) (arg v 1))) }
  | .fmax h t pk d a b => some
      { h := h, t := t, pk := pk, rnd := none, d := d, tr := t, size := Machine.sizeOf b
        srcs := [srcOf a 1 1 h.la, srcOf b 1 2 h.lb]
        f := fun md v => rounded t md false
          (flMinMax true (decodeFl (fmtOfTy t) (arg v 0)) (decodeFl (fmtOfTy t) (arg v 1))) }
  | .frnd h t pk rnd d a => some
      { h := h, t := t, pk := pk, rnd := some rnd, d := d, tr := t, size := 8, srcs := [srcOf a 1 1 h.la]
        f := fun md v => rounded t md false (flRound md (decodeFl (fmtOfTy t) (arg v 0))) }
  | .fclass h t pk d a => some
      { h := h, t := t, pk := pk, rnd := none, d := d, tr := .n32, size := 8, srcs := [srcOf a 1 1 h.la]
        f := fun _ v => (flClass (fmtOfTy t) (arg v 0), 0) }
  | .fdiv h t m d a b => some (binary h t m d a b (fun _ => flDiv) (late := true))
  | .fsqrt h t m d a => some (unary h t m d a fun md x => rounded t md m.sat (flSqrt x))
  | .frcp h t m d a => some (unary h t m d a fun md x => rounded t md m.sat (flRcp x))
  | .frsq h t m d a => some (unary h t m d a fun md x => rounded t md m.sat (flRsq x))
  | .fex2 h t m d a => some (unary h t m d a fun md => roundEx2 (fmtOfTy t) md m.sat)
  | .flg2 h t m d a => some (unary h t m d a fun md => roundLg2 (fmtOfTy t) md m.sat)
  | .ftanh h t m d a => some (unary h t m d a fun md => roundTanh (fmtOfTy t) md m.sat)
  | _ => none

/-- The conversions of R101 to R103 that take one word of each source. -/
def convertOp : Instr → Option FloatOp
  | .qnt h el rnd d a b => some
      { h := h, t := .f32, pk := false, rnd := some rnd, d := d, srcs := [srcOf a 1 1 h.la, srcOf b 1 2 h.lb]
        size := Machine.sizeOf b, tr := if (elemFmt el).isSome then .n32 else .i32
        f := fun md v => qntLane el md (arg v 0) (arg v 1 % 256) }
  | .dqnt h el rnd d a b => some
      { h := h, t := .f32, pk := false, rnd := some rnd, d := d, srcs := [srcOf a 1 1 h.la, srcOf b 1 2 h.lb]
        size := Machine.sizeOf b, tr := .f32
        f := fun md v => dqntLane el md (arg v 0) (arg v 1 % 256) }
  | .tpack h d a b => some
      { h := h, t := .f32, pk := false, rnd := none, d := d, srcs := [srcOf a 1 1 h.la, srcOf b 1 2 h.lb]
        size := Machine.sizeOf b, tr := .n32
        f := fun _ v =>
          let byte := fun (i : Nat) => if i < 4 then arg v 0 / 256 ^ i % 256 else arg v 1 % 256
          -- the sign of each byte, and BADPACK for one that is no trit
          let trit := fun (i : Nat) => if byte i = 0 then 0 else if byte i < 128 then 1 else (-1 : Int)
          (((List.range 5).map fun i => (trit i + 1).toNat * 3 ^ i).sum,
            if (List.range 5).all fun i => byte i == 0 || byte i == 1 || byte i == 255 then 0 else flBadpack) }
  | .tunpk h d a b => some
      { h := h, t := .f32, pk := false, rnd := none, d := d, srcs := [srcOf a 1 1 h.la, srcOf b 1 2 h.lb]
        size := Machine.sizeOf b, tr := .n32
        f := fun _ v =>
          let byte := fun (i : Nat) => arg v 0 / 256 ^ i % 256
          -- trit q of the twenty that the four bytes hold
          let trit := fun (q : Nat) =>
            if 20 ≤ q ∨ 243 ≤ byte (q / 5) then (0 : Int) else ((byte (q / 5) / 3 ^ (q % 5) % 3 : Nat) : Int) - 1
          (((List.range 4).map fun m => wrapInt 8 (trit (arg v 1 % 32 + m)) * 256 ^ m).sum,
            if (List.range 4).any fun i => decide (243 ≤ byte i) then flBadpack else 0) }
  | .unpk h t nib _ d a b => some
      { h := h, t := .f32, pk := false, rnd := none, d := d, srcs := [srcOf a 1 1 h.la, srcOf b 1 2 h.lb]
        size := Machine.sizeOf b, tr := if Ty.signed t then .i32 else .n32
        f := fun _ v =>
          let n := if nib then 4 else Ty.bits t
          let c := arg v 0 / 2 ^ (n * (arg v 1 % (32 / n))) % 2 ^ n
          if Ty.isFloat t then
            let q := roundFl fmtF32 ⟨.rne, 0⟩ false (decodeFl (fmtOfTy t) c)
            (q.1, q.2 ||| sigFlag [decodeFl (fmtOfTy t) c])
          else (if Ty.signed t then wrapInt 32 (signedOf n c) else c, 0) }
  | .fdot2 h t sat rnd d a b c => some
      { h := h, t := .f32, pk := false, rnd := some rnd, d := d, tr := .f32, size := Machine.sizeOf b
        srcs := [srcOf a 1 1 h.la, srcOf b 1 2 h.lb, srcOf c 1 3 h.lc]
        f := fun md v =>
          let el := fun (i e : Nat) => decodeFl (fmtOfTy t) (arg v i / 2 ^ (16 * e) % 2 ^ Ty.bits t)
          let z := decodeFl fmtF32 (arg v 2)
          let p := flMul (el 0 0) (el 1 0)
          let q := flMul (el 0 1) (el 1 1)
          let u := flAdd md.mode p.1 q.1
          let r := flAdd md.mode u.1 z
          rounded .f32 md sat (r.1, p.2 ||| q.2 ||| u.2 ||| r.2 ||| sigFlag [z]) }
  | _ => none

/-- FSCALE, CVT and PACK (R97, R100, R102). -/
def scaleOp : Instr → Option RegOp
  | .fscale h t m d a b =>
      let el := fun (x : Ctxt) (vs : List (Nat → Nat)) (l e : Nat) =>
        rounded t (rmodeOf m.rnd x.c.rkey x.a.rstep.toNat (if isVecDst d then 2 * l + e else e)) m.sat
          (flScale (decodeFl (fmtOfTy t) (val vs 0 l / 2 ^ (16 * e) % 2 ^ Ty.bits t)) (signedOf 32 (val vs 1 l)))
      some
      { is := { sw := h.sw, size := Machine.sizeOf b, srcs := [srcOf a 1 1 h.la, srcOf b 1 2 h.lb], dsts := dstRef d 1 0
                push := pushOf d, bump := m.rnd == .rsk }
        km := h.km
        writes := fun x lanes vs =>
          { putDst x lanes d 1 (fun l => fillDst d (if m.pk then .b32 else t)
              (if m.pk then (el x vs l 0).1 + (el x vs l 1).1 * 2 ^ 16 else (el x vs l 0).1)) with
            fl := orFlags (flagLanes x d lanes) fun l =>
              if m.pk then (el x vs l 0).2 ||| (el x vs l 1).2 else (el x vs l 0).2 } }
  | .cvt h td ts rnd d a =>
      let v := fun (vs : List (Nat → Nat)) (l : Nat) => typeValue ts (val vs 0 l % 2 ^ Ty.bits ts)
      let r := fun (x : Ctxt) (vs : List (Nat → Nat)) (l : Nat) =>
        roundType td (rmodeOf rnd x.c.rkey x.a.rstep.toNat (if isVecDst d then 2 * l else 0)) (v vs l)
      some
      { is := { sw := h.sw, size := 8, srcs := [srcOf a (Ty.regs ts) 1 h.la], dsts := dstRef d (Ty.regs td) 0
                push := pushOf d, bump := rnd == .rsk }
        km := h.km
        writes := fun x lanes vs =>
          { putDst x lanes d (Ty.regs td) (fun l => fillDst d td (r x vs l).1) with
            fl := orFlags (flagLanes x d lanes) fun l => (r x vs l).2 ||| sigFlag [v vs l] } }
  | .pack h t nib rnd d a b c =>
      let n := if nib then 4 else Ty.bits t
      -- element i of a lane: rounded, or saturated with INVALID and INEXACT
      let el := fun (x : Ctxt) (vs : List (Nat → Nat)) (l i : Nat) =>
        let v := val vs i l % 2 ^ 32
        if Ty.isFloat t then
          let q := roundFl (fmtOfTy t) (rmodeOf rnd x.c.rkey x.a.rstep.toNat (if isVecDst d then 2 * l + i else i)) false
            (decodeFl fmtF32 v)
          (q.1, q.2 ||| sigFlag [decodeFl fmtF32 v])
        else
          let z : Int := if Ty.signed t then signedOf 32 v else v
          let lo : Int := if Ty.signed t then -2 ^ (n - 1) else 0
          let hi : Int := if Ty.signed t then 2 ^ (n - 1) - 1 else 2 ^ n - 1
          (wrapInt n (max lo (min z hi)), if lo ≤ z ∧ z ≤ hi then 0 else flInvalid ||| flInexact)
      some
      { is := { sw := h.sw, size := Machine.sizeOf b, dsts := dstRef d 1 0, push := pushOf d
                bump := Ty.isFloat t && rnd == .rsk
                srcs := [srcOf a 1 1 h.la, srcOf b 1 2 h.lb] ++ (match c with
                  | some o => [srcOf o 1 3 h.lc]
                  | none => []) }
        km := h.km
        writes := fun x lanes vs =>
          { putDst x lanes d 1 (fun l => (el x vs l 0).1 + (el x vs l 1).1 * 2 ^ n +
              val vs 2 l % 2 ^ (32 - 2 * n) * 2 ^ (2 * n)) with
            fl := orFlags (flagLanes x d lanes) fun l => (el x vs l 0).2 ||| (el x vs l 1).2 } }
  | _ => none

/-! ## Lane instructions (R104-R109) -/

/-- Bits of a source in a lane at a type. -/
def bitsOfLane (t : Ty) (vs : List (Nat → Nat)) (i l : Nat) : Nat := val vs i l % 2 ^ Ty.bits t

def acrossOp : Instr → Option RegOp
  | .shfl h t mode g d a b => some
      { is := { sw := h.sw, size := Machine.sizeOf b, late := true, dsts := dstRef d (Ty.regs t) 0, push := pushOf d
                srcs := [srcOf a (Ty.regs t) 1 h.la, srcOf b 1 2 h.lb] }
        km := h.km
        writes := fun x lanes vs => putDst x lanes d (Ty.regs t) fun i =>
          fillDst d t (val vs 0 (shflLane mode (shflSeg x.w g) i (val vs 1 i % 2 ^ 32))) }
  | .vote h k d a =>
      let v := fun (vs : List (Nat → Nat)) (l : Nat) => val vs 0 l % 2 ^ 32
      some
      { is := { sw := h.sw, size := 8, srcs := [srcOf a 1 1 h.la]
                dsts := match d with
                  | .reg r => dstRef r 1 0
                  | .mask m => [kRef m 0]
                push := match d with
                  | .reg r => pushOf r
                  | .mask _ => none }
        km := h.km, place := { meld := d != .mask .em }
        writes := fun x lanes vs =>
          let ls := laneList lanes x.w
          match d with
          | .mask m => { k := [(kIndex m, lanesBelow x.w, maskOf x.w fun l => lanes.getLsbD l && v vs l != 0)] }
          | .reg r => putDst x lanes r 1 fun _ =>
              if (match k with
                | .all => ls.all fun l => v vs l != 0
                | .uni => ls.all fun l => v vs l == v vs ((ls.head?).getD 0)
                | _ => ls.any fun l => v vs l != 0) then 1 else 0 }
  | .lred h t op rnd d a =>
      -- the reduction of the active lanes, rising
      let r := fun (x : Ctxt) (lanes : Mask) (vs : List (Nat → Nat)) =>
        reduce t op (rmodeOf rnd x.c.rkey x.a.rstep.toNat (2 * ((laneList lanes x.w).head?).getD 0))
          ((laneList lanes x.w).map (bitsOfLane t vs 0))
      some
      { is := { sw := h.sw, size := 8, late := true, dsts := dstRef d (Ty.regs t) 0, push := pushOf d, bump := rnd == .rsk
                srcs := [srcOf a (Ty.regs t) 1 h.la] }
        km := h.km
        writes := fun x lanes vs =>
          { putDst x lanes d (Ty.regs t) (fun _ => fillDst d t (r x lanes vs).1) with fl := (r x lanes vs).2 } }
  | .lscan h t op rnd excl d a =>
      -- lane i's reduction of the active lanes below it, with itself unless `.excl`
      let r := fun (x : Ctxt) (lanes : Mask) (vs : List (Nat → Nat)) (i : Nat) =>
        reduce t op (rmodeOf rnd x.c.rkey x.a.rstep.toNat (2 * i))
          (((laneList lanes x.w).filter fun l => if excl then decide (l < i) else decide (l ≤ i)).map (bitsOfLane t vs 0))
      some
      { is := { sw := h.sw, size := 8, late := true, dsts := dstRef d (Ty.regs t) 0, push := pushOf d, bump := rnd == .rsk
                srcs := [srcOf a (Ty.regs t) 1 h.la] }
        km := h.km
        writes := fun x lanes vs =>
          { putDst x lanes d (Ty.regs t) (fun i => fillDst d t (r x lanes vs i).1) with
            fl := orFlags (laneList lanes x.w) fun i => (r x lanes vs i).2 } }
  | .bcast h t d a b =>
      let lo := fun (x : Ctxt) (lanes : Mask) => (lowestLane lanes x.w).getD 0
      some
      { is := { sw := h.sw, late := true, dsts := dstRef d (Ty.regs t) 0, push := pushOf d
                size := match b with
                  | some o => Machine.sizeOf o
                  | none => 8
                srcs := [srcOf a (Ty.regs t) 1 h.la] ++ (match b with
                  | some o => [srcOf o 1 2 h.lb]
                  | none => []) }
        km := h.km, uni := [1]
        writes := fun x lanes vs => putDst x lanes d (Ty.regs t) fun _ => fillDst d t
          (val vs 0 (if b.isSome then val vs 1 (lo x lanes) % 2 ^ 32 % x.w else lo x lanes)) }
  | .matchLanes h t cnt d a =>
      let same := fun (x : Ctxt) (lanes : Mask) (vs : List (Nat → Nat)) (i : Nat) =>
        (laneList lanes x.w).filter fun l => bitsOfLane t vs 0 l == bitsOfLane t vs 0 i
      some
      { is := { sw := h.sw, size := 8, late := true, dsts := [.v d 1 0], srcs := [srcOf a (Ty.regs t) 1 h.la] }
        km := h.km
        writes := fun x lanes vs => { v := putV x lanes d (fun i =>
          if cnt then (same x lanes vs i).length else ((same x lanes vs i).head?).getD 0) 1 } }
  | .topk h t sc d a b =>
      let v := fun (vs : List (Nat → Nat)) (l : Nat) => val vs 0 l % 2 ^ 32
      -- the candidates, in descending order, equal ones by lane
      let cand := fun (x : Ctxt) (lanes : Mask) (vs : List (Nat → Nat)) => topSort t (v vs) ((laneList lanes x.w).filter
        fun l => if Ty.isFloat t then !(decodeFl fmtF32 (v vs l)).isNan && !(decodeFl fmtF32 (v vs l)).isZero else v vs l != 0)
      let k := fun (x : Ctxt) (lanes : Mask) (vs : List (Nat → Nat)) => val vs 1 ((lowestLane lanes x.w).getD 0) % 2 ^ 32
      let slot := fun x lanes vs (j : Nat) =>
        if j < min (k x lanes vs) (cand x lanes vs).length then (cand x lanes vs)[j]? else none
      some
      { is := { sw := h.sw, size := Machine.sizeOf b, late := true, straddle := some (d, 2)
                dsts := [.v d 1 0, .v (d + 1) 1 0] ++ (if sc = 63 then [] else [.s sc 0])
                srcs := [srcOf a 1 1 h.la, srcOf b 1 2 h.lb] }
        km := h.km, uni := [1]
        writes := fun x lanes vs =>
          { v := if k x lanes vs = 0 then [] else
              putV x (lanesBelow (min (k x lanes vs) x.w)) d (fun j => match slot x lanes vs j with
                | some l => v vs l
                | none => topLow t) 1 ++
              putV x (lanesBelow (min (k x lanes vs) x.w)) (d + 1) (fun j => (slot x lanes vs j).getD 0xFFFFFFFF) 1
            s := if sc = 63 then [] else [(sc, BitVec.ofNat 64 (min (k x lanes vs) (cand x lanes vs).length))]
            -- a signalling NaN in an active lane is an operand (R85)
            fl := if Ty.isFloat t then sigFlag ((laneList lanes x.w).map fun l => decodeFl fmtF32 (v vs l)) else 0 } }
  | _ => none

/-! ## Masks and special registers (R110, R46-R48) -/

/-- A whole write of a mask register: its bits from W up are 0 (R88). -/
def wholeMask (kd : KReg) (x : Ctxt) (m : Mask) : Writes :=
  { k := [(kIndex kd, BitVec.allOnes 128, m &&& lanesBelow x.w)] }

def masksOp : Instr → Option RegOp
  | .kop h op kd ka kb => some
      { is := { sw := h.sw, size := 8, dsts := [kRef kd 0] }, km := h.km, place := maskPlace (some kd), always := true
        reads := kRef ka 1 :: (if op = .not then [] else [kRef kb 2])
        writes := fun x _ _ => wholeMask kd x (match op with
          | .and => maskReg x.a ka &&& maskReg x.a kb
          | .or => maskReg x.a ka ||| maskReg x.a kb
          | .xor => maskReg x.a ka ^^^ maskReg x.a kb
          | .andn => maskReg x.a ka &&& ~~~(maskReg x.a kb)
          | .not => ~~~(maskReg x.a ka)) }
  | .kmov h (.kk kd ka) => some
      { is := { sw := h.sw, size := 8, dsts := [kRef kd 0] }, km := h.km, place := maskPlace (some kd), always := true
        reads := [kRef ka 1], writes := fun x _ _ => wholeMask kd x (maskReg x.a ka) }
  | .kmov h (.loIn kd n) => some
      { is := { sw := h.sw, size := 8, dsts := [kRef kd 0] }, km := h.km, place := maskPlace (some kd), always := true
        reads := [.s n 1], writes := fun x _ _ => wholeMask kd x (halfMask (maskReg x.a kd) false (sReg x.a n)) }
  | .kmov h (.hiIn kd n) => some
      { is := { sw := h.sw, size := 8, dsts := [kRef kd 0] }, km := h.km, place := maskPlace (some kd), always := true
        reads := [.s n 1], writes := fun x _ _ => wholeMask kd x (halfMask (maskReg x.a kd) true (sReg x.a n)) }
  | .kmov h (.loOut n ka) => some
      { is := { sw := h.sw, size := 8, dsts := [.s n 0] }, km := h.km, reads := [kRef ka 1]
        writes := fun x _ _ => { s := [(n, (maskReg x.a ka &&& lanesBelow x.w).setWidth 64)] } }
  | .kmov h (.hiOut n ka) => some
      { is := { sw := h.sw, size := 8, dsts := [.s n 0] }, km := h.km, reads := [kRef ka 1]
        writes := fun x _ _ => { s := [(n, ((maskReg x.a ka &&& lanesBelow x.w) >>> 64).setWidth 64)] } }
  | .kmov h (.toV n ka) => some
      { is := { sw := h.sw, size := 8, dsts := [.v n 1 0] }, km := h.km, reads := [kRef ka 1]
        writes := fun x lanes _ => { v := putV x lanes n (fun l => ((maskReg x.a ka).getLsbD l).toNat) 1 } }
  | .kpop h d ka => some
      { is := { sw := h.sw, size := 8, dsts := [.s d 0] }, km := h.km, reads := [kRef ka 1]
        writes := fun x _ _ => { s := [(d, BitVec.ofNat 64 (laneList (maskReg x.a ka) x.w).length)] } }
  | .kfnd h hi d ka b =>
      let set := fun (x : Ctxt) => laneList (maskReg x.a ka) x.w
      some
      { is := { sw := h.sw, size := Machine.sizeOf b, dsts := [.s d 0], srcs := [srcOf b 1 2 h.lb] }, km := h.km
        reads := [kRef ka 1]
        writes := fun x _ vs =>
          { s := [(d, match (if hi then ((set x).filter fun i => decide (i ≤ min (val vs 0 0) (x.w - 1))).getLast?
              else ((set x).filter fun i => decide (val vs 0 0 ≤ i)).head?) with
            | some i => BitVec.ofNat 64 i
            | none => 0xFFFFFFFFFFFFFFFF)] } }
  | _ => none

/-- SRD, CLK and CLK.ptp in state `s`: a special register's value, or the time; PTP time never runs back for a stroke
(R48). -/
def readOp (s : State) : Instr → Option RegOp
  | .srd h d r => some
      { is := { sw := h.sw, size := 8, dsts := dstRef d 1 0, push := pushOf d }, km := h.km, place := { primer := true }
        writes := fun x lanes _ => putDst x lanes d 1 fun l =>
          if isVecDst d then (sregValue x r l).toNat % 2 ^ 32 else (sregValue x r l).toNat }
  | .clk h d => some
      { is := { sw := h.sw, size := 8, dsts := [.s d 0] }, km := h.km, place := { primer := true }
        writes := fun _ _ _ => { s := [(d, BitVec.ofNat 64 s.cycle)] } }
  | .clkPtp h d => some
      { is := { sw := h.sw, size := 8, dsts := [.s d 0] }, km := h.km, place := { primer := true }
        writes := fun x _ _ =>
          let now := BitVec.ofNat 64 (max (deviceTime s) x.st.ptp.toNat)
          { s := [(d, now)], ptp := some now } }
  | _ => none

/-- Every register instruction that a table gives. -/
def regOp (s : State) (i : Instr) : Option RegOp :=
  ((arithOp i).map LaneOp.reg).or <| ((divideOp i).map LaneOp.reg).or <| ((bitsOp i).map LaneOp.reg).or <|
  (compareOp i).or <| ((floatOp i).map FloatOp.reg).or <| ((convertOp i).map FloatOp.reg).or <|
  (scaleOp i).or <| (acrossOp i).or <| (masksOp i).or (readOp s i)

end Sys2Proof.Claims
end

