-- ==== Sys2Proof/Claims/Sets.lean ====
section
/-! DEFINITION. What the rules of spec/07_sets.md R140-R161 say that each set instruction leaves: at its issue, at its
acceptance by its home, and at its point. -/

namespace Sys2Proof.Claims
open Sys2Proof Sys2Proof.Machine

/-- A set instruction: its operands, the places of its handles among them, its own checks, and what it will do. -/
structure SetForm where
  h : Hdr
  size : Nat
  srcs : List Src
  dsts : List Ref := []
  uni : List Nat := []
  hands : List Nat := []
  /-- Its own checks, by the values of its operands at the lowest active lane. -/
  ok : Ctxt → List Nat → Prop := fun _ _ => True
  plan : Ctxt → Mask → (Nat → Nat) → List (Nat → Nat) → SetPlan

def updateForm (h : Hdr) (ins : Bool) (d : Option Nat) (a b : Opd) : SetForm :=
  { h := h, size := Machine.sizeOf b, srcs := [srcOf a 1 1 h.la, srcOf b 1 2 h.lb], uni := [0], hands := [0]
    dsts := match d with
      | some n => [.v n 1 0]
      | none => []
    plan := fun x lanes lo vs =>
      { act := if ins then .sins d.isSome else .srem d.isSome, handles := [lo 0], keys := laneKeys x lanes (val vs 1)
        dst := match d with
          | some n => dstParts x.a lanes n 1
          | none => [] } }

def binaryForm (h : Hdr) (op : Nat) (card : Option Nat) (d a b : Opd) : SetForm :=
  { h := h, size := 8, srcs := [srcOf d 1 0 false, srcOf a 1 1 h.la, srcOf b 1 2 h.lb], uni := [0, 1, 2], hands := [0, 1, 2]
    dsts := match card with
      | some n => [.s n 3]
      | none => []
    plan := fun _ _ lo _ => { act := .binary op card.isSome, handles := [lo 0, lo 1, lo 2], sdst := card.toList } }

/-- SNEW ... SSTORE as R149-R161 describe them. -/
def setForm : Instr → Option SetForm
  | .snew h d u opt => some
      { h := h, size := Machine.sizeOf opt, srcs := [srcOf u 1 1 h.la, srcOf opt 1 2 h.lb], dsts := dstRef d 1 0, uni := [0]
        ok := fun _ v => let o := nthVal v 1
          o % 8 ≤ 4 ∧ o < 2 ^ 12 ∧ (bitAt o 3 = false → bitsAt o 11 4 = 0)
        plan := fun x lanes lo _ =>
          -- U, with 0 for 2^32; the pinned form; the home that the option names, or the core's own
          let home := if bitAt (lo 1) 3 then 128 * bitsAt (lo 1) 11 11 + bitsAt (lo 1) 10 4 else x.p.core
          dstPlan x lanes d { act := .snew (if lo 0 % 2 ^ 32 = 0 then 2 ^ 32 else lo 0 % 2 ^ 32) (lo 1 % 8) home } }
  | .sdel h a => some
      { h := h, size := 8, srcs := [srcOf a 1 1 h.la], uni := [0], hands := [0]
        plan := fun _ _ lo _ => { act := .sdel, handles := [lo 0] } }
  | .sins h d a b => some (updateForm h true d a b)
  | .srem h d a b => some (updateForm h false d a b)
  | .shas h d a b => some
      { h := h, size := Machine.sizeOf b, srcs := [srcOf a 1 1 h.la, srcOf b 1 2 h.lb], dsts := mdstRef d, uni := [0], hands := [0]
        plan := fun x lanes lo vs =>
          let p : SetPlan := { act := .shas, handles := [lo 0], keys := laneKeys x lanes (val vs 1) }
          match d with
          | .reg r => dstPlan x lanes r p
          | .mask k => { p with kdst := some (kIndex k) } }
  | .scard h d a => some
      { h := h, size := 8, srcs := [srcOf a 1 1 h.la], dsts := [.s d 0], uni := [0], hands := [0]
        plan := fun _ _ lo _ => { act := .scard, handles := [lo 0], sdst := [d] } }
  | .sand h card d a b => some (binaryForm h 6 card d a b)
  | .sor h card d a b => some (binaryForm h 7 card d a b)
  | .ssub h card d a b => some (binaryForm h 8 card d a b)
  | .sxor h card d a b => some (binaryForm h 9 card d a b)
  | .sitr h sc d a b => some
      { h := h, size := Machine.sizeOf b, srcs := [srcOf a 1 1 h.la, srcOf b 1 2 h.lb], dsts := [.v d 1 0, .s sc 0], uni := [0, 1]
        hands := [0]
        plan := fun x lanes lo _ =>
          { act := .sitr (lo 1 % 2 ^ 32), handles := [lo 0], dst := dstParts x.a lanes d 1, sdst := [sc] } }
  | .scost h op d a b c =>
      -- A always is a handle; B where the operation is a binary one, C where it then is not `sz`
      let hands := [0] ++ (if 6 ≤ op ∧ op ≤ 9 then (if isSz c then [1] else [1, 2]) else [])
      some
      { h := h, size := 8, srcs := [srcOf a 1 1 h.la, srcOf b 1 2 h.lb, srcOf c 1 3 h.lc], dsts := [.s d 0], uni := hands
        hands := hands
        plan := fun _ _ lo _ => { act := .scost op, sdst := [d], handles := [lo 0, lo 1, lo 2] } }
  | .sinfo h d a b key => some
      { h := h, size := Machine.sizeOf b, srcs := [srcOf a 1 1 h.la, srcOf b 1 2 h.lb, srcOf (.s key) 1 3 false], dsts := [.s d 0]
        uni := [0], hands := [0]
        ok := fun x v => let sel := nthVal v 1
          sel ≤ 3 ∧ (sel ≠ 3 → key = 63) ∧ (sel = 3 → ∀ o, getObj x.ctx (nthVal v 0) = some o → nthVal v 2 % 2 ^ 32 < o.u)
        plan := fun _ _ lo _ => { act := .sinfo (lo 1) (lo 2 % 2 ^ 32), handles := [lo 0], sdst := [d] } }
  | .sinfoPin h a b => some
      { h := h, size := Machine.sizeOf b, srcs := [srcOf a 1 1 h.la, srcOf b 1 2 h.lb], uni := [0], hands := [0]
        ok := fun _ v => nthVal v 1 ≤ 4
        plan := fun _ _ lo _ => { act := .pin (lo 1), handles := [lo 0] } }
  | .srank h sel d a b => some
      { h := h, size := Machine.sizeOf b, srcs := [srcOf a 1 1 h.la, srcOf b 1 2 h.lb], dsts := [.v d 1 0], uni := [0], hands := [0]
        plan := fun x lanes lo vs =>
          { act := .srank sel, handles := [lo 0], keys := laneKeys x lanes (val vs 1), dst := dstParts x.a lanes d 1 } }
  | .sload h str d base => some
      { h := h, size := 8, srcs := [srcOf (.s base) 1 1 false], dsts := dstRef d 1 0
        ok := fun _ v => nthVal v 0 % 16 = 0
        plan := fun x lanes lo _ => dstPlan x lanes d { act := .sload str (lo 0), holds := true } }
  | .sstore h str d a base lim start => some
      { h := h, size := if start.isSome then 16 else 8, dsts := [.s d 0], uni := [0], hands := [0]
        srcs := [srcOf a 1 1 h.la, srcOf (.s base) 1 2 false, srcOf (.s lim) 1 3 false]
        ok := fun _ v => nthVal v 1 % 4 = 0
        plan := fun _ _ lo _ =>
          { act := .sstore str (lo 1) (lo 2) ((start.map (·.toNat)).getD 0), handles := [lo 0], sdst := [d], holds := true } }
  | _ => none

/-- The current agent's set instruction passes its checks, with the values of its sources by lane; every handle is a
32-bit value. -/
def SetRuns (s : State) (o : SetForm) (x0 x : Ctxt) (u : State) (vs : List (Nat → Nat)) : Prop :=
  let lanes := activeMask x0.a o.h.km
  theCtxt s = some x0 ∧ lanes ≠ 0 ∧ (∃ u0 y, setGather s x0 o.h o.srcs o.dsts o.uni = .ok (u0, y) ∧
    (u, x) = pullAll u0 y o.srcs) ∧ srcValues u x lanes o.srcs o.srcs.length 0 = .ok vs ∧
  ∀ k ∈ o.hands, loVal x lanes vs k < 2 ^ 32

/-- The state of a panel's agent at its issue: it waits for its instruction's home (R140). -/
def setIssueRule (i : Instr) (s t : State) : Prop :=
  ∃ o, setForm i = some o ∧ ∃ x0 x u vs, SetRuns s o x0 x u vs ∧
    t = clearWait (blockAgent { setAgent u x.aid { x.a with setAt := some (u.fresh, i) } with fresh := u.fresh + 1 } x.aid .set)
      x0.aid

/-- The instruction under way that an acceptance leaves. -/
def acceptedOp (u : State) (x : Ctxt) (lanes : Mask) (o : SetForm) (p : SetPlan) : SetOp :=
  { agent := x.aid, stroke := x.a.stroke, ctx := x.p.ctx, core := x.p.core, act := p.act, handles := p.handles
    lanes := lanes, width := x.w, keys := p.keys, since := u.cycle, issue := (x.a.setAt.map (·.1)).getD u.fresh
    size := o.size, holds := p.holds, dst := p.dst, sdst := p.sdst, kdst := p.kdst, before := x.a.before, po := x.po }

/-- SET_ACCEPTANCE of the instruction that agent `aid` waits with: its handles name sets and its own checks pass. It is
under way, with a result held for the registers that it writes; its agent goes on, but for SLOAD and SSTORE. -/
def setAcceptRule (i : Instr) (s t : State) : Prop :=
  match i with
  | .setAcceptance aid => ∃ j o x0 x u vs v a b, acceptReady s aid = some j ∧ setForm j = some o ∧
      getAgent s aid = some a ∧
      let s0 := { setAgent s aid { a with run := .ready } with cur := aid }
      SetRuns s0 o x0 x u vs ∧
      let lanes := activeMask x0.a o.h.km
      let lo := loVal x lanes vs
      let p := o.plan x lanes lo vs
      badHandle u x (o.hands.map fun k => (((o.srcs[k]?).map (·.field)).getD 0, lo k)) = none ∧
      o.ok x [lo 0, lo 1, lo 2] ∧
      (if p.holds then reserveFor u x [] (p.dst.map (·.2.1)) = .ok v else issueRegs u x o.srcs (p.dst.map (·.2.1)) = .ok v) ∧
      let v1 := protect v x.aid lanes o.dsts
      let held := p.dst ≠ [] ∨ p.sdst ≠ [] ∨ p.kdst ≠ none
      let v2 := if held then addResult v1 { agent := x.aid, po := x.po, ctx := x.p.ctx, kind := .held, mask := lanes, dst := p.dst
                                            sdst := p.sdst, kdst := p.kdst.map fun k => (k, lanes) } else v1
      let v3 := { v2 with
        setOps := tabPut v2.setOps v2.fresh { acceptedOp u x lanes o p with
          result := if held then some v1.fresh else none, freed := if p.holds then freedBy x.a o.srcs else [] }
        fresh := v2.fresh + 1 }
      getAgent v3 x.aid = some b ∧
      let w := clearWait (if p.holds then blockAgent (setAgent v3 x.aid { b with setAt := none }) x.aid .set
        else stepPc (setAgent v3 x.aid { b with setAt := none, run := .ready }) x.aid o.size) x0.aid
      t = { (match getAgent w aid with
        | some c => setAgent w aid { c with setAt := none }
        | none => w) with cur := s.cur }
  | _ => False

/-- SET_COMPLETION at the instruction's point, its storage readable: the sets are as `setOutcome` says, SSTAT and
SSBYTES tell of it (R142, R148), and its result may return. SLOAD makes a set of its image (R160); SSTORE fixes its
count and its writes, then sends them as its stream's counter has room (R161). -/
def setPointRule (i : Instr) (s t : State) : Prop :=
  match i with
  | .setCompletion id => ∃ op c, tabGet s.setOps id = some op ∧ setReady s id op = true ∧ getCtx s op.ctx = some c ∧
      match op.act with
      | .sload _ base => ∃ s1 s2 hdr bs c2,
          -- the header, then as many keys as it says, each read as loads of the agent
          readForSet s op base 16 = (s1, .ok hdr) ∧
          let n := ofBytes ((hdr.drop 4).take 4)
          readForSet s1 op (base + 16) (4 * n) = (s2, .ok bs) ∧
          let keys := keyList n bs
          imageBad hdr keys = none ∧ getCtx s2 op.ctx = some c2 ∧
          t = resumeSet (finishSet s2 id op (runSload c2 op id hdr keys)) op
      | .sstore str base lim start => match op.sent with
          | some n => t = sendSstore s id op str n
          | none => ∃ o g, getObj c (nthH op 0) = some o ∧
              let l := (o.keys.filter fun k => decide (start ≤ k)).take lim
              let is := orderedSegs o start lim
              let rd := orderedRead c id (handleIdx (nthH op 0)) o is
              segsFor s op.ctx .w base (4 * l.length) = .ok g ∧ rd.2.2.1 = none ∧
              -- the set is being read until the last write is sent, when SSTAT and SSBYTES tell of it
              let w := setCtx s op.ctx { rd.1 with reading := (id, handleIdx (nthH op 0)) :: rd.1.reading }
              t = { w with setOps := tabPut w.setOps id { op with
                sent := some l.length, todo := pieceParts (linePieces (l.length + 2) g) (l.flatMap fun k => bytesOf 4 k)
                stat := { algs := readAlgs o is, convs := rd.2.2.2, bytes := rd.2.1
                          cost := if is = keyedSegs o then some (storeCost o) else none } } }
      | _ =>
          let o := setOutcome c id op
          o.bad = none ∧
          let w := writeSstat (setCtx { s with setOps := tabDel s.setOps id } op.ctx o.ctx) op o.stat
          t = match op.result with
            | some r => { w with results := tabMod w.results r fun q => { q with kind := .writes (setWrites op o) } }
            | none => w
  -- one more entry of an iterator channel: the next W members, and filler past the last; it goes on above the last key
  -- that it delivered, until the universe ends (R25, R156, R236)
  | .iteratorEntry panel chan => ∃ p ch c start o, getPanel s panel = some p ∧ p.mapped = true ∧
      tabGet p.chans chan = some ch ∧ ch.kind = .iter ∧ ch.done = false ∧ ch.ents.length < 16 ∧ getCtx s p.ctx = some c ∧
      ch.nextKey = some start ∧ handleFault c ch.set = none ∧ getObj c ch.set = some o ∧
      let w := ((p.strokes.head?).bind (getStroke s)).elim 32 (·.width)
      let l := (o.keys.filter fun k => decide (start ≤ k)).take w
      let rd := orderedRead c s.fresh (handleIdx ch.set) o (orderedSegs o start w)
      let next := match l.getLast? with
        | some k => if k + 1 < o.u then some (k + 1) else none
        | none => some start
      rd.2.2.1 = none ∧
      t = setPanel { (setCtx s p.ctx rd.1) with fresh := (setCtx s p.ctx rd.1).fresh + 1 } panel
        { p with chans := tabPut p.chans chan { ch with
          ents := ch.ents ++ [(List.range w).map fun i => BitVec.ofNat 64 ((l[i]?).getD 0xFFFFFFFF)]
          wide := ch.wide ++ [false], bad := ch.bad ++ [none], nextKey := next, done := next.isNone } }
  | _ => False

/-- What the points of the binary operations, of SINS, SREM, SHAS and SCARD leave in their sets (R152-R155), by
membership: `o` is the set before, `o2` after. -/
def memberOf (op : Nat) (a b : SetObj) (k : Nat) : Prop :=
  match op with
  | 6 => k ∈ a.keys ∧ k ∈ b.keys
  | 7 => k ∈ a.keys ∨ k ∈ b.keys
  | 8 => k ∈ a.keys ∧ k ∉ b.keys
  | _ => (k ∈ a.keys ∧ k ∉ b.keys) ∨ (k ∈ b.keys ∧ k ∉ a.keys)

/-- The other sets of a context keep their universes and keys. -/
def SameSets (c c2 : Ctx) (but : Nat → Prop) : Prop :=
  ∀ n, ¬ but n → (getObj c2 n).map (fun o => (o.u, o.keys)) = (getObj c n).map fun o => (o.u, o.keys)

end Sys2Proof.Claims
end

