-- ==== Sys2Proof/Claims/Frames.lean ====
section
/-! DEFINITION. What instructions leave as it was, and what claims about traps and the whole machine are stated in. -/

namespace Sys2Proof.Claims
open Sys2Proof Sys2Proof.Machine

/-- An agent's exception registers, privilege, lane set, divergence state and special registers are as before. -/
structure KeepsControl (a b : Agent) : Prop where
  place : b.stroke = a.stroke ∧ b.primer = a.primer ∧ b.frag = a.frag ∧ b.order = a.order ∧ b.lset = a.lset
  exception : b.tcause = a.tcause ∧ b.tpc = a.tpc ∧ b.taddr = a.taddr ∧ b.tlane0 = a.tlane0 ∧ b.tlane1 = a.tlane1 ∧
    b.taux = a.taux ∧ b.priv = a.priv ∧ b.handler = a.handler ∧ b.byPreempt = a.byPreempt ∧ b.late = a.late ∧
    b.prePend = a.prePend
  control : b.staged = a.staged ∧ b.meld = a.meld ∧ b.pathLo = a.pathLo ∧ b.pathHi = a.pathHi ∧ b.ptab = a.ptab ∧
    b.jstack = a.jstack ∧ b.frames = a.frames ∧ b.ckptMask = a.ckptMask ∧ b.porder = a.porder ∧ b.before = a.before ∧ b.run = a.run

/-- The frame of a register instruction that writes `w`: of its agent only the registers that it names, its live names,
its HAZARD set, RSTEP and the program counter; of its stroke only the vector names, FPST and its granules; no other agent
or stroke, no byte of memory, and none of the sets, packets, copies or other work of the device. Its pops change its
panel's channels, and what an Easel queue gives them. -/
structure RegFrame (s t : State) (x : Ctxt) (w : Writes) : Prop where
  memory : t.mem = s.mem ∧ t.badWords = s.badWords
  device : t.ctxs = s.ctxs ∧ t.comms = s.comms ∧ t.packets = s.packets ∧ t.ackq = s.ackq ∧ t.groups = s.groups ∧
    t.copies = s.copies ∧ t.colls = s.colls ∧ t.regions = s.regions ∧ t.fills = s.fills ∧ t.images = s.images ∧
    t.setOps = s.setOps ∧ t.deposits = s.deposits ∧ t.saved = s.saved ∧ t.cqueues = s.cqueues ∧ t.tt = s.tt ∧
    t.fences = s.fences ∧ t.qps = s.qps ∧ t.juran = s.juran ∧ t.events = s.events ∧ t.cycle = s.cycle ∧ t.agenda = s.agenda
  others : (∀ n, n ≠ x.aid → getAgent t n = getAgent s n) ∧ (∀ n, n ≠ x.a.stroke → getStroke t n = getStroke s n) ∧
    (∀ n, n ≠ x.st.panel → getPanel t n = getPanel s n) ∧
    -- a pop may empty a core's copies, and touches nothing else of a core
    (∀ n, (getCore t n).matrix = (getCore s n).matrix ∧ (getCore t n).tasks = (getCore s n).tasks)
  agent : ∃ b, getAgent t x.aid = some b ∧ KeepsControl x.a b ∧
    (∀ n, n ∉ w.s.map (·.1) → sReg b n = sReg x.a n) ∧
    (∀ n, n ∉ w.k.map (·.1) → kReg b n = kReg x.a n) ∧ (16 ∉ w.k.map (·.1) → b.em = x.a.em)
  stroke : ∃ k, getStroke t x.a.stroke = some k ∧
    (∀ n lane, n ∉ w.v.map (·.name) → vLane k n lane = vLane x.st n lane) ∧
    (w.fl = 0 → k.fpst = x.st.fpst) ∧ k.sstat = x.st.sstat ∧ k.ssbytes = x.st.ssbytes ∧ k.gang = x.st.gang ∧
    k.acks = x.st.acks ∧ k.marks = x.st.marks ∧ k.splits = x.st.splits ∧ k.populated = x.st.populated ∧ k.width = x.st.width ∧
    (w.ptp = none → k.ptp = x.st.ptp)

/-! ## No lane active (R15) -/

/-- A task or Easel instruction: its operands, and where it is ILLOP. -/
structure TaskOp where
  h : Hdr
  size : Nat := 8
  ill : Ctxt → Bool := fun _ => false
  srcs : List Src
  dsts : List Ref
  uni : List Nat := []

/-- TSPAWN, TYLD, ALLOC, EQPUSH, EQSTAT and EQCOMB. -/
def taskOp : Instr → Option TaskOp
  | .tspawn h d a b => some { h := h, srcs := taskSrcs h a b, dsts := [.v d 1 0] }
  | .tyld h d a b => some { h := h, ill := notTask, srcs := taskSrcs h a b, dsts := [.v d 1 0] }
  | .alloc h sc d => some { h := h, srcs := [], dsts := dstRef d 2 0 ++ [.s sc 0] }
  | .eqpush h d e q => some
      { h := h, size := Machine.sizeOf q, srcs := [srcOf (.v e) 8 1 h.la, srcOf q 1 2 h.lb], dsts := pushDst d, uni := [1] }
  | .eqstat h d q sel => some
      { h := h, size := Machine.sizeOf sel, srcs := [srcOf q 1 1 h.la, srcOf sel 1 2 h.lb], dsts := [.s d 0], uni := [0] }
  | .eqcomb h _ a grp gate => some
      { h := h, srcs := [addrSrc h a, srcOf (.v grp) 4 2 h.lb, srcOf (.v gate) 1 3 h.lc], dsts := [], uni := [0] }
  | _ => none

/-- With no lane active, pops and last-read frees happen, and the agent goes on: nothing is read from memory, nothing is
sent, no set, queue or task is touched, and no register is written. A variable-latency instruction enters its destinations
in the HAZARD set (R22). An LD to a channel acts on it whatever lanes are active, and is not meant here. -/
def idleRule (i : Instr) (s t : State) : Prop :=
  (∃ o, accessOp i = some o ∧ o.push = none ∧ ∃ x0 x u v vs, activeMask x0.a o.h.km = 0 ∧
    MemRuns s o.h o.pl o.m o.extra o.dsts o.straddle none x0 x u vs ∧
    issueRegs u x (addrSrcs o.h o.m ++ o.extra) [] = .ok v ∧
    t = clearWait (stepPc (protect v x.aid 0 o.dsts) x.aid (mSize o.m)) x0.aid) ∨
  (∃ o, setForm i = some o ∧ ∃ x0 x u u0 y v vs, theCtxt s = some x0 ∧ activeMask x0.a o.h.km = 0 ∧
    setGather s x0 o.h o.srcs o.dsts o.uni = .ok (u0, y) ∧ (u, x) = pullAll u0 y o.srcs ∧
    srcValues u x 0 o.srcs o.srcs.length 0 = .ok vs ∧ issueRegs u x o.srcs [] = .ok v ∧
    t = clearWait (stepPc (protect v x.aid 0 o.dsts) x.aid o.size) x0.aid) ∨
  (∃ o, taskOp i = some o ∧ ∃ x0 x u v, theCtxt s = some x0 ∧ activeMask x0.a o.h.km = 0 ∧
    taskGather s x0 o.h o.ill o.srcs o.dsts o.uni = .ok (u, x) ∧ Commits u x o.h 0 o.srcs o.dsts o.size {} v ∧
    t = clearWait v x0.aid) ∨
  -- an ERRD reads and clears no record, and a TRAP raises none
  (∃ h clr d b x0 x u v, i = .errd h clr d b ∧ theCtxt s = some x0 ∧ activeMask x0.a h.km = 0 ∧
    sysGather s x0 h { meld := false } [.s d 0] [b] (fun _ => true) true = .ok (u, x, v) ∧
    t = clearWait (stepPc u x.aid (Machine.sizeOf b)) x0.aid) ∨
  (∃ h b x0 x u v, i = .trap h b ∧ theCtxt s = some x0 ∧ activeMask x0.a h.km = 0 ∧
    sysGather s x0 h {} [] [b] (fun _ => true) true = .ok (u, x, v) ∧
    t = clearWait (stepPc u x.aid (Machine.sizeOf b)) x0.aid)

/-! ## Frames -/

/-- Instructions whose issue stores nothing: register, control, system, matrix, set, channel and task instructions, those
that begin and drop regions, and the memory instructions, whose stores are performed later, at their homes (R210). MXSAVE
and SSTORE send packets too, and an EQCOMB its deposits. -/
def storesNothing (i : Instr) : Bool :=
  (arithOp i).isSome || (divideOp i).isSome || (bitsOp i).isSome || (compareOp i).isSome || (Claims.floatOp i).isSome ||
  (convertOp i).isSome || (scaleOp i).isSome || (acrossOp i).isSome || (masksOp i).isSome ||
  match i with
  | .srd .. | .clk .. | .clkPtp .. | .swr .. => true
  | .nop .. | .land .. | .bra .. | .brzMask .. | .brzScalar .. | .brnzMask .. | .brnzScalar .. | .call .. |
    .ret .. | .loop .. => true
  | .rgn .. | .meld .. | .mend .. | .path .. | .split .. | .join .. | .brx .. => true
  | .rtt .. | .trap .. | .halt .. | .pdone .. | .ckpt .. | .ckptHint .. | .errd .. => true
  | .tlbiRng .. | .tlbiAll .. | .tlbiNg .. => true
  | .ld .. | .ldg .. | .ldmx .. | .st .. | .sct .. | .stmx .. | .red .. |
    .atom .. | .acas .. | .prf .. | .fence .. | .waitf .. | .waitc .. | .testc .. => true
  | .srel .. | .sbindUnbind .. | .sbindPrimer .. | .sbindRing .. | .sbindPort .. | .sbindIter .. | .sbindQuery .. => true
  | .preg .. | .pregDrop .. | .gang .. => true
  | .tspawn .. | .alloc .. | .eqstat .. | .eqcfg .. | .eqcomb .. => true
  | .mxld .. | .mxlb .. | .mma .. | .mxz .. | .mxdr .. | .mxdrStat .. |
    .mxadd .. | .mxsave .. | .mxrest .. => true
  | .snew .. | .sdel .. | .sins .. | .srem .. | .shas .. | .scard .. | .sand .. |
    .sor .. | .ssub .. | .sxor .. | .sitr .. | .scost .. | .sinfo .. |
    .sinfoPin .. | .srank .. | .sload .. | .sstore .. => true
  | _ => false

/-- Where a packet's parts are reached on this device: the pieces that its performance stores to. -/
def packetSegs (s : State) (k : Packet) : List (Nat × Nat) :=
  k.parts.flatMap fun p => match reachOf s k.ctx true p.segs with
    | .here g => g
    | _ => []

def insideSegs (g : List (Nat × Nat)) (pa : Nat) : Prop := ∃ q ∈ g, q.1 ≤ pa ∧ pa < q.1 + q.2

/-- The 16 bytes of a registered barrier object that pieces touch: what a write leaves there is undefined (R178). -/
def insideBarrier (s : State) (g : List (Nat × Nat)) (pa : Nat) : Prop :=
  ∃ p ∈ s.panels, ∃ off ∈ p.2.barriers, (∃ q ∈ g, q.1 < scratchPa p.2 off + 16 ∧ scratchPa p.2 off < q.1 + q.2) ∧
    scratchPa p.2 off ≤ pa ∧ pa < scratchPa p.2 off + 16

/-- Memory is as it was outside pieces, but for the bytes of a registered barrier object that they touch (R178). -/
def MemoryFrame (s t : State) (g : List (Nat × Nat)) : Prop :=
  ∀ pa, ¬ insideSegs g pa → ¬ insideBarrier s g pa → memGet t.mem pa = memGet s.mem pa

/-- The pieces of this device that n bytes of a context name, none where they do not translate. -/
def hereSegs (s : State) (ctx : Nat) (nd : Need) (va n : Nat) : List (Nat × Nat) :=
  match segsFor s ctx nd va n with
  | .ok g => (hereWrites s ctx g []).1
  | .error _ => []

/-- The bytes of a completion object and of a barrier object that the end of chunk k writes (R181, R185). -/
def objectSegs (s : State) (panel : Nat) (comp bar : Option Nat) (k : Nat) : List (Nat × Nat) :=
  match getPanel s panel with
  | none => []
  | some p =>
    (match comp with
      | some o => [(scratchPa p o, 1), (scratchPa p (o + 8 + k / 8), 1)]
      | none => []) ++
    match bar with
    | some b => [(scratchPa p b, 16)]
    | none => []

/-- Where chunk k of a copy lands: the tensor's pieces for `.out`, else its elements in the packed tile (R183). -/
def chunkSegs (s : State) (c : Copy) (k : Nat) : List (Nat × Nat) :=
  if c.mcast then []
  else if c.out then (tensorPieces s c k).1.flatMap fun e => (hereWrites s c.ctx e.2 []).1
  else match landPanel s c with
    | some p => (chunkElems c k).flatMap (packedPieces p c)
    | none => []

/-- Where line l of an MCAST is written for destination d (R192). -/
def lineSegsOf (s : State) (c : Copy) (l d : Nat) : List (Nat × Nat) :=
  match mcastElems s c (l / 4) with
  | .error _ => []
  | .ok es =>
    let s0 := chunkRead s c (l / 4)
    match lineSegs s0 c d ((es.filter fun e => (lineElems c l).contains e.1).map (·.1)) with
    | .error _ => []
    | .ok g => (hereWrites s0 c.ctx g []).1

/-- Where entries pushed onto a queue are spilled, one after the other (R288). -/
def spillSegs (q : Nat) (bytes : Nat → List Byte) : List Nat → State → List (Nat × Nat)
  | [], _ => []
  | l :: t, s =>
    (match tabGet s.easel q with
      | none => []
      | some e => match segsFor s e.ctx .w (e.spillBase + 32 * freeSlot e) 32 with
        | .ok g => g
        | .error _ => []) ++ spillSegs q bytes t (pushEntry s q (bytes l)).1

/-- The end of a context's save region, in which every area starts. -/
def saveEnd (c : Ctx) : Nat := c.areas.foldl (fun n a => max n a.1) (c.params.saveSize + c.extraSave)

/-- Where the save of a panel's group is written: the save regions of its contexts and the areas that its requests hold
(R337); and the barrier object at which a stopped Primer would have arrived (R332). -/
def saveSegs (s : State) (id : Nat) (p : Panel) : List (Nat × Nat) :=
  (groupPanels s id p).flatMap (fun q => match getCtx s q.2.ctx with
    | none => []
    | some c => (c.params.saveBase, saveEnd c) ::
        (((q.2.req.bind (·.area)).getD []).map fun g => (c.params.saveBase + g.1, g.2))) ++
  (((p.primer.bind (getAgent s)).bind fun a => getStroke s a.stroke).bind fun k =>
    k.arrivedAt.bind fun off => (getPanel s k.panel).map fun r => (scratchPa r off, 16)).toList

/-- A barrier object of a placed panel. -/
def objectAt (s : State) (panel off : Nat) : Option (Nat × Nat) := (getPanel s panel).map fun p => (scratchPa p off, 16)

/-- The barrier objects that are registered, and those at which agents wait or strokes have arrived: an agent that ends or
leaves its wait changes those it has to do with (R178, R180, R244, R332). -/
def barrierSegs (s : State) : List (Nat × Nat) :=
  (s.panels.flatMap fun p => p.2.barriers.filterMap (objectAt s p.1)) ++
  (s.agents.filterMap fun a => a.2.barAt.bind fun off => (getStroke s a.2.stroke).bind fun k => objectAt s k.panel off) ++
  s.strokes.filterMap fun k => k.2.arrivedAt.bind (objectAt s k.2.panel)

/-- The free granules of cores: a panel that is placed, restored or moved takes of them, zeroed (R20, R203, R240). -/
def freeSegs (s : State) (cores : List Nat) : List (Nat × Nat) :=
  cores.flatMap fun c => (freeGranules s c 1024).map fun g => (granulePa c g, 4096)

/-- The cores on which commissions and expert tasks may be placed (R239, R295). -/
def placeCores (s : State) : List Nat :=
  (s.comms.flatMap fun c => coresOf s c.2.record) ++ s.easel.flatMap fun e => coresOf s (firingRecord e.2)

/-- Where a restore writes on its core (R336): free granules, and the objects that the updates held for the panel change in
the scratchpad that it is given. -/
def restoreSegs (s : State) (v : Saved) (core : Nat) : List (Nat × Nat) :=
  let p := { v.panel with core := core, granules := (restoreScratch s v core []).2.2 }
  freeSegs s [core] ++ v.held.map fun h => match h with
    | .setBits off _ => (scratchPa p off, 16)
    | .pending off _ => (scratchPa p off, 16)

/-- Where a completion word is written on this device (R247). -/
def doneSegs (s : State) (ctx done : Nat) : List (Nat × Nat) :=
  match segsFor s ctx .w done 8 with
  | .ok g => match reachOf s ctx true g with
    | .here h => h
    | _ => []
  | .error _ => []

/-- The words of a completion object at `comp` for n tile bytes, where the instruction names one (R185). -/
def compAt (x : Ctxt) (has : Bool) (comp n : Nat) : List (Nat × Nat) :=
  if has then match scratchOff x.p comp (8 + 8 * ceilDiv (ceilDiv n 512) 64) with
    | some o => compSegs x.p o n
    | none => []
  else []

/-- Those of the copy whose record stands at `rec` (R184). -/
def copyComp (u : State) (x : Ctxt) (rec : Nat) (has : Bool) (comp : Nat) : List (Nat × Nat) :=
  match scratchOff x.p rec 64 with
  | some ro => compAt x has comp (layBytes (layOf ((List.range 64).map fun i => memGet u.mem (scratchPa x.p (ro + i)))))
  | none => []

/-- Where a deposit writes at its slot's home: the slot, the row's place in STAGE, and, as it completes the slot, the
output row and the NOTIFY word (R301, R358). -/
def combineSegs (s : State) (d : Deposit) : List (Nat × Nat) :=
  match segsFor s d.ctx .w d.slot 64 with
  | .error _ => []
  | .ok g => match reachOf s d.ctx true g with
    | .here h =>
      let c := combSlot (readSegs s.mem h)
      h ++ ((unitSegs s d.ctx (c.stage + 4 * d.k * c.len) (4 * c.len)).elim [] (unitHere s d.ctx)) ++
        ((rowSegs s d.ctx c.out c.len).elim [] fun l => l.flatMap (unitHere s d.ctx)) ++
        ((notifySegs s d.ctx c).elim [] (unitHere s d.ctx))
    | _ => []

/-- The pieces of memory that an instruction or a step stores to at once (R20, R178-R193, R203, R223, R240, R247, R288,
R301, R337). -/
def storesTo (i : Instr) (s : State) (g : List (Nat × Nat)) : Prop :=
  match i with
  | .writePacketAtHome id _ => ∃ k, tabGet s.packets id = some k ∧ g = packetSegs s k
  | .chunkLanded id k =>
      (∃ c, tabGet s.copies id = some c ∧ g = chunkSegs s c k ++ objectSegs s c.panel c.comp c.bar k) ∨
      (tabGet s.copies id = none ∧ ∃ c bytes, tabGet s.colls id = some c ∧ c.out = some bytes ∧
        g = hereSegs s c.ctx .we (c.dst + 512 * k) ((bytes.drop (512 * k)).take 512).length ++
          objectSegs s c.panel c.comp none k)
  | .mcastDelivery id l d _ => ∃ c, tabGet s.copies id = some c ∧
      g = lineSegsOf s c l d ++ objectSegs s c.panel c.comp c.bar l
  | .binit h a b => ∃ x0 x u vs off, WideRuns s h barPlace [addrSrc h a, srcOf b 1 2 h.lb] [] x0 x u vs ∧
      scratchOff x.p (nthVal vs 0) 16 = some off ∧ g = [(scratchPa x.p off, 16)]
  | .bar h a => ∃ x0 x u vs off p, WideRuns s { h with sw := true } barPlace [addrSrc h a] [] x0 x u vs ∧
      scratchOff x.p (nthVal vs 0) 16 = some off ∧ getPanel u x.st.panel = some p ∧ g = [(scratchPa p off, 16)]
  | .pub h _ a => ∃ x0 x u vs r, WideRuns s h chanPlace [srcOf a 1 1 h.la] [] x0 x u vs ∧
      (u.regions.find? fun q => q.ctx == x.p.ctx && q.num == nthVal vs 0) = some r ∧ g = r.segs
  | .eqpush h d e q => ∃ x0 x u vs,
      TaskRuns s h (fun _ => false) [srcOf (.v e) 8 1 h.la, srcOf q 1 2 h.lb] (pushDst d) [1] x0 x u vs ∧
      let lanes := activeMask x0.a h.km
      g = spillSegs (val vs 1 ((lowestLane lanes x.w).getD 0)) (fun l => bytesOf 32 (val vs 0 l)) (laneList lanes x.w) u
  -- CPY, BARX, MCAST and COLL zero their completion objects; BARX adds to PENDING
  | .cpy h _ _ a b c => ∃ x0 x u vs, WideRuns s h cpyPlace (cpySrcs h a b c) [] x0 x u vs ∧
      g = copyComp u x (nthVal vs 0) (!isSz c) (nthVal vs 2)
  | .barx h _ _ d a b c => ∃ x0 x u vs,
      WideRuns s h { meld := false } (cpySrcs h a b c ++ [srcOf d 2 0 false]) [] x0 x u vs ∧
      g = copyComp u x (nthVal vs 0) (!isSz c) (nthVal vs 2) ++
        ((scratchOff x.p (nthVal vs 3) 16).map fun o => (scratchPa x.p o, 16)).toList
  | .mcast h _ a b c => ∃ x0 x u vs,
      WideRuns s h { meld := false } [addrSrc h a, srcOf b 2 2 h.lb, srcOf c 2 3 h.lc] [] x0 x u vs ∧
      g = copyComp u x (nthVal vs 0) (!isSz c) (nthVal vs 2)
  | .coll h a c => ∃ x0 x u v vs ps bs, WideRuns s h chanPlace [addrSrc h a, srcOf c 2 3 h.lc] [] x0 x u vs ∧
      placeAll u x x0.a.em .one .r [{ lane := 0, addr := (nthVal vs 0 : Int), n := 32, align := 8 }] = .ok ps ∧
      readNow u x x0.a.em ps = .ok (v, bs) ∧
      let f := fun o k => ofBytes ((bs.drop o).take k)
      g = compAt x (!isSz c) (nthVal vs 1) (collBytes (f 24 1 % 16) (f 16 4) (collN x.c.record (f 25 1)))
  -- the end of an agent, a stop and a withdrawn wait change barrier objects alone
  | .exit _ | .tyld .. | .preemptRequest .. | .preemptBoundExpiry _ | .starvationExpiry _ => g = barrierSegs s
  -- a placement, a firing, a task stroke, a restore and a donation take free granules
  | .panelPlacement _ | .easelFiring _ => g = freeSegs s (placeCores s)
  | .taskStrokeStart core | .stealRequest core => g = freeSegs s [core]
  | .panelRestore id => ∃ v, tabGet s.saved id = some v ∧ g = (restoreCore s v).elim [] (restoreSegs s v)
  | .panelRetire id => ∃ p, getPanel s id = some p ∧ let u := dropPanel s id p
      g = freeSegs u (placeCores u)
  | .commissionRetire id => ∃ c, getComm s id = some c ∧
      let w := writeCompletion s c.ctx c.source c.record.done c.tag (if c.ended then 3 else 0) 0
      -- with its own completion word, that of a pending instance that is refused as it starts
      g = doneSegs s c.ctx c.record.done.toNat ++ (match c.source with
        | .table n => ((tabGet s.tt n).bind fun e => e.pending.map fun bs => doneSegs { w with comms := tabDel w.comms id } e.cfg.ctx (recNat bs 80 8)).getD []
        | _ => [])
  | .commissionLaunch n => ∃ q, tabGet s.cqueues n = some q ∧
      g = (q.reg.qcb.toNat, 64) :: match queueHead s q with
        | .record bs => doneSegs { s with freeN := s.freeN + 264 } q.reg.ctx (recNat bs 80 8)
        | _ => []
  | .combineDeposit id => ∃ d, tabGet s.deposits id = some d ∧
      g = combineSegs { s with deposits := tabDel s.deposits id } d
  | .panelSave id => ∃ p, getPanel s id = some p ∧ g = saveSegs s id p
  | .rdmaWrite ctx qp va bytes =>
      g = match qpCtx s ctx qp with
        | some c => hereSegs s c.id .we va.toNat bytes.length
        | none => []
  | _ => False

/-- A trap can be entered: the agent is no Primer, is in no handler, has no outstanding result and no late fault, and
its vector can be fetched (R324-R327). -/
structure CanEnter (s : State) (aid : Nat) (a : Agent) (t : Trap) : Prop where
  agent : getAgent s aid = some a
  quiet : hasResults s aid = false ∧ a.late = none
  place : a.primer = false ∧ a.handler = false
  vector : agentTvbase s a ≠ 0 ∧
    ∃ w, fetchWord s (agentCtx s a) ((agentTvbase s a).toNat + 8 * t.cause.code) = .ok w

/-- Encoding loses nothing, and the decoder reads back what the encoder wrote. -/
def RoundTrip (i : Instr) : Prop :=
  ∃ w : Words, encode i = some w ∧ w.1 < 2 ^ 64 ∧ w.2 < 2 ^ 64 ∧ decode w.1 w.2 = .ok i

/-- A word with what it encodes: the first word, the extension word (0 where there is none), the instruction. -/
abbrev WordCase := Nat × Nat × Instr

/-- A header: mask selector and last-read bits. -/
def hdr (km : Nat := 0) (la lb lc : Bool := false) : Hdr := { sw := false, km := km, la := la, lb := lb, lc := lc }

/-- Words of the worked examples of spec/02_encoding.md, spec/05_alu_instructions.md and spec/14_divergence.md. KPOP and
CVT are put together from their rows (R31, R100, R110). -/
def aluWords : List WordCase :=
  [(0x0000000000000000, 0, .nop false), (0x8000000000000000, 0, .nop true), (0x0400000000000000, 0, .land false),
   (0x0110000000001800, 0, .brzMask false 2 3), (0x03807FFFFFFFF004, 0, .loop false 4 (-2)),
   (0x0300000000000000, 0, .exit false),
   (0x1700B10000000600, 3, .movi (hdr) .b64 (.s 4) 3), (0x1700804000000580, 0, .movi (hdr) .b32 (.v 1) 0),
   (0x0804804020000180, 2, .iadd (hdr 0 true) .i32 (.v 1) (.v 1) (.imm 2)),
   (0x081A004040300180, 0, .iadd (hdr 3 false true) .i32 (.v 1) (.v 2) (.v 3)),
   (0x0B032C800B058980, 0, .imad (hdr 0 false true true) .i32 (.v 0xB2) (.v 0) (.v 0xB0) (.v 0xB1)),
   (0x1278AC9640000580, 1, .shl (hdr 15) .b32 (.v 0xB2) (.v 0xB2) (.imm 1)),
   (0x19820100A0603E82, 0, .ffma (hdr 0 false true) .f32 ⟨false, false, .rup⟩ (.v 4) (.v 5) (.v 6) (.v 7)),
   (0x3280850140000185, 6, .topk (hdr) .i32 5 20 (.v 10) (.imm 6)),
   (0x50 * 2 ^ 55 + 1 * 2 ^ 38 + 2 * 2 ^ 29 + 3 * 2 ^ 7 + (0xD * 8 + 1), 0, .cvt (hdr) .i32 .f32 .rtz (.v 1) (.v 2)),
   (0x72 * 2 ^ 55 + (0xC0 + 5) * 2 ^ 38 + 2 * 2 ^ 29, 0, .kpop (hdr) 5 (.k 2)),
   (0x0600000020200000, 0, .meld false false (.k 1) (.k 2)), (0x0680000000000000, 0, .mend false),
   (0x070002C140A05800, 0, .path false 0 10 10 11 11), (0x0500000000003180, 0, .split false 3 0 6),
   (0x0580000000000000, 0, .join false 0), (0x0484000100000001, 0, .brx false true 1 (.v 8))]

/-- Words of the worked examples of the other files. -/
def engineWords : List WordCase :=
  [(0x400081189FF61080, 0x40, .ld (hdr) 2 false (.v 4) ⟨.s 4, none, some 0x40, .acq, .pkg, 2, .norm⟩),
   (0x498080000000000D, 1, .fence (hdr) .acq .die (.imm 1)),
   (0x500000182CB66002, 0, .cpy (hdr) false .pnl (.s 1) (.s 11) (.s 12)),
   (0x5400001880062800, 0, .coll (hdr) (.s 4) (.s 5)),
   (0x588080196090400E, 0x108, .mxld (hdr) 0 8 11 (.v 9) 8 ⟨false, 0, 0, 264⟩),
   (0x598000010C57F800, 0, .mma (hdr) 0 0 8 5 63),
   (0x6300351AAD66B801, 0, .sand (hdr) (some 23) (.s 20) (.s 21) (.s 22)),
   (0x6508011A8FF00008, 0, .sitr (hdr 1) 8 4 (.s 20) (.s 63)),
   (0x6600801A80000001, 0, .sinfoPin (hdr) (.s 20) (.imm 0)),
   (0x680A061A41400000, 0, .tspawn (hdr 1 false true) 24 (.s 18) (.v 20)),
   (0x69B0800100000000, 0, .eqpush (hdr 6) none 8 (.imm 0)),
   (0x6A80B25940000003, 0, .eqcfg (hdr) 4 9 10 (.imm 0)),
   (0x6A080019C1C0B000, 0, .eqcomb (hdr 1) 0 (.s 14) 28 22),
   (0x720000188C500000, 0, .tlbiRng (hdr) 4 (.s 5)), (0x7000800000000000, 0x12, .trap (hdr) (.imm 0x12)),
   (0x7300800000000000, 0, .halt (hdr) (.imm 0)), (0x7080000000000000, 0, .rtt false),
   (0x71000018A0000000, 0, .pdone (hdr) 5), (0x7180B18000000000, 0x403, .ckpt (hdr) 6 (.imm 0x403)),
   (0x3A80001A60000021, 0, .swr (hdr) .tpc (.s 19))]

end Sys2Proof.Claims
end

