-- ==== Sys2Proof/Claims/Manage.lean ====
section
/-! DEFINITION. What each request of the device manager does when it is answered (spec/19_health.md R348-R356;
spec/16_isolation.md R305-R320; spec/13_commissions.md R245-R248). -/

namespace Sys2Proof.Claims
open Sys2Proof Sys2Proof.Machine

/-- A request: its name in the reply, whether it is answered in ROM and RECOVER too, the key that signed
it where it must be signed (R356), and its effect with the values and bytes of the reply; none where the request is
refused. -/
structure Request where
  name : String
  early : Bool := false
  signer : Option (Option MgmtKey)
  effect : State → Option (State × List Nat × List Byte)

/-- A request whose reply says only that it is done. -/
def done (f : State → Option State) (s : State) : Option (State × List Nat × List Byte) := (f s).map fun t => (t, [], [])

def setJuran (s : State) (j : Juran) : State := { s with juran := j }

/-- Requests about the device itself (R348-R356). -/
def deviceRequest : Instr → Option Request
  | .identity => some
      { name := "IDENTITY", early := true, signer := none
        effect := fun s => some (s, [fwVersion s.juran, powerCode s.juran.power], identityBytes) }
  | .status => some
      { name := "STATUS", early := true, signer := none
        -- the temperature is a free value
        effect := fun s => some ({ s with freeN := s.freeN + 1 },
          [powerCode s.juran.power, fwVersion s.juran, if s.juran.ptpLocked then 1 else 0, (Config.freeValue 16 s.freeN).toNat] ++
            spareStock s.juran, identityBytes) }
  | .logread g seq => some
      { name := "LOGREAD", signer := some g
        effect := fun s => some (s, [max seq s.juran.logBase, s.juran.lost],
          (s.juran.log.drop (seq - s.juran.logBase)).flatMap logBytes) }
  | .logclear g => some
      { name := "LOGCLEAR", signer := some g
        effect := done fun s => some (setJuran s
          { s.juran with log := [], lost := 0, logBase := s.juran.logBase + s.juran.log.length }) }
  | .counters g => some
      { name := "COUNTERS", signer := some g
        effect := fun s => some (s, s.juran.counts.flatMap fun c => [c.1.cls, c.1.num, c.2], []) }
  | .thresh g u v => some
      { name := "THRESH", signer := some g
        effect := done fun s => if v = 0 then none else
          let n := unitCount s u
          let t := setJuran s { s.juran with thresholds := assocPut s.juran.thresholds u v.toNat }
          some (if n < unitThreshold s u ∧ v.toNat ≤ n then addLog t 0 (thresholdKind u) u 0 n else t) }
  | .margin g u v => some
      { name := "MARGIN", signer := some g
        effect := done fun s => some (setJuran s { s.juran with margins := assocPut s.juran.margins u v }) }
  | .mgmtFence g core => some
      { name := "FENCE", signer := some g
        effect := done fun s => if 256 ≤ core then none else some (setJuran s
          { s.juran with fenced := if core ∈ s.juran.fenced then s.juran.fenced else core :: s.juran.fenced }) }
  | .unfence g core => some
      { name := "UNFENCE", signer := some g
        effect := done fun s => if 256 ≤ core then none else some (setJuran s
          { s.juran with fenced := s.juran.fenced.filter fun c => c != core }) }
  | .tilemap g core => some
      { name := "TILEMAP", signer := some g
        effect := done fun s =>
          if s.juran.power ≠ .bist ∧ tileFree s core = true ∧ core ∉ s.juran.tiles ∧
              (s.juran.tiles.filter fun c => c / 128 == core / 128).length < 8 then
            let t := zeroRange s (sliceBase core) (48 * 2 ^ 20)
            some (setCore (setJuran t { s.juran with tiles := core :: s.juran.tiles }) core {})
          else none }
  | .bankmap g core b => some
      { name := "BANKMAP", signer := some g
        -- the layer's one spare is left, and the bank is not spared yet, in the tile that now bears the number
        effect := done fun s =>
          let p : TilePlace := { core := core, spare := s.juran.tiles.contains core }
          if s.juran.power ≠ .bist ∧ tileFree s core = true ∧ b.layer < 3 ∧
              (∀ e ∈ s.juran.banks, e.1 = p → e.2.layer ≠ b.layer ∧ e.2.bank ≠ b.bank) then
            some (setJuran s { s.juran with banks := (p, b) :: s.juran.banks })
          else none }
  | .image g img => some
      { name := "IMAGE", early := true, signer := some g
        effect := done fun s => some (setJuran s
          { s.juran with slots := s.juran.slots.set (1 - s.juran.active) (some img), update := true }) }
  | .reset g => some { name := "RESET", signer := some g, effect := done fun s => some (resetDevice s) }
  | _ => none

/-- A request about a live context. -/
def ctxEffect (id : Nat) (f : State → Ctx → Option State) : State → Option (State × List Nat × List Byte) :=
  done fun s => (liveCtx s id).bind (f s)

/-- The memory that a context is created with: its grants and the backing of its set store (R305). -/
def given (p : CtxParams) : List Range := ⟨p.setBackBase, p.setBacking⟩ :: p.grants

/-- Requests about contexts, queues and the table (R245-R248, R305-R320). -/
def contextRequest : Instr → Option Request
  | .createContext g p => some
      { name := "CREATE_CONTEXT", signer := some g
        effect := done fun s => if s.juran.power = .ready ∧ paramsOk p = true ∧ idFree s p.ctxid = true ∧
            -- memory of a killed context is handed on only when it is freed (R314)
            (∀ r ∈ given p, heldMemory s r = false) then
          -- every byte assigned to the context is zeroed
          some (setCtx ((given p).foldl (fun u r => zeroRange u r.base r.size) s) p.ctxid
            { id := p.ctxid, params := p, digest := firstDigest s.juran p })
          else none }
  | .extendGrants g id r => some
      { name := "EXTEND_GRANTS", signer := some g
        effect := ctxEffect id fun s c =>
          if r.base % 4096 = 0 ∧ r.size % 4096 = 0 ∧ c.params.grants.length + c.extraGrants.length < 16 ∧
              heldMemory s r = false then
            some (setCtx (zeroRange s r.base r.size) id { c with extraGrants := c.extraGrants ++ [r] })
          else none }
  | .enlargeSaveRegion g id size => some
      { name := "ENLARGE_SAVE_REGION", signer := some g
        -- larger than it is, an LPDDR-6 range within the grants
        effect := ctxEffect id fun s c => if c.params.saveSize + c.extraSave ≤ size ∧
            (size = 0 ∨ lpddrRange c.params.saveBase size = true ∧
              ∃ g ∈ c.params.grants ++ c.extraGrants, g.base ≤ c.params.saveBase ∧
                c.params.saveBase + size ≤ g.base + g.size) then
          some (setCtx s id { c with extraSave := size - c.params.saveSize }) else none }
  | .registerCommissionQueue g n r => some
      { name := "REGISTER_COMMISSION_QUEUE", signer := some g
        effect := ctxEffect r.ctx fun s _ =>
          if n < 256 ∧ (∀ q, tabGet s.cqueues n = some q → q.reg.ctx = r.ctx) then
            some (setQcb { s with cqueues := tabPut s.cqueues n { reg := r } } { reg := r } 12 1 1)
          else none }
  | .unregisterCommissionQueue g n => some
      { name := "UNREGISTER_COMMISSION_QUEUE", signer := some g
        effect := done fun s => (tabGet s.cqueues n).map fun q =>
          let t := if q.reading then faultQueue s n q 5 none else s
          { t with cqueues := tabDel t.cqueues n } }
  | .writeTtEntry g n e => some
      { name := "WRITE_TT_ENTRY", signer := some g
        effect := done fun s =>
          if n < 256 ∧ 1000 ≤ e.period ∧ e.period ≤ 2 ^ 40 ∧ e.phase < e.period ∧ e.policy < 3 ∧ e.ctx < 4096 ∧
              e.skipped < 2 ^ 32 then some (armEntry s n e) else none }
  | .setExportWindow g id w => some
      { name := "SET_EXPORT_WINDOW", signer := some g
        -- 4-KiB pages of SRAM or LPDDR-6, the 16th window at most, and none that is set is touched
        effect := ctxEffect id fun s c =>
          if w.obase % 4096 = 0 ∧ w.osize % 4096 = 0 ∧ w.osize ≠ 0 ∧ windowLocal w = true ∧ c.windows.length < 16 ∧
              (∀ v ∈ c.windows, w.obase + w.osize ≤ v.obase ∨ v.obase + v.osize ≤ w.obase) then
            some (setCtx s id { c with windows := c.windows ++ [w] })
          else none }
  | .assignEaselQueues g id qs => some
      { name := "ASSIGN_EASEL_QUEUES", signer := some g
        effect := ctxEffect id fun s _ => if ∀ q ∈ qs, q ≤ 1023 ∧ tabGet s.easel q = none then
          some { s with easel := qs.foldl (fun m q => tabPut m q { ctx := id }) s.easel } else none }
  | .configureEgressChannel g id chan e => some
      { name := "CONFIGURE_EGRESS_CHANNEL", signer := some g
        effect := ctxEffect id fun s c => if chan < 16 ∧ isPow2 e.slots = true ∧ tabGet c.egress chan = none then
          some (setCtx s id { c with egress := tabPut c.egress chan { cfg := e } }) else none }
  | .resetChunkPool g id => some
      { name := "RESET_CHUNK_POOL", signer := some g
        effect := ctxEffect id fun s c => if (s.comms.any fun m => m.2.ctx == id) = true then none else
          let n := c.params.poolSize
          some (setCtx (zeroPages id (n / 4096 + 2) c.params.poolBase n s) id { c with chunks := 0 }) }
  | .endCommission g id => some
      { name := "END_COMMISSION", signer := some g
        effect := done fun s => (getComm s id).map fun c =>
          let t1 := (s.panels.filter fun p => p.2.comm == id).foldl (fun u p => dropPanel u p.1 p.2) s
          let mine := t1.saved.filter fun v => v.2.comm == id
          let t2 := mine.foldl (fun u v => freeArea u v.2.ctx (some v.2.area)) t1
          setComm { t2 with
            saved := tabFilter (fun _ v => v.comm != id) t2.saved
            easel := tabMap (fun _ e => if mine.any fun v => (e.pull.map (·.1)) == some v.1 then { e with pull := none } else e)
              t2.easel
            cores := tabMap (fun _ k => { k with tasks := k.tasks.filter fun x => x.comm != id }) t2.cores } id
            { c with unplaced := [], ended := true } }
  | .measureIntoContext g id bytes => some
      { name := "MEASURE_INTO_CONTEXT", signer := some g
        effect := ctxEffect id fun s c => some (setCtx s id
          { c with digest := sha256 (beBytes 32 c.digest.toNat ++ beBytes 32 (sha256 bytes).toNat) }) }
  | .attestationReport g id nonce => some
      { name := "ATTESTATION_REPORT", signer := some g
        effect := fun s => (liveCtx s id).map fun c =>
          let key := bootKeyOf s
          let b := reportBytes s c nonce
          (s, [], b ++ beBytes 64 (Config.ecdsaSign key (sha256 b)).toNat ++ Config.certificate 0 Config.identityKey ++
            Config.certificate Config.identityKey key) }
  | _ => none

/-- A request that is answered: in ROM and RECOVER only where it is answered there, with no repair, retraining or killing under
way. One without a signature by an enrolled key and a refused one have no effect and a reply that says so. -/
def answerRule (q : Request) (s t : State) : Prop :=
  (q.early = true ∨ s.juran.power ≠ .rom ∧ s.juran.power ≠ .recover) ∧ busy s = false ∧
  let allowed := match q.signer with
    | none => true
    | some key => enrolled s key
  t = match allowed, q.effect s with
    | true, some r => report r.1 (.reply q.name true r.2.1 r.2.2)
    | _, _ => report s (.reply q.name false [] [])

/-- ROWMAP, CHANMAP, LANEMAP and KILL_CONTEXT start; their replies follow when they are complete (R314, R350-R352, R356). KILL_DRAIN_COMPLETE
releases a killed context with nothing outstanding: the lines of its data and its instructions and its translations go,
and its queue-pair bindings with what else it held (R314 step 4). -/
def laterRule (i : Instr) (s t : State) : Prop :=
  let starts := s.juran.power ≠ .rom ∧ s.juran.power ≠ .recover ∧ s.juran.power ≠ .bist ∧ busy s = false
  match i with
  | .rowmap g core bank row column => starts ∧ enrolled s g = true ∧ core < 256 ∧
      let b := bankNow s.juran core bank
      let r : Repair := .row b row column
      r ∉ s.juran.rows ∧ (s.juran.rows.filter fun a => sameBank a b column).length < (if column then 16 else 64) ∧
      t = { s with juran := { s.juran with repairs := tabPut s.juran.repairs s.fresh r }, fresh := s.fresh + 1 }
  | .chanmap g chan => starts ∧ enrolled s g = true ∧ chan < 64 ∧ (∀ c ∈ s.juran.chans, c / 32 ≠ chan / 32) ∧
      t = { s with juran := { s.juran with repairs := tabPut s.juran.repairs s.fresh (.chan chan) }, fresh := s.fresh + 1 }
  | .lanemap g l => starts ∧ enrolled s g = true ∧ l.port < 48 ∧ l.lane < 4 ∧ (∀ m ∈ s.juran.lanes, m.port ≠ l.port) ∧
      t = { s with juran := { s.juran with retrain := [(l, s.cycle)] } }
  | .killContext g id => starts ∧ enrolled s g = true ∧ ∃ c, liveCtx s id = some c ∧
      t = setCtx (stopContext s id) id { c with killed := some s.cycle }
  | .killDrainComplete id => ∃ c n, getCtx s id = some c ∧ c.killed = some n ∧ c.drained = false ∧ ctxQuiet s id = true ∧
      let s1 := { s with
        cores := tabMap (fun _ k => { k with
          near := k.near.filter fun l => l.ctx != id
          recent := k.recent.filter fun l => l.ctx != id
          icache := k.icache.filter fun l => l.1 != id
          tags := tabFilter (fun _ g => g.1 != id) k.tags }) s.cores
        qps := tabFilter (fun _ c => c != id) s.qps
        regions := s.regions.filter fun r => r.ctx != id
        cqueues := tabFilter (fun _ q => q.reg.ctx != id) s.cqueues
        easel := tabFilter (fun _ e => e.ctx != id) s.easel }
      t = complete (setCtx s1 id { c with tlb := [], sets := [], windows := [], egress := [], areas := [], drained := true })
        "KILL_CONTEXT"
  | _ => False

end Sys2Proof.Claims
end

