-- ==== Sys2Proof/Claims/Matrix.lean ====
section
/-! DEFINITION. What the rules of spec/06_matrix.md R111-R131 say that each matrix instruction leaves, and the
completion of an operand fill and of an image read. -/

namespace Sys2Proof.Claims
open Sys2Proof Sys2Proof.Machine

/-- The current agent's matrix instruction passes the checks of R121, its panel holding the core's matrix state `m`. -/
def MatRuns (s : State) (h : Hdr) (srcs : Nat → List Src) (refs : List Ref) (uni : List Nat) (x0 x : Ctxt) (u : State)
    (m : Matrix) (vs : List (Nat → Nat)) : Prop :=
  theCtxt s = some x0 ∧ matGather s x0 h (srcs x0.w) refs uni = .ok (u, x, m, vs)

/-- As `MatRuns`, for an instruction on a tile that no earlier image read still writes (R114). -/
def TileRuns (s : State) (h : Hdr) (tile : Nat) (srcs : List Src) (refs : List Ref) (x0 x : Ctxt) (u : State)
    (m : Matrix) (vs : List (Nat → Nat)) : Prop :=
  MatRuns s h (fun _ => srcs) refs [] x0 x u m vs ∧ tileBusy u x.p.core tile = false

/-- The one format word of the active lanes is the legal word w (R84, R118). -/
def WordIs (x : Ctxt) (lanes : Mask) (v : Nat → Nat) (w : Nat) : Prop :=
  w = v (((laneList lanes x.w).head?).getD 0) % 2 ^ 32 ∧ (∀ l ∈ laneList lanes x.w, v l % 2 ^ 32 = w) ∧ wordOk w = true

/-- The rules of a descriptor that depend on the format (R117). -/
def DescIs (f : Nat) (d : MDesc) : Prop :=
  (d.split = true → f = 2 ∧ d.stride.toNat % 32 = 0) ∧ (d.split = false → d.sofs = 0)

/-- GANG (R115): 0 leaves the gang; another value names two to six strokes of the panel, the issuing one among them. -/
def GangList (x : Ctxt) (v : Nat) : Prop :=
  v < 2 ^ 32 ∧ (v ≠ 0 → (let n := (gangList v).length
    2 ≤ n ∧ n ≤ 6) ∧ v < 2 ^ x.p.strokes.length ∧ bitAt v x.st.idx = true ∧ classOf x.c.record 1 ≠ 2 ∧ x.p.task = false)

/-- The state in which the joint MMA of the members `g` runs to its end: R122's conditions hold, the word `w` is legal,
nothing stored holds an error, and `ts` are the tiles after every step of R123, none of which a pre-emption under way
stops (R124). -/
def JointRuns (u : State) (m : Matrix) (g : List (Nat × Member)) (w : Nat) (ts : Tab Tile) : Prop :=
  ∃ p e rest ha, g = (p, e) :: rest ∧ tabGet m.halves e.half = some ha ∧ voteFail m g = none ∧
    let slot := fun (p : Nat) => (tabGet m.slots p).getD { fmt := 0, ks := 0, rows := [], scales := [] }
    w = ((e.word.head?).getD 0).toNat ∧ wordOk w = true ∧ ha.err = none ∧ (∀ q ∈ g, (slot q.1).err = none) ∧
    runSteps w ha slot ((List.range ha.ks).flatMap fun j => g.map fun q => (j, q.1, q.2)) (stepsLeft u m) m.tiles =
      (ts, .finished)

/-- What it leaves: the tiles with KDONE back at 0 and EACC recorded, the rendezvous free, every member past its MMA. -/
def jointDone (u : State) (core : Nat) (m : Matrix) (g : List (Nat × Member)) (w : Nat) (ts : Tab Tile) : State :=
  commitMembers (putMatrix u core
    { m with tiles := g.foldl (fun v q => tabPut v q.2.tile { withEacc w ((tabGet v q.2.tile).getD {}) with kdone := 0 }) ts
             latch := none }) g

def gangRule (i : Instr) (s t : State) : Prop :=
  match i with
  | .gang h a => ∃ x0 x u m vs w, MatRuns s h (fun _ => [srcOf a 1 1 h.la]) [] [0] x0 x u m vs ∧
      let lanes := activeMask x0.a h.km
      let v := val vs 0 ((lowestLane lanes x.w).getD 0)
      let u1 := if v = x.st.gang.toNat then u else leaveGang u x.st.panel x.p.core x.st.idx
      let u2 := match getStroke u1 x.a.stroke with
        | some k => setStroke u1 x.a.stroke { k with gang := BitVec.ofNat 32 v }
        | none => u1
      GangList x v ∧ commitRegs u2 { x with st := (getStroke u2 x.a.stroke).getD x.st }
        { sw := h.sw, size := Machine.sizeOf a, srcs := [srcOf a 1 1 h.la] } lanes {} = .ok w ∧ t = clearWait w x.aid
  | _ => False

/-- MXLD and MXLB start a fill of a half or of a slot, whose rows translate (R117-R119). -/
def fillRule (i : Instr) (s t : State) : Prop :=
  match i with
  | .mxld h half n base idx fw ds => ∃ x0 x u m vs u2 x2 two w v z,
      MatRuns s h (mxldSrcs h idx fw) [.s base 1] [] x0 x u m vs ∧
      let lanes := activeMask x0.a h.km
      (∀ k, idx = .v k → x.w = 32 → k < 0xBF) ∧ gangPos x.st.gang.toNat x.st.idx = 0 ∧
      WordIs x lanes (val vs ((mxldSrcs h idx fw x0.w).length - 1)) w ∧ n ≤ 8 ∧ (wAfmt w = 1 → n ≤ 4) ∧
      (u2, x2) = (match idx with
        | .peek c => if x.w = 32 then pullGroup u x c 2 else (u, x)
        | _ => (u, x)) ∧
      secondPeek u2 x2 lanes idx = .ok two ∧ DescIs (wAfmt w) ds ∧
      startFill u2 x2 lanes false half (wAfmt w) n (sReg x2.a base).toNat ds (rowIndex x2.w idx vs two) = .ok v ∧
      commitRegs v x2 { sw := h.sw, size := 16, srcs := mxldSrcs h idx fw x0.w } lanes {} = .ok z ∧
      t = clearWait z x.aid
  | .mxlb h slot n base fw ds => ∃ x0 x u m vs w ps z,
      MatRuns s h (fun _ => [srcOf (.v fw) 1 3 h.lc]) [.s base 1] [] x0 x u m vs ∧
      let lanes := activeMask x0.a h.km
      WordIs x lanes (val vs 0) w ∧ n ≤ 8 ∧ DescIs (wBfmt w) ds ∧
      placeAll u x lanes .one .r ((List.range 64).flatMap fun r =>
        rowAccs (wBfmt w) n ds (sReg x.a base).toNat r r) = .ok ps ∧
      let q : Fill :=
        { agent := x.aid, po := x.po, stroke := x.a.stroke, panel := x.st.panel, core := x.p.core, ctx := x.p.ctx, isB := true
          idx := slot, fmt := wBfmt w, ks := n, str := ds.str, rows := (List.range 64).map (rowPieces ps)
          places := ps.map fun p => (p.va, p.segs)
          -- an MX block that lies in more than one line is read whole, at its homes (R232)
          pubs := (ps.filter (·.pub)).flatMap (·.segs) ++ blockPieces (wBfmt w) ((List.range 64).map (rowPieces ps))
          base := (sReg x.a base).toNat
          stride := ds.stride.toNat, before := x.a.before, born := u.cycle }
      commitRegs { u with fills := tabPut u.fills u.fresh q, fresh := u.fresh + 1 } x
        { sw := h.sw, size := 16, srcs := [srcOf (.v fw) 1 3 h.lc] } lanes {} = .ok z ∧ t = clearWait z x.aid
  | .operandFillComplete id => ∃ f c m, tabGet s.fills id = some f ∧ fillReady s id f = true ∧
      unitRefused s f.ctx (fillSegs f) = false ∧
      let r := filled { s with fills := tabDel s.fills id } f
      c = getCore r.1 f.core ∧ c.matrix = some m ∧
      -- what was read reaches no other panel's operands
      t = if m.owner ≠ f.panel then r.1 else setCore r.1 f.core (if f.isB then
        { c with matrix := some { m with slots := tabPut m.slots f.idx r.2 }
                 tags := tabPut c.tags f.idx (f.ctx, f.base, f.stride) }
      else { c with matrix := some { m with halves := tabPut m.halves f.idx r.2 } })
  | _ => False

/-- MMA (R116, R122, R123): alone, or as the last member of its gang to arrive, it runs the joint multiplication. -/
def mmaRule (i : Instr) (s t : State) : Prop :=
  match i with
  | .mma h half tile fw skip kbase => ∃ x0 x u m vs ms w ts,
      MatRuns s h (fun _ => [srcOf (.v fw) 1 1 h.la]) [.s skip 2, .s kbase 3] [] x0 x u m vs ∧
      let e : Member :=
        { agent := x.aid, tile := tile, half := half
          word := (laneList (activeMask x0.a h.km) x.w).map fun l => BitVec.ofNat 32 (val vs 0 l)
          skip := sReg x.a skip, kbase := sReg x.a kbase, list := x.st.gang.toNat, vf := fw, last := h.la }
      let g := byPosition u e.list (ms ++ [e])
      namesExited u x e.list = false ∧
      ((m.latch = none ∧ e.list = 0 ∧ ms = []) ∨
       (m.latch = some (e.list, ms) ∧ bitAt e.list x.st.idx = true ∧ ms.length + 1 = (gangList e.list).length)) ∧
      operandsBusy u x.p.core g = false ∧ JointRuns u m g w ts ∧ t = clearWait (jointDone u x.p.core m g w ts) x.aid
  | _ => False

/-- MXZ, MXDR.stat and MXDR (R113, R125, R126). -/
def drainRule (i : Instr) (s t : State) : Prop :=
  match i with
  | .mxz h tile => ∃ x0 x u m vs, TileRuns s h tile [] [] x0 x u m vs ∧
      t = clearWait (stepPc (putTile u x.p.core m tile {}) x.aid 8) x.aid
  | .mxdrStat h tile d => ∃ x0 x u m vs w, TileRuns s h tile [] [.s d 0] x0 x u m vs ∧
      let k := tileOf m tile
      let word := k.kdone % 16 + (if k.ovf then 2 ^ 8 else 0) + (if k.inexact then 2 ^ 9 else 0) +
        (if k.nan then 2 ^ 10 else 0) + (if k.evalid then 2 ^ 11 else 0) + wrapInt 10 k.eacc * 2 ^ 12
      commitRegs u x { sw := h.sw, size := 8, dsts := [.s d 0], late := true } (activeMask x0.a h.km)
        { s := [(d, BitVec.ofNat 64 word)] } = .ok w ∧ t = clearWait w x.aid
  | .mxdr h tile d fw scales pos => ∃ x0 x u m vs w z,
      TileRuns s h tile [srcOf (.v fw) 1 1 h.la, srcOf pos 1 3 h.lc] [.s scales 2, drainDst s h d fw] x0 x u m vs ∧
      let lanes := activeMask x0.a h.km
      let row0 := val vs 1 0 % 64
      let col := val vs 1 0 / 256
      let k := tileOf m tile
      -- first row in bits 5:0, column in bits 13:8, nothing elsewhere
      val vs 1 0 % 256 < 64 ∧ col < 64 ∧ WordIs x lanes (val vs 0) w ∧ (k.evalid = true → k.eacc = wEacc w) ∧
      drainBad k row0 lanes = none ∧
      (if wRaw w then
        -- the accumulators whole, in four registers
        d % 4 = 0 ∧ d ≤ 0xBC ∧
        commitRegs u x { sw := h.sw, size := Machine.sizeOf pos, srcs := [srcOf (.v fw) 1 1 h.la], dsts := [.v d 4 0], late := true }
          lanes { v := putV x lanes d (fun i =>
            if row0 + i ≤ 63 then wrapInt 128 (((tileAcc k)[64 * (row0 + i) + col]?).getD 0) else 0) 4 } = .ok z
      else
        -- Round(Acc × 2^EACC × ta × tb) in the output format, one scale for the rows and one for the columns
        let sc := if scales = 63 then 0x3F8000003F800000 else (sReg x.a scales).toNat
        let one := drainLane x k w (wEacc w) (sc % 2 ^ 32) (sc / 2 ^ 32) row0 col
        commitRegs u x
          { sw := h.sw, size := Machine.sizeOf pos, srcs := [srcOf (.v fw) 1 1 h.la], dsts := [.v d 1 0], late := true
            bump := rndOf (wRnd w) == .rsk } lanes
          { v := putV x lanes d (fun i => (one i).1) 1, fl := orFlags (laneList lanes x.w) fun i => (one i).2 } = .ok z) ∧
      t = clearWait z x.aid
  | _ => False

/-- The 65,600 bytes of a tile's image at the register `base`, every one translated (R128). -/
def ImageAt (u : State) (x : Ctxt) (lanes : Mask) (nd : Need) (base : Nat) (segs : List (Nat × Nat)) : Prop :=
  ∃ ps, placeAll u x lanes .one nd [{ lane := 0, addr := ((sReg x.a base).toNat : Int), n := 65600, align := 64 }] = .ok ps ∧
    segs = (ps.map (·.segs)).flatten

/-- MXSAVE writes the image; MXADD and MXREST wait until it has been read, and then act on the tile (R127-R129). -/
def imageRule (i : Instr) (s t : State) : Prop :=
  let reads := fun (h : Hdr) (add : Bool) (tile base str : Nat) => ∃ x0 x u m vs segs,
    TileRuns s h tile [] [.s base 1] x0 x u m vs ∧ ImageAt u x (activeMask x0.a h.km) .r base segs ∧
    let q : ImageRead :=
      { agent := x.aid, ctx := x.p.ctx, po := x.po, add := add, tile := tile, str := str, segs := segs
        pubs := imagePubs u x.p.ctx (sReg x.a base).toNat segs, va := (sReg x.a base).toNat, before := x.a.before
        born := u.cycle }
    t = clearWait (blockAgent { u with images := tabPut u.images u.fresh q, fresh := u.fresh + 1 } x.aid .matrix) x.aid
  match i with
  | .mxadd h tile base str => reads h true tile base str
  | .mxrest h tile base str => reads h false tile base str
  | .mxsave h tile base str => ∃ x0 x u m vs segs, TileRuns s h tile [] [.s base 1] x0 x u m vs ∧
      ImageAt u x (activeMask x0.a h.km) .w base segs ∧ (tileOf m tile).bad = none ∧
      let parts := pieceParts (linePieces 2048 segs) (tileImage (tileOf m tile))
      checkRoom u x str parts.length = .ok () ∧
      let k : Packet :=
        { agent := x.aid, po := x.po, stroke := x.a.stroke, core := x.p.core, ctx := x.p.ctx, str := str, op := .write
          parts := [], before := x.a.before, born := u.cycle }
      t = clearWait (stepPc (parts.foldl (fun v p => addPacket v { k with parts := [p] }) u) x.aid 8) x.aid
  | .imageReadComplete aid => ∃ id f a m k v, imageOf s aid = some (id, f) ∧ getAgent s aid = some a ∧
      imageReady s id f = true ∧
      let ctx := agentCtx s a
      let core := agentCore s aid
      let s0 := setAgent { s with images := tabDel s.images id } aid { a with run := .ready, waitFrom := none }
      -- read as loads of the matrix unit, each line from the core's copy or at its home
      let d := readUnit core ctx f.pubs (tookAnswer s0 ctx f.segs) f.segs
      unitRefused s ctx f.segs = false ∧ unitBad s core ctx f.pubs f.segs = none ∧
      (getCore d.1 core).matrix = some m ∧ tileOfImage d.2 = some k ∧
      (if f.add then (tileOf m f.tile).bad = none ∧ addImage (tileOf m f.tile) k = some v else k.kdone ≤ 8 ∧ v = k) ∧
      t = stepPc (putTile d.1 core m f.tile v) aid 8
  | _ => False

end Sys2Proof.Claims
end

