-- ==== Sys2Proof/Certificates/Slice0/Obligations.lean ====
section
/-! DEFINITION. The statements for the provers: what the rules of the spec say the machine does. -/

open Sys2Proof Sys2Proof.Machine Sys2Proof.Claims

/-! ## Register instructions: each completes with the result its rule gives -/

/-- R90: IADD, ISUB, IADDS, IMUL, IMULH, IMAD, IMIN, IMAX, IABS, LEA, MOV and MOVI complete with their results. -/
def Obligations.IntegerArithmeticCompletes : Prop :=
  ∀ (i : Instr) (o : LaneOp), arithOp i = some o → i.WellFormed →
    ∀ (s s2 : State) (x0 x : Ctxt) (vs : List (Nat → Nat)),
      RegReady s o.reg x0 x vs s2 → exec i s = .next (regDone s2 o.reg x0 x vs)

/-- R91: IDIV and IREM complete: they never trap on their values; their results return later. -/
def Obligations.DivisionCompletes : Prop :=
  ∀ (i : Instr) (o : LaneOp), divideOp i = some o → i.WellFormed →
    ∀ (s s2 : State) (x0 x : Ctxt) (vs : List (Nat → Nat)),
      RegReady s o.reg x0 x vs s2 → exec i s = .next (regDone s2 o.reg x0 x vs)

/-- R93-R95: AND, OR, XOR, ANDN, SHL, SHR, SAR, ROT, POPC, CLZ, BREV, BFE, BFI and PRMT complete with their results. -/
def Obligations.BitInstructionsComplete : Prop :=
  ∀ (i : Instr) (o : LaneOp), bitsOp i = some o → i.WellFormed →
    ∀ (s s2 : State) (x0 x : Ctxt) (vs : List (Nat → Nat)),
      RegReady s o.reg x0 x vs s2 → exec i s = .next (regDone s2 o.reg x0 x vs)

/-- R90, R92, R98: ICMP, FCMP, IADDC and SEL complete. -/
def Obligations.CompareCarryAndChoiceComplete : Prop :=
  ∀ (i : Instr) (o : RegOp), compareOp i = some o → i.WellFormed →
    ∀ (s s2 : State) (x0 x : Ctxt) (vs : List (Nat → Nat)),
      RegReady s o x0 x vs s2 → exec i s = .next (regDone s2 o x0 x vs)

/-- R97: FADD, FSUB, FMUL, FFMA, FMIN, FMAX, FDIV, FSQRT, FRCP, FRSQ, FEX2, FLG2, FTANH, FRND and FCLASS complete, each
element rounded once, with every flag that an active lane meets (R85). The results of FEX2, FLG2 and FTANH are those of the
model's enclosures of 640 bits at most, which are presumed to settle every rounding: the model's choice (log 55). INVALID of
an FFMA of 0 × ∞ and a quiet NaN is free (log 10). -/
def Obligations.FloatArithmeticCompletes : Prop :=
  ∀ (i : Instr) (o : FloatOp), Claims.floatOp i = some o → i.WellFormed →
    ∀ (s s2 : State) (x0 x : Ctxt) (vs : List (Nat → Nat)),
      RegReady s o.reg x0 x vs s2 → exec i s = .next (regDone s2 o.reg x0 x vs)

/-- R97, R101-R103: QNT, DQNT, TPACK, TUNPK, UNPK and FDOT2 complete. The model's readings are that an UNPK of a float
element widens exactly and ignores RND (log 48), BADPACK of a DQNT under the scale 0xFF (log 61), and INVALID of an FDOT2 with
0 × ∞ beside a quiet NaN (log 126). -/
def Obligations.ConversionsComplete : Prop :=
  ∀ (i : Instr) (o : FloatOp), convertOp i = some o → i.WellFormed →
    ∀ (s s2 : State) (x0 x : Ctxt) (vs : List (Nat → Nat)),
      RegReady s o.reg x0 x vs s2 → exec i s = .next (regDone s2 o.reg x0 x vs)

/-- R97, R100, R102: FSCALE, CVT and PACK complete. That PACK out of range sets INVALID and INEXACT is the model's reading
(log 56). -/
def Obligations.ScaleConvertAndPackComplete : Prop :=
  ∀ (i : Instr) (o : RegOp), scaleOp i = some o → i.WellFormed →
    ∀ (s s2 : State) (x0 x : Ctxt) (vs : List (Nat → Nat)),
      RegReady s o x0 x vs s2 → exec i s = .next (regDone s2 o x0 x vs)

/-- R104-R109: SHFL, VOTE, LRED, LSCAN, BCAST, MATCH and TOPK complete. The model's choices are what SHFL and BCAST read of
a channel entry in an inactive lane (log 127), and a dead pair after a TOPK with k = 0 (log 128). -/
def Obligations.LaneInstructionsComplete : Prop :=
  ∀ (i : Instr) (o : RegOp), acrossOp i = some o → i.WellFormed →
    ∀ (s s2 : State) (x0 x : Ctxt) (vs : List (Nat → Nat)),
      RegReady s o x0 x vs s2 → exec i s = .next (regDone s2 o x0 x vs)

/-- R110: KOP, KMOV, KPOP and KFND complete; KOP and the forms of KMOV that write a mask act whatever lanes are active. -/
def Obligations.MaskInstructionsComplete : Prop :=
  ∀ (i : Instr) (o : RegOp), masksOp i = some o → i.WellFormed →
    ∀ (s s2 : State) (x0 x : Ctxt) (vs : List (Nat → Nat)),
      RegReady s o x0 x vs s2 → exec i s = .next (regDone s2 o x0 x vs)

/-- R46-R48: SRD, CLK and CLK.ptp complete with the register's value or the time. That CLK.ptp gives no less than the
stroke's last reading is the model's reading (log 97). -/
def Obligations.SpecialReadsComplete : Prop :=
  ∀ (i : Instr) (s : State) (o : RegOp), readOp s i = some o →
    ∀ (s2 : State) (x0 x : Ctxt) (vs : List (Nat → Nat)),
      RegReady s o x0 x vs s2 → exec i s = .next (regDone s2 o x0 x vs)

/-- R15: with no lane active, an instruction that acts on active lanes writes nothing: it frees and pops what it must and
goes on. So do the register instructions, those of memory, the atomics, those of sets and of tasks, TRAP and ERRD. -/
def Obligations.NoLaneNoEffect : Prop :=
  (∀ (i : Instr) (s : State) (o : RegOp), regOp s i = some o → i.WellFormed →
    ∀ (s2 : State) (x0 x : Ctxt) (vs : List (Nat → Nat)),
      RegIdle s o x0 x vs s2 → exec i s = .next (regIdle s2 o x0 x vs)) ∧
  ∀ (i : Instr) (s t : State), idleRule i s t → exec i s = .next t

/-! ## Control, divergence and system instructions -/

/-- R40-R45: NOP, LAND, BRA, BRZ, BRNZ, CALL, RET, LOOP and RGN complete. -/
def Obligations.BranchesComplete : Prop := ∀ (i : Instr) (s t : State), branchRule i s t → exec i s = .next t

/-- R44: EXIT ends its agent once nothing of it is outstanding. That a barrier object whose word holds an error is then left
as it is is the model's choice (log 123). -/
def Obligations.ExitCompletes : Prop := ∀ (i : Instr) (s t : State), exitRule i s t → exec i s = .next t

/-- R257-R273: MELD, MEND, PATH, SPLIT, JOIN and BRX complete. -/
def Obligations.DivergenceCompletes : Prop := ∀ (i : Instr) (s t : State), divergenceRule i s t → exec i s = .next t

/-- R46, R47: SWR completes where the privilege level may write the register. -/
def Obligations.SpecialWritesComplete : Prop := ∀ (i : Instr) (s t : State), swrRule i s t → exec i s = .next t

/-- TRAP, HALT, RTT, PDONE, CKPT, CKPT.hint, ERRD and the three TLBI complete (R328-R330, R334, R335, R313). The model's
readings are that PDONE under a drain runs on at its resume PC (log 133), and that a request without room drains (log 30);
which accesses a TLBI waits for (log 108); and when the areas of a checkpoint's save are taken (logs 30, 113). -/
def Obligations.SystemInstructionsComplete : Prop := ∀ (i : Instr) (s t : State), systemRule i s t → exec i s = .next t

/-! ## Memory, atomics and order -/

/-- R170, R171, R173: LD to a vector, a scalar or a channel, LDG and LDMX complete: each leaves an outstanding result. -/
def Obligations.LoadsComplete : Prop := ∀ (i : Instr) (s t : State), loadRule i s t → exec i s = .next t

/-- R174: PRF completes. -/
def Obligations.PrefetchCompletes : Prop := ∀ (i : Instr) (s t : State), prefetchRule i s t → exec i s = .next t

/-- R170, R172, R173, R175: ST, SCT, STMX and RED complete: their packets are on their way. What SCT scatters from a scalar
or a channel is the model's reading (log 83). -/
def Obligations.StoresComplete : Prop := ∀ (i : Instr) (s t : State), storeRule i s t → exec i s = .next t

/-- R175: ATOM, ACAS and RED.ret complete: their packets are on their way, and their result is outstanding. -/
def Obligations.AtomicsComplete : Prop := ∀ (i : Instr) (s t : State), atomicRule i s t → exec i s = .next t

/-- R176-R182: FENCE, BINIT, BAR, WAITF and WAITF_CONDITION_MET complete. That WAITF waits for no acknowledgement counter is
the model's reading (log 58). -/
def Obligations.FencesAndBarriersComplete : Prop := ∀ (i : Instr) (s t : State), syncRule i s t → exec i s = .next t

/-! ## Engines, channels, regions and collectives -/

/-- R181, R184, R192: CPY, BARX and MCAST complete: the copy is under way, its remote packets counted in stream 0 (log 57).
A copy of more packets than a counter holds starts once the counter reads zero, and counts those that fit: the model's
choice (log 96). -/
def Obligations.CopiesComplete : Prop := ∀ (i : Instr) (s t : State), copyRule i s t → exec i s = .next t

/-- R186: WAITC and TESTC complete. -/
def Obligations.CompletionWaitsComplete : Prop := ∀ (i : Instr) (s t : State), windowRule i s t → exec i s = .next t

/-- R187, R189: SREL and the six forms of SBIND complete. -/
def Obligations.ChannelInstructionsComplete : Prop := ∀ (i : Instr) (s t : State), channelRule i s t → exec i s = .next t

/-- R190, R191: PREG, PREG.drop and PUB complete. That PREG gives the lowest free number is the model's choice (log 134). -/
def Obligations.RegionInstructionsComplete : Prop := ∀ (i : Instr) (s t : State), regionRule i s t → exec i s = .next t

/-- R193: COLL completes: the participant's collective is under way. -/
def Obligations.CollectiveCompletes : Prop := ∀ (i : Instr) (s t : State), collectiveRule i s t → exec i s = .next t

/-- R185, R219, R221: CHUNK_LANDED, MCAST_DELIVERY and COLL_HOP complete where they are enabled. The model's choices are
what becomes of an update whose word holds an error (log 123), an element index of 2^32 or more (log 125), the age of a part
(log 109) and what another device answers (log 12). -/
def Obligations.EngineStepsComplete : Prop := ∀ (i : Instr) (s t : State), engineStepRule i s t → exec i s = .next t

/-! ## Matrix instructions -/

/-- R115, R116, R122-R126: GANG, MMA, MXZ, MXDR and MXDR.stat complete. An MMA completes for all members with the last of
them; a member that waits for others has not completed and is left out. That GANG begins the core's claim (log 73), when
a tile takes its EACC (log 95), and where a joint MMA stands in the core's order and stops (logs 74, 63) are the model's
readings. -/
def Obligations.MatrixInstructionsComplete : Prop :=
  ∀ (i : Instr) (s t : State), gangRule i s t ∨ mmaRule i s t ∨ drainRule i s t → exec i s = .next t

/-- R122, R123, R127-R129, R220: MXLD, MXLB, MXADD, MXREST, MXSAVE, OPERAND_FILL_COMPLETE and IMAGE_READ_COMPLETE
complete. What another device answers to a fill or an image read is free (log 12). -/
def Obligations.FillsAndImagesComplete : Prop :=
  ∀ (i : Instr) (s t : State), fillRule i s t ∨ imageRule i s t → exec i s = .next t

/-! ## Sets -/

/-- R140, R149-R161: every set instruction issues: its agent waits for the instruction's home. -/
def Obligations.SetInstructionsIssue : Prop := ∀ (i : Instr) (s t : State), setIssueRule i s t → exec i s = .next t

/-- R140, R142: SET_ACCEPTANCE completes: the instruction is under way, and its agent goes on. -/
def Obligations.SetAcceptanceCompletes : Prop := ∀ (i : Instr) (s t : State), setAcceptRule i s t → exec i s = .next t

/-- R140-R142, R156, R160, R161: SET_COMPLETION and ITERATOR_ENTRY complete. The model's choices are the exact CYCLES that
`writeSstat` gives (log 8), that an SSTORE sends its writes in parts (log 78), code 9 in segments that keys reach (log 129), the
start of an SITR from a channel (log 130), a segment with no room in the backing region (log 131) and TADDR of an SLOAD's image
(log 132). -/
def Obligations.SetPointsComplete : Prop := ∀ (i : Instr) (s t : State), setPointRule i s t → exec i s = .next t

/-- R152-R155: what the sets hold afterwards, by membership. SAND, SOR, SSUB and SXOR give their destination the keys of
the operation that its universe holds, counted in the scalar; where the storage does not fit they change no set and give
2^64 - 1. SINS and SREM add and remove their lanes' keys. SHAS and SCARD tell them. SDEL leaves no set. -/
def Obligations.SetMembership : Prop :=
  (∀ (c : Ctx) (now op hd ha hb : Nat) (d a b : SetObj), 6 ≤ op → op ≤ 9 →
    getObj c hd = some d → getObj c ha = some a → getObj c hb = some b →
    let r := runBinary c now op hd ha hb
    if r.res = setFull then r.scalar = 2 ^ 64 - 1 ∧ SameSets c r.ctx fun _ => False
    else ∃ d2, getObj r.ctx hd = some d2 ∧ d2.u = d.u ∧ (∀ k, k ∈ d2.keys ↔ k < d.u ∧ memberOf op a b k) ∧
      r.scalar = d2.keys.length ∧ (r.res = 3 ↔ ∃ k, memberOf op a b k ∧ d.u ≤ k) ∧
      (a.keys.Pairwise (· < ·) → b.keys.Pairwise (· < ·) → d2.keys.Pairwise (· < ·)) ∧
      SameSets c r.ctx fun n => handleIdx n = handleIdx hd) ∧
  (∀ (c : Ctx) (op : SetOp) (now hd : Nat) (ins : Bool) (o : SetObj), getObj c hd = some o →
    let r := runUpdate c op now hd ins
    let named := fun k => k < o.u ∧ ∃ l, (l, k) ∈ op.keys
    if r.res = setFull then r.lanes = sameLanes op.width 3 ∧ SameSets c r.ctx fun _ => False
    else ∃ o2, getObj r.ctx hd = some o2 ∧ o2.u = o.u ∧
      (∀ k, k ∈ o2.keys ↔ if ins then k ∈ o.keys ∨ named k else k ∈ o.keys ∧ ¬ named k) ∧
      SameSets c r.ctx fun n => handleIdx n = handleIdx hd) ∧
  (∀ (c : Ctx) (op : SetOp) (now hd : Nat) (o : SetObj), getObj c hd = some o →
    let r := runShas c op now hd
    let has := fun l => ∃ k, (l, k) ∈ op.keys ∧ k < o.u ∧ k ∈ o.keys
    SameSets c r.ctx (fun _ => False) ∧
    ∀ l, l < op.width → (r.lanes[l]? = some 1 ↔ has l) ∧ (r.lanes[l]? = some 0 ↔ ¬ has l) ∧
      (l < 128 → (r.kbits.getLsbD l = true ↔ has l))) ∧
  (∀ (c : Ctx) (hd : Nat) (o : SetObj), getObj c hd = some o →
    (runScard c hd).ctx = c ∧ (runScard c hd).scalar = o.keys.length) ∧
  (∀ (c : Ctx) (hd : Nat) (e : SetEntry), tabGet c.sets (handleIdx hd) = some e →
    tabGet (runSdel c hd).ctx.sets (handleIdx hd) = some { gen := if e.gen = 255 then 0 else e.gen + 1, obj := none } ∧
    getObj (runSdel c hd).ctx hd = none ∧ SameSets c (runSdel c hd).ctx fun n => handleIdx n = handleIdx hd)

/-! ## Tasks and Easel -/

/-- R279-R286: TSPAWN, TYLD and ALLOC complete. -/
def Obligations.TaskInstructionsComplete : Prop := ∀ (i : Instr) (s t : State), spawnRule i s t → exec i s = .next t

/-- R288-R292, R301: EQPUSH, EQSTAT, EQCFG and EQCOMB complete. The model's readings are the rights that EQCOMB needs, W on
the slot and R on the row, where R301 and R310 differ (log 110); the lowest free spill slot (log 43); and that a template is
judged by its record's fields alone (log 42). -/
def Obligations.EaselInstructionsComplete : Prop := ∀ (i : Instr) (s t : State), queueRule i s t → exec i s = .next t

/-- R281-R302: COMBINE_DEPOSIT, EASEL_AGE_EXPIRY, EASEL_FIRING, TASK_FORMING_TIMER, TASK_STROKE_START and STEAL_REQUEST
complete where they are enabled. A firing starts an expert task on the oldest entries of its queue (R296), and a task
stroke starts with one task in each of its lanes (R283). That a donated panel takes its scratchpad along (log 39) and where
caches are emptied at a start (log 118) are the model's readings. -/
def Obligations.EaselStepsComplete : Prop :=
  (∀ (i : Instr) (s t : State), easelStepRule i s t → exec i s = .next t) ∧
  (∀ (s : State) (die q core : Nat) (e : EQueue), nextFiring s (nextPlaced s).isSome = some (q, e, core) → q / 512 = die →
    ∃ t, exec (.easelFiring die) s = .next t ∧ Fired s q e core t) ∧
  ∀ (s : State) (core comm : Nat) (c : Comm) (ts : List Tcb), nextFiring s false = none → nextPlaced s = none →
    nextTasks s core = some (comm, c, ts) → ∃ t, exec (.taskStrokeStart core) s = .next t ∧ TaskStarted s core comm c ts t

/-! ## Steps of the device -/

/-- R21, R197-R217: RESULT_RETURN, WRITE_PACKET_AT_HOME, ACK_RECEIVED, ACKTIMEOUT, REMOTE_READ_TIMEOUT,
PACKET_AGE_DISCARD, UNCORRECTABLE_HEADER_DROP and FLIT_CRC_RETRANSMIT complete where they are enabled. The model's choices
are that an acknowledgement in stream 0 sends a copy's next packets (log 96), which packets are discarded by age and when
(log 109), and what another device answers (log 12). -/
def Obligations.PacketStepsComplete : Prop := ∀ (i : Instr) (s t : State), packetRule i s t → exec i s = .next t

/-- R238-R253: the launch, placement and retirement of commissions, and the steps of TT queues and of time, complete
where they are enabled. A placed panel starts on its core as R240 says, a saved one waits there (R336). The model's readings
are NOFIT judged by panel 0's group at launch (log 25), the instance of a time-triggered entry that counts (log 116), the
failing field of lowest offset (log 24), a wait that starts anew (log 89), the right that the write of DONE needs (log 21), the
control block of a queue (log 14) and the emptied caches of a panel that starts (log 118). -/
def Obligations.CommissionStepsComplete : Prop :=
  (∀ (i : Instr) (s t : State), commissionRule i s t → exec i s = .next t) ∧
  ∀ (s : State) (comm : Nat) (c : Comm) (a : Assign), running s = true → nextFiring s true = none →
    nextPlaced s = some (comm, a) → getComm s comm = some c →
    ∃ t, exec (.panelPlacement comm) s = .next t ∧ GroupPlaced s comm c a t

/-- R331-R339: PREEMPT_REQUEST, PANEL_SAVE, PREEMPT_BOUND_EXPIRY and PANEL_RESTORE complete where they are enabled. The
model's readings are when a bound miss is reported (log 36), the option at a tie (log 28), where and when an area is taken
(logs 29, 30, 113), the order of requests that merge (log 90), what a restored panel resumes with (logs 34, 114), whose panels
are stopped for class W work (log 99) and which accesses a save waits for (log 135). -/
def Obligations.PreemptionStepsComplete : Prop := ∀ (i : Instr) (s t : State), preemptRule i s t → exec i s = .next t

/-- R223, R224, R317-R319: EGRESS_DESCRIPTOR, RDMA_WRITE, RDMA_READ and RDMA_REFUSED complete. That a descriptor of a bad
length or a misaligned status address is a fault of the channel (log 64), and the NAK for a queue pair that is not bound to
the context (log 14), are the model's readings. -/
def Obligations.OutsideStepsComplete : Prop := ∀ (i : Instr) (s t : State), outsideRule i s t → exec i s = .next t

/-- R348-R355: POWER_ON, BIST_COMPLETE, RECOVER_FETCH, RECOVER_IMAGE_RECEIVED, MARGIN_SAMPLE, ONLINE_REPAIR_SWITCH,
LANE_RETRAIN_COMPLETE and DEVICE_REGISTER_WRITE complete where they are enabled. The model's readings are the order in which
boot tries the slots (log 70), what a reset keeps (log 16), which units self-test looks at (log 72), the period of a margin
sample (log 71), what a protective stop drops (log 106) and the numbers of device registers (log 17). -/
def Obligations.DeviceStepsComplete : Prop := ∀ (i : Instr) (s t : State), deviceRule i s t → exec i s = .next t

/-- R245-R248, R305-R320, R348-R356: each request of the device manager is answered, with its effect where it is signed as
it must be and allowed, else with none. The model's readings are what THRESH does to a counter that has reached the new
threshold (log 68), the control block of a queue and its binding (log 14), the numbers of the table's words (log 17), when a
map command is refused (log 66), which settings of a context are made once (log 101), what RESET keeps (log 16), that a slice
which TILEMAP brings in reads 0 (log 2), the layout of the attestation report (log 65), that a request waits while another is
under way (log 67) and pages of a chunk pool that do not translate (log 124). -/
def Obligations.RequestsAnswered : Prop :=
  ∀ (i : Instr) (q : Request) (s t : State), deviceRequest i = some q ∨ contextRequest i = some q → answerRule q s t →
    exec i s = .next t

/-- R314, R350-R352: ROWMAP, CHANMAP, LANEMAP and KILL_DRAIN_COMPLETE complete. When a map command is refused is the model's
reading (log 66); a drained context loses its instruction-cache lines as R314 says, on every core (log 40). -/
def Obligations.LaterRequestsComplete : Prop := ∀ (i : Instr) (s t : State), laterRule i s t → exec i s = .next t

/-! ## Decoding and the step -/

/-- Words of the spec's worked examples stand for what the spec says that they stand for. -/
def Obligations.DecodeWords : Prop := ∀ c ∈ aluWords ++ engineWords, (decode c.1 c.2.1).toOption = some c.2.2

/-- A step that issues an agent runs the instruction that the word at its program counter decodes to: the step is `exec`
of it, with the lines fetched in the core's instruction cache (R281); then the panel counts as started once it has executed
an instruction (R241), the agents that wait try again unless it has parked, which is no issue (R255), and a cycle
passes. -/
def Obligations.StepRunsDecoded : Prop :=
  ∀ (s : State) (aid : Nat) (rest : List Move) (a : Agent) (w e : Nat) (i : Instr),
    s.agenda = .issue aid :: rest →
    let s0 := { s with agenda := rest }
    getAgent s0 aid = some a → mayIssue s0 aid = true → a.owed = none →
    (a.prePend && !a.handler && a.wake.isNone && a.setAt.isNone) = false →
    fetchInstr (markIssue s0 aid a) (agentCtx s0 a) a.pc.toNat = .ok (w, e) → decode w e = .ok i →
    step s = passCycle (afterIssue s0 aid (afterRun aid a w (exec i (afterFetch (markIssue s0 aid a) a w))))

/-- R34-R38: decode of encode is the instruction again, for every well-formed integer, bit and compare instruction. -/
def Obligations.IntegerEncodingsRoundTrip : Prop :=
  ∀ i : Instr, i.WellFormed → (arithOp i).isSome ∨ (divideOp i).isSome ∨ (bitsOp i).isSome ∨ (compareOp i).isSome →
    RoundTrip i

/-- R34-R38: the same of every well-formed instruction that has words. -/
def Obligations.EncodingsRoundTrip : Prop := ∀ i : Instr, i.WellFormed → (encode i).isSome = true → RoundTrip i

/-! ## Invariants and reset -/

/-- Every step keeps memory in its canonical form: addresses rise, and no entry holds what an unlisted address reads. -/
def Obligations.StepKeepsMemoryForm : Prop :=
  ∀ s t : State, Memory.wf s.mem = true → step s = .next t → Memory.wf t.mem = true

/-- The memory of the reset state has the canonical form. -/
def Obligations.ResetMemoryForm : Prop := Memory.wf State.reset.mem = true

/-- R353: reset leaves the device in ROM, with no program: no context, commission, panel, stroke or agent, nothing under
way, and no event. That memory lists nothing is the model's choice (log 2). -/
def Obligations.ResetState : Prop :=
  State.reset.juran.power = .rom ∧ running State.reset = false ∧ State.reset.ctxs = [] ∧ State.reset.comms = [] ∧
  State.reset.panels = [] ∧ State.reset.strokes = [] ∧ State.reset.agents = [] ∧ State.reset.results = [] ∧
  State.reset.packets = [] ∧ State.reset.copies = [] ∧ State.reset.events = [] ∧ State.reset.mem = []

/-! ## Frames -/

/-- R10, R17, R20: a register instruction that completes leaves everything as it was but its destinations, the live
names, its HAZARD set, RSTEP, flags, its program counter and what its pops take. -/
def Obligations.RegisterFrame : Prop :=
  ∀ (i : Instr) (s : State) (o : RegOp), regOp s i = some o → i.WellFormed →
    ∀ (s2 t : State) (x0 x : Ctxt) (vs : List (Nat → Nat)),
      RegReady s o x0 x vs s2 → exec i s = .next t → RegFrame s t x0 (o.writes x (activeMask x0.a o.km) vs)

/-- R20, R210: an instruction that stores nothing at its issue leaves every byte of memory. A store's bytes change when
its packets are performed at their home. -/
def Obligations.InstructionsLeaveMemory : Prop :=
  ∀ (i : Instr) (s t : State), storesNothing i = true → exec i s = .next t →
    ∀ pa, memGet t.mem pa = memGet s.mem pa

/-- R178-R193, R199, R203, R210, R240, R244, R247, R288, R301, R337: a packet performed at its home, a chunk that lands, a
line of an MCAST, a deposit of a combine, BINIT, BAR, PUB, EQPUSH, CPY, BARX, MCAST, COLL, EXIT, TYLD, the placement, the
start, the move, the save, the restore and the retirement of panels, requests and expiries that stop agents, the launch and
the retirement of commissions and an RDMA write change no byte outside the pieces that they store to, but for the bytes of a
registered barrier object that these touch (R178: undefined). The scratchpad that a donated panel takes along is the model's
reading (log 39), and so is the place of a queue's control block (log 14). -/
def Obligations.PacketFrame : Prop :=
  ∀ (i : Instr) (s t : State) (g : List (Nat × Nat)), storesTo i s g → exec i s = .next t → MemoryFrame s t g

/-- R14, R15, R17, R258: a write of a vector name reaches its lanes and no other name, and a name dead in every view gets 0
in its other lanes; s63 reads 0 and takes no write; `em` stays inside the lane set; and KM selects the lanes of `em`, of a
mask in it, or of a path in it. -/
def Obligations.RegisterWritesLand : Prop :=
  (∀ (s : State) (aid : Nat) (a : Agent) (st : Stroke) (w : VWrite),
    getAgent s aid = some a → getStroke s a.stroke = some st →
    ∃ b k, getAgent (writeV s aid w) aid = some b ∧ getStroke (writeV s aid w) a.stroke = some k ∧
      (∀ l, l < st.width → vLane k w.name l =
        if w.lanes.getLsbD l then (w.vals[l]?).getD 0
        else if (strokeLive s a.stroke).getLsbD w.name then vLane st w.name l else 0) ∧
      (∀ n l, n ≠ w.name → vLane k n l = vLane st n l) ∧
      ∀ n, n < 192 → isLive b n = (isLive a n || n == w.name)) ∧
  (∀ (a : Agent) (n m : Nat) (v : DWord),
    sReg (setSReg a n v) m = if m = 63 then 0 else if m = n then v else sReg a m) ∧
  (∀ (a : Agent) (lanes m : Mask) (l : Nat), (writeK a 16 lanes m).em.getLsbD l = true → a.lset.getLsbD l = true) ∧
  ∀ (a : Agent) (km l : Nat), l < 128 → km < 16 →
    ((activeMask a km).getLsbD l = true ↔ a.em.getLsbD l = true ∧
      (km = 0 ∨ (a.meld = true ∧ 12 ≤ km ∧ pathOf a l = km - 12) ∨
        (km ≠ 0 ∧ ¬ (a.meld = true ∧ 12 ≤ km) ∧ (kReg a km).getLsbD l = true)))

/-! ## Exceptions -/

/-- R324: trap entry. The trap registers hold the trap, meld mode is held and left, the staged names are gone, and the
program counter is at TVBASE + 8 x cause; registers, masks, `em`, FPST, the privilege level, memory and the other agents
are as before. It waits while a result is outstanding, and a pending late fault is taken instead, with LATE and the number
of the others. -/
def Obligations.TrapEntry : Prop :=
  (∀ (s : State) (aid : Nat) (a : Agent) (t : Trap), CanEnter s aid a t → ∃ b, getAgent (enterTrap s aid t) aid = some b ∧
    b.tcause = BitVec.ofNat 64 (t.cause.code + 2 ^ 8 * a.priv + (if a.meld then 2 ^ 10 else 0) + (if a.frag then 2 ^ 11 else 0)) ∧
    b.tpc = a.pc.setWidth 64 ∧ b.taddr = (t.addr.setWidth 57).setWidth 64 ∧ b.tlane0 = t.lanes.setWidth 64 ∧
    b.tlane1 = (t.lanes >>> 64).setWidth 64 ∧ b.taux = t.aux ∧
    b.meld = false ∧ b.meldHeld = a.meld ∧ b.staged = [] ∧ b.handler = true ∧ b.run = .ready ∧
    b.pc = BitVec.ofNat 57 ((agentTvbase s a).toNat + 8 * t.cause.code) ∧
    b.s = a.s ∧ b.k = a.k ∧ b.em = a.em ∧ b.lset = a.lset ∧ b.live = a.live ∧ b.priv = a.priv ∧ b.ptab = a.ptab ∧
    b.jstack = a.jstack ∧ b.frames = a.frames ∧
    (∀ n, n ≠ aid → getAgent (enterTrap s aid t) n = getAgent s n) ∧ (enterTrap s aid t).mem = s.mem ∧
    ∀ n k, getStroke s n = some k →
      ∃ k2, getStroke (enterTrap s aid t) n = some k2 ∧ k2.vregs = k.vregs ∧ k2.fpst = k.fpst) ∧
  (∀ (s : State) (aid : Nat) (a : Agent) (t : Trap), getAgent s aid = some a → hasResults s aid = true →
    ∃ w, enterTrap s aid t = setAgent s aid { a with run := .parked w, owed := some t }) ∧
  (∀ (s : State) (aid : Nat) (a : Agent) (t l : Trap) (n : Nat), getAgent s aid = some a → hasResults s aid = false →
    a.late = some (l, n) → enterTrap s aid t = enterTrap (setAgent s aid { a with late := none }) aid (lateTrap l n)) ∧
  ∀ (l : Trap) (n : Nat), (lateTrap l n).cause = l.cause ∧ (lateTrap l n).addr = l.addr ∧ (lateTrap l n).lanes = l.lanes ∧
    (lateTrap l n).aux = l.aux ||| BitVec.ofNat 64 (2 ^ 63 + 2 ^ 59 * min n 15)

/-- R325, R327: a trap in handler state, and one whose vector is absent or cannot be fetched (one that another device has
not sent yet is waited for, log 12), stops the agent without
entry and reports the causes; a trap of the Primer stops it and reports. That the event of an unhandled trap holds no first
cause is the model's reading (log 84). -/
def Obligations.HandlerAndPrimerTraps : Prop :=
  ∀ (s : State) (aid : Nat) (a : Agent) (t : Trap) (ctx tag panel stroke : Nat),
    getAgent s aid = some a → hasResults s aid = false → a.late = none → agentPlace s a = (ctx, tag, panel, stroke) →
    let u := enterTrap s aid t
    u.mem = s.mem ∧
    (a.primer = false → a.handler = true → ∃ b, getAgent u aid = some b ∧ b.run = .stopped ∧ b.pc = a.pc ∧
      b.tcause = a.tcause ∧ b.tpc = a.tpc ∧ b.taddr = a.taddr ∧ b.tlane0 = a.tlane0 ∧ b.tlane1 = a.tlane1 ∧
      b.taux = a.taux ∧
      u.events = s.events ++ [.doubleFault (some (a.tcause.toNat % 256)) t.cause.code ctx tag panel stroke a.pc]) ∧
    (a.primer = false → a.handler = false →
      agentTvbase s a = 0 ∨ (∃ e, fetchWord s (agentCtx s a) ((agentTvbase s a).toNat + 8 * t.cause.code) = .error e ∧
        e.cause ≠ .acktimeout) →
      ∃ b, getAgent u aid = some b ∧ b.run = .stopped ∧ b.pc = a.pc ∧ b.tcause = a.tcause ∧ b.handler = false ∧
        u.events = s.events ++ [.doubleFault none t.cause.code ctx tag panel stroke a.pc]) ∧
    (a.primer = true → ∃ b, getAgent u aid = some b ∧ b.run = .stopped ∧ b.pc = a.pc ∧
      b.tcause = BitVec.ofNat 64 t.cause.code ∧ b.handler = a.handler ∧
      u.events = s.events ++ [.primerStop t.cause.code ctx tag panel a.pc] ∧
      ∀ st p, getStroke s a.stroke = some st → getPanel s st.panel = some p →
        ∃ q, getPanel u st.panel = some q ∧ q.primerState = t.cause.code)

/-- R263: the word of MEND, and what it does. RESFIELD for a nonzero F.TYPE of MEND is the model's reading (log 20); ILLOP in
the Primer is R26 and R277. In meld mode it closes the region, clears the staged names and changes
nothing else but the program counter (and, with S, the HAZARD set); it does not wait for outstanding results. Outside meld
mode, and in the Primer, it raises ILLOP. -/
def Obligations.MendClosesTheRegion : Prop :=
  (∀ (sw : Bool) (low : Nat), low < 2 ^ 55 →
    decode ((if sw then 2 ^ 63 else 0) + 0x0D * 2 ^ 55 + low) 0 = if low = 0 then .ok (.mend sw) else .error .resfield) ∧
  (∀ (s : State) (x : Ctxt), theCtxt s = some x → x.a.primer = false → x.a.meld = true →
    exec (.mend false) s = .next (setAgent s x.aid
      { x.a with meld := false, staged := [], pc := x.a.pc + 8, waitFrom := none })) ∧
  (∀ (s : State) (x : Ctxt), theCtxt s = some x → x.a.primer = false → x.a.meld = true → hasResults s x.aid = false →
    x.a.late = none → exec (.mend true) s = .next (setAgent s x.aid
      { x.a with meld := false, staged := [], pc := x.a.pc + 8, waitFrom := none, hazV := 0, hazS := 0, hazK := 0 })) ∧
  ∀ (s : State) (x : Ctxt), theCtxt s = some x → x.a.primer = true ∨ x.a.meld = false →
    exec (.mend false) s = .next (enterTrap s x.aid { cause := .illop, lanes := x.a.em })

/-- R18, R24, R261: a register instruction that reads a dead vector name raises DEADREAD before any effect, naming the first
such name in the order of its source fields, where no register it names is protected. In meld mode an operand m_j stands
for the names that its entry gives on the paths with an active lane; RESFIELD for a wide operand whose names are no register
pair or that straddles the meld names comes first (R24, R87, R261). That TAUX holds the first dead name in the order A, B, C
is the model's reading (log 49). -/
def Obligations.DeadReads : Prop :=
  ∀ (i : Instr) (s u : State) (o : RegOp) (x0 x : Ctxt) (k f : Nat), regOp s i = some o → theCtxt s = some x0 →
    let lanes := activeMask x0.a o.km
    let names := o.is.srcs.map fun r => (srcKeys x.a lanes r, false, r.field)
    checkPlace x0 lanes o.place = .ok () → switchMark s x0 o.is.sw = .ok (u, x) →
    checkMeldPairs x lanes o.is.srcs o.is.dsts = .ok () →
    (∀ n r, o.is.straddle = some (n, r) → x.a.meld = true → n < 0xB0 → n + r ≤ 0xB0) →
    firstHaz x.a (names ++ (o.reads ++ o.is.dsts ++ (if o.always then [] else selRefs x o.km)).map (refKeys x.a lanes)) = none →
    (names.findSome? fun e => (e.1.find? fun k => decide (k < 0xC0) && !isLive x.a k).map fun k => (k, e.2.2)) = some (k, f) →
    exec i s = .next (enterTrap s x0.aid { cause := .deadread, lanes := lanes, aux := BitVec.ofNat 64 (k + 2 ^ 8 * f) })

/-- R167, R173, R313, R322: a TLBI at privilege 0 raises PERM; LD to a vector, a scalar or a channel, LDG, ST, SCT, RED,
ATOM, ACAS and RED.ret with a misaligned access raise ALIGN, with the lanes of such accesses and the first one's address,
before any effect; LDMX and STMX need no alignment. -/
def Obligations.PrivilegeAndAlignmentTraps : Prop :=
  (∀ (i : Instr) (s u : State) (h : Hdr) (reads : List Ref) (b : List Opd) (x0 x : Ctxt) (v : DWord),
    (∃ n d, i = .tlbiRng h n d ∧ reads = [.s n 1] ∧ b = [d]) ∨ (i = .tlbiAll h ∧ reads = [] ∧ b = []) ∨
      (i = .tlbiNg h ∧ reads = [] ∧ b = []) →
    theCtxt s = some x0 → sysGather s x0 h tlbiPlace reads b (fun _ => true) false = .ok (u, x, v) → x.a.priv = 0 →
    exec i s = .next (enterTrap s x0.aid { cause := .perm, lanes := activeMask x0.a h.km })) ∧
  (∀ (i : Instr) (s u : State) (o : AccessOp) (x0 x : Ctxt) (vs : List (Nat → Nat)) (c : Acc), accessOp i = some o →
    MemRuns s o.h o.pl o.m o.extra o.dsts o.straddle o.push x0 x u vs →
    let lanes := activeMask x0.a o.h.km
    let wrong := fun (a : Acc) => decide (a.addr % (a.align : Int) ≠ 0)
    lanes ≠ 0 ∨ o.push.isSome = true → (o.accs x lanes vs).find? wrong = some c →
    exec i s = .next (enterTrap s x0.aid
      { cause := .align, addr := BitVec.ofInt 64 c.addr, lanes := wrongLanes x lanes o.share ((o.accs x lanes vs).filter wrong) })) ∧
  ∀ (h : Hdr) (f : MxFmt) (split : Bool) (d : Nat) (m : MAddr) (o : AccessOp),
    accessOp (.ldmx h f split d m) = some o ∨ accessOp (.stmx h f split d m) = some o →
    ∀ (x : Ctxt) (lanes : Mask) (vs : List (Nat → Nat)), ∀ a ∈ o.accs x lanes vs, a.align = 1

/-- R40: NOP and LAND are one word each with every field below the header, KM, X and the last-read bits 0; they do nothing
but advance the program counter; with S they first wait for every outstanding result (R22); and a LAND, with or without S,
and nothing else is what a BRX target must hold (R272). RESFIELD for a nonzero F.TYPE of NOP and LAND is the model's reading
(log 20). -/
def Obligations.NopAndLandDoNothing : Prop :=
  (∀ (land sw : Bool) (low : Nat), low < 2 ^ 55 →
    decode ((if sw then 2 ^ 63 else 0) + (if land then 0x08 * 2 ^ 55 else 0) + low) 0 =
      if low = 0 then .ok (if land then .land sw else .nop sw) else .error .resfield) ∧
  (∀ (i : Instr) (s : State) (x : Ctxt), i = .nop false ∨ i = .land false → theCtxt s = some x →
    exec i s = .next (setAgent s x.aid { x.a with pc := x.a.pc + 8, waitFrom := none })) ∧
  (∀ (i : Instr) (s : State) (x : Ctxt), i = .nop true ∨ i = .land true → theCtxt s = some x →
    (hasResults s x.aid = true → ∃ w, exec i s = .next (setAgent s x.aid { x.a with run := .parked w, waitFrom := some w })) ∧
    (hasResults s x.aid = false → x.a.late = none → exec i s = .next (setAgent s x.aid
      { x.a with pc := x.a.pc + 8, waitFrom := none, hazV := 0, hazS := 0, hazK := 0 }))) ∧
  ∀ (s : State) (x : Ctxt) (t pa : Nat) (page : TlbEntry), t % 8 = 0 → t < 2 ^ 57 →
    accessByte s x.p.ctx t .x = .ok (pa, page) → ∀ g, reachOf s x.p.ctx false [(pa, 8)] = .here g → segsBad s g = none →
    (brxFail s x t = none ↔ ofBytes (readSegs s.mem g) % 2 ^ 63 = 0x0400000000000000)
end

