-- ==== Sys2Proof/Laws/Tab.lean ====
section
/-! SUPPORT. The tables and memory: a read after a write, a write elsewhere, and the canonical form of memory that
every memory operation keeps. -/

namespace Sys2Proof.Machine
open Sys2Proof

@[simp] theorem tabGet_tabPut_self {α : Type} (t : Tab α) (n : Nat) (x : α) : tabGet (tabPut t n x) n = some x := by
  induction t with
  | nil => simp [tabPut, tabGet]
  | cons p t ih =>
    obtain ⟨k, v⟩ := p
    by_cases h : k = n
    · simp [tabPut, tabGet, h]
    · by_cases h2 : n < k
      · simp [tabPut, tabGet, h, h2]
      · simp [tabPut, tabGet, h, h2, ih]

theorem tabGet_tabPut_of_ne {α : Type} (t : Tab α) {n m : Nat} (x : α) (hm : m ≠ n) :
    tabGet (tabPut t n x) m = tabGet t m := by
  induction t with
  | nil => simp [tabPut, tabGet, hm.symm]
  | cons p t ih =>
    obtain ⟨k, v⟩ := p
    by_cases h : k = n
    · subst h
      simp [tabPut, tabGet, hm.symm]
    · by_cases h2 : n < k
      · simp [tabPut, tabGet, h, h2, hm.symm]
      · simp [tabPut, tabGet, h, h2, ih]

/-- A second write of a key replaces the first. -/
theorem tabPut_tabPut {α : Type} (t : Tab α) (n : Nat) (x y : α) : tabPut (tabPut t n x) n y = tabPut t n y := by
  induction t with
  | nil => simp [tabPut]
  | cons p t ih =>
    obtain ⟨k, v⟩ := p
    by_cases h : k = n
    · simp [tabPut, h]
    · by_cases h2 : n < k
      · simp [tabPut, h, h2]
      · simp [tabPut, h, h2, ih]

theorem tabGet_tabPut {α : Type} (t : Tab α) (n m : Nat) (x : α) :
    tabGet (tabPut t n x) m = if m = n then some x else tabGet t m := by
  by_cases h : m = n
  · simp [h]
  · simp [h, tabGet_tabPut_of_ne]

@[simp] theorem tabGet_tabDel_self {α : Type} (t : Tab α) (n : Nat) : tabGet (tabDel t n) n = none := by
  induction t with
  | nil => rfl
  | cons p t ih =>
    obtain ⟨k, v⟩ := p
    by_cases h : k = n
    · simp [tabDel, h, ih]
    · simp [tabDel, tabGet, h, ih]

theorem tabGet_tabDel_of_ne {α : Type} (t : Tab α) {n m : Nat} (hm : m ≠ n) : tabGet (tabDel t n) m = tabGet t m := by
  induction t with
  | nil => rfl
  | cons p t ih =>
    obtain ⟨k, v⟩ := p
    by_cases h : k = n
    · subst h
      simp [tabDel, tabGet, hm.symm, ih]
    · simp [tabDel, tabGet, h, ih]

theorem tabGet_tabMap {α : Type} (f : Nat → α → α) (t : Tab α) (n : Nat) :
    tabGet (tabMap f t) n = (tabGet t n).map (f n) := by
  induction t with
  | nil => rfl
  | cons p t ih =>
    obtain ⟨k, v⟩ := p
    have : tabMap f ((k, v) :: t) = (k, f k v) :: tabMap f t := rfl
    rw [this]
    by_cases h : k = n
    · simp [tabGet, h]
    · simp [tabGet, h, ih]

/-! ## Memory -/

theorem memGet_memSet_self (m : Memory) (a : Nat) (b : Byte) : memGet (memSet m a b) a = b := by
  unfold memGet memSet
  split
  · simp [*]
  · simp

theorem memGet_memSet_of_ne (m : Memory) {a c : Nat} (b : Byte) (h : c ≠ a) : memGet (memSet m a b) c = memGet m c := by
  unfold memGet memSet
  split
  · rw [tabGet_tabDel_of_ne _ h]
  · rw [tabGet_tabPut_of_ne _ _ h]

/-- A write leaves every byte outside its own alone. -/
theorem memGet_memWrite_out (bs : List Byte) (m : Memory) (a c : Nat) (h : c < a ∨ a + bs.length ≤ c) :
    memGet (memWrite m a bs) c = memGet m c := by
  induction bs generalizing m a with
  | nil => rfl
  | cons b t ih =>
    simp only [List.length_cons] at h
    rw [memWrite, ih _ _ (by omega), memGet_memSet_of_ne]
    omega

/-- A read of a byte that a write covers gives what was written. -/
theorem memGet_memWrite_in (bs : List Byte) (m : Memory) (a i : Nat) (h : i < bs.length) :
    memGet (memWrite m a bs) (a + i) = bs[i] := by
  induction bs generalizing m a i with
  | nil => simp at h
  | cons b t ih =>
    rw [memWrite]
    cases i with
    | zero =>
      rw [memGet_memWrite_out _ _ _ _ (by omega)]
      simpa using memGet_memSet_self m a b
    | succ j =>
      have := ih (memSet m a b) (a + 1) j (by simpa using h)
      rw [show a + (j + 1) = a + 1 + j by omega]
      simpa using this

theorem memRead_length (m : Memory) (a n : Nat) : (memRead m a n).length = n := by
  induction n generalizing a with
  | zero => rfl
  | succ n ih => simp [memRead, ih]

/-- A read of what was just written gives it back. -/
theorem memRead_memWrite (bs : List Byte) (m : Memory) (a : Nat) : memRead (memWrite m a bs) a bs.length = bs := by
  have key : ∀ (n k : Nat) (h : k + n = bs.length), memRead (memWrite m a bs) (a + k) n = bs.drop k := by
    intro n
    induction n with
    | zero => intro k h; simp [memRead, List.drop_eq_nil_of_le (show bs.length ≤ k by omega)]
    | succ n ih =>
      intro k h
      have hk : k < bs.length := by omega
      rw [memRead, memGet_memWrite_in bs m a k hk, show a + k + 1 = a + (k + 1) by omega, ih (k + 1) (by omega),
        ← List.drop_eq_getElem_cons hk]
  simpa using key bs.length 0 (by omega)

/-! ## The canonical form -/

theorem risingFrom_weaken (m : Memory) (lo : Nat) (lo' : Option Nat) (hl : ∀ l, lo' = some l → l ≤ lo)
    (h : risingFrom (some lo) m = true) : risingFrom lo' m = true := by
  cases m with
  | nil => rfl
  | cons p t =>
    obtain ⟨k, v⟩ := p
    simp only [risingFrom, Bool.and_eq_true, decide_eq_true_eq] at h ⊢
    refine ⟨?_, h.2⟩
    cases lo' with
    | none => rfl
    | some l => simpa using Nat.lt_of_le_of_lt (hl l rfl) h.1

theorem risingFrom_tabDel (m : Memory) (lo : Option Nat) (a : Nat) (h : risingFrom lo m = true) :
    risingFrom lo (tabDel m a) = true := by
  induction m generalizing lo with
  | nil => rfl
  | cons p t ih =>
    obtain ⟨k, v⟩ := p
    simp only [risingFrom, Bool.and_eq_true] at h
    rw [tabDel]
    split
    · apply ih
      cases lo with
      | none => exact risingFrom_weaken _ k none (by simp) h.2
      | some l => exact risingFrom_weaken _ k _ (by have := h.1; simp at this; simp; omega) h.2
    · simp only [risingFrom, Bool.and_eq_true]
      exact ⟨h.1, ih _ h.2⟩

theorem risingFrom_tabPut (m : Memory) (lo : Option Nat) (a : Nat) (b : Byte) (hl : ∀ l, lo = some l → l < a)
    (h : risingFrom lo m = true) : risingFrom lo (tabPut m a b) = true := by
  induction m generalizing lo with
  | nil =>
    cases lo with
    | none => rfl
    | some l => simpa [tabPut, risingFrom] using hl l rfl
  | cons p t ih =>
    obtain ⟨k, v⟩ := p
    simp only [risingFrom, Bool.and_eq_true] at h
    rw [tabPut]
    split
    · rename_i hk
      subst hk
      simpa only [risingFrom, Bool.and_eq_true] using h
    · split
      · rename_i hne hlt
        simp only [risingFrom, Bool.and_eq_true]
        refine ⟨?_, by simpa using hlt, h.2⟩
        cases lo with
        | none => rfl
        | some l => simpa using hl l rfl
      · rename_i hne hlt
        simp only [risingFrom, Bool.and_eq_true]
        refine ⟨h.1, ih _ (fun l hl' => ?_) h.2⟩
        cases hl'
        omega

theorem all_tabDel (m : Memory) (a : Nat) (p : Host.Cell → Bool) (h : m.all p = true) :
    (tabDel m a).all p = true := by
  induction m with
  | nil => rfl
  | cons q t ih =>
    obtain ⟨k, v⟩ := q
    simp only [List.all_cons, Bool.and_eq_true] at h
    rw [tabDel]
    split
    · exact ih h.2
    · simp only [List.all_cons, Bool.and_eq_true]
      exact ⟨h.1, ih h.2⟩

theorem all_tabPut (m : Memory) (a : Nat) (b : Byte) (p : Host.Cell → Bool) (hb : p (a, b) = true) (h : m.all p = true) :
    (tabPut m a b).all p = true := by
  induction m with
  | nil => simp [tabPut, hb]
  | cons q t ih =>
    obtain ⟨k, v⟩ := q
    simp only [List.all_cons, Bool.and_eq_true] at h
    rw [tabPut]
    split
    · simp only [List.all_cons, Bool.and_eq_true]
      exact ⟨hb, h.2⟩
    · split
      · simp only [List.all_cons, Bool.and_eq_true]
        exact ⟨hb, h.1, h.2⟩
      · simp only [List.all_cons, Bool.and_eq_true]
        exact ⟨h.1, ih h.2⟩

theorem memSet_wf (m : Memory) (a : Nat) (b : Byte) (h : Memory.wf m = true) : Memory.wf (memSet m a b) = true := by
  simp only [Memory.wf, Bool.and_eq_true] at h ⊢
  unfold memSet
  split
  · exact ⟨risingFrom_tabDel _ _ _ h.1, all_tabDel _ _ _ h.2⟩
  · rename_i hb
    exact ⟨risingFrom_tabPut _ _ _ _ (by simp) h.1, all_tabPut _ _ _ _ (by simpa using hb) h.2⟩

theorem memWrite_wf (bs : List Byte) (m : Memory) (a : Nat) (h : Memory.wf m = true) :
    Memory.wf (memWrite m a bs) = true := by
  induction bs generalizing m a with
  | nil => exact h
  | cons b t ih => exact ih _ _ (memSet_wf _ _ _ h)

theorem writeSegs_wf (segs : List (Nat × Nat)) (m : Memory) (bs : List Byte) (h : Memory.wf m = true) :
    Memory.wf (writeSegs m segs bs) = true := by
  induction segs generalizing m bs with
  | nil => exact h
  | cons p t ih =>
    obtain ⟨pa, n⟩ := p
    exact ih _ _ (memWrite_wf _ _ _ h)

theorem risingFrom_filter (m : Memory) (lo : Option Nat) (p : Host.Cell → Bool) (h : risingFrom lo m = true) :
    risingFrom lo (m.filter p) = true := by
  induction m generalizing lo with
  | nil => rfl
  | cons c t ih =>
    obtain ⟨k, b⟩ := c
    simp only [risingFrom, Bool.and_eq_true] at h
    by_cases hp : p (k, b) = true
    · simp only [List.filter_cons, hp, if_true, risingFrom, Bool.and_eq_true]
      exact ⟨h.1, ih _ h.2⟩
    · simp only [List.filter_cons, hp, Bool.false_eq_true, if_false]
      refine ih _ (risingFrom_weaken t k lo (fun l hl => ?_) h.2)
      subst hl
      have := h.1
      simp at this
      omega

/-- Taking entries out keeps the canonical form. -/
theorem filter_wf (m : Memory) (p : Host.Cell → Bool) (h : Memory.wf m = true) : Memory.wf (m.filter p) = true := by
  simp only [Memory.wf, Bool.and_eq_true] at h ⊢
  refine ⟨risingFrom_filter _ _ _ h.1, ?_⟩
  rw [List.all_eq_true] at h ⊢
  exact fun c hc => h.2 c ((List.mem_filter.mp hc).1)

end Sys2Proof.Machine
end

