-- ==== Sys2Proof/Laws/Memory.lean ====
section
/-! SUPPORT. The operations over memory above single bytes keep its canonical form. -/

namespace Sys2Proof.Machine
open Sys2Proof

theorem memClear_wf (m : Memory) (a n : Nat) (h : Memory.wf m = true) : Memory.wf (memClear m a n) = true :=
  filter_wf _ _ h

theorem zeroRange_wf (s : State) (pa n : Nat) (h : Memory.wf s.mem = true) : Memory.wf (zeroRange s pa n).mem = true :=
  memClear_wf _ _ _ h

theorem storeByte_wf (s : State) (pa : Nat) (b : Byte) (h : Memory.wf s.mem = true) :
    Memory.wf (storeByte s pa b).mem = true := by
  unfold storeByte
  split
  · exact h
  · exact memSet_wf _ _ _ h

theorem storeBytes_wf (bs : List Byte) (s : State) (pa : Nat) (h : Memory.wf s.mem = true) :
    Memory.wf (storeBytes s pa bs).mem = true := by
  induction bs generalizing s pa with
  | nil => exact h
  | cons b t ih => exact ih _ _ (storeByte_wf _ _ _ h)

theorem storeSegs_wf (segs : List (Nat × Nat)) (s : State) (bs : List Byte) (h : Memory.wf s.mem = true) :
    Memory.wf (storeSegs s segs bs).mem = true := by
  induction segs generalizing s bs with
  | nil => exact h
  | cons p t ih =>
    obtain ⟨pa, n⟩ := p
    exact ih _ _ (storeBytes_wf _ _ _ h)

end Sys2Proof.Machine
end

