-- ==== Sys2Proof/Laws/Scope.lean ====
section
/-! SUPPORT. The scopes that empty a core's copies at an acquire are those that include an agent of another core. -/

namespace Sys2Proof.Machine
open Sys2Proof

/-- The core beside a core, in one quad with it. -/
def besideCore (core : Nat) : Nat := if core % 2 = 0 then core + 1 else core - 1

theorem quadOf_besideCore (core : Nat) : quadOf (besideCore core) = quadOf core := by
  simp only [quadOf, besideCore]
  split <;> omega

theorem besideCore_ne (core : Nat) : besideCore core ≠ core ∧ core / 128 = besideCore core / 128 := by
  unfold besideCore
  split <;> omega

theorem scope_wide_iff (scp : Scope) (core stroke : Nat) :
    Scope.wide scp = true ↔ ∃ core2 stroke2, core2 ≠ core ∧ scopeIncludes scp core stroke core2 stroke2 = true := by
  obtain ⟨hb, hd⟩ := besideCore_ne core
  cases scp with
  | str => simp [Scope.wide, scopeIncludes]
  | pnl => simp [Scope.wide, scopeIncludes]
  | qd => exact ⟨fun _ => ⟨besideCore core, 0, hb, by simp [scopeIncludes, quadOf_besideCore]⟩, fun _ => rfl⟩
  | die => exact ⟨fun _ => ⟨besideCore core, 0, hb, by simp [scopeIncludes, hd]⟩, fun _ => rfl⟩
  | pkg => exact ⟨fun _ => ⟨besideCore core, 0, hb, rfl⟩, fun _ => rfl⟩
  | fab => exact ⟨fun _ => ⟨besideCore core, 0, hb, rfl⟩, fun _ => rfl⟩

end Sys2Proof.Machine
end

