-- ==== Sys2Proof/Laws/State.lean ====
section
/-! SUPPORT. What each update of the state leaves in each of its fields: one lemma a field. -/

namespace Sys2Proof.Machine
open Sys2Proof

@[simp] theorem setAgent_cycle (s : State) (a : Nat) (g : Agent) : (setAgent s a g).cycle = s.cycle := rfl
@[simp] theorem setAgent_cur (s : State) (a : Nat) (g : Agent) : (setAgent s a g).cur = s.cur := rfl
@[simp] theorem setAgent_agenda (s : State) (a : Nat) (g : Agent) : (setAgent s a g).agenda = s.agenda := rfl
@[simp] theorem setAgent_fresh (s : State) (a : Nat) (g : Agent) : (setAgent s a g).fresh = s.fresh := rfl
@[simp] theorem setAgent_freeN (s : State) (a : Nat) (g : Agent) : (setAgent s a g).freeN = s.freeN := rfl
@[simp] theorem setAgent_mem (s : State) (a : Nat) (g : Agent) : (setAgent s a g).mem = s.mem := rfl
@[simp] theorem setAgent_badWords (s : State) (a : Nat) (g : Agent) : (setAgent s a g).badWords = s.badWords := rfl
@[simp] theorem setAgent_strokes (s : State) (a : Nat) (g : Agent) : (setAgent s a g).strokes = s.strokes := rfl
@[simp] theorem setAgent_panels (s : State) (a : Nat) (g : Agent) : (setAgent s a g).panels = s.panels := rfl
@[simp] theorem setAgent_cores (s : State) (a : Nat) (g : Agent) : (setAgent s a g).cores = s.cores := rfl
@[simp] theorem setAgent_comms (s : State) (a : Nat) (g : Agent) : (setAgent s a g).comms = s.comms := rfl
@[simp] theorem setAgent_ctxs (s : State) (a : Nat) (g : Agent) : (setAgent s a g).ctxs = s.ctxs := rfl
@[simp] theorem setAgent_results (s : State) (a : Nat) (g : Agent) : (setAgent s a g).results = s.results := rfl
@[simp] theorem setAgent_packets (s : State) (a : Nat) (g : Agent) : (setAgent s a g).packets = s.packets := rfl
@[simp] theorem setAgent_ackq (s : State) (a : Nat) (g : Agent) : (setAgent s a g).ackq = s.ackq := rfl
@[simp] theorem setAgent_groups (s : State) (a : Nat) (g : Agent) : (setAgent s a g).groups = s.groups := rfl
@[simp] theorem setAgent_copies (s : State) (a : Nat) (g : Agent) : (setAgent s a g).copies = s.copies := rfl
@[simp] theorem setAgent_colls (s : State) (a : Nat) (g : Agent) : (setAgent s a g).colls = s.colls := rfl
@[simp] theorem setAgent_regions (s : State) (a : Nat) (g : Agent) : (setAgent s a g).regions = s.regions := rfl
@[simp] theorem setAgent_fills (s : State) (a : Nat) (g : Agent) : (setAgent s a g).fills = s.fills := rfl
@[simp] theorem setAgent_images (s : State) (a : Nat) (g : Agent) : (setAgent s a g).images = s.images := rfl
@[simp] theorem setAgent_setOps (s : State) (a : Nat) (g : Agent) : (setAgent s a g).setOps = s.setOps := rfl
@[simp] theorem setAgent_deposits (s : State) (a : Nat) (g : Agent) : (setAgent s a g).deposits = s.deposits := rfl
@[simp] theorem setAgent_saved (s : State) (a : Nat) (g : Agent) : (setAgent s a g).saved = s.saved := rfl
@[simp] theorem setAgent_cqueues (s : State) (a : Nat) (g : Agent) : (setAgent s a g).cqueues = s.cqueues := rfl
@[simp] theorem setAgent_tt (s : State) (a : Nat) (g : Agent) : (setAgent s a g).tt = s.tt := rfl
@[simp] theorem setAgent_easel (s : State) (a : Nat) (g : Agent) : (setAgent s a g).easel = s.easel := rfl
@[simp] theorem setAgent_juran (s : State) (a : Nat) (g : Agent) : (setAgent s a g).juran = s.juran := rfl
@[simp] theorem setAgent_events (s : State) (a : Nat) (g : Agent) : (setAgent s a g).events = s.events := rfl

@[simp] theorem setStroke_cycle (s : State) (k : Nat) (g : Stroke) : (setStroke s k g).cycle = s.cycle := rfl
@[simp] theorem setStroke_cur (s : State) (k : Nat) (g : Stroke) : (setStroke s k g).cur = s.cur := rfl
@[simp] theorem setStroke_agenda (s : State) (k : Nat) (g : Stroke) : (setStroke s k g).agenda = s.agenda := rfl
@[simp] theorem setStroke_fresh (s : State) (k : Nat) (g : Stroke) : (setStroke s k g).fresh = s.fresh := rfl
@[simp] theorem setStroke_freeN (s : State) (k : Nat) (g : Stroke) : (setStroke s k g).freeN = s.freeN := rfl
@[simp] theorem setStroke_mem (s : State) (k : Nat) (g : Stroke) : (setStroke s k g).mem = s.mem := rfl
@[simp] theorem setStroke_badWords (s : State) (k : Nat) (g : Stroke) : (setStroke s k g).badWords = s.badWords := rfl
@[simp] theorem setStroke_agents (s : State) (k : Nat) (g : Stroke) : (setStroke s k g).agents = s.agents := rfl
@[simp] theorem setStroke_panels (s : State) (k : Nat) (g : Stroke) : (setStroke s k g).panels = s.panels := rfl
@[simp] theorem setStroke_cores (s : State) (k : Nat) (g : Stroke) : (setStroke s k g).cores = s.cores := rfl
@[simp] theorem setStroke_comms (s : State) (k : Nat) (g : Stroke) : (setStroke s k g).comms = s.comms := rfl
@[simp] theorem setStroke_ctxs (s : State) (k : Nat) (g : Stroke) : (setStroke s k g).ctxs = s.ctxs := rfl
@[simp] theorem setStroke_results (s : State) (k : Nat) (g : Stroke) : (setStroke s k g).results = s.results := rfl
@[simp] theorem setStroke_packets (s : State) (k : Nat) (g : Stroke) : (setStroke s k g).packets = s.packets := rfl
@[simp] theorem setStroke_ackq (s : State) (k : Nat) (g : Stroke) : (setStroke s k g).ackq = s.ackq := rfl
@[simp] theorem setStroke_groups (s : State) (k : Nat) (g : Stroke) : (setStroke s k g).groups = s.groups := rfl
@[simp] theorem setStroke_copies (s : State) (k : Nat) (g : Stroke) : (setStroke s k g).copies = s.copies := rfl
@[simp] theorem setStroke_colls (s : State) (k : Nat) (g : Stroke) : (setStroke s k g).colls = s.colls := rfl
@[simp] theorem setStroke_regions (s : State) (k : Nat) (g : Stroke) : (setStroke s k g).regions = s.regions := rfl
@[simp] theorem setStroke_fills (s : State) (k : Nat) (g : Stroke) : (setStroke s k g).fills = s.fills := rfl
@[simp] theorem setStroke_images (s : State) (k : Nat) (g : Stroke) : (setStroke s k g).images = s.images := rfl
@[simp] theorem setStroke_setOps (s : State) (k : Nat) (g : Stroke) : (setStroke s k g).setOps = s.setOps := rfl
@[simp] theorem setStroke_deposits (s : State) (k : Nat) (g : Stroke) : (setStroke s k g).deposits = s.deposits := rfl
@[simp] theorem setStroke_saved (s : State) (k : Nat) (g : Stroke) : (setStroke s k g).saved = s.saved := rfl
@[simp] theorem setStroke_cqueues (s : State) (k : Nat) (g : Stroke) : (setStroke s k g).cqueues = s.cqueues := rfl
@[simp] theorem setStroke_tt (s : State) (k : Nat) (g : Stroke) : (setStroke s k g).tt = s.tt := rfl
@[simp] theorem setStroke_easel (s : State) (k : Nat) (g : Stroke) : (setStroke s k g).easel = s.easel := rfl
@[simp] theorem setStroke_juran (s : State) (k : Nat) (g : Stroke) : (setStroke s k g).juran = s.juran := rfl
@[simp] theorem setStroke_events (s : State) (k : Nat) (g : Stroke) : (setStroke s k g).events = s.events := rfl

@[simp] theorem setPanel_cycle (s : State) (k : Nat) (g : Panel) : (setPanel s k g).cycle = s.cycle := rfl
@[simp] theorem setPanel_cur (s : State) (k : Nat) (g : Panel) : (setPanel s k g).cur = s.cur := rfl
@[simp] theorem setPanel_agenda (s : State) (k : Nat) (g : Panel) : (setPanel s k g).agenda = s.agenda := rfl
@[simp] theorem setPanel_fresh (s : State) (k : Nat) (g : Panel) : (setPanel s k g).fresh = s.fresh := rfl
@[simp] theorem setPanel_freeN (s : State) (k : Nat) (g : Panel) : (setPanel s k g).freeN = s.freeN := rfl
@[simp] theorem setPanel_mem (s : State) (k : Nat) (g : Panel) : (setPanel s k g).mem = s.mem := rfl
@[simp] theorem setPanel_badWords (s : State) (k : Nat) (g : Panel) : (setPanel s k g).badWords = s.badWords := rfl
@[simp] theorem setPanel_agents (s : State) (k : Nat) (g : Panel) : (setPanel s k g).agents = s.agents := rfl
@[simp] theorem setPanel_strokes (s : State) (k : Nat) (g : Panel) : (setPanel s k g).strokes = s.strokes := rfl
@[simp] theorem setPanel_cores (s : State) (k : Nat) (g : Panel) : (setPanel s k g).cores = s.cores := rfl
@[simp] theorem setPanel_comms (s : State) (k : Nat) (g : Panel) : (setPanel s k g).comms = s.comms := rfl
@[simp] theorem setPanel_ctxs (s : State) (k : Nat) (g : Panel) : (setPanel s k g).ctxs = s.ctxs := rfl
@[simp] theorem setPanel_results (s : State) (k : Nat) (g : Panel) : (setPanel s k g).results = s.results := rfl
@[simp] theorem setPanel_packets (s : State) (k : Nat) (g : Panel) : (setPanel s k g).packets = s.packets := rfl
@[simp] theorem setPanel_ackq (s : State) (k : Nat) (g : Panel) : (setPanel s k g).ackq = s.ackq := rfl
@[simp] theorem setPanel_groups (s : State) (k : Nat) (g : Panel) : (setPanel s k g).groups = s.groups := rfl
@[simp] theorem setPanel_copies (s : State) (k : Nat) (g : Panel) : (setPanel s k g).copies = s.copies := rfl
@[simp] theorem setPanel_colls (s : State) (k : Nat) (g : Panel) : (setPanel s k g).colls = s.colls := rfl
@[simp] theorem setPanel_regions (s : State) (k : Nat) (g : Panel) : (setPanel s k g).regions = s.regions := rfl
@[simp] theorem setPanel_fills (s : State) (k : Nat) (g : Panel) : (setPanel s k g).fills = s.fills := rfl
@[simp] theorem setPanel_images (s : State) (k : Nat) (g : Panel) : (setPanel s k g).images = s.images := rfl
@[simp] theorem setPanel_setOps (s : State) (k : Nat) (g : Panel) : (setPanel s k g).setOps = s.setOps := rfl
@[simp] theorem setPanel_deposits (s : State) (k : Nat) (g : Panel) : (setPanel s k g).deposits = s.deposits := rfl
@[simp] theorem setPanel_saved (s : State) (k : Nat) (g : Panel) : (setPanel s k g).saved = s.saved := rfl
@[simp] theorem setPanel_cqueues (s : State) (k : Nat) (g : Panel) : (setPanel s k g).cqueues = s.cqueues := rfl
@[simp] theorem setPanel_tt (s : State) (k : Nat) (g : Panel) : (setPanel s k g).tt = s.tt := rfl
@[simp] theorem setPanel_easel (s : State) (k : Nat) (g : Panel) : (setPanel s k g).easel = s.easel := rfl
@[simp] theorem setPanel_juran (s : State) (k : Nat) (g : Panel) : (setPanel s k g).juran = s.juran := rfl
@[simp] theorem setPanel_events (s : State) (k : Nat) (g : Panel) : (setPanel s k g).events = s.events := rfl

@[simp] theorem setCore_cycle (s : State) (k : Nat) (g : Core) : (setCore s k g).cycle = s.cycle := rfl
@[simp] theorem setCore_cur (s : State) (k : Nat) (g : Core) : (setCore s k g).cur = s.cur := rfl
@[simp] theorem setCore_agenda (s : State) (k : Nat) (g : Core) : (setCore s k g).agenda = s.agenda := rfl
@[simp] theorem setCore_fresh (s : State) (k : Nat) (g : Core) : (setCore s k g).fresh = s.fresh := rfl
@[simp] theorem setCore_freeN (s : State) (k : Nat) (g : Core) : (setCore s k g).freeN = s.freeN := rfl
@[simp] theorem setCore_mem (s : State) (k : Nat) (g : Core) : (setCore s k g).mem = s.mem := rfl
@[simp] theorem setCore_badWords (s : State) (k : Nat) (g : Core) : (setCore s k g).badWords = s.badWords := rfl
@[simp] theorem setCore_agents (s : State) (k : Nat) (g : Core) : (setCore s k g).agents = s.agents := rfl
@[simp] theorem setCore_strokes (s : State) (k : Nat) (g : Core) : (setCore s k g).strokes = s.strokes := rfl
@[simp] theorem setCore_panels (s : State) (k : Nat) (g : Core) : (setCore s k g).panels = s.panels := rfl
@[simp] theorem setCore_comms (s : State) (k : Nat) (g : Core) : (setCore s k g).comms = s.comms := rfl
@[simp] theorem setCore_ctxs (s : State) (k : Nat) (g : Core) : (setCore s k g).ctxs = s.ctxs := rfl
@[simp] theorem setCore_results (s : State) (k : Nat) (g : Core) : (setCore s k g).results = s.results := rfl
@[simp] theorem setCore_packets (s : State) (k : Nat) (g : Core) : (setCore s k g).packets = s.packets := rfl
@[simp] theorem setCore_ackq (s : State) (k : Nat) (g : Core) : (setCore s k g).ackq = s.ackq := rfl
@[simp] theorem setCore_groups (s : State) (k : Nat) (g : Core) : (setCore s k g).groups = s.groups := rfl
@[simp] theorem setCore_copies (s : State) (k : Nat) (g : Core) : (setCore s k g).copies = s.copies := rfl
@[simp] theorem setCore_colls (s : State) (k : Nat) (g : Core) : (setCore s k g).colls = s.colls := rfl
@[simp] theorem setCore_regions (s : State) (k : Nat) (g : Core) : (setCore s k g).regions = s.regions := rfl
@[simp] theorem setCore_fills (s : State) (k : Nat) (g : Core) : (setCore s k g).fills = s.fills := rfl
@[simp] theorem setCore_images (s : State) (k : Nat) (g : Core) : (setCore s k g).images = s.images := rfl
@[simp] theorem setCore_setOps (s : State) (k : Nat) (g : Core) : (setCore s k g).setOps = s.setOps := rfl
@[simp] theorem setCore_deposits (s : State) (k : Nat) (g : Core) : (setCore s k g).deposits = s.deposits := rfl
@[simp] theorem setCore_saved (s : State) (k : Nat) (g : Core) : (setCore s k g).saved = s.saved := rfl
@[simp] theorem setCore_cqueues (s : State) (k : Nat) (g : Core) : (setCore s k g).cqueues = s.cqueues := rfl
@[simp] theorem setCore_tt (s : State) (k : Nat) (g : Core) : (setCore s k g).tt = s.tt := rfl
@[simp] theorem setCore_easel (s : State) (k : Nat) (g : Core) : (setCore s k g).easel = s.easel := rfl
@[simp] theorem setCore_juran (s : State) (k : Nat) (g : Core) : (setCore s k g).juran = s.juran := rfl
@[simp] theorem setCore_events (s : State) (k : Nat) (g : Core) : (setCore s k g).events = s.events := rfl

@[simp] theorem setCtx_cycle (s : State) (k : Nat) (g : Ctx) : (setCtx s k g).cycle = s.cycle := rfl
@[simp] theorem setCtx_cur (s : State) (k : Nat) (g : Ctx) : (setCtx s k g).cur = s.cur := rfl
@[simp] theorem setCtx_agenda (s : State) (k : Nat) (g : Ctx) : (setCtx s k g).agenda = s.agenda := rfl
@[simp] theorem setCtx_fresh (s : State) (k : Nat) (g : Ctx) : (setCtx s k g).fresh = s.fresh := rfl
@[simp] theorem setCtx_freeN (s : State) (k : Nat) (g : Ctx) : (setCtx s k g).freeN = s.freeN := rfl
@[simp] theorem setCtx_mem (s : State) (k : Nat) (g : Ctx) : (setCtx s k g).mem = s.mem := rfl
@[simp] theorem setCtx_badWords (s : State) (k : Nat) (g : Ctx) : (setCtx s k g).badWords = s.badWords := rfl
@[simp] theorem setCtx_agents (s : State) (k : Nat) (g : Ctx) : (setCtx s k g).agents = s.agents := rfl
@[simp] theorem setCtx_strokes (s : State) (k : Nat) (g : Ctx) : (setCtx s k g).strokes = s.strokes := rfl
@[simp] theorem setCtx_panels (s : State) (k : Nat) (g : Ctx) : (setCtx s k g).panels = s.panels := rfl
@[simp] theorem setCtx_cores (s : State) (k : Nat) (g : Ctx) : (setCtx s k g).cores = s.cores := rfl
@[simp] theorem setCtx_comms (s : State) (k : Nat) (g : Ctx) : (setCtx s k g).comms = s.comms := rfl
@[simp] theorem setCtx_results (s : State) (k : Nat) (g : Ctx) : (setCtx s k g).results = s.results := rfl
@[simp] theorem setCtx_packets (s : State) (k : Nat) (g : Ctx) : (setCtx s k g).packets = s.packets := rfl
@[simp] theorem setCtx_ackq (s : State) (k : Nat) (g : Ctx) : (setCtx s k g).ackq = s.ackq := rfl
@[simp] theorem setCtx_groups (s : State) (k : Nat) (g : Ctx) : (setCtx s k g).groups = s.groups := rfl
@[simp] theorem setCtx_copies (s : State) (k : Nat) (g : Ctx) : (setCtx s k g).copies = s.copies := rfl
@[simp] theorem setCtx_colls (s : State) (k : Nat) (g : Ctx) : (setCtx s k g).colls = s.colls := rfl
@[simp] theorem setCtx_regions (s : State) (k : Nat) (g : Ctx) : (setCtx s k g).regions = s.regions := rfl
@[simp] theorem setCtx_fills (s : State) (k : Nat) (g : Ctx) : (setCtx s k g).fills = s.fills := rfl
@[simp] theorem setCtx_images (s : State) (k : Nat) (g : Ctx) : (setCtx s k g).images = s.images := rfl
@[simp] theorem setCtx_setOps (s : State) (k : Nat) (g : Ctx) : (setCtx s k g).setOps = s.setOps := rfl
@[simp] theorem setCtx_deposits (s : State) (k : Nat) (g : Ctx) : (setCtx s k g).deposits = s.deposits := rfl
@[simp] theorem setCtx_saved (s : State) (k : Nat) (g : Ctx) : (setCtx s k g).saved = s.saved := rfl
@[simp] theorem setCtx_cqueues (s : State) (k : Nat) (g : Ctx) : (setCtx s k g).cqueues = s.cqueues := rfl
@[simp] theorem setCtx_tt (s : State) (k : Nat) (g : Ctx) : (setCtx s k g).tt = s.tt := rfl
@[simp] theorem setCtx_easel (s : State) (k : Nat) (g : Ctx) : (setCtx s k g).easel = s.easel := rfl
@[simp] theorem setCtx_juran (s : State) (k : Nat) (g : Ctx) : (setCtx s k g).juran = s.juran := rfl
@[simp] theorem setCtx_events (s : State) (k : Nat) (g : Ctx) : (setCtx s k g).events = s.events := rfl

@[simp] theorem setComm_cycle (s : State) (k : Nat) (g : Comm) : (setComm s k g).cycle = s.cycle := rfl
@[simp] theorem setComm_cur (s : State) (k : Nat) (g : Comm) : (setComm s k g).cur = s.cur := rfl
@[simp] theorem setComm_agenda (s : State) (k : Nat) (g : Comm) : (setComm s k g).agenda = s.agenda := rfl
@[simp] theorem setComm_fresh (s : State) (k : Nat) (g : Comm) : (setComm s k g).fresh = s.fresh := rfl
@[simp] theorem setComm_freeN (s : State) (k : Nat) (g : Comm) : (setComm s k g).freeN = s.freeN := rfl
@[simp] theorem setComm_mem (s : State) (k : Nat) (g : Comm) : (setComm s k g).mem = s.mem := rfl
@[simp] theorem setComm_badWords (s : State) (k : Nat) (g : Comm) : (setComm s k g).badWords = s.badWords := rfl
@[simp] theorem setComm_agents (s : State) (k : Nat) (g : Comm) : (setComm s k g).agents = s.agents := rfl
@[simp] theorem setComm_strokes (s : State) (k : Nat) (g : Comm) : (setComm s k g).strokes = s.strokes := rfl
@[simp] theorem setComm_panels (s : State) (k : Nat) (g : Comm) : (setComm s k g).panels = s.panels := rfl
@[simp] theorem setComm_cores (s : State) (k : Nat) (g : Comm) : (setComm s k g).cores = s.cores := rfl
@[simp] theorem setComm_ctxs (s : State) (k : Nat) (g : Comm) : (setComm s k g).ctxs = s.ctxs := rfl
@[simp] theorem setComm_results (s : State) (k : Nat) (g : Comm) : (setComm s k g).results = s.results := rfl
@[simp] theorem setComm_packets (s : State) (k : Nat) (g : Comm) : (setComm s k g).packets = s.packets := rfl
@[simp] theorem setComm_ackq (s : State) (k : Nat) (g : Comm) : (setComm s k g).ackq = s.ackq := rfl
@[simp] theorem setComm_groups (s : State) (k : Nat) (g : Comm) : (setComm s k g).groups = s.groups := rfl
@[simp] theorem setComm_copies (s : State) (k : Nat) (g : Comm) : (setComm s k g).copies = s.copies := rfl
@[simp] theorem setComm_colls (s : State) (k : Nat) (g : Comm) : (setComm s k g).colls = s.colls := rfl
@[simp] theorem setComm_regions (s : State) (k : Nat) (g : Comm) : (setComm s k g).regions = s.regions := rfl
@[simp] theorem setComm_fills (s : State) (k : Nat) (g : Comm) : (setComm s k g).fills = s.fills := rfl
@[simp] theorem setComm_images (s : State) (k : Nat) (g : Comm) : (setComm s k g).images = s.images := rfl
@[simp] theorem setComm_setOps (s : State) (k : Nat) (g : Comm) : (setComm s k g).setOps = s.setOps := rfl
@[simp] theorem setComm_deposits (s : State) (k : Nat) (g : Comm) : (setComm s k g).deposits = s.deposits := rfl
@[simp] theorem setComm_saved (s : State) (k : Nat) (g : Comm) : (setComm s k g).saved = s.saved := rfl
@[simp] theorem setComm_cqueues (s : State) (k : Nat) (g : Comm) : (setComm s k g).cqueues = s.cqueues := rfl
@[simp] theorem setComm_tt (s : State) (k : Nat) (g : Comm) : (setComm s k g).tt = s.tt := rfl
@[simp] theorem setComm_easel (s : State) (k : Nat) (g : Comm) : (setComm s k g).easel = s.easel := rfl
@[simp] theorem setComm_juran (s : State) (k : Nat) (g : Comm) : (setComm s k g).juran = s.juran := rfl
@[simp] theorem setComm_events (s : State) (k : Nat) (g : Comm) : (setComm s k g).events = s.events := rfl

@[simp] theorem report_cycle (s : State) (e : Event) : (report s e).cycle = s.cycle := rfl
@[simp] theorem report_cur (s : State) (e : Event) : (report s e).cur = s.cur := rfl
@[simp] theorem report_agenda (s : State) (e : Event) : (report s e).agenda = s.agenda := rfl
@[simp] theorem report_fresh (s : State) (e : Event) : (report s e).fresh = s.fresh := rfl
@[simp] theorem report_freeN (s : State) (e : Event) : (report s e).freeN = s.freeN := rfl
@[simp] theorem report_mem (s : State) (e : Event) : (report s e).mem = s.mem := rfl
@[simp] theorem report_badWords (s : State) (e : Event) : (report s e).badWords = s.badWords := rfl
@[simp] theorem report_agents (s : State) (e : Event) : (report s e).agents = s.agents := rfl
@[simp] theorem report_strokes (s : State) (e : Event) : (report s e).strokes = s.strokes := rfl
@[simp] theorem report_panels (s : State) (e : Event) : (report s e).panels = s.panels := rfl
@[simp] theorem report_cores (s : State) (e : Event) : (report s e).cores = s.cores := rfl
@[simp] theorem report_comms (s : State) (e : Event) : (report s e).comms = s.comms := rfl
@[simp] theorem report_ctxs (s : State) (e : Event) : (report s e).ctxs = s.ctxs := rfl
@[simp] theorem report_results (s : State) (e : Event) : (report s e).results = s.results := rfl
@[simp] theorem report_packets (s : State) (e : Event) : (report s e).packets = s.packets := rfl
@[simp] theorem report_ackq (s : State) (e : Event) : (report s e).ackq = s.ackq := rfl
@[simp] theorem report_groups (s : State) (e : Event) : (report s e).groups = s.groups := rfl
@[simp] theorem report_copies (s : State) (e : Event) : (report s e).copies = s.copies := rfl
@[simp] theorem report_colls (s : State) (e : Event) : (report s e).colls = s.colls := rfl
@[simp] theorem report_regions (s : State) (e : Event) : (report s e).regions = s.regions := rfl
@[simp] theorem report_fills (s : State) (e : Event) : (report s e).fills = s.fills := rfl
@[simp] theorem report_images (s : State) (e : Event) : (report s e).images = s.images := rfl
@[simp] theorem report_setOps (s : State) (e : Event) : (report s e).setOps = s.setOps := rfl
@[simp] theorem report_deposits (s : State) (e : Event) : (report s e).deposits = s.deposits := rfl
@[simp] theorem report_saved (s : State) (e : Event) : (report s e).saved = s.saved := rfl
@[simp] theorem report_cqueues (s : State) (e : Event) : (report s e).cqueues = s.cqueues := rfl
@[simp] theorem report_tt (s : State) (e : Event) : (report s e).tt = s.tt := rfl
@[simp] theorem report_easel (s : State) (e : Event) : (report s e).easel = s.easel := rfl
@[simp] theorem report_juran (s : State) (e : Event) : (report s e).juran = s.juran := rfl

@[simp] theorem getAgent_setAgent (s : State) (k : Nat) (g : Agent) : getAgent (setAgent s k g) k = some g :=
  tabGet_tabPut_self _ _ _

/-- A second write of an agent replaces the first. -/
@[simp] theorem setAgent_setAgent (s : State) (k : Nat) (a b : Agent) : setAgent (setAgent s k a) k b = setAgent s k b := by
  simp [setAgent, tabPut_tabPut]

theorem getAgent_setAgent_of_ne (s : State) {k j : Nat} (g : Agent) (h : j ≠ k) : getAgent (setAgent s k g) j = getAgent s j :=
  tabGet_tabPut_of_ne _ _ h

@[simp] theorem getAgent_setStroke (s : State) (k : Nat) (g : Stroke) (j : Nat) : getAgent (setStroke s k g) j = getAgent s j := rfl
@[simp] theorem getAgent_setPanel (s : State) (k : Nat) (g : Panel) (j : Nat) : getAgent (setPanel s k g) j = getAgent s j := rfl
@[simp] theorem getAgent_setCore (s : State) (k : Nat) (g : Core) (j : Nat) : getAgent (setCore s k g) j = getAgent s j := rfl
@[simp] theorem getAgent_setCtx (s : State) (k : Nat) (g : Ctx) (j : Nat) : getAgent (setCtx s k g) j = getAgent s j := rfl
@[simp] theorem getAgent_setComm (s : State) (k : Nat) (g : Comm) (j : Nat) : getAgent (setComm s k g) j = getAgent s j := rfl
@[simp] theorem getAgent_report (s : State) (e : Event) (j : Nat) : getAgent (report s e) j = getAgent s j := rfl

@[simp] theorem getStroke_setStroke (s : State) (k : Nat) (g : Stroke) : getStroke (setStroke s k g) k = some g :=
  tabGet_tabPut_self _ _ _

theorem getStroke_setStroke_of_ne (s : State) {k j : Nat} (g : Stroke) (h : j ≠ k) : getStroke (setStroke s k g) j = getStroke s j :=
  tabGet_tabPut_of_ne _ _ h

@[simp] theorem getStroke_setAgent (s : State) (a : Nat) (g : Agent) (j : Nat) : getStroke (setAgent s a g) j = getStroke s j := rfl
@[simp] theorem getStroke_setPanel (s : State) (k : Nat) (g : Panel) (j : Nat) : getStroke (setPanel s k g) j = getStroke s j := rfl
@[simp] theorem getStroke_setCore (s : State) (k : Nat) (g : Core) (j : Nat) : getStroke (setCore s k g) j = getStroke s j := rfl
@[simp] theorem getStroke_setCtx (s : State) (k : Nat) (g : Ctx) (j : Nat) : getStroke (setCtx s k g) j = getStroke s j := rfl
@[simp] theorem getStroke_setComm (s : State) (k : Nat) (g : Comm) (j : Nat) : getStroke (setComm s k g) j = getStroke s j := rfl
@[simp] theorem getStroke_report (s : State) (e : Event) (j : Nat) : getStroke (report s e) j = getStroke s j := rfl

@[simp] theorem getPanel_setPanel (s : State) (k : Nat) (g : Panel) : getPanel (setPanel s k g) k = some g :=
  tabGet_tabPut_self _ _ _

theorem getPanel_setPanel_of_ne (s : State) {k j : Nat} (g : Panel) (h : j ≠ k) : getPanel (setPanel s k g) j = getPanel s j :=
  tabGet_tabPut_of_ne _ _ h

@[simp] theorem getPanel_setAgent (s : State) (a : Nat) (g : Agent) (j : Nat) : getPanel (setAgent s a g) j = getPanel s j := rfl
@[simp] theorem getPanel_setStroke (s : State) (k : Nat) (g : Stroke) (j : Nat) : getPanel (setStroke s k g) j = getPanel s j := rfl
@[simp] theorem getPanel_setCore (s : State) (k : Nat) (g : Core) (j : Nat) : getPanel (setCore s k g) j = getPanel s j := rfl
@[simp] theorem getPanel_setCtx (s : State) (k : Nat) (g : Ctx) (j : Nat) : getPanel (setCtx s k g) j = getPanel s j := rfl
@[simp] theorem getPanel_setComm (s : State) (k : Nat) (g : Comm) (j : Nat) : getPanel (setComm s k g) j = getPanel s j := rfl
@[simp] theorem getPanel_report (s : State) (e : Event) (j : Nat) : getPanel (report s e) j = getPanel s j := rfl

@[simp] theorem getCtx_setCtx (s : State) (k : Nat) (g : Ctx) : getCtx (setCtx s k g) k = some g :=
  tabGet_tabPut_self _ _ _

theorem getCtx_setCtx_of_ne (s : State) {k j : Nat} (g : Ctx) (h : j ≠ k) : getCtx (setCtx s k g) j = getCtx s j :=
  tabGet_tabPut_of_ne _ _ h

@[simp] theorem getCtx_setAgent (s : State) (a : Nat) (g : Agent) (j : Nat) : getCtx (setAgent s a g) j = getCtx s j := rfl
@[simp] theorem getCtx_setStroke (s : State) (k : Nat) (g : Stroke) (j : Nat) : getCtx (setStroke s k g) j = getCtx s j := rfl
@[simp] theorem getCtx_setPanel (s : State) (k : Nat) (g : Panel) (j : Nat) : getCtx (setPanel s k g) j = getCtx s j := rfl
@[simp] theorem getCtx_setCore (s : State) (k : Nat) (g : Core) (j : Nat) : getCtx (setCore s k g) j = getCtx s j := rfl
@[simp] theorem getCtx_setComm (s : State) (k : Nat) (g : Comm) (j : Nat) : getCtx (setComm s k g) j = getCtx s j := rfl
@[simp] theorem getCtx_report (s : State) (e : Event) (j : Nat) : getCtx (report s e) j = getCtx s j := rfl

@[simp] theorem getComm_setComm (s : State) (k : Nat) (g : Comm) : getComm (setComm s k g) k = some g :=
  tabGet_tabPut_self _ _ _

theorem getComm_setComm_of_ne (s : State) {k j : Nat} (g : Comm) (h : j ≠ k) : getComm (setComm s k g) j = getComm s j :=
  tabGet_tabPut_of_ne _ _ h

@[simp] theorem getComm_setAgent (s : State) (a : Nat) (g : Agent) (j : Nat) : getComm (setAgent s a g) j = getComm s j := rfl
@[simp] theorem getComm_setStroke (s : State) (k : Nat) (g : Stroke) (j : Nat) : getComm (setStroke s k g) j = getComm s j := rfl
@[simp] theorem getComm_setPanel (s : State) (k : Nat) (g : Panel) (j : Nat) : getComm (setPanel s k g) j = getComm s j := rfl
@[simp] theorem getComm_setCore (s : State) (k : Nat) (g : Core) (j : Nat) : getComm (setCore s k g) j = getComm s j := rfl
@[simp] theorem getComm_setCtx (s : State) (k : Nat) (g : Ctx) (j : Nat) : getComm (setCtx s k g) j = getComm s j := rfl
@[simp] theorem getComm_report (s : State) (e : Event) (j : Nat) : getComm (report s e) j = getComm s j := rfl

@[simp] theorem getCore_setAgent (s : State) (a : Nat) (g : Agent) (j : Nat) : getCore (setAgent s a g) j = getCore s j := rfl
@[simp] theorem getCore_setStroke (s : State) (k : Nat) (g : Stroke) (j : Nat) : getCore (setStroke s k g) j = getCore s j := rfl
@[simp] theorem getCore_setPanel (s : State) (k : Nat) (g : Panel) (j : Nat) : getCore (setPanel s k g) j = getCore s j := rfl
@[simp] theorem getCore_setCtx (s : State) (k : Nat) (g : Ctx) (j : Nat) : getCore (setCtx s k g) j = getCore s j := rfl
@[simp] theorem getCore_setComm (s : State) (k : Nat) (g : Comm) (j : Nat) : getCore (setComm s k g) j = getCore s j := rfl
@[simp] theorem getCore_report (s : State) (e : Event) (j : Nat) : getCore (report s e) j = getCore s j := rfl

end Sys2Proof.Machine
end

