-- ==== Sys2Proof/Laws/Shapes.lean ====
section
/-! SUPPORT. The shared shapes of instructions: what each answers when its checks pass. -/

namespace Sys2Proof.Machine
open Sys2Proof

/-- t differs from s in the error counters and the log alone (R348). -/
def CountsErrors (s t : State) : Prop :=
  ∃ counts log lost base, t = { s with juran := { s.juran with counts := counts, log := log, lost := lost, logBase := base } }

theorem CountsErrors.rfl {s : State} : CountsErrors s s :=
  ⟨s.juran.counts, s.juran.log, s.juran.lost, s.juran.logBase, Eq.refl _⟩

theorem CountsErrors.trans {s t u : State} (h : CountsErrors s t) (g : CountsErrors t u) : CountsErrors s u := by
  obtain ⟨_, _, _, _, h⟩ := h
  subst h
  exact g

theorem addLog_counts (s : State) (pa kind : Nat) (u : ErrUnit) (ctx n : Nat) (d : Option DropPlace) :
    CountsErrors s (addLog s pa kind u ctx n d) := by
  by_cases h : 4096 ≤ s.juran.log.length
  · exact ⟨s.juran.counts, _, s.juran.lost + 1, s.juran.logBase + 1, by simp only [addLog, if_pos h]; exact Eq.refl _⟩
  · exact ⟨s.juran.counts, _, s.juran.lost, s.juran.logBase, by simp only [addLog, if_neg h]; exact Eq.refl _⟩

theorem bumpUnit_counts (s : State) (u : ErrUnit) (pa ctx : Nat) : CountsErrors s (bumpUnit s u pa ctx) := by
  have h : CountsErrors s { s with juran := { s.juran with
      counts := assocPut s.juran.counts u (min (unitCount s u + 1) (2 ^ 32 - 1)) } } :=
    ⟨_, s.juran.log, s.juran.lost, s.juran.logBase, Eq.refl _⟩
  unfold bumpUnit
  dsimp only
  split
  · exact h.trans (addLog_counts ..)
  · exact h

theorem countError_counts (s : State) (u : ErrUnit) (pa ctx : Nat) : CountsErrors s (countError s u pa ctx) :=
  (bumpUnit_counts ..).trans (addLog_counts ..)

theorem countMet_counts (s : State) (ctx : Nat) (t : Trap) : CountsErrors s (countMet s ctx t) := by
  unfold countMet
  split
  · exact countError_counts ..
  · exact .rfl

theorem runAgent_of_ctxt {s : State} {x : Ctxt} (body : Ctxt → Eff State) (h : theCtxt s = some x) :
    runAgent s body = settle s x.aid (body x) := by
  simp [runAgent, h]

theorem theCtxt_aid {s : State} {x : Ctxt} (h : theCtxt s = some x) : x.aid = s.cur := by
  simp only [theCtxt, Option.bind_eq_bind, Option.bind_eq_some_iff, Option.pure_def, Option.some.injEq] at h
  obtain ⟨_, _, _, _, _, _, _, _, _, _, rfl⟩ := h
  rfl

theorem theCtxt_agent {s : State} {x : Ctxt} (h : theCtxt s = some x) : getAgent s x.aid = some x.a := by
  rw [theCtxt_aid h]
  simp only [theCtxt, Option.bind_eq_bind, Option.bind_eq_some_iff, Option.pure_def, Option.some.injEq] at h
  obtain ⟨a, ha, _, _, _, _, _, _, _, _, rfl⟩ := h
  exact ha

theorem theCtxt_stroke {s : State} {x : Ctxt} (h : theCtxt s = some x) : getStroke s x.a.stroke = some x.st := by
  simp only [theCtxt, Option.bind_eq_bind, Option.bind_eq_some_iff, Option.pure_def, Option.some.injEq] at h
  obtain ⟨a, ha, st, hst, _, _, _, _, _, _, rfl⟩ := h
  exact hst

theorem theCtxt_panel {s : State} {x : Ctxt} (h : theCtxt s = some x) : getPanel s x.st.panel = some x.p := by
  simp only [theCtxt, Option.bind_eq_bind, Option.bind_eq_some_iff, Option.pure_def, Option.some.injEq] at h
  obtain ⟨a, ha, st, hst, p, hp, _, _, _, _, rfl⟩ := h
  exact hp

theorem theCtxt_comm {s : State} {x : Ctxt} (h : theCtxt s = some x) : getComm s x.p.comm = some x.c := by
  simp only [theCtxt, Option.bind_eq_bind, Option.bind_eq_some_iff, Option.pure_def, Option.some.injEq] at h
  obtain ⟨a, ha, st, hst, p, hp, c, hc, _, _, rfl⟩ := h
  exact hc

theorem theCtxt_ctx {s : State} {x : Ctxt} (h : theCtxt s = some x) : getCtx s x.p.ctx = some x.ctx := by
  simp only [theCtxt, Option.bind_eq_bind, Option.bind_eq_some_iff, Option.pure_def, Option.some.injEq] at h
  obtain ⟨a, ha, st, hst, p, hp, c, hc, k, hk, rfl⟩ := h
  exact hk

/-- A register instruction whose checks pass and whose granules are there writes its results. -/
theorem regInstr_commits {s s1 s2 : State} {x0 x : Ctxt} {is : Issue} {km : Nat} {pl : Place} {reads : List Ref}
    {uni : List Nat} {always : Bool} {f : Ctxt → Mask → List (Nat → Nat) → Eff Writes} {vs : List (Nat → Nat)}
    {w : Writes} (hx : theCtxt s = some x0) (hg : gather s x0 is km pl reads uni always = .ok (s1, x, vs))
    (hl : activeMask x0.a km ≠ 0 ∨ always = true) (hw : f x (activeMask x0.a km) vs = .ok w)
    (hr : reserveFor s1 x (freedBy x.a is.srcs) (w.v.map (·.name)) = .ok s2) :
    regInstr s is km pl reads uni always f = clearWait (writeBack s2 x is (activeMask x0.a km) w) x0.aid := by
  have hc : ¬ (activeMask x0.a km = 0#128 ∧ always = false) := by
    rintro ⟨h1, h2⟩
    rcases hl with h | h
    · exact h h1
    · simp [h] at h2
  rw [regInstr, runAgent_of_ctxt _ hx]
  simp [hg, hw, commitRegs, hr, bind, Except.bind, pure, Except.pure]
  rw [if_neg hc]
  rfl

/-- With no lane active a register instruction only frees, pops, pushes and goes on (R15). -/
theorem regInstr_idle {s s1 s2 : State} {x0 x : Ctxt} {is : Issue} {km : Nat} {pl : Place} {reads : List Ref}
    {uni : List Nat} {f : Ctxt → Mask → List (Nat → Nat) → Eff Writes} {vs : List (Nat → Nat)} {w : Writes}
    (hf : f x (activeMask x0.a km) vs = .ok w) (hx : theCtxt s = some x0) (hg : gather s x0 is km pl reads uni false = .ok (s1, x, vs))
    (hl : activeMask x0.a km = 0) (hr : reserveFor s1 x (freedBy x.a is.srcs) [] = .ok s2) :
    regInstr s is km pl reads uni false f =
      clearWait (writeBack s2 x is (activeMask x0.a km) { push := if is.push.isSome then w.push else none }) x0.aid := by
  rw [regInstr, runAgent_of_ctxt _ hx]
  by_cases hp : is.push.isSome
  · have hf0 : f x 0#128 vs = .ok w := by rw [hl] at hf; exact hf
    simp [hg, hl, hp, hf0, idleWrites, Except.map, commitRegs, bind, Except.bind, settle, pure, Except.pure]
    rw [hr]
  · simp [hg, hl, hp, commitRegs, hr, bind, Except.bind, settle, pure, Except.pure]

theorem ctlInstr_of_gather {s s1 : State} {x0 x : Ctxt} {sw : Bool} {pl : Place} {reads : List Ref}
    (body : State → Ctxt → Mask → Eff State) (hx : theCtxt s = some x0)
    (hg : ctlGather s x0 sw pl (fun _ => reads) = .ok (s1, x)) :
    ctlInstr s sw pl reads body = settle s x0.aid (body s1 x x0.a.em) := by
  rw [ctlInstr, runAgent_of_ctxt _ hx]
  simp [hg, bind, Except.bind]

theorem branchMask_of_gather {s s1 : State} {x0 x : Ctxt} {sw : Bool} {km : Nat} (off : BitVec 36) (c : Mask → Bool)
    (hx : theCtxt s = some x0) (hg : ctlGather s x0 sw {} (fun y => selRefs y km) = .ok (s1, x)) :
    branchMask s sw km off c = settle s x0.aid (branchIf s1 x x0.a.em (c (testMask x km)) off) := by
  rw [branchMask, runAgent_of_ctxt _ hx]
  simp [hg, bind, Except.bind]

theorem sysInstr_of_gather {s s1 : State} {x0 x : Ctxt} {h : Hdr} {pl : Place} {reads : List Ref} {b : List Opd}
    {v : DWord} {runs : Agent → Bool} {masked : Bool} (body : State → Ctxt → Mask → DWord → Eff State) (hx : theCtxt s = some x0)
    (hg : sysGather s x0 h pl reads b runs masked = .ok (s1, x, v)) :
    sysInstr s h pl reads b body runs masked = settle s x0.aid (body s1 x (activeMask x0.a h.km) v) := by
  rw [sysInstr, runAgent_of_ctxt _ hx]
  simp [hg, bind, Except.bind]

theorem memInstr_of_gather {s s1 : State} {x0 x : Ctxt} {h : Hdr} {pl : Place} {m : MAddr} {extra : List Src}
    {dsts : List Ref} {straddle : Option (Nat × Nat)} {push : Option Nat} {vs : List (Nat → Nat)}
    (body : State → Ctxt → Mask → List Src → List (Nat → Nat) → Eff State) (hx : theCtxt s = some x0)
    (hg : memGather s x0 h pl m extra dsts straddle push = .ok (s1, x, vs)) :
    memInstr s h pl m extra dsts straddle push body =
      settle s x0.aid (body s1 x (activeMask x0.a h.km) (addrSrcs h m ++ extra) vs) := by
  rw [memInstr, runAgent_of_ctxt _ hx]
  simp [hg, bind, Except.bind]

theorem wideInstr_of_gather {s s1 : State} {x0 x : Ctxt} {h : Hdr} {pl : Place} {srcs : List Src} {refs : List Ref}
    {vs : List Nat} (body : State → Ctxt → Mask → List Nat → Eff State) (hx : theCtxt s = some x0)
    (hg : wideGather s x0 h pl srcs refs = .ok (s1, x, vs)) :
    wideInstr s h pl srcs refs body = settle s x0.aid (body s1 x x0.a.em vs) := by
  rw [wideInstr, runAgent_of_ctxt _ hx]
  simp [hg, bind, Except.bind]

theorem matInstr_of_gather {s s1 : State} {x0 x : Ctxt} {h : Hdr} {srcs : Nat → List Src} {refs : List Ref}
    {uni : List Nat} {m : Matrix} {vs : List (Nat → Nat)}
    (body : State → Ctxt → Matrix → Mask → List Src → List (Nat → Nat) → Eff State)
    (pre : Mask → State → Ctxt → List (Nat → Nat) → Eff Unit) (hx : theCtxt s = some x0)
    (hg : matGather s x0 h (srcs x0.w) refs uni (pre (activeMask x0.a h.km)) = .ok (s1, x, m, vs)) :
    matInstr s h srcs refs uni body pre = settle s x0.aid (body s1 x m (activeMask x0.a h.km) (srcs x0.w) vs) := by
  rw [matInstr, runAgent_of_ctxt _ hx]
  simp [hg, bind, Except.bind]

theorem taskInstr_of_gather {s s1 : State} {x0 x : Ctxt} {h : Hdr} {ill : Ctxt → Bool} {srcs : List Src}
    {dsts : List Ref} {uni : List Nat} {size : Nat}
    (body : State → Ctxt → Mask → List (Nat → Nat) → Eff (State × Writes)) (hx : theCtxt s = some x0)
    (hg : taskGather s x0 h ill srcs dsts uni = .ok (s1, x)) (hl : activeMask x0.a h.km ≠ 0#128) :
    taskInstr s h ill srcs dsts uni size body = settle s x0.aid (do
      let vs ← srcValues s1 x (activeMask x0.a h.km) srcs srcs.length 0
      let (s2, w) ← body s1 x (activeMask x0.a h.km) vs
      commitRegs s2 x { sw := h.sw, size := size, srcs := srcs, dsts := dsts } (activeMask x0.a h.km) w) := by
  rw [taskInstr, runAgent_of_ctxt _ hx]
  simp only [hg, bind, Except.bind]
  have hl0 : ¬ activeMask x0.a h.km = 0 := hl
  rw [if_neg hl0]

@[simp] theorem settle_ok (s : State) (aid : Nat) (t : State) : settle s aid (.ok t) = clearWait t aid := rfl

end Sys2Proof.Machine
end

