-- ==== Sys2Proof/Tests/Slice0.lean ====
section
/-! SUPPORT. The package's own tests: terms that well-formedness refuses, words that the spec writes out, a step of some
instructions, and for each statement with hypotheses a state and operands that meet them. -/

namespace Sys2Proof.Tests
open Sys2Proof Sys2Proof.Machine Sys2Proof.Claims

/-! ## A small state: one stroke of 32 lanes, agent 4, stroke 3, panel 2, commission 1, context 1, core 0 -/

def st0 : State := { State.reset.withFetchWord 128 0 with cur := 4, agenda := [] }

def onAgent (f : Agent → Agent) (s : State := st0) : State := { s with agents := tabMod s.agents 4 f }
def onStroke (f : Stroke → Stroke) (s : State := st0) : State := { s with strokes := tabMod s.strokes 3 f }
def onPanel (f : Panel → Panel) (s : State := st0) : State := { s with panels := tabMod s.panels 2 f }
def onCtx (f : Ctx → Ctx) (s : State := st0) : State := { s with ctxs := tabMod s.ctxs 1 f }
def onComm (f : Comm → Comm) (s : State := st0) : State := { s with comms := tabMod s.comms 1 f }

/-- Registers set. -/
def sregs (l : Tab DWord) (s : State := st0) : State := onAgent (fun a => { a with s := l }) s

/-- The names below n live. -/
def liveBelow (n : Nat) (s : State := st0) : State := onAgent (fun a => { a with live := BitVec.ofNat 192 (2 ^ n - 1) }) s

def someAnd {α : Type} (o : Option α) (p : α → Bool) : Bool :=
  match o with
  | some v => p v
  | none => false

def okAnd {ε α : Type} (e : Except ε α) (p : α → Bool) : Bool :=
  match e with
  | .ok v => p v
  | .error _ => false

theorem someAnd_spec {α : Type} {o : Option α} {p : α → Bool} (h : someAnd o p = true) : ∃ v, o = some v ∧ p v = true := by
  cases o with
  | none => cases h
  | some v => exact ⟨v, rfl, h⟩

theorem okAnd_spec {ε α : Type} {e : Except ε α} {p : α → Bool} (h : okAnd e p = true) : ∃ v, e = .ok v ∧ p v = true := by
  cases e with
  | error _ => cases h
  | ok v => exact ⟨v, rfl, h⟩

theorem pair_eq {α β : Type} {r : α × β} {b : β} (h : r.2 = b) : r = (r.1, b) := by rw [← h]

/-! ## Register instructions -/

def regGate (s : State) (o : RegOp) : Bool :=
  someAnd (theCtxt s) fun x0 => okAnd (gather s x0 o.is o.km o.place o.reads o.uni o.always) fun (s1, x, vs) =>
    okAnd (reserveFor s1 x (freedBy x.a o.is.srcs) ((o.writes x (activeMask x0.a o.km) vs).v.map (·.name))) fun _ =>
      activeMask x0.a o.km != 0 || o.always

theorem regReady_of {s : State} {o : RegOp} (h : regGate s o = true) : ∃ x0 x vs s2, RegReady s o x0 x vs s2 := by
  obtain ⟨x0, h0, h⟩ := someAnd_spec h
  obtain ⟨⟨s1, x, vs⟩, h1, h⟩ := okAnd_spec h
  obtain ⟨s2, h2, h⟩ := okAnd_spec h
  refine ⟨x0, x, vs, s2, h0, ⟨s1, h1, h2⟩, ?_⟩
  simpa using h

/-- Every instruction of a list belongs to a family, is well-formed and ready to run in `s`. -/
abbrev Ready {α : Type} (f : Instr → Option α) (r : α → RegOp) (s : State) (l : List Instr) : Prop :=
  ∀ i ∈ l, ∃ o, f i = some o ∧ i.WellFormed ∧ ∃ x0 x vs s2, RegReady s (r o) x0 x vs s2

theorem ready_of {α : Type} {f : Instr → Option α} {r : α → RegOp} {s : State} {l : List Instr}
    (h : (l.all fun i => someAnd (f i) fun o => wfInstr i && regGate s (r o)) = true) : Ready f r s l := by
  intro i hi
  obtain ⟨o, ho, h⟩ := someAnd_spec (List.all_eq_true.1 h i hi)
  simp only [Bool.and_eq_true] at h
  exact ⟨o, ho, h.1, regReady_of h.2⟩

/-- Eight names live, a scalar set. -/
def st1 : State := liveBelow 8 (sregs [(5, 7), (6, 2)])

theorem witness_arith : Ready arithOp LaneOp.reg st1
    [.iadd (hdr 0 true) .i32 (.v 1) (.v 1) (.imm 2), .isub (hdr) .i64 (.s 4) (.s 5) (.s 6),
     .iadds (hdr) .i16 true (.v 1) (.v 2) (.v 3), .imul (hdr) .n32 (.v 1) (.v 2) (.v 3), .imulh (hdr) .i64 (.s 4) (.s 5) (.s 6),
     .imad (hdr) .i32 (.v 1) (.v 2) (.v 3) (.v 4), .imin (hdr) .i8 (.v 1) (.v 2) (.v 3), .imax (hdr) .n8 (.v 1) (.v 2) (.v 3),
     .iabs (hdr) .i32 true (.v 1) (.v 2), .lea (hdr) .n64 3 (.s 4) (.s 5) (.s 6), .mov (hdr) .b32 (.v 9) (.v 2),
     .movi (hdr) .b32 (.v 191) 5] := ready_of (by decide)

theorem witness_divide : Ready divideOp LaneOp.reg st1
    [.idiv (hdr) .i64 (.s 4) (.s 5) (.s 63), .irem (hdr) .i32 (.v 1) (.v 2) (.v 3)] := ready_of (by decide)

theorem witness_bits : Ready bitsOp LaneOp.reg st1
    [.and (hdr) .b32 (.v 1) (.v 2) (.v 3), .or (hdr) .b64 (.s 4) (.s 5) (.s 6), .xor (hdr) .b32 (.v 1) (.v 2) (.v 3),
     .andn (hdr) .b32 (.v 1) (.v 2) (.v 3), .shl (hdr) .b32 (.v 3) (.v 1) (.v 2), .shr (hdr) .b8 (.v 3) (.v 1) (.v 2),
     .sar (hdr) .b16 (.v 3) (.v 1) (.v 2), .rot (hdr) .b32 true (.v 3) (.v 1) (.v 2), .popc (hdr) .b64 (.s 4) (.s 5),
     .clz (hdr) .b32 (.v 1) (.v 2), .brev (hdr) .b32 (.v 1) (.v 2), .bfe (hdr) .b32 true (.v 1) (.v 2) (.v 3),
     .bfi (hdr) .b32 (.v 1) (.v 2) (.v 3) (.v 4), .prmt (hdr) (.v 1) (.v 2) (.v 3) (.v 4)] := ready_of (by decide)

theorem witness_compare : Ready compareOp id st1
    [.icmp (hdr) .i32 .lt (.k 1) (.v 1) (.v 2), .fcmp (hdr) .f32 .un .em (.v 1) (.v 2),
     .iaddc (hdr) .n32 true 1 (.v 1) (.v 2) (.v 3), .sel (hdr) .b32 0 (.v 1) (.v 2) (.v 3)] := ready_of (by decide)

theorem witness_float : Ready Claims.floatOp FloatOp.reg st1
    [.fadd (hdr) .f32 ⟨false, false, .rne⟩ (.v 1) (.v 2) (.v 3), .fsub (hdr) .f16 ⟨true, true, .rtz⟩ (.v 1) (.v 2) (.v 3),
     .fmul (hdr) .bf16 ⟨false, false, .rdn⟩ (.v 1) (.v 2) (.v 3),
     .ffma (hdr) .f32 ⟨false, false, .rup⟩ (.v 4) (.v 5) (.v 6) (.v 7), .fmin (hdr) .f32 false (.v 1) (.v 2) (.v 3),
     .fmax (hdr) .f32 false (.v 1) (.v 2) (.v 3), .fdiv (hdr) .f32 ⟨false, false, .rsk⟩ (.v 1) (.v 2) (.v 3),
     .fsqrt (hdr) .f32 ⟨false, false, .rne⟩ (.v 1) (.v 2), .frcp (hdr) .f32 ⟨false, false, .rne⟩ (.v 1) (.v 2),
     .frsq (hdr) .f32 ⟨false, false, .rne⟩ (.v 1) (.v 2), .fex2 (hdr) .f32 ⟨false, false, .rne⟩ (.v 1) (.v 2),
     .flg2 (hdr) .f32 ⟨false, false, .rne⟩ (.v 1) (.v 2), .ftanh (hdr) .f32 ⟨false, false, .rne⟩ (.v 1) (.v 2),
     .frnd (hdr) .f32 false .rtz (.v 1) (.v 2), .fclass (hdr) .f32 false (.v 1) (.v 2)] := ready_of (by decide)

theorem witness_convert : Ready convertOp FloatOp.reg st1
    [.qnt (hdr) .e4m3 .rne (.v 1) (.v 2) (.v 3), .dqnt (hdr) .trit .rne (.v 1) (.v 2) (.v 3), .tpack (hdr) (.v 4) (.v 5) (.v 6),
     .tunpk (hdr) (.v 4) (.v 5) (.v 6), .unpk (hdr) .i8 true .rne (.v 1) (.v 2) (.v 3),
     .fdot2 (hdr) .f16 false .rne (.v 1) (.v 2) (.v 3) (.v 4)] := ready_of (by decide)

theorem witness_scale : Ready scaleOp id st1
    [.fscale (hdr) .f32 ⟨false, false, .rne⟩ (.v 1) (.v 2) (.v 3), .cvt (hdr) .i32 .f32 .rtz (.v 1) (.v 2),
     .pack (hdr) .i16 false .rne (.v 1) (.v 2) (.v 3) none] := ready_of (by decide)

theorem witness_across : Ready acrossOp id st1
    [.shfl (hdr) .b32 .xor 7 (.v 1) (.v 2) (.imm 1), .vote (hdr) .ballot (.mask (.k 1)) (.v 2),
     .lred (hdr) .i32 .add .rne (.s 4) (.v 1), .lscan (hdr) .f32 .max .rne true (.v 1) (.v 2),
     .bcast (hdr) .b32 (.v 1) (.v 2) none, .matchLanes (hdr) .b32 true 1 (.v 2),
     .topk (hdr) .i32 5 20 (.v 7) (.imm 6)] := ready_of (by decide)

/-- Those that write masks act with no lane active. -/
theorem witness_masks : Ready masksOp id (onAgent fun a => { a with em := 0 })
    [.kop (hdr) .and (.k 1) (.k 2) .em, .kmov (hdr) (.kk (.k 1) (.k 2)), .kmov (hdr) (.hiIn (.k 1) 5)] := ready_of (by decide)

theorem witness_masks_active : Ready masksOp id st1
    [.kpop (hdr) 5 (.k 2), .kfnd (hdr) true 5 (.k 2) (.imm 3), .kmov (hdr) (.loOut 5 .em)] := ready_of (by decide)

theorem witness_reads : Ready (readOp st1) id st1
    [.clk (hdr) 4, .clkPtp (hdr) 4, .srd (hdr) (.s 4) .status, .srd (hdr) (.v 1) .laneid] := ready_of (by decide)

def idleGate (s : State) (o : RegOp) : Bool :=
  someAnd (theCtxt s) fun x0 => okAnd (gather s x0 o.is o.km o.place o.reads o.uni o.always) fun (s1, x, _) =>
    okAnd (reserveFor s1 x (freedBy x.a o.is.srcs) []) fun _ => activeMask x0.a o.km == 0 && !o.always

theorem regIdle_of {s : State} {o : RegOp} (h : idleGate s o = true) : ∃ x0 x vs s2, RegIdle s o x0 x vs s2 := by
  obtain ⟨x0, h0, h⟩ := someAnd_spec h
  obtain ⟨⟨s1, x, vs⟩, h1, h⟩ := okAnd_spec h
  obtain ⟨s2, h2, h⟩ := okAnd_spec h
  exact ⟨x0, x, vs, s2, h0, ⟨s1, h1, h2⟩, by simpa using h⟩

theorem witness_idle : ∃ i s o, regOp s i = some o ∧ i.WellFormed ∧ ∃ x0 x vs s2, RegIdle s o x0 x vs s2 :=
  ⟨.movi (hdr) .b32 (.v 1) 5, onAgent fun a => { a with em := 0 }, _, rfl, by decide, regIdle_of (by decide)⟩

/-! ## Control, divergence and system instructions -/

theorem ctlRuns_of {s : State} {sw : Bool} {pl : Place} {reads : List Ref} (P : Ctxt → Ctxt → State → Bool)
    (h : (someAnd (theCtxt s) fun x0 => okAnd (ctlGather s x0 sw pl fun _ => reads) fun (u, x) => P x0 x u) = true) :
    ∃ x0 x u, CtlRuns s sw pl reads x0 x u ∧ P x0 x u = true := by
  obtain ⟨x0, h0, h⟩ := someAnd_spec h
  obtain ⟨⟨u, x⟩, h1, h⟩ := okAnd_spec h
  exact ⟨x0, x, u, ⟨h0, h1⟩, h⟩

theorem maskRuns_of {s : State} {sw : Bool} {km : Nat} (P : Ctxt → Ctxt → State → Bool)
    (h : (someAnd (theCtxt s) fun x0 => okAnd (ctlGather s x0 sw {} fun y => selRefs y km) fun (u, x) => P x0 x u) = true) :
    ∃ x0 x u, MaskRuns s sw km x0 x u ∧ P x0 x u = true := by
  obtain ⟨x0, h0, h⟩ := someAnd_spec h
  obtain ⟨⟨u, x⟩, h1, h⟩ := okAnd_spec h
  exact ⟨x0, x, u, ⟨h0, h1⟩, h⟩

theorem sysRuns_of {s : State} {h : Hdr} {pl : Place} {reads : List Ref} {b : List Opd} {runs : Agent → Bool}
    {masked : Bool} (P : Ctxt → Ctxt → State → DWord → Bool)
    (w : (someAnd (theCtxt s) fun x0 => okAnd (sysGather s x0 h pl reads b runs masked) fun (u, x, v) => P x0 x u v) = true) :
    ∃ x0 x u v, SysRuns s h pl reads b x0 x u v runs masked ∧ P x0 x u v = true := by
  obtain ⟨x0, h0, w⟩ := someAnd_spec w
  obtain ⟨⟨u, x, v⟩, h1, w⟩ := okAnd_spec w
  exact ⟨x0, x, u, v, ⟨h0, h1⟩, w⟩

def targetOk (u : State) (x : Ctxt) (off : BitVec 36) (tgt : Nat) : Bool :=
  decide ((x.a.pc.toNat : Int) + 8 * off.toInt = tgt) && decide (tgt < 2 ^ 57) &&
    okAnd (accessByte u x.p.ctx tgt .x) fun _ => true

theorem target_of {u : State} {x : Ctxt} {off : BitVec 36} {tgt : Nat} (h : targetOk u x off tgt = true) :
    Target u x off tgt := by
  simp only [targetOk, Bool.and_eq_true, decide_eq_true_eq] at h
  obtain ⟨p, hp, _⟩ := okAnd_spec h.2
  exact ⟨h.1.1, h.1.2, p, hp⟩

theorem witness_nop : ∃ t, branchRule (.nop true) st0 t := by
  obtain ⟨x0, x, u, h, -⟩ := ctlRuns_of (s := st0) (sw := true) (pl := { primer := true }) (reads := [])
    (fun _ _ _ => true) (by decide)
  exact ⟨_, x0, x, u, h, rfl⟩

theorem witness_bra_top : ∃ t, branchRule (.bra false (-8192)) st0 t := by
  obtain ⟨x0, x, u, h, hc⟩ := ctlRuns_of (s := st0) (sw := false) (pl := { primer := true }) (reads := [])
    (fun _ x u => targetOk u x (-8192) 0) (by decide)
  exact ⟨_, x0, x, u, h, 0, target_of hc, rfl⟩

theorem witness_brz_taken : ∃ t, branchRule (.brzMask false 2 3) st0 t := by
  obtain ⟨x0, x, u, h, hc⟩ := maskRuns_of (s := st0) (sw := false) (km := 2)
    (fun _ x u => (activeMask x.a 2 &&& lanesBelow x.w == 0) && targetOk u x 3 0x10018) (by decide)
  simp only [Bool.and_eq_true] at hc
  exact ⟨_, x0, x, u, h, by rw [Branches, if_pos hc.1]; exact ⟨_, target_of hc.2, rfl⟩⟩

theorem witness_brnz_not_taken : ∃ t, branchRule (.brnzScalar false 4 3) st0 t := by
  obtain ⟨x0, x, u, h, hc⟩ := ctlRuns_of (s := st0) (sw := false) (pl := { primer := true }) (reads := [.s 4 1])
    (fun _ x _ => !(sReg x.a 4 != 0)) (by decide)
  exact ⟨_, x0, x, u, h, by rw [Branches, if_neg (by simpa using hc)]⟩

theorem witness_call : ∃ t, branchRule (.call false 9 3) st0 t := by
  obtain ⟨x0, x, u, h, hc⟩ := ctlRuns_of (s := st0) (sw := false) (pl := { meld := false }) (reads := [.s 9 0])
    (fun _ x u => targetOk u x 3 0x10018) (by decide)
  exact ⟨_, x0, x, u, 0x10018, h, target_of hc, rfl⟩

theorem witness_ret : ∃ t, branchRule (.ret false false 9) (sregs [(9, 0x20000)]) t := by
  obtain ⟨x0, x, u, h, hc⟩ := ctlRuns_of (s := sregs [(9, 0x20000)]) (sw := false) (pl := { meld := false })
    (reads := [.s 9 1]) (fun _ x u => decide ((sReg x.a 9).toNat % 8 = 0 ∧ (sReg x.a 9).toNat < 2 ^ 57) &&
      okAnd (accessByte u x.p.ctx (sReg x.a 9).toNat .x) fun _ => true) (by decide)
  simp only [Bool.and_eq_true, decide_eq_true_eq] at hc
  obtain ⟨p, hp, -⟩ := okAnd_spec hc.2
  exact ⟨_, x0, x, u, h, hc.1.1, hc.1.2, ⟨p, hp⟩, rfl⟩

theorem witness_loop_again : ∃ t, branchRule (.loop false 4 (-2)) (sregs [(4, 2)]) t := by
  obtain ⟨x0, x, u, h, hc⟩ := ctlRuns_of (s := sregs [(4, 2)]) (sw := false) (pl := { primer := true })
    (reads := [.s 4 1]) (fun _ x u => decide (2 ≤ (sReg x.a 4).toNat) && targetOk u x (-2) 0xFFF0) (by decide)
  simp only [Bool.and_eq_true, decide_eq_true_eq] at hc
  exact ⟨_, x0, x, u, h, by rw [if_pos hc.1]; exact ⟨_, target_of hc.2, rfl⟩⟩

theorem witness_loop_ends : ∃ t, branchRule (.loop false 4 (-2)) (sregs [(4, 1)]) t := by
  obtain ⟨x0, x, u, h, hc⟩ := ctlRuns_of (s := sregs [(4, 1)]) (sw := false) (pl := { primer := true })
    (reads := [.s 4 1]) (fun _ x _ => decide (¬ 2 ≤ (sReg x.a 4).toNat)) (by decide)
  exact ⟨_, x0, x, u, h, by rw [if_neg (of_decide_eq_true hc)]⟩

theorem witness_rgn : ∃ t, branchRule (.rgn false 0 true 7) (liveBelow 2) t := by
  obtain ⟨x0, x, u, h, -⟩ := ctlRuns_of (s := liveBelow 2) (sw := false) (pl := {}) (reads := [])
    (fun _ _ _ => true) (by decide)
  exact ⟨_, x0, x, u, h, rfl⟩

theorem witness_exit : ∃ t, exitRule (.exit false) st0 t := by
  obtain ⟨x0, x, u, h, hc⟩ := ctlRuns_of (s := st0) (sw := false) (pl := { primer := true, meld := false })
    (reads := []) (fun x0 x u => okAnd (waitS u x.aid) (fun _ => true) && okAnd (waitStreams u x x0.a.em allStreams) (fun _ => true) &&
      (!x.a.primer && decide (x.a.frames = []))) (by decide)
  simp only [Bool.and_eq_true, decide_eq_true_eq, Bool.not_eq_true'] at hc
  obtain ⟨_, h1, -⟩ := okAnd_spec hc.1.1
  obtain ⟨_, h2, -⟩ := okAnd_spec hc.1.2
  exact ⟨_, x0, x, u, h, h1, h2, by rw [if_neg (by simp [hc.2.1]), if_pos hc.2.2]⟩

theorem witness_meld : ∃ t, divergenceRule (.meld false false (.k 1) (.k 2)) st0 t := by
  obtain ⟨x0, x, u, h, -⟩ := ctlRuns_of (s := st0) (sw := false) (pl := divPlace false)
    (reads := [kRef (.k 1) 1, kRef (.k 2) 2, .k 16 1]) (fun _ _ _ => true) (by decide)
  exact ⟨_, x0, x, u, h, rfl⟩

theorem witness_mend : ∃ t, divergenceRule (.mend false) (onAgent fun a => { a with meld := true }) t := by
  obtain ⟨x0, x, u, h, hc⟩ := ctlRuns_of (s := onAgent fun a => { a with meld := true }) (sw := false) (pl := {})
    (reads := []) (fun _ x _ => x.a.meld) (by decide)
  exact ⟨_, x0, x, u, h, hc, rfl⟩

/-- All lanes stay: a solo entry. -/
theorem witness_split_none : ∃ t, divergenceRule (.split false 3 0 6) st0 t := by
  obtain ⟨x0, x, u, h, hc⟩ := ctlRuns_of (s := st0) (sw := true) (pl := divPlace false) (reads := [.k 3 1, .k 16 1])
    (fun _ x _ => decide (x.a.jstack.length < 16) &&
      decide (kReg x.a 3 &&& lanesBelow x.w &&& x.a.em = 0)) (by decide)
  simp only [Bool.and_eq_true, decide_eq_true_eq] at hc
  exact ⟨_, x0, x, u, h, hc.1, by rw [if_pos (by exact hc.2)]⟩

/-- Lane 0 diverts: a fragment takes it. -/
theorem witness_split_real : ∃ t, divergenceRule (.split false 3 0 6) (onAgent fun a => { a with k := [(3, 1)] }) t := by
  obtain ⟨x0, x, u, h, hc⟩ := ctlRuns_of (s := onAgent fun a => { a with k := [(3, 1)] }) (sw := true)
    (pl := divPlace false) (reads := [.k 3 1, .k 16 1])
    (fun _ x u => decide (x.a.jstack.length < 16) &&
      decide (kReg x.a 3 &&& lanesBelow x.w &&& x.a.em ≠ 0) &&
      decide (x.a.em &&& ~~~(kReg x.a 3 &&& lanesBelow x.w &&& x.a.em) ≠ 0) &&
      decide (tokenHeld x.st 0 = false ∧ entriesUsed u x.p.core < 32) && targetOk u x 6 0x10030) (by decide)
  simp only [Bool.and_eq_true, decide_eq_true_eq] at hc
  exact ⟨_, x0, x, u, h, hc.1.1.1.1, (if_neg hc.1.1.1.2).mpr ⟨_, target_of hc.2, (if_neg hc.1.1.2).mpr ((if_pos hc.1.2).mpr rfl)⟩⟩

theorem witness_join : ∃ t, divergenceRule (.join false 5) (onAgent fun a => { a with jstack := [{ tok := 5, kind := .solo }] }) t := by
  obtain ⟨x0, x, u, h, hc⟩ := ctlRuns_of (s := onAgent fun a => { a with jstack := [{ tok := 5, kind := .solo }] }) (sw := true)
    (pl := divPlace false) (reads := []) (fun _ x _ =>
      decide (x.a.jstack = [{ tok := 5, kind := .solo }])) (by decide)
  exact ⟨_, x0, x, u, _, _, h, of_decide_eq_true hc, rfl, .inl ⟨rfl, rfl⟩⟩

/-- The JOIN of token 5 with the entry `e` on top, over the frame `f` and a record of a split between this agent and one
that has exited. -/
def stJoin (e : JoinEntry) (f : Option SerialFrame) : State :=
  onStroke (fun k => { k with splits := [(9, { tok := 5, members := [4, 7], exited := [7] })] })
    (onAgent fun a => { a with jstack := [e], frames := f.toList })

def frameOf (groups : List (Mask × VAddr)) : SerialFrame :=
  { s := [], k := [], rstep := 0, groups := groups, brx := false, kAcc := [] }

/-- One group, whose end makes the split whole, and two, of which the second is still to run. -/
def oneGroup : SerialFrame := frameOf [(0xFFFFFFFF, 0x10000)]
def twoGroups : SerialFrame := frameOf [(0xFFFF, 0x10000), (0xFFFF0000, 0x10100)]

theorem join_runs {e : JoinEntry} {f : Option SerialFrame} (P : Ctxt → Ctxt → State → Bool)
    (h : (someAnd (theCtxt (stJoin e f)) fun x0 => okAnd (ctlGather (stJoin e f) x0 true (divPlace false) fun _ => [])
      fun (u, x) => decide (x.a.jstack = [e] ∧ x.a.frames = f.toList) && P x0 x u) = true) :
    ∃ x0 x u, CtlRuns (stJoin e f) true (divPlace false) [] x0 x u ∧ x.a.jstack = [e] ∧ x.a.frames = f.toList ∧
      P x0 x u = true := by
  obtain ⟨x0, x, u, h, hc⟩ := ctlRuns_of (fun x0 x u => decide (x.a.jstack = [e] ∧ x.a.frames = f.toList) && P x0 x u) h
  simp only [Bool.and_eq_true, decide_eq_true_eq] at hc
  exact ⟨x0, x, u, h, hc.1.1, hc.1.2, hc.2⟩

theorem witness_join_real : ∃ t, divergenceRule (.join false 5) (stJoin { tok := 5, kind := .real, split := 9 } none) t := by
  obtain ⟨x0, x, u, h, hj, -, hc⟩ := join_runs (e := { tok := 5, kind := .real, split := 9 }) (f := none) (fun x0 x u =>
    okAnd (joinArrive u x { x.a with staged := [] } { tok := 5, kind := .real, split := 9 } x0.a.em) fun _ => true) (by decide)
  obtain ⟨v, hv, -⟩ := okAnd_spec hc
  exact ⟨_, x0, x, u, _, _, h, hj, rfl, .inr (.inl ⟨rfl, rfl, v, hv, rfl⟩)⟩

theorem witness_join_serial (f : SerialFrame) (hf : f = oneGroup ∨ f = twoGroups) :
    ∃ t, divergenceRule (.join false 5) (stJoin { tok := 5, kind := .serial, frame := true } (some f)) t := by
  have w : ∃ x0 x u, CtlRuns (stJoin { tok := 5, kind := .serial, frame := true } (some f)) true (divPlace false) [] x0 x u ∧
      x.a.jstack = [{ tok := 5, kind := .serial, frame := true }] ∧ x.a.frames = [f] := by
    rcases hf with rfl | rfl
    · obtain ⟨x0, x, u, h, hj, hf, -⟩ := join_runs (e := { tok := 5, kind := .serial, frame := true }) (f := some oneGroup)
        (fun _ _ _ => true) (by decide)
      exact ⟨x0, x, u, h, hj, hf⟩
    · obtain ⟨x0, x, u, h, hj, hf, -⟩ := join_runs (e := { tok := 5, kind := .serial, frame := true }) (f := some twoGroups)
        (fun _ _ _ => true) (by decide)
      exact ⟨x0, x, u, h, hj, hf⟩
  obtain ⟨x0, x, u, h, hj, hf⟩ := w
  refine Exists.imp (fun t ht => ⟨x0, x, u, _, _, h, hj, rfl, .inr (.inr (.inl ⟨rfl, rfl, f, [], hf, rfl, ht⟩))⟩) ?_
  dsimp only
  split <;> exact ⟨_, rfl⟩

/-- The groups of a BRX that also made fragments: the next one runs, or the agent arrives for its own lanes. -/
theorem witness_join_both : (∃ t, divergenceRule (.join false 5)
      (stJoin { tok := 5, kind := .real, split := 9, frame := true } (some twoGroups)) t) ∧
    ∃ t, divergenceRule (.join false 5) (stJoin { tok := 5, kind := .real, split := 9, frame := true } (some oneGroup)) t := by
  let e : JoinEntry := { tok := 5, kind := .real, split := 9, frame := true }
  let r : SplitRec := { tok := 5, members := [4, 7], exited := [7] }
  let ends := fun (x : Ctxt) (u : State) (f : SerialFrame) =>
    endGroup { x.a with staged := [], jstack := [{ e with addr := some x.a.pc }] } x.aid u.fresh f true
  constructor
  · obtain ⟨x0, x, u, h, hj, hf, hc⟩ := join_runs (e := e) (f := some twoGroups) (fun _ x u =>
      decide (tabGet x.st.splits 9 = some r) && (ends x u twoGroups).2.1.isSome) (by decide)
    simp only [Bool.and_eq_true, decide_eq_true_eq] at hc
    refine Exists.imp (fun t ht => ⟨x0, x, u, _, _, h, hj, rfl, .inr (.inr (.inr ⟨rfl, rfl, twoGroups, [], r, hf, hc.1, rfl, ht⟩))⟩) ?_
    dsimp only
    split
    · exact ⟨_, rfl⟩
    · rename_i hn
      exact absurd ((congrArg Option.isSome hn).symm.trans hc.2) (by decide)
  · obtain ⟨x0, x, u, h, hj, hf, hc⟩ := join_runs (e := e) (f := some oneGroup) (fun x0 x u =>
      decide (tabGet x.st.splits 9 = some r) && (ends x u oneGroup).2.1.isNone &&
      okAnd (joinArrive { putSplit u x.a.stroke 9 { r with addr := some x.a.pc } with fresh := u.fresh + 1 } x
        { (ends x u oneGroup).1 with frames := [], jstack := [{ e with addr := some x.a.pc, frame := false }], pc := x.a.pc }
        { e with addr := some x.a.pc, frame := false } x0.a.em) fun _ => true) (by decide)
    simp only [Bool.and_eq_true, decide_eq_true_eq] at hc
    obtain ⟨v, hv, -⟩ := okAnd_spec hc.2
    refine Exists.imp (fun t ht => ⟨x0, x, u, _, _, h, hj, rfl, .inr (.inr (.inr ⟨rfl, rfl, oneGroup, [], r, hf, hc.1.1, rfl, ht⟩))⟩) ?_
    dsimp only
    split
    · rename_i hn
      exact absurd ((congrArg Option.isNone hn).symm.trans hc.1.2) (by simp)
    · exact ⟨_, v, hv, rfl⟩

/-- Every lane has one target, a LAND: a solo entry, and the branch. -/
def stLand : State :=
  sregs [(5, 0x10000)] { State.reset.withFetchWord 128 0x0400000000000000 with cur := 4, agenda := [] }

theorem witness_brx : ∃ t, divergenceRule (.brx false false 1 (.s 5)) stLand t := by
  have h : (someAnd (theCtxt stLand) fun x0 => okAnd (checkPlace x0 x0.a.em (divPlace false)) fun _ =>
      okAnd (switchMark stLand x0 true) fun (u, x) => okAnd (checkMeldPairs x x0.a.em [srcOf (.s 5) 2 1 false] []) fun _ =>
      okAnd (checkRegs x x0.a.em [srcOf (.s 5) 2 1 false] []) fun _ => okAnd (checkMeld x x0.a.em (divPlace false)) fun _ =>
      okAnd (checkReads x x0.a.em [.k 16 1]) fun _ =>
      okAnd (srcValues u x x0.a.em [srcOf (.s 5) 2 1 false] 1 0) fun vs =>
        decide (∀ l ∈ laneList x0.a.em x.w, brxFail u x (val vs 0 l) = none ∧ (brxErr u x (val vs 0 l)).isNone = true) && decide (x.a.jstack.length < 16) &&
        decide ((brxGroups (val vs 0) (laneList x0.a.em x.w) []).map (fun g => (g.1, BitVec.ofNat 57 g.2)) =
          [(0xFFFFFFFF, 0x10000)])) = true := by decide
  obtain ⟨x0, h0, h⟩ := someAnd_spec h
  obtain ⟨_, h1, h⟩ := okAnd_spec h
  obtain ⟨⟨u, x⟩, h2, h⟩ := okAnd_spec h
  obtain ⟨_, h3, h⟩ := okAnd_spec h
  obtain ⟨_, h4, h⟩ := okAnd_spec h
  obtain ⟨_, h5, h⟩ := okAnd_spec h
  obtain ⟨_, hr, h⟩ := okAnd_spec h
  obtain ⟨vs, h6, h⟩ := okAnd_spec h
  simp only [Bool.and_eq_true, decide_eq_true_eq] at h
  refine ⟨_, x0, x, u, vs, setAgent u x.aid { x.a with
      staged := [], live := x.a.live &&& ~~~(set192 (freedBy x.a [srcOf (.s 5) 2 1 false]))
      jstack := ({ tok := 1, kind := .solo } : JoinEntry) :: x.a.jstack, pc := 0x10000 },
    h0, h1, h2, h3, h4, h5, hr, h6, fun l hl => ⟨(h.1.1 l hl).1, Option.isNone_iff_eq_none.1 (h.1.1 l hl).2⟩, h.1.2, ?_, rfl⟩
  rw [h.2]

def swrGate (s : State) (r : SReg) (a : Opd) : Bool :=
  someAnd (theCtxt s) fun x0 => okAnd (checkPlace x0 (activeMask x0.a 0) {}) fun _ => okAnd (switchMark s x0 false) fun (u, x) =>
    okAnd (checkRegs x (activeMask x0.a 0) [srcOf a 1 1 false] (selRefs x 0)) fun _ =>
    okAnd (checkUniform x (activeMask x0.a 0) [srcOf a 1 1 false] [0]) fun _ =>
    okAnd (checkReads x (activeMask x0.a 0) (selRefs x 0)) fun _ =>
    okAnd (srcValues u x (activeMask x0.a 0) [srcOf a 1 1 false] 1 0) fun vs =>
    let w := writeSreg u x r (BitVec.ofNat 64 (val vs 0 ((lowestLane (activeMask x0.a 0) x.w).getD 0)))
    let x1 := { x with a := (getAgent w x.aid).getD x.a, st := (getStroke w x.a.stroke).getD x.st }
    okAnd (reserveFor w x1 (freedBy x1.a [srcOf a 1 1 false]) []) fun _ =>
      decide (activeMask x0.a 0 ≠ 0) &&
      decide (r = .status ∨ r = .fpst ∨ r = .sstat ∨ r = .ssbytes ∨ r = .rstep ∨ r = .tpc ∨ (r = .tvbase ∧ 1 ≤ x.a.priv))

theorem swr_witness {s : State} {r : SReg} {a : Opd} (h : swrGate s r a = true) : ∃ t, swrRule (.swr (hdr) r a) s t := by
  obtain ⟨x0, h0, h⟩ := someAnd_spec h
  obtain ⟨_, h1, h⟩ := okAnd_spec h
  obtain ⟨⟨u, x⟩, h2, h⟩ := okAnd_spec h
  obtain ⟨_, h3, h⟩ := okAnd_spec h
  obtain ⟨_, h4, h⟩ := okAnd_spec h
  obtain ⟨_, hr, h⟩ := okAnd_spec h
  obtain ⟨vs, h5, h⟩ := okAnd_spec h
  obtain ⟨v, h6, h⟩ := okAnd_spec h
  simp only [Bool.and_eq_true, decide_eq_true_eq] at h
  exact ⟨_, x0, x, u, vs, v, h0, h1, h2, h3, h4, hr, h.1, h.2, h5, h6, rfl⟩

theorem witness_swr_tpc : ∃ t, swrRule (.swr (hdr) .tpc (.s 19)) st0 t := swr_witness (by decide)

/-- TVBASE at privilege 1. -/
theorem witness_swr_tvbase : ∃ t, swrRule (.swr (hdr) .tvbase (.s 19)) (onAgent fun a => { a with priv := 1 }) t :=
  swr_witness (by decide)

theorem witness_trap : ∃ t, systemRule (.trap (hdr) (.imm 0x12)) st0 t := by
  obtain ⟨x0, x, u, v, h, hc⟩ := sysRuns_of (runs := fun _ => true) (masked := true) (s := st0) (h := hdr) (pl := {}) (reads := []) (b := [.imm 0x12])
    (fun x0 _ _ v => decide (activeMask x0.a 0 ≠ 0) && decide (v.toNat < 2 ^ 16)) (by decide)
  simp only [Bool.and_eq_true, decide_eq_true_eq] at hc
  exact ⟨_, x0, x, u, v, h, (if_neg hc.1).mpr ⟨hc.2, rfl⟩⟩

theorem witness_halt : ∃ t, systemRule (.halt (hdr) (.imm 0xFFFF)) st0 t := by
  obtain ⟨x0, x, u, v, h, hc⟩ := sysRuns_of (runs := fun _ => true) (masked := false) (s := st0) (h := hdr) (pl := { meld := false }) (reads := []) (b := [.imm 0xFFFF])
    (fun x0 x u v => decide (v.toNat < 2 ^ 16) && okAnd (waitS u x.aid) (fun _ => true) &&
      okAnd (waitStreams u x (activeMask x0.a 0) allStreams) (fun _ => true)) (by decide)
  simp only [Bool.and_eq_true, decide_eq_true_eq] at hc
  obtain ⟨_, h1, -⟩ := okAnd_spec hc.1.2
  obtain ⟨_, h2, -⟩ := okAnd_spec hc.2
  exact ⟨_, x0, x, u, v, h, hc.1.1, h1, h2, rfl⟩

theorem witness_rtt : ∃ t, systemRule (.rtt false) (onAgent fun a => { a with handler := true }) t := by
  obtain ⟨x0, x, u, h, hc⟩ := ctlRuns_of (s := onAgent fun a => { a with handler := true }) (sw := false)
    (pl := { meld := false })
    (reads := []) (fun _ x u => x.a.handler && okAnd (waitS u x.aid) fun _ => true) (by decide)
  simp only [Bool.and_eq_true] at hc
  obtain ⟨_, h1, -⟩ := okAnd_spec hc.2
  exact ⟨_, x0, x, u, h, hc.1, h1, rfl⟩

def stPdone : State := onAgent fun a => { a with handler := true, byPreempt := true }

/-- The agent stops, or, where its group drains since its request found no room, runs on. -/
theorem witness_pdone : (∃ t, systemRule (.pdone (hdr) 5) stPdone t) ∧
    ∃ t, systemRule (.pdone (hdr) 5) (onPanel (fun p => { p with
      req := some { deadline := none, since := 0, how := .drain, who := .software } }) stPdone) t := by
  have w : ∀ s d, (someAnd (theCtxt s) fun x0 => okAnd (sysGather s x0 hdr { meld := false } [.s 5 1] []
      (fun a => a.handler && a.byPreempt) false) fun (u, x, _) => okAnd (waitS u x.aid) (fun _ => true) &&
        okAnd (waitStreams u x (activeMask x0.a 0) allStreams) (fun _ => true) &&
        decide (decide ((x.p.req.map (·.how)) = some .drain) = d)) = true →
      ∃ t, systemRule (.pdone (hdr) 5) s t := by
    intro s d w
    obtain ⟨x0, x, u, v, h, hc⟩ := sysRuns_of (fun x0 x u _ => okAnd (waitS u x.aid) (fun _ => true) &&
        okAnd (waitStreams u x (activeMask x0.a 0) allStreams) (fun _ => true) &&
        decide (decide ((x.p.req.map (·.how)) = some .drain) = d)) w
    simp only [Bool.and_eq_true, decide_eq_true_eq] at hc
    obtain ⟨_, h1, -⟩ := okAnd_spec hc.1.1
    obtain ⟨_, h2, -⟩ := okAnd_spec hc.1.2
    by_cases hd : (x.p.req.map (·.how)) = some .drain
    · exact ⟨_, x0, x, u, v, h, h1, h2, by rw [if_pos hd]⟩
    · exact ⟨_, x0, x, u, v, h, h1, h2, by rw [if_neg hd]⟩
  exact ⟨w _ false (by decide), w _ true (by decide)⟩

theorem witness_ckpt : ∃ t, systemRule (.ckpt (hdr) 6 (.imm 0x403)) st0 t := by
  obtain ⟨x0, x, u, v, h, hc⟩ := sysRuns_of (runs := fun _ => true) (masked := false) (s := st0) (h := hdr) (pl := { meld := false }) (reads := [.s 6 0])
    (b := [.imm 0x403]) (fun _ x _ v => decide (v.toNat < 2 ^ 11) && decide (x.a.wake = none) && decide (ckptPending x = false))
    (by decide)
  simp only [Bool.and_eq_true, decide_eq_true_eq] at hc
  exact ⟨_, x0, x, u, v, h, hc.1.1, .inl ⟨.inr ⟨hc.1.2, hc.2⟩, rfl⟩⟩

theorem witness_ckptHint : ∃ t, systemRule (.ckptHint (hdr) (.imm 9)) st0 t := by
  obtain ⟨x0, x, u, v, h, -⟩ := sysRuns_of (runs := fun _ => true) (masked := false) (s := st0) (h := hdr) (pl := { meld := false }) (reads := []) (b := [.imm 9])
    (fun _ _ _ _ => true) (by decide)
  exact ⟨_, x0, x, u, v, h, rfl⟩

theorem witness_errd : ∃ t, systemRule (.errd (hdr) true 6 (.imm 2)) st0 t := by
  obtain ⟨x0, x, u, v, h, hc⟩ := sysRuns_of (runs := fun _ => true) (masked := true) (s := st0) (h := hdr) (pl := { meld := false }) (reads := [.s 6 0]) (b := [.imm 2])
    (fun x0 _ _ v => decide (activeMask x0.a 0 ≠ 0) && decide (v.toNat ≤ 2)) (by decide)
  simp only [Bool.and_eq_true, decide_eq_true_eq] at hc
  exact ⟨_, x0, x, u, v, h, hc.1, hc.2, rfl⟩

def forgetsOk (u : State) (x : Ctxt) (lanes : Mask) : Bool :=
  okAnd (waitStreams u x lanes allStreams) (fun _ => true) &&
    decide (accessesBefore u x.p.ctx (x.a.tlbiAt.getD u.fresh) = false) && someAnd (getCtx u x.p.ctx) fun _ => true

theorem forgets_of {u : State} {x : Ctxt} {lanes : Mask} (size : Nat) (hit : TlbEntry → Bool) (h : forgetsOk u x lanes = true) :
    ∃ t, Forgets u x lanes size hit t := by
  simp only [forgetsOk, Bool.and_eq_true, decide_eq_true_eq] at h
  obtain ⟨_, h1, -⟩ := okAnd_spec h.1.1
  obtain ⟨c, h2, -⟩ := someAnd_spec h.2
  exact ⟨_, h1, h.1.2, c, h2, rfl⟩

/-- TLBI.rng over the last bytes below 2^57. -/
def stPriv : State := sregs [(4, 0x1FFFFFFFFFFF000), (5, 0x1000)] (onAgent fun a => { a with priv := 1 })

theorem witness_tlbiRng : ∃ t, systemRule (.tlbiRng (hdr) 4 (.s 5)) stPriv t := by
  obtain ⟨x0, x, u, v, h, hc⟩ := sysRuns_of (runs := fun _ => true) (masked := false) (s := stPriv) (h := hdr) (pl := tlbiPlace) (reads := [.s 4 1]) (b := [.s 5])
    (fun x0 x u v => decide (x.a.priv ≠ 0) && decide ((sReg x.a 4).toNat % 4096 = 0) && decide (v ≠ 0) &&
      decide ((sReg x.a 4).toNat + v.toNat ≤ 2 ^ 57) && forgetsOk u x (activeMask x0.a 0)) (by decide)
  simp only [Bool.and_eq_true, decide_eq_true_eq] at hc
  obtain ⟨t, ht⟩ := forgets_of (Machine.sizeOf (.s 5)) _ hc.2
  exact ⟨t, x0, x, u, v, h, hc.1.1.1.1, hc.1.1.1.2, hc.1.1.2, hc.1.2, ht⟩

theorem witness_tlbiAll : ∃ t, systemRule (.tlbiAll (hdr)) stPriv t := by
  obtain ⟨x0, x, u, v, h, hc⟩ := sysRuns_of (runs := fun _ => true) (masked := false) (s := stPriv) (h := hdr) (pl := tlbiPlace) (reads := []) (b := [])
    (fun x0 x u _ => decide (x.a.priv ≠ 0) && forgetsOk u x (activeMask x0.a 0)) (by decide)
  simp only [Bool.and_eq_true, decide_eq_true_eq] at hc
  obtain ⟨t, ht⟩ := forgets_of 8 (fun _ => true) hc.2
  exact ⟨t, x0, x, u, v, h, hc.1, ht⟩

theorem witness_tlbiNg : ∃ t, systemRule (.tlbiNg (hdr)) stPriv t := by
  obtain ⟨x0, x, u, v, h, hc⟩ := sysRuns_of (runs := fun _ => true) (masked := false) (s := stPriv) (h := hdr) (pl := tlbiPlace) (reads := []) (b := [])
    (fun x0 x u _ => decide (x.a.priv ≠ 0) && forgetsOk u x (activeMask x0.a 0)) (by decide)
  simp only [Bool.and_eq_true, decide_eq_true_eq] at hc
  obtain ⟨t, ht⟩ := forgets_of 8 (fun e => !e.g) hc.2
  exact ⟨t, x0, x, u, v, h, hc.1, ht⟩

/-! ## Memory -/

def loadGate (s : State) (o : LoadOp) : Bool :=
  someAnd (theCtxt s) fun x0 => okAnd (memGather s x0 o.h o.pl o.m [] o.dsts o.straddle o.push) fun (u, x, vs) =>
    let lanes := activeMask x0.a o.h.km
    okAnd (placeAll u x lanes o.share .r (o.accs x lanes vs)) fun _ =>
    okAnd (issueRegs u x (addrSrcs o.h o.m)
      ((o.res x lanes).dst.map (·.2.1))) fun _ => decide (lanes ≠ 0 ∨ o.push.isSome = true)

theorem loads_witness {s : State} {l : List Instr} (h : (l.all fun i => someAnd (loadOp i) (loadGate s)) = true) :
    ∀ i ∈ l, ∃ t, loadRule i s t := by
  intro i hi
  obtain ⟨o, ho, h⟩ := someAnd_spec (List.all_eq_true.1 h i hi)
  obtain ⟨x0, h0, h⟩ := someAnd_spec h
  obtain ⟨⟨u, x, vs⟩, h1, h⟩ := okAnd_spec h
  obtain ⟨ps, h2, h⟩ := okAnd_spec h
  obtain ⟨v, h3, h⟩ := okAnd_spec h
  exact ⟨_, o, ho, x0, x, u, v, vs, ps, ⟨h0, h1⟩, of_decide_eq_true h, h2, h3, rfl⟩

/-- A base at 2^17, eight live names, a channel. -/
def stMem : State :=
  onPanel (fun p => { p with chans := [(3, { kind := .primer })] }) (liveBelow 8 (sregs [(4, 0x20000), (6, 2)]))

def atS4 (ord : MOrd := .rlx) : MAddr := ⟨.s 4, none, none, ord, .pnl, 0, .norm⟩

theorem witness_loads : ∀ i ∈ ([.ld (hdr) 2 false (.v 9) atS4, .ld (hdr) 0 true (.s 5) (atS4 .acq), .ldg (hdr) 3 8 atS4,
    .ldmx (hdr) .mxf4 false 8 atS4] : List Instr), ∃ t, loadRule i stMem t := loads_witness (by decide)

/-- A channel takes every lane's element; the destination is pushed by an access slice. -/
theorem witness_load_channel : ∀ i ∈ ([.ld (hdr) 2 false (.push 3) atS4] : List Instr),
    ∃ t, loadRule i (onAgent (fun a => { a with primer := true }) stMem) t := loads_witness (by decide)

def prfGate (s : State) (m : MAddr) : Bool :=
  someAnd (theCtxt s) fun x0 => okAnd (memGather s x0 (hdr) { primer := isScalarAddr m } m [] [] none none) fun (u, x, _) =>
    okAnd (issueRegs u x (addrSrcs (hdr) m) []) fun _ => true

theorem witness_prf : ∃ t, prefetchRule (.prf (hdr) atS4) stMem t := by
  have h : prfGate stMem atS4 = true := by decide
  obtain ⟨x0, h0, h⟩ := someAnd_spec h
  obtain ⟨⟨u, x, vs⟩, h1, h⟩ := okAnd_spec h
  obtain ⟨v, h2, -⟩ := okAnd_spec h
  exact ⟨_, x0, x, u, v, vs, ⟨h0, h1⟩, h2, rfl⟩

def releasedOk (u : State) (x : Ctxt) (lanes : Mask) (m : MAddr) : Bool :=
  !MOrd.releases m.ord || okAnd (waitRelease u x lanes (streamBit m.str)) fun _ => true

theorem released_of {u : State} {x : Ctxt} {lanes : Mask} {m : MAddr} (h : releasedOk u x lanes m = true) :
    Released u x lanes m := by
  intro hr
  simp only [releasedOk, hr, Bool.not_true, Bool.false_or] at h
  obtain ⟨_, h, -⟩ := okAnd_spec h
  exact h

def storeGate (s : State) (o : StoreOp) : Bool :=
  someAnd (theCtxt s) fun x0 => okAnd (memGather s x0 o.h o.pl o.m o.extra [] none none) fun (u, x, vs) =>
    let lanes := activeMask x0.a o.h.km
    okAnd (placeAll u x lanes o.share o.need (o.accs x lanes vs)) fun ps =>
    okAnd (checkRoom u x o.m.str (groupCount (o.groups vs ps))) fun _ =>
    okAnd (issueRegs u x (addrSrcs o.h o.m ++ o.extra) []) fun _ => decide (lanes ≠ 0) && releasedOk u x lanes o.m

theorem stores_witness {s : State} {l : List Instr} (h : (l.all fun i => someAnd (storeOp i) (storeGate s)) = true) :
    ∀ i ∈ l, ∃ t, storeRule i s t := by
  intro i hi
  obtain ⟨o, ho, h⟩ := someAnd_spec (List.all_eq_true.1 h i hi)
  obtain ⟨x0, h0, h⟩ := someAnd_spec h
  obtain ⟨⟨u, x, vs⟩, h1, h⟩ := okAnd_spec h
  obtain ⟨ps, h2, h⟩ := okAnd_spec h
  obtain ⟨_, h3, h⟩ := okAnd_spec h
  obtain ⟨v, h4, h⟩ := okAnd_spec h
  simp only [Bool.and_eq_true, decide_eq_true_eq] at h
  exact ⟨_, .inl ⟨o, ho, x0, x, u, v, vs, ps, ⟨h0, h1⟩, h.1, h2, released_of h.2, h3, h4, rfl⟩⟩

theorem witness_stores : ∀ i ∈ ([.st (hdr) 2 (.v 1) (atS4 .rel), .st (hdr) 0 (.s 6) atS4, .sct (hdr) 2 .addF32 (.v 1) atS4,
    .red (hdr) 2 .add false false (.v 1) atS4] : List Instr), ∃ t, storeRule i stMem t := stores_witness (by decide)

def atomicGate (s : State) (i : Instr) : Bool :=
  someAnd (atomicOp i) fun (o, d, regs, _) => someAnd (theCtxt s) fun x0 =>
    okAnd (memGather s x0 o.h o.pl o.m o.extra o.dsts none none) fun (u, x, vs) =>
    let lanes := activeMask x0.a o.h.km
    okAnd (placeAll u x lanes o.share o.need (o.accs x lanes vs)) fun ps =>
    okAnd (checkRoom u x o.m.str (groupCount (o.groups vs ps))) fun _ =>
    let dst := match d with
      | .v k => dstParts x.a lanes k regs
      | _ => []
    okAnd (issueRegs u x (addrSrcs o.h o.m ++ o.extra) (dst.map (·.2.1))) fun _ =>
      decide (lanes ≠ 0) && releasedOk u x lanes o.m

theorem witness_atomics : ∀ i ∈ ([.atom (hdr) 2 .add false (.v 1) atS4, .acas (hdr) 2 (.v 1) atS4, .acas (hdr) 3 (.s 6) atS4,
    .red (hdr) 2 .max true true (.s 6) atS4] : List Instr), ∃ t, atomicRule i stMem t := by
  have h : (([.atom (hdr) 2 .add false (.v 1) atS4, .acas (hdr) 2 (.v 1) atS4, .acas (hdr) 3 (.s 6) atS4,
    .red (hdr) 2 .max true true (.s 6) atS4] : List Instr).all (atomicGate stMem)) = true := by decide
  intro i hi
  obtain ⟨⟨o, d, regs, after⟩, ho, h⟩ := someAnd_spec (List.all_eq_true.1 h i hi)
  obtain ⟨x0, h0, h⟩ := someAnd_spec h
  obtain ⟨⟨u, x, vs⟩, h1, h⟩ := okAnd_spec h
  obtain ⟨ps, h2, h⟩ := okAnd_spec h
  obtain ⟨_, h3, h⟩ := okAnd_spec h
  obtain ⟨v, h4, h⟩ := okAnd_spec h
  simp only [Bool.and_eq_true, decide_eq_true_eq] at h
  exact ⟨_, o, d, regs, after, ho, x0, x, u, v, vs, ps, ⟨h0, h1⟩, h.1, h2, released_of h.2, h3, h4, rfl⟩

def stmxGate (s : State) (f : MxFmt) (d : Nat) (m : MAddr) : Bool :=
  let extra := [srcOf (.v d) 1 0 false, srcOf (.v (d + 1)) 1 0 false]
  someAnd (theCtxt s) fun x0 => okAnd (memGather s x0 (hdr) {} m extra [] (some (d, 2)) none) fun (u, x, vs) =>
    let lanes := activeMask x0.a 0
    let code := dataVal (hdr) m 2 2 vs
    let scale := fun l => dataVal (hdr) m 2 1 vs l % 256
    okAnd (placeAll u x lanes .group .w ((mxGroups x lanes).map (mxAccs m vs f false)).flatten) fun ps =>
    let enc := (mxGroups x lanes).map fun g =>
      (g, mxEncode f ((List.range 32).map fun j => code (32 * g + j)) (scale (32 * g)))
    okAnd (checkRoom u x m.str (groupCount (groupLines (enc.map fun e =>
      { lanes := (List.range 32).map (32 * e.1 + ·), segs := groupSegs ps e.1, bytes := e.2.1 : PacketPart }) []))) fun _ =>
    okAnd (issueRegs u x (addrSrcs (hdr) m ++ extra) []) fun _ => decide (lanes ≠ 0) && decide (x.w % 32 = 0) &&
      ((mxGroups x lanes).all fun g => (List.range 32).all fun j =>
        lanes.getLsbD (32 * g + j) && decide (scale (32 * g + j) = scale (32 * g))) &&
      releasedOk u x lanes m

theorem witness_stmx : ∃ t, storeRule (.stmx (hdr) .mxf4 false 6 atS4) stMem t := by
  have h : stmxGate stMem .mxf4 6 atS4 = true := by decide
  simp only [stmxGate] at h
  obtain ⟨x0, h0, h⟩ := someAnd_spec h
  obtain ⟨⟨u, x, vs⟩, h1, h⟩ := okAnd_spec h
  obtain ⟨ps, h2, h⟩ := okAnd_spec h
  obtain ⟨_, h3, h⟩ := okAnd_spec h
  obtain ⟨v, h4, h⟩ := okAnd_spec h
  simp only [Bool.and_eq_true, decide_eq_true_eq, List.all_eq_true, List.mem_range] at h
  refine ⟨_, .inr ⟨hdr, .mxf4, false, 6, atS4, rfl, x0, x, u, v, vs, ps, ⟨h0, h1⟩, h.1.1.1, h.1.1.2, h.1.2, h2,
    released_of h.2, ?_, h4, rfl⟩⟩
  simpa [List.map_map, Function.comp_def, hdr] using h3

theorem wideRuns_of {s : State} {h : Hdr} {pl : Place} {srcs : List Src} {refs : List Ref}
    (P : Ctxt → Ctxt → State → List Nat → Bool)
    (w : (someAnd (theCtxt s) fun x0 => okAnd (wideGather s x0 h pl srcs refs) fun (u, x, vs) => P x0 x u vs) = true) :
    ∃ x0 x u vs, WideRuns s h pl srcs refs x0 x u vs ∧ P x0 x u vs = true := by
  obtain ⟨x0, h0, w⟩ := someAnd_spec w
  obtain ⟨⟨u, x, vs⟩, h1, w⟩ := okAnd_spec w
  exact ⟨x0, x, u, vs, ⟨h0, h1⟩, w⟩

theorem witness_fence : ∃ t, syncRule (.fence (hdr) .acq .die (.imm 0xFFFF)) st0 t := by
  obtain ⟨x0, x, u, vs, h, hc⟩ := wideRuns_of (s := st0) (h := hdr) (pl := { primer := true })
    (srcs := [srcOf (.imm 0xFFFF) 1 2 false]) (refs := [])
    (fun _ x u vs => decide (nthVal vs 0 ≠ 0) && decide (nthVal vs 0 < 2 ^ 16) && decide (u.results = []) &&
      !setsPending u x.a.stroke && !matrixReads u x.a.stroke (BitVec.ofNat 16 (nthVal vs 0)) &&
      !atomicsPending u x (BitVec.ofNat 16 (nthVal vs 0))) (by decide)
  simp only [Bool.and_eq_true, decide_eq_true_eq, Bool.not_eq_true'] at hc
  obtain ⟨⟨⟨⟨⟨a, b⟩, c⟩, d⟩, e⟩, f⟩ := hc
  exact ⟨_, x0, x, u, vs, h, a, b, by simp [c], d, e, fun _ => f, by simp [MOrd.releases], rfl⟩

/-- A scratchpad of one granule at 2^56, with memory there. -/
def stPad (l : List (Nat × Byte)) (regs : Tab DWord) : State :=
  sregs regs (onPanel (fun p => { p with slotVA := 2 ^ 56, slotBytes := 4096, granules := [0] })
    { st0 with mem := l ++ st0.mem })

theorem witness_binit : ∃ t, syncRule (.binit (hdr) (.s 4) (.s 63)) (stPad [] [(4, 0x100000000000FF0)]) t := by
  obtain ⟨x0, x, u, vs, h, hc⟩ := wideRuns_of (s := stPad [] [(4, 0x100000000000FF0)]) (h := hdr) (pl := barPlace)
    (srcs := [addrSrc (hdr) (.s 4), srcOf (.s 63) 1 2 false]) (refs := [])
    (fun _ x u vs => decide (nthVal vs 0 % 16 = 0) && decide (scratchOff x.p (nthVal vs 0) 16 = some 0xFF0) &&
      decide (x.p.barriers = []) && decide (x.p.strokes.length = 1) &&
      decide (segsBad u [(scratchPa x.p 0xFF0, 16)] = none)) (by decide)
  simp only [Bool.and_eq_true, decide_eq_true_eq] at hc
  exact ⟨_, x0, x, u, vs, 0xFF0, h, hc.1.1.1.1, hc.1.1.1.2, by simp [hc.1.2], hc.2, by simp [hc.1.1.2], rfl⟩

/-- A barrier object at offset 256: one member, stroke 0. -/
def stBar : State :=
  onPanel (fun p => { p with barriers := [256] }) (stPad [(256, 1), (264, 1)] [(4, 0x100000000000100)])

theorem witness_bar : ∃ t, syncRule (.bar (hdr) (.s 4)) stBar t := by
  obtain ⟨x0, x, u, vs, h, hc⟩ := wideRuns_of (s := stBar) (h := { (hdr : Hdr) with sw := true }) (pl := barPlace) (srcs := [addrSrc (hdr) (.s 4)])
    (refs := []) (fun x0 x u vs =>
      decide (scratchOff x.p (nthVal vs 0) 16 = some 256 ∧ 256 ∈ x.p.barriers ∧ segsBad u [(scratchPa x.p 256, 16)] = none ∧
        bitAt (barMembers (barObj u x.p 256)) x.st.idx = true ∧ barClass (barObj u x.p 256) ≠ 2 ∧ x.a.frames = []) &&
      okAnd (checkMixedWaits u x x0.a.em (some 256)) (fun _ => true) &&
      okAnd (waitStreams u x x0.a.em allStreams) (fun _ => true)) (by decide)
  simp only [Bool.and_eq_true, decide_eq_true_eq] at hc
  obtain ⟨_, h2, -⟩ := okAnd_spec hc.1.2
  obtain ⟨_, h3, -⟩ := okAnd_spec hc.2
  obtain ⟨a, b, b2, c, d, e⟩ := hc.1.1
  exact ⟨_, x0, x, u, vs, 256, h, a, b, b2, c, d, e, h2, h3, rfl⟩

theorem witness_waitf : ∃ t, syncRule (.waitf (hdr) .n32 0 .eng .ge 5 (.s 4) (.imm 7)) (sregs [(4, 0x20000)]) t := by
  obtain ⟨x0, x, u, vs, h, hc⟩ := wideRuns_of (s := sregs [(4, 0x20000)]) (h := hdr) (pl := barPlace)
    (srcs := [addrSrc (hdr) (.s 4), srcOf (.imm 7) (Ty.regs .n32) 2 false]) (refs := [.s 5 0])
    (fun x0 x u vs => decide (0 < x.c.record.levels) &&
      okAnd (placeAll u x x0.a.em .one .r [{ lane := 0, addr := ((nthVal vs 0 : Nat) : Int), n := 4, align := 4 }])
        (fun _ => true) && okAnd (checkPromise x x0.a.em 0 .eng) (fun _ => true)) (by decide)
  simp only [Bool.and_eq_true, decide_eq_true_eq] at hc
  obtain ⟨ps, h1, -⟩ := okAnd_spec hc.1.2
  obtain ⟨_, h2, -⟩ := okAnd_spec hc.2
  exact ⟨_, x0, x, u, vs, ps, h, hc.1.1, h1, h2, rfl⟩

/-- A parked WAITF for zero at an address that reads 0. -/
def stWaitf : State := onAgent fun a =>
  { a with
    run := .blocked ⟨.waitf, 0⟩
    waitf := some { id := 5, segs := [(2 ^ 48 + 0x20000, 4)], cond := .eq, cmp := 0, dst := 5, size := 8, wide := true } }

theorem witness_waitf_met : ∃ t, syncRule (.waitfConditionMet 4) stWaitf t := by
  have h : (waitfReady stWaitf 4 && someAnd (getAgent stWaitf 4) fun a => someAnd a.waitf fun r0 =>
      okAnd (waitfNow stWaitf (agentCtx stWaitf a) r0) fun r =>
      someAnd (waitfValue stWaitf (agentCtx stWaitf a) r) fun _ => decide (waitfBad stWaitf (agentCtx stWaitf a) r = none)) = true := by decide
  obtain ⟨h0, h⟩ := Bool.and_eq_true_iff.1 h
  obtain ⟨a, h1, h⟩ := someAnd_spec h
  obtain ⟨r0, h2, h⟩ := someAnd_spec h
  obtain ⟨r, hr, h⟩ := okAnd_spec h
  obtain ⟨v, h3, h⟩ := someAnd_spec h
  exact ⟨_, h0, a, r0, r, v, h1, h2, hr, h3, of_decide_eq_true h, rfl⟩

/-! ## Engines, channels, regions and collectives -/

/-- A tensor record at 2^56 (base 2^17, one dimension of 4 bytes, all in the box), a barrier object at offset 256, a list
of one destination at offset 512. -/
def padMem : List (Nat × Byte) := [(2, 2), (9, 1), (16, 4), (36, 1), (56, 3), (256, 1), (264, 1), (514, 3)]

/-- A page of context 1 with every right, in the SRAM of core 0. -/
def pubPage : TlbEntry :=
  { va := 0x30000, size := 4096, pa := 0x100000, r := true, w := true, x := true, e := true, p := true, g := false }

def stCopy : State :=
  onCtx (fun c => { c with tlb := [pubPage] }) (onPanel (fun p => { p with barriers := [256] })
    (stPad padMem [(4, 0x100000000000000), (5, 0x100000000000400), (6, 0x100000000000100), (7, 0x100000000000200)]))

def theLayout : Layout :=
  { base := 0x20000, fmt := 0, dims := 1, rot := false, fill := 0, size := [4, 0, 0, 0, 0], stride := [1, 0, 0, 0, 0]
    box := [4, 1, 1, 1, 1] }

/-- The checks of a copy with no completion object. -/
def copyOk (u : State) (x : Ctxt) (lanes : Mask) (rec : Nat) (packed : Option Nat) : Bool :=
  hasRights x && decide (rec % 64 = 0) &&
  someAnd (scratchOff x.p rec 64) (fun ro =>
    let bs := (List.range 64).map fun i => memGet u.mem (scratchPa x.p (ro + i))
    decide (theLayout = layOf bs) && decide (layBad bs = none) && decide (segsBad u [(scratchPa x.p ro, 64)] = none)) &&
  decide (∀ v, packed = some v → (scratchOff x.p v 4).isSome) &&
  okAnd (placeAll u x lanes .one .r ((List.range 4).filterMap fun i =>
    (elemAddr theLayout i).map fun a => { lane := 0, addr := (a : Int), n := 1, align := 1 })) fun _ => true

theorem copy_of {u : State} {x : Ctxt} {lanes : Mask} {rec comp : Nat} {packed : Option Nat}
    (h : copyOk u x lanes rec packed = true) : CopyChecks u x lanes rec comp false packed false theLayout none := by
  simp only [copyOk, Bool.and_eq_true, decide_eq_true_eq] at h
  obtain ⟨ro, hr, hb⟩ := someAnd_spec h.1.1.2
  obtain ⟨ps, hp, -⟩ := okAnd_spec h.2
  simp only [Bool.and_eq_true, decide_eq_true_eq] at hb
  exact ⟨h.1.1.1.1, h.1.1.1.2, ⟨ro, hr, hb.1.1, hb.1.2, hb.2⟩, h.1.2, rfl, ⟨ps, hp⟩, rfl⟩

def roomOk (u : State) (x : Ctxt) (q : Copy) : Bool :=
  let n := (getStroke u x.a.stroke).elim 0 fun k => ackCount k 0
  decide (n + ((copyPackets u q).map fun e => e.2.2).sum ≤ 4095 ∨ n = 0)

theorem room_of {u : State} {x : Ctxt} {q : Copy} (h : roomOk u x q = true) : HasRoom u x q := by
  unfold HasRoom
  exact of_decide_eq_true h

theorem witness_cpy : ∃ t, copyRule (.cpy (hdr) false .pnl (.s 4) (.s 5) (.s 63)) stCopy t := by
  obtain ⟨x0, x, u, vs, h, hc⟩ := wideRuns_of (s := stCopy) (h := hdr) (pl := cpyPlace)
    (srcs := cpySrcs (hdr) (.s 4) (.s 5) (.s 63)) (refs := [])
    (fun x0 x u vs => copyOk u x x0.a.em (nthVal vs 0) (some (nthVal vs 1)) &&
      roomOk u x (newCopy u x theLayout false (nthVal vs 1) none .pnl)) (by decide)
  obtain ⟨hc, hq⟩ := Bool.and_eq_true_iff.1 hc
  exact ⟨_, x0, x, u, vs, _, none, _, none, h, ⟨rfl, rfl⟩, copy_of hc, room_of hq, rfl⟩

theorem witness_barx : ∃ t, copyRule (.barx (hdr) false .pnl (.s 6) (.s 4) (.s 5) (.s 63)) stCopy t := by
  obtain ⟨x0, x, u, vs, h, hc⟩ := wideRuns_of (s := stCopy) (h := hdr) (pl := { meld := false })
    (srcs := cpySrcs (hdr) (.s 4) (.s 5) (.s 63) ++ [srcOf (.s 6) 2 0 false]) (refs := [])
    (fun x0 x u vs => copyOk u x x0.a.em (nthVal vs 0) (some (nthVal vs 1)) &&
      decide (scratchOff x.p (nthVal vs 3) 16 = some 256 ∧ 256 ∈ x.p.barriers ∧ segsBad u [(scratchPa x.p 256, 16)] = none ∧
        barPending (barObj u x.p 256) + 4 < 2 ^ 24 ∧ barClass (barObj u x.p 256) ≠ 2) &&
      roomOk u x { newCopy u x theLayout false (nthVal vs 1) none .pnl with bar := some 256 }) (by decide)
  simp only [Bool.and_eq_true, decide_eq_true_eq] at hc
  obtain ⟨a, b, b2, c, d⟩ := hc.1.2
  exact ⟨_, x0, x, u, vs, _, none, _, none, 256, h, ⟨rfl, rfl⟩, copy_of hc.1.1, a, b, b2, c, d, room_of hc.2, rfl⟩

theorem witness_mcast : ∃ t, copyRule (.mcast (hdr) 1 (.s 4) (.s 7) (.s 63)) stCopy t := by
  obtain ⟨x0, x, u, vs, h, hc⟩ := wideRuns_of (s := stCopy) (h := hdr) (pl := { meld := false })
    (srcs := [addrSrc (hdr) (.s 4), srcOf (.s 7) 2 2 false, srcOf (.s 63) 2 3 false]) (refs := [])
    (fun x0 x u vs => copyOk u x x0.a.em (nthVal vs 0) none && decide (scratchOff x.p (nthVal vs 1) (8 * 1) = some 512) &&
      okAnd (placeAll u x x0.a.em .one .we (((List.range 1).map fun i =>
        ofBytes ((List.range 8).map fun j => memGet u.mem (scratchPa x.p (512 + 8 * i + j)))).map
          fun (d : Nat) => { lane := 0, addr := (d : Int), n := layBytes theLayout, align := 1 })) (fun ps =>
      decide (segsBad u [(scratchPa x.p 512, 8 * 1)] = none) && roomOk u x
        { newCopy u x theLayout false 0 none (if ps.any fun p => p.segs.any fun g => bitAt g.1 51 then .fab else .pkg) with
          mcast := true, dests := (List.range 1).map fun i =>
            ofBytes ((List.range 8).map fun j => memGet u.mem (scratchPa x.p (512 + 8 * i + j))) })) (by decide)
  simp only [Bool.and_eq_true, decide_eq_true_eq] at hc
  obtain ⟨ps, hp, hq⟩ := okAnd_spec hc.2
  obtain ⟨hb, hq⟩ := Bool.and_eq_true_iff.1 hq
  exact ⟨_, x0, x, u, vs, _, none, 512, ps, h, copy_of hc.1.1, hc.1.2, hp, of_decide_eq_true hb, room_of hq, rfl⟩

/-- WAITC and TESTC of an object at 2^17: nothing set, mask 0. -/
theorem witness_window : (∃ t, windowRule (.testc (hdr) 5 (.s 4) (.imm 0) (.s 6)) (sregs [(4, 0x20000)]) t) ∧
    ∃ t, windowRule (.waitc (hdr) .pnl 5 (.s 4) (.imm 0) (.s 6)) (sregs [(4, 0x20000)]) t := by
  obtain ⟨x0, x, u, vs, h, hc⟩ := wideRuns_of (s := sregs [(4, 0x20000)]) (h := hdr) (pl := { primer := true, meld := false })
    (srcs := windowSrcs (hdr) (.s 4) (.imm 0) (.s 6)) (refs := [.s 5 0])
    (fun x0 x u vs => okAnd (readWindow u x x0.a.em (nthVal vs 0) (nthVal vs 1)) fun r =>
      decide (r.2.2 &&& nthVal vs 2 = nthVal vs 2)) (by decide)
  obtain ⟨⟨v, st, w⟩, hr, hm⟩ := okAnd_spec hc
  exact ⟨⟨_, x0, x, u, v, vs, st, w, h, hr, rfl⟩, ⟨_, x0, x, u, v, vs, st, w, h, hr, .inl ⟨of_decide_eq_true hm, rfl⟩⟩⟩

/-- A ring in channel 3 with one slot popped, an iterator's set, a queue of the context, a registered region. -/
def stChan : State :=
  let ring : Chan := { kind := .ring, base := 2 ^ 56, slotBytes := 512, slots := 2, slotsPopped := 1 }
  let set : SetObj := { u := 100, pin := 0, home := 0, keys := [3, 50, 99] }
  let s := onPanel (fun p => { p with chans := [(3, ring)] }) (onCtx (fun c => { c with
    sets := [(1, { gen := 1, obj := some set })], params := { c.params with shadowReserve := 8192, setEntries := 16, setQuota := 2 ^ 20 } }) stCopy)
  let r : Region := { ctx := 1, num := 0, base := 0x30000, segs := [(0x100000, 4096)], shadow := [] }
  { sregs [(4, 0x100000000000000), (5, 512), (6, 8), (7, 0x1000001), (8, 0x30000), (9, 4096)] s with
    easel := [(1023, { ctx := 1 })], regions := [r] }

theorem wide_plain {s : State} {h : Hdr} {pl : Place} {srcs : List Src} {refs : List Ref}
    (w : (someAnd (theCtxt s) fun x0 => okAnd (wideGather s x0 h pl srcs refs) fun _ => true) = true) :
    ∃ x0 x u vs, WideRuns s h pl srcs refs x0 x u vs := by
  obtain ⟨x0, x, u, vs, h, -⟩ := wideRuns_of (fun _ _ _ _ => true) w
  exact ⟨x0, x, u, vs, h⟩

theorem witness_srel : ∃ t, channelRule (.srel (hdr) 3) stChan t := by
  obtain ⟨x0, x, u, vs, h, hc⟩ := wideRuns_of (s := stChan) (h := hdr) (pl := chanPlace) (srcs := []) (refs := [])
    (fun x0 x u _ => someAnd (tabGet x.p.chans 3) (fun ch => decide (ch.kind = .ring)) &&
      okAnd (waitRelease u x x0.a.em allStreams) fun _ => true) (by decide)
  simp only [Bool.and_eq_true] at hc
  obtain ⟨ch, h1, hk⟩ := someAnd_spec hc.1
  obtain ⟨_, h2, -⟩ := okAnd_spec hc.2
  exact ⟨_, x0, x, u, vs, ch, h, h1, of_decide_eq_true hk, h2, rfl⟩

theorem witness_unbind : ∃ t, channelRule (.sbindUnbind (hdr) 3) stChan t := by
  obtain ⟨x0, x, u, vs, h, hc⟩ := wideRuns_of (s := stChan) (h := hdr) (pl := chanPlace) (srcs := []) (refs := [])
    (fun _ x _ _ => someAnd (tabGet x.p.chans 3) fun ch => decide (ch.copies = [])) (by decide)
  obtain ⟨ch, h1, hk⟩ := someAnd_spec hc
  exact ⟨_, x0, x, u, vs, ch, h, h1, of_decide_eq_true hk, rfl⟩

theorem witness_bind_primer : ∃ t, channelRule (.sbindPrimer (hdr) 127) stChan t := by
  obtain ⟨x0, x, u, vs, h, hc⟩ := wideRuns_of (s := stChan) (h := hdr) (pl := chanPlace) (srcs := []) (refs := [])
    (fun _ x _ _ => decide (tabGet x.p.chans 127 = none)) (by decide)
  exact ⟨_, x0, x, u, vs, _, _, h, of_decide_eq_true hc, ⟨rfl, rfl⟩, rfl⟩

theorem witness_bind_ring : ∃ t, channelRule (.sbindRing (hdr) 127 (.s 4) (.s 5) (.s 6)) stChan t := by
  obtain ⟨x0, x, u, vs, h, hc⟩ := wideRuns_of (s := stChan) (h := hdr) (pl := chanPlace)
    (srcs := [addrSrc (hdr) (.s 4), srcOf (.s 5) 1 2 false, srcOf (.s 6) 1 3 false]) (refs := [])
    (fun _ x _ vs => decide (tabGet x.p.chans 127 = none) && decide (nthVal vs 0 % 512 = 0 ∧
      (scratchOff x.p (nthVal vs 0) (nthVal vs 1 * nthVal vs 2)).isSome = true ∧ nthVal vs 1 ≠ 0 ∧ nthVal vs 1 % 512 = 0 ∧
      1 ≤ nthVal vs 2 ∧ nthVal vs 2 ≤ 16)) (by decide)
  simp only [Bool.and_eq_true, decide_eq_true_eq] at hc
  obtain ⟨a, b, c, d, e, f⟩ := hc.2
  exact ⟨_, x0, x, u, vs, _, _, h, hc.1, ⟨a, b, c, d, e, f, rfl, rfl⟩, rfl⟩

theorem witness_bind_port : ∃ t, channelRule (.sbindPort (hdr) 0 (.imm 1023)) stChan t := by
  obtain ⟨x0, x, u, vs, h, hc⟩ := wideRuns_of (s := stChan) (h := hdr) (pl := chanPlace)
    (srcs := [srcOf (.imm 1023) 1 1 false]) (refs := [])
    (fun _ x u vs => decide (tabGet x.p.chans 0 = none) && decide (nthVal vs 0 ≤ 1023) &&
      someAnd (tabGet u.easel (nthVal vs 0)) fun e => decide (e.ctx = x.p.ctx ∧ e.pull = none)) (by decide)
  simp only [Bool.and_eq_true, decide_eq_true_eq] at hc
  obtain ⟨e, h1, hk⟩ := someAnd_spec hc.2
  obtain ⟨a, b⟩ := of_decide_eq_true hk
  exact ⟨_, x0, x, u, vs, _, _, h, hc.1.1, ⟨e, hc.1.2, h1, a, b, rfl, rfl⟩, rfl⟩

theorem witness_bind_iter : ∃ t, channelRule (.sbindIter (hdr) 0 (.s 7) (.imm 0)) stChan t := by
  obtain ⟨x0, x, u, vs, h, hc⟩ := wideRuns_of (s := stChan) (h := hdr) (pl := chanPlace)
    (srcs := [srcOf (.s 7) 1 1 false, srcOf (.imm 0) 1 2 false]) (refs := [])
    (fun _ x _ vs => decide (tabGet x.p.chans 0 = none) && decide (nthVal vs 0 < 2 ^ 32) &&
      decide (handleFault x.ctx (nthVal vs 0) = none)) (by decide)
  simp only [Bool.and_eq_true, decide_eq_true_eq] at hc
  exact ⟨_, x0, x, u, vs, _, _, h, hc.1.1, ⟨hc.1.2, hc.2, rfl, rfl⟩, rfl⟩

theorem witness_query : ∃ t, channelRule (.sbindQuery (hdr) 3 10) stChan t := by
  obtain ⟨x0, x, u, vs, h⟩ := wide_plain (s := stChan) (h := hdr) (pl := chanPlace) (srcs := []) (refs := [.s 10 0]) (by decide)
  exact ⟨_, x0, x, u, vs, h, rfl⟩

theorem witness_preg : ∃ t, regionRule (.preg (hdr) 10 (.s 8) (.s 9)) stChan t := by
  obtain ⟨x0, x, u, vs, h, hc⟩ := wideRuns_of (s := stChan) (h := hdr) (pl := chanPlace)
    (srcs := [addrSrc (hdr) (.s 8), srcOf (.s 9) 2 2 false]) (refs := [.s 10 0])
    (fun _ x u vs => decide (nthVal vs 1 ≠ 0 ∧ nthVal vs 1 % 4096 = 0 ∧ nthVal vs 0 % 4096 = 0) &&
      okAnd (segsFor u x.p.ctx .pub (nthVal vs 0) (nthVal vs 1)) fun g => oneSlice g &&
      decide (¬ (256 ≤ (u.regions.filter fun r => r.ctx == x.p.ctx).length ∨ x.ctx.params.shadowReserve <
        ((u.regions.filter fun r => r.ctx == x.p.ctx).map regionBytes).sum + nthVal vs 1) ∧ segsBad u g = none)) (by decide)
  simp only [Bool.and_eq_true, decide_eq_true_eq] at hc
  obtain ⟨g, h1, hk⟩ := okAnd_spec hc.2
  simp only [Bool.and_eq_true, decide_eq_true_eq] at hk
  obtain ⟨a, b, c⟩ := hc.1
  exact ⟨_, x0, x, u, vs, g, h, a, b, c, h1, hk.1, (if_neg hk.2.1).mpr ⟨hk.2.2, rfl⟩⟩

theorem witness_pub : ∃ t, regionRule (.pub (hdr) .die (.s 63)) stChan t := by
  obtain ⟨x0, x, u, vs, h, hc⟩ := wideRuns_of (s := stChan) (h := hdr) (pl := chanPlace)
    (srcs := [srcOf (.s 63) 1 1 false]) (refs := [])
    (fun x0 x u vs => someAnd (u.regions.find? fun q => q.ctx == x.p.ctx && q.num == nthVal vs 0) (fun r =>
      !copyInto u x.st.panel r) && okAnd (waitRelease u x x0.a.em allStreams) fun _ => true) (by decide)
  simp only [Bool.and_eq_true] at hc
  obtain ⟨r, h1, hk⟩ := someAnd_spec hc.1
  obtain ⟨_, h2, -⟩ := okAnd_spec hc.2
  exact ⟨_, x0, x, u, vs, r, h, h1, h2, by simpa using hk, rfl⟩

theorem witness_preg_drop : ∃ t, regionRule (.pregDrop (hdr) (.s 63)) stChan t := by
  obtain ⟨x0, x, u, vs, h, hc⟩ := wideRuns_of (s := stChan) (h := hdr) (pl := chanPlace)
    (srcs := [srcOf (.s 63) 1 1 false]) (refs := [])
    (fun _ x u vs => someAnd (u.regions.find? fun q => q.ctx == x.p.ctx && q.num == nthVal vs 0) fun _ => true) (by decide)
  obtain ⟨r, h1, -⟩ := someAnd_spec hc
  exact ⟨_, x0, x, u, vs, r, h, h1, rfl⟩

/-- A commission of four levels, its highest bound to a package; a descriptor at 2^17: one element from 2^17 + 256 to
3 x 2^16, all-reduce at level 3. -/
def stColl : State :=
  let desc : List (Nat × Byte) := [(2 ^ 48 + 0x20001, 1), (2 ^ 48 + 0x20002, 2), (2 ^ 48 + 0x2000A, 3), (2 ^ 48 + 0x20010, 1),
    (2 ^ 48 + 0x20019, 3)]
  let s := onComm (fun c => { c with record := { c.record with levels := 4, classes := [1, 1, 0], domains := [1, 1, 4] } })
    (onCtx (fun c => { c with tlb := [pubPage] }) (sregs [(4, 0x20000)] { st0 with mem := st0.mem ++ desc }))
  s

theorem witness_coll : ∃ t, collectiveRule (.coll (hdr) (.s 4) (.s 63)) stColl t := by
  obtain ⟨x0, x, u, vs, h, hc⟩ := wideRuns_of (s := stColl) (h := hdr) (pl := chanPlace)
    (srcs := [addrSrc (hdr) (.s 4), srcOf (.s 63) 2 3 false]) (refs := [])
    (fun x0 x u vs => hasRights x &&
      okAnd (placeAll u x x0.a.em .one .r [{ lane := 0, addr := (nthVal vs 0 : Int), n := 32, align := 8 }]) fun ps =>
      okAnd (readNow u x x0.a.em ps) fun (u, bs) =>
      let f := fun o k => ofBytes ((bs.drop o).take k)
      let r := x.c.record
      let op := f 24 1 % 16
      let lvl := f 25 1
      let n := collN r lvl
      decide (f 16 4 ≠ 0 ∧ op < 3 ∧ f 24 1 / 16 < 4 ∧ 3 ≤ lvl ∧ lvl < r.levels ∧ 4 ≤ domainOf r lvl ∧ f 26 6 = 0 ∧
        (op = 1 → f 16 4 % n = 0)) &&
      decide (x.p.task = false ∧ classOf r lvl = 0) &&
      okAnd (waitRelease u x x0.a.em allStreams) (fun _ => true) &&
      okAnd (placeAll u x x0.a.em .one .r [{ lane := 0, addr := (f 0 8 : Int), n := 4 * f 16 4, align := 4 }]) (fun _ => true) &&
      okAnd (placeAll u x x0.a.em .one .we [{ lane := 0, addr := (f 8 8 : Int), n := collBytes op (f 16 4) n, align := 4 }])
        fun _ => true) (by decide)
  obtain ⟨hr, hc⟩ := Bool.and_eq_true_iff.1 hc
  obtain ⟨ps, h1, hc⟩ := okAnd_spec hc
  obtain ⟨⟨v, bs⟩, hb, hc⟩ := okAnd_spec hc
  simp only [Bool.and_eq_true, decide_eq_true_eq] at hc
  obtain ⟨⟨⟨⟨⟨a, b, c, d, e, f, g, j⟩, k, l⟩, hw⟩, hp1⟩, hp2⟩ := hc
  obtain ⟨_, hw, -⟩ := okAnd_spec hw
  obtain ⟨p1, hp1, -⟩ := okAnd_spec hp1
  obtain ⟨p2, hp2, -⟩ := okAnd_spec hp2
  exact ⟨_, x0, x, u, v, vs, ps, bs, none, p1, p2, h, hr, h1, hb, a, b, c, d, e, f, g, j, rfl, hp1, hp2, k, l, hw, rfl, rfl⟩

/-- A copy under way from 2^17 to offset 1,024 of the scratchpad. -/
def stLand2 : State := { stCopy with copies := [(9,
  { agent := 4, stroke := 3, panel := 2, ctx := 1, core := 0, lay := theLayout, out := false, packed := 2 ^ 56 + 1024
    bytes := 4, comp := none, scp := .pnl, born := 0 })] }

theorem witness_chunk : ∃ t, engineStepRule (.chunkLanded 9 0) stLand2 t := by
  have h : (someAnd (tabGet stLand2.copies 9) fun c => chunkReady stLand2 c 0 && decide (tooOld stLand2 (partBorn c 0 0) = false ∧ c.mcast = false ∧ c.out = false) &&
      okAnd (chunkBytes stLand2 c 0) fun bs => someAnd (landPanel stLand2 c) fun p =>
      decide ((coreWrite (chunkRead stLand2 c 0) p.core c.ctx (bs.flatMap fun e => (List.range (layElem c.lay.fmt)).map fun j =>
        (scratchPa p (c.packed - p.slotVA + placeByte c.lay (layElem c.lay.fmt * e.1 + j)), 1)) (bs.flatMap (·.2))).2 =
          none)) = true := by decide
  obtain ⟨c, h0, h⟩ := someAnd_spec h
  simp only [Bool.and_eq_true, decide_eq_true_eq] at h
  obtain ⟨bs, h1, h2⟩ := okAnd_spec h.2
  obtain ⟨p, h3, h4⟩ := someAnd_spec h2
  exact ⟨_, .inl ⟨c, h0, h.1.1, fun _ _ => h.1.2.1, .inr (.inl ⟨h.1.2.2.1, h.1.2.2.2, bs, p, _, h1, h3, Prod.ext rfl (of_decide_eq_true h4), rfl⟩)⟩⟩

/-- A multicast of the same tensor to 3 x 2^16. -/
def stMcast : State := { stLand2 with copies := tabMod stLand2.copies 9 fun c => { c with mcast := true, dests := [0x30000] } }

theorem witness_mcast_delivery : ∃ t, engineStepRule (.mcastDelivery 9 0 0 .here) stMcast t := by
  have h : (someAnd (tabGet stMcast.copies 9) fun c => decide (c.mcast = true ∧ 0 < c.dests.length ∧
      0 < ceilDiv c.bytes 128 ∧ servedOf c 0 1 = none ∧ heldBack c 0 1 = false ∧ tooOld stMcast (partBorn c 0 1) = false ∧ chunkAway stMcast c 0 = false) &&
      okAnd (mcastElems stMcast c 0) fun es =>
      let mine := es.filter fun e => (lineElems c 0).contains e.1
      okAnd (lineSegs (chunkRead stMcast c 0) c 0 (mine.map (·.1))) fun g => (match reachOf (chunkRead stMcast c 0) c.ctx true g with
        | .here _ => true
        | _ => false) &&
      let q := hereWrites (chunkRead stMcast c 0) c.ctx g (mine.flatMap (·.2))
      decide ((coreWrite (chunkRead stMcast c 0) c.core c.ctx q.1 q.2).2 = none)) = true := by decide
  obtain ⟨c, h0, h⟩ := someAnd_spec h
  simp only [Bool.and_eq_true, decide_eq_true_eq] at h
  obtain ⟨es, h1, h2⟩ := okAnd_spec h.2
  obtain ⟨g, h3, h4⟩ := okAnd_spec h2
  simp only [Bool.and_eq_true, decide_eq_true_eq] at h4
  obtain ⟨a, b, e, f, hb, ho, j⟩ := h.1
  have hg : ∃ g1, reachOf (chunkRead stMcast c 0) c.ctx true g = .here g1 := by
    have := h4.1
    split at this
    · exact ⟨_, by assumption⟩
    · cases this
  obtain ⟨g1, hg⟩ := hg
  exact ⟨_, c, h0, .inl ⟨a, b, e, f, hb, ho, fun k => absurd k (by rw [j]; decide), es, g, _, h1, h3, .inl ⟨g1, hg, rfl⟩,
    Prod.ext rfl h4.2, rfl⟩⟩

/-- The only participant's collective. -/
def stHop : State := { stColl with colls := [(9,
  { agent := 4, stroke := 3, panel := 2, ctx := 1, core := 0, comm := 1, level := 3, op := 0, wire := 0, count := 1, step := 0
    src := 0x20100, dst := 0x30000, comp := none, unit := 0, group := 0 })] }

theorem witness_hop : ∃ t, engineStepRule (.collHop 9 []) stHop t := by
  have h : (someAnd (tabGet stHop.colls 9) fun c => someAnd (getComm stHop c.comm) fun cm =>
      decide (c.out = none ∧ collSecond stHop cm (9, c) = false ∧
        (collPeers stHop cm.record c).length + 0 = collN cm.record c.level ∧
        (∀ e ∈ collPeers stHop cm.record c, collSilent stHop e.2 = false) ∧
        (∀ e ∈ collPeers stHop cm.record c, e.2.level = c.level ∧ e.2.op = c.op ∧ e.2.wire = c.wire ∧ e.2.count = c.count)) &&
      (collSources stHop (collPeers stHop cm.record c)).2.all fun e => okAnd e.2 fun _ => true) = true := by decide
  obtain ⟨c, h0, h⟩ := someAnd_spec h
  obtain ⟨cm, h1, h⟩ := someAnd_spec h
  obtain ⟨h, hs⟩ := Bool.and_eq_true_iff.1 h
  obtain ⟨a, b, e, q, f⟩ := of_decide_eq_true h
  refine ⟨_, c, h0, cm, h1, a, b, e, q, f, fun _ k => (nomatch k), fun e he => ?_, rfl⟩
  obtain ⟨ws, hw, -⟩ := okAnd_spec (List.all_eq_true.1 hs e he)
  exact ⟨ws, hw⟩

/-! ## Matrix instructions -/

/-- Panel 2 holds the core's matrix state: half 0 and slot 0 of no K step, tile 0 with KDONE 3. -/
def stMat : State :=
  let m : Matrix := { owner := 2, halves := [(0, { fmt := 0, ks := 0, rows := [], scales := [] })]
                      slots := [(0, { fmt := 0, ks := 0, rows := [], scales := [] })], tiles := [(0, { kdone := 3 })] }
  { liveBelow 16 (sregs [(4, 0x20000)]) with cores := [(0, { matrix := some m })] }

theorem matRuns_of {s : State} {h : Hdr} {srcs : Nat → List Src} {refs : List Ref} {uni : List Nat}
    (P : Ctxt → Ctxt → State → Matrix → List (Nat → Nat) → Bool)
    (w : (someAnd (theCtxt s) fun x0 => okAnd (matGather s x0 h (srcs x0.w) refs uni) fun (u, x, m, vs) =>
      P x0 x u m vs) = true) :
    ∃ x0 x u m vs, MatRuns s h srcs refs uni x0 x u m vs ∧ P x0 x u m vs = true := by
  obtain ⟨x0, h0, w⟩ := someAnd_spec w
  obtain ⟨⟨u, x, m, vs⟩, h1, w⟩ := okAnd_spec w
  exact ⟨x0, x, u, m, vs, ⟨h0, h1⟩, w⟩

theorem tileRuns_of {s : State} {h : Hdr} (tile : Nat) {srcs : List Src} {refs : List Ref}
    (P : Ctxt → Ctxt → State → Matrix → List (Nat → Nat) → Bool)
    (w : (someAnd (theCtxt s) fun x0 => okAnd (matGather s x0 h srcs refs []) fun (u, x, m, vs) =>
      !tileBusy u x.p.core tile && P x0 x u m vs) = true) :
    ∃ x0 x u m vs, TileRuns s h tile srcs refs x0 x u m vs ∧ P x0 x u m vs = true := by
  obtain ⟨x0, x, u, m, vs, h, hc⟩ := matRuns_of (srcs := fun _ => srcs)
    (fun x0 x u m vs => !tileBusy u x.p.core tile && P x0 x u m vs) w
  simp only [Bool.and_eq_true, Bool.not_eq_true'] at hc
  exact ⟨x0, x, u, m, vs, ⟨h, hc.1⟩, hc.2⟩

theorem witness_gang : ∃ t, gangRule (.gang (hdr) (.imm 0)) stMat t := by
  obtain ⟨x0, x, u, m, vs, h, hc⟩ := matRuns_of (s := stMat) (h := hdr) (srcs := fun _ => [srcOf (.imm 0) 1 1 false])
    (refs := []) (uni := [0]) (fun x0 x u _ vs =>
      let v := val vs 0 ((lowestLane (activeMask x0.a 0) x.w).getD 0)
      let u1 := if v = x.st.gang.toNat then u else leaveGang u x.st.panel x.p.core x.st.idx
      let u2 := match getStroke u1 x.a.stroke with
        | some k => setStroke u1 x.a.stroke { k with gang := BitVec.ofNat 32 v }
        | none => u1
      decide (v = 0) && okAnd (commitRegs u2 { x with st := (getStroke u2 x.a.stroke).getD x.st }
        { sw := false, size := 16, srcs := [srcOf (.imm 0) 1 1 false] } (activeMask x0.a 0) {}) fun _ => true) (by decide)
  simp only [Bool.and_eq_true, decide_eq_true_eq] at hc
  obtain ⟨w, h1, -⟩ := okAnd_spec hc.2
  exact ⟨_, x0, x, u, m, vs, w, h, ⟨by simpa [hdr] using Nat.lt_of_le_of_lt (Nat.le_of_eq hc.1) (by decide),
    fun hn => absurd hc.1 (by simpa [hdr] using hn)⟩, h1, rfl⟩

theorem witness_mxz : ∃ t, drainRule (.mxz (hdr) 0) stMat t := by
  obtain ⟨x0, x, u, m, vs, h, -⟩ := tileRuns_of (s := stMat) (h := hdr) 0 (srcs := []) (refs := [])
    (fun _ _ _ _ _ => true) (by decide)
  exact ⟨_, x0, x, u, m, vs, h, rfl⟩

theorem witness_mxdrStat : ∃ t, drainRule (.mxdrStat (hdr) 0 5) stMat t := by
  obtain ⟨x0, x, u, m, vs, h, hc⟩ := tileRuns_of (s := stMat) (h := hdr) 0 (srcs := []) (refs := [.s 5 0])
    (fun x0 x u m _ =>
      let k := tileOf m 0
      let word := k.kdone % 16 + (if k.ovf then 2 ^ 8 else 0) + (if k.inexact then 2 ^ 9 else 0) +
        (if k.nan then 2 ^ 10 else 0) + (if k.evalid then 2 ^ 11 else 0) + wrapInt 10 k.eacc * 2 ^ 12
      okAnd (commitRegs u x { sw := false, size := 8, dsts := [.s 5 0], late := true } (activeMask x0.a 0)
        { s := [(5, BitVec.ofNat 64 word)] }) fun _ => true) (by decide)
  obtain ⟨w, h1, -⟩ := okAnd_spec hc
  exact ⟨_, x0, x, u, m, vs, w, h, h1, rfl⟩

def wordIsOk (x : Ctxt) (lanes : Mask) (v : Nat → Nat) (w : Nat) : Bool :=
  decide (w = v (((laneList lanes x.w).head?).getD 0) % 2 ^ 32) && ((laneList lanes x.w).all fun l => decide (v l % 2 ^ 32 = w)) &&
    wordOk w

theorem wordIs_of {x : Ctxt} {lanes : Mask} {v : Nat → Nat} {w : Nat} (h : wordIsOk x lanes v w = true) :
    WordIs x lanes v w := by
  simp only [wordIsOk, Bool.and_eq_true, decide_eq_true_eq, List.all_eq_true] at h
  exact ⟨h.1.1, h.1.2, h.2⟩

/-- The last row and column of tile 0. -/
theorem witness_mxdr : ∃ t, drainRule (.mxdr (hdr) 0 14 8 63 (.imm 0x3F3F)) stMat t := by
  obtain ⟨x0, x, u, m, vs, h, hc⟩ := tileRuns_of (s := stMat) (h := hdr) 0
    (srcs := [srcOf (.v 8) 1 1 false, srcOf (.imm 0x3F3F) 1 3 false]) (refs := [.s 63 2, .v 14 1 0])
    (fun x0 x u m vs => decide (val vs 1 0 % 256 < 64 ∧ val vs 1 0 / 256 < 64) && wordIsOk x (activeMask x0.a 0) (val vs 0) 0 &&
      !(tileOf m 0).evalid && decide (drainBad (tileOf m 0) (val vs 1 0 % 64) (activeMask x0.a 0) = none) &&
      okAnd (
        let one := drainLane x (tileOf m 0) 0 (wEacc 0) (0x3F8000003F800000 % 2 ^ 32) (0x3F8000003F800000 / 2 ^ 32)
          (val vs 1 0 % 64) (val vs 1 0 / 256)
        commitRegs u x { sw := false, size := 16, srcs := [srcOf (.v 8) 1 1 false], dsts := [.v 14 1 0], late := true }
          (activeMask x0.a 0) { v := putV x (activeMask x0.a 0) 14 (fun i => (one i).1) 1
                                fl := orFlags (laneList (activeMask x0.a 0) x.w) fun i => (one i).2 }) fun _ => true) (by decide)
  simp only [Bool.and_eq_true, decide_eq_true_eq, Bool.not_eq_true'] at hc
  obtain ⟨z, hz, -⟩ := okAnd_spec hc.2
  exact ⟨_, x0, x, u, m, vs, 0, z, h, hc.1.1.1.1.1, hc.1.1.1.1.2, wordIs_of hc.1.1.1.2, by simp [hc.1.1.2], hc.1.2,
    (if_neg (by decide)).mpr hz, rfl⟩

/-- The only member of an MMA of tile 0 and half 0, format word v8. -/
def lone (x0 x : Ctxt) (vs : List (Nat → Nat)) : Member :=
  { agent := x.aid, tile := 0, half := 0, word := (laneList (activeMask x0.a 0) x.w).map fun l => BitVec.ofNat 32 (val vs 0 l)
    skip := sReg x.a 63, kbase := sReg x.a 63, list := x.st.gang.toNat, vf := 8, last := false }

/-- MMA alone, over no K step. -/
theorem witness_mma : ∃ t, mmaRule (.mma (hdr) 0 0 8 63 63) stMat t := by
  obtain ⟨x0, x, u, m, vs, h, hc⟩ := matRuns_of (s := stMat) (h := hdr) (srcs := fun _ => [srcOf (.v 8) 1 1 false])
    (refs := [.s 63 2, .s 63 3]) (uni := []) (fun x0 x u m vs =>
      let e := lone x0 x vs
      !namesExited u x e.list && decide (m.latch = none) && decide (e.list = 0) &&
      !operandsBusy u x.p.core (byPosition u e.list [e]) && decide (voteFail m (byPosition u e.list [e]) = none) &&
      someAnd (tabGet m.halves 0) fun ha => wordOk ((e.word.head?).getD 0).toNat &&
        decide (ha.err = none) && decide (ha.ks = 0) &&
        decide (((tabGet m.slots 0).getD { fmt := 0, ks := 0, rows := [], scales := [] }).err = none)) (by decide)
  simp only [Bool.and_eq_true, decide_eq_true_eq, Bool.not_eq_true'] at hc
  obtain ⟨ha, h1, h2⟩ := someAnd_spec hc.2
  simp only [Bool.and_eq_true, decide_eq_true_eq] at h2
  have hl := hc.1.1.1.2
  have hg : byPosition u (lone x0 x vs).list [lone x0 x vs] = [(0, lone x0 x vs)] := by simp [byPosition, hl]
  have hj : JointRuns u m (byPosition u (lone x0 x vs).list [lone x0 x vs])
      (((lone x0 x vs).word.head?).getD 0).toNat m.tiles := by
    refine ⟨0, lone x0 x vs, [], ha, hg, h1, hc.1.2, rfl, h2.1.1.1, h2.1.1.2, ?_, ?_⟩
    · rw [hg]
      intro q hq
      rw [List.mem_singleton.1 hq]
      exact h2.2
    · rw [h2.1.2]
      rfl
  exact ⟨_, x0, x, u, m, vs, [], _, _, h, hc.1.1.1.1.1, .inl ⟨hc.1.1.1.1.2, hl, rfl⟩, hc.1.1.2, hj, rfl⟩

theorem witness_mxld : ∃ t, fillRule (.mxld (hdr) 0 1 4 (.v 10) 8 ⟨false, 0, 0, 264⟩) stMat t := by
  obtain ⟨x0, x, u, m, vs, h, hc⟩ := matRuns_of (s := stMat) (h := hdr) (srcs := mxldSrcs (hdr) (.v 10) 8)
    (refs := [.s 4 1]) (uni := []) (fun x0 x u _ vs =>
      decide (x.w = 32) && decide (gangPos x.st.gang.toNat x.st.idx = 0) &&
      wordIsOk x (activeMask x0.a 0) (val vs ((mxldSrcs (hdr) (.v 10) 8 x0.w).length - 1)) 0 &&
      okAnd (startFill u x (activeMask x0.a 0) false 0 (wAfmt 0) 1 (sReg x.a 4).toNat ⟨false, 0, 0, 264⟩
        (rowIndex x.w (.v 10) vs fun _ => 0)) fun v =>
      okAnd (commitRegs v x { sw := false, size := 16, srcs := mxldSrcs (hdr) (.v 10) 8 x0.w } (activeMask x0.a 0) {})
        fun _ => true) (by decide)
  simp only [Bool.and_eq_true, decide_eq_true_eq] at hc
  obtain ⟨v, h1, h2⟩ := okAnd_spec hc.2
  obtain ⟨z, h3, -⟩ := okAnd_spec h2
  exact ⟨_, x0, x, u, m, vs, u, x, _, 0, v, z, h, by rintro k ⟨⟩ -; decide, hc.1.1.2, wordIs_of hc.1.2, by decide, by decide,
    rfl, rfl, by simp [DescIs], h1, h3, rfl⟩

theorem witness_mxlb : ∃ t, fillRule (.mxlb (hdr) 0 1 4 8 ⟨false, 0, 0, 264⟩) stMat t := by
  obtain ⟨x0, x, u, m, vs, h, hc⟩ := matRuns_of (s := stMat) (h := hdr) (srcs := fun _ => [srcOf (.v 8) 1 3 false])
    (refs := [.s 4 1]) (uni := []) (fun x0 x u _ vs => wordIsOk x (activeMask x0.a 0) (val vs 0) 0 &&
      okAnd (placeAll u x (activeMask x0.a 0) .one .r ((List.range 64).flatMap fun r =>
        rowAccs (wBfmt 0) 1 ⟨false, 0, 0, 264⟩ (sReg x.a 4).toNat r r)) fun ps =>
      okAnd (commitRegs { u with
          fills := tabPut u.fills u.fresh (fillOf u x true 0 (wBfmt 0) 1 (sReg x.a 4).toNat ⟨false, 0, 0, 264⟩ ps), fresh := u.fresh + 1 } x
          { sw := false, size := 16, srcs := [srcOf (.v 8) 1 3 false] } (activeMask x0.a 0) {}) fun _ => true) (by decide)
  simp only [Bool.and_eq_true] at hc
  obtain ⟨ps, h1, h2⟩ := okAnd_spec hc.2
  obtain ⟨z, h3, -⟩ := okAnd_spec h2
  exact ⟨_, x0, x, u, m, vs, 0, ps, z, h, wordIs_of hc.1, by decide, by simp [DescIs], h1, h3, rfl⟩

/-- A fill of half 0 under way, of no rows. -/
def stFill : State := { stMat with fills := [(9, { agent := 4, stroke := 3, panel := 2, core := 0, ctx := 1, isB := false, idx := 0, fmt := 0
                                                   ks := 1, str := 0, rows := [], base := 0, stride := 0, before := [] })] }

theorem witness_fill : ∃ t, fillRule (.operandFillComplete 9) stFill t := by
  have h : (someAnd (tabGet stFill.fills 9) fun f => fillReady stFill 9 f &&
      !unitRefused stFill f.ctx (fillSegs f) &&
      someAnd (getCore (filled { stFill with fills := tabDel stFill.fills 9 } f).1 f.core).matrix fun _ => true) = true := by decide
  obtain ⟨f, h0, h⟩ := someAnd_spec h
  simp only [Bool.and_eq_true, Bool.not_eq_true'] at h
  obtain ⟨m, hm, -⟩ := someAnd_spec h.2
  exact ⟨_, f, _, m, h0, h.1.1, h.1.2, rfl, hm, rfl⟩

theorem witness_image_wait : (∃ t, imageRule (.mxadd (hdr) 0 4 5) stMat t) ∧ ∃ t, imageRule (.mxrest (hdr) 7 4 5) stMat t := by
  obtain ⟨x0, x, u, m, vs, h, hc⟩ := tileRuns_of (s := stMat) (h := hdr) 0 (srcs := []) (refs := [.s 4 1])
    (fun x0 x u _ _ => okAnd (placeAll u x (activeMask x0.a 0) .one .r
      [{ lane := 0, addr := ((sReg x.a 4).toNat : Int), n := 65600, align := 64 }]) fun _ => true) (by decide)
  obtain ⟨y0, y, w, n, us, k, kc⟩ := tileRuns_of (s := stMat) (h := hdr) 7 (srcs := []) (refs := [.s 4 1])
    (fun x0 x u _ _ => okAnd (placeAll u x (activeMask x0.a 0) .one .r
      [{ lane := 0, addr := ((sReg x.a 4).toNat : Int), n := 65600, align := 64 }]) fun _ => true) (by decide)
  obtain ⟨ps, h1, -⟩ := okAnd_spec hc
  obtain ⟨qs, k1, -⟩ := okAnd_spec kc
  exact ⟨⟨_, x0, x, u, m, vs, _, h, ⟨ps, h1, rfl⟩, rfl⟩, ⟨_, y0, y, w, n, us, _, k, ⟨qs, k1, rfl⟩, rfl⟩⟩

theorem pieceParts_length (g : List (Nat × Nat)) (bs : List Byte) : (pieceParts g bs).length = g.length := by
  induction g generalizing bs with
  | nil => rfl
  | cons p t ih => simp [pieceParts, ih]

theorem linePieces_length (f : Nat) (g : List (Nat × Nat)) : (linePieces f g).length ≤ f + g.length := by
  induction f generalizing g with
  | zero => simp [linePieces]
  | succ f ih =>
    match g with
    | [] => simp [linePieces]
    | (pa, n) :: t =>
      simp only [linePieces]
      split
      · have := ih t
        simp
        omega
      · have := ih ((pa + min n (128 - pa % 128), n - min n (128 - pa % 128)) :: t)
        simp at this ⊢
        omega

theorem witness_mxsave : ∃ t, imageRule (.mxsave (hdr) 0 4 5) stMat t := by
  obtain ⟨x0, x, u, m, vs, h, hc⟩ := tileRuns_of (s := stMat) (h := hdr) 0 (srcs := []) (refs := [.s 4 1])
    (fun x0 x u m _ => decide ((tileOf m 0).bad = none) && okAnd (placeAll u x (activeMask x0.a 0) .one .w
      [{ lane := 0, addr := ((sReg x.a 4).toNat : Int), n := 65600, align := 64 }]) fun ps =>
      someAnd (getStroke u x.a.stroke) fun st => decide ((ps.map (·.segs)).flatten.length ≤ 20 ∧ ackCount st 5 = 0)) (by decide)
  simp only [Bool.and_eq_true, decide_eq_true_eq] at hc
  obtain ⟨ps, h1, h2⟩ := okAnd_spec hc.2
  obtain ⟨st, h3, h4⟩ := someAnd_spec h2
  have h5 := linePieces_length 2048 (ps.map (·.segs)).flatten
  simp only [decide_eq_true_eq] at h4
  refine ⟨_, x0, x, u, m, vs, _, h, ⟨ps, h1, rfl⟩, hc.1, ?_, rfl⟩
  simp only [checkRoom, pieceParts_length, h3, h4.2]
  rw [if_neg (by omega)]

/-- Agent 4 waits for an image of no pieces, to be added to tile 0 or restored to tile 7. -/
def stImage (add : Bool) (tile : Nat) : State :=
  { onAgent (fun a => { a with run := .blocked ⟨.matrix, 0⟩ }) stMat with
    images := [(9, { agent := 4, add := add, tile := tile, str := 5, segs := [], va := 0, before := [] })] }

theorem unitBad_nil (s : State) (core ctx : Nat) (pubs : List (Nat × Nat)) : unitBad s core ctx pubs [] = none := by
  simp [unitBad, pieceAway]

theorem unitRefused_nil (s : State) (ctx : Nat) : unitRefused s ctx [] = false := by
  simp [unitRefused, pieceRefused, pieceAway]

theorem image_witness {s : State} (h : (someAnd (imageOf s 4) fun e => someAnd (getAgent s 4) fun _ =>
    imageReady s e.1 e.2 && decide (e.2.segs = []) &&
    someAnd (getCore s (agentCore s 4)).matrix fun m => someAnd (tileOfImage []) fun k =>
      if e.2.add then decide ((tileOf m e.2.tile).bad = none) && (addImage (tileOf m e.2.tile) k).isSome
      else decide (k.kdone ≤ 8)) = true) : ∃ t, imageRule (.imageReadComplete 4) s t := by
  obtain ⟨⟨id, f⟩, h0, h⟩ := someAnd_spec h
  obtain ⟨a, h1, h⟩ := someAnd_spec h
  simp only [Bool.and_eq_true, decide_eq_true_eq] at h
  obtain ⟨m, h2, h3⟩ := someAnd_spec h.2
  obtain ⟨k, h3, h4⟩ := someAnd_spec h3
  by_cases ha : f.add = true
  · simp only [ha, if_true, Bool.and_eq_true, decide_eq_true_eq, Option.isSome_iff_exists] at h4
    obtain ⟨v, hv⟩ := h4.2
    exact ⟨_, id, f, a, m, k, v, h0, h1, h.1.1, by rw [h.1.2, unitRefused_nil], by rw [h.1.2, unitBad_nil],
      by simp only [h.1.2]; exact h2, by simp only [h.1.2]; exact h3, (if_pos ha).mpr ⟨h4.1, hv⟩, rfl⟩
  · simp only [ha] at h4
    exact ⟨_, id, f, a, m, k, k, h0, h1, h.1.1, by rw [h.1.2, unitRefused_nil], by rw [h.1.2, unitBad_nil],
      by simp only [h.1.2]; exact h2, by simp only [h.1.2]; exact h3, (if_neg ha).mpr ⟨of_decide_eq_true h4, rfl⟩, rfl⟩

theorem witness_image_add : ∃ t, imageRule (.imageReadComplete 4) (stImage true 0) t := image_witness (by decide)
theorem witness_image_restore : ∃ t, imageRule (.imageReadComplete 4) (stImage false 7) t := image_witness (by decide)

/-! ## Sets -/

def setGate (s : State) (o : SetForm) (P : Ctxt → Ctxt → State → List (Nat → Nat) → Bool) : Bool :=
  someAnd (theCtxt s) fun x0 => okAnd (setGather s x0 o.h o.srcs o.dsts o.uni) fun g =>
    let r := pullAll g.1 g.2 o.srcs
    okAnd (srcValues r.1 r.2 (activeMask x0.a o.h.km) o.srcs o.srcs.length 0) fun vs =>
      activeMask x0.a o.h.km != 0 &&
      (o.hands.all fun k => decide (loVal r.2 (activeMask x0.a o.h.km) vs k < 2 ^ 32)) && P x0 r.2 r.1 vs

theorem setRuns_of {s : State} {o : SetForm} (P : Ctxt → Ctxt → State → List (Nat → Nat) → Bool)
    (w : setGate s o P = true) :
    ∃ x0 x u vs, SetRuns s o x0 x u vs ∧ P x0 x u vs = true := by
  obtain ⟨x0, h0, w⟩ := someAnd_spec w
  obtain ⟨⟨u0, y⟩, h1, w⟩ := okAnd_spec w
  obtain ⟨vs, h2, w⟩ := okAnd_spec w
  simp only [Bool.and_eq_true, bne_iff_ne, List.all_eq_true, decide_eq_true_eq] at w
  exact ⟨x0, _, _, vs, ⟨h0, w.1.1, ⟨u0, y, h1, rfl⟩, h2, w.1.2⟩, w.2⟩

/-- Set 1 holds 3, 50 and 99 of 100; v1 holds lane numbers. -/
def stSet : State := liveBelow 16 stChan

def setInstrs : List Instr :=
  [.snew (hdr) (.s 9) (.imm 100) (.imm 2), .snew (hdr) (.v 9) (.imm 0) (.imm (8 + 2 ^ 4)), .sdel (hdr) (.s 7),
   .sins (hdr) (some 9) (.s 7) (.v 1), .sins (hdr) none (.s 7) (.imm 99), .srem (hdr) none (.s 7) (.v 1),
   .shas (hdr) (.mask (.k 1)) (.s 7) (.v 1), .shas (hdr) (.reg (.v 9)) (.s 7) (.v 1), .scard (hdr) 9 (.s 7),
   .sand (hdr) (some 9) (.s 7) (.s 7) (.s 7), .sor (hdr) none (.s 7) (.s 7) (.s 7), .ssub (hdr) none (.s 7) (.s 7) (.s 7),
   .sxor (hdr) none (.s 7) (.s 7) (.s 7), .sitr (hdr) 8 9 (.s 7) (.s 63), .scost (hdr) 6 9 (.s 7) (.s 7) (.s 7),
   .sinfo (hdr) 9 (.s 7) (.imm 0) 63, .sinfo (hdr) 9 (.s 7) (.imm 3) 6, .sinfoPin (hdr) (.s 7) (.imm 4),
   .srank (hdr) false 9 (.s 7) (.v 1), .sload (hdr) 0 (.s 9) 4, .sstore (hdr) 0 9 (.s 7) 4 6 none]

theorem issues_witness {s : State} {l : List Instr}
    (h : (l.all fun i => someAnd (setForm i) fun o => setGate s o fun _ _ _ _ => true) = true) :
    ∀ i ∈ l, ∃ t, setIssueRule i s t := by
  intro i hi
  obtain ⟨o, ho, h⟩ := someAnd_spec (List.all_eq_true.1 h i hi)
  obtain ⟨x0, x, u, vs, h, -⟩ := setRuns_of (fun _ _ _ _ => true) h
  exact ⟨_, o, ho, x0, x, u, vs, h, rfl⟩

theorem witness_set_issue : ∀ i ∈ setInstrs, ∃ t, setIssueRule i stSet t := issues_witness (by decide)


/-- Agent 4 waits for the home of its set instruction. -/
def waitsFor (i : Instr) : State := onAgent (fun a => { a with run := .blocked ⟨.set, 0⟩, setAt := some (7, i) }) stSet

def heldResult (x : Ctxt) (lanes : Mask) (p : SetPlan) : Result :=
  { agent := x.aid, po := x.po, ctx := x.p.ctx, kind := .held, mask := lanes, dst := p.dst, sdst := p.sdst
    kdst := p.kdst.map fun k => (k, lanes) }

def acceptGate (s : State) (Q : List Nat → Bool) : Bool :=
  someAnd (acceptReady s 4) fun j => someAnd (setForm j) fun o => someAnd (getAgent s 4) fun a =>
    setGate { setAgent s 4 { a with run := .ready } with cur := 4 } o fun x0 x u vs =>
      let lanes := activeMask x0.a o.h.km
      let lo := loVal x lanes vs
      let p := o.plan x lanes lo vs
      decide (badHandle u x (o.hands.map fun k => (((o.srcs[k]?).map (·.field)).getD 0, lo k)) = none) &&
      Q [lo 0, lo 1, lo 2] &&
      okAnd (if p.holds then reserveFor u x [] (p.dst.map (·.2.1)) else issueRegs u x o.srcs (p.dst.map (·.2.1))) fun v =>
        let v1 := protect v x.aid lanes o.dsts
        let v2 := if p.dst ≠ [] ∨ p.sdst ≠ [] ∨ p.kdst ≠ none then addResult v1 (heldResult x lanes p) else v1
        (getAgent v2 x.aid).isSome

theorem accept_witness (i : Instr) (Q : List Nat → Bool)
    (hok : ∀ o, setForm i = some o → ∀ x v, Q v = true → o.ok x v)
    (hi : acceptReady (waitsFor i) 4 = some i) (h : acceptGate (waitsFor i) Q = true) :
    ∃ t, setAcceptRule (.setAcceptance 4) (waitsFor i) t := by
  obtain ⟨j, h0, h⟩ := someAnd_spec h
  obtain ⟨o, h1, h⟩ := someAnd_spec h
  obtain ⟨a, h2, h⟩ := someAnd_spec h
  obtain ⟨x0, x, u, vs, hr, h⟩ := setRuns_of _ h
  simp only [Bool.and_eq_true, decide_eq_true_eq] at h
  obtain ⟨v, h3, h4⟩ := okAnd_spec h.2
  obtain ⟨b, hb⟩ := Option.isSome_iff_exists.1 h4
  have hj : j = i := by
    have := h0.symm.trans hi
    exact Option.some.inj this
  refine ⟨_, j, o, x0, x, u, vs, v, a, b, h0, h1, h2, hr, h.1.1, hok o (hj ▸ h1) x _ h.1.2, ?_, hb, rfl⟩
  split <;> rename_i hh <;> simpa [hh] using h3

theorem witness_accept_scard : ∃ t, setAcceptRule (.setAcceptance 4) (waitsFor (.scard (hdr) 9 (.s 7))) t :=
  accept_witness _ (fun _ => true) (by rintro o ⟨⟩ x v -; trivial) (by decide) (by decide)

theorem witness_accept_sload : ∃ t, setAcceptRule (.setAcceptance 4) (waitsFor (.sload (hdr) 0 (.s 9) 4)) t :=
  accept_witness _ (fun v => nthVal v 0 % 16 == 0) (by rintro o ⟨⟩ x v h; simpa using h) (by decide) (by decide)

/-! ### Points -/

def setOpOf (act : SetAct) (handles : List Nat) (result : Option Nat) : SetOp :=
  { agent := 4, stroke := 3, ctx := 1, core := 0, act := act, handles := handles, lanes := 1, width := 32
    keys := [(0, 3)], since := 0, issue := 0, sdst := [9], result := result }

def stPoint (op : SetOp) (mem : Memory := stSet.mem) : State :=
  { stSet with mem := mem, setOps := [(8, op)], results := [(7,
    { agent := 4, ctx := 1, kind := .held, mask := 1, sdst := [9] })] }

/-- SAND of the set with itself. -/
theorem witness_set_point : ∃ t, setPointRule (.setCompletion 8)
    (stPoint (setOpOf (.binary 6 true) [0x1000001, 0x1000001, 0x1000001] (some 7))) t := by
  let op := setOpOf (.binary 6 true) [0x1000001, 0x1000001, 0x1000001] (some 7)
  have h : (someAnd (getCtx (stPoint op) 1) fun c => setReady (stPoint op) 8 op && decide ((setOutcome c 8 op).bad = none)) = true := by
    decide
  obtain ⟨c, h1, h⟩ := someAnd_spec h
  simp only [Bool.and_eq_true, decide_eq_true_eq] at h
  exact ⟨_, op, c, rfl, h.1, h1, h.2, rfl⟩

/-- SLOAD of a set image at 0x20000 with no keys. -/
theorem witness_sload_point : ∃ t, setPointRule (.setCompletion 8) (stPoint (setOpOf (.sload 0 0x20000) [] (some 7))) t := by
  let op := setOpOf (.sload 0 0x20000) [] (some 7)
  let s := stPoint op
  have h : (someAnd (getCtx s 1) fun _ => setReady s 8 op && okAnd (readForSet s op 0x20000 16).2 fun hdr =>
      let s1 := (readForSet s op 0x20000 16).1
      let n := ofBytes ((hdr.drop 4).take 4)
      okAnd (readForSet s1 op (0x20000 + 16) (4 * n)).2 fun bs =>
        decide (imageBad hdr (keyList n bs) = none) &&
        (getCtx (readForSet s1 op (0x20000 + 16) (4 * n)).1 op.ctx).isSome) = true := by decide
  obtain ⟨c, h1, h⟩ := someAnd_spec h
  simp only [Bool.and_eq_true] at h
  obtain ⟨hdr, h2, h3⟩ := okAnd_spec h.2
  obtain ⟨bs, h3, h4⟩ := okAnd_spec h3
  simp only [Bool.and_eq_true, decide_eq_true_eq, Option.isSome_iff_exists] at h4
  obtain ⟨c2, h5⟩ := h4.2
  exact ⟨_, op, c, rfl, h.1, h1, _, _, hdr, bs, c2, pair_eq h2, pair_eq h3, h4.1, h5, rfl⟩

/-- SSTORE of the set's three keys to 0x20000: its count and writes. -/
theorem witness_sstore_count : ∃ t, setPointRule (.setCompletion 8)
    (stPoint (setOpOf (.sstore 0 0x20000 10 0) [0x1000001] (some 7))) t := by
  let op := setOpOf (.sstore 0 0x20000 10 0) [0x1000001] (some 7)
  let s := stPoint op
  have h : (someAnd (getCtx s 1) fun c => setReady s 8 op && someAnd (getObj c (nthH op 0)) fun o =>
      okAnd (segsFor s 1 .w 0x20000 (4 * ((o.keys.filter fun k => decide (0 ≤ k)).take 10).length)) fun _ =>
        decide ((orderedRead c 8 (handleIdx (nthH op 0)) o (orderedSegs o 0 10)).2.2.1 = none)) = true := by decide
  obtain ⟨c, h1, h⟩ := someAnd_spec h
  simp only [Bool.and_eq_true] at h
  obtain ⟨o, h2, h3⟩ := someAnd_spec h.2
  obtain ⟨g, h3, h4⟩ := okAnd_spec h3
  exact ⟨_, op, c, rfl, h.1, h1, o, g, h2, h3, of_decide_eq_true h4, rfl⟩

theorem witness_sstore_sends : ∃ t, setPointRule (.setCompletion 8)
    (stPoint { setOpOf (.sstore 0 0x20000 10 0) [0x1000001] (some 7) with sent := some 3 }) t := by
  let op := { setOpOf (.sstore 0 0x20000 10 0) [0x1000001] (some 7) with sent := some 3 }
  have h : (someAnd (getCtx (stPoint op) 1) fun _ => setReady (stPoint op) 8 op) = true := by decide
  obtain ⟨c, h1, h⟩ := someAnd_spec h
  exact ⟨_, op, c, rfl, h, h1, rfl⟩

/-- Channel 5 gives the set's members from `start`. -/
def stIter (start : Nat) : State :=
  onPanel (fun p => { p with chans := [(5, { kind := .iter, set := 0x1000001, nextKey := some start })] }) stSet

def iterGate (s : State) (last : Bool) : Bool :=
  someAnd (getPanel s 2) fun p => someAnd (tabGet p.chans 5) fun ch => someAnd (getCtx s p.ctx) fun c =>
    someAnd ch.nextKey fun start => someAnd (getObj c ch.set) fun o =>
      decide (p.mapped = true ∧ ch.kind = .iter ∧ ch.done = false ∧ ch.ents.length < 16 ∧ handleFault c ch.set = none) &&
      let w := ((p.strokes.head?).bind (getStroke s)).elim 32 (·.width)
      let l := (o.keys.filter fun k => decide (start ≤ k)).take w
      decide ((l = []) ↔ last = true) && decide ((orderedRead c s.fresh (handleIdx ch.set) o (orderedSegs o start w)).2.2.1 = none)

theorem iter_witness {s : State} {last : Bool} (h : iterGate s last = true) : ∃ t, setPointRule (.iteratorEntry 2 5) s t := by
  obtain ⟨p, h0, h⟩ := someAnd_spec h
  obtain ⟨ch, h1, h⟩ := someAnd_spec h
  obtain ⟨c, h2, h⟩ := someAnd_spec h
  obtain ⟨start, h3, h⟩ := someAnd_spec h
  obtain ⟨o, h4, h⟩ := someAnd_spec h
  simp only [Bool.and_eq_true, decide_eq_true_eq] at h
  obtain ⟨⟨a, b, d, e, f⟩, -, hr⟩ := h
  exact ⟨_, p, ch, c, start, o, h0, a, h1, b, d, e, h2, h3, f, h4, hr, rfl⟩

theorem witness_iterator_entry : ∃ t, setPointRule (.iteratorEntry 2 5) (stIter 50) t := iter_witness (last := false) (by decide)
theorem witness_iterator_end : ∃ t, setPointRule (.iteratorEntry 2 5) (stIter 100) t := iter_witness (last := true) (by decide)

/-- A context with three sets of keys. -/
def threeSets : Ctx :=
  { placedCtx with sets := [(1, { gen := 1, obj := some { u := 60, pin := 0, home := 0, keys := [3] } }),
    (2, { gen := 1, obj := some { u := 100, pin := 0, home := 0, keys := [3, 50, 99] } }),
    (3, { gen := 1, obj := some { u := 100, pin := 0, home := 0, keys := [50, 70] } })] }

theorem witness_membership : ∃ d a b e, getObj threeSets 0x1000001 = some d ∧ getObj threeSets 0x1000002 = some a ∧
    getObj threeSets 0x1000003 = some b ∧ tabGet threeSets.sets (handleIdx 0x1000001) = some e ∧
    ∀ op ∈ ([6, 7, 8, 9] : List Nat), 6 ≤ op ∧ op ≤ 9 := ⟨_, _, _, _, rfl, rfl, rfl, rfl, by decide⟩


/-! ## Tasks and Easel -/

def taskGate (s : State) (h : Hdr) (ill : Ctxt → Bool) (srcs : List Src) (dsts : List Ref) (uni : List Nat)
    (P : Ctxt → Ctxt → State → List (Nat → Nat) → Bool) : Bool :=
  someAnd (theCtxt s) fun x0 => okAnd (taskGather s x0 h ill srcs dsts uni) fun r =>
    okAnd (srcValues r.1 r.2 (activeMask x0.a h.km) srcs srcs.length 0) fun vs =>
      activeMask x0.a h.km != 0 && P x0 r.2 r.1 vs

theorem taskRuns_of {s : State} {h : Hdr} {ill : Ctxt → Bool} {srcs : List Src} {dsts : List Ref} {uni : List Nat}
    (P : Ctxt → Ctxt → State → List (Nat → Nat) → Bool) (w : taskGate s h ill srcs dsts uni P = true) :
    ∃ x0 x u vs, TaskRuns s h ill srcs dsts uni x0 x u vs ∧ P x0 x u vs = true := by
  obtain ⟨x0, h0, w⟩ := someAnd_spec w
  obtain ⟨⟨u, x⟩, h1, w⟩ := okAnd_spec w
  obtain ⟨vs, h2, w⟩ := okAnd_spec w
  simp only [Bool.and_eq_true, bne_iff_ne] at w
  exact ⟨x0, x, u, vs, ⟨h0, w.1, h1, h2⟩, w.2⟩

/-- A task stroke with one lane, its commission's code at s4; queue 5 is configured; a pool of two chunks. -/
def stTask : State :=
  let s := onCtx (fun c => { c with params := { c.params with poolBase := 0x100000, poolSize := 512, poolChunk := 256, tquota := 8
                                                              easelReserve := 4096 } })
    (liveBelow 16 (sregs [(4, 0x10000), (5, 0x40000), (6, 5)]))
  { onStroke (fun k => { k with task := true }) (onAgent (fun a => { a with em := 1, priv := 1 }) s) with
    easel := [(5, { ctx := 1, configured := true, cap := 4, fill := 1, batch := 1, enable := true })]
    mem := s.mem ++ [(2 ^ 48 + 0x40014, 1), (2 ^ 48 + 0x40018, 1), (2 ^ 48 + 0x4001A, 1)] }

def spawnOk (x0 x : Ctxt) (u : State) (vs : List (Nat → Nat)) : Bool :=
  okAnd (placeAll u x (activeMask x0.a 0) .lane .x ((laneList (activeMask x0.a 0) x.w).map fun l =>
    { lane := l, addr := ((val vs 0 l % 2 ^ 64 : Nat) : Int), n := 8, align := 8 })) fun _ =>
  okAnd (waitRelease u x (activeMask x0.a 0) allStreams) fun _ => true

theorem spawn_of {x0 x : Ctxt} {u : State} {vs : List (Nat → Nat)} (h : spawnOk x0 x u vs = true) :
    SpawnChecks u x (activeMask x0.a 0) vs := by
  obtain ⟨ps, h1, h2⟩ := okAnd_spec h
  obtain ⟨_, h3, -⟩ := okAnd_spec h2
  exact ⟨⟨ps, h1⟩, h3⟩

theorem witness_tspawn : ∃ t, spawnRule (.tspawn (hdr) 9 (.s 4) (.v 12)) stTask t := by
  obtain ⟨x0, x, u, vs, h, hc⟩ := taskRuns_of (s := stTask) (h := hdr) (ill := fun _ => false)
    (srcs := taskSrcs (hdr) (.s 4) (.v 12)) (dsts := [.v 9 1 0]) (uni := []) (fun x0 x u vs => spawnOk x0 x u vs &&
      okAnd (
        let lanes := activeMask x0.a 0
        let r := pushTasks x.p.core (laneTask u x vs false) (laneList lanes x.w) u
        commitRegs r.1 x { sw := false, size := 8, srcs := taskSrcs (hdr) (.s 4) (.v 12), dsts := [.v 9 1 0] } lanes
          { v := putV x lanes 9 (fun l => if r.2.contains l then 1 else 0) 1 }) fun _ => true) (by decide)
  simp only [Bool.and_eq_true] at hc
  obtain ⟨v, h1, -⟩ := okAnd_spec hc.2
  exact ⟨_, x0, x, u, vs, v, h, spawn_of hc.1, h1, rfl⟩

theorem witness_tyld : ∃ t, spawnRule (.tyld (hdr) 9 (.s 4) (.v 12)) stTask t := by
  obtain ⟨x0, x, u, vs, h, hc⟩ := taskRuns_of (s := stTask) (h := hdr) (ill := notTask)
    (srcs := taskSrcs (hdr) (.s 4) (.v 12)) (dsts := [.v 9 1 0]) (uni := []) (fun x0 x u vs => spawnOk x0 x u vs &&
      okAnd (waitS u x.aid) fun _ => okAnd (
        let lanes := activeMask x0.a 0
        let r := pushTasks x.p.core (laneTask u x vs true) (laneList lanes x.w) u
        commitRegs r.1 x { sw := false, size := 8, srcs := taskSrcs (hdr) (.s 4) (.v 12), dsts := [.v 9 1 0] } lanes
          { v := putV x lanes 9 (fun l => if r.2.contains l then 1 else 0) 1 }) fun _ => true) (by decide)
  simp only [Bool.and_eq_true] at hc
  obtain ⟨_, h2, h3⟩ := okAnd_spec hc.2
  obtain ⟨v, h1, -⟩ := okAnd_spec h3
  exact ⟨_, x0, x, u, vs, v, h, spawn_of hc.1, fun _ => h2, h1, rfl⟩

theorem witness_alloc : ∃ t, spawnRule (.alloc (hdr) 9 (.v 12)) stTask t := by
  obtain ⟨x0, x, u, vs, h, hc⟩ := taskRuns_of (s := stTask) (h := hdr) (ill := fun _ => false)
    (srcs := []) (dsts := dstRef (.v 12) 2 0 ++ [.s 9 0]) (uni := []) (fun x0 x u _ => okAnd (
        let lanes := activeMask x0.a 0
        let r := takeChunks x.p.ctx (laneList lanes x.w) u
        let w := putDst x lanes (.v 12) 2 fun l => ((r.2.find? fun e => e.1 == l).bind (·.2)).getD 0
        commitRegs r.1 x { sw := false, size := 8, srcs := [], dsts := dstRef (.v 12) 2 0 ++ [.s 9 0] } lanes
          { w with s := w.s ++ [(9, BitVec.ofNat 64 (r.2.filter fun e => e.2.isSome).length)] }) fun _ => true) (by decide)
  obtain ⟨v, h1, -⟩ := okAnd_spec hc
  exact ⟨_, x0, x, u, vs, v, h, h1, rfl⟩

def queueOk (u : State) (x : Ctxt) (lanes : Mask) (n : Nat) (conf : Bool) (P : EQueue → Bool) : Bool :=
  decide (n ≤ 1023) && okAnd (checkQueue u x lanes n conf) P

theorem queue_of {u : State} {x : Ctxt} {lanes : Mask} {n : Nat} {conf : Bool} (P : EQueue → Bool)
    (h : queueOk u x lanes n conf P = true) : ∃ e, QueueOf u x lanes n conf e ∧ P e = true := by
  simp only [queueOk, Bool.and_eq_true, decide_eq_true_eq] at h
  obtain ⟨e, h1, h2⟩ := okAnd_spec h.2
  exact ⟨e, ⟨h.1, h1⟩, h2⟩

theorem witness_eqpush : ∃ t, queueRule (.eqpush (hdr) (some 9) 8 (.imm 5)) stTask t := by
  obtain ⟨x0, x, u, vs, h, hc⟩ := taskRuns_of (s := stTask) (h := hdr) (ill := fun _ => false)
    (srcs := [srcOf (.v 8) 8 1 false, srcOf (.imm 5) 1 2 false]) (dsts := pushDst (some 9)) (uni := [1]) (fun x0 x u vs =>
      let lanes := activeMask x0.a 0
      let n := val vs 1 ((lowestLane lanes x.w).getD 0)
      let bytes := fun l => bytesOf 32 (val vs 0 l)
      queueOk u x lanes n true (fun _ => true) && ((laneList lanes x.w).all fun l => !entryBad (bytes l)) &&
      okAnd (waitRelease u x lanes allStreams) fun _ =>
        let r := pushEntries n bytes (laneList lanes x.w) u
        let refused := (r.2.filter fun p => p.2 == 2).length
        okAnd (commitRegs (if refused = 0 then r.1 else report r.1 (.queueSpill x.p.ctx n refused)) x
          { sw := false, size := 16, srcs := [srcOf (.v 8) 8 1 false, srcOf (.imm 5) 1 2 false], dsts := pushDst (some 9) } lanes
          { v := putV x lanes 9 (fun l => ((r.2.find? fun p => p.1 == l).map (·.2)).getD 0) 1 }) fun _ => true) (by decide)
  simp only [Bool.and_eq_true, List.all_eq_true, Bool.not_eq_true'] at hc
  obtain ⟨e, h1, -⟩ := queue_of _ hc.1.1
  obtain ⟨_, h2, h3⟩ := okAnd_spec hc.2
  obtain ⟨v, h4, -⟩ := okAnd_spec h3
  exact ⟨_, x0, x, u, vs, e, v, h, h1, hc.1.2, h2, h4, rfl⟩

theorem witness_eqstat : ∃ t, queueRule (.eqstat (hdr) 9 (.imm 5) (.s 63)) stTask t := by
  obtain ⟨x0, x, u, vs, h, hc⟩ := taskRuns_of (s := stTask) (h := hdr) (ill := fun _ => false)
    (srcs := [srcOf (.imm 5) 1 1 false, srcOf (.s 63) 1 2 false]) (dsts := [.s 9 0]) (uni := [0]) (fun x0 x u vs =>
      let lanes := activeMask x0.a 0
      let lo := (lowestLane lanes x.w).getD 0
      decide (val vs 1 lo = 0) && queueOk u x lanes (val vs 0 lo) false fun k => k.configured &&
      okAnd (commitRegs u x { sw := false, size := 8, srcs := [srcOf (.imm 5) 1 1 false, srcOf (.s 63) 1 2 false], dsts := [.s 9 0] } lanes
        { s := [(9, BitVec.ofNat 64 (queueCount k % 2 ^ 32 + 2 ^ 32 * min k.spill.length 0xFFFF + (if k.enable then 2 ^ 48 else 0) +
            (if queueReady k (timerOut u k) then 2 ^ 49 else 0)))] }) fun _ => true) (by decide)
  simp only [Bool.and_eq_true, decide_eq_true_eq] at hc
  obtain ⟨k, h1, h2⟩ := queue_of _ hc.2
  simp only [Bool.and_eq_true] at h2
  obtain ⟨v, h4, -⟩ := okAnd_spec h2.2
  have hk : (hdr 0 false false false).km = 0 := rfl
  refine ⟨_, x0, x, u, vs, k, v, h, h1, by simp only [hk, hc.1]; decide, ?_, rfl⟩
  rw [if_neg (by simp [h2.1])]
  simp only [hk, hc.1]
  exact h4

/-- Queue 5 takes the record at 0x40000. -/
theorem witness_eqcfg : ∃ t, queueRule (.eqcfg (hdr) 1 9 5 (.s 6)) stTask t := by
  obtain ⟨x0, x, u, vs, h, hc⟩ := wideRuns_of (s := stTask) (h := hdr) (pl := taskPlace)
    (srcs := [srcOf (.s 5) 1 1 false, srcOf (.s 6) 1 2 false]) (refs := [.s 9 0]) (fun x0 x u vs =>
      decide (x.a.priv ≠ 0) && decide (nthVal vs 0 % 8 = 0) && okAnd (readConfigs u x x0.a.em (nthVal vs 0) 1) fun (u1, cs) =>
        okAnd (checkConfigs u1 x x0.a.em 0 cs) fun _ => decide (nthVal vs 1 ≤ 1023) &&
        someAnd (tabGet u1.easel (nthVal vs 1)) fun e => decide (e.ctx = x.p.ctx) && !changesRing e ((cs[0]?).getD ([], none)).1)
    (by decide)
  simp only [Bool.and_eq_true, decide_eq_true_eq] at hc
  obtain ⟨⟨u1, cs⟩, h1, h2⟩ := okAnd_spec hc.2
  obtain ⟨_, h3, h4⟩ := okAnd_spec h2
  simp only [Bool.and_eq_true, decide_eq_true_eq] at h4
  obtain ⟨e, h5, h6⟩ := someAnd_spec h4.2
  simp only [Bool.and_eq_true, decide_eq_true_eq, Bool.not_eq_true'] at h6
  refine ⟨_, x0, x, u, u1, vs, cs, h, hc.1.1, hc.1.2, h1, ?_, h3, rfl⟩
  intro j hj
  obtain rfl : j = 0 := by omega
  exact ⟨h4.1, e, h5, h6.1, h6.2⟩

theorem witness_eqcomb : ∃ t, queueRule (.eqcomb (hdr) 0 (.s 5) 8 12) (onAgent (fun a => { a with s := [(5, 0x20000)] }) stTask) t := by
  obtain ⟨x0, x, u, vs, h, hc⟩ := taskRuns_of (s := onAgent (fun a => { a with s := [(5, 0x20000)] }) stTask) (h := hdr)
    (ill := fun _ => false) (srcs := [addrSrc (hdr) (.s 5), srcOf (.v 8) 4 2 false, srcOf (.v 12) 1 3 false]) (dsts := []) (uni := [0])
    (fun x0 x u vs =>
      let lanes := activeMask x0.a 0
      let ls := laneList lanes x.w
      let word := fun (l j : Nat) => val vs 1 l / 2 ^ (32 * j) % 2 ^ 32
      (ls.all fun l => decide (lenAwaited u x.p.ctx l (val vs 0 l + 64 * word l 0) = false ∧
        combFaults u x.p.ctx l (val vs 0 l + 64 * word l 0) (val vs 1 l / 2 ^ 64 % 2 ^ 64) = [])) &&
      okAnd (waitRelease u x lanes allStreams) fun _ => okAnd (checkRoom u x 0 ls.length) fun _ =>
      okAnd (
        let w := ls.foldl (fun t l =>
          let dep : Deposit :=
            { agent := x.aid, stroke := x.a.stroke, str := 0, ctx := x.p.ctx, slot := val vs 0 l + 64 * word l 0
              k := word l 1, gate := BitVec.ofNat 32 (val vs 2 l), row := val vs 1 l / 2 ^ 64 % 2 ^ 64, born := u.cycle }
          { t with deposits := tabPut t.deposits t.fresh dep, fresh := t.fresh + 1 }) { u with freeN := u.freeN + x.w }
        commitRegs (addAcks w x.a.stroke 0 ls.length) x
          { sw := false, size := 8, srcs := [addrSrc (hdr) (.s 5), srcOf (.v 8) 4 2 false, srcOf (.v 12) 1 3 false], dsts := [] }
          lanes {}) fun _ => true) (by decide)
  simp only [Bool.and_eq_true, List.all_eq_true, decide_eq_true_eq] at hc
  obtain ⟨_, h2, h3⟩ := okAnd_spec hc.2
  obtain ⟨_, h4, h5⟩ := okAnd_spec h3
  obtain ⟨v, h6, -⟩ := okAnd_spec h5
  exact ⟨_, x0, x, u, vs, v, h, hc.1, h2, h4, h6, rfl⟩


/-- A page that the engines may write. -/
def writePage : TlbEntry :=
  { va := 0x20000, size := 0x10000, pa := 2 ^ 48 + 0x20000, r := true, w := true, x := false, e := true, p := false, g := false }

/-- A slot at 0x20000 of one element, staged at 0x21000, its row at 0x23000 and its output at 0x22000. -/
def stComb : State :=
  { onCtx (fun c => { c with tlb := [writePage] }) st0 with
    mem := st0.mem ++ [(2 ^ 48 + 0x20001, 0x20), (2 ^ 48 + 0x20002, 2), (2 ^ 48 + 0x20009, 0x10), (2 ^ 48 + 0x2000A, 2),
      (2 ^ 48 + 0x20018, 1), (2 ^ 48 + 0x2001A, 1)]
    deposits := [(9, { agent := 4, stroke := 3, str := 0, ctx := 1, slot := 0x20000, k := 0, gate := 0x3F800000, row := 0x23000 })] }

theorem witness_deposit : ∃ t, easelStepRule (.combineDeposit 9) stComb t := by
  have h : (someAnd (tabGet stComb.deposits 9) fun d => decide (stComb.cycle - d.born ≤ 2 ^ 21) && okAnd (segsFor stComb d.ctx .w d.slot 64) fun g =>
      match reachOf stComb d.ctx true g with
      | .here h =>
        let s0 := { stComb with deposits := tabDel stComb.deposits 9 }
        let c := combSlot (readSegs s0.mem h)
        decide (touchedBad stComb h = []) && decide (d.k < c.ktot) && !bitAt c.kseen d.k && !c.done &&
        decide (1 ≤ c.len ∧ c.len ≤ 1024 ∧ c.ktot ≤ 8 ∧ c.reserved = 0) &&
        someAnd (unitSegs s0 d.ctx (c.stage + 4 * d.k * c.len) (4 * c.len)) fun own =>
        someAnd (unitSegs s0 d.ctx c.stage (4 * c.ktot * c.len)) fun all =>
        okAnd (rowBytesOf s0 d.ctx d.row (4 * c.len)) fun _ =>
          decide (refusingWord s0 (unitHere s0 d.ctx own) = none) && decide (touchedBad s0 (unitHere s0 d.ctx all) = [])
      | _ => false) = true := by decide
  obtain ⟨d, h0, h⟩ := someAnd_spec h
  obtain ⟨hb, h⟩ := Bool.and_eq_true_iff.1 h
  obtain ⟨g, h1, h⟩ := okAnd_spec h
  revert h
  cases hr : reachOf stComb d.ctx true g with
  | away => rintro ⟨⟩
  | refused => rintro ⟨⟩
  | here p =>
    simp only [Bool.and_eq_true, decide_eq_true_eq, Bool.not_eq_true']
    rintro ⟨⟨⟨⟨⟨a, b⟩, c⟩, e⟩, f⟩, h⟩
    obtain ⟨own, h2, h⟩ := someAnd_spec h
    obtain ⟨all, h3, h⟩ := someAnd_spec h
    obtain ⟨⟨row, sr⟩, h4, h⟩ := okAnd_spec h
    simp only [Bool.and_eq_true, decide_eq_true_eq] at h
    exact ⟨_, d, g, p, h0, of_decide_eq_true hb, h1, hr, a, _, own, all, row, sr, rfl, b, c, e, f.1, f.2.1, f.2.2.1, f.2.2.2, h2, h3, h4, h.1,
      by rw [h.2]; rfl, rfl⟩

/-- One entry in queue 5, which has a template for core 0 and an age timer of 64 cycles. -/
def stQueue : State :=
  { st0 with cycle := 1000
             easel := [(5, { ctx := 1, configured := true, template := some { ncores := 2 }, cap := 4, fill := 1, batch := 1, age := 64
                             enable := true, ring := [{ bytes := [], born := 900 }] })] }

theorem witness_age_expiry : ∃ t, easelStepRule (.easelAgeExpiry 5) stQueue t := by
  obtain ⟨e, h0, h1⟩ := someAnd_spec (o := tabGet stQueue.easel 5) (p := fun e => timerOut stQueue e) (by decide)
  exact ⟨_, e, h0, h1, rfl⟩

theorem witness_firing : ∃ t, easelStepRule (.easelFiring 0) stQueue t := by
  obtain ⟨⟨q, e, core⟩, h0, h1⟩ := someAnd_spec (o := nextFiring stQueue (nextPlaced stQueue).isSome)
    (p := fun f => decide (f.1 / 512 = 0)) (by decide)
  exact ⟨_, q, e, core, h0, of_decide_eq_true h1, rfl⟩

def aTask (entry : VAddr) : Tcb := { ctx := 1, comm := 1, entry := entry, args := [1, 2, 3, 4], kind := false, enq := 100 }

/-- Core 0 holds two tasks of commission 1, which may be on cores 0 to 3; its level 2 is of class W. -/
def stTasks (ripe : Bool) : State :=
  { onComm (fun c => { c with record := { c.record with ncores := 4, regpeak := 8, classes := [2, 2, 1] } }) st0 with
    cycle := 1000, cores := [(0, { tasks := [{ aTask 0x10000 with ripe := ripe }, { aTask 0x20000 with ripe := ripe }] })] }

theorem witness_forming_timer : ∃ t, easelStepRule (.taskFormingTimer 0) (stTasks false) t :=
  ⟨_, ⟨aTask 0x10000, by decide, rfl, by decide⟩, rfl⟩

theorem witness_task_start : ∃ t, easelStepRule (.taskStrokeStart 0) (stTasks true) t := by
  obtain ⟨⟨comm, c, ts⟩, h0, h1⟩ := someAnd_spec (o := nextTasks (stTasks true) 0)
    (p := fun _ => decide (nextFiring (stTasks true) false = none) && (nextPlaced (stTasks true)).isNone) (by decide)
  simp only [Bool.and_eq_true, decide_eq_true_eq, Option.isNone_iff_eq_none] at h1
  exact ⟨_, comm, c, ts, h1.1, h1.2, h0, rfl⟩

def stealGate (s : State) : Bool :=
  coreIdle s 1 && decide ((getCore s 1).lastSteal = none) && decide (victimCore s 1 = some 0)

/-- Core 1 steals a task of core 0. -/
theorem witness_steal_task : ∃ t, easelStepRule (.stealRequest 1) (stTasks false) t := by
  have h : (stealGate (stTasks false) && decide (donatablePanels (stTasks false) 1 0 = [])) = true := by decide
  simp only [stealGate, Bool.and_eq_true, decide_eq_true_eq] at h
  exact ⟨_, 0, h.1.1.1, by intro b hb; simp [h.1.1.2] at hb, h.1.2, .inr ⟨h.2, rfl⟩⟩

/-- Panel 2 has not started, and its level 2 is of class P: core 1 takes it. -/
def stSteal : State := onComm (fun c => { c with record := { c.record with classes := [2, 1, 1] } }) (stTasks false)

theorem witness_steal_panel : ∃ t, easelStepRule (.stealRequest 1) stSteal t := by
  have h : (stealGate stSteal && someAnd ((donatablePanels stSteal 1 0).find? fun q =>
      (donatablePanels stSteal 1 0).all fun r => decide (r.2.idx ≤ q.2.idx)) fun e => (donatablePanels stSteal 1 0).contains e) = true := by decide
  simp only [stealGate, Bool.and_eq_true, decide_eq_true_eq] at h
  obtain ⟨⟨id, p⟩, h1, h2⟩ := someAnd_spec h.2
  exact ⟨_, 0, h.1.1.1, by intro b hb; simp [h.1.1.2] at hb, h.1.2, .inl ⟨id, p, by simpa using h2, h1, rfl⟩⟩

/-! ### No lane active -/

/-- No lane of agent 4 is active. -/
def laneless (s : State) : State := onAgent (fun a => { a with em := 0 }) s

def idleMem (s : State) (i : Instr) : Bool :=
  someAnd (accessOp i) fun o => someAnd (theCtxt s) fun x0 =>
    okAnd (memGather s x0 o.h o.pl o.m o.extra o.dsts o.straddle none) fun r =>
    okAnd (issueRegs r.1 r.2.1 (addrSrcs o.h o.m ++ o.extra) []) fun _ =>
      decide (o.push = none ∧ activeMask x0.a o.h.km = 0)

theorem witness_idle_memory : ∀ i ∈ ([.ldg (hdr) 3 8 atS4, .st (hdr) 2 (.v 1) (atS4 .rel), .acas (hdr) 2 (.v 1) atS4,
    .stmx (hdr) .mxf4 false 6 atS4] : List Instr), ∃ t, idleRule i (laneless stMem) t := by
  have h : (([.ldg (hdr) 3 8 atS4, .st (hdr) 2 (.v 1) (atS4 .rel), .acas (hdr) 2 (.v 1) atS4,
    .stmx (hdr) .mxf4 false 6 atS4] : List Instr).all (idleMem (laneless stMem))) = true := by decide
  intro i hi
  obtain ⟨o, ho, h⟩ := someAnd_spec (List.all_eq_true.1 h i hi)
  obtain ⟨x0, h0, h⟩ := someAnd_spec h
  obtain ⟨⟨u, x, vs⟩, h1, h⟩ := okAnd_spec h
  obtain ⟨v, h2, h⟩ := okAnd_spec h
  obtain ⟨hp, hl⟩ := of_decide_eq_true h
  exact ⟨_, .inl ⟨o, ho, hp, x0, x, u, v, vs, hl, ⟨h0, h1⟩, h2, rfl⟩⟩

def idleSet (s : State) (i : Instr) : Bool :=
  someAnd (setForm i) fun o => someAnd (theCtxt s) fun x0 => okAnd (setGather s x0 o.h o.srcs o.dsts o.uni) fun g =>
    let r := pullAll g.1 g.2 o.srcs
    okAnd (srcValues r.1 r.2 0 o.srcs o.srcs.length 0) fun _ => okAnd (issueRegs r.1 r.2 o.srcs []) fun _ =>
      decide (activeMask x0.a o.h.km = 0)

theorem witness_idle_sets : ∀ i ∈ setInstrs, ∃ t, idleRule i (laneless stSet) t := by
  have h : setInstrs.all (idleSet (laneless stSet)) = true := by decide
  intro i hi
  obtain ⟨o, ho, h⟩ := someAnd_spec (List.all_eq_true.1 h i hi)
  obtain ⟨x0, h0, h⟩ := someAnd_spec h
  obtain ⟨⟨u0, y⟩, h1, h⟩ := okAnd_spec h
  obtain ⟨vs, h2, h⟩ := okAnd_spec h
  obtain ⟨v, h3, h⟩ := okAnd_spec h
  exact ⟨_, .inr (.inl ⟨o, ho, x0, _, _, u0, y, v, vs, h0, of_decide_eq_true h, h1, rfl, h2, h3, rfl⟩)⟩

def idleTask (s : State) (i : Instr) : Bool :=
  someAnd (taskOp i) fun o => someAnd (theCtxt s) fun x0 =>
    okAnd (taskGather s x0 o.h o.ill o.srcs o.dsts o.uni) fun r =>
    okAnd (commitRegs r.1 r.2 { sw := o.h.sw, size := o.size, srcs := o.srcs, dsts := o.dsts } 0 {}) fun _ =>
      decide (activeMask x0.a o.h.km = 0)

theorem witness_idle_tasks : ∀ i ∈ ([.tspawn (hdr) 9 (.s 4) (.v 12), .tyld (hdr) 9 (.s 4) (.v 12), .alloc (hdr) 9 (.v 12),
    .eqpush (hdr) (some 9) 8 (.imm 5), .eqstat (hdr) 9 (.imm 5) (.s 63), .eqcomb (hdr) 0 (.s 5) 8 12] : List Instr),
    ∃ t, idleRule i (laneless stTask) t := by
  have h : (([.tspawn (hdr) 9 (.s 4) (.v 12), .tyld (hdr) 9 (.s 4) (.v 12), .alloc (hdr) 9 (.v 12),
    .eqpush (hdr) (some 9) 8 (.imm 5), .eqstat (hdr) 9 (.imm 5) (.s 63), .eqcomb (hdr) 0 (.s 5) 8 12] : List Instr).all
      (idleTask (laneless stTask))) = true := by decide
  intro i hi
  obtain ⟨o, ho, h⟩ := someAnd_spec (List.all_eq_true.1 h i hi)
  obtain ⟨x0, h0, h⟩ := someAnd_spec h
  obtain ⟨⟨u, x⟩, h1, h⟩ := okAnd_spec h
  obtain ⟨v, h2, h⟩ := okAnd_spec h
  exact ⟨_, .inr (.inr (.inl ⟨o, ho, x0, x, u, v, h0, of_decide_eq_true h, h1, h2, rfl⟩))⟩

/-- ERRD and TRAP. -/
theorem witness_idle_system : (∃ t, idleRule (.errd (hdr) true 6 (.imm 3)) (laneless st0) t) ∧
    ∃ t, idleRule (.trap (hdr) (.imm 9)) (laneless st0) t := by
  obtain ⟨x0, x, u, v, h, hc⟩ := sysRuns_of (runs := fun _ => true) (masked := true) (s := laneless st0) (h := hdr)
    (pl := { meld := false }) (reads := [.s 6 0]) (b := [.imm 3]) (fun x0 _ _ _ => decide (activeMask x0.a 0 = 0)) (by decide)
  obtain ⟨y0, y, w, v', k, kc⟩ := sysRuns_of (runs := fun _ => true) (masked := true) (s := laneless st0) (h := hdr)
    (pl := {}) (reads := []) (b := [.imm 9]) (fun x0 _ _ _ => decide (activeMask x0.a 0 = 0)) (by decide)
  exact ⟨⟨_, .inr (.inr (.inr (.inl ⟨_, _, _, _, x0, x, u, v, rfl, h.1, of_decide_eq_true hc, h.2, rfl⟩)))⟩,
    ⟨_, .inr (.inr (.inr (.inr ⟨_, _, y0, y, w, v', rfl, k.1, of_decide_eq_true kc, k.2, rfl⟩)))⟩⟩

/-! ## Results, packets and acknowledgements -/

theorem witness_result_return : (∃ t, packetRule (.resultReturn 7 .home) { st0 with results := [(7,
    { agent := 4, ctx := 1, kind := .writes {}, mask := 1 })] } t) :=
  ⟨_, _, rfl, by decide, rfl, .inr ⟨by decide, rfl⟩⟩

/-- A load of lane 0 from 0x20000, an acquire at `.die`. -/
def stRead (cycle : Nat) (pa : Nat) : State :=
  { st0 with
    cycle := cycle
    results := [(7, { agent := 4, ctx := 1, kind := .gather, mask := 1, dst := [(0, 9, 1)], ord := .acq, scp := .die
                      reads := [{ lane := 0, va := 0x20000, segs := [(pa, 4)] }] })] }

theorem witness_read_return : ∃ t, packetRule (.resultReturn 7 .home) (stRead 0 (2 ^ 48 + 0x20000)) t := by
  let s := stRead 0 (2 ^ 48 + 0x20000)
  have h : (someAnd (tabGet s.results 7) fun r => resultReady s 7 r .home && decide (r.late = none) && isRead r &&
      decide (badReads s r false = []) && r.reads.all fun l => !pieceRefused s r.ctx l.segs) = true := by decide
  obtain ⟨r, h0, h⟩ := someAnd_spec h
  simp only [Bool.and_eq_true, decide_eq_true_eq, List.all_eq_true, Bool.not_eq_true'] at h
  exact ⟨_, r, h0, h.1.1.1.1, h.1.1.1.2,
    .inl ⟨h.1.1.2, fun l hl _ => h.2 l hl, false, [], .inl ⟨rfl, rfl, rfl⟩, h.1.2, rfl⟩⟩

/-- A load from a window of another device, served by its owner. -/
def farPa : Nat := 2 ^ 51 + 2 ^ 44

theorem witness_late_read : ∃ t, packetRule (.remoteReadTimeout 7) (stRead (2 ^ 23) farPa) t := by
  obtain ⟨r, h0, h⟩ := someAnd_spec (o := tabGet (stRead (2 ^ 23) farPa).results 7)
    (p := fun r => readTimedOut (stRead (2 ^ 23) farPa) 7 r) (by decide)
  exact ⟨_, r, h0, h, rfl⟩

/-- A store of four bytes at 0x20000, or an update of them, on its way. -/
def stPacket (op : PacketOp) (pa : Nat) : State :=
  { st0 with
    cycle := 2 ^ 20
    packets := [(7, { agent := 4, stroke := 3, core := 0, ctx := 1, str := 0, op := op, born := 0
                      parts := [{ lanes := [0], segs := [(pa, 4)], bytes := [1, 2, 3, 4] }] })] }

theorem here_witness {s : State} (h : (someAnd (tabGet s.packets 7) fun k => packetReady s 7 k .here &&
    someAnd (getCtx s k.ctx) (fun c => decide (c.killed = none)) && decide (s.cycle - k.born ≤ 2 ^ 21) && match k.parts with
    | [p] => match reachOf s k.ctx true p.segs with
      | .here g => decide (((match k.op with
          | .write => refusingWord { s with packets := tabDel s.packets 7 } (g ++ [])
          | _ => updateRefused { s with packets := tabDel s.packets 7 } (g ++ [])) : Option Nat) = none)
      | _ => false
    | _ => false) = true) : ∃ t, packetRule (.writePacketAtHome 7 .here) s t := by
  obtain ⟨k, h0, h⟩ := someAnd_spec h
  simp only [Bool.and_eq_true] at h
  obtain ⟨⟨⟨h1, hx⟩, hb⟩, h⟩ := h
  obtain ⟨c, hc, hk⟩ := someAnd_spec hx
  revert h
  cases hp : k.parts with
  | nil => rintro ⟨⟩
  | cons p l =>
    cases l with
    | cons q m => rintro ⟨⟩
    | nil =>
      dsimp only
      cases hr : reachOf s k.ctx true p.segs with
      | away => rintro ⟨⟩
      | refused => rintro ⟨⟩
      | here g =>
        intro h
        refine ⟨_, k, c, h0, hc, of_decide_eq_true hk, of_decide_eq_true hb, h1,
          .inl ⟨rfl, [(p, g)], hp.symm, ?_, of_decide_eq_true h, rfl⟩⟩
        intro q hq
        rw [List.mem_singleton.1 hq]
        exact hr

theorem witness_write_home : ∃ t, packetRule (.writePacketAtHome 7 .here) (stPacket .write (2 ^ 48 + 0x20000)) t :=
  here_witness (by decide)

theorem witness_update_home : ∃ t, packetRule (.writePacketAtHome 7 .here) (stPacket (.atom .add false) (2 ^ 48 + 0x20000)) t :=
  here_witness (by decide)

theorem witness_write_far : ∃ t, packetRule (.writePacketAtHome 7 (.ok [])) (stPacket .write farPa) t := by
  obtain ⟨k, h0, h⟩ := someAnd_spec (o := tabGet (stPacket .write farPa).packets 7)
    (p := fun k => (packetReady (stPacket .write farPa) 7 k (.ok []) &&
      decide ((stPacket .write farPa).cycle - k.born ≤ 2 ^ 21 ∧
        (let s0 := { stPacket .write farPa with packets := tabDel (stPacket .write farPa).packets 7 }
         (engineWrite s0 k.ctx (localShare s0 k).1 (localShare s0 k).2).2 = none))) &&
      someAnd (getCtx (stPacket .write farPa) k.ctx) fun c => decide (c.killed = none)) (by decide)
  obtain ⟨h, hx⟩ := Bool.and_eq_true_iff.1 h
  obtain ⟨c, hc, hk⟩ := someAnd_spec hx
  obtain ⟨h, hb⟩ := Bool.and_eq_true_iff.1 h
  obtain ⟨hb, hw⟩ := of_decide_eq_true hb
  exact ⟨_, k, c, h0, hc, of_decide_eq_true hk, hb, h, .inr ⟨[], _, rfl, Prod.ext rfl hw, rfl⟩⟩

/-- The same packet 2^22 cycles after it was sent. -/
def oldPacket : State := { stPacket .write farPa with cycle := 2 ^ 22 }

theorem witness_age_discard : ∃ t, packetRule (.packetAgeDiscard (.packet 7)) oldPacket t := by
  obtain ⟨b, h0, h⟩ := someAnd_spec (o := parcelBorn oldPacket (.packet 7))
    (p := fun b => decide (2 ^ 21 < oldPacket.cycle - b)) (by decide)
  exact ⟨_, b, h0, of_decide_eq_true h, rfl⟩

theorem witness_header_drop : ∃ t, packetRule (.uncorrectableHeaderDrop (.packet 7) false 0 1 2) (stPacket .write farPa) t := by
  obtain ⟨b, h0, -⟩ := someAnd_spec (o := parcelBorn (stPacket .write farPa) (.packet 7)) (p := fun _ => true) (by decide)
  exact ⟨_, b, _, h0, rfl, rfl⟩

/-- The last acknowledgement of stream 0, a FAULT, with a group of flags. -/
def stAck : State :=
  { onStroke (fun k => { k with acks := [(0, 1)] }) st0 with
    ackq := [(8, { stroke := 3, str := 0, lines := 1, fault := some 0x100000, group := some 6, fl := 2 })]
    groups := [(6, { stroke := 3, left := 1 })] }

theorem witness_ack : ∃ t, packetRule (.ackReceived 8) stAck t := by
  have h : (someAnd (tabGet stAck.ackq 8) fun k => decide (stAck.cycle - k.born ≤ 2 ^ 21) && someAnd (getStroke (match k.group with
      | some g => groupAck { stAck with ackq := tabDel stAck.ackq 8 } g k.fl
      | none => { stAck with ackq := tabDel stAck.ackq 8 }) k.stroke) fun _ => true) = true := by decide
  obtain ⟨k, h0, h⟩ := someAnd_spec h
  obtain ⟨hb, h⟩ := Bool.and_eq_true_iff.1 h
  obtain ⟨st, h1, -⟩ := someAnd_spec h
  exact ⟨_, k, st, h0, of_decide_eq_true hb, h1, rfl⟩

/-- Agent 4 has waited 2^22 cycles for an acknowledgement of stream 0. -/
def stLateAck : State :=
  { onStroke (fun k => { k with acks := [(0, 1)] }) (onAgent fun a => { a with run := .parked ⟨.streams 1, 0⟩ }) with cycle := 2 ^ 22 }

theorem witness_acktimeout : ∃ t, packetRule (.acktimeout 4) stLateAck t := by
  obtain ⟨a, h0, h⟩ := someAnd_spec (o := getAgent stLateAck 4) (p := fun a => decide (timedOut stLateAck a ≠ 0 ∧ a.owed = none))
    (by decide)
  obtain ⟨h, hn⟩ := of_decide_eq_true h
  exact ⟨_, a, h0, .inl h, hn, rfl⟩

/-! ## Commissions -/


/-- A launch record for core 0 at 0x20000, a queue control block at 0x30000 and its producer index at 0x38000: byte
offsets with their values. -/
def recordBytes (width : Byte) : List (Nat × Byte) :=
  [(0x20002, 1), (0x20010, width), (0x20011, 3), (0x20016, 8), (0x20017, 8), (0x20046, 1), (0x20068, 1), (0x20069, 1)]
def queueBytes (pidx : Byte) : List (Nat × Byte) :=
  [(0x30002, 2), (0x30008, 4), (0x3000C, 1), (0x30011, 0x80), (0x30012, 3), (0x38000, pidx)]

def stLaunch (width pidx : Byte) : State :=
  { st0 with
    mem := st0.mem ++ (recordBytes width ++ queueBytes pidx).map fun e => (2 ^ 48 + e.1, e.2)
    cqueues := [(3, { reg := { ctx := 1, qcb := 2 ^ 48 + 0x30000, super := false } })] }

/-- A state that has taken n free values. -/
def took (n : Nat) (s : State) : State := { s with freeN := s.freeN + n }

/-- What the head of queue 3 is. -/
def launchGate (s : State) (P : QueueHead → Bool) : Bool :=
  someAnd (tabGet s.cqueues 3) fun q => someAnd (getCtx s q.reg.ctx) fun x => running s && decide (x.killed = none) && P (queueHead s q)

theorem head_of {s : State} (P : QueueHead → Bool) (h : launchGate s P = true) : ∃ q x, tabGet s.cqueues 3 = some q ∧ running s = true ∧
    getCtx s q.reg.ctx = some x ∧ x.killed = none ∧ P (queueHead s q) = true := by
  obtain ⟨q, h0, h⟩ := someAnd_spec h
  obtain ⟨x, h1, h⟩ := someAnd_spec h
  simp only [Bool.and_eq_true, decide_eq_true_eq] at h
  exact ⟨q, x, h0, h.1.1, h1, h.1.2, h.2⟩

set_option maxRecDepth 4000 in
theorem witness_launch : ∃ t, commissionRule (.commissionLaunch 3) (stLaunch 32 1) t := by
  obtain ⟨q, x, h0, h1, h2, h3, h⟩ := head_of (s := stLaunch 32 1) (fun e => match e with
    | .record bs => !headBefore (stLaunch 32 1) 3 bs && decide (recordBad bs = none) && groupFits (took 264 (stLaunch 32 1)) (recordOf bs)
    | _ => false) (by decide)
  revert h
  cases hq : queueHead (stLaunch 32 1) q with
  | idle => rintro ⟨⟩
  | broken pa => rintro ⟨⟩
  | fault r va met => rintro ⟨⟩
  | record bs =>
    simp only [Bool.and_eq_true, Bool.not_eq_true', decide_eq_true_eq]
    intro h
    exact ⟨_, q, x, h0, h1, h2, h3, .inl ⟨bs, _, hq, h.1.1, .inl ⟨_, h.1.2, h.2, rfl, rfl⟩, rfl⟩⟩

/-- A width of 33 is refused. -/
theorem witness_launch_refused : ∃ t, commissionRule (.commissionLaunch 3) (stLaunch 33 1) t := by
  obtain ⟨q, x, h0, h1, h2, h3, h⟩ := head_of (s := stLaunch 33 1) (fun e => match e with
    | .record bs => !headBefore (stLaunch 33 1) 3 bs && decide (recordBad bs = some 16)
    | _ => false) (by decide)
  revert h
  cases hq : queueHead (stLaunch 33 1) q with
  | idle => rintro ⟨⟩
  | broken pa => rintro ⟨⟩
  | fault r va met => rintro ⟨⟩
  | record bs =>
    simp only [Bool.and_eq_true, Bool.not_eq_true', decide_eq_true_eq]
    intro h
    exact ⟨_, q, x, h0, h1, h2, h3, .inl ⟨bs, _, hq, h.1, .inr (.inl ⟨16, h.2, rfl⟩), rfl⟩⟩

/-- Five records in a ring of four. -/
theorem witness_launch_fault : ∃ t, commissionRule (.commissionLaunch 3) (stLaunch 32 5) t := by
  obtain ⟨q, x, h0, h1, h2, h3, h⟩ := head_of (s := stLaunch 32 5) (fun e => match e with
    | .fault _ _ _ => true
    | _ => false) (by decide)
  revert h
  cases hq : queueHead (stLaunch 32 5) q with
  | idle => rintro ⟨⟩
  | broken pa => rintro ⟨⟩
  | record bs => rintro ⟨⟩
  | fault r va met => exact fun _ => ⟨_, q, x, h0, h1, h2, h3, .inr ⟨r, va, met, hq, rfl⟩⟩

/-- Entry 2 of the table is due, with the record at 0x20000. -/
def stDue (policy : Nat) (width : Byte) (run : Option Nat) : State :=
  { stLaunch width 0 with
    tt := [(2, { cfg := { period := 1000, phase := 0, record := 0x20000, ctx := 1, policy := policy, enable := true, skipped := 0 }
                 last := -1, inst := run })] }

def dueGate (s : State) (P : TTState → List Byte → Bool) : Bool :=
  someAnd (tabGet s.tt 2) fun e => someAnd (getCtx s e.cfg.ctx) fun x =>
    okAnd (dispatchRead s e.cfg.ctx e.cfg.record.toNat 256 0) fun bs => decide (x.killed = none) && running s && ttDue s e &&
      decide (e.cfg.record.toNat % 64 = 0 ∧ readAwaited s e.cfg.ctx e.cfg.record.toNat 256 = false) && P e bs

theorem due_of {s : State} (P : TTState → List Byte → Bool) (h : dueGate s P = true) : ∃ e x bs, tabGet s.tt 2 = some e ∧
    running s = true ∧ ttDue s e = true ∧ getCtx s e.cfg.ctx = some x ∧ x.killed = none ∧ e.cfg.record.toNat % 64 = 0 ∧
    readAwaited s e.cfg.ctx e.cfg.record.toNat 256 = false ∧ dispatchRead s e.cfg.ctx e.cfg.record.toNat 256 0 = .ok bs ∧ P e bs = true := by
  obtain ⟨e, h0, h⟩ := someAnd_spec h
  obtain ⟨x, hx, h⟩ := someAnd_spec h
  obtain ⟨bs, h1, h⟩ := okAnd_spec h
  simp only [Bool.and_eq_true, decide_eq_true_eq] at h
  exact ⟨e, x, bs, h0, h.1.1.1.2, h.1.1.2, hx, h.1.1.1.1, h.1.2.1, h.1.2.2, h1, h.2⟩

def dueNow (s : State) (e : TTState) : TTState :=
  { e with last := lastDue e.cfg (deviceTime s), cfg := skipMore e.cfg (lastDue e.cfg (deviceTime s) - e.last - 1).toNat }

set_option maxRecDepth 4000 in
theorem witness_due : ∃ t, commissionRule (.ttInstanceDue 2) (stDue 0 32 none) t := by
  obtain ⟨e, x, bs, h0, h1, h2, hx, hk, h3, hwt, h4, h⟩ := due_of (s := stDue 0 32 none) (fun e bs => decide (ttRunning (stDue 0 32 none) (dueNow (stDue 0 32 none) e) = none) &&
    decide (recordBad bs = none) && groupFits (took 256 (stDue 0 32 none)) (recordOf bs)) (by decide)
  simp only [Bool.and_eq_true, decide_eq_true_eq] at h
  exact ⟨_, e, x, bs, _, h0, h1, h2, hx, hk, h3, hwt, h4, .inl ⟨h.1.1, ⟨_, h.1.2, h.2, rfl, rfl⟩, rfl⟩⟩

theorem witness_due_refused : ∃ t, commissionRule (.ttInstanceDue 2) (stDue 0 33 none) t := by
  obtain ⟨e, x, bs, h0, h1, h2, hx, hk, h3, hwt, h4, h⟩ := due_of (s := stDue 0 33 none) (fun e bs => decide (ttRunning (stDue 0 33 none) (dueNow (stDue 0 33 none) e) = none) &&
    decide (recordBad bs = some 16)) (by decide)
  simp only [Bool.and_eq_true, decide_eq_true_eq] at h
  exact ⟨_, e, x, bs, _, h0, h1, h2, hx, hk, h3, hwt, h4, .inr (.inl ⟨h.1, .inl ⟨16, h.2, rfl⟩, rfl⟩)⟩

theorem witness_due_skip : ∃ t, commissionRule (.ttInstanceDue 2) (stDue 0 32 (some 1)) t := by
  obtain ⟨e, x, bs, h0, h1, h2, hx, hk, h3, hwt, h4, h⟩ := due_of (s := stDue 0 32 (some 1)) (fun e _ => decide (e.cfg.policy = 0) &&
    decide (ttRunning (stDue 0 32 (some 1)) (dueNow (stDue 0 32 (some 1)) e) ≠ none)) (by decide)
  simp only [Bool.and_eq_true, decide_eq_true_eq] at h
  exact ⟨_, e, x, bs, st0, h0, h1, h2, hx, hk, h3, hwt, h4, .inr (.inr (.inl ⟨h.2, h.1, rfl⟩))⟩

theorem witness_due_pending : ∃ t, commissionRule (.ttInstanceDue 2) (stDue 1 32 (some 1)) t := by
  obtain ⟨e, x, bs, h0, h1, h2, hx, hk, h3, hwt, h4, h⟩ := due_of (s := stDue 1 32 (some 1)) (fun e _ => decide (e.cfg.policy = 1) &&
    decide (ttRunning (stDue 1 32 (some 1)) (dueNow (stDue 1 32 (some 1)) e) ≠ none)) (by decide)
  simp only [Bool.and_eq_true, decide_eq_true_eq] at h
  exact ⟨_, e, x, bs, st0, h0, h1, h2, hx, hk, h3, hwt, h4, .inr (.inr (.inr (.inl ⟨h.2, h.1, rfl⟩)))⟩

set_option maxRecDepth 4000 in
theorem witness_due_preempts : ∃ t, commissionRule (.ttInstanceDue 2) (stDue 2 32 (some 1)) t := by
  obtain ⟨e, x, bs, h0, h1, h2, hx, hk, h3, hwt, h4, h⟩ := due_of (s := stDue 2 32 (some 1)) (fun e bs => decide (2 ≤ e.cfg.policy) &&
    (ttRunning (stDue 2 32 (some 1)) (dueNow (stDue 2 32 (some 1)) e)).isSome && decide (recordBad bs = none) &&
    groupFits (took 256 (stDue 2 32 (some 1))) (recordOf bs)) (by decide)
  simp only [Bool.and_eq_true, decide_eq_true_eq] at h
  obtain ⟨⟨r, y⟩, hr⟩ := Option.isSome_iff_exists.1 h.1.1.2
  exact ⟨_, e, x, bs, _, h0, h1, h2, hx, hk, h3, hwt, h4, .inr (.inr (.inr (.inr ⟨r, y, hr, h.1.1.1, ⟨_, h.1.2, h.2, rfl, rfl⟩, rfl⟩)))⟩

theorem witness_ptp : (∃ t, commissionRule (.ptpMessage ⟨0, 0, 5⟩) (stDue 0 32 none) t) ∧
    (∃ t, commissionRule (.ptpMessage ⟨1, 0, 5⟩) (stDue 0 32 none) t) ∧ ∃ t, commissionRule .ptpSourceUnlocked st0 t :=
  ⟨⟨_, by rw [commissionRule, if_neg (by decide)]⟩, ⟨_, by rw [commissionRule, if_pos (by decide)]⟩, ⟨_, rfl⟩⟩

/-- Panel 1 of the commission is still to be placed. -/
def stPlace : State :=
  onComm fun c => { c with unplaced := [1], record := { c.record with regpeak := 8, ncores := 2, lanes := 32, extents := [1, 1], classes := [2, 2] } }

theorem witness_placement : ∃ t, commissionRule (.panelPlacement 1) stPlace t := by
  obtain ⟨⟨c, a⟩, h0, h⟩ := someAnd_spec (o := nextPlaced stPlace)
    (p := fun e => e.1 == 1 && running stPlace && decide (nextFiring stPlace true = none)) (by decide)
  simp only [Bool.and_eq_true, decide_eq_true_eq, beq_iff_eq] at h
  obtain rfl : c = 1 := h.1.1
  exact ⟨_, a, h.1.2, h.2, h0, rfl⟩

theorem witness_retire : ∃ t, commissionRule (.panelRetire 2) (onStroke fun k => { k with exited := true }) t := by
  obtain ⟨p, h0, h⟩ := someAnd_spec (o := getPanel (onStroke fun k => { k with exited := true }) 2)
    (p := fun p => panelDone (onStroke fun k => { k with exited := true }) 2 p) (by decide)
  exact ⟨_, p, h0, h, rfl⟩

theorem witness_commission_retire : ∃ t, commissionRule (.commissionRetire 1) { st0 with panels := [] } t := by
  obtain ⟨c, h0, h⟩ := someAnd_spec (o := getComm { st0 with panels := [] } 1) (p := fun c => commDone { st0 with panels := [] } 1 c)
    (by decide)
  exact ⟨_, c, h0, h, rfl⟩

/-- Agent 4 waits at a barrier for 2^28 cycles. -/
def stStarve : State := { onAgent (fun a => { a with run := .blocked ⟨.bar, 0⟩ }) with cycle := 2 ^ 28 }

theorem witness_starvation : ∃ t, commissionRule (.starvationExpiry 4) stStarve t := by
  obtain ⟨a, h0, h⟩ := someAnd_spec (o := getAgent stStarve 4) (p := fun a => !waitEnds stStarve 4 && (starving stStarve a).isSome) (by decide)
  simp only [Bool.and_eq_true, Bool.not_eq_true'] at h
  obtain ⟨⟨code, w⟩, h1⟩ := Option.isSome_iff_exists.1 h.2
  exact ⟨_, a, code, w, h0, h.1, h1, rfl⟩


/-! ## Pre-emption -/

/-- A save region, and a panel whose stroke has exited: its area is a header. -/
def stSave : State :=
  onStroke (fun k => { k with exited := true })
    (onCtx (fun c => { c with params := { c.params with saveBase := 2 ^ 48 + 0x100000, saveSize := 2 ^ 20 } }))

def withReq (how : PreHow) (s : State := stSave) : State :=
  onPanel (fun p => { p with req := some { deadline := some 10, since := 0, how := how, who := .software } }) { s with cycle := 1000 }

/-- By mode: a choice of hardware, a user handler, a checkpoint. -/
def withMode (m : Nat) : State := onComm (fun c => { c with record := { c.record with pmode := m } }) stSave

/-- The request that the software makes of that panel, with its choice. -/
def softReq (how : PreHow) : PreReq := { deadline := some 5250, since := 0, how := how, who := .software }

theorem hardware_of {s : State} (how : PreHow) (est : Nat) (h : (someAnd (getPanel s 2) fun p => decide (p.req = none) && someAnd (getComm s p.comm) fun c =>
      decide (c.record.pmode = 0 ∧ s.cycle = 0 ∧ chooseOption (options s (groupPanels s 2 p) c) (some 5250) = some (how, est, false)) &&
      (decide (how = .drain ∨ how = .flush) || decide (how = .save) &&
        (giveAreas s (groupPanels s 2 p) c.ctx false (groupSizes s (groupPanels s 2 p)) (softReq .save)).isSome)) = true) :
    ∃ t, preemptRule (.preemptRequest .software 2 5) s t := by
  obtain ⟨p, h0, h⟩ := someAnd_spec h
  simp only [Bool.and_eq_true, decide_eq_true_eq] at h
  obtain ⟨c, h1, h2⟩ := someAnd_spec h.2
  simp only [Bool.and_eq_true, Bool.or_eq_true, decide_eq_true_eq] at h2
  obtain ⟨⟨hp, hz, hc⟩, hk⟩ := h2
  have key : ∃ w, Requested s .software (groupPanels s 2 p) p.comm (some 5250) w := by
    simp only [Requested]
    rcases hk with (rfl | rfl) | ⟨rfl, hg⟩
    · exact ⟨_, c, h1, by rw [hp]; exact ⟨_, est, false, hc, .inl ⟨rfl, rfl⟩⟩⟩
    · exact ⟨_, c, h1, by rw [hp]; exact ⟨_, est, false, hc, .inr (.inr ⟨rfl, rfl⟩)⟩⟩
    · obtain ⟨u, hu⟩ := Option.isSome_iff_exists.1 hg
      exact ⟨_, c, h1, by rw [hp]; exact ⟨_, est, false, hc, .inr (.inl ⟨rfl, u, by rw [hz]; exact hu, rfl⟩)⟩⟩
  obtain ⟨w, hw⟩ := key
  exact ⟨_, p, h0, .inl ⟨h.1, by decide, w, hw, rfl⟩⟩

theorem witness_request_hardware : ∃ t, preemptRule (.preemptRequest .software 2 5) (withMode 0) t :=
  hardware_of .save 1041 (by decide +kernel)

/-- All its strokes have told that they end at once. -/
theorem witness_request_drain : ∃ t, preemptRule (.preemptRequest .software 2 5)
    (onPanel (fun p => { p with hint := some (0, 0) }) (withMode 0)) t :=
  hardware_of .drain 0 (by decide +kernel)

/-- Its commission may be restarted. -/
theorem witness_request_flush : ∃ t, preemptRule (.preemptRequest .software 2 5)
    (onComm (fun c => { c with record := { c.record with restart := true } }) (withMode 0)) t :=
  hardware_of .flush 256 (by decide +kernel)

theorem witness_request_checkpoint : ∃ t, preemptRule (.preemptRequest .software 2 5) (withMode 2) t := by
  let s := withMode 2
  have h : (someAnd (getPanel s 2) fun p => decide (p.req = none) && someAnd (getComm s p.comm) fun c => decide (c.record.pmode = 2)) = true := by
    decide
  obtain ⟨p, h0, h⟩ := someAnd_spec h
  simp only [Bool.and_eq_true, decide_eq_true_eq] at h
  obtain ⟨c, h1, h2⟩ := someAnd_spec h.2
  exact ⟨_, p, h0, .inl ⟨h.1, by decide, _, ⟨c, h1, by rw [of_decide_eq_true h2]; rfl⟩, rfl⟩⟩

theorem witness_request_handler : ∃ t, preemptRule (.preemptRequest .software 2 5) (withMode 1) t := by
  let s := withMode 1
  have h : (someAnd (getPanel s 2) fun p => decide (p.req = none) && someAnd (getComm s p.comm) fun c => decide (c.record.pmode = 1) &&
      (giveAreas s (groupPanels s 2 p) c.ctx true (groupSizes s (groupPanels s 2 p)) (softReq .handler)).isSome) = true := by decide +kernel
  obtain ⟨p, h0, h⟩ := someAnd_spec h
  simp only [Bool.and_eq_true, decide_eq_true_eq] at h
  obtain ⟨c, h1, h2⟩ := someAnd_spec h.2
  simp only [Bool.and_eq_true, decide_eq_true_eq] at h2
  obtain ⟨u, h3⟩ := Option.isSome_iff_exists.1 h2.2
  exact ⟨_, p, h0, .inl ⟨h.1, by decide, _, ⟨c, h1, by rw [h2.1]; exact ⟨u, h3, rfl⟩⟩, rfl⟩⟩

theorem witness_request_merges : ∃ t, preemptRule (.preemptRequest .software 2 5) (withReq .save) t := by
  obtain ⟨p, h0, h⟩ := someAnd_spec (o := getPanel (withReq .save) 2) (p := fun p => p.req.isSome) (by decide)
  exact ⟨_, p, h0, .inr (.inl ⟨by simpa [Option.isSome_iff_ne_none] using h, by decide, rfl⟩)⟩

/-- A class W panel whose agent waits for a granule. -/
def stPressure : State :=
  onPanel (fun p => { p with classes := [2] }) (onAgent (fun a => { a with run := .parked ⟨.granule, 0⟩ }) stSave)

theorem witness_request_pressure : ∃ t, preemptRule (.preemptRequest .pressure 2 0) stPressure t := by
  have h : (someAnd (getPanel stPressure 2) fun p => decide ((pressurePanel stPressure p.core).map (·.1) = some 2) &&
      let g := groupPanels stPressure 2 p
      (giveAreas (freeAreas stPressure g) g p.ctx false (groupSizes (freeAreas stPressure g) g) (pressureReq stPressure p)).isSome) =
        true := by decide +kernel
  obtain ⟨p, h0, h⟩ := someAnd_spec h
  simp only [Bool.and_eq_true, decide_eq_true_eq] at h
  obtain ⟨u, h2⟩ := Option.isSome_iff_exists.1 h.2
  exact ⟨_, p, h0, .inr (.inr ⟨rfl, h.1, u, h2, rfl⟩)⟩

def saveGate (s : State) (P : Panel → PreReq → State → Bool) : Bool :=
  someAnd (getPanel s 2) fun p => someAnd p.req fun r =>
    let s1 := match p.primer with
      | some a => stopAgent s a
      | none => s
    frozen s 2 p && P p r s1

theorem save_of {s : State} (P : Panel → PreReq → State → Bool) (h : saveGate s P = true) : ∃ p r, getPanel s 2 = some p ∧ p.req = some r ∧
    frozen s 2 p = true ∧ P p r (match p.primer with
      | some a => stopAgent s a
      | none => s) = true := by
  obtain ⟨p, h0, h⟩ := someAnd_spec h
  obtain ⟨r, h1, h⟩ := someAnd_spec h
  simp only [Bool.and_eq_true] at h
  exact ⟨p, r, h0, h1, h.1, h.2⟩

theorem witness_flush : ∃ t, preemptRule (.panelSave 2) (withReq .flush) t := by
  obtain ⟨p, r, h0, h1, h2, h⟩ := save_of (s := withReq .flush) (fun p r s1 => panelQuiet s1 2 p && decide (r.how = .flush)) (by decide)
  simp only [Bool.and_eq_true, decide_eq_true_eq] at h
  exact ⟨_, p, r, h0, h1, h2, .inl ⟨h.2, h.1, rfl⟩⟩

/-- A panel is saved by a plan. -/
theorem saved_of {s : State} (pl : Panel → PreReq → SavePlan) (h : saveGate s (fun p r s1 => panelQuiet s1 2 p && someAnd (getCtx s1 p.ctx) fun c =>
      let claim := (pl p r).claim && ((getCore s1 p.core).matrix.map fun m => m.owner) == some 2
      (saveRoom c (r.area.getD []) (areaBytes s1 2 p { pl p r with claim := claim }).length).isSome) = true)
    (hp : ∀ p r, getPanel s 2 = some p → p.req = some r → (r.how = .save ∧ pl p r = fullPlan p 0 ∨ r.how = .expired ∧ pl p r = fullPlan p 3 ∨
      ∃ k, r.how = .ckpt ∧ r.keep = some k ∧ pl p r = ckptPlan p k)) : ∃ t, preemptRule (.panelSave 2) s t := by
  obtain ⟨p, r, h0, h1, h2, h⟩ := save_of _ h
  obtain ⟨h3, h⟩ := Bool.and_eq_true_iff.1 h
  obtain ⟨c, h4, h5⟩ := someAnd_spec h
  obtain ⟨a, h6⟩ := Option.isSome_iff_exists.1 h5
  exact ⟨_, p, r, h0, h1, h2, .inr (.inl ⟨pl p r, hp p r h0 h1, h3, c, a, h4, h6, rfl⟩)⟩

/-- What holds of the request of panel 2. -/
theorem req_of {s : State} {P : PreReq → Bool} (h : (getPanel s 2).all (fun p => p.req.all P) = true) (p : Panel) (r : PreReq)
    (h0 : getPanel s 2 = some p) (h1 : p.req = some r) : P r = true := by
  rw [h0] at h
  simpa [h1] using h

theorem witness_save : ∃ t, preemptRule (.panelSave 2) (withReq .save) t :=
  saved_of (fun p _ => fullPlan p 0) (by decide +kernel) fun p r h0 h1 =>
    .inl ⟨of_decide_eq_true (req_of (P := fun r => decide (r.how = .save)) (by decide) p r h0 h1), rfl⟩

theorem witness_save_expired : ∃ t, preemptRule (.panelSave 2) (withReq .expired) t :=
  saved_of (fun p _ => fullPlan p 3) (by decide +kernel) fun p r h0 h1 =>
    .inr (.inl ⟨of_decide_eq_true (req_of (P := fun r => decide (r.how = .expired)) (by decide) p r h0 h1), rfl⟩)

/-- A request whose group has its keep mask. -/
def stKept : State :=
  onPanel (fun p => { p with req := some { deadline := some 10, since := 0, how := .ckpt, who := .software, keep := some 0 } }) stSave

theorem witness_save_kept : ∃ t, preemptRule (.panelSave 2) stKept t :=
  saved_of (fun p _ => ckptPlan p 0) (by decide +kernel) fun p r h0 h1 =>
    .inr (.inr ⟨0, by
      have := of_decide_eq_true (req_of (s := stKept) (P := fun r => decide (r.how = .ckpt ∧ r.keep = some 0)) (by decide) p r h0 h1)
      exact ⟨this.1, this.2, rfl⟩⟩)

/-- Its agent has executed PDONE, and its area is taken. -/
def stEnded : State :=
  onAgent (fun a => { a with run := .done 0x10000 }) (onPanel (fun p => { p with
    req := some { deadline := some 10, since := 0, how := .handler, who := .software, area := some [(0, 4096)] } }) stSave)

theorem witness_save_handler : ∃ t, preemptRule (.panelSave 2) stEnded t := by
  obtain ⟨p, r, h0, h1, h2, h⟩ := save_of (s := stEnded) (fun p r s1 => panelQuiet s1 2 p && decide (r.how = .handler) &&
    (groupPanels s1 2 p).all fun q => (q.2.req.bind (·.area)).isSome) (by decide)
  simp only [Bool.and_eq_true, decide_eq_true_eq, List.all_eq_true] at h
  exact ⟨_, p, r, h0, h1, h2, .inr (.inr (.inl ⟨h.1.2, h.1.1, fun q hq => Option.isSome_iff_exists.1 (h.2 q hq), rfl⟩))⟩

/-- Its agent is at a checkpoint: the save begins. -/
theorem witness_save_checkpoint : ∃ t, preemptRule (.panelSave 2) (onAgent (fun a => { a with run := .blocked ⟨.ckpt, 0⟩ }) (withReq .ckpt)) t := by
  obtain ⟨p, r, h0, h1, h2, h⟩ := save_of (s := onAgent (fun a => { a with run := .blocked ⟨.ckpt, 0⟩ }) (withReq .ckpt))
    (fun p r s1 => decide (r.how = .ckpt ∧ r.keep = none) &&
      let g := groupPanels s1 2 p
      (giveAreas s1 g p.ctx false (g.map fun q => (areaBytes s1 q.1 q.2 (ckptPlan q.2 (keepOf s1 g))).length)
        { r with keep := some (keepOf s1 g) }).isSome) (by decide +kernel)
  simp only [Bool.and_eq_true, decide_eq_true_eq] at h
  obtain ⟨u, hu⟩ := Option.isSome_iff_exists.1 h.2
  exact ⟨u, p, r, h0, h1, h2, .inr (.inr (.inr ⟨h.1.1, h.1.2, hu⟩))⟩

theorem witness_bound_expiry : ∃ t, preemptRule (.preemptBoundExpiry 2) (withReq .ckpt) t := by
  let s := withReq .ckpt
  have h : (someAnd (getPanel s 2) fun p => someAnd p.req fun r => someAnd r.deadline fun d =>
      decide (d < s.cycle ∧ r.how = .ckpt ∧ frozen s 2 p = false) &&
      let g := groupPanels s 2 p
      let s1 := freeAreas s g
      (giveAreas s1 g p.ctx false (groupSizes s1 g) { r with how := .expired, area := none }).isSome) = true := by decide +kernel
  obtain ⟨p, h0, h⟩ := someAnd_spec h
  obtain ⟨r, h1, h⟩ := someAnd_spec h
  obtain ⟨d, h2, h⟩ := someAnd_spec h
  simp only [Bool.and_eq_true, decide_eq_true_eq] at h
  obtain ⟨u, hu⟩ := Option.isSome_iff_exists.1 h.2
  exact ⟨_, p, r, d, u, h0, h1, h2, h.1.1, .inr h.1.2.1, h.1.2.2, hu, rfl⟩

/-- A panel put aside, with an area of zeros, placed on core 0. -/
def stSaved : State :=
  { stSave with
    panels := []
    saved := [(2, { comm := 1, ctx := 1, idx := 0, area := [(0, 256)], size := 256, mode := 0, header := List.replicate 256 0, claim := false, fresh := true
                    place := some 0
                    panel := { comm := 1, ctx := 1, core := 0, idx := 0, strokes := [3], lvls := [], slotVA := 0, slotBytes := 0, granules := [] } })] }

theorem witness_restore : ∃ t, preemptRule (.panelRestore 2) stSaved t := by
  have h : (someAnd (tabGet stSaved.saved 2) fun v => someAnd (restoreCore stSaved v) fun _ => someAnd (getComm stSaved v.comm) fun _ =>
      someAnd (getCtx stSaved v.ctx) fun x => !v.claim &&
      areaClean v (readSegs stSaved.mem (v.area.map fun g => (x.params.saveBase + g.1, g.2))) &&
      decide (segsBad stSaved (v.area.map fun g => (x.params.saveBase + g.1, g.2)) = none)) = true := by decide +kernel
  obtain ⟨v, h0, h⟩ := someAnd_spec h
  obtain ⟨core, h1, h⟩ := someAnd_spec h
  obtain ⟨c, h2, h⟩ := someAnd_spec h
  obtain ⟨x, h3, h⟩ := someAnd_spec h
  simp only [Bool.and_eq_true, decide_eq_true_eq, Bool.not_eq_true'] at h
  exact ⟨_, v, core, c, x, h0, h1, h2, h3, by simp [h.1.1], h.1.2, h.2, rfl⟩


/-! ## The sealer, RDMA and the device -/

/-- Channel 0 of context 1 has a descriptor at 0x20000 for the 8 bytes at 0x20100, or for `n` bytes, or with a reserved
field; its status word is at 0x20200. -/
def stEgress (n reserved : Byte) : State :=
  onCtx (fun c => { c with tlb := [writePage], egress := [(0, { cfg :=
    { mac := 1, ip := 2, sport := 3, dport := 4, port := 0, ring := 0x20000, slots := 4, pidx := 0x20300 } })] })
    { st0 with mem := st0.mem ++ ([(0x20001, 1), (0x20002, 2), (0x20008, n), (0x2000C, reserved), (0x20011, 2), (0x20012, 2),
        (0x20300, 1)].filter fun e => e.2 != 0).map fun e => (2 ^ 48 + e.1, e.2) }

def egressGate (s : State) (P : State → Ctx → List Byte → Bool) : Bool :=
  someAnd (liveCtx s 1) fun c => someAnd (tabGet c.egress 0) fun e => running s && okAnd (egressReady s c e) id &&
    okAnd (dispatchRead s 1 (e.cfg.ring.toNat + 32 * (e.index % e.cfg.slots)) 32 8) fun d =>
      P (setCtx (took 40 s) 1 { c with egress := tabPut c.egress 0 { e with index := e.index + 1, seq := e.seq + 1, told := false } }) c d

theorem egress_of {s : State} (P : State → Ctx → List Byte → Bool) (h : egressGate s P = true) : ∃ c e d, liveCtx s 1 = some c ∧
    tabGet c.egress 0 = some e ∧ running s = true ∧ egressReady s c e = .ok true ∧
    dispatchRead s 1 (e.cfg.ring.toNat + 32 * (e.index % e.cfg.slots)) 32 8 = .ok d ∧
    P (setCtx (took 40 s) 1 { c with egress := tabPut c.egress 0 { e with index := e.index + 1, seq := e.seq + 1, told := false } }) c d = true := by
  obtain ⟨c, h0, h⟩ := someAnd_spec h
  obtain ⟨e, h1, h⟩ := someAnd_spec h
  simp only [Bool.and_eq_true] at h
  obtain ⟨d, h2, h3⟩ := okAnd_spec h.2
  obtain ⟨b, h4, hb⟩ := okAnd_spec h.1.2
  obtain rfl : b = true := hb
  exact ⟨c, e, d, h0, h1, h.1.1, h4, h2, h3⟩

theorem witness_egress : ∃ t, outsideRule (.egressDescriptor 1 0) (stEgress 8 0) t := by
  obtain ⟨c, e, d, h0, h1, h2, h3, h4, h⟩ := egress_of (s := stEgress 8 0) (fun s1 c d =>
    decide (recNat d 12 4 = 0 ∧ recNat d 24 8 = 0) && decide (1 ≤ recNat d 8 4 ∧ recNat d 8 4 ≤ 8192 ∧ recNat d 16 8 % 8 = 0) &&
    okAnd (dispatchRead s1 c.id (recNat d 0 8) (recNat d 8 4) 0) fun _ => true) (by decide +kernel)
  simp only [Bool.and_eq_true, decide_eq_true_eq] at h
  obtain ⟨f, h5, -⟩ := okAnd_spec h.2
  exact ⟨_, c, e, d, h0, h1, h2, h3, h4, .inl ⟨h.1.1, h.1.2, f, h5, rfl⟩⟩

theorem witness_egress_reserved : ∃ t, outsideRule (.egressDescriptor 1 0) (stEgress 8 1) t := by
  obtain ⟨c, e, d, h0, h1, h2, h3, h4, h⟩ := egress_of (s := stEgress 8 1) (fun _ _ d =>
    decide (¬ (recNat d 12 4 = 0 ∧ recNat d 24 8 = 0))) (by decide +kernel)
  exact ⟨_, c, e, d, h0, h1, h2, h3, h4, .inr (.inl ⟨of_decide_eq_true h, rfl⟩)⟩

theorem witness_egress_length : ∃ t, outsideRule (.egressDescriptor 1 0) (stEgress 0 0) t := by
  obtain ⟨c, e, d, h0, h1, h2, h3, h4, h⟩ := egress_of (s := stEgress 0 0) (fun _ _ d =>
    decide (recNat d 12 4 = 0 ∧ recNat d 24 8 = 0) && decide (¬ (1 ≤ recNat d 8 4 ∧ recNat d 8 4 ≤ 8192 ∧ recNat d 16 8 % 8 = 0)))
    (by decide +kernel)
  simp only [Bool.and_eq_true, decide_eq_true_eq] at h
  exact ⟨_, c, e, d, h0, h1, h2, h3, h4, .inr (.inr ⟨h.1, _, .inl ⟨h.2, rfl⟩, rfl⟩)⟩

/-- Queue pair 5 is bound to context 1. -/
def stRdma : State := { onCtx (fun c => { c with tlb := [writePage] }) with qps := [(5, 1)] }

theorem witness_rdma_write : ∃ t, outsideRule (.rdmaWrite 1 5 0x20000 [1, 2, 3, 4]) stRdma t := by
  have h : (someAnd (qpCtx stRdma 1 5) fun c => okAnd (segsFor stRdma c.id .we 0x20000 4) fun g =>
      (g.all fun p => reachOf stRdma c.id true [p] != .refused) &&
      decide ((unitWrite stRdma c.id g [1, 2, 3, 4]).2 = none)) = true := by decide +kernel
  obtain ⟨c, h0, h⟩ := someAnd_spec h
  obtain ⟨g, h1, h2⟩ := okAnd_spec h
  simp only [Bool.and_eq_true, decide_eq_true_eq, List.all_eq_true, bne_iff_ne] at h2
  exact ⟨_, .inl ⟨c, g, h0, h1, h2.1, pair_eq h2.2⟩⟩

/-- A page that is not open to the engines; a queue pair of no context. -/
theorem witness_rdma_nak : (∃ t, outsideRule (.rdmaWrite 1 5 0x20000 [1]) { st0 with qps := [(5, 1)] } t) ∧
    ∃ t, outsideRule (.rdmaWrite 1 6 0x20000 [1]) stRdma t := by
  refine ⟨?_, _, .inr (.inl ⟨by decide +kernel, rfl⟩)⟩
  have h : (someAnd (qpCtx { st0 with qps := [(5, 1)] } 1 5) fun c => match segsFor { st0 with qps := [(5, 1)] } c.id .we 0x20000 1 with
    | .error _ => true
    | .ok _ => false) = true := by decide +kernel
  obtain ⟨c, h0, h⟩ := someAnd_spec h
  revert h
  cases hr : segsFor { st0 with qps := [(5, 1)] } c.id .we 0x20000 1 with
  | error e => exact fun _ => ⟨_, .inr (.inr ⟨c, e, h0, hr, rfl⟩)⟩
  | ok g => rintro ⟨⟩

theorem witness_rdma_read : (∃ t, outsideRule (.rdmaRead 1 5 0x20000 4) stRdma t) ∧ (∃ t, outsideRule (.rdmaRead 2 5 0x20000 4) stRdma t) ∧
    ∃ t, outsideRule (.rdmaRefused 5) st0 t := by
  have h : (someAnd (qpCtx stRdma 1 5) fun c => !c.params.sealed &&
      okAnd (dispatchRead stRdma c.id 0x20000 4 0) fun _ => true) = true := by decide +kernel
  obtain ⟨c, h0, h⟩ := someAnd_spec h
  simp only [Bool.and_eq_true, Bool.not_eq_true'] at h
  obtain ⟨bs, h1, -⟩ := okAnd_spec h.2
  exact ⟨⟨_, .inl ⟨c, bs, h0, h.1, h1, rfl⟩⟩, ⟨_, .inr (.inl ⟨.inl (by decide +kernel), rfl⟩)⟩, ⟨_, rfl⟩⟩

/-- A power state. -/
def inPower (p : Power) : State := { st0 with juran := { st0.juran with power := p } }

/-- Reset has no image to boot. -/
theorem witness_power_on : ∃ t, deviceRule .powerOn State.reset t := ⟨_, _, rfl, .inl ⟨by decide, rfl⟩⟩

theorem witness_bist : (∃ t, deviceRule (.bistComplete []) (inPower .bist) t) ∧ ∃ t, deviceRule (.bistComplete [{ unit := ⟨5, 3⟩, spare := false }]) (inPower .bist) t :=
  ⟨⟨_, rfl, rfl⟩, ⟨_, rfl, rfl⟩⟩

theorem witness_fetch : ∃ t, deviceRule .recoverFetch (inPower .recover) t := ⟨_, rfl, (by intro c h; cases h), rfl⟩

/-- Its length is not that of its bytes. -/
theorem witness_bad_image : ∃ t, deviceRule (.recoverImageReceived ⟨0, 1, 0, [], 0⟩) (inPower .recover) t :=
  ⟨_, rfl, .inr ⟨by simp [imageVerifies], _, _, rfl, rfl, rfl⟩⟩

theorem witness_margin : ∃ t, deviceRule (.marginSample ⟨1, 0⟩ 5 true) { inPower .ready with cycle := 2 ^ 24 } t :=
  ⟨_, rfl⟩

/-- A row repair under way, and a channel repair; a lane that retrains. -/
def stRepair : State := { st0 with juran := { st0.juran with
  repairs := [(1, .row { tile := { core := 0, spare := false }, bank := 0, spare := false } 0 false), (2, .chan 3)]
  retrain := [({ port := 7, lane := 2 }, 0)] } }

theorem witness_repairs : (∃ t, deviceRule (.onlineRepairSwitch 1) stRepair t) ∧ (∃ t, deviceRule (.onlineRepairSwitch 2) stRepair t) ∧
    ∃ t, deviceRule (.laneRetrainComplete 7) stRepair t :=
  ⟨⟨_, _, rfl, rfl⟩, ⟨_, _, rfl, rfl⟩, ⟨_, _, _, rfl, rfl, rfl⟩⟩

theorem witness_device_register : (∃ t, deviceRule (.deviceRegisterWrite 1023 5) st0 t) ∧ ∃ t, deviceRule (.deviceRegisterWrite 1024 5) st0 t :=
  ⟨⟨_, rfl⟩, ⟨_, rfl⟩⟩

/-! ## Management -/

/-- A device with one enrolled key, a context that owns LPDDR-6 and a queue, and a log of one record. -/
def stMgmt : State :=
  let s := onCtx (fun c => { c with params := { c.params with
    grants := [⟨2 ^ 48, 2 ^ 20⟩], saveBase := 2 ^ 48, saveSize := 4096, poolBase := 0x20000, poolSize := 0 } })
  { s with juran := { s.juran with keys := [7], power := .ready, fenced := [5], log := [{ cycle := 0, pa := 0, kind := 1, unit := ⟨2, 0⟩, ctx := 1, count := 1 }] }
           cqueues := [(3, { reg := ⟨1, 2 ^ 48, false⟩ })], panels := [], agents := [], strokes := [], comms := tabFilter (fun _ _ => false) s.comms }

/-- The request of `i` is answered with its effect. -/
def answers (s : State) (i : Instr) : Bool :=
  someAnd ((deviceRequest i).or (contextRequest i)) fun q =>
    (q.early || decide (s.juran.power ≠ .rom ∧ s.juran.power ≠ .recover)) && !busy s &&
    (match q.signer with
      | none => true
      | some key => enrolled s key) && (q.effect s).isSome

theorem answers_spec {s : State} {i : Instr} (h : answers s i = true) :
    ∃ q r, (deviceRequest i = some q ∨ contextRequest i = some q) ∧ q.effect s = some r ∧
      answerRule q s (report r.1 (.reply q.name true r.2.1 r.2.2)) := by
  obtain ⟨q, h0, h⟩ := someAnd_spec h
  simp only [Bool.and_eq_true, Bool.or_eq_true, Bool.not_eq_true', decide_eq_true_eq] at h
  obtain ⟨r, h1⟩ := Option.isSome_iff_exists.1 h.2
  refine ⟨q, r, ?_, h1, h.1.1.1, h.1.1.2, ?_⟩
  · cases hd : deviceRequest i with
    | some q0 => rw [hd] at h0; exact .inl h0
    | none => rw [hd] at h0; exact .inr h0
  · have h2 := h.1.2
    dsimp only
    split at h2 <;> simp_all

theorem witness_device_requests : ∀ i ∈ ([.identity, .status, .logread (some 7) 0, .logclear (some 7), .counters (some 7),
    .thresh (some 7) ⟨2, 0⟩ 5, .margin (some 7) ⟨1, 0⟩ 7, .mgmtFence (some 7) 255, .unfence (some 7) 0, .tilemap (some 7) 5,
    .bankmap (some 7) 5 { layer := 2, bank := 0 }, .image (some 7) ⟨0, 0, 0, [], 0⟩, .reset (some 7)] : List Instr), answers stMgmt i = true := by decide +kernel

theorem witness_context_requests : ∀ i ∈ ([.extendGrants (some 7) 1 ⟨2 ^ 48 + 2 ^ 24, 4096⟩,
    .enlargeSaveRegion (some 7) 1 8192, .registerCommissionQueue (some 7) 255 ⟨1, 0, false⟩, .unregisterCommissionQueue (some 7) 3,
    .writeTtEntry (some 7) 255 ⟨1000, 999, 0, 1, 2, true, 0⟩, .setExportWindow (some 7) 1 ⟨0, 4096, 2 ^ 48, true, true⟩,
    .assignEaselQueues (some 7) 1 [1023], .configureEgressChannel (some 7) 1 15 ⟨0, 0, 0, 0, 0, 0, 1, 0⟩, .resetChunkPool (some 7) 1,
    .measureIntoContext (some 7) 1 [], .attestationReport (some 7) 1 0] : List Instr), answers stMgmt i = true := by decide +kernel

/-- A context of an unused number with a page of its own; a commission that has not retired. -/
theorem witness_other_requests : answers stMgmt (.createContext (some 7)
      { placedCtx.params with ctxid := 2, grants := [⟨2 ^ 48 + 2 ^ 24, 4096⟩], setEntries := 1, tquota := 1, poolChunk := 256 }) = true ∧
    answers { stMgmt with comms := st0.comms } (.endCommission (some 7) 1) = true := by decide +kernel

/-- A refused request, and one that no enrolled key signed, are answered too. -/
theorem witness_refused_requests : ∀ i ∈ ([.thresh (some 7) ⟨2, 0⟩ 0, .mgmtFence (some 7) 256, .logread none 0, .logclear (some 8)] : List Instr),
    ∃ q t, deviceRequest i = some q ∧ answerRule q stMgmt t := by
  have ha : ∀ q : Request, ∃ t, answerRule q stMgmt t := fun q => ⟨_, .inr (by decide), by decide, rfl⟩
  intro i hi
  simp only [List.mem_cons, List.not_mem_nil, or_false] at hi
  rcases hi with rfl | rfl | rfl | rfl <;> exact (ha _).elim fun t h => ⟨_, t, rfl, h⟩

theorem witness_later : (∃ t, laterRule (.rowmap (some 7) 255 0 0 true) stMgmt t) ∧ (∃ t, laterRule (.chanmap (some 7) 63) stMgmt t) ∧
    (∃ t, laterRule (.lanemap (some 7) { port := 47, lane := 3 }) stMgmt t) ∧
    (∃ t, laterRule (.killContext (some 7) 1) stMgmt t) ∧ ∃ t, laterRule (.killDrainComplete 1) (onCtx fun c => { c with killed := some 0 }) t := by
  have hs : stMgmt.juran.power ≠ .rom ∧ stMgmt.juran.power ≠ .recover ∧ stMgmt.juran.power ≠ .bist ∧ busy stMgmt = false := by
    decide
  have hk : enrolled stMgmt (some 7) = true := by decide +kernel
  refine ⟨⟨_, hs, hk, by decide, by decide, by decide, rfl⟩, ⟨_, hs, hk, by decide, by decide, rfl⟩,
    ⟨_, hs, hk, by decide, by decide, by decide, rfl⟩, ?_, ?_⟩
  · obtain ⟨c, h0, -⟩ := someAnd_spec (o := liveCtx stMgmt 1) (p := fun _ => true) (by decide)
    exact ⟨_, hs, hk, c, h0, rfl⟩
  obtain ⟨c, h0, h⟩ := someAnd_spec (o := getCtx (onCtx fun c => { c with killed := some 0 }) 1)
    (p := fun c => decide (c.killed = some 0 ∧ c.drained = false)) (by decide)
  simp only [decide_eq_true_eq] at h
  exact ⟨_, c, 0, h0, h.1, h.2, by decide, rfl⟩


/-! ## Terms that are no instructions, and words -/

/-- One term or more for each check of `wfInstr`'s parts: a register, channel or mask number, an immediate, a pair, the
scalar rule, a type, a mode, an address part, a field's range. -/
def illFormed : List Instr := [
    .mov (hdr) .b32 (.v 0xC0) (.v 0), .mov (hdr) .b32 (.v 0) (.s 64), .mov (hdr) .b32 (.push 128) (.v 0), .mov (hdr) .b32 (.v 0) (.pop 128),
    .mov (hdr) .b32 (.v 0) (.peek 128), .mov (hdr) .b32 (.v 0) (.imm 1), .mov (hdr) .b32 (.s 1) (.v 0), .mov (hdr) .b64 (.v 1) (.v 2),
    .mov (hdr) .b64 (.v 2) (.v 1), .mov (hdr) .i32 (.v 0) (.v 1), .mov (hdr 16) .b32 (.v 0) (.v 1), .mov (hdr 0 false true) .b32 (.v 0) (.v 1),
    .iadd (hdr) .i8 (.v 1) (.v 2) (.imm 0x180), .iadd (hdr 0 false true) .i32 (.v 1) (.v 2) (.imm 1), .iadd (hdr) .f32 (.v 1) (.v 2) (.v 3),
    .brzMask false 16 0, .brzScalar false 64 0, .rgn false 3 false 0, .brx false false 8 (.s 4), .brx false false 0 (.v 1), .split false 16 0 0,
    .split false 0 8 0, .join false 8, .meld false false (.k 16) (.k 1), .meld false true (.k 1) (.k 1), .path false 16 0 0 0 0, .path false 0 0 0 0 192,
    .iaddc (hdr) .i32 false 0 (.v 1) (.v 2) (.v 3), .iabs (hdr) .n32 false (.v 1) (.v 2), .lea (hdr) .i32 8 (.v 2) (.v 4) (.v 1),
    .lea (hdr) .i8 1 (.v 2) (.v 4) (.v 1), .icmp (hdr) .i32 .un (.k 1) (.v 1) (.v 2), .sel (hdr) .b32 1 (.s 1) (.s 2) (.s 3),
    .sel (hdr) .b8 1 (.v 1) (.v 2) (.v 3), .fadd (hdr) .f32 ⟨false, true, .rne⟩ (.v 1) (.v 2) (.v 3), .fdot2 (hdr) .f32 false .rne (.v 1) (.v 2) (.v 3) (.v 4),
    .cvt (hdr) .b32 .f32 .rne (.v 1) (.v 2), .pack (hdr) .i16 true .rne (.v 1) (.v 2) (.v 3) none, .pack (hdr) .i8 false .rne (.v 1) (.v 2) (.v 3) none,
    .unpk (hdr) .i8 false .rtz (.v 1) (.v 2) (.v 3), .shfl (hdr) .b32 .xor 8 (.v 1) (.v 2) (.v 3), .vote (hdr) .ballot (.reg (.v 1)) (.v 2),
    .lred (hdr) .i32 .add .rtz (.v 1) (.v 2), .topk (hdr) .i32 4 0xBF (.v 1) (.v 2), .topk (hdr) .i16 4 1 (.v 1) (.v 2), .kop (hdr 1) .and (.k 1) (.k 2) (.k 3),
    .kop (hdr) .not (.k 1) (.k 2) (.k 3), .kfnd (hdr) false 4 (.k 1) (.v 1), .srd (hdr) (.s 4) .laneid, .srd (hdr) (.v 4) (.lvl 5), .swr (hdr) .tpc (.imm 1),
    .ld (hdr) 2 true (.v 1) (atS4), .ld (hdr) 5 false (.v 1) (atS4), .ld (hdr) 2 false (.v 1) (atS4 .rel), .ld (hdr) 2 false (.v 1) { atS4 with str := 16 },
    .ld (hdr) 2 false (.v 1) { atS4 with idx := some (.pop 127) }, .ld (hdr) 2 false (.s 1) { atS4 with base := .v 2 }, .st (hdr) 2 (.imm 0) (atS4),
    .st (hdr) 2 (.v 1) (atS4 .acq), .ldg (hdr) 7 0 (atS4), .ldg (hdr) 3 4 (atS4), .sct (hdr) 3 .addF32 (.v 2) (atS4), .ldmx (hdr) .mxt true 1 (atS4),
    .ldmx (hdr) .mxf4 false 0xBF (atS4), .atom (hdr) 1 .add false (.v 1) (atS4), .atom (hdr) 2 .add true (.v 1) (atS4), .acas (hdr) 2 (.v 1) (atS4),
    .red (hdr) 2 .exch false false (.v 1) (atS4), .fence (hdr) .rlx .die (.imm 0), .bar (hdr) (.v 1), .waitf (hdr) .n32 0 .eng .ge 5 (.s 4) (.imm 7),
    .waitc (hdr) .pnl 4 (.s 4) (.imm 0) (.v 1), .srel (hdr) 128, .sbindRing (hdr) 1 (.s 4) (.pop 1) (.s 6), .mcast (hdr) 0 (.s 4) (.s 4) (.s 4),
    .mcast (hdr) 65 (.s 4) (.s 4) (.s 4), .gang (hdr) (.pop 1), .mxld (hdr) 2 1 4 (.v 10) 8 ⟨false, 0, 0, 264⟩, .mxld (hdr) 0 9 4 (.v 10) 8 ⟨false, 0, 0, 264⟩,
    .mxld (hdr) 0 1 4 (.s 10) 8 ⟨false, 0, 0, 264⟩, .mxlb (hdr) 6 1 4 8 ⟨false, 0, 0, 264⟩, .mxlb (hdr) 0 1 4 8 ⟨true, 0, 0, 264⟩,
    .mxlb (hdr) 0 1 4 8 ⟨false, 0, 1, 264⟩, .mma (hdr) 0 8 8 63 63, .mxz (hdr) 8, .mxdr (hdr) 0 1 8 63 (.v 1), .mxadd (hdr) 0 4 16, .sdel (hdr) (.imm 1),
    .sins (hdr) (some 192) (.s 4) (.v 1), .shas (hdr) (.reg (.s 1)) (.s 4) (.v 1), .sand (hdr) (some 64) (.s 4) (.s 4) (.s 4), .scost (hdr) 4 9 (.s 4) (.s 4) (.s 4),
    .scost (hdr) 5 9 (.s 4) (.s 4) (.s 63), .sload (hdr) 16 (.s 9) 4, .tspawn (hdr) 9 (.s 4) (.v 2), .alloc (hdr) 9 (.v 1), .eqpush (hdr) none 4 (.imm 0),
    .eqcomb (hdr) 0 (.s 4) 2 4, .eqcfg (hdr) 9 9 4 (.imm 0), .trap (hdr) (.imm 0x10000), .ckpt (hdr) 4 (.imm 0x800), .errd (hdr) false 4 (.imm 3),
    .halt (hdr) (.imm 0x10000), .tlbiAll (hdr 1)]

theorem test_ill_formed : ∀ i ∈ illFormed, ¬ i.WellFormed := by decide

theorem test_alu_words : ∀ c ∈ aluWords, (decode c.1 c.2.1).toOption = some c.2.2 := by decide
theorem test_engine_words : ∀ c ∈ engineWords, (decode c.1 c.2.1).toOption = some c.2.2 := by decide
theorem test_encodes : ∀ c ∈ aluWords ++ engineWords, encode c.2.2 = some (c.1, c.2.1) := by decide

/-- Majors 0x2F, 0x42 and 0xFF are not assigned (R37); the fields of NOP are reserved (R40). -/
theorem test_refused_words : (∀ m ∈ ([0x2F, 0x42, 0xFF] : List Nat), (match decode (m * 2 ^ 55) 0 with
      | .error .illop => true
      | _ => false) = true) ∧ (match decode 1 0 with
      | .error .resfield => true
      | _ => false) = true := by decide

/-! ## One step -/

/-- A field of agent 4 after a step that runs a word. -/
def ran (w : Nat) (f : Agent → Bool) : Bool :=
  match step (State.reset.withFetchWord 128 w) with
  | .next t => (t.agents.head?).any fun a => f a.2
  | _ => false

/-- MOVI s4 = 3, with its extension word. -/
theorem test_movi_step : ran (0x1700B10000000600 + 3 * 2 ^ 64) (fun a => sReg a 4 == 3 && a.pc == 0x10010) = true := by decide

/-- BRA with OFF = 3 (R30, R41). -/
theorem test_bra_step : ran (0x0080000000000000 + 3 * 2 ^ 11) (fun a => a.pc == 0x10018) = true := by decide

/-- MEND outside meld mode: ILLOP; with no vector it is a double fault, and the agent stops. -/
theorem test_illop_stops : ran 0x0680000000000000 (fun a => decide (a.run = .stopped)) = true := by decide

/-! ## Decoding and the step: hypotheses met -/

theorem witness_step_runs : ∃ a w e i, (State.reset.withFetchWord 128 0).agenda = [.issue 4] ∧
    let s0 := { State.reset.withFetchWord 128 0 with agenda := [] }
    getAgent s0 4 = some a ∧ mayIssue s0 4 = true ∧ a.owed = none ∧
    (a.prePend && !a.handler && a.wake.isNone && a.setAt.isNone) = false ∧
    fetchInstr (markIssue s0 4 a) (agentCtx s0 a) a.pc.toNat = .ok (w, e) ∧ decode w e = .ok i := by
  let s0 := { State.reset.withFetchWord 128 0 with agenda := [] }
  have h : (someAnd (getAgent s0 4) fun a => mayIssue s0 4 && decide (a.owed = none) && !a.prePend &&
      okAnd (fetchInstr (markIssue s0 4 a) (agentCtx s0 a) a.pc.toNat) fun w => okAnd (decode w.1 w.2) fun _ => true) = true := by
    decide
  obtain ⟨a, h0, h⟩ := someAnd_spec h
  simp only [Bool.and_eq_true, decide_eq_true_eq, Bool.not_eq_true'] at h
  obtain ⟨⟨w, e⟩, h1, h2⟩ := okAnd_spec h.2
  obtain ⟨i, h2, -⟩ := okAnd_spec h2
  exact ⟨a, w, e, i, by decide, h0, h.1.1.1, h.1.1.2, by simp [h.1.2], h1, h2⟩

theorem witness_round_trip : (Instr.sel (hdr 15) .b64 15 (.v 190) (.pop 127) (.imm 0x8000000000000000)).WellFormed ∧
    (compareOp (.sel (hdr 15) .b64 15 (.v 190) (.pop 127) (.imm 0x8000000000000000))).isSome ∧
    (encode (.sel (hdr 15) .b64 15 (.v 190) (.pop 127) (.imm 0x8000000000000000))).isSome := by decide

theorem witness_step_keeps : Memory.wf State.reset.mem = true ∧ ∃ t, step State.reset = .next t := by
  have h : (match step State.reset with
    | .next _ => true
    | _ => false) = true := by decide
  refine ⟨by decide, ?_⟩
  revert h
  cases step State.reset with
  | next t => exact fun _ => ⟨t, rfl⟩
  | fault f => rintro ⟨⟩
  | refused r => rintro ⟨⟩

/-! ## Frames and exceptions: hypotheses met -/

/-- IADD v1 = v1 + 2 in `st1`. -/
theorem witness_register_frame : ∃ o, regOp st1 (.iadd (hdr 0 true) .i32 (.v 1) (.v 1) (.imm 2)) = some o ∧
    (Instr.iadd (hdr 0 true) .i32 (.v 1) (.v 1) (.imm 2)).WellFormed ∧
    (∃ x0 x vs s2, RegReady st1 o x0 x vs s2) ∧ ∃ t, exec (.iadd (hdr 0 true) .i32 (.v 1) (.v 1) (.imm 2)) st1 = .next t :=
  ⟨_, rfl, by decide, regReady_of (by decide), ⟨_, rfl⟩⟩

theorem witness_leaves_memory : storesNothing (.st (hdr) 2 (.v 1) atS4) = true ∧ ∃ t, exec (.st (hdr) 2 (.v 1) atS4) stMem = .next t :=
  ⟨by decide, ⟨_, rfl⟩⟩

/-- A byte outside the packet's four. -/
theorem witness_packet_frame : ∃ k, tabGet (stPacket .write (2 ^ 48 + 0x20000)).packets 7 = some k ∧
    (∃ t, exec (.writePacketAtHome 7 .here) (stPacket .write (2 ^ 48 + 0x20000)) = .next t) ∧
    ¬ insideSegs (packetSegs (stPacket .write (2 ^ 48 + 0x20000)) k) 0 ∧
    ¬ insideBarrier (stPacket .write (2 ^ 48 + 0x20000)) (packetSegs (stPacket .write (2 ^ 48 + 0x20000)) k) 0 := by
  obtain ⟨k, h0, h⟩ := someAnd_spec (o := tabGet (stPacket .write (2 ^ 48 + 0x20000)).packets 7)
    (p := fun k => (packetSegs (stPacket .write (2 ^ 48 + 0x20000)) k).all (fun q => decide (0 < q.1)) &&
      (stPacket .write (2 ^ 48 + 0x20000)).panels.all fun p => p.2.barriers.isEmpty) (by decide)
  simp only [Bool.and_eq_true, List.all_eq_true, decide_eq_true_eq, List.isEmpty_iff] at h
  refine ⟨k, h0, ⟨_, rfl⟩, ?_, ?_⟩
  · rintro ⟨q, hq, h1, -⟩
    have := h.1 q hq
    omega
  · rintro ⟨p, hp, off, ho, -⟩
    rw [h.2 p hp] at ho
    cases ho

theorem witness_writes_land : ∃ a st, getAgent st1 4 = some a ∧ getStroke st1 a.stroke = some st ∧ 0 < st.width ∧
    ∃ l km, l < 128 ∧ km < 16 ∧ (activeMask a km).getLsbD l = true := by
  obtain ⟨a, h0, h⟩ := someAnd_spec (o := getAgent st1 4) (p := fun a => (activeMask a 0).getLsbD 31 &&
    someAnd (getStroke st1 a.stroke) fun st => decide (0 < st.width)) (by decide)
  simp only [Bool.and_eq_true] at h
  obtain ⟨st, h1, h2⟩ := someAnd_spec h.2
  exact ⟨a, st, h0, h1, of_decide_eq_true h2, 31, 0, by decide, by decide, h.1⟩

/-- Its vector table at 0x10000. -/
def stVector : State := onComm fun c => { c with tvbase := 0x10000 }

theorem witness_can_enter : ∃ a, CanEnter stVector 4 a { cause := .align } := by
  have h : (someAnd (getAgent stVector 4) fun a => decide (hasResults stVector 4 = false ∧ a.late = none ∧ a.primer = false ∧ a.handler = false ∧
      agentTvbase stVector a ≠ 0) && okAnd (fetchWord stVector (agentCtx stVector a) ((agentTvbase stVector a).toNat + 8 * Cause.align.code))
        fun _ => true) = true := by decide
  obtain ⟨a, h0, h⟩ := someAnd_spec h
  simp only [Bool.and_eq_true, decide_eq_true_eq] at h
  obtain ⟨w, h1, -⟩ := okAnd_spec h.2
  exact ⟨a, ⟨h0, ⟨h.1.1, h.1.2.1⟩, ⟨h.1.2.2.1, h.1.2.2.2.1⟩, ⟨h.1.2.2.2.2, w, h1⟩⟩⟩

/-- With a result outstanding, and with a late fault. -/
theorem witness_trap_waits : (∃ a, getAgent (stRead 0 0) 4 = some a ∧ hasResults (stRead 0 0) 4 = true) ∧
    ∃ a l, getAgent (onAgent fun a => { a with late := some ({ cause := .dataerr }, 1) }) 4 = some a ∧
      hasResults (onAgent fun a => { a with late := some ({ cause := .dataerr }, 1) }) 4 = false ∧ a.late = some l :=
  ⟨⟨_, rfl, by decide⟩, ⟨_, _, rfl, by decide, rfl⟩⟩

/-- A handler, a vector that is absent, and a Primer. -/
theorem witness_no_entry : (∃ a, getAgent (onAgent fun a => { a with handler := true }) 4 = some a ∧ a.primer = false ∧ a.handler = true ∧ a.late = none) ∧
    (∃ a, getAgent st0 4 = some a ∧ a.primer = false ∧ a.handler = false ∧ a.late = none ∧ agentTvbase st0 a = 0) ∧
    (∃ a st p, getAgent (onAgent fun a => { a with primer := true }) 4 = some a ∧ a.primer = true ∧
      getStroke (onAgent fun a => { a with primer := true }) a.stroke = some st ∧
      getPanel (onAgent fun a => { a with primer := true }) st.panel = some p) ∧ hasResults st0 4 = false :=
  ⟨⟨_, rfl, rfl, rfl, rfl⟩, ⟨_, rfl, rfl, rfl, rfl, rfl⟩, ⟨_, _, _, rfl, rfl, rfl, rfl⟩, by decide⟩

theorem witness_mend_both : (∃ x, theCtxt (onAgent fun a => { a with meld := true }) = some x ∧ x.a.primer = false ∧ x.a.meld = true ∧
      hasResults (onAgent fun a => { a with meld := true }) x.aid = false ∧ x.a.late = none) ∧
    ∃ x, theCtxt st0 = some x ∧ x.a.meld = false :=
  ⟨⟨_, rfl, rfl, rfl, rfl, rfl⟩, ⟨_, rfl, rfl⟩⟩

/-- An agent in the Primer, for MEND; an agent with nothing outstanding and one with a result, for NOP; and a page that may be
executed, for the target of a BRX. -/
theorem witness_nop_land : (∃ x, theCtxt (onAgent fun a => { a with primer := true }) = some x ∧ x.a.primer = true) ∧
    (∃ x, theCtxt st0 = some x ∧ hasResults st0 x.aid = false ∧ x.a.late = none) ∧
    (∃ x, theCtxt { st0 with results := [(9, { agent := 4, ctx := 1, kind := .held, mask := 1 })] } = some x ∧
      hasResults { st0 with results := [(9, { agent := 4, ctx := 1, kind := .held, mask := 1 })] } x.aid = true) ∧
    ∃ x pa page, theCtxt st0 = some x ∧ accessByte st0 x.p.ctx 0x10000 .x = .ok (pa, page) := by
  refine ⟨⟨_, rfl, rfl⟩, ⟨_, rfl, by decide, rfl⟩, ⟨_, rfl, by decide⟩, ?_⟩
  have h : (someAnd (theCtxt st0) fun x => okAnd (accessByte st0 x.p.ctx 0x10000 .x) fun _ => true) = true := by decide
  obtain ⟨x, h0, h⟩ := someAnd_spec h
  obtain ⟨⟨pa, page⟩, h1, -⟩ := okAnd_spec h
  exact ⟨x, pa, page, h0, h1⟩

/-- IADD reads v9, which is dead in `st1`. -/
theorem witness_dead_read : ∃ o x0 u x k f, regOp st1 (.iadd (hdr) .i32 (.v 1) (.v 1) (.v 9)) = some o ∧ theCtxt st1 = some x0 ∧
    checkPlace x0 (activeMask x0.a o.km) o.place = .ok () ∧ switchMark st1 x0 o.is.sw = .ok (u, x) ∧
    checkMeldPairs x (activeMask x0.a o.km) o.is.srcs o.is.dsts = .ok () ∧ o.is.straddle = none ∧
    firstHaz x.a ((o.is.srcs.map fun r => (srcKeys x.a (activeMask x0.a o.km) r, false, r.field)) ++
      (o.reads ++ o.is.dsts ++ (if o.always then [] else selRefs x o.km)).map (refKeys x.a (activeMask x0.a o.km))) = none ∧
    ((o.is.srcs.map fun r => (srcKeys x.a (activeMask x0.a o.km) r, false, r.field)).findSome? fun e =>
      (e.1.find? fun k => decide (k < 0xC0) && !isLive x.a k).map fun k => (k, e.2.2)) = some (k, f) := by
  exact ⟨_, _, _, _, 9, 2, rfl, rfl, rfl, rfl, rfl, rfl, by decide, by decide⟩

/-- MELD mode: m0 (0xB0) stands for v9 on path 0, which is dead. -/
def stDeadMeld : State :=
  onAgent (fun a => { a with meld := true, ptab := [(0, [9, 9, 9, 9])] }) (liveBelow 8)

theorem witness_dead_meld : ∃ o x0 u x k f, regOp stDeadMeld (.iadd (hdr) .i32 (.v 1) (.v 1) (.v 0xB0)) = some o ∧
    theCtxt stDeadMeld = some x0 ∧ x.a.meld = true ∧
    checkPlace x0 (activeMask x0.a o.km) o.place = .ok () ∧ switchMark stDeadMeld x0 o.is.sw = .ok (u, x) ∧
    checkMeldPairs x (activeMask x0.a o.km) o.is.srcs o.is.dsts = .ok () ∧ o.is.straddle = none ∧
    firstHaz x.a ((o.is.srcs.map fun r => (srcKeys x.a (activeMask x0.a o.km) r, false, r.field)) ++
      (o.reads ++ o.is.dsts ++ (if o.always then [] else selRefs x o.km)).map (refKeys x.a (activeMask x0.a o.km))) = none ∧
    ((o.is.srcs.map fun r => (srcKeys x.a (activeMask x0.a o.km) r, false, r.field)).findSome? fun e =>
      (e.1.find? fun k => decide (k < 0xC0) && !isLive x.a k).map fun k => (k, e.2.2)) = some (k, f) := by
  exact ⟨_, _, _, _, 9, 2, rfl, rfl, rfl, rfl, rfl, rfl, rfl, by decide, by decide⟩

/-- TLBI at privilege 0, and a load at 0x20001 by every lane. -/
theorem witness_perm : ∃ x0 u x v, theCtxt st0 = some x0 ∧ sysGather st0 x0 (hdr) tlbiPlace [] [] (fun _ => true) false = .ok (u, x, v) ∧ x.a.priv = 0 := by
  have h : (someAnd (theCtxt st0) fun x0 => okAnd (sysGather st0 x0 (hdr) tlbiPlace [] [] (fun _ => true) false) fun r => decide (r.2.1.a.priv = 0)) = true := by decide
  obtain ⟨x0, h0, h⟩ := someAnd_spec h
  obtain ⟨⟨u, x, v⟩, h1, h2⟩ := okAnd_spec h
  exact ⟨x0, u, x, v, h0, h1, of_decide_eq_true h2⟩

/-- Misaligned addresses at s4; a channel; an access slice issues, where `primer` says so. -/
def stOdd (primer : Bool) : State :=
  onPanel (fun p => { p with chans := [(3, { kind := .primer })] })
    (onAgent (fun a => { a with primer := primer }) (liveBelow 8 (sregs [(4, 0x20001), (6, 2)])))

def Misaligned (s : State) (i : Instr) : Prop :=
  ∃ o x0 x u vs c, accessOp i = some o ∧ MemRuns s o.h o.pl o.m o.extra o.dsts o.straddle o.push x0 x u vs ∧
    (activeMask x0.a o.h.km ≠ 0 ∨ o.push.isSome = true) ∧
    (o.accs x (activeMask x0.a o.h.km) vs).find? (fun a => decide (a.addr % (a.align : Int) ≠ 0)) = some c

def alignGate (s : State) (o : AccessOp) : Bool :=
  someAnd (theCtxt s) fun x0 => okAnd (memGather s x0 o.h o.pl o.m o.extra o.dsts o.straddle o.push) fun r =>
    let lanes := activeMask x0.a o.h.km
    decide (lanes ≠ 0 ∨ o.push.isSome = true) &&
      ((o.accs r.2.1 lanes r.2.2).find? fun a => decide (a.addr % (a.align : Int) ≠ 0)).isSome

theorem misaligned_of {s : State} {i : Instr} (h : someAnd (accessOp i) (alignGate s) = true) : Misaligned s i := by
  obtain ⟨o, h, g⟩ := someAnd_spec h
  obtain ⟨x0, h1, g⟩ := someAnd_spec g
  obtain ⟨⟨u, x, vs⟩, h2, g⟩ := okAnd_spec g
  simp only [Bool.and_eq_true, decide_eq_true_eq] at g
  obtain ⟨c, h3⟩ := Option.isSome_iff_exists.1 g.2
  exact ⟨o, x0, x, u, vs, c, h, ⟨h1, h2⟩, g.1, h3⟩

theorem witness_align : ∀ i ∈ ([.ld (hdr) 2 false (.v 9) atS4, .ld (hdr) 2 false (.s 5) atS4, .ldg (hdr) 3 8 atS4,
    .st (hdr) 2 (.v 1) atS4, .st (hdr) 2 (.s 6) atS4, .sct (hdr) 2 .addF32 (.v 1) atS4, .red (hdr) 2 .add false false (.v 1) atS4,
    .atom (hdr) 2 .add false (.v 1) atS4, .acas (hdr) 2 (.v 1) atS4, .acas (hdr) 3 (.s 6) atS4,
    .red (hdr) 2 .max true true (.s 6) atS4] : List Instr), Misaligned (stOdd false) i := by
  have h : ∀ i ∈ ([.ld (hdr) 2 false (.v 9) atS4, .ld (hdr) 2 false (.s 5) atS4, .ldg (hdr) 3 8 atS4,
    .st (hdr) 2 (.v 1) atS4, .st (hdr) 2 (.s 6) atS4, .sct (hdr) 2 .addF32 (.v 1) atS4, .red (hdr) 2 .add false false (.v 1) atS4,
    .atom (hdr) 2 .add false (.v 1) atS4, .acas (hdr) 2 (.v 1) atS4, .acas (hdr) 3 (.s 6) atS4,
    .red (hdr) 2 .max true true (.s 6) atS4] : List Instr), someAnd (accessOp i) (alignGate (stOdd false)) = true := by decide
  exact fun i hi => misaligned_of (h i hi)

theorem witness_align_channel : Misaligned (stOdd true) (.ld (hdr) 2 false (.push 3) atS4) := misaligned_of (by decide)

/-- A collective's destination under way. -/
def stCollLand : State := { stHop with colls := tabMod stHop.colls 9 fun c => { c with out := some [1, 2, 3, 4] } }

/-- Writes at a home, landings, saves, host writes, barrier objects, PUB and EQPUSH. -/
theorem witness_stores_to :
    (∀ c ∈ ([(.chunkLanded 9 0, stLand2), (.chunkLanded 9 0, stCollLand), (.mcastDelivery 9 0 0 .here, stMcast),
        (.panelSave 2, withReq .save), (.rdmaWrite 1 5 0x20000 [1, 2, 3, 4], stRdma),
        (.rdmaWrite 1 6 0x20000 [1], stRdma)] : List (Instr × State)), ∃ g, storesTo c.1 c.2 g) ∧
    (∃ g, storesTo (.binit (hdr) (.s 4) (.s 63)) (stPad [] [(4, 0x100000000000FF0)]) g) ∧
    (∃ g, storesTo (.bar (hdr) (.s 4)) stBar g) ∧ (∃ g, storesTo (.pub (hdr) .die (.s 63)) stChan g) ∧
    ∃ g, storesTo (.eqpush (hdr) (some 9) 8 (.imm 5)) stTask g := by
  refine ⟨?_, ?_, ?_, ?_, ?_⟩
  · intro c hc
    simp only [List.mem_cons, List.not_mem_nil, or_false] at hc
    rcases hc with rfl | rfl | rfl | rfl | rfl | rfl
    · exact ⟨_, .inl ⟨_, rfl, rfl⟩⟩
    · exact ⟨_, .inr ⟨rfl, _, _, rfl, rfl, rfl⟩⟩
    · exact ⟨_, _, rfl, rfl⟩
    · exact ⟨_, _, rfl, rfl⟩
    · exact ⟨_, rfl⟩
    · exact ⟨_, rfl⟩
  · obtain ⟨x0, x, u, vs, h, hc⟩ := wideRuns_of (s := stPad [] [(4, 0x100000000000FF0)]) (h := hdr) (pl := barPlace)
      (srcs := [addrSrc (hdr) (.s 4), srcOf (.s 63) 1 2 false]) (refs := [])
      (fun _ x _ vs => (scratchOff x.p (nthVal vs 0) 16).isSome) (by decide)
    obtain ⟨off, ho⟩ := Option.isSome_iff_exists.1 hc
    exact ⟨_, x0, x, u, vs, off, h, ho, rfl⟩
  · obtain ⟨x0, x, u, vs, h, hc⟩ := wideRuns_of (s := stBar) (h := { (hdr : Hdr) with sw := true }) (pl := barPlace)
      (srcs := [addrSrc (hdr) (.s 4)]) (refs := [])
      (fun _ x u vs => (scratchOff x.p (nthVal vs 0) 16).isSome && (getPanel u x.st.panel).isSome) (by decide)
    obtain ⟨hc, hp⟩ := Bool.and_eq_true_iff.1 hc
    obtain ⟨off, ho⟩ := Option.isSome_iff_exists.1 hc
    obtain ⟨p, hp⟩ := Option.isSome_iff_exists.1 hp
    exact ⟨_, x0, x, u, vs, off, p, h, ho, hp, rfl⟩
  · obtain ⟨t, x0, x, u, vs, r, h, hr, -⟩ := witness_pub
    exact ⟨_, x0, x, u, vs, r, h, hr, rfl⟩
  · obtain ⟨t, x0, x, u, vs, e, v, h, -⟩ := witness_eqpush
    exact ⟨_, x0, x, u, vs, h, rfl⟩

/-- The instructions that zero a completion object, and the steps that end, place, restore and retire. -/
theorem witness_stores_to_more :
    (∃ g, storesTo (.cpy (hdr) false .pnl (.s 4) (.s 5) (.s 63)) stCopy g) ∧
    (∃ g, storesTo (.barx (hdr) false .pnl (.s 6) (.s 4) (.s 5) (.s 63)) stCopy g) ∧
    (∃ g, storesTo (.mcast (hdr) 1 (.s 4) (.s 7) (.s 63)) stCopy g) ∧ (∃ g, storesTo (.coll (hdr) (.s 4) (.s 63)) stColl g) ∧
    ∀ c ∈ ([(.exit false, st0), (.tyld (hdr) 9 (.s 4) (.v 12), stTask), (.starvationExpiry 4, stStarve),
        (.panelPlacement 1, stPlace), (.easelFiring 0, stQueue), (.taskStrokeStart 0, stTasks true), (.stealRequest 1, stSteal),
        (.panelRestore 2, stSaved), (.panelRetire 2, onStroke fun k => { k with exited := true }),
        (.commissionRetire 1, { st0 with panels := [] }), (.commissionLaunch 3, stLaunch 32 1),
        (.combineDeposit 9, stComb)] : List (Instr × State)), ∃ g, storesTo c.1 c.2 g := by
  refine ⟨?_, ?_, ?_, ?_, ?_⟩
  · obtain ⟨t, x0, x, u, vs, _, _, _, _, h, -⟩ := witness_cpy
    exact ⟨_, x0, x, u, vs, h, rfl⟩
  · obtain ⟨t, x0, x, u, vs, _, _, _, _, _, h, -⟩ := witness_barx
    exact ⟨_, x0, x, u, vs, h, rfl⟩
  · obtain ⟨t, x0, x, u, vs, _, _, _, _, h, -⟩ := witness_mcast
    exact ⟨_, x0, x, u, vs, h, rfl⟩
  · obtain ⟨t, x0, x, u, v, vs, ps, bs, _, _, _, h, -, h1, h2, -⟩ := witness_coll
    exact ⟨_, x0, x, u, v, vs, ps, bs, h, h1, h2, rfl⟩
  · intro c hc
    simp only [List.mem_cons, List.not_mem_nil, or_false] at hc
    rcases hc with rfl | rfl | rfl | rfl | rfl | rfl | rfl | rfl | rfl | rfl | rfl | rfl
    · exact ⟨_, rfl⟩
    · exact ⟨_, rfl⟩
    · exact ⟨_, rfl⟩
    · exact ⟨_, rfl⟩
    · exact ⟨_, rfl⟩
    · exact ⟨_, rfl⟩
    · exact ⟨_, rfl⟩
    · exact ⟨_, _, rfl, rfl⟩
    · exact ⟨_, _, rfl, rfl⟩
    · exact ⟨_, _, rfl, rfl⟩
    · exact ⟨_, _, rfl, rfl⟩
    · exact ⟨_, _, rfl, rfl⟩

end Sys2Proof.Tests
end

section

namespace Sys2Proof.Machine
open Sys2Proof

/-! ## Memory keeps its canonical form (O48)

`step` is followed down to the few functions that write `State.mem`. A function that does not reach one of them has a
lemma `<name>_mem`: memory is as before. A function that does has a lemma `<name>_wf`: from memory in canonical form it
makes memory in canonical form. The bodies of instructions are computations that may stop with a trap or a wait; their
lemmas speak of every answer, by `Yields`. -/

/-! ### Computations whose answers have a property, and folds over the state -/

/-- Every answer of a computation has a property. -/
structure Yields {ε α : Type} (P : α → Prop) (x : Except ε α) : Prop where
  of_ok : ∀ a, x = .ok a → P a

section
variable {ε α β : Type} {P Q : α → Prop} {R : β → Prop}

@[simp] theorem yields_ok (a : α) : Yields P (.ok a : Except ε α) ↔ P a :=
  ⟨fun h => h.of_ok a rfl, fun h => ⟨fun b hb => by cases hb; exact h⟩⟩

@[simp] theorem yields_pure (a : α) : Yields P (pure a : Except ε α) ↔ P a := yields_ok a

@[simp] theorem yields_error (e : ε) : Yields P (.error e : Except ε α) := ⟨fun _ h => nomatch h⟩

theorem Yields.mono {x : Except ε α} (h : Yields P x) (hq : ∀ a, P a → Q a) : Yields Q x :=
  ⟨fun a ha => hq a (h.of_ok a ha)⟩

theorem Yields.bind {x : Except ε α} {k : α → Except ε β} (hx : Yields P x) (hk : ∀ a, P a → Yields R (k a)) :
    Yields R (x >>= k) := by
  cases x with
  | error e => exact yields_error e
  | ok a => exact hk a (hx.of_ok a rfl)

/-- A computation whose answer does not matter. -/
theorem Yields.seq {x : Except ε α} {k : α → Except ε β} (hk : ∀ a, Yields R (k a)) : Yields R (x >>= k) :=
  Yields.bind (P := fun _ => True) ⟨fun _ _ => trivial⟩ fun a _ => hk a

theorem Yields.ite {c : Prop} [Decidable c] {x y : Except ε α} (hx : Yields P x) (hy : Yields P y) :
    Yields P (if c then x else y) := by
  split
  · exact hx
  · exact hy

/-- A check that may raise an error before the rest. -/
theorem Yields.guard {c : Prop} [Decidable c] {x : Except ε Unit} {k : Unit → Except ε α}
    (hk : ∀ u, Yields P (k u)) : Yields P (if c then x >>= k else k ()) :=
  .ite (.seq hk) (hk ())

/-- After an error nothing is answered. -/
@[simp] theorem yields_error_bind (e : ε) (k : α → Except ε β) : Yields R ((.error e : Except ε α) >>= k) :=
  yields_error e

end

@[simp] theorem yields_trapAt {α : Type} {P : α → Prop} (c : Cause) (lanes : Mask) (aux addr : DWord) :
    Yields P (trapAt c lanes aux addr) := yields_error _

@[simp] theorem yields_trapAt_bind {α β : Type} {R : β → Prop} (c : Cause) (lanes : Mask) (aux addr : DWord)
    (k : α → Eff β) : Yields R (trapAt c lanes aux addr >>= k) := yields_error _

@[simp] theorem yields_badJoin {α : Type} {P : α → Prop} (lanes : Mask) (sub tok : Nat) (addr : DWord) :
    Yields P (badJoin lanes sub tok addr) := yields_error _

@[simp] theorem nextOr_next (s t : State) : nextOr s (.next t) = t := rfl

/-- A fold leaves memory as it is when each of its steps does. -/
theorem foldl_mem {α : Type} {f : State → α → State} (h : ∀ s x, (f s x).mem = s.mem) (l : List α) (s : State) :
    (l.foldl f s).mem = s.mem := by
  induction l generalizing s with
  | nil => rfl
  | cons x l ih => rw [List.foldl_cons, ih, h]

/-- A fold keeps the form of memory when each of its steps does. -/
theorem foldl_wf {α : Type} {f : State → α → State}
    (h : ∀ s x, Memory.wf s.mem = true → Memory.wf (f s x).mem = true) (l : List α) (s : State)
    (hs : Memory.wf s.mem = true) : Memory.wf (l.foldl f s).mem = true := by
  induction l generalizing s with
  | nil => exact hs
  | cons x l ih => exact ih _ (h s x hs)

/-! ### What leaves memory as it is: the operations on the state

The lemmas `<name>_keeps` about the frames in which instructions run hold for any property `P` of memory: with
`P := (· = s.mem)` they say that memory is as before, with `P := (Memory.wf · = true)` that its form is kept. -/

@[simp] theorem passCycle_mem (s : State) (o : Out) : (nextOr s (passCycle o)).mem = (nextOr s o).mem := by
  cases o <;> rfl

/-! #### Traps and control flow -/

@[simp] theorem clearWait_mem (s : State) (aid : Nat) : (clearWait s aid).mem = s.mem := by
  unfold clearWait
  split <;> simp

@[simp] theorem parkAgent_mem (s : State) (aid : Nat) (k : WaitKind) : (parkAgent s aid k).mem = s.mem := by
  unfold parkAgent
  split <;> simp

@[simp] theorem addLog_mem (s : State) (pa kind : Nat) (u : ErrUnit) (ctx count : Nat) (drop : Option DropPlace) :
    (addLog s pa kind u ctx count drop).mem = s.mem := rfl

@[simp] theorem bumpUnit_mem (s : State) (u : ErrUnit) (pa ctx : Nat) : (bumpUnit s u pa ctx).mem = s.mem := by
  simp [bumpUnit, apply_ite State.mem]

@[simp] theorem countError_mem (s : State) (u : ErrUnit) (pa ctx : Nat) : (countError s u pa ctx).mem = s.mem := by
  simp [countError]

@[simp] theorem countMet_mem (s : State) (ctx : Nat) (t : Trap) : (countMet s ctx t).mem = s.mem := by
  unfold countMet
  split <;> simp

@[simp] theorem primerFault_mem (s : State) (aid : Nat) (a : Agent) (t : Trap) :
    (primerFault s aid a t).mem = s.mem := by
  unfold primerFault
  dsimp only
  (repeat' split) <;> simp

@[simp] theorem doubleFault_mem (s : State) (aid : Nat) (a : Agent) (t : Trap) : (doubleFault s aid a t).mem = s.mem :=
  rfl

@[simp] theorem clearStreams_mem (s : State) (st : Nat) (t : Trap) : (clearStreams s st t).mem = s.mem := by
  unfold clearStreams
  split <;> simp

@[simp] theorem enterTrap_mem (s : State) (aid : Nat) (t0 : Trap) : (enterTrap s aid t0).mem = s.mem := by
  unfold enterTrap
  dsimp only
  (repeat' split) <;> simp

/-- What holds of the memory before an instruction and after its effect holds once it is settled. -/
theorem settle_keeps {P : Memory → Prop} {s : State} (aid : Nat) {e : Eff State} (hs : P s.mem)
    (he : Yields (fun t => P t.mem) e) : P (settle s aid e).mem := by
  unfold settle
  split
  · simpa using he
  · simpa using hs
  · simpa using hs

theorem runAgent_keeps {P : Memory → Prop} {s : State} {body : Ctxt → Eff State} (hs : P s.mem)
    (hb : ∀ x, Yields (fun t => P t.mem) (body x)) : P (runAgent s body).mem := by
  unfold runAgent
  split
  · exact hs
  · exact settle_keeps _ hs (hb _)

@[simp] theorem switchMark_mem (s : State) (x : Ctxt) (sw : Bool) :
    Yields (fun r => r.1.mem = s.mem) (switchMark s x sw) := by
  unfold switchMark
  split
  · exact .seq fun _ => by simp
  · simp

@[simp] theorem ctlGather_mem (s : State) (x0 : Ctxt) (sw : Bool) (pl : Place) (reads : Ctxt → List Ref) :
    Yields (fun r => r.1.mem = s.mem) (ctlGather s x0 sw pl reads) := by
  unfold ctlGather
  refine .seq fun _ => .bind (switchMark_mem ..) fun r hr => ?_
  exact .seq fun _ => .seq fun _ => .seq fun _ => by simpa using hr

theorem ctlInstr_keeps {P : Memory → Prop} {s : State} {sw : Bool} {pl : Place} {reads : List Ref}
    {body : State → Ctxt → Mask → Eff State} (hs : P s.mem)
    (hb : ∀ t x m, t.mem = s.mem → Yields (fun u => P u.mem) (body t x m)) : P (ctlInstr s sw pl reads body).mem :=
  runAgent_keeps hs fun _ => .bind (ctlGather_mem ..) fun r hr => hb r.1 r.2 _ hr

@[simp] theorem stepPc_mem (s : State) (aid : Nat) (size : Nat) : (stepPc s aid size).mem = s.mem := by
  unfold stepPc
  split <;> simp

@[simp] theorem takeBranch_mem (s : State) (aid : Nat) (pc : VAddr) : (takeBranch s aid pc).mem = s.mem := by
  unfold takeBranch
  split <;> simp

@[simp] theorem branchIf_mem (s : State) (x : Ctxt) (lanes : Mask) (c : Bool) (off : BitVec 36) :
    Yields (fun t => t.mem = s.mem) (branchIf s x lanes c off) := by
  unfold branchIf
  split
  · exact .seq fun _ => by simp
  · simp

@[simp] theorem branchMask_mem (s : State) (sw : Bool) (km : Nat) (off : BitVec 36) (c : Mask → Bool) :
    (branchMask s sw km off c).mem = s.mem :=
  runAgent_keeps (P := (· = s.mem)) rfl fun _ => .bind (ctlGather_mem ..) fun _ hr =>
    (branchIf_mem ..).mono fun _ h => h.trans hr

@[simp] theorem putS_mem (s : State) (aid n : Nat) (v : DWord) : (putS s aid n v).mem = s.mem := by
  unfold putS
  split <;> simp

@[simp] theorem exitPrimer_mem (s : State) (x : Ctxt) : (exitPrimer s x).mem = s.mem := rfl

@[simp] theorem putSplit_mem (s : State) (stroke rec : Nat) (r : SplitRec) :
    (putSplit s stroke rec r).mem = s.mem := by
  unfold putSplit
  split <;> simp

@[simp] theorem dropSplit_mem (s : State) (stroke rec : Nat) : (dropSplit s stroke rec).mem = s.mem := by
  unfold dropSplit
  split <;> simp

@[simp] theorem joinCheck_mem (s : State) (stroke rec : Nat) : (joinCheck s stroke rec).mem = s.mem := by
  unfold joinCheck
  split
  · rfl
  · split
    · rfl
    · split
      · dsimp only
        split <;> simp [foldl_mem]
      · rfl

@[simp] theorem leaveSplits_mem (stroke aid : Nat) (s : State) (es : List JoinEntry) :
    (leaveSplits stroke aid s es).mem = s.mem := by
  induction es generalizing s with
  | nil => rfl
  | cons e rest ih =>
    unfold leaveSplits
    split
    · rfl
    · split
      · dsimp only
        split
        · rw [joinCheck_mem, foldl_mem fun u n => by split <;> simp, putSplit_mem]
        · simp [ih]
      · exact ih s

@[simp] theorem putMatrix_mem (s : State) (core : Nat) (m : Matrix) : (putMatrix s core m).mem = s.mem := rfl

@[simp] theorem breakLatch_mem (s : State) (core : Nat) (t : Trap) : (breakLatch s core t).mem = s.mem := by
  unfold breakLatch
  split
  · rfl
  · split
    · rfl
    · rw [foldl_mem fun u e => by split <;> simp, putMatrix_mem]

@[simp] theorem leaveGang_mem (s : State) (panel core idx : Nat) : (leaveGang s panel core idx).mem = s.mem := by
  unfold leaveGang
  (repeat' split) <;> simp

@[simp] theorem dropRecent_mem (s : State) (core ctx : Nat) (segs : List (Nat × Nat)) :
    (dropRecent s core ctx segs).mem = s.mem := by simp [dropRecent, apply_ite State.mem]

@[simp] theorem releaseBar_mem (s : State) (stroke : Nat) : (releaseBar s stroke).mem = s.mem := rfl

@[simp] theorem panelError_mem (s : State) (panel : Nat) (f : ChunkFault) : (panelError s panel f).mem = s.mem := by
  unfold panelError
  split <;> simp

@[simp] theorem uncorrectable_mem (s : State) (pa ctx : Nat) : (uncorrectable s pa ctx).mem = s.mem := by
  simp [uncorrectable]

@[simp] theorem refusedUpdate_mem (s : State) (panel ctx w : Nat) : (refusedUpdate s panel ctx w).mem = s.mem := by
  simp [refusedUpdate]

@[simp] theorem endPrimer_mem (s : State) (panel : Nat) : (endPrimer s panel).mem = s.mem := by
  unfold endPrimer
  (repeat' split) <;> simp

@[simp] theorem joinMismatch_mem (s : State) (x : Ctxt) (rec : Nat) (r : SplitRec) (addr : VAddr) (tok : Nat) :
    (joinMismatch s x rec r addr tok).mem = s.mem := by
  unfold joinMismatch
  rw [foldl_mem fun u m => by split <;> simp, putSplit_mem]

@[simp] theorem joinElsewhere_mem (s : State) (x : Ctxt) (e : JoinEntry) (addr : VAddr) (lanes : Mask) :
    Yields (fun t => t.mem = s.mem) (joinElsewhere s x e addr lanes) := by
  unfold joinElsewhere
  split
  · simp
  · simp

@[simp] theorem blockAgent_mem (s : State) (aid : Nat) (k : WaitKind) : (blockAgent s aid k).mem = s.mem := by
  unfold blockAgent
  split <;> simp

@[simp] theorem joinArrive_mem (s : State) (x : Ctxt) (a : Agent) (e : JoinEntry) (lanes : Mask) :
    Yields (fun t => t.mem = s.mem) (joinArrive s x a e lanes) := by
  unfold joinArrive
  dsimp only
  split
  · simp
  · split
    · simp
    · split
      · exact joinElsewhere_mem ..
      · split
        · simp
        · exact .seq fun _ => by simp

@[simp] theorem startSerial_mem (s : State) (aid : Nat) (a : Agent) (e : JoinEntry) (groups : List (Mask × VAddr))
    (brx : Bool) : (startSerial s aid a e groups brx).mem = s.mem := by
  unfold startSerial
  split <;> simp

@[simp] theorem makeFragments_mem (a : Agent) (aid : Nat) (e : JoinEntry) (s : State) (gs : List (Mask × VAddr)) :
    (makeFragments a aid e s gs).1.mem = s.mem := by
  induction gs generalizing s with
  | nil => rfl
  | cons g t ih =>
    unfold makeFragments
    split
    · rfl
    · simp [ih]

/-! #### Register instructions -/

@[simp] theorem drainSpill_mem (s : State) (q fuel : Nat) : (drainSpill s q fuel).mem = s.mem := by
  induction fuel generalizing s with
  | zero => rfl
  | succ fuel ih =>
    unfold drainSpill
    split
    · rfl
    · split
      · rfl
      · split
        · rfl
        · simp [ih]

@[simp] theorem takeEntries_mem (s : State) (q n : Nat) : (takeEntries s q n).1.mem = s.mem := by
  induction n generalizing s with
  | zero => rfl
  | succ n ih =>
    unfold takeEntries
    split
    · rfl
    · split
      · rfl
      · simp [ih]

@[simp] theorem pullGroup_mem (s : State) (x : Ctxt) (c need : Nat) : (pullGroup s x c need).1.mem = s.mem := by
  unfold pullGroup
  dsimp only
  (repeat' split) <;> simp

/-- As `foldl_mem`, for a fold that carries more than the state. -/
theorem foldl_mem_fst {α β : Type} {f : State × β → α → State × β} (h : ∀ r x, (f r x).1.mem = r.1.mem) (l : List α)
    (r : State × β) : (l.foldl f r).1.mem = r.1.mem := by
  induction l generalizing r with
  | nil => rfl
  | cons x l ih => rw [List.foldl_cons, ih, h]

@[simp] theorem pullAll_mem (s : State) (x : Ctxt) (srcs : List Src) : (pullAll s x srcs).1.mem = s.mem := by
  unfold pullAll
  refine foldl_mem_fst (fun r i => ?_) _ _
  split
  · split <;> simp
  · rfl

@[simp] theorem gather_mem (s : State) (x0 : Ctxt) (is : Issue) (km : Nat) (pl : Place) (reads : List Ref)
    (uni : List Nat) (always : Bool) :
    Yields (fun r => r.1.mem = s.mem) (gather s x0 is km pl reads uni always) := by
  unfold gather
  refine .seq fun _ => .bind (switchMark_mem ..) fun r hr => .seq fun _ => ?_
  extract_lets -underBinder rest
  have hrest : ∀ u, Yields (fun r => r.1.mem = s.mem) (rest u) := fun _ => by
    refine .seq fun _ => .seq fun _ => .seq fun _ => .seq fun _ => .seq fun _ => ?_
    dsimp only
    exact .seq fun _ => by simp [hr]
  split
  · exact .guard hrest
  · exact hrest ()

@[simp] theorem reserveFor_mem (s : State) (x : Ctxt) (freed adds : List Nat) :
    Yields (fun t => t.mem = s.mem) (reserveFor s x freed adds) := by
  unfold reserveFor
  dsimp only
  (repeat' split) <;> simp

@[simp] theorem freeNames_mem (s : State) (aid : Nat) (ns : List Nat) : (freeNames s aid ns).mem = s.mem := by
  unfold freeNames
  split <;> simp

@[simp] theorem popChan_mem (s : State) (panel c : Nat) : (popChan s panel c).mem = s.mem := by
  unfold popChan
  (repeat' split) <;> simp

@[simp] theorem acquireInvalidate_mem (s : State) (core : Nat) : (acquireInvalidate s core).mem = s.mem := rfl

@[simp] theorem chanAcquire_mem (s : State) (panel c : Nat) : (chanAcquire s panel c).mem = s.mem := by
  unfold chanAcquire
  (repeat' split) <;> simp

@[simp] theorem popAll_mem (s : State) (panel : Nat) (srcs : List Src) : (popAll s panel srcs).mem = s.mem := by
  unfold popAll
  refine foldl_mem (fun u e => ?_) _ _
  (repeat' split) <;> simp

@[simp] theorem protect_mem (s : State) (aid : Nat) (lanes : Mask) (dsts : List Ref) :
    (protect s aid lanes dsts).mem = s.mem := by
  unfold protect
  split <;> simp

@[simp] theorem addResult_mem (s : State) (r : Result) : (addResult s r).mem = s.mem := rfl

@[simp] theorem writeV_mem (s : State) (aid : Nat) (w : VWrite) : (writeV s aid w).mem = s.mem := by
  unfold writeV
  (repeat' split) <;> simp

@[simp] theorem readPtp_mem (s : State) (st : Nat) (t : Option DWord) : (readPtp s st t).mem = s.mem := by
  unfold readPtp
  split <;> simp

@[simp] theorem setFlags_mem (s : State) (st : Nat) (fl : BitVec 6) : (setFlags s st fl).mem = s.mem := by
  unfold setFlags
  split <;> simp

@[simp] theorem applyWrites_mem (s : State) (aid : Nat) (w : Writes) : (applyWrites s aid w).mem = s.mem := by
  unfold applyWrites
  have hv : (w.v.foldl (fun t x => writeV t aid x) s).mem = s.mem := foldl_mem (fun _ _ => by simp) _ _
  dsimp only
  split
  · exact hv
  · (repeat' split) <;> simp [hv]

@[simp] theorem bumpStep_mem (s : State) (aid : Nat) : (bumpStep s aid).mem = s.mem := by
  unfold bumpStep
  split <;> simp

@[simp] theorem writeBack_mem (s : State) (x : Ctxt) (is : Issue) (lanes : Mask) (w : Writes) :
    (writeBack s x is lanes w).mem = s.mem := by simp [writeBack, apply_ite State.mem]

@[simp] theorem commitRegs_mem (s : State) (x : Ctxt) (is : Issue) (lanes : Mask) (w : Writes) :
    Yields (fun t => t.mem = s.mem) (commitRegs s x is lanes w) := by
  unfold commitRegs
  exact .bind (reserveFor_mem ..) fun t ht => by simpa using ht

@[simp] theorem regInstr_mem (s : State) (is : Issue) (km : Nat) (pl : Place) (reads : List Ref) (uni : List Nat)
    (always : Bool) (f : Ctxt → Mask → List (Nat → Nat) → Eff Writes) :
    (regInstr s is km pl reads uni always f).mem = s.mem := by
  refine runAgent_keeps (P := (· = s.mem)) rfl fun _ => .bind (gather_mem ..) fun r hr => ?_
  have commit : ∀ x is lanes w, Yields (fun t => t.mem = s.mem) (commitRegs r.1 x is lanes w) :=
    fun x is lanes w => (commitRegs_mem ..).mono fun _ h => h.trans hr
  dsimp only
  split
  · exact .seq fun _ => commit ..
  · exact .seq fun _ => commit ..

@[simp] theorem lanewise_mem (s : State) (h : Hdr) (pl : Place) (late : Bool) (d : Dst) (td : Ty)
    (srcs : List (Src × Nat)) (f : List Nat → Nat) (size : Nat) :
    (lanewise s h pl late d td srcs f size).mem = s.mem := by simp [lanewise]

@[simp] theorem intOp2_mem (s : State) (h : Hdr) (late : Bool) (t : Ty) (d : Dst) (a b : Opd)
    (f : Nat → Nat → Nat) : (intOp2 s h late t d a b f).mem = s.mem := by simp [intOp2]

@[simp] theorem intOp3_mem (s : State) (h : Hdr) (t : Ty) (d : Dst) (a b c : Opd) (f : Nat → Nat → Nat → Nat) :
    (intOp3 s h t d a b c f).mem = s.mem := by simp [intOp3]

@[simp] theorem intOp1_mem (s : State) (h : Hdr) (t td : Ty) (d : Dst) (a : Opd) (f : Nat → Nat) :
    (intOp1 s h t td d a f).mem = s.mem := by simp [intOp1]

@[simp] theorem intOpCount_mem (s : State) (h : Hdr) (t : Ty) (d : Dst) (a b : Opd) (f : Nat → Nat → Nat) :
    (intOpCount s h t d a b f).mem = s.mem := by simp [intOpCount]

@[simp] theorem floatOp_mem (s : State) (h : Hdr) (late : Bool) (t : Ty) (pk : Bool) (rnd : Option Rnd) (d : Dst)
    (srcs : List Src) (f : RMode → List Nat → Nat × BitVec 6) (size : Nat) (tr : Ty) :
    (floatOp s h late t pk rnd d srcs f size tr).mem = s.mem := by simp [floatOp]

@[simp] theorem float2_mem (s : State) (h : Hdr) (late : Bool) (t : Ty) (m : FMode) (d : Dst) (a b : Opd)
    (f : Rnd → Fl → Fl → Fl × BitVec 6) : (float2 s h late t m d a b f).mem = s.mem := by simp [float2]

@[simp] theorem float1_mem (s : State) (h : Hdr) (late : Bool) (t : Ty) (m : FMode) (d : Dst) (a : Opd)
    (f : RMode → Fl → Nat × BitVec 6) : (float1 s h late t m d a f).mem = s.mem := by simp [float1]

@[simp] theorem writeSreg_mem (s : State) (x : Ctxt) (r : SReg) (v : DWord) : (writeSreg s x r v).mem = s.mem := by
  unfold writeSreg
  split <;> simp

/-! #### Loads, stores and atomics -/

@[simp] theorem memGather_mem (s : State) (x0 : Ctxt) (h : Hdr) (pl : Place) (m : MAddr) (extra : List Src)
    (dsts : List Ref) (straddle : Option (Nat × Nat)) (push : Option Nat) :
    Yields (fun r => r.1.mem = s.mem) (memGather s x0 h pl m extra dsts straddle push) := by
  unfold memGather
  refine .seq fun _ => .bind (switchMark_mem ..) fun r hr => .seq fun _ => ?_
  extract_lets -underBinder rest
  have hrest : ∀ u, Yields (fun r => r.1.mem = s.mem) (rest u) := fun _ => by
    refine .seq fun _ => .seq fun _ => .seq fun _ => .seq fun _ => .seq fun _ => ?_
    dsimp only
    exact .seq fun _ => by simp [hr]
  split
  · exact .guard hrest
  · exact hrest ()

theorem memInstr_keeps {P : Memory → Prop} {s : State} {h : Hdr} {pl : Place} {m : MAddr} {extra : List Src}
    {dsts : List Ref} {straddle : Option (Nat × Nat)} {push : Option Nat}
    {body : State → Ctxt → Mask → List Src → List (Nat → Nat) → Eff State} (hs : P s.mem)
    (hb : ∀ t x l ss vs, t.mem = s.mem → Yields (fun u => P u.mem) (body t x l ss vs)) :
    P (memInstr s h pl m extra dsts straddle push body).mem :=
  runAgent_keeps hs fun _ => .bind (memGather_mem ..) fun r hr => hb r.1 r.2.1 _ _ _ hr

@[simp] theorem issueRegs_mem (s : State) (x : Ctxt) (srcs : List Src) (adds : List Nat) :
    Yields (fun t => t.mem = s.mem) (issueRegs s x srcs adds) := by
  unfold issueRegs
  exact .bind (reserveFor_mem ..) fun t ht => by simpa using ht

@[simp] theorem commitIdle_mem (s : State) (x : Ctxt) (srcs : List Src) (lanes : Mask) (dsts : List Ref)
    (size : Nat) : Yields (fun t => t.mem = s.mem) (commitIdle s x srcs lanes dsts size) := by
  unfold commitIdle
  exact .bind (issueRegs_mem ..) fun t ht => by simpa using ht

@[simp] theorem acquirePerformed_mem (s : State) (core : Nat) (ord : MOrd) (scp : Scope) :
    (acquirePerformed s core ord scp).mem = s.mem := by
  unfold acquirePerformed
  split <;> simp

@[simp] theorem issueRead_mem (s : State) (x : Ctxt) (srcs : List Src) (lanes : Mask) (dsts : List Ref) (size : Nat)
    (r : Result) : Yields (fun t => t.mem = s.mem) (issueRead s x srcs lanes dsts size r) := by
  unfold issueRead
  exact .bind (issueRegs_mem ..) fun t ht => by simpa using ht

@[simp] theorem addAcks_mem (s : State) (stroke str lines : Nat) : (addAcks s stroke str lines).mem = s.mem := by
  unfold addAcks
  split <;> simp

@[simp] theorem addPacket_mem (s : State) (p : Packet) : (addPacket s p).mem = s.mem := by simp [addPacket]

@[simp] theorem sendPackets_mem (s : State) (p : Packet) (groups : List (List PacketPart)) :
    (sendPackets s p groups).mem = s.mem := by simp [sendPackets, foldl_mem]

@[simp] theorem issueWrites_mem (s : State) (x : Ctxt) (srcs : List Src) (lanes : Mask) (m : MAddr) (op : PacketOp)
    (groups : List (List PacketPart)) (size : Nat) (flagged : Bool) :
    Yields (fun t => t.mem = s.mem) (issueWrites s x srcs lanes m op groups size flagged) := by
  unfold issueWrites
  have issue : Yields (fun t => t.mem = s.mem) (issueRegs s x srcs []) := issueRegs_mem ..
  dsimp only
  split
  · exact .seq fun _ => .seq fun _ => .bind issue fun t ht => by simp [apply_ite State.mem, ht]
  · exact .seq fun _ => .bind issue fun t ht => by simp [apply_ite State.mem, ht]

@[simp] theorem countWalk_mem (s : State) (ctx : Nat) (f : AddrFault) : (countWalk s ctx f).mem = s.mem := by
  unfold countWalk
  split <;> simp

@[simp] theorem fillLine_mem (s : State) (core ctx pa : Nat) (keep : Bool) :
    (fillLine s core ctx pa keep).mem = s.mem := by simp [fillLine]

@[simp] theorem issueAtomic_mem (s : State) (x : Ctxt) (srcs : List Src) (lanes : Mask) (m : MAddr) (d : Dst)
    (regs : Nat) (op : PacketOp) (groups : List (List PacketPart)) (ps : List Placed) (after : Bool) :
    Yields (fun t => t.mem = s.mem) (issueAtomic s x srcs lanes m d regs op groups ps after) := by
  unfold issueAtomic
  dsimp only
  split
  · exact .seq fun _ => .seq fun _ => .bind (issueRegs_mem ..) fun t ht => by simp [ht]
  · exact .seq fun _ => .bind (issueRegs_mem ..) fun t ht => by simp [ht]

/-! #### Wide instructions, windows and channels -/

@[simp] theorem wideGather_mem (s : State) (x0 : Ctxt) (h : Hdr) (pl : Place) (srcs : List Src) (refs : List Ref) :
    Yields (fun r => r.1.mem = s.mem) (wideGather s x0 h pl srcs refs) := by
  unfold wideGather
  refine .seq fun _ => .bind (switchMark_mem ..) fun r hr => ?_
  exact .seq fun _ => .seq fun _ => .seq fun _ => .seq fun _ => .seq fun _ => by simp [hr]

theorem wideInstr_keeps {P : Memory → Prop} {s : State} {h : Hdr} {pl : Place} {srcs : List Src} {refs : List Ref}
    {body : State → Ctxt → Mask → List Nat → Eff State} (hs : P s.mem)
    (hb : ∀ t x l vs, t.mem = s.mem → Yields (fun u => P u.mem) (body t x l vs)) :
    P (wideInstr s h pl srcs refs body).mem :=
  runAgent_keeps hs fun _ => .bind (wideGather_mem ..) fun r hr => hb r.1 r.2.1 _ _ hr

@[simp] theorem addFence_mem (s : State) (aid : Nat) (m : BitVec 16) : (addFence s aid m).mem = s.mem := by
  unfold addFence
  split <;> simp

@[simp] theorem clearBad_mem (s : State) (segs : List (Nat × Nat)) : (clearBad s segs).mem = s.mem := rfl

@[simp] theorem readFree_mem (s : State) (ctx : Nat) (segs : List (Nat × Nat)) : (readFree s ctx segs).2.mem = s.mem := by
  simp [readFree, apply_ite State.mem]

@[simp] theorem refreshNear_mem (s : State) (core ctx : Nat) (segs : List (Nat × Nat)) :
    (refreshNear s core ctx segs).mem = s.mem := by
  unfold refreshNear
  split <;> simp

@[simp] theorem homeRead_mem (s : State) (core ctx : Nat) (segs : List (Nat × Nat)) :
    (homeRead s core ctx segs).mem = s.mem := by simp [homeRead]

@[simp] theorem putScalar_mem (s : State) (aid n : Nat) (v : Nat) : (putScalar s aid n v).mem = s.mem := by
  unfold putScalar
  split <;> simp

@[simp] theorem normCopies_mem (s : State) (core ctx : Nat) (g : Nat × Nat) :
    (normCopies s core ctx g).mem = s.mem := by
  unfold normCopies
  refine foldl_mem (fun u e => ?_) _ _
  (repeat' split) <;> simp

@[simp] theorem readPiece_mem (s : State) (core ctx : Nat) (pub : Bool) (g : Nat × Nat) :
    (readPiece s core ctx pub g).1.mem = s.mem := by
  unfold readPiece
  (repeat' split) <;> simp

@[simp] theorem readUnit_mem (core ctx : Nat) (pubs : List (Nat × Nat)) (s : State) (segs : List (Nat × Nat)) :
    (readUnit core ctx pubs s segs).1.mem = s.mem := by
  induction segs generalizing s with
  | nil => rfl
  | cons g t ih => simp [readUnit, ih]

@[simp] theorem tookAnswer_mem (s : State) (ctx : Nat) (segs : List (Nat × Nat)) :
    (tookAnswer s ctx segs).mem = s.mem := by
  unfold tookAnswer
  split <;> simp

@[simp] theorem readNow_mem (s : State) (x : Ctxt) (lanes : Mask) (ps : List Placed) :
    Yields (fun r => r.1.mem = s.mem) (readNow s x lanes ps) := by
  unfold readNow
  dsimp only
  (repeat' split) <;> simp

@[simp] theorem readWindow_mem (s : State) (x : Ctxt) (lanes : Mask) (c w : Nat) :
    Yields (fun r => r.1.mem = s.mem) (readWindow s x lanes c w) := by
  unfold readWindow
  exact .seq fun _ => .bind (readNow_mem ..) fun r hr => by simpa using hr

@[simp] theorem putChan_mem (s : State) (x : Ctxt) (c : Nat) (ch : Chan) : (putChan s x c ch).mem = s.mem := rfl

theorem bindChan_keeps {P : Memory → Prop} {s : State} {h : Hdr} {c size : Nat} {srcs : List Src}
    {f : State → Ctxt → Mask → List Nat → Eff (State × Chan)} (hs : P s.mem)
    (hf : ∀ t x l vs, t.mem = s.mem → Yields (fun r => P r.1.mem) (f t x l vs)) :
    P (bindChan s h c size srcs f).mem := by
  refine wideInstr_keeps hs fun t x l vs ht => ?_
  dsimp only
  split
  · simp
  · exact .bind (hf t x l vs ht) fun r hr => by simpa using hr

/-! #### Matrix instructions -/

@[simp] theorem claim_mem (s : State) (x : Ctxt) : Yields (fun r => r.1.mem = s.mem) (claim s x) := by
  unfold claim
  (repeat' split) <;> simp

@[simp] theorem matGather_mem (s : State) (x0 : Ctxt) (h : Hdr) (ss : List Src) (refs : List Ref) (uni : List Nat)
    (pre : State → Ctxt → List (Nat → Nat) → Eff Unit) :
    Yields (fun r => r.1.mem = s.mem) (matGather s x0 h ss refs uni pre) := by
  unfold matGather
  dsimp only
  refine .seq fun _ => .bind (switchMark_mem ..) fun r hr => ?_
  refine .seq fun _ => .seq fun _ => .seq fun _ => .seq fun _ => ?_
  split
  · simp
  · refine .seq fun _ => .seq fun _ => .seq fun _ => .bind (claim_mem ..) fun q hq => ?_
    simpa [hr] using hq

theorem matInstr_keeps {P : Memory → Prop} {s : State} {h : Hdr} {srcs : Nat → List Src} {refs : List Ref}
    {uni : List Nat} {body : State → Ctxt → Matrix → Mask → List Src → List (Nat → Nat) → Eff State}
    {pre : Mask → State → Ctxt → List (Nat → Nat) → Eff Unit} (hs : P s.mem)
    (hb : ∀ t x m l ss vs, t.mem = s.mem → Yields (fun u => P u.mem) (body t x m l ss vs)) :
    P (matInstr s h srcs refs uni body pre).mem :=
  runAgent_keeps hs fun _ => .bind (matGather_mem ..) fun r hr => hb r.1 r.2.1 r.2.2.1 _ _ _ hr

@[simp] theorem startFill_mem (s : State) (x : Ctxt) (lanes : Mask) (isB : Bool) (idx f n base : Nat) (d : MDesc)
    (rows : Nat → Nat) : Yields (fun t => t.mem = s.mem) (startFill s x lanes isB idx f n base d rows) := by
  unfold startFill
  exact .seq fun _ => .seq fun _ => by simp

@[simp] theorem trapMembers_mem (s : State) (core : Nat) (m : Matrix) (ms : List (Nat × Member)) (t : Trap) :
    (trapMembers s core m ms t).mem = s.mem := by
  unfold trapMembers
  refine foldl_mem (fun u e => ?_) _ _
  (repeat' split) <;> simp

@[simp] theorem stopMembers_mem (s : State) (ms : List (Nat × Member)) : (stopMembers s ms).mem = s.mem := by
  unfold stopMembers
  refine foldl_mem (fun u e => ?_) _ _
  (repeat' split) <;> simp

@[simp] theorem commitMembers_mem (s : State) (ms : List (Nat × Member)) : (commitMembers s ms).mem = s.mem := by
  unfold commitMembers
  refine foldl_mem (fun u e => ?_) _ _
  (repeat' split) <;> simp

@[simp] theorem jointMma_mem (s : State) (core : Nat) (m : Matrix) (ms : List (Nat × Member)) :
    (jointMma s core m ms).mem = s.mem := by
  unfold jointMma
  dsimp only
  (repeat' split) <;> simp

@[simp] theorem arriveMma_mem (s : State) (x : Ctxt) (m : Matrix) (lanes : Mask) (e : Member) :
    Yields (fun t => t.mem = s.mem) (arriveMma s x m lanes e) := by
  unfold arriveMma
  extract_lets -underBinder run await named
  have hrun : ∀ ms, Yields (fun t => t.mem = s.mem) (run ms) := fun _ => .guard fun _ => by simp
  have hawait : ∀ ms, Yields (fun t => t.mem = s.mem) (await ms) := fun _ => by simp [await]
  refine .ite (by simp) (.ite (by simp) ?_)
  split
  · exact .ite (hrun _) (hawait _)
  · exact .ite (by simp) (.ite (hrun _) (hawait _))

theorem tileInstr_keeps {P : Memory → Prop} {s : State} {h : Hdr} {tile : Nat} {srcs : List Src} {refs : List Ref}
    {body : State → Ctxt → Matrix → Mask → List (Nat → Nat) → Eff State} (hs : P s.mem)
    (hb : ∀ t x m l vs, t.mem = s.mem → Yields (fun u => P u.mem) (body t x m l vs)) :
    P (tileInstr s h tile srcs refs body).mem :=
  matInstr_keeps hs fun t x m l _ vs ht => by
    split
    · exact yields_error _
    · exact hb t x m l vs ht

@[simp] theorem putTile_mem (s : State) (core : Nat) (m : Matrix) (t : Nat) (v : Tile) :
    (putTile s core m t v).mem = s.mem := rfl

@[simp] theorem readImage_mem (s : State) (h : Hdr) (add : Bool) (tile base str : Nat) :
    (readImage s h add tile base str).mem = s.mem := by
  refine tileInstr_keeps (P := (· = s.mem)) rfl fun t x m lanes vs ht => ?_
  exact .seq fun segs => by simpa using ht

/-! #### Set instructions -/

@[simp] theorem setGather_mem (s : State) (x0 : Ctxt) (h : Hdr) (srcs : List Src) (dsts : List Ref)
    (uni : List Nat) : Yields (fun r => r.1.mem = s.mem) (setGather s x0 h srcs dsts uni) := by
  unfold setGather
  refine .seq fun _ => .bind (switchMark_mem ..) fun r hr => .seq fun _ => .seq fun _ => .guard fun _ => ?_
  exact .seq fun _ => .seq fun _ => by simp [hr]

@[simp] theorem setInstr_mem (acc : Bool) (i : Instr) (s : State) (h : Hdr) (size : Nat) (srcs : List Src)
    (dsts : List Ref) (uni hands : List Nat) (body : State → Ctxt → Mask → List (Nat → Nat) → Eff SetPlan) :
    (setInstr acc i s h size srcs dsts uni hands body).mem = s.mem := by
  refine runAgent_keeps (P := (· = s.mem)) rfl fun _ => .bind (setGather_mem ..) fun r hr => ?_
  obtain ⟨s0, y⟩ := r
  have hp : (pullAll s0 y srcs).1.mem = s.mem := by rw [pullAll_mem, hr]
  dsimp -zeta only
  generalize pullAll s0 y srcs = q at hp ⊢
  obtain ⟨s1, x⟩ := q
  dsimp -zeta only at hp ⊢
  refine .seq fun vs => .ite ((commitIdle_mem ..).mono fun t ht => ht.trans hp) ?_
  extract_lets -underBinder lo hs issue
  suffices hissue : ∀ u, Yields (fun t => t.mem = s.mem) (issue u) from .ite (by simp) (hissue ())
  refine fun _ => .ite (by simp [hp]) ?_
  extract_lets -underBinder accept
  suffices haccept : ∀ u, Yields (fun t => t.mem = s.mem) (accept u) by
    split
    · simp
    · exact haccept ()
  refine fun _ => .seq fun p => ?_
  extract_lets -underBinder op writes start
  suffices hstart : ∀ t, t.mem = s1.mem → Yields (fun t => t.mem = s.mem) (start t) from
    .ite (.bind (reserveFor_mem ..) hstart) (.bind (issueRegs_mem ..) hstart)
  intro t ht
  unfold start
  extract_lets -underBinder s2 id s3 op1 s4
  have h4 : s4.mem = s.mem := by simp [s4, s3, s2, apply_ite State.mem, ht, hp]
  clear_value s4
  split
  · simpa using h4
  · exact .ite (by simp [h4]) (by simp [h4])

@[simp] theorem snewStep_mem (acc : Bool) (h : Hdr) (d : Dst) (u opt : Opd) (s : State) :
    (snewStep acc h d u opt s).mem = s.mem := by simp [snewStep]

@[simp] theorem sdelStep_mem (acc : Bool) (h : Hdr) (a : Opd) (s : State) : (sdelStep acc h a s).mem = s.mem := by
  simp [sdelStep]

@[simp] theorem updateStep_mem (acc : Bool) (i : Instr) (h : Hdr) (ins : Bool) (d : Option Nat) (a b : Opd)
    (s : State) : (updateStep acc i h ins d a b s).mem = s.mem := by simp [updateStep]

@[simp] theorem sinsStep_mem (acc : Bool) (h : Hdr) (d : Option Nat) (a b : Opd) (s : State) :
    (sinsStep acc h d a b s).mem = s.mem := by simp [sinsStep]

@[simp] theorem sremStep_mem (acc : Bool) (h : Hdr) (d : Option Nat) (a b : Opd) (s : State) :
    (sremStep acc h d a b s).mem = s.mem := by simp [sremStep]

@[simp] theorem shasStep_mem (acc : Bool) (h : Hdr) (d : MDst) (a b : Opd) (s : State) :
    (shasStep acc h d a b s).mem = s.mem := by simp [shasStep]

@[simp] theorem scardStep_mem (acc : Bool) (h : Hdr) (d : Nat) (a : Opd) (s : State) :
    (scardStep acc h d a s).mem = s.mem := by simp [scardStep]

@[simp] theorem binaryStep_mem (acc : Bool) (i : Instr) (h : Hdr) (op : Nat) (card : Option Nat) (d a b : Opd)
    (s : State) : (binaryStep acc i h op card d a b s).mem = s.mem := by simp [binaryStep]

@[simp] theorem sandStep_mem (acc : Bool) (h : Hdr) (card : Option Nat) (d a b : Opd) (s : State) :
    (sandStep acc h card d a b s).mem = s.mem := by simp [sandStep]

@[simp] theorem sorStep_mem (acc : Bool) (h : Hdr) (card : Option Nat) (d a b : Opd) (s : State) :
    (sorStep acc h card d a b s).mem = s.mem := by simp [sorStep]

@[simp] theorem ssubStep_mem (acc : Bool) (h : Hdr) (card : Option Nat) (d a b : Opd) (s : State) :
    (ssubStep acc h card d a b s).mem = s.mem := by simp [ssubStep]

@[simp] theorem sxorStep_mem (acc : Bool) (h : Hdr) (card : Option Nat) (d a b : Opd) (s : State) :
    (sxorStep acc h card d a b s).mem = s.mem := by simp [sxorStep]

@[simp] theorem sitrStep_mem (acc : Bool) (h : Hdr) (sc d : Nat) (a b : Opd) (s : State) :
    (sitrStep acc h sc d a b s).mem = s.mem := by simp [sitrStep]

@[simp] theorem scostStep_mem (acc : Bool) (h : Hdr) (op d : Nat) (a b c : Opd) (s : State) :
    (scostStep acc h op d a b c s).mem = s.mem := by simp [scostStep]

@[simp] theorem sinfoStep_mem (acc : Bool) (h : Hdr) (d : Nat) (a b : Opd) (key : Nat) (s : State) :
    (sinfoStep acc h d a b key s).mem = s.mem := by simp [sinfoStep]

@[simp] theorem sinfoPinStep_mem (acc : Bool) (h : Hdr) (a b : Opd) (s : State) :
    (sinfoPinStep acc h a b s).mem = s.mem := by simp [sinfoPinStep]

@[simp] theorem srankStep_mem (acc : Bool) (h : Hdr) (sel : Bool) (d : Nat) (a b : Opd) (s : State) :
    (srankStep acc h sel d a b s).mem = s.mem := by simp [srankStep]

@[simp] theorem sloadStep_mem (acc : Bool) (h : Hdr) (str : Nat) (d : Dst) (base : Nat) (s : State) :
    (sloadStep acc h str d base s).mem = s.mem := by simp [sloadStep]

@[simp] theorem sstoreStep_mem (acc : Bool) (h : Hdr) (str d : Nat) (a : Opd) (base lim : Nat) (start : Option Word)
    (s : State) : (sstoreStep acc h str d a base lim start s).mem = s.mem := by simp [sstoreStep]

@[simp] theorem acceptInstr_mem (i : Instr) (s : State) : (acceptInstr i s).mem = s.mem := by
  unfold acceptInstr
  split <;> simp

@[simp] theorem metBad_mem (s : State) (ctx : Nat) (b : Nat × Option Nat) : (metBad s ctx b).mem = s.mem := by
  unfold metBad
  split <;> simp

@[simp] theorem readForSet_mem (s : State) (op : SetOp) (va n : Nat) : (readForSet s op va n).1.mem = s.mem := by
  unfold readForSet
  dsimp only
  (repeat' split) <;> simp

@[simp] theorem trapSet_mem (s : State) (id : Nat) (op : SetOp) (c : Cause) (addr : Nat) (aux : DWord) :
    (trapSet s id op c addr aux).mem = s.mem := by
  unfold trapSet
  dsimp only
  split <;> simp

@[simp] theorem resumeSet_mem (s : State) (op : SetOp) : (resumeSet s op).mem = s.mem := by
  unfold resumeSet
  split <;> simp

@[simp] theorem addLate_mem (s : State) (aid id : Nat) (t : Trap) : (addLate s aid id t).mem = s.mem := by
  unfold addLate
  split <;> simp

@[simp] theorem writeSstat_mem (s : State) (op : SetOp) (o : SetStat) : (writeSstat s op o).mem = s.mem := by
  unfold writeSstat
  (repeat' split) <;> simp

@[simp] theorem finishSet_mem (s : State) (id : Nat) (op : SetOp) (o : SetOut) :
    (finishSet s id op o).mem = s.mem := by
  unfold finishSet
  (repeat' split) <;> simp

@[simp] theorem completeSload_mem (s : State) (id : Nat) (op : SetOp) (base : Nat) :
    (completeSload s id op base).mem = s.mem := by
  unfold completeSload
  have first := readForSet_mem s op base 16
  split
  next s1 _ _ _ h => simpa [h] using first
  next s1 hdr h =>
    have hs1 : s1.mem = s.mem := by simpa [h] using first
    have second := readForSet_mem s1 op (base + 16) (4 * ofBytes ((hdr.drop 4).take 4))
    dsimp only
    split
    next s2 _ _ _ h2 => simp [h2, hs1] at second; simpa using second
    next s2 bs h2 =>
      have hs2 : s2.mem = s.mem := by rw [h2] at second; exact second.trans hs1
      split
      · simpa using hs2
      · split
        · exact hs2
        · simpa using hs2

@[simp] theorem endReading_mem (s : State) (ctx id : Nat) : (endReading s ctx id).mem = s.mem := by
  unfold endReading
  split <;> simp

@[simp] theorem sendSstore_mem (s : State) (id : Nat) (op : SetOp) (str count : Nat) :
    (sendSstore s id op str count).mem = s.mem := by
  unfold sendSstore
  dsimp only
  split
  · split <;> simp [foldl_mem]
  · simp [foldl_mem]

@[simp] theorem fixSstore_mem (s : State) (id : Nat) (op : SetOp) (base lim start : Nat) :
    (fixSstore s id op base lim start).mem = s.mem := by
  unfold fixSstore
  dsimp only
  (repeat' split) <;> simp

@[simp] theorem iterEntry_mem (s : State) (ctx : Nat) (ch : Chan) (w now : Nat) :
    (iterEntry s ctx ch w now).1.mem = s.mem := by
  unfold iterEntry
  (repeat' split) <;> simp

/-! #### Tasks and the Easel -/

@[simp] theorem taskGather_mem (s : State) (x0 : Ctxt) (h : Hdr) (ill : Ctxt → Bool) (srcs : List Src)
    (dsts : List Ref) (uni : List Nat) :
    Yields (fun r => r.1.mem = s.mem) (taskGather s x0 h ill srcs dsts uni) := by
  unfold taskGather
  dsimp only
  refine .seq fun _ => ?_
  split
  · simp
  · refine .bind (switchMark_mem ..) fun r hr => ?_
    exact .seq fun _ => .seq fun _ => .seq fun _ => .seq fun _ => .seq fun _ => by simpa using hr

theorem taskInstr_keeps {P : Memory → Prop} {s : State} {h : Hdr} {ill : Ctxt → Bool} {srcs : List Src}
    {dsts : List Ref} {uni : List Nat} {size : Nat}
    {body : State → Ctxt → Mask → List (Nat → Nat) → Eff (State × Writes)} (hs : P s.mem)
    (hb : ∀ t x l vs, t.mem = s.mem → Yields (fun u => P u.1.mem) (body t x l vs)) :
    P (taskInstr s h ill srcs dsts uni size body).mem := by
  refine runAgent_keeps hs fun _ => .bind (taskGather_mem ..) fun r hr => ?_
  dsimp only
  split
  · exact (commitRegs_mem ..).mono fun t ht => by rw [ht, hr]; exact hs
  · refine .seq fun vs => .bind (hb r.1 r.2 _ vs hr) fun u hu => ?_
    exact (commitRegs_mem ..).mono fun t ht => by rw [ht]; exact hu

@[simp] theorem pushTask_mem (s : State) (core : Nat) (t : Tcb) : (pushTask s core t).mem = s.mem := rfl

@[simp] theorem pushTasks_mem (core : Nat) (tcb : Nat → Tcb) (ls : List Nat) (s : State) :
    (pushTasks core tcb ls s).1.mem = s.mem := by
  induction ls generalizing s with
  | nil => rfl
  | cons l t ih =>
    unfold pushTasks
    split <;> simp [ih]

@[simp] theorem spawnTasks_mem (s : State) (x : Ctxt) (lanes : Mask) (vs : List (Nat → Nat)) (yield : Bool) :
    Yields (fun r => r.1.mem = s.mem) (spawnTasks s x lanes vs yield) := by
  unfold spawnTasks
  exact .seq fun _ => .seq fun _ => by simp

@[simp] theorem takeChunk_mem (s : State) (ctx : Nat) : (takeChunk s ctx).1.mem = s.mem := by
  unfold takeChunk
  (repeat' split) <;> simp

@[simp] theorem takeChunks_mem (ctx : Nat) (ls : List Nat) (s : State) : (takeChunks ctx ls s).1.mem = s.mem := by
  induction ls generalizing s with
  | nil => rfl
  | cons l t ih => simp [takeChunks, ih]

@[simp] theorem readRange_mem (s : State) (x : Ctxt) (lanes : Mask) (va n : Nat) :
    Yields (fun r => r.1.mem = s.mem) (readRange s x lanes va n) := by
  unfold readRange
  exact .seq fun _ => readNow_mem ..

@[simp] theorem readConfigs_mem (s : State) (x : Ctxt) (lanes : Mask) (base n : Nat) :
    Yields (fun r => r.1.mem = s.mem) (readConfigs s x lanes base n) := by
  induction n with
  | zero => simp [readConfigs]
  | succ n ih =>
    unfold readConfigs
    refine .bind ih fun r hr => .bind (readRange_mem ..) fun r2 hr2 => ?_
    dsimp only
    split
    · simp [hr2, hr]
    · exact .bind (readRange_mem ..) fun r3 hr3 => by simp [hr3, hr2, hr]

@[simp] theorem installQueues_mem (q : Nat) (cs : List (List Byte × Option (List Byte))) (s : State) :
    (installQueues q cs s).mem = s.mem := by
  induction cs generalizing q s with
  | nil => rfl
  | cons c t ih =>
    obtain ⟨bs, tb⟩ := c
    unfold installQueues
    rw [ih]
    split <;> rfl

/-! #### System instructions -/

@[simp] theorem sysGather_mem (s : State) (x0 : Ctxt) (h : Hdr) (pl : Place) (reads : List Ref) (b : List Opd)
    (runs : Agent → Bool) (masked : Bool) :
    Yields (fun r => r.1.mem = s.mem) (sysGather s x0 h pl reads b runs masked) := by
  unfold sysGather
  dsimp only
  split
  · simp
  · refine .seq fun _ => .bind (switchMark_mem ..) fun r hr => ?_
    exact .seq fun _ => .seq fun _ => .seq fun _ => .seq fun _ => by simpa using hr

theorem sysInstr_keeps {P : Memory → Prop} {s : State} {h : Hdr} {pl : Place} {reads : List Ref} {b : List Opd}
    {body : State → Ctxt → Mask → DWord → Eff State} {runs : Agent → Bool} {masked : Bool} (hs : P s.mem)
    (hb : ∀ t x l v, t.mem = s.mem → Yields (fun u => P u.mem) (body t x l v)) :
    P (sysInstr s h pl reads b body runs masked).mem :=
  runAgent_keeps hs fun _ => .bind (sysGather_mem ..) fun r hr => hb r.1 r.2.1 _ _ hr

@[simp] theorem tlbiCommon_mem (s : State) (x : Ctxt) (lanes : Mask) (size : Nat) (hit : TlbEntry → Bool) :
    Yields (fun t => t.mem = s.mem) (tlbiCommon s x lanes size hit) := by
  unfold tlbiCommon
  refine .seq fun _ => ?_
  split
  · simp
  · dsimp only
    split <;> simp

/-! #### Results, packets and fills -/

@[simp] theorem dropResult_mem (s : State) (id : Nat) : (dropResult s id).mem = s.mem := rfl

@[simp] theorem failResult_mem (s : State) (id : Nat) (r : Result) (t : Trap) : (failResult s id r t).mem = s.mem := by
  simp [failResult]

@[simp] theorem remoteXlate_mem (s : State) (id : Nat) (r : Result) (bad : List LaneRead) :
    (remoteXlate s id r bad).mem = s.mem := by simp [remoteXlate]

@[simp] theorem fillRow_mem (s : State) (core ctx : Nat) (segs : List (Nat × Nat)) :
    (fillRow s core ctx segs).mem = s.mem := by
  unfold fillRow
  split <;> simp

@[simp] theorem afterHome_mem (s : State) (r : Result) (core : Nat) (lr : LaneRead) (segs : List (Nat × Nat)) :
    (afterHome s r core lr segs).mem = s.mem := by
  unfold afterHome
  dsimp only
  split
  · split
    · split <;> simp
    · rw [foldl_mem fun t g => by split <;> simp, homeRead_mem]
    · rw [foldl_mem fun t g => by split <;> simp, homeRead_mem]
    · simp
  · simp

@[simp] theorem fetchReads_mem (s : State) (r : Result) (core : Nat) (copy : Bool) (ls : List LaneRead)
    (o : List Byte) (t : State) : (fetchReads s r core copy ls o t).1.mem = t.mem := by
  induction ls generalizing o t with
  | nil => rfl
  | cons lr rest ih =>
    unfold fetchReads
    split <;> simp [ih]

@[simp] theorem fillReads_mem (s : State) (r : Result) (core : Nat) (copy : Bool) (which : LaneRead → Bool)
    (others : List Byte) : (fillReads s r core copy which others).1.mem = s.mem := by simp [fillReads]

@[simp] theorem writeResult_mem (s : State) (id : Nat) (r : Result) : (writeResult s id r).mem = s.mem := by
  simp [writeResult]

@[simp] theorem performRead_mem (s : State) (id : Nat) (r : Result) (copy : Bool) (others : List Byte) :
    (performRead s id r copy others).mem = s.mem := by
  unfold performRead
  dsimp only
  split
  · simp
  · split
    · simp [foldl_mem]
    · simp

@[simp] theorem remoteDataErr_mem (s : State) (id : Nat) (r : Result) (bad : List LaneRead) :
    (remoteDataErr s id r bad).mem = s.mem := by simp [remoteDataErr]

@[simp] theorem sendAck_mem (s : State) (k : Packet) (fault : Option Nat) (fl : BitVec 6) :
    (sendAck s k fault fl).mem = s.mem := by
  unfold sendAck
  split <;> simp

@[simp] theorem putResult_mem (s : State) (k : Packet) (r : Option Result) : (putResult s k r).mem = s.mem := by
  unfold putResult
  split <;> simp

@[simp] theorem failPacket_mem (s : State) (k : Packet) (pa : Nat) (remote : Bool) :
    (failPacket s k pa remote).mem = s.mem := by simp [failPacket]

@[simp] theorem updateNear_mem (s : State) (core ctx : Nat) (segs : List (Nat × Nat)) :
    (updateNear s core ctx segs).mem = s.mem := by
  unfold updateNear
  split <;> simp

@[simp] theorem homeWrite_mem (s : State) (core ctx : Nat) (segs : List (Nat × Nat)) :
    (homeWrite s core ctx segs).mem = s.mem := by simp [homeWrite]

@[simp] theorem packetCopies_mem (s : State) (k : Packet) (segs : List (Nat × Nat)) :
    (packetCopies s k segs).mem = s.mem := by
  unfold packetCopies
  split <;> simp

@[simp] theorem groupAck_mem (s : State) (g : Nat) (fl : BitVec 6) : (groupAck s g fl).mem = s.mem := by
  unfold groupAck
  dsimp only
  split <;> simp [apply_ite State.mem]

@[simp] theorem takeAck_mem (s : State) (stroke str lines : Nat) (fault : Option Nat) :
    (takeAck s stroke str lines fault).mem = s.mem := by
  unfold takeAck
  split <;> simp

@[simp] theorem sendMore_mem (s : State) (stroke : Nat) : (sendMore s stroke).mem = s.mem := by
  unfold sendMore
  refine foldl_mem (fun u e => ?_) _ _
  (repeat' split) <;> simp

@[simp] theorem failFill_mem (s : State) (id : Nat) (f : Fill) (c : Cause) (aux : DWord) (addr : Nat) :
    (failFill s id f c aux addr).mem = s.mem := by simp [failFill]

@[simp] theorem parkedTrap_mem (s : State) (aid : Nat) (t : Trap) : (parkedTrap s aid t).mem = s.mem := by
  simp [parkedTrap]

@[simp] theorem endImage_mem (s : State) (aid id : Nat) : (endImage s aid id).mem = s.mem := by
  unfold endImage
  split <;> simp

/-! #### Copies, collectives and deposits -/

@[simp] theorem ringDeliver_mem (s : State) (panel ch fuel : Nat) : (ringDeliver s panel ch fuel).mem = s.mem := by
  induction fuel generalizing s with
  | zero => rfl
  | succ fuel ih =>
    unfold ringDeliver
    split
    · rfl
    · split
      · rfl
      · split
        · rfl
        · split
          · rfl
          · simp [ih]

@[simp] theorem copyDone_mem (s : State) (id : Nat) (c : Copy) : (copyDone s id c).mem = s.mem := by
  unfold copyDone
  dsimp only
  (repeat' split) <;> simp

@[simp] theorem copyAck_mem (s : State) (id : Nat) (c : Copy) (k d : Nat) (fault : Option Nat) :
    (copyAck s id c k d fault).1.mem = s.mem := by
  unfold copyAck
  split <;> simp

@[simp] theorem collSpent_mem (s : State) (c : Coll) : (collSpent s c).mem = s.mem := rfl

@[simp] theorem loseRead_mem (s : State) (id : Nat) : (loseRead s id).mem = s.mem := rfl

@[simp] theorem loseParcel_mem (s : State) (p : Parcel) : (loseParcel s p).mem = s.mem := by
  unfold loseParcel
  split <;> simp

@[simp] theorem lostDest_mem (s : State) (ctx : Nat) (f : ChunkFault) : (lostDest s ctx f).1.mem = s.mem := by
  unfold lostDest
  (repeat' split) <;> simp

@[simp] theorem logFault_mem (s : State) (c : Copy) (f : ChunkFault) : (logFault s c f).mem = s.mem := by
  unfold logFault
  split <;> simp

@[simp] theorem chunkRead_mem (s : State) (c : Copy) (k : Nat) : (chunkRead s c k).mem = s.mem := by simp [chunkRead]

@[simp] theorem collSource_mem (s : State) (c : Coll) : (collSource s c).1.mem = s.mem := by
  unfold collSource
  (repeat' split) <;> simp

@[simp] theorem collSources_mem (s : State) (cs : List (Nat × Coll)) : (collSources s cs).1.mem = s.mem := by
  induction cs generalizing s with
  | nil => rfl
  | cons e t ih => simp [collSources, ih]

@[simp] theorem collRun_mem (s : State) (cm : Comm) (c : Coll)
    (srcs : List ((Nat × Coll) × Except Bool (List Word))) (others : List CollOther) :
    (collRun s cm c srcs others).mem = s.mem := by
  unfold collRun
  refine foldl_mem (fun u e => ?_) _ _
  (repeat' split) <;> simp

@[simp] theorem ackDeposit_mem (s : State) (d : Deposit) (fault : Option Nat) :
    (ackDeposit s d fault).mem = s.mem := by
  unfold ackDeposit
  split <;> simp

@[simp] theorem combEvent_mem (s : State) (d : Deposit) : (combEvent s d).mem = s.mem := rfl

@[simp] theorem rowBytesOf_mem (s : State) (ctx va n : Nat) :
    Yields (fun r => r.2.mem = s.mem) (rowBytesOf s ctx va n) := by
  unfold rowBytesOf
  split
  · split <;> simp
  · split
    · simp
    · split
      · simp
      · split <;> simp

/-! #### Placement of panels -/

@[simp] theorem reportMisses_mem (s : State) (q : Nat) (e : EQueue) (r : CommRec) (batch : List QEntry) :
    (reportMisses s q e r batch).mem = s.mem := by
  unfold reportMisses
  split
  · exact foldl_mem (fun t x => by split <;> simp) _ _
  · rfl

@[simp] theorem addStroke_mem (s : State) (k : Stroke) (pc : VAddr) (regs : Tab DWord) (priv : Nat) (core : Nat) :
    (addStroke s k pc regs priv core).1.mem = s.mem := rfl

@[simp] theorem addStrokes_mem (s : State) (r : CommRec) (panel core : Nat) (regs : Tab DWord) (priv n : Nat) :
    (addStrokes s r panel core regs priv n).1.mem = s.mem := by
  induction n with
  | zero => rfl
  | succ n ih => simpa [addStrokes] using ih

@[simp] theorem addPrimer_mem (s : State) (r : CommRec) (panel : Nat) (regs : Tab DWord) (priv : Nat) :
    (addPrimer s r panel regs priv).1.mem = s.mem := by
  unfold addPrimer
  split <;> simp

@[simp] theorem expertPanel_mem (s : State) (id : Nat) (p : Panel) (r : CommRec) (b : Nat × Nat × List QEntry) :
    (expertPanel s id p r b).mem = s.mem := rfl

@[simp] theorem settled_mem (s : State) : (settled s).mem = s.mem := rfl

@[simp] theorem withoutPanels_mem (s : State) (ps : List Nat) : (withoutPanels s ps).mem = s.mem := rfl

@[simp] theorem afterRelease_mem (s : State) (ps : List Nat) : (afterRelease s ps).mem = s.mem := rfl

@[simp] theorem requestPanels_mem (s : State) (who : Requester) (ps : List Nat) (latency : Nat) :
    (requestPanels s who ps latency).mem = s.mem := rfl

@[simp] theorem reportSlots_mem (s : State) (ctx : Option Nat) : (reportSlots s ctx).mem = s.mem := by
  unfold reportSlots
  (repeat' split) <;> simp

@[simp] theorem followMove_mem (s : State) (mv : List (Nat × Nat)) : (followMove s mv).mem = s.mem := rfl

@[simp] theorem shipTasks_mem (s : State) (victim thief : Nat) : (shipTasks s victim thief).mem = s.mem := rfl

@[simp] theorem countRead_mem (s : State) (ctx : Nat) (met : Option Nat) : (countRead s ctx met).mem = s.mem := by
  cases met with
  | none => rfl
  | some w => simp [countRead]

@[simp] theorem emptied_mem (s : State) : (emptied s).mem = s.mem := rfl

@[simp] theorem updatePaused_mem (s : State) (comm : Nat) : (updatePaused s comm).mem = s.mem := by
  unfold updatePaused
  (repeat' split) <;> simp

@[simp] theorem updateDrain_mem (s : State) (comm : Nat) : (updateDrain s comm).mem = s.mem := by
  unfold updateDrain
  (repeat' split) <;> simp

/-! #### Save areas and pre-emption -/

@[simp] theorem freeArea_mem (s : State) (ctx : Nat) (a : Option (List (Nat × Nat))) :
    (freeArea s ctx a).mem = s.mem := by
  unfold freeArea
  split <;> simp

@[simp] theorem dropPanel_mem (s : State) (id : Nat) (p : Panel) : (dropPanel s id p).mem = s.mem := by
  simp [dropPanel, apply_ite State.mem]

@[simp] theorem owedMiss_mem (s : State) (id : Nat) (p : Panel) : (owedMiss s id p).mem = s.mem := by
  unfold owedMiss
  (repeat' split) <;> simp

@[simp] theorem restartWait_mem (s : State) (aid : Nat) : (restartWait s aid).mem = s.mem := by
  unfold restartWait
  split <;> simp

@[simp] theorem freeAreas_mem (s : State) (g : List (Nat × Panel)) : (freeAreas s g).mem = s.mem := by
  simp [freeAreas, foldl_mem]

@[simp] theorem putReq_mem (s : State) (id : Nat) (r : PreReq) : (putReq s id r).mem = s.mem := by
  unfold putReq
  split <;> simp

/-- Giving a group its save areas changes no memory: an area is written when its panel is saved. -/
theorem giveAreas_mem {s t : State} {g : List (Nat × Panel)} {ctx : Nat} {whole : Bool} {sizes : List Nat}
    {r : PreReq} (h : giveAreas s g ctx whole sizes r = some t) : t.mem = s.mem := by
  simp only [giveAreas, Option.bind_eq_some_iff, Option.map_eq_some_iff] at h
  obtain ⟨c, -, x, -, rfl⟩ := h
  simp [foldl_mem]

@[simp] theorem mergeGroup_mem (s : State) (g : List (Nat × Panel)) (bound : Option Nat) :
    (mergeGroup s g bound).mem = s.mem := by
  unfold mergeGroup
  refine foldl_mem (fun u e => ?_) _ _
  (repeat' split) <;> simp

@[simp] theorem goOnPanels_mem (s : State) (g : List (Nat × Panel)) : (goOnPanels s g).mem = s.mem := rfl

@[simp] theorem putReqs_mem (s : State) (g : List (Nat × Panel)) (r : PreReq) : (putReqs s g r).mem = s.mem := by
  simp [putReqs, foldl_mem]

@[simp] theorem drainFallback_mem (s : State) (g : List (Nat × Panel)) (comm ctx : Nat) (r : PreReq) (bytes : Nat) :
    (drainFallback s g comm ctx r bytes).mem = s.mem := by
  unfold drainFallback
  dsimp only
  split <;> simp

@[simp] theorem beginCkpt_mem (s : State) (id : Nat) (p : Panel) (r : PreReq) :
    (beginCkpt s id p r).mem = s.mem := by
  unfold beginCkpt
  dsimp only
  cases h : giveAreas s (groupPanels s id p) p.ctx false
    ((groupPanels s id p).map fun q => (areaBytes s q.1 q.2 (ckptPlan q.2 (keepOf s (groupPanels s id p)))).length)
    { r with keep := some (keepOf s (groupPanels s id p)) } with
  | none => simp
  | some t => simpa using giveAreas_mem h

@[simp] theorem holdImages_mem (s : State) (id : Nat) (p : Panel) : (holdImages s id p).mem = s.mem := rfl

@[simp] theorem liftPanel_mem (s : State) (id : Nat) (p : Panel) : (liftPanel s id p).mem = s.mem := by
  simp [liftPanel, apply_ite State.mem]

@[simp] theorem unplace_mem (s : State) (p : Panel) (started : Bool) : (unplace s p started).mem = s.mem := by
  unfold unplace
  (repeat' split) <;> simp

@[simp] theorem flushPanel_mem (s : State) (id : Nat) (p : Panel) : (flushPanel s id p).mem = s.mem := by
  simp [flushPanel]

@[simp] theorem metSaving_mem (s : State) (p : Panel) (image : Bool) (tiles : List Tile) :
    (metSaving s p image tiles).mem = s.mem := by
  unfold metSaving
  dsimp only
  rw [foldl_mem fun t _ => by simp]
  split
  · exact foldl_mem (fun t w => by simp) _ _
  · rfl

@[simp] theorem orphanCopies_mem (s : State) (id : Nat) : (orphanCopies s id).mem = s.mem := rfl

@[simp] theorem putTables_mem (s : State) (ks : Tab Stroke) (as : Tab Agent) : (putTables s ks as).mem = s.mem := by
  unfold putTables
  rw [foldl_mem fun t a => by simp, foldl_mem fun t k => by simp]

@[simp] theorem takeArea_mem (s : State) (ctx : Nat) (r : Option PreReq) : (takeArea s ctx r).mem = s.mem := by
  unfold takeArea
  split <;> simp

/-! #### Management requests -/

@[simp] theorem romBoot_mem (s : State) : (romBoot s).mem = s.mem := by
  unfold romBoot
  dsimp only
  split <;> simp

@[simp] theorem takeSample_mem (u : ErrUnit) (margin : Nat) (s : State) : (takeSample u margin s).mem = s.mem := by
  simp [takeSample, apply_ite State.mem]

@[simp] theorem complete_mem (s : State) (name : String) : (complete s name).mem = s.mem := by
  simp [complete, apply_ite State.mem]

/-- What holds of the memory before a request and after its effect holds once it is answered. -/
theorem reply_keeps {P : Memory → Prop} {s : State} (name : String) {a : Answer} (hs : P s.mem)
    (ha : ∀ r, a = some r → P r.1.mem) : P (reply s name a).mem := by
  cases a with
  | none => exact hs
  | some r => exact ha r rfl

theorem takeRequest_keeps {P : Memory → Prop} {s : State} {m : Move} {name : String} {early signed : Bool}
    {f : State → State} (hs : P s.mem) (hf : P (f s).mem) : P (takeRequest s m name early signed f).mem := by
  unfold takeRequest
  split
  · exact hs
  · split
    · exact hs
    · split
      · exact reply_keeps name hs (fun _ h => nomatch h)
      · exact hf

theorem manage_keeps {P : Memory → Prop} {s : State} {i : Instr} {name : String} {early signed : Bool}
    {f : State → Answer} (hs : P s.mem) (hf : ∀ r, f s = some r → P r.1.mem) :
    P (manage s i name early signed f).mem :=
  takeRequest_keeps hs (reply_keeps name hs hf)

theorem devmgr_keeps {P : Memory → Prop} {s : State} {i : Instr} {name : String} {signed : Bool}
    {f : State → Option State} (hs : P s.mem) (hf : ∀ t, f s = some t → P t.mem) :
    P (devmgr s i name signed f).mem :=
  manage_keeps hs fun r hr => by
    obtain ⟨t, ht, rfl⟩ := Option.map_eq_some_iff.mp hr
    exact hf t ht

theorem mapCommand_keeps {P : Memory → Prop} {s : State} {i : Instr} {name : String} {signed : Bool}
    {f : State → Option State} (hs : P s.mem) (hf : ∀ t, f s = some t → P t.mem) :
    P (mapCommand s i name signed f).mem :=
  devmgr_keeps hs fun t ht => by
    split at ht
    · cases ht
    · exact hf t ht

theorem startRequest_keeps {P : Memory → Prop} {s : State} {i : Instr} {name : String} {signed : Bool}
    {f : State → Option State} (hs : P s.mem) (hf : ∀ t, f s = some t → P t.mem) :
    P (startRequest s i name signed f).mem :=
  takeRequest_keeps hs <| by
    split
    · exact hs
    · split
      next u hu => exact hf u hu
      · exact hs

@[simp] theorem stopContext_mem (s : State) (id : Nat) : (stopContext s id).mem = s.mem := rfl

theorem ctxRequest_keeps {P : Memory → Prop} {s : State} {i : Instr} {name : String} {signed : Bool} {ctx : Nat}
    {f : State → Ctx → Option State} (hs : P s.mem) (hf : ∀ c t, f s c = some t → P t.mem) :
    P (ctxRequest s i name signed ctx f).mem :=
  devmgr_keeps hs fun t ht => by
    obtain ⟨c, -, hc⟩ := Option.bind_eq_some_iff.mp ht
    exact hf c t hc

@[simp] theorem armEntry_mem (s : State) (n : Nat) (e : TTEntry) : (armEntry s n e).mem = s.mem := rfl

@[simp] theorem fillRows_mem (q : Fill) (s : State) (rows : List (List (List (Nat × Nat))))
    (seen : List (List (Nat × Nat) × List Byte)) : (fillRows q s rows seen).1.mem = s.mem := by
  induction rows generalizing s seen with
  | nil => rfl
  | cons r t ih =>
    unfold fillRows
    dsimp only
    rw [ih]
    split <;> simp

@[simp] theorem filled_mem (s : State) (f : Fill) : (filled s f).1.mem = s.mem := by
  unfold filled
  dsimp only
  cases unitBad s f.core f.ctx f.pubs (fillSegs f) <;> simp [apply_ite State.mem]

@[simp] theorem placeOperand_mem (s : State) (f : Fill) (o : Operand) : (placeOperand s f o).mem = s.mem := by
  unfold placeOperand
  dsimp only
  split <;> simp [apply_ite State.mem]

/-! #### Issue and what the agenda brings -/

@[simp] theorem markStarted_mem (s : State) (stroke : Nat) : (markStarted s stroke).mem = s.mem := by
  unfold markStarted
  (repeat' split) <;> simp

@[simp] theorem markPanels_mem (s : State) : (markPanels s).mem = s.mem := by
  unfold markPanels
  refine foldl_mem (fun u e => ?_) _ _
  (repeat' split) <;> simp

@[simp] theorem wakeAll_mem (s : State) : (wakeAll s).mem = s.mem := rfl

@[simp] theorem unmarkIssue_mem (s : State) (aid last : Nat) : (unmarkIssue s aid last).mem = s.mem := by
  unfold unmarkIssue
  split <;> simp

@[simp] theorem afterIssue_mem (s u : State) (aid : Nat) (o : Out) :
    (nextOr s (afterIssue u aid o)).mem = (nextOr s o).mem := by
  cases o with
  | next t => simp [afterIssue, apply_ite State.mem]
  | fault f => rfl
  | refused r => rfl

@[simp] theorem deliverPreempt_mem (s : State) (aid : Nat) (a : Agent) : (deliverPreempt s aid a).mem = s.mem := by
  simp [deliverPreempt]

@[simp] theorem markIssue_mem (s : State) (aid : Nat) (a : Agent) : (markIssue s aid a).mem = s.mem := rfl

@[simp] theorem afterRun_mem (s : State) (aid : Nat) (a : Agent) (w : Nat) (o : Out) :
    (nextOr s (afterRun aid a w o)).mem = (nextOr s o).mem := by
  cases o with
  | next t => simp [afterRun, apply_ite State.mem]
  | fault f => rfl
  | refused r => rfl

@[simp] theorem afterFetch_mem (s : State) (a : Agent) (w : Nat) : (afterFetch s a w).mem = s.mem := by
  unfold afterFetch
  dsimp only
  split <;> simp [apply_ite State.mem]

@[simp] theorem arrivePacket_mem (s : State) (p : Packet) : (arrivePacket s p).mem = s.mem := by
  simp [arrivePacket, apply_ite State.mem]

@[simp] theorem arriveCast_mem (s : State) (p : Packet) (sender va : Nat) :
    (arriveCast s p sender va).mem = s.mem := by
  unfold arriveCast
  (repeat' split) <;> simp

@[simp] theorem cachePage_mem (s : State) (ctx va : Nat) : (cachePage s ctx va).mem = s.mem := by
  unfold cachePage
  (repeat' split) <;> simp

@[simp] theorem uncachePage_mem (s : State) (ctx va : Nat) : (uncachePage s ctx va).mem = s.mem := by
  unfold uncachePage
  split <;> simp

@[simp] theorem choosePtp_mem (s : State) (port domain : Nat) : (choosePtp s port domain).mem = s.mem := by
  unfold choosePtp
  split <;> simp

@[simp] theorem enrollKey_mem (s : State) (k : MgmtKey) : (enrollKey s k).mem = s.mem := by
  unfold enrollKey
  split <;> simp

@[simp] theorem assignDevice_mem (s : State) (n : Nat) : (assignDevice s n).mem = s.mem := by
  unfold assignDevice
  split <;> simp

@[simp] theorem bindQp_mem (s : State) (qp ctx : Nat) : (bindQp s qp ctx).mem = s.mem := by
  unfold bindQp
  split <;> simp

@[simp] theorem evictLine_mem (s : State) (core pa : Nat) : (evictLine s core pa).mem = s.mem := rfl

@[simp] theorem dropFetched_mem (s : State) (core ctx line : Nat) : (dropFetched s core ctx line).mem = s.mem := rfl

@[simp] theorem mmaStop_mem (s : State) (core n : Nat) : (mmaStop s core n).mem = s.mem := by
  unfold mmaStop
  split <;> simp

@[simp] theorem performLanes_mem (s : State) (id : Nat) (lanes : Mask) (copy : Bool) :
    (performLanes s id lanes copy).mem = s.mem := by
  unfold performLanes
  dsimp only
  split <;> simp [apply_ite State.mem]

@[simp] theorem upsetWord_mem (s : State) (pa : Nat) : (upsetWord s pa).mem = s.mem := by
  unfold upsetWord
  dsimp only
  split <;> simp [apply_ite State.mem]

@[simp] theorem upsetShadow_mem (s : State) (pa : Nat) : (upsetShadow s pa).mem = s.mem := by
  unfold upsetShadow
  split <;> simp

@[simp] theorem upsetTileRow_mem (s : State) (core tile row : Nat) :
    (upsetTileRow s core tile row).mem = s.mem := by
  unfold upsetTileRow
  dsimp only
  (repeat' split) <;> simp

@[simp] theorem upsetVector_mem (s : State) (stroke name lane : Nat) :
    (upsetVector s stroke name lane).mem = s.mem := by
  unfold upsetVector
  (repeat' split) <;> simp

@[simp] theorem upsetScalar_mem (s : State) (aid n : Nat) : (upsetScalar s aid n).mem = s.mem := by
  unfold upsetScalar
  (repeat' split) <;> simp

@[simp] theorem upsetMask_mem (s : State) (aid n : Nat) : (upsetMask s aid n).mem = s.mem := by
  unfold upsetMask
  (repeat' split) <;> simp

@[simp] theorem upsetOperand_mem (s : State) (core : Nat) (half : Bool) (n : Nat) :
    (upsetOperand s core half n).mem = s.mem := by
  unfold upsetOperand
  dsimp only
  split <;> simp

@[simp] theorem upsetSegment_mem (s : State) (ctx idx seg pa : Nat) :
    (upsetSegment s ctx idx seg pa).mem = s.mem := by
  unfold upsetSegment
  (repeat' split) <;> simp

@[simp] theorem upsetQueue_mem (s : State) (q idx pa : Nat) : (upsetQueue s q idx pa).mem = s.mem := by
  unfold upsetQueue
  (repeat' split) <;> simp

@[simp] theorem beginRead_mem (s : State) (q : Nat) : (beginRead s q).mem = s.mem := by
  unfold beginRead
  (repeat' split) <;> simp

/-! ### What leaves memory as it is: instructions and events -/

@[simp] theorem execNop_mem (sw : Bool) (s : State) : (nextOr s (execNop sw s)).mem = s.mem := by
  rw [execNop, nextOr_next]
  exact ctlInstr_keeps (P := (· = s.mem)) rfl fun t x l ht => by simp [ht]

@[simp] theorem execLand_mem (sw : Bool) (s : State) : (nextOr s (execLand sw s)).mem = s.mem := by
  rw [execLand, nextOr_next]
  exact ctlInstr_keeps (P := (· = s.mem)) rfl fun t x l ht => by simp [ht]

@[simp] theorem execBra_mem (sw : Bool) (off : BitVec 36) (s : State) :
    (nextOr s (execBra sw off s)).mem = s.mem := by
  rw [execBra, nextOr_next]
  exact ctlInstr_keeps (P := (· = s.mem)) rfl fun t x l ht => (branchIf_mem ..).mono fun _ h => h.trans ht

@[simp] theorem execBrzMask_mem (sw : Bool) (km : Nat) (off : BitVec 36) (s : State) :
    (nextOr s (execBrzMask sw km off s)).mem = s.mem := by simp [execBrzMask]

@[simp] theorem execBrzScalar_mem (sw : Bool) (n : Nat) (off : BitVec 36) (s : State) :
    (nextOr s (execBrzScalar sw n off s)).mem = s.mem := by
  rw [execBrzScalar, nextOr_next]
  exact ctlInstr_keeps (P := (· = s.mem)) rfl fun t x l ht => (branchIf_mem ..).mono fun _ h => h.trans ht

@[simp] theorem execBrnzMask_mem (sw : Bool) (km : Nat) (off : BitVec 36) (s : State) :
    (nextOr s (execBrnzMask sw km off s)).mem = s.mem := by simp [execBrnzMask]

@[simp] theorem execBrnzScalar_mem (sw : Bool) (n : Nat) (off : BitVec 36) (s : State) :
    (nextOr s (execBrnzScalar sw n off s)).mem = s.mem := by
  rw [execBrnzScalar, nextOr_next]
  exact ctlInstr_keeps (P := (· = s.mem)) rfl fun t x l ht => (branchIf_mem ..).mono fun _ h => h.trans ht

@[simp] theorem execCall_mem (sw : Bool) (l : Nat) (off : BitVec 36) (s : State) :
    (nextOr s (execCall sw l off s)).mem = s.mem := by
  rw [execCall, nextOr_next]
  exact ctlInstr_keeps (P := (· = s.mem)) rfl fun t x l ht => .seq fun _ => by simp [ht]

@[simp] theorem execRet_mem (sw _la : Bool) (t : Nat) (s : State) :
    (nextOr s (execRet sw _la t s)).mem = s.mem := by
  rw [execRet, nextOr_next]
  exact ctlInstr_keeps (P := (· = s.mem)) rfl fun t x l ht =>
    .guard fun _ => .guard fun _ => .seq fun _ => by simp [ht]

@[simp] theorem execLoop_mem (sw : Bool) (n : Nat) (off : BitVec 36) (s : State) :
    (nextOr s (execLoop sw n off s)).mem = s.mem := by
  rw [execLoop, nextOr_next]
  exact ctlInstr_keeps (P := (· = s.mem)) rfl fun t x l ht =>
    .ite (by simp [ht]) (.ite (by simp [ht]) (.seq fun _ => by simp [ht]))

@[simp] theorem execRgn_mem (sw : Bool) (win : Nat) (app : Bool) (names : DWord) (s : State) :
    (nextOr s (execRgn sw win app names s)).mem = s.mem := by
  rw [execRgn, nextOr_next]
  exact ctlInstr_keeps (P := (· = s.mem)) rfl fun t x l ht => by simp [ht]

@[simp] theorem execBrx_mem (_sw la : Bool) (tok : Nat) (a : Opd) (s : State) :
    (nextOr s (execBrx _sw la tok a s)).mem = s.mem := by
  rw [execBrx, nextOr_next]
  refine runAgent_keeps (P := (· = s.mem)) rfl fun x0 => ?_
  extract_lets -underBinder lanes src
  refine .seq fun _ => .bind (switchMark_mem ..) fun r hr => ?_
  refine .seq fun _ => .seq fun _ => .seq fun _ => .seq fun _ => .seq fun vs => ?_
  obtain ⟨t, x⟩ := r
  refine .guard fun _ => ?_
  dsimp -zeta only
  extract_lets -underBinder bad
  clear_value bad
  split
  · simp
  · extract_lets -underBinder branch
    have hbranch : ∀ u, Yields (fun u => u.mem = s.mem) (branch u) := fun _ => by
      refine .guard fun _ => ?_
      dsimp -zeta only
      extract_lets -underBinder y b solo groups
      clear_value groups
      rcases groups with _ | ⟨⟨m0, pc0⟩, _ | ⟨g1, rest⟩⟩
      · simpa using hr
      · simpa using hr
      · dsimp -zeta only
        extract_lets -underBinder room frs ser rid e s2
        refine .ite (by simp) (.ite (by simpa using hr) ?_)
        have h2 : s2.mem = s.mem := by simpa [s2] using hr
        exact .ite (by simpa using h2) (by simpa using h2)
    split
    · exact .seq hbranch
    · exact hbranch ()

@[simp] theorem execSplit_mem (_sw : Bool) (kc tok : Nat) (off : BitVec 36) (s : State) :
    (nextOr s (execSplit _sw kc tok off s)).mem = s.mem := by
  rw [execSplit, nextOr_next]
  refine ctlInstr_keeps (P := (· = s.mem)) rfl fun t x l ht => ?_
  refine .guard fun _ => .ite (by simp [ht]) (.seq fun _ => .ite (by simp [ht]) ?_)
  exact .ite (by simp [ht]) (.ite (by simp) (by simp [ht]))

@[simp] theorem execJoin_mem (_sw : Bool) (tok : Nat) (s : State) :
    (nextOr s (execJoin _sw tok s)).mem = s.mem := by
  rw [execJoin, nextOr_next]
  refine ctlInstr_keeps (P := (· = s.mem)) rfl fun t x l ht => ?_
  have arrive : ∀ u a e, u.mem = t.mem → Yields (fun u => u.mem = s.mem) (joinArrive u x a e l) :=
    fun u a e hu => (joinArrive_mem ..).mono fun _ h => h.trans (hu.trans ht)
  extract_lets -underBinder a
  split
  · simp
  · refine .ite (by simp) (.ite (by simpa using ht) (.ite ?_ (arrive _ _ _ rfl)))
    split
    · simpa using ht
    · extract_lets -underBinder recAddr addr s0 s1 e1
      refine .ite ((joinElsewhere_mem ..).mono fun _ h => h.trans ht) ?_
      have h1 : s1.mem = t.mem := by
        unfold s1 s0
        dsimp only
        split <;> simp
      clear_value s1
      split
      · simp [h1, ht]
      · exact .ite (by simp [h1, ht]) (arrive _ _ _ h1)

@[simp] theorem execMeld_mem (sw : Bool) (two : Bool) (ka kb : KReg) (s : State) :
    (nextOr s (execMeld sw two ka kb s)).mem = s.mem := by
  rw [execMeld, nextOr_next]
  exact ctlInstr_keeps (P := (· = s.mem)) rfl fun t x l ht => by simp [ht]

@[simp] theorem execMend_mem (sw : Bool) (s : State) : (nextOr s (execMend sw s)).mem = s.mem := by
  rw [execMend, nextOr_next]
  exact ctlInstr_keeps (P := (· = s.mem)) rfl fun t x l ht => .ite (by simp [ht]) (by simp)

@[simp] theorem execPath_mem (sw : Bool) (j p0 p1 p2 p3 : Nat) (s : State) :
    (nextOr s (execPath sw j p0 p1 p2 p3 s)).mem = s.mem := by
  rw [execPath, nextOr_next]
  exact ctlInstr_keeps (P := (· = s.mem)) rfl fun t x l ht => by simp [ht]

@[simp] theorem execIadd_mem (h : Hdr) (t : Ty) (d : Dst) (a b : Opd) (s : State) :
    (nextOr s (execIadd h t d a b s)).mem = s.mem := by simp [execIadd]

@[simp] theorem execIsub_mem (h : Hdr) (t : Ty) (d : Dst) (a b : Opd) (s : State) :
    (nextOr s (execIsub h t d a b s)).mem = s.mem := by simp [execIsub]

@[simp] theorem execIaddc_mem (h : Hdr) (t : Ty) (z : Bool) (kc : Nat) (d : Dst) (a b : Opd) (s : State) :
    (nextOr s (execIaddc h t z kc d a b s)).mem = s.mem := by simp [execIaddc]

@[simp] theorem execIadds_mem (h : Hdr) (t : Ty) (sub : Bool) (d : Dst) (a b : Opd) (s : State) :
    (nextOr s (execIadds h t sub d a b s)).mem = s.mem := by simp [execIadds]

@[simp] theorem execImul_mem (h : Hdr) (t : Ty) (d : Dst) (a b : Opd) (s : State) :
    (nextOr s (execImul h t d a b s)).mem = s.mem := by simp [execImul]

@[simp] theorem execImulh_mem (h : Hdr) (t : Ty) (d : Dst) (a b : Opd) (s : State) :
    (nextOr s (execImulh h t d a b s)).mem = s.mem := by simp [execImulh]

@[simp] theorem execImad_mem (h : Hdr) (t : Ty) (d : Dst) (a b c : Opd) (s : State) :
    (nextOr s (execImad h t d a b c s)).mem = s.mem := by simp [execImad]

@[simp] theorem execIdiv_mem (h : Hdr) (t : Ty) (d : Dst) (a b : Opd) (s : State) :
    (nextOr s (execIdiv h t d a b s)).mem = s.mem := by simp [execIdiv]

@[simp] theorem execIrem_mem (h : Hdr) (t : Ty) (d : Dst) (a b : Opd) (s : State) :
    (nextOr s (execIrem h t d a b s)).mem = s.mem := by simp [execIrem]

@[simp] theorem execImin_mem (h : Hdr) (t : Ty) (d : Dst) (a b : Opd) (s : State) :
    (nextOr s (execImin h t d a b s)).mem = s.mem := by simp [execImin]

@[simp] theorem execImax_mem (h : Hdr) (t : Ty) (d : Dst) (a b : Opd) (s : State) :
    (nextOr s (execImax h t d a b s)).mem = s.mem := by simp [execImax]

@[simp] theorem execIabs_mem (h : Hdr) (t : Ty) (sat : Bool) (d : Dst) (a : Opd) (s : State) :
    (nextOr s (execIabs h t sat d a s)).mem = s.mem := by simp [execIabs]

@[simp] theorem execLea_mem (h : Hdr) (t : Ty) (sh : Nat) (d : Dst) (a b : Opd) (s : State) :
    (nextOr s (execLea h t sh d a b s)).mem = s.mem := by simp [execLea]

@[simp] theorem execIcmp_mem (h : Hdr) (t : Ty) (cc : CC) (kd : KReg) (a b : Opd) (s : State) :
    (nextOr s (execIcmp h t cc kd a b s)).mem = s.mem := by simp [execIcmp]

@[simp] theorem execSel_mem (h : Hdr) (t : Ty) (ks : Nat) (d : Dst) (a b : Opd) (s : State) :
    (nextOr s (execSel h t ks d a b s)).mem = s.mem := by simp [execSel]

@[simp] theorem execMov_mem (h : Hdr) (t : Ty) (d : Dst) (a : Opd) (s : State) :
    (nextOr s (execMov h t d a s)).mem = s.mem := by simp [execMov]

@[simp] theorem execAnd_mem (h : Hdr) (t : Ty) (d : Dst) (a b : Opd) (s : State) :
    (nextOr s (execAnd h t d a b s)).mem = s.mem := by simp [execAnd]

@[simp] theorem execOr_mem (h : Hdr) (t : Ty) (d : Dst) (a b : Opd) (s : State) :
    (nextOr s (execOr h t d a b s)).mem = s.mem := by simp [execOr]

@[simp] theorem execXor_mem (h : Hdr) (t : Ty) (d : Dst) (a b : Opd) (s : State) :
    (nextOr s (execXor h t d a b s)).mem = s.mem := by simp [execXor]

@[simp] theorem execAndn_mem (h : Hdr) (t : Ty) (d : Dst) (a b : Opd) (s : State) :
    (nextOr s (execAndn h t d a b s)).mem = s.mem := by simp [execAndn]

@[simp] theorem execShl_mem (h : Hdr) (t : Ty) (d : Dst) (a b : Opd) (s : State) :
    (nextOr s (execShl h t d a b s)).mem = s.mem := by simp [execShl]

@[simp] theorem execShr_mem (h : Hdr) (t : Ty) (d : Dst) (a b : Opd) (s : State) :
    (nextOr s (execShr h t d a b s)).mem = s.mem := by simp [execShr]

@[simp] theorem execSar_mem (h : Hdr) (t : Ty) (d : Dst) (a b : Opd) (s : State) :
    (nextOr s (execSar h t d a b s)).mem = s.mem := by simp [execSar]

@[simp] theorem execRot_mem (h : Hdr) (t : Ty) (right : Bool) (d : Dst) (a b : Opd) (s : State) :
    (nextOr s (execRot h t right d a b s)).mem = s.mem := by simp [execRot]

@[simp] theorem execPopc_mem (h : Hdr) (t : Ty) (d : Dst) (a : Opd) (s : State) :
    (nextOr s (execPopc h t d a s)).mem = s.mem := by simp [execPopc]

@[simp] theorem execClz_mem (h : Hdr) (t : Ty) (d : Dst) (a : Opd) (s : State) :
    (nextOr s (execClz h t d a s)).mem = s.mem := by simp [execClz]

@[simp] theorem execBrev_mem (h : Hdr) (t : Ty) (d : Dst) (a : Opd) (s : State) :
    (nextOr s (execBrev h t d a s)).mem = s.mem := by simp [execBrev]

@[simp] theorem execBfe_mem (h : Hdr) (t : Ty) (sgn : Bool) (d : Dst) (a b : Opd) (s : State) :
    (nextOr s (execBfe h t sgn d a b s)).mem = s.mem := by simp [execBfe]

@[simp] theorem execBfi_mem (h : Hdr) (t : Ty) (d : Dst) (a b c : Opd) (s : State) :
    (nextOr s (execBfi h t d a b c s)).mem = s.mem := by simp [execBfi]

@[simp] theorem execPrmt_mem (h : Hdr) (d : Dst) (a b c : Opd) (s : State) :
    (nextOr s (execPrmt h d a b c s)).mem = s.mem := by simp [execPrmt]

@[simp] theorem execMovi_mem (h : Hdr) (t : Ty) (d : Dst) (v : DWord) (s : State) :
    (nextOr s (execMovi h t d v s)).mem = s.mem := by simp [execMovi]

@[simp] theorem execFadd_mem (h : Hdr) (t : Ty) (m : FMode) (d : Dst) (a b : Opd) (s : State) :
    (nextOr s (execFadd h t m d a b s)).mem = s.mem := by simp [execFadd]

@[simp] theorem execFsub_mem (h : Hdr) (t : Ty) (m : FMode) (d : Dst) (a b : Opd) (s : State) :
    (nextOr s (execFsub h t m d a b s)).mem = s.mem := by simp [execFsub]

@[simp] theorem execFmul_mem (h : Hdr) (t : Ty) (m : FMode) (d : Dst) (a b : Opd) (s : State) :
    (nextOr s (execFmul h t m d a b s)).mem = s.mem := by simp [execFmul]

@[simp] theorem execFfma_mem (h : Hdr) (t : Ty) (m : FMode) (d : Dst) (a b c : Opd) (s : State) :
    (nextOr s (execFfma h t m d a b c s)).mem = s.mem := by simp [execFfma]

@[simp] theorem execFmin_mem (h : Hdr) (t : Ty) (pk : Bool) (d : Dst) (a b : Opd) (s : State) :
    (nextOr s (execFmin h t pk d a b s)).mem = s.mem := by simp [execFmin]

@[simp] theorem execFmax_mem (h : Hdr) (t : Ty) (pk : Bool) (d : Dst) (a b : Opd) (s : State) :
    (nextOr s (execFmax h t pk d a b s)).mem = s.mem := by simp [execFmax]

@[simp] theorem execFcmp_mem (h : Hdr) (t : Ty) (cc : CC) (kd : KReg) (a b : Opd) (s : State) :
    (nextOr s (execFcmp h t cc kd a b s)).mem = s.mem := by simp [execFcmp]

@[simp] theorem execFdiv_mem (h : Hdr) (t : Ty) (m : FMode) (d : Dst) (a b : Opd) (s : State) :
    (nextOr s (execFdiv h t m d a b s)).mem = s.mem := by simp [execFdiv]

@[simp] theorem execFsqrt_mem (h : Hdr) (t : Ty) (m : FMode) (d : Dst) (a : Opd) (s : State) :
    (nextOr s (execFsqrt h t m d a s)).mem = s.mem := by simp [execFsqrt]

@[simp] theorem execFrcp_mem (h : Hdr) (t : Ty) (m : FMode) (d : Dst) (a : Opd) (s : State) :
    (nextOr s (execFrcp h t m d a s)).mem = s.mem := by simp [execFrcp]

@[simp] theorem execFrsq_mem (h : Hdr) (t : Ty) (m : FMode) (d : Dst) (a : Opd) (s : State) :
    (nextOr s (execFrsq h t m d a s)).mem = s.mem := by simp [execFrsq]

@[simp] theorem execFex2_mem (h : Hdr) (t : Ty) (m : FMode) (d : Dst) (a : Opd) (s : State) :
    (nextOr s (execFex2 h t m d a s)).mem = s.mem := by simp [execFex2]

@[simp] theorem execFlg2_mem (h : Hdr) (t : Ty) (m : FMode) (d : Dst) (a : Opd) (s : State) :
    (nextOr s (execFlg2 h t m d a s)).mem = s.mem := by simp [execFlg2]

@[simp] theorem execFtanh_mem (h : Hdr) (t : Ty) (m : FMode) (d : Dst) (a : Opd) (s : State) :
    (nextOr s (execFtanh h t m d a s)).mem = s.mem := by simp [execFtanh]

@[simp] theorem execFrnd_mem (h : Hdr) (t : Ty) (pk : Bool) (rnd : Rnd) (d : Dst) (a : Opd) (s : State) :
    (nextOr s (execFrnd h t pk rnd d a s)).mem = s.mem := by simp [execFrnd]

@[simp] theorem execFclass_mem (h : Hdr) (t : Ty) (pk : Bool) (d : Dst) (a : Opd) (s : State) :
    (nextOr s (execFclass h t pk d a s)).mem = s.mem := by simp [execFclass]

@[simp] theorem execFdot2_mem (h : Hdr) (t : Ty) (sat : Bool) (rnd : Rnd) (d : Dst) (a b c : Opd) (s : State) :
    (nextOr s (execFdot2 h t sat rnd d a b c s)).mem = s.mem := by simp [execFdot2]

@[simp] theorem execFscale_mem (h : Hdr) (t : Ty) (m : FMode) (d : Dst) (a b : Opd) (s : State) :
    (nextOr s (execFscale h t m d a b s)).mem = s.mem := by simp [execFscale]

@[simp] theorem execCvt_mem (h : Hdr) (td ts : Ty) (rnd : Rnd) (d : Dst) (a : Opd) (s : State) :
    (nextOr s (execCvt h td ts rnd d a s)).mem = s.mem := by simp [execCvt]

@[simp] theorem execQnt_mem (h : Hdr) (el : Elem) (rnd : Rnd) (d : Dst) (a b : Opd) (s : State) :
    (nextOr s (execQnt h el rnd d a b s)).mem = s.mem := by simp [execQnt]

@[simp] theorem execDqnt_mem (h : Hdr) (el : Elem) (rnd : Rnd) (d : Dst) (a b : Opd) (s : State) :
    (nextOr s (execDqnt h el rnd d a b s)).mem = s.mem := by simp [execDqnt]

@[simp] theorem execTpack_mem (h : Hdr) (d : Dst) (a b : Opd) (s : State) :
    (nextOr s (execTpack h d a b s)).mem = s.mem := by simp [execTpack]

@[simp] theorem execTunpk_mem (h : Hdr) (d : Dst) (a b : Opd) (s : State) :
    (nextOr s (execTunpk h d a b s)).mem = s.mem := by simp [execTunpk]

@[simp] theorem execPack_mem (h : Hdr) (t : Ty) (nib : Bool) (rnd : Rnd) (d : Dst) (a b : Opd) (c : Option Opd)
    (s : State) : (nextOr s (execPack h t nib rnd d a b c s)).mem = s.mem := by simp [execPack]

@[simp] theorem execUnpk_mem (h : Hdr) (t : Ty) (nib : Bool) (_rnd : Rnd) (d : Dst) (a b : Opd) (s : State) :
    (nextOr s (execUnpk h t nib _rnd d a b s)).mem = s.mem := by simp [execUnpk]

@[simp] theorem execShfl_mem (h : Hdr) (t : Ty) (mode : ShflMode) (g : Nat) (d : Dst) (a b : Opd) (s : State) :
    (nextOr s (execShfl h t mode g d a b s)).mem = s.mem := by simp [execShfl]

@[simp] theorem execVote_mem (h : Hdr) (k : VoteKind) (d : MDst) (a : Opd) (s : State) :
    (nextOr s (execVote h k d a s)).mem = s.mem := by simp [execVote]

@[simp] theorem execLred_mem (h : Hdr) (t : Ty) (op : RedOp) (rnd : Rnd) (d : Dst) (a : Opd) (s : State) :
    (nextOr s (execLred h t op rnd d a s)).mem = s.mem := by simp [execLred]

@[simp] theorem execLscan_mem (h : Hdr) (t : Ty) (op : RedOp) (rnd : Rnd) (excl : Bool) (d : Dst) (a : Opd)
    (s : State) : (nextOr s (execLscan h t op rnd excl d a s)).mem = s.mem := by simp [execLscan]

@[simp] theorem execBcast_mem (h : Hdr) (t : Ty) (d : Dst) (a : Opd) (b : Option Opd) (s : State) :
    (nextOr s (execBcast h t d a b s)).mem = s.mem := by simp [execBcast]

@[simp] theorem execMatchLanes_mem (h : Hdr) (t : Ty) (cnt : Bool) (d : Nat) (a : Opd) (s : State) :
    (nextOr s (execMatchLanes h t cnt d a s)).mem = s.mem := by simp [execMatchLanes]

@[simp] theorem execTopk_mem (h : Hdr) (t : Ty) (sc : Nat) (d : Nat) (a b : Opd) (s : State) :
    (nextOr s (execTopk h t sc d a b s)).mem = s.mem := by simp [execTopk]

@[simp] theorem execKop_mem (h : Hdr) (op : KopOp) (kd ka kb : KReg) (s : State) :
    (nextOr s (execKop h op kd ka kb s)).mem = s.mem := by simp [execKop]

@[simp] theorem execKmov_mem (h : Hdr) (f : KmovForm) (s : State) : (nextOr s (execKmov h f s)).mem = s.mem := by
  unfold execKmov
  split <;> simp

@[simp] theorem execKpop_mem (h : Hdr) (d : Nat) (ka : KReg) (s : State) :
    (nextOr s (execKpop h d ka s)).mem = s.mem := by simp [execKpop]

@[simp] theorem execKfnd_mem (h : Hdr) (hi : Bool) (d : Nat) (ka : KReg) (b : Opd) (s : State) :
    (nextOr s (execKfnd h hi d ka b s)).mem = s.mem := by simp [execKfnd]

@[simp] theorem execSrd_mem (h : Hdr) (d : Dst) (r : SReg) (s : State) : (nextOr s (execSrd h d r s)).mem = s.mem := by
  simp [execSrd]

@[simp] theorem execSwr_mem (h : Hdr) (r : SReg) (a : Opd) (s : State) :
    (nextOr s (execSwr h r a s)).mem = s.mem := by
  rw [execSwr, nextOr_next]
  refine runAgent_keeps (P := (· = s.mem)) rfl fun x0 => ?_
  extract_lets -underBinder lanes srcs
  refine .seq fun _ => .bind (switchMark_mem ..) fun r hr => .seq fun _ => .seq fun _ => .seq fun _ => ?_
  extract_lets -underBinder write
  suffices hwrite : ∀ u, Yields (fun u => u.mem = s.mem) (write u) from .ite (by simp) (hwrite ())
  refine fun _ => .seq fun vs => (commitRegs_mem ..).mono fun t ht => ?_
  rw [ht]
  split
  · exact hr
  · rw [writeSreg_mem, hr]

@[simp] theorem execClk_mem (h : Hdr) (d : Nat) (s : State) : (nextOr s (execClk h d s)).mem = s.mem := by
  simp [execClk]

@[simp] theorem execClkPtp_mem (h : Hdr) (d : Nat) (s : State) : (nextOr s (execClkPtp h d s)).mem = s.mem := by
  simp [execClkPtp]

@[simp] theorem execLd_mem (h : Hdr) (wid : Nat) (sx : Bool) (d : Dst) (m : MAddr) (s : State) :
    (nextOr s (execLd h wid sx d m s)).mem = s.mem := by
  unfold execLd
  extract_lets -underBinder n regs dsts
  rw [nextOr_next]
  refine memInstr_keeps (P := (· = s.mem)) rfl fun t x l ss vs ht => ?_
  exact .ite ((commitIdle_mem ..).mono fun _ h => h.trans ht)
    (.seq fun _ => (issueRead_mem ..).mono fun _ h => h.trans ht)

@[simp] theorem execSt_mem (h : Hdr) (wid : Nat) (d : Opd) (m : MAddr) (s : State) :
    (nextOr s (execSt h wid d m s)).mem = s.mem := by
  unfold execSt
  extract_lets -underBinder n
  rw [nextOr_next]
  refine memInstr_keeps (P := (· = s.mem)) rfl fun t x l ss vs ht => ?_
  exact .ite ((commitIdle_mem ..).mono fun _ h => h.trans ht)
    (.seq fun _ => (issueWrites_mem ..).mono fun _ h => h.trans ht)

@[simp] theorem execLdg_mem (h : Hdr) (w : Nat) (d : Nat) (m : MAddr) (s : State) :
    (nextOr s (execLdg h w d m s)).mem = s.mem := by
  unfold execLdg
  extract_lets -underBinder n dsts
  rw [nextOr_next]
  refine memInstr_keeps (P := (· = s.mem)) rfl fun t x l ss vs ht => ?_
  exact .ite ((commitIdle_mem ..).mono fun _ h => h.trans ht)
    (.seq fun _ => (issueRead_mem ..).mono fun _ h => h.trans ht)

@[simp] theorem execSct_mem (h : Hdr) (wid : Nat) (op : SctOp) (d : Opd) (m : MAddr) (s : State) :
    (nextOr s (execSct h wid op d m s)).mem = s.mem := by
  unfold execSct
  extract_lets -underBinder n
  rw [nextOr_next]
  refine memInstr_keeps (P := (· = s.mem)) rfl fun t x l ss vs ht => ?_
  exact .ite ((commitIdle_mem ..).mono fun _ h => h.trans ht)
    (.seq fun _ => (issueWrites_mem ..).mono fun _ h => h.trans ht)

@[simp] theorem execLdmx_mem (h : Hdr) (f : MxFmt) (split : Bool) (d : Nat) (m : MAddr) (s : State) :
    (nextOr s (execLdmx h f split d m s)).mem = s.mem := by
  unfold execLdmx
  extract_lets -underBinder dsts
  rw [nextOr_next]
  refine memInstr_keeps (P := (· = s.mem)) rfl fun t x l ss vs ht => ?_
  exact .ite ((commitIdle_mem ..).mono fun _ h => h.trans ht)
    (.seq fun _ => (issueRead_mem ..).mono fun _ h => h.trans ht)

@[simp] theorem execStmx_mem (h : Hdr) (f : MxFmt) (split : Bool) (d : Nat) (m : MAddr) (s : State) :
    (nextOr s (execStmx h f split d m s)).mem = s.mem := by
  rw [execStmx, nextOr_next]
  refine memInstr_keeps (P := (· = s.mem)) rfl fun t x l ss vs ht => ?_
  refine .ite ((commitIdle_mem ..).mono fun _ h => h.trans ht) ?_
  extract_lets -underBinder gs k code scale active diff checked
  suffices hchecked : ∀ u, Yields (fun u => u.mem = s.mem) (checked u) from .ite (by simp) (hchecked ())
  intro u
  unfold checked
  extract_lets -underBinder placed
  suffices hplaced : ∀ u, Yields (fun u => u.mem = s.mem) (placed u) from .ite (by simp) (hplaced ())
  refine fun _ => .seq fun ps => ?_
  extract_lets -underBinder enc send
  suffices hsend : ∀ u, Yields (fun u => u.mem = s.mem) (send u) from .ite (.seq fun _ => hsend ()) (hsend ())
  refine fun _ => .seq fun _ => .bind (issueRegs_mem ..) fun t1 h1 => ?_
  simp [apply_ite State.mem, h1, ht]

@[simp] theorem execPrf_mem (h : Hdr) (m : MAddr) (s : State) : (nextOr s (execPrf h m s)).mem = s.mem := by
  rw [execPrf, nextOr_next]
  refine memInstr_keeps (P := (· = s.mem)) rfl fun t x l ss vs ht => .bind (issueRegs_mem ..) fun t1 h1 => ?_
  have walk : ∀ fs : List (Acc × AddrFault), (fs.foldl (fun t f => countWalk t x.p.ctx f.2) t1).mem = s.mem :=
    fun fs => by rw [foldl_mem fun _ _ => countWalk_mem .., h1, ht]
  rw [yields_pure, stepPc_mem]
  split
  · rw [foldl_mem fun u p => foldl_mem (fun v g => by split <;> simp) _ _, walk]
  · exact walk _

@[simp] theorem execAtom_mem (h : Hdr) (wid : Nat) (op : AtomOp) (sgn : Bool) (d : Dst) (m : MAddr) (s : State) :
    (nextOr s (execAtom h wid op sgn d m s)).mem = s.mem := by
  unfold execAtom
  extract_lets -underBinder n dsts
  rw [nextOr_next]
  refine memInstr_keeps (P := (· = s.mem)) rfl fun t x l ss vs ht => ?_
  exact .ite ((commitIdle_mem ..).mono fun _ h => h.trans ht)
    (.seq fun _ => (issueAtomic_mem ..).mono fun _ h => h.trans ht)

@[simp] theorem execAcas_mem (h : Hdr) (wid : Nat) (d : Dst) (m : MAddr) (s : State) :
    (nextOr s (execAcas h wid d m s)).mem = s.mem := by
  unfold execAcas
  extract_lets -underBinder n regs dsts extra
  rw [nextOr_next]
  refine memInstr_keeps (P := (· = s.mem)) rfl fun t x l ss vs ht => ?_
  exact .ite ((commitIdle_mem ..).mono fun _ h => h.trans ht)
    (.seq fun _ => (issueAtomic_mem ..).mono fun _ h => h.trans ht)

@[simp] theorem execRed_mem (h : Hdr) (wid : Nat) (op : AtomOp) (sgn ret : Bool) (d : Dst) (m : MAddr) (s : State) :
    (nextOr s (execRed h wid op sgn ret d m s)).mem = s.mem := by
  unfold execRed
  extract_lets -underBinder n dsts
  rw [nextOr_next]
  refine memInstr_keeps (P := (· = s.mem)) rfl fun t x l ss vs ht => ?_
  refine .ite ((commitIdle_mem ..).mono fun _ h => h.trans ht) (.seq fun _ => .ite ?_ ?_)
  · exact (issueAtomic_mem ..).mono fun _ h => h.trans ht
  · exact (issueWrites_mem ..).mono fun _ h => h.trans ht

@[simp] theorem execFence_mem (h : Hdr) (ord : MOrd) (scp : Scope) (b : Opd) (s : State) :
    (nextOr s (execFence h ord scp b s)).mem = s.mem := by
  rw [execFence, nextOr_next]
  exact wideInstr_keeps (P := (· = s.mem)) rfl fun t x l vs ht =>
    .guard fun _ => .guard fun _ => .guard fun _ => .guard fun _ => .guard fun _ => by simp [apply_ite State.mem, ht]

@[simp] theorem execWaitf_mem (h : Hdr) (t : Ty) (lvl : Nat) (prom : Promise) (cond : WCond) (d : Nat) (a b : Opd)
    (s : State) : (nextOr s (execWaitf h t lvl prom cond d a b s)).mem = s.mem := by
  unfold execWaitf
  extract_lets -underBinder n
  rw [nextOr_next]
  exact wideInstr_keeps (P := (· = s.mem)) rfl fun t x l vs ht =>
    .guard fun _ => .seq fun _ => .seq fun _ => by simp [ht]

@[simp] theorem execWaitfConditionMet_mem (aid : Nat) (s : State) :
    (nextOr s (execWaitfConditionMet aid s)).mem = s.mem := by
  unfold execWaitfConditionMet
  dsimp only [nextOr_next]
  (repeat' split) <;> simp

@[simp] theorem execWaitc_mem (h : Hdr) (scp : Scope) (d : Nat) (a b c : Opd) (s : State) :
    (nextOr s (execWaitc h scp d a b c s)).mem = s.mem := by
  rw [execWaitc, nextOr_next]
  refine wideInstr_keeps (P := (· = s.mem)) rfl fun t x l vs ht => ?_
  refine .bind (readWindow_mem ..) fun r hr => .ite ?_ (.ite (by simp [hr, ht]) (by simp))
  simp [apply_ite State.mem, hr, ht]

@[simp] theorem execTestc_mem (h : Hdr) (d : Nat) (a b c : Opd) (s : State) :
    (nextOr s (execTestc h d a b c s)).mem = s.mem := by
  rw [execTestc, nextOr_next]
  exact wideInstr_keeps (P := (· = s.mem)) rfl fun t x l vs ht =>
    .bind (readWindow_mem ..) fun r hr => by simp [hr, ht]

@[simp] theorem execSrel_mem (h : Hdr) (c : Nat) (s : State) : (nextOr s (execSrel h c s)).mem = s.mem := by
  rw [execSrel, nextOr_next]
  refine wideInstr_keeps (P := (· = s.mem)) rfl fun t x l vs ht => ?_
  split
  · simp
  · exact .guard fun _ => .seq fun _ => by simp [apply_ite State.mem, ht]

@[simp] theorem execSbindUnbind_mem (h : Hdr) (c : Nat) (s : State) :
    (nextOr s (execSbindUnbind h c s)).mem = s.mem := by
  rw [execSbindUnbind, nextOr_next]
  refine wideInstr_keeps (P := (· = s.mem)) rfl fun t x l vs ht => ?_
  split
  · simp
  · exact .ite (by simp) (by simp [apply_ite State.mem, ht])

@[simp] theorem execSbindPrimer_mem (h : Hdr) (c : Nat) (s : State) :
    (nextOr s (execSbindPrimer h c s)).mem = s.mem := by
  rw [execSbindPrimer, nextOr_next]
  exact bindChan_keeps (P := (· = s.mem)) rfl fun t x l vs ht => by simp [ht]

@[simp] theorem execSbindRing_mem (h : Hdr) (c : Nat) (p1 p2 p3 : Opd) (s : State) :
    (nextOr s (execSbindRing h c p1 p2 p3 s)).mem = s.mem := by
  rw [execSbindRing, nextOr_next]
  exact bindChan_keeps (P := (· = s.mem)) rfl fun t x l vs ht =>
    .guard fun _ => .guard fun _ => .guard fun _ => by simp [ht]

@[simp] theorem execSbindPort_mem (h : Hdr) (c : Nat) (p1 : Opd) (s : State) :
    (nextOr s (execSbindPort h c p1 s)).mem = s.mem := by
  rw [execSbindPort, nextOr_next]
  exact bindChan_keeps (P := (· = s.mem)) rfl fun t x l vs ht => .seq fun _ => .guard fun _ => by simp [ht]

@[simp] theorem execSbindIter_mem (h : Hdr) (c : Nat) (p1 p2 : Opd) (s : State) :
    (nextOr s (execSbindIter h c p1 p2 s)).mem = s.mem := by
  rw [execSbindIter, nextOr_next]
  refine bindChan_keeps (P := (· = s.mem)) rfl fun t x l vs ht => ?_
  refine .guard fun _ => ?_
  dsimp -zeta only
  split <;> simp [ht]

@[simp] theorem execSbindQuery_mem (h : Hdr) (c : Nat) (d : Nat) (s : State) :
    (nextOr s (execSbindQuery h c d s)).mem = s.mem := by
  rw [execSbindQuery, nextOr_next]
  exact wideInstr_keeps (P := (· = s.mem)) rfl fun t x l vs ht => by simp [ht]

@[simp] theorem execPreg_mem (h : Hdr) (d : Nat) (a b : Opd) (s : State) :
    (nextOr s (execPreg h d a b s)).mem = s.mem := by
  rw [execPreg, nextOr_next]
  refine wideInstr_keeps (P := (· = s.mem)) rfl fun t x l vs ht => ?_
  refine .guard fun _ => ?_
  dsimp -zeta only
  extract_lets -underBinder register
  have hregister : ∀ g, Yields (fun u => u.mem = s.mem) (register g) := fun _ =>
    .guard fun _ => .ite (by simp [ht]) (.seq fun _ => by simp [ht])
  split
  · exact hregister _
  · simp

@[simp] theorem execPregDrop_mem (h : Hdr) (a : Opd) (s : State) : (nextOr s (execPregDrop h a s)).mem = s.mem := by
  rw [execPregDrop, nextOr_next]
  exact wideInstr_keeps (P := (· = s.mem)) rfl fun t x l vs ht => .seq fun _ => by simp [ht]

@[simp] theorem execGang_mem (h : Hdr) (a : Opd) (s : State) : (nextOr s (execGang h a s)).mem = s.mem := by
  rw [execGang, nextOr_next]
  refine matInstr_keeps (P := (· = s.mem)) rfl fun t x m l ss vs ht => ?_
  extract_lets -underBinder v s1 s2
  have h2 : s2.mem = s.mem := by
    unfold s2 s1
    (repeat' split) <;> simp [ht]
  exact (commitRegs_mem ..).mono fun _ h => h.trans h2

@[simp] theorem execMxld_mem (h : Hdr) (half n base : Nat) (idx : Opd) (fw : Nat) (ds : MDesc) (s : State) :
    (nextOr s (execMxld h half n base idx fw ds s)).mem = s.mem := by
  rw [execMxld, nextOr_next]
  refine matInstr_keeps (P := (· = s.mem)) rfl fun t x m l ss vs ht => ?_
  extract_lets -underBinder fill
  have hfill : ∀ u, Yields (fun u => u.mem = s.mem) (fill u) := fun u => by
    refine .guard fun _ => .seq fun w => .seq fun _ => .guard fun _ => ?_
    dsimp -zeta only
    -- the peek of the second index, where there is one, pulls an entry
    (repeat' split) <;>
      exact .seq fun two => .bind (startFill_mem ..) fun t2 h2 =>
        (commitRegs_mem ..).mono fun _ h => h.trans (h2.trans (by simp [ht]))
  split
  · exact .guard hfill
  · exact hfill ()

@[simp] theorem execMxlb_mem (h : Hdr) (slot n base : Nat) (fw : Nat) (ds : MDesc) (s : State) :
    (nextOr s (execMxlb h slot n base fw ds s)).mem = s.mem := by
  rw [execMxlb, nextOr_next]
  refine matInstr_keeps (P := (· = s.mem)) rfl fun t x m l ss vs ht => .seq fun w => .seq fun _ => .guard fun _ => ?_
  exact .bind (startFill_mem ..) fun t1 h1 => (commitRegs_mem ..).mono fun _ h => h.trans (h1.trans ht)

@[simp] theorem execMma_mem (h : Hdr) (half tile fw skip kbase : Nat) (s : State) :
    (nextOr s (execMma h half tile fw skip kbase s)).mem = s.mem := by
  rw [execMma, nextOr_next]
  exact matInstr_keeps (P := (· = s.mem)) rfl fun t x m l ss vs ht => (arriveMma_mem ..).mono fun _ h => h.trans ht

@[simp] theorem execMxz_mem (h : Hdr) (tile : Nat) (s : State) : (nextOr s (execMxz h tile s)).mem = s.mem := by
  rw [execMxz, nextOr_next]
  refine tileInstr_keeps (P := (· = s.mem)) rfl fun t x m l vs ht => ?_
  simpa using ht

@[simp] theorem execMxdr_mem (h : Hdr) (tile d fw scales : Nat) (pos : Opd) (s : State) :
    (nextOr s (execMxdr h tile d fw scales pos s)).mem = s.mem := by
  rw [execMxdr, nextOr_next]
  refine tileInstr_keeps (P := (· = s.mem)) rfl fun t x m l vs ht => ?_
  have commit : ∀ is w, Yields (fun u => u.mem = s.mem) (commitRegs t x is l w) :=
    fun is w => (commitRegs_mem ..).mono fun _ h => h.trans ht
  refine .guard fun _ => .seq fun w => .seq fun _ => ?_
  extract_lets -underBinder read
  have hread : ∀ u, Yields (fun u => u.mem = s.mem) (read u) := fun u => by
    refine .guard fun _ => ?_
    dsimp -zeta only
    extract_lets -underBinder drain
    have hdrain : ∀ u, Yields (fun u => u.mem = s.mem) (drain u) := fun _ => .ite (commit ..) (commit ..)
    split
    · exact .seq hdrain
    · exact hdrain ()
  exact .ite (.guard hread) (hread ())

@[simp] theorem execMxdrStat_mem (h : Hdr) (tile d : Nat) (s : State) :
    (nextOr s (execMxdrStat h tile d s)).mem = s.mem := by
  rw [execMxdrStat, nextOr_next]
  refine tileInstr_keeps (P := (· = s.mem)) rfl fun t x m l vs ht => ?_
  exact (commitRegs_mem ..).mono fun _ h => h.trans ht

@[simp] theorem execMxadd_mem (h : Hdr) (tile base str : Nat) (s : State) :
    (nextOr s (execMxadd h tile base str s)).mem = s.mem := by simp [execMxadd]

@[simp] theorem execMxsave_mem (h : Hdr) (tile base str : Nat) (s : State) :
    (nextOr s (execMxsave h tile base str s)).mem = s.mem := by
  rw [execMxsave, nextOr_next]
  refine tileInstr_keeps (P := (· = s.mem)) rfl fun t x m l vs ht => .seq fun segs => ?_
  extract_lets -underBinder tl send
  have hsend : ∀ u, Yields (fun u => u.mem = s.mem) (send u) := fun u =>
    .seq fun _ => by simp [foldl_mem, ht]
  split
  · exact .seq hsend
  · exact hsend ()

@[simp] theorem execMxrest_mem (h : Hdr) (tile base str : Nat) (s : State) :
    (nextOr s (execMxrest h tile base str s)).mem = s.mem := by simp [execMxrest]

@[simp] theorem execSnew_mem (h : Hdr) (d : Dst) (u opt : Opd) (s : State) :
    (nextOr s (execSnew h d u opt s)).mem = s.mem := by simp [execSnew]

@[simp] theorem execSdel_mem (h : Hdr) (a : Opd) (s : State) : (nextOr s (execSdel h a s)).mem = s.mem := by
  simp [execSdel]

@[simp] theorem execSins_mem (h : Hdr) (d : Option Nat) (a b : Opd) (s : State) :
    (nextOr s (execSins h d a b s)).mem = s.mem := by simp [execSins]

@[simp] theorem execSrem_mem (h : Hdr) (d : Option Nat) (a b : Opd) (s : State) :
    (nextOr s (execSrem h d a b s)).mem = s.mem := by simp [execSrem]

@[simp] theorem execShas_mem (h : Hdr) (d : MDst) (a b : Opd) (s : State) :
    (nextOr s (execShas h d a b s)).mem = s.mem := by simp [execShas]

@[simp] theorem execScard_mem (h : Hdr) (d : Nat) (a : Opd) (s : State) : (nextOr s (execScard h d a s)).mem = s.mem := by
  simp [execScard]

@[simp] theorem execSand_mem (h : Hdr) (card : Option Nat) (d a b : Opd) (s : State) :
    (nextOr s (execSand h card d a b s)).mem = s.mem := by simp [execSand]

@[simp] theorem execSor_mem (h : Hdr) (card : Option Nat) (d a b : Opd) (s : State) :
    (nextOr s (execSor h card d a b s)).mem = s.mem := by simp [execSor]

@[simp] theorem execSsub_mem (h : Hdr) (card : Option Nat) (d a b : Opd) (s : State) :
    (nextOr s (execSsub h card d a b s)).mem = s.mem := by simp [execSsub]

@[simp] theorem execSxor_mem (h : Hdr) (card : Option Nat) (d a b : Opd) (s : State) :
    (nextOr s (execSxor h card d a b s)).mem = s.mem := by simp [execSxor]

@[simp] theorem execSitr_mem (h : Hdr) (sc d : Nat) (a b : Opd) (s : State) :
    (nextOr s (execSitr h sc d a b s)).mem = s.mem := by simp [execSitr]

@[simp] theorem execScost_mem (h : Hdr) (op d : Nat) (a b c : Opd) (s : State) :
    (nextOr s (execScost h op d a b c s)).mem = s.mem := by simp [execScost]

@[simp] theorem execSinfo_mem (h : Hdr) (d : Nat) (a b : Opd) (key : Nat) (s : State) :
    (nextOr s (execSinfo h d a b key s)).mem = s.mem := by simp [execSinfo]

@[simp] theorem execSinfoPin_mem (h : Hdr) (a b : Opd) (s : State) : (nextOr s (execSinfoPin h a b s)).mem = s.mem := by
  simp [execSinfoPin]

@[simp] theorem execSrank_mem (h : Hdr) (sel : Bool) (d : Nat) (a b : Opd) (s : State) :
    (nextOr s (execSrank h sel d a b s)).mem = s.mem := by simp [execSrank]

@[simp] theorem execSload_mem (h : Hdr) (str : Nat) (d : Dst) (base : Nat) (s : State) :
    (nextOr s (execSload h str d base s)).mem = s.mem := by simp [execSload]

@[simp] theorem execSstore_mem (h : Hdr) (str d : Nat) (a : Opd) (base lim : Nat) (start : Option Word)
    (s : State) : (nextOr s (execSstore h str d a base lim start s)).mem = s.mem := by simp [execSstore]

@[simp] theorem execSetAcceptance_mem (aid : Nat) (s : State) :
    (nextOr s (execSetAcceptance aid s)).mem = s.mem := by
  unfold execSetAcceptance
  dsimp only [nextOr_next]
  (repeat' split) <;> simp

@[simp] theorem execSetCompletion_mem (id : Nat) (s : State) : (nextOr s (execSetCompletion id s)).mem = s.mem := by
  unfold execSetCompletion
  dsimp only [nextOr_next]
  (repeat' split) <;> simp

@[simp] theorem execIteratorEntry_mem (panel chan : Nat) (s : State) :
    (nextOr s (execIteratorEntry panel chan s)).mem = s.mem := by
  unfold execIteratorEntry
  dsimp only [nextOr_next]
  (repeat' split) <;> simp

@[simp] theorem execTspawn_mem (h : Hdr) (d : Nat) (a b : Opd) (s : State) :
    (nextOr s (execTspawn h d a b s)).mem = s.mem := by
  rw [execTspawn, nextOr_next]
  exact taskInstr_keeps (P := (· = s.mem)) rfl fun t x l vs ht =>
    .bind (spawnTasks_mem ..) fun r hr => by simp [hr, ht]

@[simp] theorem execAlloc_mem (h : Hdr) (sc : Nat) (d : Dst) (s : State) :
    (nextOr s (execAlloc h sc d s)).mem = s.mem := by
  rw [execAlloc, nextOr_next]
  exact taskInstr_keeps (P := (· = s.mem)) rfl fun t x l vs ht => by simp [ht]

@[simp] theorem execEqcomb_mem (h : Hdr) (str : Nat) (a : Opd) (grp gate : Nat) (s : State) :
    (nextOr s (execEqcomb h str a grp gate s)).mem = s.mem := by
  rw [execEqcomb, nextOr_next]
  refine taskInstr_keeps (P := (· = s.mem)) rfl fun t x l vs ht => ?_
  exact .guard fun _ => .seq fun _ => .seq fun _ => .seq fun _ => by simp [foldl_mem, ht]

@[simp] theorem execEqcfg_mem (h : Hdr) (n : Nat) (d r : Nat) (q : Opd) (s : State) :
    (nextOr s (execEqcfg h n d r q s)).mem = s.mem := by
  rw [execEqcfg, nextOr_next]
  refine wideInstr_keeps (P := (· = s.mem)) rfl fun t x l vs ht => ?_
  refine .guard fun _ => .guard fun _ => .bind (readConfigs_mem ..) fun r hr => ?_
  refine .guard fun _ => .seq fun _ => .guard fun _ => ?_
  simp [apply_ite State.mem, hr, ht]

@[simp] theorem execEqstat_mem (h : Hdr) (d : Nat) (q sel : Opd) (s : State) :
    (nextOr s (execEqstat h d q sel s)).mem = s.mem := by
  rw [execEqstat, nextOr_next]
  exact taskInstr_keeps (P := (· = s.mem)) rfl fun t x l vs ht => .guard fun _ => .seq fun _ => by simp [ht]

@[simp] theorem execTrap_mem (h : Hdr) (b : Opd) (s : State) : (nextOr s (execTrap h b s)).mem = s.mem := by
  rw [execTrap, nextOr_next]
  exact sysInstr_keeps (P := (· = s.mem)) rfl fun t x l v ht => .ite (by simp [ht]) (.ite (by simp) (by simp))

@[simp] theorem execRtt_mem (sw : Bool) (s : State) : (nextOr s (execRtt sw s)).mem = s.mem := by
  rw [execRtt, nextOr_next]
  exact ctlInstr_keeps (P := (· = s.mem)) rfl fun t x l ht => .guard fun _ => .seq fun _ => by simp [ht]

@[simp] theorem execPdone_mem (h : Hdr) (n : Nat) (s : State) : (nextOr s (execPdone h n s)).mem = s.mem := by
  rw [execPdone, nextOr_next]
  exact sysInstr_keeps (P := (· = s.mem)) rfl fun t x l v ht =>
    .seq fun _ => .seq fun _ => .ite (by simp [ht]) (by simp [ht])

@[simp] theorem execCkpt_mem (h : Hdr) (d : Nat) (b : Opd) (s : State) :
    (nextOr s (execCkpt h d b s)).mem = s.mem := by
  rw [execCkpt, nextOr_next]
  refine sysInstr_keeps (P := (· = s.mem)) rfl fun t x l v ht => ?_
  refine .ite (by simp) ?_
  split
  · simp [ht]
  · exact .ite (by simp [ht]) (.seq fun _ => by simp [ht])

@[simp] theorem execCkptHint_mem (h : Hdr) (b : Opd) (s : State) : (nextOr s (execCkptHint h b s)).mem = s.mem := by
  rw [execCkptHint, nextOr_next]
  exact sysInstr_keeps (P := (· = s.mem)) rfl fun t x l v ht => by simp [ht]

@[simp] theorem execTlbiRng_mem (h : Hdr) (n : Nat) (b : Opd) (s : State) :
    (nextOr s (execTlbiRng h n b s)).mem = s.mem := by
  rw [execTlbiRng, nextOr_next]
  exact sysInstr_keeps (P := (· = s.mem)) rfl fun t x l v ht =>
    .guard fun _ => .guard fun _ => .guard fun _ => (tlbiCommon_mem ..).mono fun _ h => h.trans ht

@[simp] theorem execTlbiAll_mem (h : Hdr) (s : State) : (nextOr s (execTlbiAll h s)).mem = s.mem := by
  rw [execTlbiAll, nextOr_next]
  exact sysInstr_keeps (P := (· = s.mem)) rfl fun t x l v ht =>
    .guard fun _ => (tlbiCommon_mem ..).mono fun _ h => h.trans ht

@[simp] theorem execTlbiNg_mem (h : Hdr) (s : State) : (nextOr s (execTlbiNg h s)).mem = s.mem := by
  rw [execTlbiNg, nextOr_next]
  exact sysInstr_keeps (P := (· = s.mem)) rfl fun t x l v ht =>
    .guard fun _ => (tlbiCommon_mem ..).mono fun _ h => h.trans ht

@[simp] theorem execErrd_mem (h : Hdr) (clr : Bool) (d : Nat) (b : Opd) (s : State) :
    (nextOr s (execErrd h clr d b s)).mem = s.mem := by
  rw [execErrd, nextOr_next]
  exact sysInstr_keeps (P := (· = s.mem)) rfl fun t x l v ht =>
    .ite (by simp [ht]) (.ite (by simp) (by simp [ht]))

@[simp] theorem execHalt_mem (h : Hdr) (b : Opd) (s : State) : (nextOr s (execHalt h b s)).mem = s.mem := by
  rw [execHalt, nextOr_next]
  exact sysInstr_keeps (P := (· = s.mem)) rfl fun t x l v ht =>
    .guard fun _ => .seq fun _ => .seq fun _ => by simp [ht]

@[simp] theorem execResultReturn_mem (id : Nat) (how : Served) (s : State) :
    (nextOr s (execResultReturn id how s)).mem = s.mem := by
  unfold execResultReturn
  dsimp only [nextOr_next]
  (repeat' split) <;> simp

@[simp] theorem execAckReceived_mem (id : Nat) (s : State) : (nextOr s (execAckReceived id s)).mem = s.mem := by
  unfold execAckReceived
  dsimp only [nextOr_next]
  (repeat' split) <;> simp

@[simp] theorem execAcktimeout_mem (aid : Nat) (s : State) : (nextOr s (execAcktimeout aid s)).mem = s.mem := by
  unfold execAcktimeout
  dsimp only [nextOr_next]
  (repeat' split) <;> simp

@[simp] theorem execPacketAgeDiscard_mem (p : Parcel) (s : State) :
    (nextOr s (execPacketAgeDiscard p s)).mem = s.mem := by
  unfold execPacketAgeDiscard
  dsimp only [nextOr_next]
  (repeat' split) <;> simp

@[simp] theorem execUncorrectableHeaderDrop_mem (p : Parcel) (atHome : Bool) (port link layer : Nat) (s : State) :
    (nextOr s (execUncorrectableHeaderDrop p atHome port link layer s)).mem = s.mem := by
  unfold execUncorrectableHeaderDrop
  split <;> simp

@[simp] theorem execFlitCrcRetransmit_mem (lane : Nat) (s : State) :
    (nextOr s (execFlitCrcRetransmit lane s)).mem = s.mem := by simp [execFlitCrcRetransmit]

@[simp] theorem execEaselAgeExpiry_mem (q : Nat) (s : State) : (nextOr s (execEaselAgeExpiry q s)).mem = s.mem := by
  unfold execEaselAgeExpiry
  dsimp only [nextOr_next]
  (repeat' split) <;> simp

@[simp] theorem execTaskFormingTimer_mem (core : Nat) (s : State) :
    (nextOr s (execTaskFormingTimer core s)).mem = s.mem := by simp [execTaskFormingTimer, apply_ite State.mem]

@[simp] theorem execPtpMessage_mem (m : PtpMsg) (s : State) : (nextOr s (execPtpMessage m s)).mem = s.mem := by
  unfold execPtpMessage
  dsimp only [nextOr_next]
  (repeat' split) <;> simp

@[simp] theorem execRdmaRead_mem (ctx qp : Nat) (va : DWord) (n : Nat) (s : State) :
    (nextOr s (execRdmaRead ctx qp va n s)).mem = s.mem := by
  unfold execRdmaRead
  dsimp only [nextOr_next]
  (repeat' split) <;> simp

@[simp] theorem execRdmaRefused_mem (qp : Nat) (s : State) : (nextOr s (execRdmaRefused qp s)).mem = s.mem := rfl

@[simp] theorem execBistComplete_mem (failed : List TestedUnit) (s : State) :
    (nextOr s (execBistComplete failed s)).mem = s.mem := by
  rw [execBistComplete, nextOr_next]
  split
  · rfl
  · split
    · rfl
    · exact foldl_mem (fun t u => by simp) _ _

@[simp] theorem execRecoverFetch_mem (s : State) : (nextOr s (execRecoverFetch s)).mem = s.mem := by
  unfold execRecoverFetch
  split <;> simp

@[simp] theorem execRecoverImageReceived_mem (img : FwImage) (s : State) :
    (nextOr s (execRecoverImageReceived img s)).mem = s.mem := by simp [execRecoverImageReceived, apply_ite State.mem]

@[simp] theorem execOnlineRepairSwitch_mem (repair : Nat) (s : State) :
    (nextOr s (execOnlineRepairSwitch repair s)).mem = s.mem := by
  unfold execOnlineRepairSwitch
  dsimp only [nextOr_next]
  (repeat' split) <;> simp

@[simp] theorem execLaneRetrainComplete_mem (port : Nat) (s : State) :
    (nextOr s (execLaneRetrainComplete port s)).mem = s.mem := by
  unfold execLaneRetrainComplete
  dsimp only [nextOr_next]
  (repeat' split) <;> simp

@[simp] theorem execIdentity_mem (s : State) : (nextOr s (execIdentity s)).mem = s.mem := by
  rw [execIdentity, nextOr_next]
  refine manage_keeps (P := (· = s.mem)) rfl ?_
  simp

@[simp] theorem execStatus_mem (s : State) : (nextOr s (execStatus s)).mem = s.mem := by
  rw [execStatus, nextOr_next]
  refine manage_keeps (P := (· = s.mem)) rfl ?_
  simp

@[simp] theorem execLogread_mem (signer : Option MgmtKey) (seq : Nat) (s : State) :
    (nextOr s (execLogread signer seq s)).mem = s.mem := by
  rw [execLogread, nextOr_next]
  refine manage_keeps (P := (· = s.mem)) rfl ?_
  simp

@[simp] theorem execLogclear_mem (signer : Option MgmtKey) (s : State) :
    (nextOr s (execLogclear signer s)).mem = s.mem := by
  rw [execLogclear, nextOr_next]
  refine manage_keeps (P := (· = s.mem)) rfl ?_
  simp

@[simp] theorem execCounters_mem (signer : Option MgmtKey) (s : State) :
    (nextOr s (execCounters signer s)).mem = s.mem := by
  rw [execCounters, nextOr_next]
  refine manage_keeps (P := (· = s.mem)) rfl ?_
  simp

@[simp] theorem execThresh_mem (signer : Option MgmtKey) (u : ErrUnit) (v : Word) (s : State) :
    (nextOr s (execThresh signer u v s)).mem = s.mem := by
  rw [execThresh, nextOr_next]
  refine manage_keeps (P := (· = s.mem)) rfl ?_
  split
  · simp
  · simp [apply_ite State.mem]

@[simp] theorem execMargin_mem (signer : Option MgmtKey) (u : ErrUnit) (v : Nat) (s : State) :
    (nextOr s (execMargin signer u v s)).mem = s.mem := by
  rw [execMargin, nextOr_next]
  refine manage_keeps (P := (· = s.mem)) rfl ?_
  simp

@[simp] theorem execMgmtFence_mem (signer : Option MgmtKey) (core : Nat) (s : State) :
    (nextOr s (execMgmtFence signer core s)).mem = s.mem := by
  rw [execMgmtFence, nextOr_next]
  refine manage_keeps (P := (· = s.mem)) rfl ?_
  split <;> simp

@[simp] theorem execUnfence_mem (signer : Option MgmtKey) (core : Nat) (s : State) :
    (nextOr s (execUnfence signer core s)).mem = s.mem := by
  rw [execUnfence, nextOr_next]
  refine manage_keeps (P := (· = s.mem)) rfl ?_
  split <;> simp

@[simp] theorem execRowmap_mem (signer : Option MgmtKey) (core bank row : Nat) (column : Bool) (s : State) :
    (nextOr s (execRowmap signer core bank row column s)).mem = s.mem := by
  rw [execRowmap, nextOr_next]
  refine startRequest_keeps (P := (· = s.mem)) rfl ?_
  dsimp only
  split <;> simp

@[simp] theorem execBankmap_mem (signer : Option MgmtKey) (core : Nat) (bank : BankName) (s : State) :
    (nextOr s (execBankmap signer core bank s)).mem = s.mem := by
  rw [execBankmap, nextOr_next]
  refine mapCommand_keeps (P := (· = s.mem)) rfl ?_
  dsimp only
  split <;> simp

@[simp] theorem execLanemap_mem (signer : Option MgmtKey) (lane : LaneName) (s : State) :
    (nextOr s (execLanemap signer lane s)).mem = s.mem := by
  rw [execLanemap, nextOr_next]
  refine startRequest_keeps (P := (· = s.mem)) rfl ?_
  dsimp only
  split <;> simp

@[simp] theorem execChanmap_mem (signer : Option MgmtKey) (chan : Nat) (s : State) :
    (nextOr s (execChanmap signer chan s)).mem = s.mem := by
  rw [execChanmap, nextOr_next]
  refine startRequest_keeps (P := (· = s.mem)) rfl ?_
  dsimp only
  split <;> simp

@[simp] theorem execImage_mem (signer : Option MgmtKey) (img : FwImage) (s : State) :
    (nextOr s (execImage signer img s)).mem = s.mem := by
  rw [execImage, nextOr_next]
  refine manage_keeps (P := (· = s.mem)) rfl ?_
  simp

@[simp] theorem execKillContext_mem (signer : Option MgmtKey) (id : Nat) (s : State) :
    (nextOr s (execKillContext signer id s)).mem = s.mem := by
  rw [execKillContext, nextOr_next]
  refine startRequest_keeps (P := (· = s.mem)) rfl ?_
  simp [Option.map_eq_some_iff]

@[simp] theorem execKillDrainComplete_mem (id : Nat) (s : State) :
    (nextOr s (execKillDrainComplete id s)).mem = s.mem := by
  unfold execKillDrainComplete
  dsimp only [nextOr_next]
  (repeat' split) <;> simp

@[simp] theorem execWriteTtEntry_mem (signer : Option MgmtKey) (n : Nat) (e : TTEntry) (s : State) :
    (nextOr s (execWriteTtEntry signer n e s)).mem = s.mem := by
  rw [execWriteTtEntry, nextOr_next]
  refine devmgr_keeps (P := (· = s.mem)) rfl ?_
  split <;> simp

@[simp] theorem execSetExportWindow_mem (signer : Option MgmtKey) (id : Nat) (w : ExportWin) (s : State) :
    (nextOr s (execSetExportWindow signer id w s)).mem = s.mem := by
  rw [execSetExportWindow, nextOr_next]
  refine ctxRequest_keeps (P := (· = s.mem)) rfl ?_
  intro c
  split <;> simp

@[simp] theorem execAssignEaselQueues_mem (signer : Option MgmtKey) (id : Nat) (qs : List Nat) (s : State) :
    (nextOr s (execAssignEaselQueues signer id qs s)).mem = s.mem := by
  rw [execAssignEaselQueues, nextOr_next]
  refine ctxRequest_keeps (P := (· = s.mem)) rfl ?_
  intro c
  split <;> simp

@[simp] theorem execConfigureEgressChannel_mem (signer : Option MgmtKey) (id chan : Nat) (e : EgressCfg)
    (s : State) : (nextOr s (execConfigureEgressChannel signer id chan e s)).mem = s.mem := by
  rw [execConfigureEgressChannel, nextOr_next]
  refine ctxRequest_keeps (P := (· = s.mem)) rfl ?_
  intro c
  split <;> simp

@[simp] theorem execMeasureIntoContext_mem (signer : Option MgmtKey) (id : Nat) (bytes : List Byte) (s : State) :
    (nextOr s (execMeasureIntoContext signer id bytes s)).mem = s.mem := by
  rw [execMeasureIntoContext, nextOr_next]
  refine ctxRequest_keeps (P := (· = s.mem)) rfl ?_
  simp

@[simp] theorem execAttestationReport_mem (signer : Option MgmtKey) (id : Nat) (nonce : BitVec 256) (s : State) :
    (nextOr s (execAttestationReport signer id nonce s)).mem = s.mem := by
  rw [execAttestationReport, nextOr_next]
  refine manage_keeps (P := (· = s.mem)) rfl ?_
  simp [Option.map_eq_some_iff]

@[simp] theorem execEndCommission_mem (signer : Option MgmtKey) (id : Nat) (s : State) :
    (nextOr s (execEndCommission signer id s)).mem = s.mem := by
  rw [execEndCommission, nextOr_next]
  refine devmgr_keeps (P := (· = s.mem)) rfl ?_
  simp [Option.map_eq_some_iff, foldl_mem]

@[simp] theorem execDeviceRegisterWrite_mem (reg : Nat) (v : DWord) (s : State) :
    (nextOr s (execDeviceRegisterWrite reg v s)).mem = s.mem := by
  unfold execDeviceRegisterWrite
  split <;> simp

@[simp] theorem execPtpSourceUnlocked_mem (s : State) : (nextOr s (execPtpSourceUnlocked s)).mem = s.mem := rfl

@[simp] theorem execOperandFillComplete_mem (id : Nat) (s : State) :
    (nextOr s (execOperandFillComplete id s)).mem = s.mem := by
  unfold execOperandFillComplete
  dsimp only [nextOr_next]
  (repeat' split) <;> simp

@[simp] theorem execImageReadComplete_mem (aid : Nat) (s : State) :
    (nextOr s (execImageReadComplete aid s)).mem = s.mem := by
  unfold execImageReadComplete
  dsimp only [nextOr_next]
  (repeat' split) <;> simp

@[simp] theorem execEnlargeSaveRegion_mem (signer : Option MgmtKey) (id size : Nat) (s : State) :
    (nextOr s (execEnlargeSaveRegion signer id size s)).mem = s.mem := by
  rw [execEnlargeSaveRegion, nextOr_next]
  refine ctxRequest_keeps (P := (· = s.mem)) rfl ?_
  intro c
  split <;> simp

/-! ### What may write memory keeps its canonical form

Memory is written only by `memWrite`, `writeSegs`, `storeSegs`, `zeroRange` (and emptied by a reset); Laws/Memory says
that each keeps the form. -/

/-! #### Scratch, barriers and the end of agents -/

@[simp] theorem scratchWrite_wf (s : State) (p : Panel) (off : Nat) (bs : List Byte) (hs : Memory.wf s.mem = true) :
    Memory.wf (scratchWrite s p off bs).mem = true := by
  rw [scratchWrite, dropRecent_mem]
  exact memWrite_wf _ _ _ hs

@[simp] theorem setBarObj_wf (s : State) (p : Panel) (off v : Nat) (hs : Memory.wf s.mem = true) :
    Memory.wf (setBarObj s p off v).mem = true := by simp [setBarObj, hs]

@[simp] theorem barCheck_wf (s : State) (panel off : Nat) (hs : Memory.wf s.mem = true) :
    Memory.wf (barCheck s panel off).mem = true := by
  unfold barCheck
  split
  · exact hs
  · dsimp only
    split
    · refine foldl_wf (fun u k hu => ?_) _ _ (setBarObj_wf _ _ _ _ hs)
      (repeat' split) <;> simp [hu]
    · exact hs

@[simp] theorem changeBar_wf (s : State) (panel off : Nat) (f : Nat → Nat) (hs : Memory.wf s.mem = true) :
    Memory.wf (changeBar s panel off f).mem = true := by
  unfold changeBar
  (repeat' split) <;> simp [hs]

@[simp] theorem barExit_wf (s : State) (panel idx : Nat) (hs : Memory.wf s.mem = true) :
    Memory.wf (barExit s panel idx).mem = true := by
  unfold barExit
  split
  · exact hs
  · refine foldl_wf (fun u off hu => ?_) _ _ hs
    split <;> simp [hu]

@[simp] theorem endStroke_wf (s : State) (stroke : Nat) (hs : Memory.wf s.mem = true) :
    Memory.wf (endStroke s stroke).mem = true := by
  unfold endStroke
  dsimp only
  (repeat' split) <;> simp [hs]

@[simp] theorem barArrive_wf (s : State) (panel stroke off : Nat) (hs : Memory.wf s.mem = true) :
    Memory.wf (barArrive s panel stroke off).mem = true := by
  unfold barArrive
  (repeat' split) <;> simp [hs]

@[simp] theorem arriveRest_wf (s : State) (stroke : Nat) (hs : Memory.wf s.mem = true) :
    Memory.wf (arriveRest s stroke).mem = true := by
  unfold arriveRest
  (repeat' split) <;> simp [hs]

@[simp] theorem endAgent_wf (s : State) (aid : Nat) (hs : Memory.wf s.mem = true) :
    Memory.wf (endAgent s aid).mem = true := by
  unfold endAgent
  dsimp only
  split <;> simp [apply_ite State.mem, apply_ite Memory.wf, hs]

@[simp] theorem exitAgent_wf (s : State) (x : Ctxt) (lanes : Mask) (fuel : Nat) (a : Agent)
    (hs : Memory.wf s.mem = true) : Yields (fun t => Memory.wf t.mem = true) (exitAgent s x lanes fuel a) := by
  induction fuel generalizing s a with
  | zero => simp [exitAgent, hs]
  | succ fuel ih =>
    rw [exitAgent]
    split
    · simp [hs]
    · dsimp only
      split
      · simp [hs]
      · split
        · simp [hs]
        · split
          · exact (joinArrive_mem ..).mono fun t ht => by simp [ht, hs]
          · simp [hs]
        · exact ih _ _ (by simp [hs])

@[simp] theorem execExit_wf (sw : Bool) (s : State) (hs : Memory.wf s.mem = true) :
    Memory.wf (nextOr s (execExit sw s)).mem = true := by
  rw [execExit, nextOr_next]
  refine ctlInstr_keeps (P := (Memory.wf · = true)) hs fun t x m ht => .seq fun _ => .seq fun _ => ?_
  split
  · simp [ht, hs]
  · exact exitAgent_wf _ _ _ _ _ (by rw [ht]; exact hs)

@[simp] theorem execBar_wf (h : Hdr) (a : Opd) (s : State) (hs : Memory.wf s.mem = true) :
    Memory.wf (nextOr s (execBar h a s)).mem = true := by
  rw [execBar, nextOr_next]
  refine wideInstr_keeps (P := (Memory.wf · = true)) hs fun t x l vs ht => .seq fun off => .seq fun _ => ?_
  exact .guard fun _ => .guard fun _ => .guard fun _ => .seq fun _ => .seq fun _ => by simp [ht, hs]

/-! #### Instructions that write scratch -/

@[simp] theorem zeroComp_wf (s : State) (p : Panel) (co : Option Nat) (n : Nat) (hs : Memory.wf s.mem = true) :
    Memory.wf (zeroComp s p co n).mem = true := by
  unfold zeroComp
  split
  · exact hs
  · simp [writeSegs_wf, hs]

@[simp] theorem startCopy_wf (s : State) (x : Ctxt) (c0 : Copy) (size : Nat) (hs : Memory.wf s.mem = true) :
    Memory.wf (startCopy s x c0 size).mem = true := by
  unfold startCopy
  dsimp only
  (repeat' split) <;> simp [hs]

@[simp] theorem execBarx_wf (h : Hdr) (out : Bool) (scp : Scope) (d a b c : Opd) (s : State)
    (hs : Memory.wf s.mem = true) : Memory.wf (nextOr s (execBarx h out scp d a b c s)).mem = true := by
  rw [execBarx, nextOr_next]
  refine wideInstr_keeps (P := (Memory.wf · = true)) hs fun t x l vs ht => ?_
  refine .guard fun _ => .seq fun pk => .seq fun lc => ?_
  refine .seq fun off => .seq fun _ => .guard fun _ => .guard fun _ => .seq fun _ => .seq fun _ => ?_
  simp [ht, hs]

@[simp] theorem execBinit_wf (h : Hdr) (a b : Opd) (s : State) (hs : Memory.wf s.mem = true) :
    Memory.wf (nextOr s (execBinit h a b s)).mem = true := by
  rw [execBinit, nextOr_next]
  refine wideInstr_keeps (P := (Memory.wf · = true)) hs fun t x l vs ht => .guard fun _ => ?_
  dsimp -zeta only
  split
  · simp
  · exact .guard fun _ => .seq fun _ => .guard fun _ => by simp [ht, hs]

@[simp] theorem execCpy_wf (h : Hdr) (out : Bool) (scp : Scope) (a b c : Opd) (s : State)
    (hs : Memory.wf s.mem = true) : Memory.wf (nextOr s (execCpy h out scp a b c s)).mem = true := by
  rw [execCpy, nextOr_next]
  refine wideInstr_keeps (P := (Memory.wf · = true)) hs fun t x l vs ht => ?_
  refine .guard fun _ => .seq fun pk => .seq fun lc => ?_
  exact .seq fun _ => .seq fun _ => by simp [ht, hs]

@[simp] theorem exchangeRegion_wf (s : State) (r : Region) (hs : Memory.wf s.mem = true) :
    Memory.wf (exchangeRegion s r).mem = true :=
  List.foldlRecOn (motive := (Memory.wf · = true)) r.segs _ hs fun _ hm _ _ => memWrite_wf _ _ _ hm

@[simp] theorem execPub_wf (h : Hdr) (_scp : Scope) (a : Opd) (s : State) (hs : Memory.wf s.mem = true) :
    Memory.wf (nextOr s (execPub h _scp a s)).mem = true := by
  rw [execPub, nextOr_next]
  refine wideInstr_keeps (P := (Memory.wf · = true)) hs fun t x l vs ht => ?_
  exact .seq fun r => .seq fun _ => .guard fun _ => by simp [ht, hs]

@[simp] theorem execMcast_wf (h : Hdr) (n : Nat) (a b c : Opd) (s : State) (hs : Memory.wf s.mem = true) :
    Memory.wf (nextOr s (execMcast h n a b c s)).mem = true := by
  rw [execMcast, nextOr_next]
  refine wideInstr_keeps (P := (Memory.wf · = true)) hs fun t x l vs ht => .seq fun lc => ?_
  dsimp -zeta only
  extract_lets -underBinder va
  split
  · simp
  · exact .seq fun _ => .seq fun _ => .seq fun _ => .seq fun _ => by simp [ht, hs]

@[simp] theorem execColl_wf (h : Hdr) (a c : Opd) (s : State) (hs : Memory.wf s.mem = true) :
    Memory.wf (nextOr s (execColl h a c s)).mem = true := by
  rw [execColl, nextOr_next]
  refine wideInstr_keeps (P := (Memory.wf · = true)) hs fun t x l vs ht => .guard fun _ => .guard fun _ => ?_
  refine .seq fun ps => .bind (readNow_mem ..) fun r hr => ?_
  refine .guard fun _ => .guard fun _ => .guard fun _ => .guard fun _ => .guard fun _ => ?_
  dsimp -zeta only
  extract_lets -underBinder bytes jp
  have hjp : ∀ co, Yields (fun u => Memory.wf u.mem = true) (jp co) := fun co =>
    .seq fun _ => .seq fun _ => .seq fun _ => .guard fun _ => .seq fun _ => .seq fun _ => by simp [hr, ht, hs]
  split
  · split
    · exact .seq hjp
    · exact .seq hjp
  · exact .seq hjp

@[simp] theorem leaveLanes_wf (s : State) (aid : Nat) (gone : Mask) (hs : Memory.wf s.mem = true) :
    Memory.wf (leaveLanes s aid gone).mem = true := by
  unfold leaveLanes
  (repeat' split) <;> simp [hs]

@[simp] theorem execTyld_wf (h : Hdr) (d : Nat) (a b : Opd) (s : State) (hs : Memory.wf s.mem = true) :
    Memory.wf (nextOr s (execTyld h d a b s)).mem = true := by
  rw [execTyld, nextOr_next]
  refine runAgent_keeps (P := (Memory.wf · = true)) hs fun x0 => .bind (taskGather_mem ..) fun r hr => ?_
  obtain ⟨t, x⟩ := r
  have ht : Memory.wf t.mem = true := by rw [hr]; exact hs
  refine .ite ((commitRegs_mem ..).mono fun u hu => by rw [hu]; exact ht) ?_
  refine .seq fun vs => .bind (spawnTasks_mem ..) fun q hq => .guard fun _ => .bind (commitRegs_mem ..) fun u hu => ?_
  simp [hu, hq, ht]

/-! #### Writes at a home and packets -/

@[simp] theorem scribble_wf (s : State) (segs : List (Nat × Nat)) (hs : Memory.wf s.mem = true) :
    Memory.wf (scribble s segs).mem = true := by
  refine foldl_wf (fun u p hu => foldl_wf (fun v off hv => ?_) _ _ hu) _ _ hs
  dsimp only
  split
  · exact memWrite_wf _ _ _ hv
  · exact hv

@[simp] theorem engineWrite_wf (s : State) (ctx : Nat) (segs : List (Nat × Nat)) (bs : List Byte)
    (hs : Memory.wf s.mem = true) : Memory.wf (engineWrite s ctx segs bs).1.mem = true := by
  unfold engineWrite
  split <;> simp [storeSegs_wf, hs]

@[simp] theorem spillWrite_wf (s : State) (e : EQueue) (x : QEntry) (hs : Memory.wf s.mem = true) :
    Memory.wf (spillWrite s e x).1.mem = true := by
  unfold spillWrite
  split
  · simp [hs]
  · have h := engineWrite_wf s e.ctx ‹_› x.bytes hs
    split <;> simp_all

@[simp] theorem pushEntry_wf (s : State) (q : Nat) (bytes : List Byte) (hs : Memory.wf s.mem = true) :
    Memory.wf (pushEntry s q bytes).1.mem = true := by
  unfold pushEntry
  (repeat' split) <;> simp [hs]

@[simp] theorem pushEntries_wf (q : Nat) (bytes : Nat → List Byte) (ls : List Nat) (s : State)
    (hs : Memory.wf s.mem = true) : Memory.wf (pushEntries q bytes ls s).1.mem = true := by
  induction ls generalizing s with
  | nil => exact hs
  | cons l t ih => exact ih _ (pushEntry_wf _ _ _ hs)

@[simp] theorem execEqpush_wf (h : Hdr) (d : Option Nat) (e : Nat) (q : Opd) (s : State)
    (hs : Memory.wf s.mem = true) : Memory.wf (nextOr s (execEqpush h d e q s)).mem = true := by
  unfold execEqpush
  extract_lets -underBinder dsts
  rw [nextOr_next]
  refine taskInstr_keeps (P := (Memory.wf · = true)) hs fun t x l vs ht => .guard fun _ => .seq fun _ => ?_
  have hp := fun n b ls => pushEntries_wf n b ls t (by rw [ht]; exact hs)
  dsimp only
  generalize (laneList l x.w).filter _ = bad
  split
  · simp
  · exact .seq fun _ => by simp [apply_ite State.mem, hp]

@[simp] theorem updateParts_wf (k : Packet) (ps : List (PacketPart × List (Nat × Nat))) (view : Memory)
    (acc : State × Option Result × BitVec 6) (hs : Memory.wf acc.1.mem = true) :
    Memory.wf (updateParts k ps view acc).1.mem = true := by
  induction ps generalizing view acc with
  | nil => exact hs
  | cons e t ih =>
    obtain ⟨p, segs⟩ := e
    obtain ⟨s, r, fl⟩ := acc
    rw [updateParts]
    refine ih _ _ ?_
    dsimp only
    split
    · exact storeSegs_wf _ _ _ hs
    · exact hs

@[simp] theorem applyParts_wf (k : Packet) (ps : List (PacketPart × List (Nat × Nat)))
    (acc : State × Option Result × BitVec 6) (hs : Memory.wf acc.1.mem = true) :
    Memory.wf (applyParts k ps acc).1.mem = true := updateParts_wf _ _ _ _ hs

@[simp] theorem performPacket_wf (s : State) (k : Packet) (parts : List (PacketPart × List (Nat × Nat)))
    (hs : Memory.wf s.mem = true) : Memory.wf (performPacket s k parts).mem = true := by
  unfold performPacket
  extract_lets -underBinder segs refuse
  clear_value refuse
  split <;> simp [hs]

@[simp] theorem remotePacket_wf (s : State) (k : Packet) (olds : List Byte) (hs : Memory.wf s.mem = true) :
    Memory.wf (remotePacket s k olds).mem = true := by
  unfold remotePacket
  have h := engineWrite_wf s k.ctx (localShare s k).1 (localShare s k).2 hs
  dsimp only
  split <;> simp_all

@[simp] theorem execWritePacketAtHome_wf (id : Nat) (how : RemoteAck) (s : State) (hs : Memory.wf s.mem = true) :
    Memory.wf (nextOr s (execWritePacketAtHome id how s)).mem = true := by
  unfold execWritePacketAtHome
  dsimp only
  (repeat' split) <;> simp [hs]

/-! #### Copies and collectives -/

@[simp] theorem takePending_wf (s : State) (id panel off n : Nat) (hs : Memory.wf s.mem = true) :
    Memory.wf (takePending s id panel off n).mem = true := by
  unfold takePending
  split <;> simp [hs]

@[simp] theorem chunkPending_wf (s : State) (id : Nat) (c : Copy) (n : Nat) (hs : Memory.wf s.mem = true) :
    Memory.wf (chunkPending s id c n).mem = true := by
  unfold chunkPending
  (repeat' split) <;> simp [hs]

@[simp] theorem scratchBits_wf (s : State) (id panel off : Nat) (bits : Byte) (hs : Memory.wf s.mem = true) :
    Memory.wf (scratchBits s id panel off bits).mem = true := by
  unfold scratchBits
  split <;> simp [hs]

@[simp] theorem markAt_wf (s : State) (id panel : Nat) (comp : Option Nat) (orphan : Bool) (f : ChunkFault)
    (hs : Memory.wf s.mem = true) : Memory.wf (markAt s id panel comp orphan f).mem = true := by
  unfold markAt
  (repeat' split) <;> simp [hs]

@[simp] theorem markFault_wf (s : State) (id : Nat) (c : Copy) (f : ChunkFault) (hs : Memory.wf s.mem = true) :
    Memory.wf (markFault s id c f).mem = true := by simp [markFault, hs]

@[simp] theorem chunkFail_wf (s : State) (id : Nat) (c : Copy) (k : Nat) (f : ChunkFault)
    (hs : Memory.wf s.mem = true) : Memory.wf (chunkFail s id c k f).mem = true := by simp [chunkFail, hs]

@[simp] theorem failChunks_wf (s : State) (id : Nat) (f : ChunkFault) (ks : List Nat) (c : Copy)
    (hs : Memory.wf s.mem = true) : Memory.wf (failChunks s id f ks c).1.mem = true := by
  induction ks generalizing s c with
  | nil => exact hs
  | cons k t ih =>
    refine ih _ _ ?_
    split <;> simp [hs]

@[simp] theorem copyLost_wf (s : State) (id : Nat) (e : Nat × Nat) (hs : Memory.wf s.mem = true) :
    Memory.wf (copyLost s id e).mem = true := by
  unfold copyLost
  (repeat' split) <;> simp [hs]

@[simp] theorem mcastNoSource_wf (s : State) (id : Nat) (c : Copy) (k : Nat) (f : ChunkFault)
    (hs : Memory.wf s.mem = true) : Memory.wf (mcastNoSource s id c k f).mem = true := by
  unfold mcastNoSource
  dsimp only
  simp [foldl_mem_fst, hs]

@[simp] theorem copyUnread_wf (s : State) (id : Nat) (c : Copy) (hs : Memory.wf s.mem = true) :
    Memory.wf (copyUnread s id c).mem = true := by
  unfold copyUnread
  dsimp only
  split
  · exact hs
  · rw [addLate_mem]
    refine foldl_wf (fun u k hu => ?_) _ _ hs
    (repeat' split) <;> simp [hu]

@[simp] theorem copyTimeout_wf (s : State) (id : Nat) (c : Copy) (hs : Memory.wf s.mem = true) :
    Memory.wf (copyTimeout s id c).mem = true := by
  unfold copyTimeout
  dsimp only
  have h := foldl_wf (f := fun t e => copyLost t id e) (fun u e hu => copyLost_wf _ _ _ hu)
    (c.lost.filter fun e => (servedOf c e.1 e.2).isNone && !(e.2 == 0 && c.failed.contains e.1)) s hs
  split
  · exact hs
  · split
    · exact h
    · exact copyUnread_wf _ _ _ h

@[simp] theorem collFail_wf (s : State) (e : Nat × Coll) (derr : Bool) (hs : Memory.wf s.mem = true) :
    Memory.wf (collFail s e derr).mem = true := by simp [collFail, hs]

@[simp] theorem collErr_wf (s : State) (e : Nat × Coll) (derr : Bool) (hs : Memory.wf s.mem = true) :
    Memory.wf (collErr s e derr).mem = true := by simp [collErr, hs]

@[simp] theorem collTimeout_wf (s : State) (id : Nat) (c : Coll) (hs : Memory.wf s.mem = true) :
    Memory.wf (collTimeout s id c).mem = true := by
  unfold collTimeout
  extract_lets -underBinder away
  split
  · exact hs
  · split
    · exact hs
    · rw [addLate_mem]
      exact foldl_wf (fun u e hu => collErr_wf _ _ _ hu) _ _ hs

@[simp] theorem execRemoteReadTimeout_wf (id : Nat) (s : State) (hs : Memory.wf s.mem = true) :
    Memory.wf (nextOr s (execRemoteReadTimeout id s)).mem = true := by
  unfold execRemoteReadTimeout
  (repeat' split) <;> simp [hs]

@[simp] theorem chunkBit_wf (s : State) (id panel : Nat) (comp : Option Nat) (orphan : Bool) (k : Nat)
    (hs : Memory.wf s.mem = true) : Memory.wf (chunkBit s id panel comp orphan k).mem = true := by
  unfold chunkBit
  (repeat' split) <;> simp [hs]

@[simp] theorem chunkOk_wf (s : State) (id : Nat) (c : Copy) (k : Nat) (hs : Memory.wf s.mem = true) :
    Memory.wf (chunkOk s id c k).mem = true := by simp [chunkOk, hs]

@[simp] theorem coreWrite_wf (s : State) (core ctx : Nat) (segs : List (Nat × Nat)) (bs : List Byte)
    (hs : Memory.wf s.mem = true) : Memory.wf (coreWrite s core ctx segs bs).1.mem = true := by
  unfold coreWrite
  dsimp only
  split <;> simp [hs]

@[simp] theorem outElems_wf (s : State) (c : Copy) (es : List (Nat × List (Nat × Nat)))
    (hs : Memory.wf s.mem = true) : Memory.wf (outElems s c es).1.mem = true := by
  unfold outElems
  split
  · simp [hs]
  · next bs _ =>
    extract_lets -underBinder w
    have h := coreWrite_wf s c.core c.ctx w.1 w.2 hs
    split <;> simp_all

@[simp] theorem landOut_wf (s : State) (id : Nat) (c : Copy) (k : Nat) (hs : Memory.wf s.mem = true) :
    Memory.wf (landOut s id c k).mem = true := by
  unfold landOut
  dsimp only
  (repeat' split) <;> simp [hs]

@[simp] theorem landIn_wf (s : State) (id : Nat) (c : Copy) (k : Nat) (hs : Memory.wf s.mem = true) :
    Memory.wf (landIn s id c k).mem = true := by
  unfold landIn
  split
  · simp [hs]
  · simp [hs]
  · next es p _ _ =>
    extract_lets -underBinder segs
    have h := coreWrite_wf (chunkRead s c k) p.core c.ctx segs (es.flatMap (·.2)) (by simp [hs])
    split <;> simp_all

@[simp] theorem collLand_wf (s : State) (id : Nat) (c : Coll) (bytes : List Byte) (k : Nat)
    (hs : Memory.wf s.mem = true) : Memory.wf (collLand s id c bytes k).mem = true := by
  unfold collLand
  extract_lets -underBinder bs c1 put bad va
  have hput : ∀ t, (put t).mem = t.mem := fun t => by
    simp only [put, apply_ite State.mem, ite_self]
  have hbad : ∀ t f, Memory.wf t.mem = true → Memory.wf (bad t f).mem = true := fun t f ht => by
    simp only [bad, hput]
    exact markAt_wf _ _ _ _ _ _ ht
  split
  · exact hbad _ _ (by simp [hs])
  · next g _ =>
    extract_lets -underBinder away s0 w
    have h0 : Memory.wf s0.mem = true := by simp [s0, apply_ite State.mem, hs]
    split
    · exact hbad _ _ h0
    · split
      · exact hbad _ _ h0
      · have h := coreWrite_wf s0 c.core c.ctx w.1 w.2 h0
        split <;> simp_all

@[simp] theorem execChunkLanded_wf (id k : Nat) (s : State) (hs : Memory.wf s.mem = true) :
    Memory.wf (nextOr s (execChunkLanded id k s)).mem = true := by
  unfold execChunkLanded
  (repeat' split) <;> simp [hs]

@[simp] theorem servePart_wf (s : State) (id : Nat) (c : Copy) (k : Nat) (how : RemoteAck)
    (hs : Memory.wf s.mem = true) : Memory.wf (servePart s id c k how).mem = true := by
  unfold servePart
  dsimp only
  (repeat' split) <;> simp [hs]

@[simp] theorem mcastAnswer_wf (s : State) (id : Nat) (c : Copy) (l d : Nat) (es : List (Nat × List Byte))
    (f : Option ChunkFault) (hs : Memory.wf s.mem = true) : Memory.wf (mcastAnswer s id c l d es f).mem = true := by
  unfold mcastAnswer
  (repeat' split) <;> simp [hs]

@[simp] theorem mcastLine_wf (s : State) (id : Nat) (c : Copy) (l d : Nat) (how : RemoteAck)
    (es : List (Nat × List Byte)) (hs : Memory.wf s.mem = true) :
    Memory.wf (mcastLine s id c l d how es).mem = true := by
  unfold mcastLine
  extract_lets -underBinder mine va bad first
  have hbad : ∀ t f, Memory.wf t.mem = true → Memory.wf (bad t f).mem = true := fun t f ht =>
    mcastAnswer_wf _ _ _ _ _ _ _ ht
  split
  · exact hbad _ _ (by simp [hs])
  · next g _ =>
    split
    · exact hbad _ _ hs
    · exact hs
    · exact hbad _ _ hs
    · exact hbad _ _ hs
    · exact hbad _ _ hs
    · exact hs
    · exact hs
    · exact hs
    · exact hs
    · extract_lets -underBinder w
      have h := coreWrite_wf s c.core c.ctx w.1 w.2 hs
      split <;> simp_all

@[simp] theorem execMcastDelivery_wf (id k d : Nat) (how : RemoteAck) (s : State) (hs : Memory.wf s.mem = true) :
    Memory.wf (nextOr s (execMcastDelivery id k d how s)).mem = true := by
  unfold execMcastDelivery
  (repeat' split) <;> simp [hs]

@[simp] theorem execCollHop_wf (id : Nat) (others : List CollOther) (s : State) (hs : Memory.wf s.mem = true) :
    Memory.wf (nextOr s (execCollHop id others s)).mem = true := by
  have hf : ∀ (l : List (Nat × Coll)), Memory.wf (l.foldl (fun t e => collErr t e false) s).mem = true :=
    fun l => foldl_wf (fun u e hu => collErr_wf _ _ _ hu) _ _ hs
  rw [execCollHop, nextOr_next]
  split
  · exact hs
  · split
    · exact hs
    · split
      · exact hs
      · split
        · simp [hs]
        · extract_lets -underBinder peers r
          split
          · exact hs
          · split
            · exact hf _
            · split
              · exact foldl_wf (fun u e hu => collErr_wf _ _ _ hu) _ _ (by simp [r, hs])
              · simp [r, hs]

/-! #### Combining deposits -/

@[simp] theorem slotStatus_wf (s : State) (segs : List (Nat × Nat)) (bits : Byte) (hs : Memory.wf s.mem = true) :
    Memory.wf (slotStatus s segs bits).mem = true := by exact storeSegs_wf _ _ _ hs

@[simp] theorem combDrop_wf (s : State) (d : Deposit) (segs : List (Nat × Nat)) (fault : Option Nat)
    (hs : Memory.wf s.mem = true) : Memory.wf (combDrop s d segs fault).mem = true := by simp [combDrop, hs]

@[simp] theorem unitWrite_wf (s : State) (ctx : Nat) (g : List (Nat × Nat)) (bs : List Byte)
    (hs : Memory.wf s.mem = true) : Memory.wf (unitWrite s ctx g bs).1.mem = true := by simp [unitWrite, hs]

@[simp] theorem notifyAdd_wf (s : State) (ctx : Nat) (g : List (Nat × Nat)) (hs : Memory.wf s.mem = true) :
    Memory.wf (notifyAdd s ctx g).1.mem = true := by
  unfold notifyAdd
  (repeat' split) <;> simp [storeSegs_wf, hs]

@[simp] theorem writeOut_wf (ctx : Nat) (gs : List (List (Nat × Nat))) (vs : List Nat) (s : State) (ok : Bool)
    (hs : Memory.wf s.mem = true) : Memory.wf (writeOut ctx gs vs s ok).1.mem = true := by
  induction gs generalizing vs s ok with
  | nil => exact hs
  | cons g gs ih =>
    cases vs with
    | nil => exact hs
    | cons v vs =>
      have h := unitWrite_wf s ctx g (bytesOf 4 v) hs
      rw [writeOut]
      split
      · exact ih _ _ _ (by simp_all)
      · exact ih _ _ _ (by simp_all)

@[simp] theorem combFinish_wf (s : State) (d : Deposit) (segs : List (Nat × Nat)) (c : CombSlot) (stage : List Byte)
    (outs : Option (List (List (Nat × Nat)))) (notify : Option (List (Nat × Nat))) (hs : Memory.wf s.mem = true) :
    Memory.wf (combFinish s d segs c stage outs notify).mem = true := by
  unfold combFinish
  extract_lets -underBinder row rows fl doNotify
  have hn : ∀ t, Memory.wf t.mem = true → Memory.wf (doNotify t).1.mem = true := fun t ht => by
    simp only [doNotify]
    split <;> simp [ht]
  split
  · next r _ =>
    have h := writeOut_wf d.ctx r (rows.map (·.1)) s true hs
    generalize writeOut d.ctx r (rows.map (·.1)) s true = w at h ⊢
    obtain ⟨s1, ok⟩ := w
    dsimp only
    generalize hv : slotStatus (storeSegs s1 _ _) _ _ = v
    have hv : Memory.wf v.mem = true := by
      subst hv
      exact slotStatus_wf _ _ _ (storeSegs_wf _ _ _ h)
    have h3 := hn v hv
    generalize doNotify v = q at h3 ⊢
    obtain ⟨s3, ok2⟩ := q
    (repeat' split) <;> simp [h3]
  · simp [hn, hs]

@[simp] theorem combPerform_wf (s : State) (d : Deposit) (segs : List (Nat × Nat)) (hs : Memory.wf s.mem = true) :
    Memory.wf (combPerform s d segs).mem = true := by
  unfold combPerform
  extract_lets -underBinder c last
  split
  · simp [hs]
  · split
    · simp [hs]
    · split
      · next own all _ _ =>
        split
        · simp [hs]
        · next row s0 he =>
          have h0 : s0.mem = s.mem := (rowBytesOf_mem s d.ctx d.row (4 * c.len)).of_ok _ he
          have h1 : ∀ g bs, Memory.wf (unitWrite s0 d.ctx g bs).1.mem = true := fun g bs =>
            unitWrite_wf _ _ _ _ (by rw [h0]; exact hs)
          extract_lets -underBinder mine others
          clear_value others
          split
          · simp [hs]
          · simp [hs]
          · simp [apply_ite State.mem, apply_ite Memory.wf, storeSegs_wf, h1]
      · simp [hs]

@[simp] theorem execCombineDeposit_wf (id : Nat) (s : State) (hs : Memory.wf s.mem = true) :
    Memory.wf (nextOr s (execCombineDeposit id s)).mem = true := by
  unfold execCombineDeposit
  (repeat' split) <;> simp [hs]

/-! #### Starting panels and tasks -/

@[simp] theorem allocScratch_wf (s : State) (ctx core n : Nat) (hs : Memory.wf s.mem = true) :
    Memory.wf (allocScratch s ctx core n).1.mem = true := by
  unfold allocScratch
  split
  · exact hs
  · split
    · exact hs
    · exact foldl_wf (fun u g hu => zeroRange_wf _ _ _ hu) _ _ hs

@[simp] theorem makePanel_wf (s : State) (comm : Nat) (c : Comm) (idx core : Nat) (hs : Memory.wf s.mem = true) :
    Memory.wf (makePanel s comm c idx core).mem = true := by
  unfold makePanel
  split <;> simp [hs]

@[simp] theorem fire_wf (s : State) (q : Nat) (e : EQueue) (core : Nat) (hs : Memory.wf s.mem = true) :
    Memory.wf (fire s q e core).mem = true := by simp [fire, hs]

@[simp] theorem execEaselFiring_wf (die : Nat) (s : State) (hs : Memory.wf s.mem = true) :
    Memory.wf (nextOr s (execEaselFiring die s)).mem = true := by
  unfold execEaselFiring
  (repeat' split) <;> simp [hs]

@[simp] theorem startTask_wf (s : State) (core comm : Nat) (c : Comm) (ts : List Tcb)
    (hs : Memory.wf s.mem = true) : Memory.wf (startTask s core comm c ts).mem = true := by simp [startTask, hs]

@[simp] theorem execTaskStrokeStart_wf (core : Nat) (s : State) (hs : Memory.wf s.mem = true) :
    Memory.wf (nextOr s (execTaskStrokeStart core s)).mem = true := by
  unfold execTaskStrokeStart
  (repeat' split) <;> simp [hs]

@[simp] theorem movePanel_wf (s : State) (id : Nat) (p : Panel) (core : Nat) (hs : Memory.wf s.mem = true) :
    Memory.wf (movePanel s id p core).mem = true := by
  unfold movePanel
  extract_lets -underBinder gs s1 mv s2
  have h1 : Memory.wf s1.mem = true := foldl_wf (fun u e hu => memWrite_wf _ _ _ (zeroRange_wf _ _ _ hu)) _ _ hs
  refine foldl_wf (fun u k hu => ?_) _ _ (by simp [s2, h1])
  split <;> simp [hu]

@[simp] theorem execStealRequest_wf (core : Nat) (s : State) (hs : Memory.wf s.mem = true) :
    Memory.wf (nextOr s (execStealRequest core s)).mem = true := by
  unfold execStealRequest
  (repeat' split) <;> simp [hs]

/-! #### Commission queues -/

@[simp] theorem setQcb_wf (s : State) (q : CQueue) (o n v : Nat) (hs : Memory.wf s.mem = true) :
    Memory.wf (setQcb s q o n v).mem = true := by simp [setQcb, hs]

@[simp] theorem faultQueue_wf (s : State) (n : Nat) (q : CQueue) (reason : Nat) (va : Option Nat)
    (hs : Memory.wf s.mem = true) : Memory.wf (faultQueue s n q reason va).mem = true := by
  unfold faultQueue
  rw [report_mem]
  exact setQcb_wf _ _ _ _ _ (setQcb_wf _ _ _ _ _ (setQcb_wf _ _ _ _ _ hs))

@[simp] theorem writeCompletion_wf (s : State) (ctx : Nat) (src : Source) (done : DWord) (tag : Word)
    (status off : Nat) (hs : Memory.wf s.mem = true) :
    Memory.wf (writeCompletion s ctx src done tag status off).mem = true := by
  unfold writeCompletion
  dsimp only
  split
  · exact hs
  · split
    · simp [hs]
    · split
      · simp [hs]
      · split
        · simp [hs]
        · exact hs
        · next h _ =>
          have hw := engineWrite_wf s ctx h (bytesOf 8 (completionWord status off tag)) hs
          split <;> simp_all

@[simp] theorem launchRecord_wf (s : State) (ctx priv : Nat) (src : Source) (bs : List Byte) (order : Option Nat)
    (hs : Memory.wf s.mem = true) : Memory.wf (launchRecord s ctx priv src bs order).1.mem = true := by
  unfold launchRecord
  dsimp only
  (repeat' split) <;> simp [hs]

@[simp] theorem execCommissionLaunch_wf (n : Nat) (s : State) (hs : Memory.wf s.mem = true) :
    Memory.wf (nextOr s (execCommissionLaunch n s)).mem = true := by
  unfold execCommissionLaunch
  (repeat' split) <;> simp [hs]

@[simp] theorem ttLaunch_wf (s : State) (n : Nat) (t : TTState) (bs : List Byte) (order : Option Nat)
    (hs : Memory.wf s.mem = true) : Memory.wf (ttLaunch s n t bs order).mem = true := by simp [ttLaunch, hs]

@[simp] theorem execTtInstanceDue_wf (n : Nat) (s : State) (hs : Memory.wf s.mem = true) :
    Memory.wf (nextOr s (execTtInstanceDue n s)).mem = true := by
  unfold execTtInstanceDue
  dsimp only
  (repeat' split) <;> simp [hs]

@[simp] theorem commitGroup_wf (s : State) (id : Nat) (a : Assign) (hs : Memory.wf s.mem = true) :
    Memory.wf (commitGroup s id a).mem = true := by
  unfold commitGroup
  split
  · exact hs
  · refine foldl_wf (fun u e hu => ?_) _ _ (by simp [hs])
    split <;> simp [hu]

@[simp] theorem execPanelPlacement_wf (comm : Nat) (s : State) (hs : Memory.wf s.mem = true) :
    Memory.wf (nextOr s (execPanelPlacement comm s)).mem = true := by
  unfold execPanelPlacement
  (repeat' split) <;> simp [hs]

@[simp] theorem refill_wf (s : State) (core : Nat) (hs : Memory.wf s.mem = true) :
    Memory.wf (refill s core).mem = true := by
  unfold refill
  dsimp only
  split <;> simp [hs]

@[simp] theorem fireTop_wf (s : State) (fuel : Nat) (hs : Memory.wf s.mem = true) :
    Memory.wf (fireTop s fuel).mem = true := by
  induction fuel generalizing s with
  | zero => exact hs
  | succ fuel ih =>
    rw [fireTop]
    split
    · exact ih _ (fire_wf _ _ _ _ hs)
    · exact hs

@[simp] theorem execPanelRetire_wf (id : Nat) (s : State) (hs : Memory.wf s.mem = true) :
    Memory.wf (nextOr s (execPanelRetire id s)).mem = true := by
  unfold execPanelRetire
  (repeat' split) <;> simp [hs]

@[simp] theorem startPending_wf (s : State) (src : Source) (hs : Memory.wf s.mem = true) :
    Memory.wf (startPending s src).mem = true := by
  unfold startPending
  (repeat' split) <;> simp [hs]

@[simp] theorem execCommissionRetire_wf (id : Nat) (s : State) (hs : Memory.wf s.mem = true) :
    Memory.wf (nextOr s (execCommissionRetire id s)).mem = true := by
  unfold execCommissionRetire
  (repeat' split) <;> simp [hs]

/-! #### Stopping and saving panels -/

@[simp] theorem barWithdraw_wf (s : State) (panel stroke : Nat) (hs : Memory.wf s.mem = true) :
    Memory.wf (barWithdraw s panel stroke).mem = true := by
  unfold barWithdraw
  (repeat' split) <;> simp [hs]

@[simp] theorem withdrawWait_wf (s : State) (aid : Nat) (hs : Memory.wf s.mem = true) :
    Memory.wf (withdrawWait s aid).mem = true := by
  unfold withdrawWait
  split
  · exact hs
  · split
    · exact hs
    · extract_lets -underBinder s1 s2 core s3 mine s4
      have h1 : Memory.wf s1.mem = true := by simp [s1, apply_ite State.mem, apply_ite Memory.wf, hs]
      have h2 : s2.mem = s1.mem := by
        simp only [s2]
        split <;> simp
      have h3 : s3.mem = s2.mem := by
        simp only [s3]
        (repeat' split) <;> simp
      have h4 : s4.mem = s3.mem := foldl_mem (fun u o => endReading_mem ..) _ _
      split <;> simp [h4, h3, h2, h1]

@[simp] theorem execStarvationExpiry_wf (aid : Nat) (s : State) (hs : Memory.wf s.mem = true) :
    Memory.wf (nextOr s (execStarvationExpiry aid s)).mem = true := by
  unfold execStarvationExpiry
  (repeat' split) <;> simp [hs]

@[simp] theorem stopAgent_wf (s : State) (aid : Nat) (hs : Memory.wf s.mem = true) :
    Memory.wf (stopAgent s aid).mem = true := by
  unfold stopAgent
  dsimp only
  (repeat' split) <;> simp [hs]

@[simp] theorem stopPanel_wf (s : State) (id : Nat) (hs : Memory.wf s.mem = true) :
    Memory.wf (stopPanel s id).mem = true := by
  unfold stopPanel
  exact foldl_wf (fun u e hu => by simp [hu]) _ _ hs

@[simp] theorem pressureSave_wf (s : State) (id : Nat) (p : Panel) (hs : Memory.wf s.mem = true) :
    Memory.wf (pressureSave s id p).mem = true := by
  unfold pressureSave
  dsimp only
  split
  · rw [updateDrain_mem]
    exact foldl_wf (fun u a hu => stopPanel_wf _ _ hu) _ _ (by simp [giveAreas_mem ‹_›, hs])
  · split <;> simp [hs]

@[simp] theorem requestHardware_wf (s : State) (g : List (Nat × Panel)) (comm : Nat) (c : Comm) (r : PreReq)
    (bound : Option Nat) (hs : Memory.wf s.mem = true) :
    Memory.wf (requestHardware s g comm c r bound).mem = true := by
  unfold requestHardware
  split
  · simp [hs]
  · next how est miss _ =>
    extract_lets -underBinder q s1
    have h1 : s1.mem = s.mem := by simp [s1, apply_ite State.mem]
    split
    · simp [h1, hs]
    · refine foldl_wf (fun u a hu => stopPanel_wf _ _ hu) _ _ ?_
      cases hg : giveAreas s1 g c.ctx false (groupSizes s g) q with
      | none => simp [h1, hs]
      | some t => simp [giveAreas_mem hg, h1, hs]
    · exact foldl_wf (fun u a hu => stopPanel_wf _ _ hu) _ _ (by simp [h1, hs])

@[simp] theorem pendAgent_wf (s : State) (aid : Nat) (hs : Memory.wf s.mem = true) :
    Memory.wf (pendAgent s aid).mem = true := by
  unfold pendAgent
  dsimp only
  (repeat' split) <;> simp [hs]

@[simp] theorem requestHandler_wf (s : State) (g : List (Nat × Panel)) (comm : Nat) (c : Comm) (r : PreReq)
    (hs : Memory.wf s.mem = true) : Memory.wf (requestHandler s g comm c r).mem = true := by
  unfold requestHandler
  split
  · simp [hs]
  · exact foldl_wf (fun u a hu => pendAgent_wf _ _ hu) _ _ (by simp [giveAreas_mem ‹_›, hs])

@[simp] theorem requestGroup_wf (s : State) (who : Requester) (g : List (Nat × Panel)) (comm : Nat)
    (bound : Option Nat) (hs : Memory.wf s.mem = true) :
    Memory.wf (requestGroup s who g comm bound).mem = true := by
  unfold requestGroup
  (repeat' split) <;> simp [hs]

@[simp] theorem requestTasks_wf (s : State) (who : Requester) (comm : Nat) (bound : Option Nat)
    (hs : Memory.wf s.mem = true) : Memory.wf (requestTasks s who comm bound).mem = true := by
  unfold requestTasks
  split
  · exact hs
  · refine foldl_wf (fun u i hu => ?_) _ _ (by simp [hs])
    split <;> simp [hu]

@[simp] theorem execPreemptRequest_wf (who : Requester) (id latency : Nat) (s : State)
    (hs : Memory.wf s.mem = true) : Memory.wf (nextOr s (execPreemptRequest who id latency s)).mem = true := by
  unfold execPreemptRequest
  (repeat' split) <;> simp [hs]

@[simp] theorem putAside_wf (s : State) (id : Nat) (p : Panel) (v : Saved) (parts : List (Nat × List Byte))
    (hs : Memory.wf s.mem = true) : Memory.wf (putAside s id p v parts).mem = true := by
  unfold putAside
  split
  · exact hs
  · extract_lets -underBinder base put s1 s2
    have h1 : Memory.wf s1.mem = true :=
      foldl_wf (fun u e hu => storeSegs_wf _ _ _ (by simp [hu])) _ _ (by simp [hs])
    have h2 : s2.mem = s1.mem := by simp [s2, apply_ite State.mem]
    rw [unplace_mem]
    exact (congrArg Memory.wf ((liftPanel_mem ..).trans h2)).trans h1

@[simp] theorem savePanel_wf (s : State) (id : Nat) (p : Panel) (r : PreReq) (pl : SavePlan)
    (hs : Memory.wf s.mem = true) : Memory.wf (savePanel s id p r pl).mem = true := by
  unfold savePanel
  dsimp only
  (repeat' split) <;> simp [hs]

@[simp] theorem finishHandler_wf (s : State) (id : Nat) (p : Panel) (area : List (Nat × Nat))
    (hs : Memory.wf s.mem = true) : Memory.wf (finishHandler s id p area).mem = true := by simp [finishHandler, hs]

@[simp] theorem finishHandlers_wf (s : State) (id : Nat) (p : Panel) (r : PreReq) (hs : Memory.wf s.mem = true) :
    Memory.wf (finishHandlers s id p r).mem = true := by
  unfold finishHandlers
  dsimp only
  split
  · refine foldl_wf (fun u q hu => ?_) _ _ hs
    (repeat' split) <;> simp [hu]
  · cases hg : giveAreas (freeAreas s (groupPanels s id p)) (groupPanels s id p) p.ctx true
        (groupSizes (freeAreas s (groupPanels s id p)) (groupPanels s id p)) r with
    | none => simp [hs]
    | some t => simp [giveAreas_mem hg, hs]

@[simp] theorem execPanelSave_wf (id : Nat) (s : State) (hs : Memory.wf s.mem = true) :
    Memory.wf (nextOr s (execPanelSave id s)).mem = true := by
  unfold execPanelSave
  dsimp only
  (repeat' split) <;> simp [hs]

@[simp] theorem execPreemptBoundExpiry_wf (id : Nat) (s : State) (hs : Memory.wf s.mem = true) :
    Memory.wf (nextOr s (execPreemptBoundExpiry id s)).mem = true := by
  rw [execPreemptBoundExpiry, nextOr_next]
  split
  · exact hs
  · split
    · exact hs
    · dsimp only
      split
      · exact hs
      · split
        · exact foldl_wf (fun u a hu => stopPanel_wf _ _ hu) _ _ (by simp [giveAreas_mem ‹_›, hs])
        · simp [hs]

/-! #### Restoring panels -/

@[simp] theorem restoreScratch_wf (s : State) (v : Saved) (core : Nat) (bs : List Byte)
    (hs : Memory.wf s.mem = true) : Memory.wf (restoreScratch s v core bs).1.mem = true := by
  unfold restoreScratch
  split
  · simp [hs]
  · exact foldl_wf (fun u i hu => memWrite_wf _ _ _ (zeroRange_wf _ _ _ hu)) _ _ hs

@[simp] theorem applyHeld_wf (s : State) (id : Nat) (h : Held) (hs : Memory.wf s.mem = true) :
    Memory.wf (applyHeld s id h).mem = true := by
  unfold applyHeld
  split <;> simp [hs]

@[simp] theorem restoreOn_wf (s : State) (id : Nat) (v : Saved) (c : Comm) (x : Ctx) (core : Nat) (bs : List Byte)
    (hs : Memory.wf s.mem = true) : Memory.wf (restoreOn s id v c x core bs).mem = true := by
  have h := restoreScratch_wf s v core bs hs
  unfold restoreOn
  generalize restoreScratch s v core bs = r at h ⊢
  obtain ⟨s1, va, gs⟩ := r
  dsimp -zeta only
  rw [acquireInvalidate_mem]
  refine foldl_wf (fun u e hu => applyHeld_wf _ _ _ hu) _ _ ?_
  simp only [putTables_mem, setPanel_mem, setCore_mem, takeArea_mem]
  exact h

@[simp] theorem execPanelRestore_wf (id : Nat) (s : State) (hs : Memory.wf s.mem = true) :
    Memory.wf (nextOr s (execPanelRestore id s)).mem = true := by
  rw [execPanelRestore, nextOr_next]
  split
  · exact hs
  · split
    · split
      · exact hs
      · dsimp only
        split <;> simp [foldl_mem, hs]
    · simp [hs]

/-! #### Egress, power and management -/

@[simp] theorem egressStatus_wf (s : State) (ctx addr seq status : Nat) (hs : Memory.wf s.mem = true) :
    Memory.wf (egressStatus s ctx addr seq status).mem = true := by
  unfold egressStatus
  (repeat' split) <;> simp [hs]

@[simp] theorem sealDescriptor_wf (s : State) (c : Ctx) (chan seq : Nat) (d : List Byte)
    (hs : Memory.wf s.mem = true) : Memory.wf (sealDescriptor s c chan seq d).mem = true := by
  unfold sealDescriptor
  dsimp only
  (repeat' split) <;> simp [hs]

@[simp] theorem execEgressDescriptor_wf (ctx chan : Nat) (s : State) (hs : Memory.wf s.mem = true) :
    Memory.wf (nextOr s (execEgressDescriptor ctx chan s)).mem = true := by
  unfold execEgressDescriptor
  (repeat' split) <;> simp [hs]

@[simp] theorem execRdmaWrite_wf (ctx qp : Nat) (va : DWord) (bytes : List Byte) (s : State)
    (hs : Memory.wf s.mem = true) : Memory.wf (nextOr s (execRdmaWrite ctx qp va bytes s)).mem = true := by
  rw [execRdmaWrite, nextOr_next]
  split
  · simp [hs]
  · next c _ =>
    split
    · simp [hs]
    · next g _ =>
      have h := unitWrite_wf s c.id g bytes hs
      split
      · simp [hs]
      · split <;> simp_all

@[simp] theorem resetDevice_wf (s : State) : Memory.wf (resetDevice s).mem = true := rfl

@[simp] theorem execPowerOn_wf (s : State) (hs : Memory.wf s.mem = true) :
    Memory.wf (nextOr s (execPowerOn s)).mem = true := by
  unfold execPowerOn
  split <;> simp [hs]

@[simp] theorem protectiveStop_wf (s : State) (hs : Memory.wf s.mem = true) :
    Memory.wf (protectiveStop s).mem = true := by
  unfold protectiveStop
  split <;> simp [hs]

@[simp] theorem execMarginSample_wf (u : ErrUnit) (margin : Nat) (hardLimit : Bool) (s : State)
    (hs : Memory.wf s.mem = true) : Memory.wf (nextOr s (execMarginSample u margin hardLimit s)).mem = true := by
  unfold execMarginSample
  split <;> simp [hs]

@[simp] theorem execTilemap_wf (signer : Option MgmtKey) (core : Nat) (s : State) (hs : Memory.wf s.mem = true) :
    Memory.wf (nextOr s (execTilemap signer core s)).mem = true := by
  refine mapCommand_keeps (P := (Memory.wf · = true)) hs ?_
  simp only [Option.ite_none_right_eq_some, Option.some.injEq]
  rintro _ ⟨-, rfl⟩
  exact zeroRange_wf _ _ _ hs

@[simp] theorem execReset_wf (signer : Option MgmtKey) (s : State) (hs : Memory.wf s.mem = true) :
    Memory.wf (nextOr s (execReset signer s)).mem = true := by
  refine manage_keeps (P := (Memory.wf · = true)) hs ?_
  simp

@[simp] theorem execCreateContext_wf (signer : Option MgmtKey) (p : CtxParams) (s : State)
    (hs : Memory.wf s.mem = true) : Memory.wf (nextOr s (execCreateContext signer p s)).mem = true := by
  refine devmgr_keeps (P := (Memory.wf · = true)) hs ?_
  simp only [Option.ite_none_right_eq_some, Option.some.injEq]
  rintro _ ⟨-, rfl⟩
  exact foldl_wf (fun u g hu => zeroRange_wf _ _ _ hu) _ _ hs

@[simp] theorem execRegisterCommissionQueue_wf (signer : Option MgmtKey) (n : Nat) (r : QueueReg) (s : State)
    (hs : Memory.wf s.mem = true) : Memory.wf (nextOr s (execRegisterCommissionQueue signer n r s)).mem = true := by
  refine ctxRequest_keeps (P := (Memory.wf · = true)) hs ?_
  simp [hs]

@[simp] theorem zeroPages_wf (ctx fuel va n : Nat) (s : State) (hs : Memory.wf s.mem = true) :
    Memory.wf (zeroPages ctx fuel va n s).mem = true := by
  induction fuel generalizing va n s with
  | zero => exact hs
  | succ fuel ih =>
    rw [zeroPages]
    split
    · exact hs
    · refine ih _ _ _ ?_
      split <;> simp [zeroRange_wf, hs]

@[simp] theorem execResetChunkPool_wf (signer : Option MgmtKey) (id : Nat) (s : State)
    (hs : Memory.wf s.mem = true) : Memory.wf (nextOr s (execResetChunkPool signer id s)).mem = true := by
  refine ctxRequest_keeps (P := (Memory.wf · = true)) hs ?_
  simp [hs]

@[simp] theorem execUnregisterCommissionQueue_wf (signer : Option MgmtKey) (n : Nat) (s : State)
    (hs : Memory.wf s.mem = true) : Memory.wf (nextOr s (execUnregisterCommissionQueue signer n s)).mem = true := by
  refine devmgr_keeps (P := (Memory.wf · = true)) hs ?_
  simp [apply_ite State.mem, apply_ite Memory.wf, hs]

@[simp] theorem execExtendGrants_wf (signer : Option MgmtKey) (id : Nat) (r : Range) (s : State)
    (hs : Memory.wf s.mem = true) : Memory.wf (nextOr s (execExtendGrants signer id r s)).mem = true := by
  refine ctxRequest_keeps (P := (Memory.wf · = true)) hs ?_
  simp only [Option.ite_none_left_eq_some, Option.some.injEq]
  rintro _ _ ⟨-, rfl⟩
  exact zeroRange_wf _ _ _ hs

@[simp] theorem writeTable_wf (s : State) (signer : Option MgmtKey) (ctx pa : Nat) (entry : DWord)
    (hs : Memory.wf s.mem = true) : Memory.wf (writeTable s signer ctx pa entry).mem = true := by
  refine takeRequest_keeps (P := (Memory.wf · = true)) hs ?_
  split
  · exact engineWrite_wf _ _ _ _ hs
  · exact hs

/-! ### A step keeps the canonical form of memory -/

/-- The state that an outcome leaves may be read against any state whose memory has the form. -/
theorem nextOr_wf (s : State) {t : State} {o : Out} (hs : Memory.wf s.mem = true)
    (ho : Memory.wf (nextOr t o).mem = true) : Memory.wf (nextOr s o).mem = true := by
  cases o with
  | next u => exact ho
  | fault f => exact hs
  | refused r => exact hs

/-- Instruction by instruction: the lemma about its own `exec` function. -/
theorem exec_wf (i : Instr) (s : State) (hs : Memory.wf s.mem = true) :
    Memory.wf (nextOr s (exec i s)).mem = true := by
  unfold exec
  split <;> simp [hs]

theorem runWord_wf (s : State) (aid : Nat) (a : Agent) (w e : Nat) (hs : Memory.wf s.mem = true) :
    Memory.wf (nextOr s (runWord s aid a w e)).mem = true := by
  unfold runWord
  split
  · exact exec_wf _ _ hs
  · simp [hs]
  · simp [hs]

theorem issueAgent_wf (s : State) (aid : Nat) (hs : Memory.wf s.mem = true) :
    Memory.wf (nextOr s (issueAgent s aid)).mem = true := by
  unfold issueAgent
  split
  · exact hs
  · split
    · exact hs
    · split
      · simp [hs]
      · split
        · simp [hs]
        · dsimp only
          split
          · split <;> simp [hs]
          · rw [afterRun_mem]
            exact nextOr_wf _ hs (runWord_wf _ _ _ _ _ (by simp [hs]))

theorem issueSlot_wf (fuel : Nat) (s : State) (slot : Nat) (hs : Memory.wf s.mem = true) :
    Memory.wf (issueSlot fuel s slot).mem = true := by
  induction fuel generalizing s with
  | zero => exact hs
  | succ fuel ih =>
    rw [issueSlot]
    split
    · exact hs
    · next a _ =>
      have ha : Memory.wf (nextOr s (afterIssue s a (issueAgent s a))).mem = true := by
        rw [afterIssue_mem]
        exact issueAgent_wf _ _ hs
      dsimp only
      split
      · exact ih _ ha
      · exact ha

theorem ownPass_wf (s : State) (hs : Memory.wf s.mem = true) : Memory.wf (ownPass s).mem = true := by
  have h := foldl_wf (f := fun u i => nextOr u (exec i u)) (fun u i hu => exec_wf i u hu) (ownSteps s) s hs
  unfold ownPass
  dsimp only
  split
  · exact hs
  · simpa using h

theorem defaultMove_wf (s : State) (hs : Memory.wf s.mem = true) :
    Memory.wf (nextOr s (defaultMove s)).mem = true :=
  foldl_wf (fun u k hu => issueSlot_wf _ u k hu) _ _ (ownPass_wf s hs)

theorem doMove_wf (s : State) (m : Move) (hs : Memory.wf s.mem = true) :
    Memory.wf (nextOr s (doMove s m)).mem = true := by
  cases m with
  | event i => simpa [doMove] using exec_wf i s hs
  | issue a => simpa [doMove] using issueAgent_wf s a hs
  | _ => simp [doMove, hs]

/-- A step is a pass over the events that are due and the agents that are ready, or the move that heads the agenda. -/
theorem step_wf (s : State) (hs : Memory.wf s.mem = true) : Memory.wf (nextOr s (step s)).mem = true := by
  unfold step stepDevice
  split
  · rw [passCycle_mem]
    exact defaultMove_wf s hs
  · next m t _ =>
    rw [passCycle_mem]
    exact nextOr_wf _ hs (doMove_wf { s with agenda := t } m hs)

/-- Settles O48: every instruction, event and move writes memory by writes that keep its form (`step_wf`). -/
theorem stepKeepsMemoryForm : Obligations.StepKeepsMemoryForm := by
  intro s t hs ht
  have h := step_wf s hs
  rwa [ht, nextOr_next] at h

end Sys2Proof.Machine

end

section

namespace Sys2Proof.Machine
open Sys2Proof Sys2Proof.Claims

/-! ## Matrix instructions, fills and images complete (O28, O29)

The checks that matrix instructions share, `matGather`, are dealt with once, in `matInstr_completes` and
`tileInstr_completes`. Each check of a single instruction has a lemma that says when it passes, and each instruction is
then one equation: what its body answers. -/

/-! ### The checks that matrix instructions share -/

theorem bind_ok_iff {ε α β : Type} {x : Except ε α} {k : α → Except ε β} {b : β} :
    (x >>= k) = .ok b ↔ ∃ a, x = .ok a ∧ k a = .ok b := by
  cases x with
  | error e => simp [bind, Except.bind]
  | ok a => simp [bind, Except.bind]

@[simp] theorem ok_bind {ε α β : Type} (a : α) (k : α → Except ε β) : ((.ok a : Except ε α) >>= k) = k a := rfl

/-- What follows a computation may be changed as long as the answer stays. -/
theorem bind_ok_mono {ε α β : Type} {x : Except ε α} {k k' : α → Except ε β} {b : β} (h : (x >>= k) = .ok b)
    (hk : ∀ a, k a = .ok b → k' a = .ok b) : (x >>= k') = .ok b := by
  obtain ⟨a, ha, h⟩ := bind_ok_iff.1 h
  exact bind_ok_iff.2 ⟨a, ha, hk a h⟩

@[simp] theorem switchMark_aid (s : State) (x : Ctxt) (sw : Bool) :
    Yields (fun r => r.2.aid = x.aid) (switchMark s x sw) := by
  unfold switchMark
  split
  · exact .seq fun _ => by simp
  · simp

@[simp] theorem pullGroup_aid (s : State) (x : Ctxt) (c need : Nat) : (pullGroup s x c need).2.aid = x.aid := by
  unfold pullGroup
  dsimp only
  (repeat' split) <;> rfl

@[simp] theorem pullAll_aid (s : State) (x : Ctxt) (srcs : List Src) : (pullAll s x srcs).2.aid = x.aid := by
  unfold pullAll
  refine List.foldlRecOn (motive := fun r : State × Ctxt => r.2.aid = x.aid) _ _ rfl fun r hr i _ => ?_
  split
  · split <;> simp [hr]
  · exact hr

theorem matGather_aid (s : State) (x0 : Ctxt) (h : Hdr) (ss : List Src) (refs : List Ref) (uni : List Nat) :
    Yields (fun r => r.2.1.aid = x0.aid) (matGather s x0 h ss refs uni) := by
  unfold matGather
  refine .seq fun _ => .bind (switchMark_aid ..) fun r hr => ?_
  refine .seq fun _ => .seq fun _ => .seq fun _ => .seq fun _ => ?_
  dsimp only
  split
  · simp
  · exact .seq fun _ => .seq fun _ => .seq fun _ => .seq fun _ => by simpa using hr

/-- The checks of an instruction's own description that come before the claim change nothing where they pass. -/
theorem matGather_of_pre {s u : State} {x0 x : Ctxt} {h : Hdr} {ss : List Src} {refs : List Ref} {uni : List Nat}
    {m : Matrix} {vs : List (Nat → Nat)} {pre : State → Ctxt → List (Nat → Nat) → Eff Unit}
    (hg : matGather s x0 h ss refs uni = .ok (u, x, m, vs))
    (hpre : ∀ s1, claim s1 x = .ok (u, m) → pre s1 x vs = .ok ()) :
    matGather s x0 h ss refs uni pre = .ok (u, x, m, vs) := by
  unfold matGather at hg ⊢
  refine bind_ok_mono hg fun _ hg => bind_ok_mono hg fun r hg => ?_
  refine bind_ok_mono hg fun _ hg => bind_ok_mono hg fun _ hg => ?_
  refine bind_ok_mono hg fun _ hg => bind_ok_mono hg fun _ hg => ?_
  dsimp only at hg ⊢
  split at hg
  · cases hg
  · next hc =>
    rw [if_neg hc]
    refine bind_ok_mono hg fun _ hg => bind_ok_mono hg fun ws hg => ?_
    rw [ok_bind] at hg
    obtain ⟨q, hq, hr⟩ := bind_ok_iff.1 hg
    cases hr
    rw [hpre _ hq, ok_bind]
    exact hg

/-- A matrix instruction whose checks pass does what its own description answers. -/
theorem matInstr_completes {i : Instr} {s u z : State} {h : Hdr} {srcs : Nat → List Src} {refs : List Ref} {uni : List Nat}
    {x0 x : Ctxt} {m : Matrix} {vs : List (Nat → Nat)}
    {body : State → Ctxt → Matrix → Mask → List Src → List (Nat → Nat) → Eff State}
    {pre : Mask → State → Ctxt → List (Nat → Nat) → Eff Unit}
    (he : exec i s = .next (matInstr s h srcs refs uni body pre)) (hr : MatRuns s h srcs refs uni x0 x u m vs)
    (hpre : ∀ s1, claim s1 x = .ok (u, m) → pre (activeMask x0.a h.km) s1 x vs = .ok ())
    (hb : body u x m (activeMask x0.a h.km) (srcs x0.w) vs = .ok z) :
    exec i s = .next (clearWait z x.aid) := by
  obtain ⟨hx, hg⟩ := hr
  rw [he, matInstr_of_gather body pre hx (matGather_of_pre hg hpre), hb, (matGather_aid ..).of_ok _ hg, settle_ok]

theorem tileInstr_completes {i : Instr} {s u z : State} {h : Hdr} {tile : Nat} {srcs : List Src} {refs : List Ref}
    {x0 x : Ctxt} {m : Matrix} {vs : List (Nat → Nat)}
    {body : State → Ctxt → Matrix → Mask → List (Nat → Nat) → Eff State}
    (he : exec i s = .next (tileInstr s h tile srcs refs body)) (hr : TileRuns s h tile srcs refs x0 x u m vs)
    (hb : body u x m (activeMask x0.a h.km) vs = .ok z) : exec i s = .next (clearWait z x.aid) := by
  obtain ⟨hr, hbusy⟩ := hr
  refine matInstr_completes he hr (fun _ _ => rfl) ?_
  rwa [hbusy, if_neg Bool.false_ne_true]

/-- The lanes' format word passes its vote and the check of its form. -/
theorem voteWord_of_wordIs {x : Ctxt} {lanes : Mask} {v : Nat → Nat} {w : Nat} (h : WordIs x lanes v w) :
    voteWord x lanes v = .ok w := by
  obtain ⟨hw, hall, -⟩ := h
  simp only [voteWord, ← hw]
  rw [if_pos (by simpa using hall)]

theorem checkWord_of_wordIs {x : Ctxt} {lanes : Mask} {v : Nat → Nat} {w : Nat} (h : WordIs x lanes v w)
    (l : Mask) : checkWord l w = .ok () := by
  simp [checkWord, h.2.2]

/-! ### GANG -/

theorem checkGang_of_gangList {x : Ctxt} {lanes : Mask} {vs : List (Nat → Nat)} (s : State)
    (h : GangList x (gangVal x lanes vs)) : checkGang lanes s x vs = .ok () := by
  obtain ⟨hlt, hlist⟩ := h
  unfold checkGang
  rw [if_neg (Nat.not_le.2 hlt)]
  by_cases hv : gangVal x lanes vs = 0
  · rw [if_neg fun hne => hne hv]
    rfl
  · obtain ⟨⟨h2, h6⟩, hpanel, hself, hclass, htask⟩ := hlist hv
    rw [if_pos hv, htask, if_neg Bool.false_ne_true, if_neg, if_neg hclass]
    · rfl
    · have hself : (!bitAt (gangVal x lanes vs) x.st.idx) ≠ true := by simpa using hself
      rintro (h | h | h | h)
      · exact Nat.not_lt.2 h2 h
      · exact Nat.not_lt.2 h6 h
      · exact Nat.not_le.2 hpanel h
      · exact hself h

theorem gang_completes {i : Instr} {s t : State} (h : gangRule i s t) : exec i s = .next t := by
  cases i with
  | gang h a =>
    obtain ⟨x0, x, u, m, vs, w, hr, hlist, hw, rfl⟩ := h
    exact matInstr_completes rfl hr (fun s1 _ => checkGang_of_gangList s1 hlist) hw
  | _ => exact h.elim

/-! ### MXZ and the drains -/

theorem mxz_completes {h : Hdr} {tile : Nat} {s t : State} (hd : drainRule (.mxz h tile) s t) :
    exec (.mxz h tile) s = .next t := by
  obtain ⟨x0, x, u, m, vs, hr, rfl⟩ := hd
  exact tileInstr_completes rfl hr rfl

theorem mxdrStat_completes {h : Hdr} {tile d : Nat} {s t : State} (hd : drainRule (.mxdrStat h tile d) s t) :
    exec (.mxdrStat h tile d) s = .next t := by
  obtain ⟨x0, x, u, m, vs, w, hr, hw, rfl⟩ := hd
  exact tileInstr_completes rfl hr hw

/-- The row and the column of a drain's position, which holds nothing else (R125). -/
theorem drainPos_fields {p : Nat} (hrow : p % 256 < 64) (hcol : p / 256 < 64) :
    bitsAt p 5 0 = p % 64 ∧ bitsAt p 13 8 = p / 256 ∧ p = p % 64 + 256 * (p / 256) := by
  simp only [bitsAt]
  omega

theorem mxdr_completes {h : Hdr} {tile d fw scales : Nat} {pos : Opd} {s t : State}
    (hd : drainRule (.mxdr h tile d fw scales pos) s t) : exec (.mxdr h tile d fw scales pos) s = .next t := by
  obtain ⟨x0, x, u, m, vs, w, z, hr, hrow, hcol, hword, heacc, hbad, hz, rfl⟩ := hd
  refine tileInstr_completes rfl hr ?_
  obtain ⟨h0, h1, hp⟩ := drainPos_fields hrow hcol
  have he : ¬ ((tileOf m tile).evalid && (tileOf m tile).eacc != wEacc w) = true := by simpa using heacc
  simp only [h0, h1, ← hp, ne_eq, not_true_eq_false, if_false, voteWord_of_wordIs hword, checkWord_of_wordIs hword, ok_bind,
    if_neg he, hbad]
  split at hz
  · next hraw =>
    obtain ⟨h4, hd, hz⟩ := hz
    rw [if_pos hraw, if_neg (by omega), if_pos hraw]
    exact hz
  · next hraw =>
    rw [if_neg hraw, if_neg hraw]
    exact hz

theorem drain_completes {i : Instr} {s t : State} (h : drainRule i s t) : exec i s = .next t := by
  cases i with
  | mxz => exact mxz_completes h
  | mxdrStat => exact mxdrStat_completes h
  | mxdr => exact mxdr_completes h
  | _ => exact h.elim

/-! ### MMA -/

/-- A panel that gets the claim does not wait for it, and so waits for no exited stroke. -/
theorem checkGangWait_of_claim {s u : State} {x : Ctxt} {m : Matrix} (lanes : Mask) (vs : List (Nat → Nat))
    (h : claim s x = .ok (u, m)) : checkGangWait lanes s x vs = .ok () := by
  have hown : ((getCore s x.p.core).matrix.any fun n => n.owner != x.st.panel) = false := by
    unfold claim at h
    split at h
    · next hm => simp [hm]
    · next n hm =>
      split at h
      · next ho => simp [hm, ho]
      · cases h
  simp [checkGangWait, hown]

/-- Operands without an error of their data leave nothing to trap for (R120). -/
theorem operandErrs_nil {ha : Operand} {slot : Nat → Operand} {g : List (Nat × Member)} (hh : ha.err = none)
    (hs : ∀ q ∈ g, (slot q.1).err = none) : ha.err.toList ++ g.filterMap (fun q => (slot q.1).err) = [] := by
  simpa [hh] using fun p e hm => hs (p, e) hm

theorem jointMma_of_jointRuns {u : State} {m : Matrix} {g : List (Nat × Member)} {w : Nat} {ts : Tab Tile} (core : Nat)
    (h : JointRuns u m g w ts) : jointMma u core m g = jointDone u core m g w ts := by
  obtain ⟨p, e, rest, ha, rfl, hhalf, hvote, hw, hword, hherr, hserr, hrun⟩ := h
  have herrs : ha.err.toList ++ ((p, e) :: rest).filterMap
      (fun q => ((tabGet m.slots q.1).getD noOperand).err) = [] :=
    operandErrs_nil (slot := fun p => (tabGet m.slots p).getD noOperand) hherr hserr
  have hsteps : runSteps w ha (fun p => (tabGet m.slots p).getD noOperand) (stepList ha.ks ((p, e) :: rest))
      (stepsLeft u m) m.tiles = (ts, .finished) := hrun
  simp only [jointMma, hvote, ← hw, hword, hhalf, Option.getD_some, herrs, hsteps]
  rfl

/-- The last member to arrive, alone or of its gang, runs the joint multiplication (R116). -/
theorem arriveMma_runs {u : State} {x : Ctxt} {m : Matrix} {lanes : Mask} {e : Member} {ms : List Member}
    (hexit : namesExited u x e.list = false)
    (hlast : (m.latch = none ∧ e.list = 0 ∧ ms = []) ∨
      (m.latch = some (e.list, ms) ∧ bitAt e.list x.st.idx = true ∧ ms.length + 1 = (gangList e.list).length))
    (hbusy : operandsBusy u x.p.core (byPosition u e.list (ms ++ [e])) = false) :
    arriveMma u x m lanes e = .ok (jointMma u x.p.core m (byPosition u e.list (ms ++ [e]))) := by
  unfold arriveMma
  obtain ⟨hlatch, hlist, rfl⟩ | ⟨hlatch, hbit, hlen⟩ := hlast
  · rw [List.nil_append] at hbusy ⊢
    simp only [hlist] at hbusy hexit
    simp [hlatch, hexit, hlist, hbusy, pure, Except.pure]
  · have hlist : e.list ≠ 0 := by
      intro h0
      simp [h0, bitAt] at hbit
    simp [hlatch, hexit, hlist, hbit, hlen, hbusy, pure, Except.pure]

theorem mma_completes {i : Instr} {s t : State} (h : mmaRule i s t) : exec i s = .next t := by
  cases i with
  | mma h half tile fw skip kbase =>
    obtain ⟨x0, x, u, m, vs, ms, w, ts, hr, hexit, hlast, hbusy, hj, rfl⟩ := h
    refine matInstr_completes rfl hr (fun s1 hc => checkGangWait_of_claim _ _ hc) ?_
    rw [← jointMma_of_jointRuns _ hj]
    exact arriveMma_runs hexit hlast hbusy
  | _ => exact h.elim

/-- Settles O28, by the lemma of each family: an instruction whose checks pass (`matInstr_completes`) does what its body
answers, and the body of an MMA is the joint multiplication (`jointMma_of_jointRuns`). -/
theorem matrixInstructionsComplete : Obligations.MatrixInstructionsComplete := by
  rintro i s t (h | h | h)
  · exact gang_completes h
  · exact mma_completes h
  · exact drain_completes h

/-! ### Operand fills -/

theorem checkDesc_of_descIs {f : Nat} {d : MDesc} (lanes : Mask) (h : DescIs f d) : checkDesc lanes f d = .ok () := by
  obtain ⟨hsplit, hwhole⟩ := h
  unfold checkDesc
  rw [if_neg]
  rintro (⟨hd, hf⟩ | ⟨hd, hofs⟩)
  · obtain ⟨hf2, hstride⟩ := hsplit hd
    exact hf.elim (· hf2) (· hstride)
  · exact hofs (hwhole (by simpa using hd))

theorem startFill_of_placed {u : State} {x : Ctxt} {lanes : Mask} {isB : Bool} {idx f n base : Nat} {d : MDesc}
    {rows : Nat → Nat} {ps : List Placed} (hd : DescIs f d)
    (hp : placeAll u x lanes .one .r ((List.range 64).flatMap fun r => rowAccs f n d base r (rows r)) = .ok ps) :
    startFill u x lanes isB idx f n base d rows =
      .ok { u with fills := tabPut u.fills u.fresh (fillOf u x isB idx f n base d ps), fresh := u.fresh + 1 } := by
  rw [startFill, checkDesc_of_descIs _ hd, ok_bind, hp, ok_bind]
  rfl

/-- MXLD's fill starts from what it pulled for a peeked index. -/
theorem mxldFill_completes {r : State × Ctxt} {u v z : State} {x : Ctxt} {lanes : Mask} {half f n base : Nat} {idx : Opd}
    {d : MDesc} {vs : List (Nat → Nat)} {two : Nat → Nat} {is : Issue} (hr : (u, x) = r)
    (htwo : secondPeek u x lanes idx = .ok two)
    (hv : startFill u x lanes false half f n (sReg x.a base).toNat d (rowIndex x.w idx vs two) = .ok v)
    (hz : commitRegs v x is lanes {} = .ok z) :
    (do let two ← secondPeek r.1 r.2 lanes idx
        let s1 ← startFill r.1 r.2 lanes false half f n (sReg r.2.a base).toNat d (rowIndex r.2.w idx vs two)
        commitRegs s1 r.2 is lanes {}) = .ok z := by
  subst hr
  rw [htwo, ok_bind, hv, ok_bind, hz]

theorem mxld_completes {h : Hdr} {half n base fw : Nat} {idx : Opd} {ds : MDesc} {s t : State}
    (hf : fillRule (.mxld h half n base idx fw ds) s t) : exec (.mxld h half n base idx fw ds) s = .next t := by
  obtain ⟨x0, x, u, m, vs, u2, x2, two, w, v, z, hr, hpair, hlead, hword, hn, hn1, hpull, htwo, -, hv, hz, rfl⟩ := hf
  refine matInstr_completes rfl hr (fun _ _ => rfl) ?_
  extract_lets -underBinder rest
  have hrest : rest () = .ok z := by
    simp only [rest, hlead, ne_eq, not_true_eq_false, if_false, voteWord_of_wordIs hword, checkWord_of_wordIs hword, ok_bind]
    rw [if_neg (by rintro (h | ⟨h1, h4⟩) <;> omega)]
    exact mxldFill_completes hpull htwo hv hz
  split
  · next k =>
    rw [if_neg fun hk => Nat.not_le.2 (hpair k rfl hk.1) hk.2]
    exact hrest
  · exact hrest

theorem mxlb_completes {h : Hdr} {slot n base fw : Nat} {ds : MDesc} {s t : State}
    (hf : fillRule (.mxlb h slot n base fw ds) s t) : exec (.mxlb h slot n base fw ds) s = .next t := by
  obtain ⟨x0, x, u, m, vs, w, ps, z, hr, hword, hn, hdesc, hps, hz, rfl⟩ := hf
  refine matInstr_completes rfl hr (fun _ _ => rfl) ?_
  simp only [voteWord_of_wordIs hword, checkWord_of_wordIs hword, ok_bind, if_neg (Nat.not_lt.2 hn)]
  rw [startFill_of_placed (rows := id) hdesc hps, ok_bind]
  exact hz

/-- What a fill has read goes into its half or slot unless another panel holds the claim. -/
theorem placeOperand_of_matrix {s : State} {f : Fill} {m : Matrix} (o : Operand) (hm : (getCore s f.core).matrix = some m) :
    placeOperand s f o = if m.owner ≠ f.panel then s else setCore s f.core (if f.isB then
      { getCore s f.core with matrix := some { m with slots := tabPut m.slots f.idx o }
                              tags := tabPut (getCore s f.core).tags f.idx (f.ctx, f.base, f.stride) }
      else { getCore s f.core with matrix := some { m with halves := tabPut m.halves f.idx o } }) := by
  simp only [placeOperand, hm]
  split
  · rfl
  · split <;> rfl

theorem operandFill_completes {id : Nat} {s t : State} (hf : fillRule (.operandFillComplete id) s t) :
    exec (.operandFillComplete id) s = .next t := by
  obtain ⟨f, c, m, hid, hready, hserved, rfl, hm, rfl⟩ := hf
  show execOperandFillComplete id s = _
  simp only [execOperandFillComplete, hid, hready, hserved, if_true, Bool.false_eq_true, if_false]
  rw [placeOperand_of_matrix _ hm]

theorem fill_completes {i : Instr} {s t : State} (h : fillRule i s t) : exec i s = .next t := by
  cases i with
  | mxld => exact mxld_completes h
  | mxlb => exact mxlb_completes h
  | operandFillComplete => exact operandFill_completes h
  | _ => exact h.elim

/-! ### Tile images -/

theorem placeImage_of_imageAt {u : State} {x : Ctxt} {lanes : Mask} {nd : Need} {base : Nat} {segs : List (Nat × Nat)}
    (h : ImageAt u x lanes nd base segs) : placeImage u x lanes nd base = .ok segs := by
  obtain ⟨ps, hps, rfl⟩ := h
  rw [placeImage, imageBytes, hps]
  rfl

theorem mxsave_completes {h : Hdr} {tile base str : Nat} {s t : State} (hi : imageRule (.mxsave h tile base str) s t) :
    exec (.mxsave h tile base str) s = .next t := by
  obtain ⟨x0, x, u, m, vs, segs, hr, hat, hbad, hroom, rfl⟩ := hi
  refine tileInstr_completes rfl hr ?_
  simp only [placeImage_of_imageAt hat, ok_bind, hbad, hroom]
  rfl

/-- MXADD and MXREST alike: the image's read is under way and the agent waits for it. -/
theorem readImage_completes {i : Instr} {h : Hdr} {add : Bool} {tile base str : Nat} {s u : State} {x0 x : Ctxt} {m : Matrix}
    {vs : List (Nat → Nat)} {segs : List (Nat × Nat)} (he : exec i s = .next (readImage s h add tile base str))
    (hr : TileRuns s h tile [] [.s base 1] x0 x u m vs) (hat : ImageAt u x (activeMask x0.a h.km) .r base segs) :
    exec i s = .next (clearWait (blockAgent { u with
      images := tabPut u.images u.fresh
        { agent := x.aid, ctx := x.p.ctx, po := x.po, add := add, tile := tile, str := str, segs := segs
          pubs := imagePubs u x.p.ctx (sReg x.a base).toNat segs, va := (sReg x.a base).toNat, before := x.a.before
          born := u.cycle }
      fresh := u.fresh + 1 } x.aid .matrix) x.aid) := by
  refine tileInstr_completes he hr ?_
  rw [placeImage_of_imageAt hat]
  rfl

/-- An image that may go into the tile gives the tile's new value (R127-R129). -/
theorem applyImage_of_tile {core : Nat} {f : ImageRead} {t k v : Tile} {bs : List Byte} (hk : tileOfImage bs = some k)
    (hv : if f.add then t.bad = none ∧ addImage t k = some v else k.kdone ≤ 8 ∧ v = k) :
    applyImage core f t bs = .ok v := by
  unfold applyImage
  by_cases hadd : f.add = true
  · rw [if_pos hadd] at hv
    obtain ⟨hbad, hsum⟩ := hv
    simp [hk, hadd, hbad, hsum]
  · rw [if_neg hadd] at hv
    obtain ⟨hdone, rfl⟩ := hv
    simp [hk, hadd, Nat.not_lt.2 hdone]

theorem imageRead_completes {aid : Nat} {s t : State} (hi : imageRule (.imageReadComplete aid) s t) :
    exec (.imageReadComplete aid) s = .next t := by
  obtain ⟨id, f, a, m, k, v, him, ha, hready, hserved, hbad, hm, hk, hv, rfl⟩ := hi
  show execImageReadComplete aid s = _
  simp only [execImageReadComplete, him, ha, hready, if_true, hserved, Bool.false_eq_true, if_false, hbad, endImage, hm,
    applyImage_of_tile hk hv]

theorem image_completes {i : Instr} {s t : State} (h : imageRule i s t) : exec i s = .next t := by
  cases i with
  | mxadd =>
    obtain ⟨x0, x, u, m, vs, segs, hr, hat, rfl⟩ := h
    exact readImage_completes rfl hr hat
  | mxrest =>
    obtain ⟨x0, x, u, m, vs, segs, hr, hat, rfl⟩ := h
    exact readImage_completes rfl hr hat
  | mxsave => exact mxsave_completes h
  | imageReadComplete => exact imageRead_completes h
  | _ => exact h.elim

/-- Settles O29, by the lemma of each instruction: a fill or an image read starts once its accesses are placed
(`startFill_of_placed`, `placeImage_of_imageAt`), and completes with what its reads bring (`operandFill_completes`,
`imageRead_completes`). -/
theorem fillsAndImagesComplete : Obligations.FillsAndImagesComplete := by
  rintro i s t (h | h)
  · exact fill_completes h
  · exact image_completes h

end Sys2Proof.Machine

end

section

namespace Sys2Proof.Machine
open Sys2Proof Sys2Proof.Claims

/-! ## Set instructions issue, are accepted and complete (O30, O31, O32)

The seventeen instructions share `setInstr`: what it leaves at an issue and at an acceptance is proved once, in
`setInstr_of_runs`. Each instruction is tied to its form of `setForm` by `SetMeans`. -/

/-! ### Each instruction is `setInstr` at its form -/

/-- An instruction's issue and its acceptance are `setInstr` with the operands of its form; where its own checks pass, its
body answers the plan of the form. -/
structure SetMeans (i : Instr) (o : SetForm) (body : State → Ctxt → Mask → List (Nat → Nat) → Eff SetPlan) : Prop where
  issue : ∀ s, exec i s = .next (setInstr false i s o.h o.size o.srcs o.dsts o.uni o.hands body)
  accept : ∀ s, acceptInstr i s = setInstr true i s o.h o.size o.srcs o.dsts o.uni o.hands body
  plan : ∀ s x lanes vs, o.ok x [loVal x lanes vs 0, loVal x lanes vs 1, loVal x lanes vs 2] →
    body s x lanes vs = .ok (o.plan x lanes (loVal x lanes vs) vs)

theorem snew_means {h : Hdr} {d : Dst} {u opt : Opd} {o : SetForm} (ho : setForm (.snew h d u opt) = some o) :
    ∃ body, SetMeans (.snew h d u opt) o body := by
  cases ho
  refine ⟨_, fun _ => rfl, fun _ => rfl, fun s x lanes vs hok => ?_⟩
  obtain ⟨hpin, hlt, hhome⟩ := hok
  dsimp only
  rw [if_neg]
  · rfl
  · rintro (h | h | ⟨h3, h⟩)
    · exact Nat.not_lt.2 hpin h
    · exact Nat.not_le.2 hlt h
    · exact h (hhome (Bool.not_eq_true' _ ▸ h3))

theorem update_means {i : Instr} {h : Hdr} {ins : Bool} {d : Option Nat} {a b : Opd}
    (hi : ∀ s, exec i s = .next (updateStep false i h ins d a b s))
    (ha : ∀ s, acceptInstr i s = updateStep true i h ins d a b s) : ∃ body, SetMeans i (updateForm h ins d a b) body := by
  cases d with
  | none => exact ⟨_, hi, ha, fun _ _ _ _ _ => rfl⟩
  | some n => exact ⟨_, hi, ha, fun _ _ _ _ _ => rfl⟩

theorem shas_means {h : Hdr} {d : MDst} {a b : Opd} {o : SetForm} (ho : setForm (.shas h d a b) = some o) :
    ∃ body, SetMeans (.shas h d a b) o body := by
  cases ho
  refine ⟨_, fun _ => rfl, fun _ => rfl, fun s x lanes vs _ => ?_⟩
  cases d <;> rfl

theorem binary_means {i : Instr} {h : Hdr} {op : Nat} {card : Option Nat} {d a b : Opd}
    (hi : ∀ s, exec i s = .next (binaryStep false i h op card d a b s))
    (ha : ∀ s, acceptInstr i s = binaryStep true i h op card d a b s) : ∃ body, SetMeans i (binaryForm h op card d a b) body := by
  cases card with
  | none => exact ⟨_, hi, ha, fun _ _ _ _ _ => rfl⟩
  | some n => exact ⟨_, hi, ha, fun _ _ _ _ _ => rfl⟩

/-- The handles of SCOST (R159), as its step and as its form have them. -/
theorem scost_hands (op : Nat) (c : Opd) :
    [0] ++ (if decide (6 ≤ op) && decide (op ≤ 9) then [1] else []) ++
        (if decide (6 ≤ op) && decide (op ≤ 9) && !isSz c then [2] else []) =
      [0] ++ (if 6 ≤ op ∧ op ≤ 9 then (if isSz c then [1] else [1, 2]) else []) := by
  by_cases hbin : 6 ≤ op ∧ op ≤ 9
  · cases hc : isSz c <;> simp [hbin]
  · have : (decide (6 ≤ op) && decide (op ≤ 9)) = false := by simpa using hbin
    simp [hbin, this]

theorem scostStep_eq (acc : Bool) (h : Hdr) (op d : Nat) (a b c : Opd) (s : State) :
    let hands := [0] ++ (if 6 ≤ op ∧ op ≤ 9 then (if isSz c then [1] else [1, 2]) else [])
    scostStep acc h op d a b c s = setInstr acc (.scost h op d a b c) s h 8
      [srcOf a 1 1 h.la, srcOf b 1 2 h.lb, srcOf c 1 3 h.lc] [.s d 0] hands hands fun _ x lanes vs =>
        .ok { act := .scost op, sdst := [d], handles := [loVal x lanes vs 0, loVal x lanes vs 1, loVal x lanes vs 2] } := by
  simp only [← scost_hands]
  rfl

theorem scost_means {h : Hdr} {op d : Nat} {a b c : Opd} {o : SetForm} (ho : setForm (.scost h op d a b c) = some o) :
    ∃ body, SetMeans (.scost h op d a b c) o body := by
  cases ho
  exact ⟨_, fun s => congrArg _ (scostStep_eq false h op d a b c s), fun s => scostStep_eq true h op d a b c s,
    fun _ _ _ _ _ => rfl⟩

theorem sinfo_means {h : Hdr} {d : Nat} {a b : Opd} {key : Nat} {o : SetForm} (ho : setForm (.sinfo h d a b key) = some o) :
    ∃ body, SetMeans (.sinfo h d a b key) o body := by
  cases ho
  refine ⟨_, fun _ => rfl, fun _ => rfl, fun s x lanes vs hok => ?_⟩
  obtain ⟨hsel, hkey, huni⟩ := hok
  dsimp only
  rw [if_neg, if_neg]
  · rfl
  · rintro ⟨h3, hany⟩
    obtain ⟨q, hq, hle⟩ := (Option.any_eq_true _ _).1 hany
    exact Nat.not_lt.2 (of_decide_eq_true hle) (huni h3 q hq)
  · rintro (h | ⟨h3, h⟩)
    · exact Nat.not_lt.2 hsel h
    · exact h (hkey h3)

theorem sinfoPin_means {h : Hdr} {a b : Opd} {o : SetForm} (ho : setForm (.sinfoPin h a b) = some o) :
    ∃ body, SetMeans (.sinfoPin h a b) o body := by
  cases ho
  refine ⟨_, fun _ => rfl, fun _ => rfl, fun s x lanes vs hok => ?_⟩
  have hok : loVal x lanes vs 1 ≤ 4 := hok
  dsimp only
  rw [if_neg (Nat.not_lt.2 hok)]
  rfl

theorem sload_means {h : Hdr} {str : Nat} {d : Dst} {base : Nat} {o : SetForm} (ho : setForm (.sload h str d base) = some o) :
    ∃ body, SetMeans (.sload h str d base) o body := by
  cases ho
  refine ⟨_, fun _ => rfl, fun _ => rfl, fun s x lanes vs hok => ?_⟩
  dsimp only
  rw [if_neg fun h => h hok]
  rfl

theorem sstore_means {h : Hdr} {str d : Nat} {a : Opd} {base lim : Nat} {start : Option Word} {o : SetForm}
    (ho : setForm (.sstore h str d a base lim start) = some o) : ∃ body, SetMeans (.sstore h str d a base lim start) o body := by
  cases ho
  refine ⟨_, fun _ => rfl, fun _ => rfl, fun s x lanes vs hok => ?_⟩
  dsimp only
  rw [if_neg fun h => h hok]
  rfl

theorem setForm_means {i : Instr} {o : SetForm} (ho : setForm i = some o) : ∃ body, SetMeans i o body := by
  cases i with
  | snew => exact snew_means ho
  | sins => cases ho; exact update_means (fun _ => rfl) fun _ => rfl
  | srem => cases ho; exact update_means (fun _ => rfl) fun _ => rfl
  | shas => exact shas_means ho
  | sand => cases ho; exact binary_means (fun _ => rfl) fun _ => rfl
  | sor => cases ho; exact binary_means (fun _ => rfl) fun _ => rfl
  | ssub => cases ho; exact binary_means (fun _ => rfl) fun _ => rfl
  | sxor => cases ho; exact binary_means (fun _ => rfl) fun _ => rfl
  | scost => exact scost_means ho
  | sinfo => exact sinfo_means ho
  | sinfoPin => exact sinfoPin_means ho
  | sload => exact sload_means ho
  | sstore => exact sstore_means ho
  | sdel | scard | sitr | srank => cases ho; exact ⟨_, fun _ => rfl, fun _ => rfl, fun _ _ _ _ _ => rfl⟩
  | _ => cases ho

/-! ### What `setInstr` answers (R134, R140) -/

/-- The handles of a set instruction, by operand field. -/
def handlesOf (o : SetForm) (lo : Nat → Nat) : List (Nat × Nat) :=
  o.hands.map fun k => (((o.srcs[k]?).map (·.field)).getD 0, lo k)

theorem handlesOf_small {o : SetForm} {lo : Nat → Nat} (hk : ∀ k ∈ o.hands, lo k < 2 ^ 32) :
    ¬ ((handlesOf o lo).any fun e => decide (2 ^ 32 ≤ e.2)) = true := by
  simpa [handlesOf] using hk

/-- An agent waits for its instruction's home. -/
def issuedState (u : State) (x : Ctxt) (i : Instr) : State :=
  blockAgent { setAgent u x.aid { x.a with setAt := some (u.fresh, i) } with fresh := u.fresh + 1 } x.aid .set

/-- The plan writes registers, so that a result is held for them. -/
def SetPlan.writes (p : SetPlan) : Bool := !(p.dst.isEmpty && p.sdst.isEmpty && p.kdst.isNone)

theorem SetPlan.writes_iff (p : SetPlan) : p.writes = true ↔ p.dst ≠ [] ∨ p.sdst ≠ [] ∨ p.kdst ≠ none := by
  simp [SetPlan.writes, or_assoc, Option.isSome_iff_ne_none]

/-- The result held for the registers of an accepted instruction, whose granules `v` has. -/
def withResult (v : State) (x : Ctxt) (lanes : Mask) (o : SetForm) (p : SetPlan) : State :=
  let v1 := protect v x.aid lanes o.dsts
  if p.writes then
    addResult v1 { agent := x.aid, po := x.po, ctx := x.p.ctx, kind := .held, mask := lanes, dst := p.dst
                   sdst := p.sdst, kdst := p.kdst.map fun k => (k, lanes) }
  else v1

/-- The instruction is under way. -/
def acceptedState (u v : State) (x : Ctxt) (lanes : Mask) (o : SetForm) (p : SetPlan) : State :=
  let v2 := withResult v x lanes o p
  { v2 with
    setOps := tabPut v2.setOps v2.fresh { acceptedOp u x lanes o p with
      result := if p.writes then some (protect v x.aid lanes o.dsts).fresh else none
      freed := if p.holds then freedBy x.a o.srcs else [] }
    fresh := v2.fresh + 1 }

/-- Its agent stays blocked, or goes on. -/
def acceptedAgent (v : State) (x : Ctxt) (o : SetForm) (p : SetPlan) (b : Agent) : State :=
  if p.holds then blockAgent (setAgent v x.aid { b with setAt := none }) x.aid .set
  else stepPc (setAgent v x.aid { b with setAt := none, run := .ready }) x.aid o.size

/-- The handles name sets, the instruction's own checks answer a plan, and the granules are there: `z` is what its
acceptance leaves. -/
def Accepts (u : State) (x : Ctxt) (lanes : Mask) (o : SetForm) (vs : List (Nat → Nat)) (r : Eff SetPlan) (z : State) : Prop :=
  ∃ p v b, badHandle u x (handlesOf o (loVal x lanes vs)) = none ∧ r = .ok p ∧
    (if p.holds then reserveFor u x [] (p.dst.map (·.2.1)) = .ok v else issueRegs u x o.srcs (p.dst.map (·.2.1)) = .ok v) ∧
    getAgent (acceptedState u v x lanes o p) x.aid = some b ∧ z = acceptedAgent (acceptedState u v x lanes o p) x o p b

/-- A set instruction whose checks pass, at its issue (`acc` false) and at its acceptance. -/
theorem setInstr_of_runs {acc : Bool} {i : Instr} {s u z : State} {o : SetForm} {x0 x : Ctxt} {vs : List (Nat → Nat)}
    {body : State → Ctxt → Mask → List (Nat → Nat) → Eff SetPlan} (hr : SetRuns s o x0 x u vs)
    (hz : if acc then Accepts u x (activeMask x0.a o.h.km) o vs (body u x (activeMask x0.a o.h.km) vs) z
      else z = issuedState u x i) :
    setInstr acc i s o.h o.size o.srcs o.dsts o.uni o.hands body = clearWait z x0.aid := by
  obtain ⟨hx, hl, ⟨u0, y, hg, hp⟩, hv, hk⟩ := hr
  rw [setInstr, runAgent_of_ctxt _ hx, ← settle_ok s]
  congr 1
  rw [hg, ok_bind]
  dsimp -zeta only
  rw [← hp]
  dsimp -zeta only
  rw [hv, ok_bind, if_neg hl]
  extract_lets -underBinder lo hs go
  rw [if_neg (show ¬ (hs.any fun e => decide (2 ^ 32 ≤ e.2)) = true from handlesOf_small hk)]
  cases acc with
  | false => exact congrArg _ (Eq.symm hz)
  | true =>
    obtain ⟨p, v, b, hbad, hbody, hv, hb, rfl⟩ := hz
    have hbad : badHandle u x hs = none := hbad
    simp -zeta only [go, Bool.not_true, Bool.false_eq_true, if_false, hbad, hbody]
    change (Except.ok p >>= _) = _
    rw [ok_bind]
    extract_lets -underBinder op writes commit
    have hcommit : commit v = .ok (acceptedAgent (acceptedState u v x (activeMask x0.a o.h.km) o p) x o p b) := by
      unfold commit
      extract_lets -underBinder s2 id s3 op1 s4
      have hb : getAgent s4 x.aid = some b := hb
      simp -zeta only [hb, acceptedAgent]
      split <;> rfl
    split at hv
    · next hh => rw [if_pos hh, hv, ok_bind, hcommit]
    · next hh => rw [if_neg hh, hv, ok_bind, hcommit]

/-- Settles O30: each instruction is `setInstr` at its form (`setForm_means`), which leaves the agent waiting. -/
theorem setInstructionsIssue : Obligations.SetInstructionsIssue := by
  rintro i s t ⟨o, ho, x0, x, u, vs, hr, rfl⟩
  obtain ⟨body, hm⟩ := setForm_means ho
  exact (hm.issue s).trans (congrArg _ (setInstr_of_runs (acc := false) hr rfl))

/-- The rule's condition for a held result and the model's are one. -/
theorem if_writes {α : Type} (p : SetPlan) (a b : α) :
    (if p.dst ≠ [] ∨ p.sdst ≠ [] ∨ p.kdst ≠ none then a else b) = if p.writes then a else b :=
  ite_congr (propext p.writes_iff.symm) (fun _ => rfl) fun _ => rfl

/-- Settles O31: the acceptance runs `setInstr` at the instruction's form (`setForm_means`), which puts it under way
(`setInstr_of_runs`). -/
theorem setAcceptanceCompletes : Obligations.SetAcceptanceCompletes := by
  intro i s t h
  cases i with
  | setAcceptance aid =>
    obtain ⟨j, o, x0, x, u, vs, v, a, b, hj, ho, ha, hr, hbad, hok, hv, hrest⟩ := h
    simp only [if_writes] at hrest
    obtain ⟨hb, rfl⟩ := hrest
    obtain ⟨body, hm⟩ := setForm_means ho
    have hacc := setInstr_of_runs (i := j) (acc := true) hr ⟨_, v, b, hbad, hm.plan _ _ _ _ hok, hv, hb, rfl⟩
    show execSetAcceptance aid s = _
    simp only [execSetAcceptance, hj, ha, hm.accept, hacc]
    rfl
  | _ => exact h.elim

/-! ### The points of set instructions (R140-R142, R148, R160, R161) -/

theorem sload_completes {s s1 s2 : State} {id base : Nat} {op : SetOp} {hdr bs : List Byte} {c : Ctx}
    (hread : readForSet s op base 16 = (s1, .ok hdr))
    (hkeys : readForSet s1 op (base + 16) (4 * ofBytes ((hdr.drop 4).take 4)) = (s2, .ok bs))
    (hbad : imageBad hdr (keyList (ofBytes ((hdr.drop 4).take 4)) bs) = none) (hc : getCtx s2 op.ctx = some c) :
    completeSload s id op base =
      resumeSet (finishSet s2 id op (runSload c op id hdr (keyList (ofBytes ((hdr.drop 4).take 4)) bs))) op := by
  simp only [completeSload, hread, hkeys, hbad, hc]

theorem finishSet_of_good {s : State} {id : Nat} {op : SetOp} {o : SetOut} (hbad : o.bad = none) :
    let w := writeSstat (setCtx { s with setOps := tabDel s.setOps id } op.ctx o.ctx) op o.stat
    finishSet s id op o = match op.result with
      | some r => { w with results := tabMod w.results r fun q => { q with kind := .writes (setWrites op o) } }
      | none => w := by
  cases hres : op.result <;> simp only [finishSet, hbad, hres]

/-- The key from which an iterator goes on once it has delivered the members `l` from `start`: above the last of them,
while the universe has keys there (R156, R236). -/
def iterNext (l : List Nat) (start u : Nat) : Option Nat :=
  match l.getLast? with
  | some k => if k + 1 < u then some (k + 1) else none
  | none => some start

theorem iterEntry_of_set {s : State} {ctx w now start : Nat} {ch : Chan} {c : Ctx} {o : SetObj} (hc : getCtx s ctx = some c)
    (hnext : ch.nextKey = some start) (hgood : handleFault c ch.set = none) (ho : getObj c ch.set = some o) :
    let l := (o.keys.filter fun k => decide (start ≤ k)).take w
    let rd := orderedRead c now (handleIdx ch.set) o (orderedSegs o start w)
    iterEntry s ctx ch w now = (setCtx s ctx rd.1, { ch with
      ents := ch.ents ++ [(List.range w).map fun i => BitVec.ofNat 64 ((l[i]?).getD 0xFFFFFFFF)]
      wide := ch.wide ++ [false], bad := ch.bad ++ [rd.2.2.1]
      nextKey := iterNext l start o.u, done := (iterNext l start o.u).isNone }, rd.2.2.1) := by
  simp only [iterEntry, hc, hnext, hgood, Option.isSome_none, Bool.false_eq_true, if_false, ho]
  rfl

theorem iteratorEntry_completes {panel chan : Nat} {s t : State} (h : setPointRule (.iteratorEntry panel chan) s t) :
    exec (.iteratorEntry panel chan) s = .next t := by
  obtain ⟨p, ch, c, start, o, hp, hmap, hch, hkind, hdone, hroom, hc, hnext, hgood, ho, hbad, rfl⟩ := h
  show execIteratorEntry panel chan s = _
  have hgo : ¬ (ch.kind ≠ .iter ∨ ch.done ∨ 16 ≤ ch.ents.length ∨ !p.mapped) := by
    simp [hkind, hdone, hmap, hroom]
  simp only [execIteratorEntry, hp, hch, if_neg hgo, iterEntry_of_set hc hnext hgood ho, hbad]
  rfl

/-- The state that an SSTORE leaves at its point: its count fixed and its writes made ready. -/
def storePoint (s : State) (id : Nat) (op : SetOp) (c : Ctx) (o : SetObj) (g : List (Nat × Nat)) (lim start : Nat) : State :=
  let l := (o.keys.filter fun k => decide (start ≤ k)).take lim
  let is := orderedSegs o start lim
  let rd := orderedRead c id (handleIdx (nthH op 0)) o is
  let w := setCtx s op.ctx { rd.1 with reading := (id, handleIdx (nthH op 0)) :: rd.1.reading }
  { w with setOps := tabPut w.setOps id { op with
      sent := some l.length, todo := pieceParts (linePieces (l.length + 2) g) (l.flatMap fun k => bytesOf 4 k)
      stat := { algs := readAlgs o is, convs := rd.2.2.2, bytes := rd.2.1
                cost := if is = keyedSegs o then some (storeCost o) else none } } }

theorem fixSstore_of_good {s : State} {id base lim start : Nat} {op : SetOp} {c : Ctx} {o : SetObj} {g : List (Nat × Nat)}
    (hc : getCtx s op.ctx = some c) (ho : getObj c (nthH op 0) = some o)
    (hseg : segsFor s op.ctx .w base (4 * ((o.keys.filter fun k => decide (start ≤ k)).take lim).length) = .ok g)
    (hbad : (orderedRead c id (handleIdx (nthH op 0)) o (orderedSegs o start lim)).2.2.1 = none) :
    fixSstore s id op base lim start = storePoint s id op c o g lim start := by
  unfold fixSstore
  simp -zeta only [hc, ho]
  extract_lets -underBinder l
  have hseg : segsFor s op.ctx .w base (4 * l.length) = .ok g := hseg
  simp -zeta only [hseg]
  extract_lets -underBinder is rd
  have hbad : rd.2.2.1 = none := hbad
  simp -zeta only [hbad]
  rfl

section
variable {s : State} {id : Nat} {op : SetOp} (hop : tabGet s.setOps id = some op) (hready : setReady s id op = true)
include hop hready

theorem execSetCompletion_sload {str base : Nat} (hact : op.act = .sload str base) :
    execSetCompletion id s = .next (completeSload s id op base) := by
  simp only [execSetCompletion, hop, hready, if_true, hact]

theorem execSetCompletion_sstore {str base lim start : Nat} (hact : op.act = .sstore str base lim start) :
    (∀ n, op.sent = some n → execSetCompletion id s = .next (sendSstore s id op str n)) ∧
    (op.sent = none → execSetCompletion id s = .next (fixSstore s id op base lim start)) := by
  constructor
  · intro n hn
    simp only [execSetCompletion, hop, hready, if_true, hact, hn]
  · intro hn
    simp only [execSetCompletion, hop, hready, if_true, hact, hn]

/-- An instruction whose agent has gone on finishes with its outcome. -/
theorem execSetCompletion_other {c : Ctx} (hc : getCtx s op.ctx = some c) (hload : ∀ str base, op.act ≠ .sload str base)
    (hstore : ∀ str base lim start, op.act ≠ .sstore str base lim start) :
    execSetCompletion id s = .next (finishSet s id op (setOutcome c id op)) := by
  simp only [execSetCompletion, hop, hready, if_true, hc]

end

theorem setCompletion_completes {id : Nat} {s t : State} (h : setPointRule (.setCompletion id) s t) :
    exec (.setCompletion id) s = .next t := by
  obtain ⟨op, c, hop, hready, hc, h⟩ := h
  refine Eq.trans (b := execSetCompletion id s) rfl ?_
  split at h
  · next hact =>
    obtain ⟨s1, s2, hdr, bs, c2, hread, hkeys, hbad, hc2, rfl⟩ := h
    rw [execSetCompletion_sload hop hready hact, sload_completes hread hkeys hbad hc2]
  · next hact =>
    obtain ⟨hsend, hfix⟩ := execSetCompletion_sstore hop hready hact
    split at h
    · next n hsent => rw [hsend n hsent, h]
    · next hsent =>
      obtain ⟨o, g, ho, hseg, hbad, rfl⟩ := h
      exact (hfix hsent).trans (congrArg _ (fixSstore_of_good hc ho hseg hbad))
  · next hload hstore =>
    obtain ⟨hbad, rfl⟩ := h
    exact (execSetCompletion_other hop hready hc hload hstore).trans (congrArg _ (finishSet_of_good hbad))

/-- Settles O32: at its point an instruction ends as `finishSet` says (`finishSet_of_good`), an SLOAD once its image is read
(`sload_completes`), an SSTORE in its two halves (`fixSstore_of_good`), and an iterator takes its entry. -/
theorem setPointsComplete : Obligations.SetPointsComplete := by
  intro i s t h
  cases i with
  | setCompletion => exact setCompletion_completes h
  | iteratorEntry => exact iteratorEntry_completes h
  | _ => exact h.elim

end Sys2Proof.Machine
end

section

namespace Sys2Proof.Machine
open Sys2Proof Sys2Proof.Claims

/-! ## What the sets hold after each set instruction (O33)

A set's universe and keys are followed through the operations that move, fetch, decide and charge its segments: those
leave `heldSet` as it is, and only `putObj` of another set changes it (`heldSet_replaced`). -/

/-! ### Universe and keys of the sets of a table -/

/-- The universe and the keys of set `n`. -/
def heldSet (t : Tab SetEntry) (n : Nat) : Option (Nat × List Nat) :=
  ((tabGet t n).bind (·.obj)).map fun o => (o.u, o.keys)

theorem heldSet_of_getObj {c : Ctx} {hd : Nat} {o : SetObj} (h : getObj c hd = some o) :
    heldSet c.sets (handleIdx hd) = some (o.u, o.keys) := congrArg (Option.map _) h

theorem getObj_of_heldSet {c : Ctx} {hd u : Nat} {ks : List Nat} (h : heldSet c.sets (handleIdx hd) = some (u, ks)) :
    ∃ o, getObj c hd = some o ∧ o.u = u ∧ o.keys = ks := by
  obtain ⟨o, ho, h⟩ := Option.map_eq_some_iff.1 h
  cases h
  exact ⟨o, ho, rfl, rfl⟩

theorem sameSets_of_heldSet {c c2 : Ctx} {but : Nat → Prop}
    (h : ∀ n, ¬ but n → heldSet c2.sets (handleIdx n) = heldSet c.sets (handleIdx n)) : SameSets c c2 but := h

theorem tabGet_tabMod {α : Type} (t : Tab α) (n m : Nat) (f : α → α) :
    tabGet (tabMod t n f) m = if m = n then (tabGet t n).map f else tabGet t m := by
  rw [tabMod]
  cases h : tabGet t n with
  | none => by_cases hm : m = n <;> simp [hm, h]
  | some v => exact tabGet_tabPut ..

@[simp] theorem heldSet_modSeg (t : Tab SetEntry) (idx i : Nat) (f : Seg → Seg) (n : Nat) :
    heldSet (modSeg t idx i f) n = heldSet t n := by
  unfold heldSet modSeg
  rw [tabGet_tabMod]
  split
  · next hn =>
    rw [hn]
    cases h : tabGet t idx with
    | none => rfl
    | some e => cases h2 : e.obj <;> simp [h2]
  · rfl

theorem heldSet_putObj {t : Tab SetEntry} {idx : Nat} {p : Nat × List Nat} (h : heldSet t idx = some p) (o : SetObj) (n : Nat) :
    heldSet (putObj t idx o) n = if n = idx then some (o.u, o.keys) else heldSet t n := by
  unfold heldSet putObj at *
  rw [tabGet_tabMod]
  split
  · cases he : tabGet t idx with
    | none => simp [he] at h
    | some e => rfl
  · rfl

/-! ### Storage and decisions leave the keys -/

theorem heldSet_of_fitSets {quota backing fuel : Nat} {t t2 : Tab SetEntry} (h : fitSets quota backing fuel t = some t2)
    (n : Nat) : heldSet t2 n = heldSet t n := by
  induction fuel generalizing t with
  | zero =>
    unfold fitSets at h
    split at h
    · cases h; rfl
    · cases h
  | succ fuel ih =>
    unfold fitSets at h
    split at h
    · split at h
      · cases h; rfl
      · cases h
    · split at h
      · cases h
      · rw [ih h, heldSet_modSeg]

theorem heldSet_of_fitCtx {c c2 : Ctx} {old : Nat × Nat} {t : Tab SetEntry} (h : fitCtx c old t = some c2) (n : Nat) :
    heldSet c2.sets n = heldSet t n := by
  unfold fitCtx at h
  dsimp only at h
  split at h
  · cases h
  · obtain ⟨t2, ht, rfl⟩ := Option.map_eq_some_iff.1 h
    exact heldSet_of_fitSets ht n

@[simp] theorem keepOld_sets (c : Ctx) (idx : Nat) (old : Nat × Nat) : (keepOld c idx old).sets = c.sets := by
  unfold keepOld
  dsimp only
  split <;> rfl

theorem heldSet_fetchSeg (c : Ctx) (idx : Nat) (o : SetObj) (now i n : Nat) :
    heldSet (fetchSeg c idx o now i).1.sets n = heldSet c.sets n := by
  rw [fetchSeg, heldSet_modSeg]

@[simp] theorem heldSet_fetchSegs (now idx : Nat) (o : SetObj) (is : List Nat) (c : Ctx) (n : Nat) :
    heldSet (fetchSegs now idx o is c).1.sets n = heldSet c.sets n := by
  induction is generalizing c with
  | nil => rfl
  | cons i is ih => exact (ih _).trans (heldSet_fetchSeg ..)

theorem decideSegs_same (l : List (Nat × Bool)) (o : SetObj) :
    (decideSegs l o).1.u = o.u ∧ (decideSegs l o).1.keys = o.keys := by
  induction l generalizing o with
  | nil => exact ⟨rfl, rfl⟩
  | cons e l ih => exact ih _

/-- A set that is replaced, where the storage holds the new one; the other sets stay. -/
theorem heldSet_replaced {c c2 : Ctx} {idx : Nat} {old : Nat × Nat} {q : SetObj} {p : Nat × List Nat}
    (hp : heldSet c.sets idx = some p) (h : fitCtx c old (putObj c.sets idx q) = some c2) (i n : Nat) :
    heldSet (keepOld c2 i old).sets n = if n = idx then some (q.u, q.keys) else heldSet c.sets n := by
  rw [keepOld_sets, heldSet_of_fitCtx h, heldSet_putObj hp]

theorem setRes_ne_full (range late : Bool) : setRes range late ≠ setFull := by
  revert range late
  decide

theorem setRes_eq_three (range late : Bool) : setRes range late = 3 ↔ range = true := by
  revert range late
  decide

/-! ### The binary operations (R155) -/

theorem mem_insertKey (k q : Nat) (l : List Nat) : q ∈ insertKey k l ↔ q = k ∨ q ∈ l := by
  induction l with
  | nil => simp [insertKey]
  | cons a l ih =>
    unfold insertKey
    split
    · simp
    · split
      · next h => simp [h]
      · simp [ih, or_left_comm]

theorem pairwise_insertKey (k : Nat) {l : List Nat} (h : l.Pairwise (· < ·)) : (insertKey k l).Pairwise (· < ·) := by
  induction l with
  | nil => simp [insertKey]
  | cons a l ih =>
    obtain ⟨ha, hl⟩ := List.pairwise_cons.1 h
    unfold insertKey
    split
    · next hk =>
      refine List.pairwise_cons.2 ⟨fun q hq => ?_, h⟩
      obtain rfl | hq := List.mem_cons.1 hq
      · exact hk
      · exact Nat.lt_trans hk (ha q hq)
    · split
      · exact h
      · refine List.pairwise_cons.2 ⟨fun q hq => ?_, ih hl⟩
        obtain rfl | hq := (mem_insertKey ..).1 hq
        · omega
        · exact ha q hq

theorem mem_insertKeys (ks l : List Nat) (q : Nat) : q ∈ ks.foldl (fun l k => insertKey k l) l ↔ q ∈ ks ∨ q ∈ l := by
  induction ks generalizing l with
  | nil => simp
  | cons k ks ih => rw [List.foldl_cons, ih, mem_insertKey, List.mem_cons, or_left_comm, or_assoc]

theorem pairwise_insertKeys (ks : List Nat) {l : List Nat} (h : l.Pairwise (· < ·)) :
    (ks.foldl (fun l k => insertKey k l) l).Pairwise (· < ·) :=
  List.foldlRecOn (motive := fun l : List Nat => l.Pairwise (· < ·)) ks _ h fun _ hl k _ => pairwise_insertKey k hl

theorem mem_combineKeys {op : Nat} (h6 : 6 ≤ op) (h9 : op ≤ 9) (a b : SetObj) (k : Nat) :
    k ∈ combineKeys op a.keys b.keys ↔ memberOf op a b k := by
  obtain rfl | rfl | rfl | rfl : op = 6 ∨ op = 7 ∨ op = 8 ∨ op = 9 := by omega
  · simp [combineKeys, memberOf]
  · by_cases k ∈ a.keys <;> simp [combineKeys, memberOf, mem_insertKeys, *]
  · simp [combineKeys, memberOf]
  · simp [combineKeys, memberOf, mem_insertKeys, or_comm]

theorem pairwise_combineKeys (op : Nat) {a b : List Nat} (ha : a.Pairwise (· < ·)) : (combineKeys op a b).Pairwise (· < ·) := by
  unfold combineKeys
  split
  · exact ha.filter _
  · exact pairwise_insertKeys _ ha
  · exact ha.filter _
  · exact pairwise_insertKeys _ (ha.filter _)

/-- Keys beyond the universe are lost, and RESULT says so. -/
theorem filter_lt_iff (u : Nat) (l : List Nat) : (l.filter fun k => decide (k < u)).length < l.length ↔ ∃ k ∈ l, u ≤ k := by
  simp [List.length_filter_lt_length_iff_exists]

/-- The point of a binary operation: SETFULL and nothing replaced, or the destination with its new keys. -/
theorem runBinary_cases {c : Ctx} {now op hd ha hb : Nat} {d a b : SetObj} {r : SetOut} (hhd : getObj c hd = some d)
    (hha : getObj c ha = some a) (hhb : getObj c hb = some b) (hr : r = runBinary c now op hd ha hb) :
    let all := combineKeys op a.keys b.keys
    let keys := all.filter fun k => decide (k < d.u)
    (r.res = setFull ∧ r.scalar = 2 ^ 64 - 1 ∧ ∀ n, heldSet r.ctx.sets n = heldSet c.sets n) ∨
    ∃ late, r.res = setRes (decide (keys.length < all.length)) late ∧ r.scalar = keys.length ∧
      ∀ n, heldSet r.ctx.sets n = if n = handleIdx hd then some (d.u, keys) else heldSet c.sets n := by
  intro all keys
  unfold runBinary at hr
  simp -zeta only [hhd, hha, hhb] at hr
  extract_lets rd rd2 d1 ks is segs q algs bytes bad old at hr
  have hrd : ∀ n, heldSet rd2.1.sets n = heldSet c.sets n := by
    intro n
    unfold rd2
    split <;> simp [rd]
  have hheld := (hrd _).trans (heldSet_of_getObj hhd)
  have hu : d1.u = d.u := by
    obtain ⟨d2, hd2, hu, -⟩ := getObj_of_heldSet hheld
    simp [d1, hd2, hu]
  have hks : ks = keys := by simp only [ks, keys, hu]
  have hq : q.1.u = d.u ∧ q.1.keys = keys := by
    obtain ⟨hqu, hqk⟩ := decideSegs_same (is.map fun i => (i, segN d1 i != 0)) { d1 with keys := ks, segs := segs }
    exact ⟨hqu.trans hu, hqk.trans hks⟩
  split at hr
  · next c2 hfit =>
    refine .inr ⟨q.2.1, ?_⟩
    subst hr
    refine ⟨by rw [← hks], by rw [← hks], fun n => ?_⟩
    rw [heldSet_replaced hheld hfit, hrd, hq.1, hq.2]
  · subst hr
    exact .inl ⟨rfl, rfl, hrd⟩

/-! ### SINS and SREM (R153) -/

/-- The keys of the universe that lanes name. -/
def Named (u : Nat) (l : List (Nat × Nat)) (k : Nat) : Prop := k < u ∧ ∃ j, (j, k) ∈ l

theorem named_nil (u k : Nat) : ¬ Named u [] k := by simp [Named]

theorem named_cons (u : Nat) (e : Nat × Nat) (l : List (Nat × Nat)) (k : Nat) :
    Named u (e :: l) k ↔ (k < u ∧ k = e.2) ∨ Named u l k := by
  obtain ⟨i, q⟩ := e
  simp [Named, exists_or, and_or_left]

theorem updateLanes_u (ins : Bool) (l : List (Nat × Nat)) (o : SetObj) : (updateLanes ins l o).1.u = o.u := by
  induction l generalizing o with
  | nil => rfl
  | cons e l ih =>
    unfold updateLanes
    split
    · exact ih o
    · refine (ih _).trans ?_
      cases ins <;> rfl

theorem mem_updateLanes (ins : Bool) (l : List (Nat × Nat)) (o : SetObj) (k : Nat) :
    k ∈ (updateLanes ins l o).1.keys ↔ if ins then k ∈ o.keys ∨ Named o.u l k else k ∈ o.keys ∧ ¬ Named o.u l k := by
  induction l generalizing o with
  | nil => cases ins <;> simp [updateLanes, named_nil]
  | cons e l ih =>
    rw [named_cons]
    unfold updateLanes
    split
    · next hu =>
      have hk : ¬ (k < o.u ∧ k = e.2) := by omega
      simpa [hk] using ih o
    · next hu =>
      have hk : k < o.u ∧ k = e.2 ↔ k = e.2 := by omega
      refine (ih _).trans ?_
      cases ins with
      | true => simp [mem_insertKey, hk, or_assoc, or_left_comm]
      | false => simp [hk, and_assoc]

/-- The point of SINS and SREM: SETFULL and nothing replaced, or the set with its new keys. `o1` is the set once its
segments have been fetched. -/
theorem runUpdate_cases {c : Ctx} {op : SetOp} {now hd : Nat} {ins : Bool} {o : SetObj} {r : SetOut}
    (ho : getObj c hd = some o) (hr : r = runUpdate c op now hd ins) :
    (r.res = setFull ∧ r.lanes = sameLanes op.width 3 ∧ ∀ n, heldSet r.ctx.sets n = heldSet c.sets n) ∨
    ∃ o1 range late, o1.u = o.u ∧ o1.keys = o.keys ∧ r.res = setRes range late ∧
      ∀ n, heldSet r.ctx.sets n =
        if n = handleIdx hd then some (o.u, (updateLanes ins op.keys o1).1.keys) else heldSet c.sets n := by
  unfold runUpdate at hr
  simp -zeta only [ho] at hr
  extract_lets rs rd o1 changed o2 q algs old at hr
  have hheld : heldSet rd.1.sets (handleIdx hd) = some (o.u, o.keys) :=
    (heldSet_fetchSegs ..).trans (heldSet_of_getObj ho)
  have ho1 : o1.u = o.u ∧ o1.keys = o.keys := by
    obtain ⟨o2, ho2, hu, hk⟩ := getObj_of_heldSet hheld
    simp [o1, ho2, hu, hk]
  have hq : q.1.u = o.u ∧ q.1.keys = (updateLanes ins op.keys o1).1.keys := by
    obtain ⟨hqu, hqk⟩ := decideSegs_same (changed.map fun i => (i, segN o1 i != 0)) o2
    exact ⟨hqu.trans ((updateLanes_u ..).trans ho1.1), hqk⟩
  split at hr
  · next c2 hfit =>
    subst hr
    refine .inr ⟨o1, _, _, ho1.1, ho1.2, rfl, fun n => ?_⟩
    rw [heldSet_replaced hheld hfit, hq.1, hq.2, heldSet_fetchSegs]
  · subst hr
    exact .inl ⟨rfl, rfl, fun n => heldSet_fetchSegs ..⟩

/-! ### SHAS (R153) -/

theorem natOfBits_lt (p : Nat → Bool) (w : Nat) : natOfBits p w < 2 ^ w := by
  induction w with
  | zero => simp [natOfBits]
  | succ w ih =>
    unfold natOfBits
    split <;> omega

theorem testBit_natOfBits (p : Nat → Bool) (w l : Nat) : (natOfBits p w).testBit l = (decide (l < w) && p l) := by
  induction w with
  | zero => simp [natOfBits]
  | succ w ih =>
    have hsucc : natOfBits p (w + 1) = 2 ^ w * (p w).toNat + natOfBits p w := by
      cases h : p w <;> simp [natOfBits, h, Nat.add_comm]
    rw [hsucc, Nat.testBit_two_pow_mul_add _ (natOfBits_lt p w), ih]
    obtain hl | rfl | hl := Nat.lt_trichotomy l w
    · simp [hl, Nat.lt_succ_of_lt hl]
    · cases h : p l <;> simp
    · have hbit : (p w).toNat.testBit (l - w) = false :=
        Nat.testBit_lt_two_pow (Nat.lt_of_lt_of_le (Bool.toNat_lt _) (Nat.le_self_pow (by omega) 2))
      simp [show ¬ l < w by omega, show ¬ l < w + 1 by omega, hbit]

theorem getLsbD_maskOf (w : Nat) (p : Nat → Bool) {l : Nat} (hl : l < 128) :
    (maskOf w p).getLsbD l = (decide (l < w) && p l) := by
  rw [maskOf, BitVec.getLsbD_ofNat, testBit_natOfBits, decide_eq_true hl, Bool.true_and]

/-- What SHAS tells of a lane: whether the key that it names is a member. -/
def hasLane (o : SetObj) (keys : List (Nat × Nat)) (l : Nat) : Bool :=
  keys.any fun e => e.1 == l && decide (e.2 < o.u) && o.keys.contains e.2

theorem hasLane_iff (o : SetObj) (keys : List (Nat × Nat)) (l : Nat) :
    hasLane o keys l = true ↔ ∃ k, (l, k) ∈ keys ∧ k < o.u ∧ k ∈ o.keys := by
  simp only [hasLane, List.any_eq_true, Bool.and_eq_true, beq_iff_eq, decide_eq_true_eq, List.contains_iff_mem]
  constructor
  · rintro ⟨⟨_, k⟩, hm, ⟨rfl, hu⟩, hk⟩
    exact ⟨k, hm, hu, hk⟩
  · rintro ⟨k, hm, hu, hk⟩
    exact ⟨(l, k), hm, ⟨rfl, hu⟩, hk⟩

/-- The point of SHAS: no set changes, and each lane has its answer, in a vector and in a mask. -/
theorem runShas_answers {c : Ctx} {op : SetOp} {now hd : Nat} {o : SetObj} (ho : getObj c hd = some o) :
    (∀ n, heldSet (runShas c op now hd).ctx.sets n = heldSet c.sets n) ∧
    (runShas c op now hd).lanes = ((List.range op.width).map fun l => if hasLane o op.keys l then 1 else 0) ∧
    (runShas c op now hd).kbits = maskOf op.width (hasLane o op.keys) := by
  unfold runShas
  simp -zeta only [ho]
  exact ⟨fun n => heldSet_fetchSegs .., rfl, rfl⟩

/-! ### The five clauses -/

theorem runBinary_membership {c : Ctx} {now op hd ha hb : Nat} {d a b : SetObj} (h6 : 6 ≤ op) (h9 : op ≤ 9)
    (hhd : getObj c hd = some d) (hha : getObj c ha = some a) (hhb : getObj c hb = some b) :
    let r := runBinary c now op hd ha hb
    if r.res = setFull then r.scalar = 2 ^ 64 - 1 ∧ SameSets c r.ctx fun _ => False
    else ∃ d2, getObj r.ctx hd = some d2 ∧ d2.u = d.u ∧ (∀ k, k ∈ d2.keys ↔ k < d.u ∧ memberOf op a b k) ∧
      r.scalar = d2.keys.length ∧ (r.res = 3 ↔ ∃ k, memberOf op a b k ∧ d.u ≤ k) ∧
      (a.keys.Pairwise (· < ·) → b.keys.Pairwise (· < ·) → d2.keys.Pairwise (· < ·)) ∧
      SameSets c r.ctx fun n => handleIdx n = handleIdx hd := by
  intro r
  obtain ⟨hres, hsc, hheld⟩ | ⟨late, hres, hsc, hheld⟩ := runBinary_cases (r := r) hhd hha hhb rfl
  · rw [if_pos hres]
    exact ⟨hsc, sameSets_of_heldSet fun n _ => hheld _⟩
  · rw [if_neg fun h => setRes_ne_full _ _ (hres.symm.trans h)]
    obtain ⟨d2, hd2, hu, hk⟩ := getObj_of_heldSet ((hheld _).trans (if_pos rfl))
    refine ⟨d2, hd2, hu, fun k => ?_, by rw [hsc, hk], ?_, fun ha _ => ?_, ?_⟩
    · rw [hk, List.mem_filter, mem_combineKeys h6 h9, decide_eq_true_eq, and_comm]
    · simp only [hres, setRes_eq_three, decide_eq_true_eq, filter_lt_iff, mem_combineKeys h6 h9]
    · rw [hk]
      exact (pairwise_combineKeys op ha).filter _
    · exact sameSets_of_heldSet fun n hn => (hheld _).trans (if_neg hn)

theorem runUpdate_membership {c : Ctx} {op : SetOp} {now hd : Nat} {ins : Bool} {o : SetObj} (ho : getObj c hd = some o) :
    let r := runUpdate c op now hd ins
    let named := fun k => k < o.u ∧ ∃ l, (l, k) ∈ op.keys
    if r.res = setFull then r.lanes = sameLanes op.width 3 ∧ SameSets c r.ctx fun _ => False
    else ∃ o2, getObj r.ctx hd = some o2 ∧ o2.u = o.u ∧
      (∀ k, k ∈ o2.keys ↔ if ins then k ∈ o.keys ∨ named k else k ∈ o.keys ∧ ¬ named k) ∧
      SameSets c r.ctx fun n => handleIdx n = handleIdx hd := by
  intro r named
  obtain ⟨hres, hlanes, hheld⟩ | ⟨o1, range, late, hu1, hk1, hres, hheld⟩ := runUpdate_cases (r := r) ho rfl
  · rw [if_pos hres]
    exact ⟨hlanes, sameSets_of_heldSet fun n _ => hheld _⟩
  · rw [if_neg fun h => setRes_ne_full _ _ (hres.symm.trans h)]
    obtain ⟨o2, ho2, hu, hk⟩ := getObj_of_heldSet ((hheld _).trans (if_pos rfl))
    refine ⟨o2, ho2, hu, fun k => ?_, sameSets_of_heldSet fun n hn => (hheld _).trans (if_neg hn)⟩
    rw [hk, mem_updateLanes, hu1, hk1]
    rfl

theorem runShas_membership {c : Ctx} {op : SetOp} {now hd : Nat} {o : SetObj} (ho : getObj c hd = some o) :
    let r := runShas c op now hd
    let has := fun l => ∃ k, (l, k) ∈ op.keys ∧ k < o.u ∧ k ∈ o.keys
    SameSets c r.ctx (fun _ => False) ∧
    ∀ l, l < op.width → (r.lanes[l]? = some 1 ↔ has l) ∧ (r.lanes[l]? = some 0 ↔ ¬ has l) ∧
      (l < 128 → (r.kbits.getLsbD l = true ↔ has l)) := by
  intro r has
  obtain ⟨hheld, hlanes, hbits⟩ := runShas_answers (op := op) (now := now) ho
  refine ⟨sameSets_of_heldSet fun n _ => hheld _, fun l hl => ?_⟩
  have hlane : r.lanes[l]? = some (if hasLane o op.keys l then 1 else 0) := by
    simp [r, hlanes, List.getElem?_range hl]
  have hhas : has l ↔ hasLane o op.keys l = true := (hasLane_iff ..).symm
  rw [hlane, hhas]
  refine ⟨by simp, by simp, fun h128 => ?_⟩
  rw [hbits, getLsbD_maskOf _ _ h128, decide_eq_true hl, Bool.true_and]

/-- SDEL leaves no set, and the entry's next generation (R152). -/
theorem runSdel_sets (c : Ctx) (hd n : Nat) : tabGet (runSdel c hd).ctx.sets n =
    if n = handleIdx hd then (tabGet c.sets (handleIdx hd)).map fun e =>
      { gen := if e.gen = 255 then 0 else e.gen + 1, obj := none }
    else tabGet c.sets n := by
  rw [runSdel]
  simp only [tabGet_tabMod, keepOld_sets]

theorem runSdel_deletes {c : Ctx} {hd : Nat} {e : SetEntry} (he : tabGet c.sets (handleIdx hd) = some e) :
    tabGet (runSdel c hd).ctx.sets (handleIdx hd) = some { gen := if e.gen = 255 then 0 else e.gen + 1, obj := none } ∧
    getObj (runSdel c hd).ctx hd = none ∧ SameSets c (runSdel c hd).ctx fun n => handleIdx n = handleIdx hd := by
  have hgone : tabGet (runSdel c hd).ctx.sets (handleIdx hd) = some { gen := if e.gen = 255 then 0 else e.gen + 1, obj := none } := by
    rw [runSdel_sets, if_pos rfl, he]
    rfl
  refine ⟨hgone, by rw [getObj, hgone]; rfl, sameSets_of_heldSet fun n hn => ?_⟩
  rw [heldSet, runSdel_sets, if_neg hn]
  rfl

/-- Settles O33, by the clause of each instruction: what its point does to `heldSet` (`runBinary_cases`,
`runUpdate_cases`, `runShas_answers`, `runSdel_sets`), read as membership. -/
theorem setMembership : Obligations.SetMembership := by
  refine ⟨?_, ?_, ?_, ?_, ?_⟩
  · intro c now op hd ha hb d a b h6 h9 hhd hha hhb
    exact runBinary_membership h6 h9 hhd hha hhb
  · intro c op now hd ins o ho
    exact runUpdate_membership ho
  · intro c op now hd o ho
    exact runShas_membership ho
  · intro c hd o ho
    exact ⟨rfl, by simp [runScard, ho]⟩
  · intro c hd e he
    exact runSdel_deletes he

end Sys2Proof.Machine
end

section

namespace Sys2Proof.Machine
open Sys2Proof Sys2Proof.Claims

/-! ## The egress sealer and RDMA complete (O40)

One equation for each outcome of a descriptor, of a message that writes and of a message that reads; the cases of the rules
are these outcomes. -/

/-! ### The egress sealer (R317, R318) -/

/-- A descriptor with no reserved field set. -/
def DescClean (d : List Byte) : Prop := recNat d 12 4 = 0 ∧ recNat d 24 8 = 0

/-- A descriptor whose length is 1 to 8,192 and whose status word is aligned. -/
def DescFits (d : List Byte) : Prop := 1 ≤ recNat d 8 4 ∧ recNat d 8 4 ≤ 8192 ∧ recNat d 16 8 % 8 = 0

/-- The frame that a descriptor names, as the sealer reads it. -/
def descFrame (s : State) (c : Ctx) (d : List Byte) : Except ReadFault (List Byte) :=
  dispatchRead s c.id (recNat d 0 8) (recNat d 8 4) 0

/-- The state once the sealer has taken a channel's next descriptor. -/
def takeDescriptor (s : State) (ctx chan : Nat) (c : Ctx) (e : Egress) : State :=
  setCtx { s with freeN := s.freeN + 40 } ctx
    { c with egress := tabPut c.egress chan { e with index := e.index + 1, seq := e.seq + 1, told := false } }

theorem reserved_iff_not_clean (d : List Byte) : (recNat d 12 4 ≠ 0 ∨ recNat d 24 8 ≠ 0) ↔ ¬ DescClean d := by
  unfold DescClean
  omega

theorem misfit_iff_not_fits (d : List Byte) :
    (recNat d 8 4 = 0 ∨ 8192 < recNat d 8 4 ∨ recNat d 16 8 % 8 ≠ 0) ↔ ¬ DescFits d := by
  unfold DescFits
  omega

section
variable {s w : State} {c : Ctx} {chan seq : Nat} {d frame : List Byte}

/-- A reserved field: status 2, and no frame. -/
theorem sealDescriptor_of_reserved (hd : ¬ DescClean d) :
    sealDescriptor s c chan seq d = egressStatus s c.id (recNat d 16 8) seq 2 :=
  if_pos ((reserved_iff_not_clean d).2 hd)

/-- A bad length or status address, or a frame that cannot be read: status 1, and the fault is reported. -/
theorem sealDescriptor_of_fault (hd : DescClean d)
    (hw : ¬ DescFits d ∧ w = s ∨ DescFits d ∧ ∃ r, descFrame s c d = .error r ∧ w = countRead s c.id r.2) :
    sealDescriptor s c chan seq d =
      report (egressStatus w c.id (recNat d 16 8) seq 1) (.egressFault c.id chan seq) := by
  obtain ⟨hfit, rfl⟩ | ⟨hfit, r, hframe, rfl⟩ := hw
  · simp only [sealDescriptor, reserved_iff_not_clean, misfit_iff_not_fits, hd, hfit, not_true_eq_false, not_false_eq_true,
      if_true, if_false]
  · rw [descFrame] at hframe
    simp only [sealDescriptor, reserved_iff_not_clean, misfit_iff_not_fits, hd, hfit, not_true_eq_false, if_false, hframe]

/-- A frame that is read goes out with its provenance record, with status 0. -/
theorem sealDescriptor_of_frame (hd : DescClean d) (hfit : DescFits d) (hframe : descFrame s c d = .ok frame) :
    sealDescriptor s c chan seq d = egressStatus (report { s with freeN := s.freeN + frame.length }
      (.frame c.id chan (frame ++ provenanceRecord s c chan seq frame))) c.id (recNat d 16 8) seq 0 := by
  rw [descFrame] at hframe
  simp only [sealDescriptor, reserved_iff_not_clean, misfit_iff_not_fits, hd, hfit, not_true_eq_false, if_false, hframe]

end

/-- A running device whose channel has a readable next descriptor takes it and seals it. -/
theorem execEgressDescriptor_of_read {s : State} {ctx chan : Nat} {c : Ctx} {e : Egress} {d : List Byte}
    (hc : liveCtx s ctx = some c) (he : tabGet c.egress chan = some e) (hrun : running s = true)
    (hready : egressReady s c e = .ok true)
    (hread : dispatchRead s ctx (e.cfg.ring.toNat + 32 * (e.index % e.cfg.slots)) 32 8 = .ok d) :
    execEgressDescriptor ctx chan s = .next (sealDescriptor (takeDescriptor s ctx chan c e) c chan e.seq d) := by
  simp only [execEgressDescriptor, takeDescriptor, hc, he, hrun, hready, hread, Bool.not_true, Bool.false_eq_true, if_false]

theorem egressDescriptor_completes {ctx chan : Nat} {s t : State} (h : outsideRule (.egressDescriptor ctx chan) s t) :
    exec (.egressDescriptor ctx chan) s = .next t := by
  obtain ⟨c, e, d, hc, he, hrun, hready, hread, hout⟩ := h
  refine Eq.trans (b := execEgressDescriptor ctx chan s) rfl ?_
  rw [execEgressDescriptor_of_read hc he hrun hready hread]
  obtain ⟨hclean, hfit, frame, hframe, rfl⟩ | ⟨hclean, rfl⟩ | ⟨hclean, w, hw, rfl⟩ := hout
  · exact congrArg _ (sealDescriptor_of_frame hclean hfit hframe)
  · exact congrArg _ (sealDescriptor_of_reserved hclean)
  · exact congrArg _ (sealDescriptor_of_fault hclean hw)

/-! ### RDMA (R223, R224, R319) -/

section
variable {ctx qp n : Nat} {va : DWord} {bytes bs : List Byte} {s t : State} {c : Ctx}

/-- A queue pair that is not bound to the live context which the message names: a NAK. -/
theorem execRdmaWrite_of_unbound (hq : qpCtx s ctx qp = none) :
    execRdmaWrite ctx qp va bytes s = .next (report s (.nak qp)) := by
  rw [execRdmaWrite, hq]

theorem execRdmaWrite_of_unmapped {e : AddrFault} (hq : qpCtx s ctx qp = some c)
    (hsegs : segsFor s c.id .we va.toNat bytes.length = .error e) :
    execRdmaWrite ctx qp va bytes s = .next (report (countWalk s c.id e) (.nak qp)) := by
  simp only [execRdmaWrite, hq, hsegs]

theorem execRdmaWrite_of_written {g : List (Nat × Nat)} (hq : qpCtx s ctx qp = some c)
    (hsegs : segsFor s c.id .we va.toNat bytes.length = .ok g)
    (hreach : ∀ p ∈ g, reachOf s c.id true [p] ≠ .refused) (hwrite : unitWrite s c.id g bytes = (t, none)) :
    execRdmaWrite ctx qp va bytes s = .next t := by
  have hnone : (g.any fun p => reachOf s c.id true [p] == .refused) = false :=
    List.any_eq_false.2 fun p hp hrefused => hreach p hp (eq_of_beq hrefused)
  simp only [execRdmaWrite, hq, hsegs, hnone, hwrite, Bool.false_eq_true, if_false]

theorem execRdmaRead_of_unbound (hq : qpCtx s ctx qp = none) :
    execRdmaRead ctx qp va n s = .next (report s (.nak qp)) := by
  rw [execRdmaRead, hq]

/-- R319: no message reads a sealed context. -/
theorem execRdmaRead_of_sealed (hq : qpCtx s ctx qp = some c) (hsealed : c.params.sealed = true) :
    execRdmaRead ctx qp va n s = .next (report s (.nak qp)) := by
  simp only [execRdmaRead, hq, if_pos hsealed]

theorem execRdmaRead_of_unreadable {e : ReadFault} (hq : qpCtx s ctx qp = some c) (hopen : c.params.sealed = false)
    (hread : dispatchRead s c.id va.toNat n 0 = .error e) :
    execRdmaRead ctx qp va n s = .next (report (countRead s ctx e.2) (.nak qp)) := by
  simp only [execRdmaRead, hq, hopen, hread, Bool.false_eq_true, if_false]

theorem execRdmaRead_of_read (hq : qpCtx s ctx qp = some c) (hopen : c.params.sealed = false)
    (hread : dispatchRead s c.id va.toNat n 0 = .ok bs) :
    execRdmaRead ctx qp va n s = .next (report { s with freeN := s.freeN + n } (.rdmaData qp bs)) := by
  simp only [execRdmaRead, hq, hopen, hread, Bool.false_eq_true, if_false]

theorem rdmaWrite_completes (h : outsideRule (.rdmaWrite ctx qp va bytes) s t) :
    exec (.rdmaWrite ctx qp va bytes) s = .next t := by
  refine Eq.trans (b := execRdmaWrite ctx qp va bytes s) rfl ?_
  obtain ⟨c, g, hq, hsegs, hreach, hwrite⟩ | ⟨hq, rfl⟩ | ⟨c, e, hq, hsegs, rfl⟩ := h
  · exact execRdmaWrite_of_written hq hsegs hreach hwrite
  · exact execRdmaWrite_of_unbound hq
  · exact execRdmaWrite_of_unmapped hq hsegs

theorem rdmaRead_completes (h : outsideRule (.rdmaRead ctx qp va n) s t) :
    exec (.rdmaRead ctx qp va n) s = .next t := by
  refine Eq.trans (b := execRdmaRead ctx qp va n s) rfl ?_
  obtain ⟨c, bs, hq, hopen, hread, rfl⟩ | ⟨hq | ⟨c, hq, hsealed⟩, rfl⟩ | ⟨c, e, hq, hopen, hread, rfl⟩ := h
  · exact execRdmaRead_of_read hq hopen hread
  · exact execRdmaRead_of_unbound hq
  · exact execRdmaRead_of_sealed hq hsealed
  · exact execRdmaRead_of_unreadable hq hopen hread

end

/-- Settles O40, by the outcome that the rule names: what becomes of a descriptor (`sealDescriptor_of_frame` and its
companions), and what a message is answered; an unsupported message is a NAK by definition. -/
theorem outsideStepsComplete : Obligations.OutsideStepsComplete := by
  intro i s t h
  cases i with
  | egressDescriptor ctx chan => exact egressDescriptor_completes h
  | rdmaWrite ctx qp va bytes => exact rdmaWrite_completes h
  | rdmaRead ctx qp va n => exact rdmaRead_completes h
  | rdmaRefused qp =>
    obtain rfl : t = report s (.nak qp) := h
    rfl
  | _ => exact h.elim

end Sys2Proof.Machine
end

section

namespace Sys2Proof.Machine
open Sys2Proof Sys2Proof.Claims

/-! ## The steps of commissions and of time complete (the first half of O38)

A record is launched or refused as the rules say; each step then does what its rule says. -/

section
variable {s t : State} {ctx priv : Nat} {src : Source} {bs : List Byte} {order : Option Nat}

theorem launchRecord_of_launches {c : Comm} (h : Launches s ctx priv src bs order c t) :
    launchRecord s ctx priv src bs order = (t, some s.fresh) := by
  obtain ⟨hgood, hfits, rfl, rfl⟩ := h
  simp only [launchRecord, hgood, hfits, Bool.not_true, Bool.false_eq_true, if_false]

theorem launchRecord_of_refuses (h : Refuses s ctx src bs t) : launchRecord s ctx priv src bs order = (t, none) := by
  obtain ⟨off, hbad, rfl⟩ | ⟨hgood, hmisfit, rfl⟩ := h
  · simp only [launchRecord, hbad]
  · simp only [launchRecord, hgood, hmisfit, Bool.not_false, if_true]

/-- The context of a launch is live. -/
theorem live_of_notKilled {x : Ctx} (hx : getCtx s ctx = some x) (hlive : x.killed = none) :
    ((getCtx s ctx).any fun c => c.killed.isNone) = true := by
  simp [hx, hlive]

theorem commissionLaunch_completes {n : Nat} (h : commissionRule (.commissionLaunch n) s t) :
    exec (.commissionLaunch n) s = .next t := by
  refine Eq.trans (b := execCommissionLaunch n s) rfl ?_
  obtain ⟨q, x, hq, hrun, hx, hlive, hhead⟩ := h
  have hgo : (!running s || !(getCtx s q.reg.ctx).any fun c => c.killed.isNone) = false := by
    rw [hrun, live_of_notKilled hx hlive]; rfl
  obtain ⟨bs, w, hrec, hfirst, ⟨c, hl⟩ | hr, rfl⟩ | ⟨r, va, met, hfault, rfl⟩ := hhead
  · simp only [execCommissionLaunch, hq, hgo, hrec, hfirst, launchRecord_of_launches hl, Bool.false_eq_true, if_false]
  · simp only [execCommissionLaunch, hq, hgo, hrec, hfirst, launchRecord_of_refuses hr, Bool.false_eq_true, if_false]
  · simp only [execCommissionLaunch, hq, hgo, hfault, Bool.false_eq_true, if_false]

/-- An entry of the time-triggered table that takes its last due time, the earlier ones skipped (R249; log 116). -/
def takeDue (s : State) (e : TTState) : TTState :=
  { e with last := lastDue e.cfg (deviceTime s), cfg := skipMore e.cfg (lastDue e.cfg (deviceTime s) - e.last - 1).toNat }

/-- What a due entry does once its record has been read. -/
def serveDue (s : State) (n : Nat) (e : TTState) (bs : List Byte) : State :=
  match ttRunning s e with
  | none => ttLaunch s n e bs none
  | some (c, x) =>
    match e.cfg.policy with
    | 0 => { s with tt := tabPut s.tt n { e with cfg := skipMore e.cfg 1 } }
    | 1 =>
      if e.pending.isSome then { s with tt := tabPut s.tt n { e with cfg := skipMore e.cfg 1 } }
      else { s with tt := tabPut s.tt n { e with pending := some bs } }
    | _ => requestPanels (ttLaunch s n e bs (some (x.order - 1))) (.table n) ((s.panels.filter fun p => p.2.comm == c).map (·.1))
        x.record.latency

theorem execTtInstanceDue_of_read {n : Nat} {e : TTState} {x : Ctx} (he : tabGet s.tt n = some e) (hrun : running s = true)
    (hdue : ttDue s e = true) (hx : getCtx s e.cfg.ctx = some x) (hlive : x.killed = none)
    (halign : e.cfg.record.toNat % 64 = 0) (hhere : readAwaited s e.cfg.ctx e.cfg.record.toNat 256 = false)
    (hread : dispatchRead s e.cfg.ctx e.cfg.record.toNat 256 0 = .ok bs) :
    execTtInstanceDue n s = .next (serveDue { s with freeN := s.freeN + 256 } n (takeDue s e) bs) := by
  have hreads : ¬ (e.cfg.record.toNat % 64 ≠ 0 ∨ (!(getCtx s e.cfg.ctx).any fun c => c.killed.isNone) = true) := by
    simp [halign, live_of_notKilled hx hlive]
  simp only [execTtInstanceDue, he, hrun, hdue, hhere, if_neg hreads, hread, Bool.not_true, Bool.or_self,
    Bool.false_eq_true, if_false]
  rfl

theorem ttLaunch_of_launches {n : Nat} {e : TTState} {c : Comm} (h : Launches s e.cfg.ctx 0 (.table n) bs order c t) :
    ttLaunch s n e bs order = { t with tt := tabPut t.tt n { e with inst := some s.fresh } } := by
  simp only [ttLaunch, launchRecord_of_launches h]

theorem ttLaunch_of_refuses {n : Nat} {e : TTState} (h : Refuses s e.cfg.ctx (.table n) bs t) :
    ttLaunch s n e bs order = { t with tt := tabPut t.tt n { e with inst := none } } := by
  simp only [ttLaunch, launchRecord_of_refuses h]

theorem serveDue_of_idle {n : Nat} {e : TTState} (h : ttRunning s e = none) : serveDue s n e bs = ttLaunch s n e bs none := by
  simp only [serveDue, h]

theorem serveDue_of_skip {n : Nat} {e : TTState} (h : ttRunning s e ≠ none) (hpolicy : e.cfg.policy = 0) :
    serveDue s n e bs = { s with tt := tabPut s.tt n { e with cfg := skipMore e.cfg 1 } } := by
  obtain ⟨r, hr⟩ := Option.ne_none_iff_exists'.1 h
  simp only [serveDue, hr, hpolicy]

theorem serveDue_of_queue {n : Nat} {e : TTState} (h : ttRunning s e ≠ none) (hpolicy : e.cfg.policy = 1) :
    serveDue s n e bs = if e.pending.isSome then { s with tt := tabPut s.tt n { e with cfg := skipMore e.cfg 1 } }
      else { s with tt := tabPut s.tt n { e with pending := some bs } } := by
  obtain ⟨r, hr⟩ := Option.ne_none_iff_exists'.1 h
  simp only [serveDue, hr, hpolicy]

theorem serveDue_of_preempt {n r : Nat} {e : TTState} {x : Comm} (h : ttRunning s e = some (r, x)) (hpolicy : 2 ≤ e.cfg.policy) :
    serveDue s n e bs = requestPanels (ttLaunch s n e bs (some (x.order - 1))) (.table n)
      ((s.panels.filter fun p => p.2.comm == r).map (·.1)) x.record.latency := by
  obtain ⟨k, hk⟩ := Nat.exists_eq_add_of_le' hpolicy
  simp only [serveDue, h, hk]

theorem ttInstanceDue_completes {n : Nat} (h : commissionRule (.ttInstanceDue n) s t) :
    exec (.ttInstanceDue n) s = .next t := by
  refine Eq.trans (b := execTtInstanceDue n s) rfl ?_
  obtain ⟨e, x, bs, w, he, hrun, hdue, hx, hlive, halign, hhere, hread, hserve⟩ := h
  let u := { s with freeN := s.freeN + 256 }
  let e1 := takeDue s e
  refine (execTtInstanceDue_of_read he hrun hdue hx hlive halign hhere hread).trans (congrArg Host.Outcome.next ?_)
  obtain ⟨hidle, ⟨c, hl⟩, rfl⟩ | ⟨hidle, hr, rfl⟩ | ⟨hbusy, hpolicy, rfl⟩ | ⟨hbusy, hpolicy, rfl⟩ |
    ⟨r, y, hbusy, hpolicy, ⟨c, hl⟩, rfl⟩ := hserve
  · exact (serveDue_of_idle (s := u) (e := e1) hidle).trans (ttLaunch_of_launches hl)
  · exact (serveDue_of_idle (s := u) (e := e1) hidle).trans (ttLaunch_of_refuses hr)
  · exact serveDue_of_skip (s := u) (e := e1) hbusy hpolicy
  · exact serveDue_of_queue (s := u) (e := e1) hbusy hpolicy
  · exact (serveDue_of_preempt (s := u) (e := e1) hbusy hpolicy).trans
      (congrArg (requestPanels · (.table n) _ _) (ttLaunch_of_launches (s := u) (e := e1) hl))

theorem ptpMessage_completes {m : PtpMsg} (h : commissionRule (.ptpMessage m) s t) : exec (.ptpMessage m) s = .next t := by
  refine Eq.trans (b := execPtpMessage m s) rfl ?_
  simp only [commissionRule] at h
  unfold execPtpMessage
  split at h
  next hother => rw [if_pos hother, h]
  next hours => simp only [if_neg hours, h, decide_eq_true_eq]

theorem panelPlacement_completes {comm : Nat} (h : commissionRule (.panelPlacement comm) s t) :
    exec (.panelPlacement comm) s = .next t := by
  refine Eq.trans (b := execPanelPlacement comm s) rfl ?_
  obtain ⟨a, hrun, hnofire, hnext, rfl⟩ := h
  simp [execPanelPlacement, hrun, hnofire, hnext]

theorem panelRetire_completes {id : Nat} (h : commissionRule (.panelRetire id) s t) : exec (.panelRetire id) s = .next t := by
  refine Eq.trans (b := execPanelRetire id s) rfl ?_
  obtain ⟨p, hp, hdone, rfl⟩ := h
  simp only [execPanelRetire, hp, hdone, if_true]

theorem commissionRetire_completes {id : Nat} (h : commissionRule (.commissionRetire id) s t) :
    exec (.commissionRetire id) s = .next t := by
  refine Eq.trans (b := execCommissionRetire id s) rfl ?_
  obtain ⟨c, hc, hdone, rfl⟩ := h
  simp only [execCommissionRetire, hc, hdone, if_true]

theorem starvationExpiry_completes {aid : Nat} (h : commissionRule (.starvationExpiry aid) s t) :
    exec (.starvationExpiry aid) s = .next t := by
  refine Eq.trans (b := execStarvationExpiry aid s) rfl ?_
  obtain ⟨a, code, w, ha, hwait, hstarve, rfl⟩ := h
  simp only [execStarvationExpiry, ha, hwait, hstarve, Bool.false_eq_true, if_false,
    Bool.not_eq_eq_eq_not, Bool.not_true]

end

/-- R239-R250, R44, R247, R244: the first half of O38. -/
theorem commissionRule_completes {i : Instr} {s t : State} (h : commissionRule i s t) : exec i s = .next t := by
  cases i with
  | commissionLaunch n => exact commissionLaunch_completes h
  | ttInstanceDue n => exact ttInstanceDue_completes h
  | ptpMessage m => exact ptpMessage_completes h
  | ptpSourceUnlocked =>
    obtain rfl : t = { s with juran := { s.juran with ptpLocked := false } } := h
    rfl
  | panelPlacement comm => exact panelPlacement_completes h
  | panelRetire id => exact panelRetire_completes h
  | commissionRetire id => exact commissionRetire_completes h
  | starvationExpiry aid => exact starvationExpiry_completes h
  | _ => exact h.elim

end Sys2Proof.Machine
end

section

namespace Sys2Proof.Machine
open Sys2Proof Sys2Proof.Claims

/-! ## The placement of a group where each saved panel has its own number (the second half of O38)

Each panel of the group is placed in turn. A new one is added under numbers that are not in use, so the panels placed before
it stay as they are (`Keeps`). A saved one keeps its number, and no other saved panel changes. -/

/-! ### Tables whose numbers rise -/

/-- The form that `tabPut` keeps: numbers rise. -/
def Rising {α : Type} (t : Tab α) : Prop := t.Pairwise fun p q => p.1 < q.1

theorem mem_tabPut {α : Type} {t : Tab α} {n : Nat} {x : α} {p : Nat × α} (h : p ∈ tabPut t n x) : p = (n, x) ∨ p ∈ t := by
  induction t with
  | nil => exact .inl (List.mem_singleton.1 h)
  | cons q t ih =>
    obtain ⟨k, v⟩ := q
    simp only [tabPut] at h
    split at h
    · exact (List.mem_cons.1 h).imp_right (List.mem_cons_of_mem _)
    · split at h
      · exact List.mem_cons.1 h
      · obtain rfl | h := List.mem_cons.1 h
        · exact .inr List.mem_cons_self
        · exact (ih h).imp_right (List.mem_cons_of_mem _)

theorem rising_tabPut {α : Type} {t : Tab α} (h : Rising t) (n : Nat) (x : α) : Rising (tabPut t n x) := by
  induction t with
  | nil => exact List.pairwise_singleton _ _
  | cons q t ih =>
    obtain ⟨k, v⟩ := q
    obtain ⟨hk, ht⟩ := List.pairwise_cons.1 h
    by_cases heq : k = n
    · rw [tabPut, if_pos heq]
      exact List.pairwise_cons.2 ⟨heq ▸ hk, ht⟩
    · by_cases hlt : n < k
      · rw [tabPut, if_neg heq, if_pos hlt]
        refine List.pairwise_cons.2 ⟨fun p hp => ?_, h⟩
        obtain rfl | hp := List.mem_cons.1 hp
        · exact hlt
        · exact Nat.lt_trans hlt (hk p hp)
      · rw [tabPut, if_neg heq, if_neg hlt]
        refine List.pairwise_cons.2 ⟨fun p hp => ?_, ih ht⟩
        obtain rfl | hp := mem_tabPut hp
        · exact Nat.lt_of_le_of_ne (Nat.le_of_not_lt hlt) heq
        · exact hk p hp

theorem mem_of_tabGet {α : Type} {t : Tab α} {n : Nat} {v : α} (h : tabGet t n = some v) : (n, v) ∈ t := by
  induction t with
  | nil => cases h
  | cons q t ih =>
    obtain ⟨k, w⟩ := q
    rw [tabGet] at h
    split at h
    next hk => cases h; subst hk; exact List.mem_cons_self
    next => exact List.mem_cons_of_mem _ (ih h)

theorem tabFind_spec {α : Type} {f : Nat → α → Bool} {t : Tab α} {n : Nat} {v : α} (h : tabFind f t = some (n, v)) :
    (n, v) ∈ t ∧ f n v = true := by
  induction t with
  | nil => cases h
  | cons q t ih =>
    obtain ⟨k, w⟩ := q
    rw [tabFind] at h
    split at h
    next hf => cases h; exact ⟨List.mem_cons_self, hf⟩
    next => exact ⟨List.mem_cons_of_mem _ (ih h).1, (ih h).2⟩

theorem tabGet_of_tabFind {α : Type} {f : Nat → α → Bool} {t : Tab α} {n : Nat} {v : α} (hr : Rising t)
    (h : tabFind f t = some (n, v)) : tabGet t n = some v := by
  induction t with
  | nil => cases h
  | cons q t ih =>
    obtain ⟨k, w⟩ := q
    obtain ⟨hk, ht⟩ := List.pairwise_cons.1 hr
    rw [tabFind] at h
    split at h
    next => cases h; rw [tabGet, if_pos rfl]
    next => rw [tabGet, if_neg (Nat.ne_of_lt (hk _ (tabFind_spec h).1)), ih ht h]

theorem tabFind_tabPut_none {α : Type} {f : Nat → α → Bool} {t : Tab α} (h : tabFind f t = none) {n : Nat} {x : α}
    (hx : f n x = false) : tabFind f (tabPut t n x) = none := by
  induction t with
  | nil => simp [tabPut, tabFind, hx]
  | cons q t ih =>
    obtain ⟨k, v⟩ := q
    rw [tabFind] at h
    split at h
    next => cases h
    next hf =>
      rw [Bool.not_eq_true] at hf
      by_cases heq : k = n
      · simp only [tabPut, heq, tabFind, hx, h, if_true, Bool.false_eq_true, if_false]
      · by_cases hlt : n < k
        · simp only [tabPut, heq, hlt, tabFind, hx, hf, h, if_true, Bool.false_eq_true, if_false]
        · simp only [tabPut, heq, hlt, tabFind, hf, ih h, Bool.false_eq_true, if_false]

/-- A value put for one that `f` takes no differently: what `f` finds is the same entry, with its new value. -/
theorem tabFind_tabPut {α : Type} {f : Nat → α → Bool} {t : Tab α} (hr : Rising t) {n : Nat} {v x : α}
    (hv : tabGet t n = some v) (hx : f n x = f n v) :
    tabFind f (tabPut t n x) = (tabFind f t).map fun p => if p.1 = n then (n, x) else p := by
  induction t with
  | nil => cases hv
  | cons q t ih =>
    obtain ⟨k, w⟩ := q
    obtain ⟨hk, ht⟩ := List.pairwise_cons.1 hr
    by_cases hn : k = n
    · subst hn
      obtain rfl : w = v := by simpa [tabGet] using hv
      have htail : (tabFind f t).map (fun p => if p.1 = k then (k, x) else p) = tabFind f t := by
        cases hfind : tabFind f t with
        | none => rfl
        | some p => simp [(Nat.ne_of_lt (hk p (tabFind_spec hfind).1)).symm]
      by_cases hf : f k w = true <;> simp [tabPut, tabFind, hx, hf, htail]
    · have hv : tabGet t n = some v := by simpa [tabGet, hn] using hv
      have hlt : ¬ n < k := Nat.not_lt.2 (Nat.le_of_lt (hk _ (mem_of_tabGet hv)))
      by_cases hf : f k w = true <;> simp [tabPut, tabFind, hn, hlt, hf, ih ht hv]

/-! ### What a placement keeps -/

/-- Every panel, stroke and agent of a number in use is as it was, and every byte that reads 0 reads 0 still. -/
structure Keeps (s t : State) : Prop where
  fresh : s.fresh ≤ t.fresh
  panel : ∀ j < s.fresh, getPanel t j = getPanel s j
  stroke : ∀ j < s.fresh, getStroke t j = getStroke s j
  agent : ∀ j < s.fresh, getAgent t j = getAgent s j
  zero : ∀ a, memGet s.mem a = 0 → memGet t.mem a = 0

theorem Keeps.refl (s : State) : Keeps s s := ⟨Nat.le_refl _, fun _ _ => rfl, fun _ _ => rfl, fun _ _ => rfl, fun _ => id⟩

theorem Keeps.trans {s t u : State} (h : Keeps s t) (k : Keeps t u) : Keeps s u where
  fresh := Nat.le_trans h.fresh k.fresh
  panel j hj := (k.panel j (Nat.lt_of_lt_of_le hj h.fresh)).trans (h.panel j hj)
  stroke j hj := (k.stroke j (Nat.lt_of_lt_of_le hj h.fresh)).trans (h.stroke j hj)
  agent j hj := (k.agent j (Nat.lt_of_lt_of_le hj h.fresh)).trans (h.agent j hj)
  zero a ha := k.zero a (h.zero a ha)

theorem Keeps.zeroed {s t : State} (h : Keeps s t) {core : Nat} {gs : List Nat} (hz : Zeroed s core gs) : Zeroed t core gs :=
  fun g hg o ho => h.zero _ (hz g hg o ho)

/-! ### A scratchpad (R164, R203) -/

theorem memGet_memClear (m : Memory) (a n c : Nat) :
    memGet (memClear m a n) c = if a ≤ c ∧ c < a + n then 0 else memGet m c := by
  unfold memClear memGet
  induction m with
  | nil => simp [tabGet, unlistedByte]
  | cons p t ih =>
    obtain ⟨k, b⟩ := p
    by_cases hin : a ≤ k ∧ k < a + n
    · rw [List.filter_cons_of_neg (by simpa using hin), ih]
      by_cases hc : a ≤ c ∧ c < a + n
      · rw [if_pos hc, if_pos hc]
      · rw [if_neg hc, if_neg hc, tabGet, if_neg fun h : k = c => hc (h ▸ hin)]
    · rw [List.filter_cons_of_pos (by rw [← Bool.decide_and, decide_eq_false hin]; rfl)]
      by_cases hk : k = c
      · subst hk; simp [tabGet, hin]
      · simpa [tabGet, hk] using ih

theorem zeroRange_keeps (s : State) (pa n : Nat) : Keeps s (zeroRange s pa n) where
  fresh := Nat.le_refl _
  panel _ _ := rfl
  stroke _ _ := rfl
  agent _ _ := rfl
  zero a ha := by
    rw [zeroRange, memGet_memClear]
    split
    · rfl
    · exact ha

theorem zeroRange_zero (s : State) {pa n a : Nat} (ha : pa ≤ a ∧ a < pa + n) : memGet (zeroRange s pa n).mem a = 0 := by
  rw [zeroRange, memGet_memClear, if_pos ha]

/-- The granules of an allocation zeroed one after another. -/
def zeroGranules (s : State) (core : Nat) (gs : List Nat) : State :=
  gs.foldl (fun t g => zeroRange t (granulePa core g) 4096) s

theorem zeroGranules_spec (core : Nat) (gs : List Nat) (s : State) :
    Keeps s (zeroGranules s core gs) ∧ Zeroed (zeroGranules s core gs) core gs ∧ (zeroGranules s core gs).fresh = s.fresh ∧
    (zeroGranules s core gs).comms = s.comms ∧ (zeroGranules s core gs).saved = s.saved := by
  induction gs generalizing s with
  | nil => exact ⟨.refl s, fun _ h => absurd h List.not_mem_nil, rfl, rfl, rfl⟩
  | cons g gs ih =>
    obtain ⟨hkeeps, hzero, hfresh, hcomms, hsaved⟩ := ih (zeroRange s (granulePa core g) 4096)
    refine ⟨(zeroRange_keeps _ _ _).trans hkeeps, fun g' hg' o ho => ?_, hfresh, hcomms, hsaved⟩
    obtain rfl | hg' := List.mem_cons.1 hg'
    · exact hkeeps.zero _ (zeroRange_zero s ⟨Nat.le_add_right _ _, Nat.add_lt_add_left ho _⟩)
    · exact hzero g' hg' o ho

theorem allocScratch_spec (s : State) (ctx core n : Nat) :
    Keeps s (allocScratch s ctx core n).1 ∧ Zeroed (allocScratch s ctx core n).1 core (allocScratch s ctx core n).2.2 ∧
    (allocScratch s ctx core n).1.fresh = s.fresh ∧ (allocScratch s ctx core n).1.comms = s.comms ∧
    (allocScratch s ctx core n).1.saved = s.saved := by
  have hnothing : Keeps s s ∧ Zeroed s core [] ∧ s.fresh = s.fresh ∧ s.comms = s.comms ∧ s.saved = s.saved :=
    ⟨.refl s, fun _ h => absurd h List.not_mem_nil, rfl, rfl, rfl⟩
  unfold allocScratch
  split
  · exact hnothing
  · split
    · exact hnothing
    · obtain ⟨⟨hf, hp, hst, ha, hz⟩, hrest⟩ := zeroGranules_spec core (freeGranules s core (ceilDiv n 4096)) s
      exact ⟨⟨hf, hp, hst, ha, hz⟩, hrest⟩

/-! ### Strokes, the Primer and the panel (R240) -/

/-- A stroke of a panel as `addStroke` adds it, with its root agent. -/
def StrokePlaced (t : State) (r : CommRec) (panel priv : Nat) (regs : Tab DWord) (i st : Nat) : Prop :=
  st + 1 < t.fresh ∧
  (∃ n, getStroke t st = some
    { panel := panel, idx := i, width := r.width, populated := populatedOf r i, reserve := reserveOf r, adm := n }) ∧
  ∃ n, getAgent t (st + 1) = some { rootAgent st r.entry (populatedOf r i) regs priv with lastIssue := n }

theorem StrokePlaced.keeps {s t : State} {r : CommRec} {panel priv i st : Nat} {regs : Tab DWord}
    (h : StrokePlaced s r panel priv regs i st) (k : Keeps s t) : StrokePlaced t r panel priv regs i st := by
  obtain ⟨hfresh, ⟨n, hstroke⟩, m, hagent⟩ := h
  exact ⟨Nat.lt_of_lt_of_le hfresh k.fresh, ⟨n, (k.stroke st (by omega)).trans hstroke⟩, m, (k.agent _ hfresh).trans hagent⟩

/-- What a new stroke and its agent, of the two numbers next in turn, leave as it was. -/
theorem keeps_of_next {s t : State} (hfresh : t.fresh = s.fresh + 2) (hpanels : t.panels = s.panels) (hmem : t.mem = s.mem)
    {k : Stroke} (hstrokes : t.strokes = tabPut s.strokes s.fresh k) {a : Agent}
    (hagents : t.agents = tabPut s.agents (s.fresh + 1) a) : Keeps s t where
  fresh := by omega
  panel j _ := by rw [getPanel, hpanels, getPanel]
  stroke j hj := by rw [getStroke, hstrokes, tabGet_tabPut_of_ne _ _ (Nat.ne_of_lt hj), getStroke]
  agent j hj := by rw [getAgent, hagents, tabGet_tabPut_of_ne _ _ (by omega), getAgent]
  zero a ha := by rwa [hmem]

theorem addStroke_keeps (s : State) (k : Stroke) (pc : VAddr) (regs : Tab DWord) (priv core : Nat) :
    Keeps s (addStroke s k pc regs priv core).1 := keeps_of_next rfl rfl rfl rfl rfl

theorem addStrokes_spec (s : State) (r : CommRec) (panel core : Nat) (regs : Tab DWord) (priv n : Nat) :
    Keeps s (addStrokes s r panel core regs priv n).1 ∧ (addStrokes s r panel core regs priv n).2.length = n ∧
    ∀ i st, (addStrokes s r panel core regs priv n).2[i]? = some st →
      StrokePlaced (addStrokes s r panel core regs priv n).1 r panel priv regs i st := by
  induction n with
  | zero => exact ⟨.refl s, rfl, fun i st h => by simp [addStrokes] at h⟩
  | succ n ih =>
    obtain ⟨hkeeps, hlen, hplaced⟩ := ih
    let u := (addStrokes s r panel core regs priv n).1
    let k : Stroke := { panel := panel, idx := n, width := r.width, populated := populatedOf r n, reserve := reserveOf r }
    have hnext : Keeps u (addStroke u k r.entry regs priv core).1 := addStroke_keeps _ _ _ _ _ _
    refine ⟨hkeeps.trans hnext, by simp [addStrokes, hlen], fun i st h => ?_⟩
    obtain h | ⟨rfl, rfl⟩ : (addStrokes s r panel core regs priv n).2[i]? = some st ∨ i = n ∧ st = u.fresh := by
      have h : ((addStrokes s r panel core regs priv n).2 ++ [u.fresh])[i]? = some st := h
      rw [List.getElem?_append] at h
      split at h
      next => exact .inl h
      next hi =>
        obtain ⟨h0, hst⟩ := List.getElem?_eq_some_iff.1 h
        have hn : i = n := by simp only [List.length_singleton] at h0; omega
        exact .inr ⟨hn, by simpa using hst.symm⟩
    · exact (hplaced i st h).keeps hnext
    · exact ⟨Nat.lt_succ_self _, ⟨_, tabGet_tabPut_self _ _ _⟩, _, tabGet_tabPut_self _ _ _⟩

/-- The Primer of a panel, where its record has an access slice. -/
def PrimerPlaced (t : State) (r : CommRec) : Option Nat → Prop
  | none => r.access = 0
  | some aid => r.access ≠ 0 ∧ aid < t.fresh ∧ ∃ a, getAgent t aid = some a ∧ a.primer = true ∧ a.pc = r.access

theorem PrimerPlaced.keeps {s t : State} {r : CommRec} {o : Option Nat} (h : PrimerPlaced s r o) (k : Keeps s t) :
    PrimerPlaced t r o := by
  cases o with
  | none => exact h
  | some aid =>
    obtain ⟨haccess, hfresh, a, hagent, hprimer⟩ := h
    exact ⟨haccess, Nat.lt_of_lt_of_le hfresh k.fresh, a, (k.agent aid hfresh).trans hagent, hprimer⟩

theorem addPrimer_spec (s : State) (r : CommRec) (panel : Nat) (regs : Tab DWord) (priv : Nat) :
    Keeps s (addPrimer s r panel regs priv).1 ∧ PrimerPlaced (addPrimer s r panel regs priv).1 r (addPrimer s r panel regs priv).2 := by
  unfold addPrimer
  split
  next h => exact ⟨.refl s, h⟩
  next h => exact ⟨keeps_of_next rfl rfl rfl rfl rfl, h, Nat.lt_succ_self _, _, tabGet_tabPut_self _ _ _, rfl, rfl⟩

/-- s0 to s2 of a panel as it starts (R240). -/
def startRegs (r : CommRec) (va : Nat) : Tab DWord := [(0, r.args), (1, BitVec.ofNat 64 va), (2, BitVec.ofNat 64 r.scratch)]

/-- A panel of a commission as `makePanel` adds it on a core. -/
structure PanelPlaced (t : State) (comm : Nat) (c : Comm) (e : Nat × Nat) (id : Nat) (p : Panel) : Prop where
  number : id < t.fresh
  panel : getPanel t id = some p
  fields : p = { comm := comm, ctx := c.ctx, core := e.2, idx := e.1, strokes := p.strokes, primer := p.primer
                 chans := startChans c.record, lvls := lvlsOf c.record e.1, slotVA := p.slotVA, slotBytes := c.record.scratch
                 granules := p.granules, classes := c.record.classes }
  count : p.strokes.length = strokeCount c.record
  strokes : ∀ i st, p.strokes[i]? = some st → StrokePlaced t c.record id c.priv (startRegs c.record p.slotVA) i st
  primer : PrimerPlaced t c.record p.primer
  zeroed : Zeroed t e.2 p.granules

theorem PanelPlaced.keeps {s t : State} {comm : Nat} {c : Comm} {e : Nat × Nat} {id : Nat} {p : Panel}
    (h : PanelPlaced s comm c e id p) (k : Keeps s t) : PanelPlaced t comm c e id p where
  number := Nat.lt_of_lt_of_le h.number k.fresh
  panel := (k.panel id h.number).trans h.panel
  fields := h.fields
  count := h.count
  strokes i st hst := (h.strokes i st hst).keeps k
  primer := h.primer.keeps k
  zeroed := k.zeroed h.zeroed

/-- What R240 says of a panel that starts. -/
theorem PanelPlaced.starts {t : State} {comm : Nat} {c : Comm} {e : Nat × Nat} {id : Nat} {p : Panel}
    (h : PanelPlaced t comm c e id p) : PanelStarts t id p c.record c.priv
      [(0, c.record.args), (1, BitVec.ofNat 64 p.slotVA), (2, BitVec.ofNat 64 c.record.scratch)] := by
  refine ⟨h.count, fun i st hst => ?_, fun haccess => ?_, fun haccess => ?_, by rw [h.fields], by rw [h.fields]; exact h.zeroed⟩
  · obtain ⟨-, ⟨n, hstroke⟩, m, hagent⟩ := h.strokes i st hst
    refine ⟨_, st + 1, hstroke, rfl, rfl, rfl, rfl, rfl, _, hagent, rfl, rfl, rfl, rfl, rfl, rfl, rfl, rfl, rfl, rfl, rfl, rfl, ?_⟩
    simp [sReg, rootAgent, startRegs, tabGet]
  · have hprimer := h.primer
    cases hp : p.primer with
    | none => rfl
    | some aid =>
      rw [hp] at hprimer
      exact absurd haccess hprimer.1
  · have hprimer := h.primer
    cases hp : p.primer with
    | none =>
      rw [hp] at hprimer
      exact absurd hprimer haccess
    | some aid =>
      rw [hp] at hprimer
      obtain ⟨-, -, a, hagent, hprimer, hpc⟩ := hprimer
      exact ⟨aid, a, rfl, hagent, hprimer, hpc⟩

section
variable (s : State) (comm : Nat) (c : Comm) (idx core : Nat)

/-- The parts of a new panel: its scratchpad, its strokes, its Primer and the panel itself. -/
def scratchPart : State × Nat × List Nat := allocScratch { s with fresh := s.fresh + 1 } c.ctx core c.record.scratch

def strokesPart : State × List Nat :=
  addStrokes (scratchPart s c core).1 c.record s.fresh core (startRegs c.record (scratchPart s c core).2.1) c.priv
    (strokeCount c.record)

def primerPart : State × Option Nat :=
  addPrimer (strokesPart s c core).1 c.record s.fresh (startRegs c.record (scratchPart s c core).2.1) c.priv

def newPanel : Panel :=
  { comm := comm, ctx := c.ctx, core := core, idx := idx, strokes := (strokesPart s c core).2, primer := (primerPart s c core).2
    chans := startChans c.record, lvls := lvlsOf c.record idx, slotVA := (scratchPart s c core).2.1
    slotBytes := c.record.scratch, granules := (scratchPart s c core).2.2, classes := c.record.classes }

theorem makePanel_of_record (hbatch : c.batch = none) : makePanel s comm c idx core =
    acquireInvalidate (setPanel (primerPart s c core).1 s.fresh (newPanel s comm c idx core)) core := by
  unfold makePanel
  rw [hbatch]
  rfl

theorem makePanel_of_batch {b : Nat × Nat × List QEntry} (hbatch : c.batch = some b) : makePanel s comm c idx core =
    expertPanel (primerPart s c core).1 s.fresh (newPanel s comm c idx core) c.record b := by
  unfold makePanel
  rw [hbatch]
  rfl

theorem addStrokes_comms_saved (r : CommRec) (panel : Nat) (regs : Tab DWord) (priv n : Nat) :
    (addStrokes s r panel core regs priv n).1.comms = s.comms ∧ (addStrokes s r panel core regs priv n).1.saved = s.saved := by
  induction n with
  | zero => exact ⟨rfl, rfl⟩
  | succ n ih => exact ih

theorem addPrimer_comms_saved (r : CommRec) (panel : Nat) (regs : Tab DWord) (priv : Nat) :
    (addPrimer s r panel regs priv).1.comms = s.comms ∧ (addPrimer s r panel regs priv).1.saved = s.saved := by
  unfold addPrimer
  split <;> exact ⟨rfl, rfl⟩

theorem makePanel_comms_saved :
    (makePanel s comm c idx core).comms = s.comms ∧ (makePanel s comm c idx core).saved = s.saved := by
  obtain ⟨-, -, -, hcomms, hsaved⟩ := allocScratch_spec { s with fresh := s.fresh + 1 } c.ctx core c.record.scratch
  obtain ⟨hcomms2, hsaved2⟩ := addStrokes_comms_saved (scratchPart s c core).1 core c.record s.fresh
    (startRegs c.record (scratchPart s c core).2.1) c.priv (strokeCount c.record)
  obtain ⟨hcomms3, hsaved3⟩ := addPrimer_comms_saved (strokesPart s c core).1 c.record s.fresh
    (startRegs c.record (scratchPart s c core).2.1) c.priv
  have hparts : (primerPart s c core).1.comms = s.comms ∧ (primerPart s c core).1.saved = s.saved :=
    ⟨hcomms3.trans (hcomms2.trans hcomms), hsaved3.trans (hsaved2.trans hsaved)⟩
  cases hbatch : c.batch with
  | none => rwa [makePanel_of_record s comm c idx core hbatch]
  | some b => rwa [makePanel_of_batch s comm c idx core hbatch]

theorem keeps_of_panel {u : State} {p : Panel} (h : Keeps { s with fresh := s.fresh + 1 } u) :
    Keeps s (acquireInvalidate (setPanel u s.fresh p) core) where
  fresh := Nat.le_trans (Nat.le_succ _) h.fresh
  panel j hj := (tabGet_tabPut_of_ne _ _ (Nat.ne_of_lt hj)).trans (h.panel j (Nat.lt_succ_of_lt hj))
  stroke j hj := h.stroke j (Nat.lt_succ_of_lt hj)
  agent j hj := h.agent j (Nat.lt_succ_of_lt hj)
  zero := h.zero

/-- A panel that starts on a core leaves what was in use as it was. -/
theorem makePanel_spec (hbatch : c.batch = none) : Keeps s (makePanel s comm c idx core) ∧
    ∃ id p, PanelPlaced (makePanel s comm c idx core) comm c (idx, core) id p := by
  obtain ⟨halloc, hzeroed, -, -, -⟩ := allocScratch_spec { s with fresh := s.fresh + 1 } c.ctx core c.record.scratch
  obtain ⟨hstrokes, hcount, hplaced⟩ := addStrokes_spec (scratchPart s c core).1 c.record s.fresh core
    (startRegs c.record (scratchPart s c core).2.1) c.priv (strokeCount c.record)
  obtain ⟨hprimer, hprimerPlaced⟩ := addPrimer_spec (strokesPart s c core).1 c.record s.fresh
    (startRegs c.record (scratchPart s c core).2.1) c.priv
  have hall : Keeps { s with fresh := s.fresh + 1 } (primerPart s c core).1 := (halloc.trans hstrokes).trans hprimer
  rw [makePanel_of_record s comm c idx core hbatch]
  exact ⟨keeps_of_panel s core hall, s.fresh, newPanel s comm c idx core,
    { number := hall.fresh
      panel := tabGet_tabPut_self _ _ _
      fields := rfl
      count := hcount
      strokes := fun i st hst => StrokePlaced.keeps (t := (primerPart s c core).1) (hplaced i st hst) hprimer
      primer := hprimerPlaced
      zeroed := (hstrokes.trans hprimer).zeroed hzeroed }⟩

end

/-! ### The panels of a group, one after another (R240, R336) -/

/-- The placement of one panel of a group, with its core. -/
def placeOne (comm : Nat) (c : Comm) (u : State) (e : Nat × Nat) : State :=
  match savedOf u comm e.1 with
  | some (k, v) => { u with saved := tabPut u.saved k { v with place := some e.2 } }
  | none => makePanel u comm c e.1 e.2

section
variable {comm : Nat} {c : Comm}

theorem commitGroup_eq {s : State} (a : Assign) (hc : getComm s comm = some c) : commitGroup s comm a =
    a.done.foldl (placeOne comm c) (setComm s comm
      { c with unplaced := c.unplaced.filter fun p => !a.done.any fun e => e.1 == p, cursor := a.cursor, bound := a.bound }) := by
  simp only [commitGroup, hc]
  rfl

theorem placeOne_of_saved {u : State} {e : Nat × Nat} {k : Nat} {v : Saved} (h : savedOf u comm e.1 = some (k, v)) :
    placeOne comm c u e = { u with saved := tabPut u.saved k { v with place := some e.2 } } := by
  simp only [placeOne, h]

theorem placeOne_of_new {u : State} {e : Nat × Nat} (h : savedOf u comm e.1 = none) :
    placeOne comm c u e = makePanel u comm c e.1 e.2 := by
  simp only [placeOne, h]

theorem placeOne_comms (u : State) (e : Nat × Nat) : (placeOne comm c u e).comms = u.comms := by
  cases h : savedOf u comm e.1 with
  | none => rw [placeOne_of_new h, (makePanel_comms_saved u comm c e.1 e.2).1]
  | some p => rw [placeOne_of_saved h]

theorem placeOne_keeps (hbatch : c.batch = none) (u : State) (e : Nat × Nat) : Keeps u (placeOne comm c u e) := by
  cases h : savedOf u comm e.1 with
  | none => rw [placeOne_of_new h]; exact (makePanel_spec u comm c e.1 e.2 hbatch).1
  | some p =>
    rw [placeOne_of_saved h]
    exact ⟨Nat.le_refl _, fun _ _ => rfl, fun _ _ => rfl, fun _ _ => rfl, fun _ => id⟩

/-- The entry that `savedOf` finds is of the commission's panel, and of no other. -/
theorem savedOf_spec {u : State} {i k : Nat} {v : Saved} (h : savedOf u comm i = some (k, v)) :
    v.comm = comm ∧ v.idx = i ∧ v.task = false := by
  simpa [and_assoc] using (tabFind_spec h).2

theorem savedOf_placeOne_none {u : State} {i : Nat} (h : savedOf u comm i = none) (e : Nat × Nat) :
    savedOf (placeOne comm c u e) comm i = none := by
  cases hs : savedOf u comm e.1 with
  | none => rw [placeOne_of_new hs, savedOf, (makePanel_comms_saved u comm c e.1 e.2).2]; exact h
  | some p =>
    rw [placeOne_of_saved hs]
    refine tabFind_tabPut_none h ?_
    obtain ⟨-, hidx, -⟩ := savedOf_spec hs
    have hne : e.1 ≠ i := fun heq => by rw [heq, h] at hs; cases hs
    simp [hidx, hne]

theorem placeOne_rising {u : State} (h : Rising u.saved) (e : Nat × Nat) : Rising (placeOne comm c u e).saved := by
  cases hs : savedOf u comm e.1 with
  | none => rwa [placeOne_of_new hs, (makePanel_comms_saved u comm c e.1 e.2).2]
  | some p => rw [placeOne_of_saved hs]; exact rising_tabPut h _ _

/-- A saved panel keeps its number; the panel placed waits on its core. -/
theorem savedOf_placeOne {u : State} (hr : Rising u.saved) {i k : Nat} {v : Saved} (h : savedOf u comm i = some (k, v))
    (e : Nat × Nat) :
    savedOf (placeOne comm c u e) comm i = some (k, if e.1 = i then { v with place := some e.2 } else v) := by
  cases hs : savedOf u comm e.1 with
  | none =>
    have hne : e.1 ≠ i := fun heq => by rw [heq, h] at hs; cases hs
    rw [placeOne_of_new hs, savedOf, (makePanel_comms_saved u comm c e.1 e.2).2, if_neg hne]
    exact h
  | some p =>
    obtain ⟨k2, w⟩ := p
    have hput := tabFind_tabPut (f := fun _ v => v.comm == comm && v.idx == i && !v.task) hr (tabGet_of_tabFind hr hs)
      (x := { w with place := some e.2 }) rfl
    rw [placeOne_of_saved hs]
    refine hput.trans ((congrArg _ h).trans ?_)
    by_cases heq : e.1 = i
    · obtain ⟨rfl, rfl⟩ : k = k2 ∧ v = w := by simpa [heq, h] using hs
      simp [heq]
    · have hk : k ≠ k2 := fun hk => by
        have hsame : v = w := by
          simpa [hk, tabGet_of_tabFind hr hs] using (tabGet_of_tabFind hr h).symm
        exact heq ((savedOf_spec hs).2.1.symm.trans (hsame ▸ (savedOf_spec h).2.1))
      simp [heq, hk]

theorem placeAll_comms (l : List (Nat × Nat)) (u : State) : (l.foldl (placeOne comm c) u).comms = u.comms := by
  induction l generalizing u with
  | nil => rfl
  | cons e l ih => exact (ih _).trans (placeOne_comms u e)

/-- A panel of a group that was not saved starts on its core. -/
theorem placeAll_new (hbatch : c.batch = none) (l : List (Nat × Nat)) (u : State) : Keeps u (l.foldl (placeOne comm c) u) ∧
    ∀ e ∈ l, savedOf u comm e.1 = none → ∃ id p, PanelPlaced (l.foldl (placeOne comm c) u) comm c e id p := by
  induction l generalizing u with
  | nil => exact ⟨.refl u, fun _ h => absurd h List.not_mem_nil⟩
  | cons f l ih =>
    obtain ⟨hkeeps, hplaced⟩ := ih (placeOne comm c u f)
    refine ⟨(placeOne_keeps hbatch u f).trans hkeeps, fun e he hnew => ?_⟩
    obtain rfl | he := List.mem_cons.1 he
    · obtain ⟨id, p, hp⟩ := (makePanel_spec u comm c e.1 e.2 hbatch).2
      exact ⟨id, p, (placeOne_of_new (c := c) hnew ▸ hp).keeps hkeeps⟩
    · exact hplaced e he (savedOf_placeOne_none hnew f)

/-- A saved panel keeps its number, and waits on the core that a member of the group of its index was given last. -/
theorem placeAll_saved {i k : Nat} (l : List (Nat × Nat)) {u : State} {v : Saved} (hr : Rising u.saved)
    (h : savedOf u comm i = some (k, v)) : ∃ w, tabGet (l.foldl (placeOne comm c) u).saved k = some w ∧
      ((w = v ∧ ∀ e ∈ l, e.1 ≠ i) ∨ ∃ core, (i, core) ∈ l ∧ w = { v with place := some core }) := by
  induction l generalizing u v with
  | nil => exact ⟨v, tabGet_of_tabFind hr h, .inl ⟨rfl, fun _ h => absurd h List.not_mem_nil⟩⟩
  | cons e l ih =>
    obtain ⟨w, hw, hcases⟩ := ih (placeOne_rising (c := c) hr e) (savedOf_placeOne hr h e)
    refine ⟨w, hw, ?_⟩
    by_cases heq : e.1 = i
    · rw [if_pos heq] at hcases
      obtain ⟨rfl, -⟩ | ⟨core, hcore, rfl⟩ := hcases
      · exact .inr ⟨e.2, heq ▸ List.mem_cons_self, rfl⟩
      · exact .inr ⟨core, List.mem_cons_of_mem _ hcore, rfl⟩
    · rw [if_neg heq] at hcases
      obtain ⟨rfl, hl⟩ | ⟨core, hcore, rfl⟩ := hcases
      · exact .inl ⟨rfl, List.forall_mem_cons.2 ⟨heq, hl⟩⟩
      · exact .inr ⟨core, List.mem_cons_of_mem _ hcore, rfl⟩

/-- What `updatePaused` does to its commission. -/
theorem updatePaused_spec {s : State} {d : Comm} (hd : getComm s comm = some d) :
    updatePaused s comm = s ∨ updatePaused s comm = setComm s comm { d with paused := false } := by
  simp only [updatePaused, hd]
  split
  · exact .inr rfl
  · exact .inl rfl

theorem updatePaused_keeps {s : State} {d : Comm} (hd : getComm s comm = some d) : Keeps s (updatePaused s comm) := by
  obtain h | h := updatePaused_spec hd
  · rw [h]; exact .refl s
  · rw [h]; exact ⟨Nat.le_refl _, fun _ _ => rfl, fun _ _ => rfl, fun _ _ => rfl, fun _ => id⟩

/-- The placement of a group does what R240, R252 and R336 say, where the numbers of saved panels rise. -/
theorem commitGroup_groupPlaced {s : State} {a : Assign} (hr : Rising s.saved) (hc : getComm s comm = some c) :
    GroupPlaced s comm c a (updatePaused (commitGroup s comm a) comm) := by
  rw [commitGroup_eq a hc]
  let d : Comm := { c with
    unplaced := c.unplaced.filter fun p => !a.done.any fun e => e.1 == p, cursor := a.cursor, bound := a.bound }
  let u := a.done.foldl (placeOne comm c) (setComm s comm d)
  have hd : getComm u comm = some d := by
    rw [getComm, placeAll_comms]
    exact getComm_setComm s comm d
  refine ⟨?_, fun hbatch e he hnew => ?_, fun e he k v hsaved _ => ?_⟩
  · obtain h | h := updatePaused_spec hd
    · rw [h]; exact ⟨d, hd, rfl, rfl, rfl⟩
    · rw [h]; exact ⟨_, getComm_setComm _ _ _, rfl, rfl, rfl⟩
  · obtain ⟨id, p, hp⟩ := (placeAll_new hbatch a.done (setComm s comm d)).2 e he hnew
    have hp := hp.keeps (updatePaused_keeps hd)
    refine ⟨id, p, hp.panel, ?_, ?_, ?_, ?_, ?_, ?_, ?_, ?_, hp.starts⟩ <;> rw [hp.fields]
  · obtain ⟨w, hw, ⟨-, hnone⟩ | ⟨core, hcore, rfl⟩⟩ := placeAll_saved (c := c) a.done (u := setComm s comm d) hr hsaved
    · exact absurd rfl (hnone e he)
    · refine ⟨core, hcore, ?_⟩
      obtain h | h := updatePaused_spec hd <;> rw [h] <;> exact hw

end

/-- R240, R252, R336: the second half of O38, where the numbers of saved panels rise, which `tabPut` keeps
(`rising_tabPut`). -/
theorem panelPlacement_groupPlaced {s : State} {comm : Nat} {c : Comm} {a : Assign} (hr : Rising s.saved)
    (hrun : running s = true) (hnofire : nextFiring s true = none) (hnext : nextPlaced s = some (comm, a))
    (hc : getComm s comm = some c) : ∃ t, exec (.panelPlacement comm) s = .next t ∧ GroupPlaced s comm c a t :=
  ⟨_, panelPlacement_completes ⟨a, hrun, hnofire, hnext, rfl⟩, commitGroup_groupPlaced hr hc⟩

end Sys2Proof.Machine
end

section

namespace Sys2Proof.Machine
open Sys2Proof Sys2Proof.Claims

/-! ## A group whose saved panels the table lists twice (O38)

The rules of the steps hold (`commissionRule_completes`), and so does what a placement leaves where the numbers of saved
panels rise (`panelPlacement_groupPlaced`). The statement asks less of the table: that before the step no other panel of the
group is found at the number of the saved one. With a number listed twice, a panel is found at that number during the step. -/

/-- A saved panel of commission 1, which holds nothing. -/
def savedPanel (idx : Nat) : Saved :=
  { comm := 1, ctx := 1, idx := idx, area := [], size := 0, mode := 0, header := [], claim := false, fresh := false
    panel := { comm := 1, ctx := 1, core := 0, idx := idx, strokes := [], lvls := [], slotVA := 0, slotBytes := 0, granules := [] } }

/-- A commission of one admission group, of panels 0 to 2, for core 0 alone. -/
def groupComm : Comm :=
  { tag := 0, rkey := 0, tvbase := 0, tclass := 0, ctx := 1, unplaced := [0, 1, 2]
    record := { ncores := 1, units := 3, classes := [0, 0], domains := [0, 1] } }

/-- A live context that owns nothing. -/
def bareCtx : Ctx :=
  { id := 1
    params :=
      { ctxid := 1, ptroot := 0, grants := [], setEntries := 0, setQuota := 0, setBacking := 0, tquota := 0, poolBase := 0
        poolSize := 0, poolChunk := 0, shadowReserve := 0, easelReserve := 0, sealed := false, saveBase := 0, saveVA := 0
        saveSize := 0, measure := 0 } }

/-- All three panels are saved, panel 2 twice: before the entry of panel 1, which has the same number, and after that of
panel 0. -/
def savedTwice : State :=
  { State.reset with
    juran := { State.reset.juran with power := .ready }
    ctxs := [(1, bareCtx)]
    comms := [(1, groupComm)]
    saved := [(1, savedPanel 2), (1, savedPanel 1), (2, savedPanel 0), (2, savedPanel 2)] }

/-- The assignment of R252: every panel to core 0. -/
def allToCore0 : Assign := { done := [(0, 0), (1, 0), (2, 0)], cursor := 0, bound := [] }

theorem savedTwice_nextPlaced : nextPlaced savedTwice = some (1, allToCore0) := by decide

/-- The other panels of the group are found at number 1. -/
theorem savedTwice_others : ∀ e ∈ allToCore0.done, e.1 ≠ 0 → (savedOf savedTwice 1 e.1).map (·.1) = some 1 := by decide

/-- Panel 1 is put over the first entry of panel 2, and so panel 2 over that of panel 0. -/
theorem savedTwice_placed : (tabGet (nextOr savedTwice (exec (.panelPlacement 1) savedTwice)).saved 2).map (·.idx) = some 2 := by
  decide

/-- Refutes O38: in `savedTwice`, whose table of saved panels lists numbers twice, the placement of the group puts panel 2
where panel 0 was saved (`savedTwice_placed`), though before the step panel 0 alone is found there (`savedTwice_others`). -/
theorem not_commissionStepsComplete : ¬ Obligations.CommissionStepsComplete := by
  unfold Obligations.CommissionStepsComplete
  rintro ⟨-, hplacement⟩
  obtain ⟨t, hexec, -, -, hsaved⟩ :=
    hplacement savedTwice 1 groupComm allToCore0 (by decide) (by decide) savedTwice_nextPlaced rfl
  obtain ⟨core, -, hpanel0⟩ := hsaved (0, 0) (by decide) 2 (savedPanel 0) (by decide) fun e he hne w hw => by
    simpa [hw] using savedTwice_others e he hne
  have hpanel2 : (tabGet t.saved 2).map (·.idx) = some 2 := by simpa only [hexec, nextOr] using savedTwice_placed
  rw [hpanel0] at hpanel2
  simp [savedPanel] at hpanel2

end Sys2Proof.Machine
end

section

namespace Sys2Proof.Machine
open Sys2Proof Sys2Proof.Claims

/-! ## Melding, fragments, JOIN and BRX complete (O14), and MEND (O57)

A control instruction whose checks pass comes to what its body answers (`ctlInstr_settles`). Each instruction is followed
through its body along the cases of `divergenceRule`: a check that finds nothing wrong is passed (`settle_if_neg`), and
the case's own condition chooses the branch. -/

/-! ### The checks that control instructions share -/

theorem ctlGather_aid (s : State) (x0 : Ctxt) (sw : Bool) (pl : Place) (reads : Ctxt → List Ref) :
    Yields (fun r => r.2.aid = x0.aid) (ctlGather s x0 sw pl reads) := by
  unfold ctlGather
  refine .seq fun _ => .bind (switchMark_aid ..) fun r hr => ?_
  exact .seq fun _ => .seq fun _ => .seq fun _ => (yields_pure _).2 hr

theorem ctlInstr_settles {s u : State} {sw : Bool} {pl : Place} {reads : List Ref} {x0 x : Ctxt}
    {body : State → Ctxt → Mask → Eff State} (hr : CtlRuns s sw pl reads x0 x u) :
    ctlInstr s sw pl reads body = settle s x.aid (body u x x0.a.em) := by
  obtain ⟨hx, hg⟩ := hr
  rw [ctlInstr_of_gather body hx hg, (ctlGather_aid ..).of_ok _ hg]

theorem settle_if_pos {s : State} {aid : Nat} {c : Prop} [Decidable c] {m k : Eff State} (hc : c) :
    settle s aid (if c then m else k) = settle s aid m := congrArg _ (if_pos hc)

theorem settle_if_neg {s : State} {aid : Nat} {c : Prop} [Decidable c] {m k : Eff State} (hc : ¬ c) :
    settle s aid (if c then m else k) = settle s aid k := congrArg _ (if_neg hc)

theorem relTarget_of_target {u : State} {x : Ctxt} {off : BitVec 36} {tgt : Nat} (lanes : Mask) (h : Target u x off tgt) :
    relTarget u x lanes off = .ok (BitVec.ofNat 57 tgt) := by
  obtain ⟨hpc, hlt, p, hp⟩ := h
  have ht : (x.a.pc.toNat : Int) + off.toInt * 8 = tgt := by omega
  unfold relTarget checkExec
  simp only [ht, Int.toNat_natCast, hp]
  rw [if_neg (by omega)]
  rfl

/-! ### MELD, MEND and PATH (R260, R263, R264) -/

theorem meld_completes {sw two : Bool} {ka kb : KReg} {s t : State} (h : divergenceRule (.meld sw two ka kb) s t) :
    exec (.meld sw two ka kb) s = .next t := by
  obtain ⟨x0, x, u, hr, rfl⟩ := h
  show execMeld sw two ka kb s = _
  rw [execMeld, ctlInstr_settles hr, settle_ok]

theorem mend_completes {sw : Bool} {s t : State} (h : divergenceRule (.mend sw) s t) : exec (.mend sw) s = .next t := by
  obtain ⟨x0, x, u, hr, hmeld, rfl⟩ := h
  show execMend sw s = _
  rw [execMend, ctlInstr_settles hr, if_pos hmeld, settle_ok]

theorem path_completes {sw : Bool} {j p0 p1 p2 p3 : Nat} {s t : State}
    (h : divergenceRule (.path sw j p0 p1 p2 p3) s t) : exec (.path sw j p0 p1 p2 p3) s = .next t := by
  obtain ⟨x0, x, u, hr, rfl⟩ := h
  show execPath sw j p0 p1 p2 p3 s = _
  rw [execPath, ctlInstr_settles hr, settle_ok]

/-! ### SPLIT (R268, R269) -/

theorem split_completes {sw : Bool} {kc tok : Nat} {off : BitVec 36} {s t : State}
    (h : divergenceRule (.split sw kc tok off) s t) : exec (.split sw kc tok off) s = .next t := by
  obtain ⟨x0, x, u, hr, hroom, h⟩ := h
  show execSplit sw kc tok off s = _
  rw [execSplit, ctlInstr_settles hr]
  refine congrArg _ ((settle_if_neg (Nat.not_le.2 hroom)).trans ?_)
  dsimp only at h
  split at h
  · next hnone =>
    subst h
    exact settle_if_pos hnone
  · next hsome =>
    obtain ⟨tgt, htgt, h⟩ := h
    refine (settle_if_neg hsome).trans ?_
    rw [relTarget_of_target _ htgt, ok_bind]
    split at h
    · next hall =>
      subst h
      exact settle_if_pos hall
    · next hstay =>
      refine (settle_if_neg hstay).trans ?_
      split at h
      · next hfree =>
        subst h
        exact settle_if_pos (by simpa using hfree)
      · next hfree =>
        obtain ⟨hframes, rfl⟩ := h
        exact (settle_if_neg (by simpa using hfree)).trans (settle_if_neg (Nat.not_le.2 hframes))

/-! ### JOIN (R270) -/

theorem join_completes {sw : Bool} {tok : Nat} {s t : State} (h : divergenceRule (.join sw tok) s t) :
    exec (.join sw tok) s = .next t := by
  obtain ⟨x0, x, u, ⟨etok, ekind, esplit, eaddr, eframe⟩, rest, hr, hstack, htok, h⟩ := h
  show execJoin sw tok s = _
  rw [execJoin, ctlInstr_settles hr]
  refine congrArg _ ?_
  dsimp only at h htok ⊢
  rw [hstack] at h ⊢
  refine (settle_if_neg (not_not_intro htok)).trans ?_
  obtain ⟨rfl, rfl⟩ | ⟨rfl, rfl, v, hv, rfl⟩ | ⟨rfl, rfl, f, fs, hfs, haddr, h⟩ |
    ⟨rfl, rfl, f, fs, r, hfs, hrec, haddr, h⟩ := h
  -- a solo entry, and an arrival at a real entry without groups of its own
  · rfl
  · exact congrArg (settle s x.aid) hv
  -- a group of a serial entry ends
  · rw [hfs] at h ⊢
    refine (settle_if_neg (not_not_intro haddr.symm)).trans ?_
    dsimp only
    rw [haddr]
    generalize endGroup _ x.aid u.fresh f true = g at h ⊢
    obtain ⟨b, none | f1, joined⟩ := g
    · subst h
      rfl
    · subst h
      rfl
  -- a group of a real entry ends; after the last one the agent arrives
  · rw [hfs] at h ⊢
    rw [hrec]
    refine (settle_if_neg (not_not_intro haddr.symm)).trans ?_
    dsimp only [Option.bind_some]
    rw [haddr]
    generalize endGroup _ x.aid u.fresh f true = g at h ⊢
    obtain ⟨b, none | f1, joined⟩ := g
    · obtain ⟨v, hv, rfl⟩ := h
      exact congrArg (settle s x.aid) hv
    · subst h
      rfl

/-! ### BRX (R272, R273) -/

/-- Targets that all pass leave no lane to wait for, none to trap for and no error of a word. -/
theorem brxTargets_pass {u : State} {x : Ctxt} {t : Nat → Nat} {ls : List Nat}
    (h : ∀ l ∈ ls, brxFail u x (t l) = none ∧ brxErr u x (t l) = none) :
    (ls.any fun l => (brxErr u x (t l)).any fun f => f.cause == .acktimeout) = false ∧
    (ls.filter fun l => (brxFail u x (t l)).isSome) = [] ∧ (ls.findSome? fun l => brxErr u x (t l)) = none := by
  refine ⟨List.any_eq_false.2 fun l hl => ?_, List.filter_eq_nil_iff.2 fun l hl => ?_,
    List.findSome?_eq_none_iff.2 fun l hl => (h l hl).2⟩
  · simp [(h l hl).2]
  · simp [(h l hl).1]

theorem brx_completes {sw la : Bool} {tok : Nat} {a : Opd} {s t : State} (h : divergenceRule (.brx sw la tok a) s t) :
    exec (.brx sw la tok a) s = .next t := by
  obtain ⟨x0, x, u, vs, v, hx, hplace, hswitch, hpairs, hregs, hmeld, hreads, hvs, htargets, hroom, h⟩ := h
  have haid : x.aid = x0.aid := (switchMark_aid ..).of_ok _ hswitch
  obtain ⟨hanswer, hbad, herr⟩ := brxTargets_pass htargets
  dsimp only at h
  obtain ⟨h, rfl⟩ := h
  show execBrx sw la tok a s = _
  rw [execBrx, runAgent_of_ctxt _ hx, haid]
  refine congrArg _ (congrArg (settle s x0.aid) (a₂ := .ok v) ?_)
  -- the checks, which the rule names in the order of the body
  dsimp only
  rw [hplace, ok_bind, hswitch, ok_bind]
  dsimp only
  rw [hpairs, ok_bind, hregs, ok_bind, hmeld, ok_bind, hreads, ok_bind, hvs, ok_bind, hanswer]
  refine (if_neg Bool.false_ne_true).trans ?_
  rw [hbad, herr]
  refine (if_neg (Nat.not_le.2 hroom)).trans ?_
  -- no group, one group, several groups
  generalize List.map _ (brxGroups _ _ _) = groups at h ⊢
  obtain _ | ⟨g0, _ | ⟨g1, rest⟩⟩ := groups
  · subst h
    rfl
  · subst h
    rfl
  · dsimp only at h ⊢
    generalize (if tokenHeld x.st tok = true then 0 else min 3 (32 - entriesUsed u x.p.core)) = room at h ⊢
    obtain ⟨hframes, h⟩ := h
    have hframe : ¬ ((g1 :: rest).drop room ≠ [] ∧ 8 ≤ framesUsed u x.a.stroke) :=
      fun hfull => hframes.elim hfull.1 (Nat.not_lt.2 hfull.2)
    refine (if_neg hframe).trans ?_
    split at h
    · next hnone =>
      subst hnone h
      rfl
    · next hsome =>
      have hfrag : (g1 :: rest).take room ≠ [] :=
        fun hnil => hsome ((List.take_eq_nil_iff.1 hnil).resolve_right (List.cons_ne_nil _ _))
      refine (if_neg hfrag).trans ?_
      subst h
      split
      · rfl
      · rfl

/-- Settles O14, by the lemma of each instruction: its checks pass (`ctlInstr_settles`; those of BRX one by one, with
`brxTargets_pass`), and its body takes the branch of the rule's case. -/
theorem divergenceCompletes : Obligations.DivergenceCompletes := by
  intro i s t h
  cases i with
  | meld => exact meld_completes h
  | mend => exact mend_completes h
  | path => exact path_completes h
  | split => exact split_completes h
  | join => exact join_completes h
  | brx => exact brx_completes h
  | _ => exact h.elim

/-! ### The word of MEND and its effect (R263) -/

theorem decode_mendWord (sw : Bool) {low : Nat} (hlow : low < 2 ^ 55) :
    decode ((if sw then 2 ^ 63 else 0) + 0x0D * 2 ^ 55 + low) 0 =
      if low = 0 then .ok (.mend sw) else .error .resfield := by
  generalize hw : (if sw then 2 ^ 63 else 0) + 0x0D * 2 ^ 55 + low = w
  have hop : (rawOf w 0).op = 0x0D := by
    simp only [rawOf, fld, ← hw]
    split <;> omega
  have hsw : (rawOf w 0).sw = sw := by
    simp only [rawOf, ← hw, Nat.testBit_eq_decide_div_mod_eq]
    cases sw
    · simp only [Bool.false_eq_true, if_false, decide_eq_false_iff_not]
      omega
    · simp only [if_true, decide_eq_true_eq]
      omega
  have hbare : bare (rawOf w 0) = decide (low = 0) := by
    have hmod : w % 2 ^ 55 = low := by
      rw [← hw]
      split <;> omega
    simp only [bare, rawOf, hmod]
    rfl
  simp only [decode, hop, decDivergence, hsw, hbare]
  by_cases h : low = 0
  · rw [if_pos h, decide_eq_true h]
    rfl
  · rw [if_neg h, decide_eq_false h]
    rfl

/-- The S bit where no result is outstanding and no late fault pends: the HAZARD set is empty (R22). -/
theorem switchMark_of_quiet {s : State} {x : Ctxt} (hx : theCtxt s = some x) (hres : hasResults s x.aid = false)
    (hlate : x.a.late = none) :
    switchMark s x true = .ok (setAgent s x.aid { x.a with hazV := 0, hazS := 0, hazK := 0 },
      { x with a := { x.a with hazV := 0, hazS := 0, hazK := 0 } }) := by
  have hwait : waitS s x.aid = .ok () := by simp [waitS, hres, theCtxt_agent hx, hlate]
  simp only [switchMark, hwait, if_true, ok_bind]
  rfl

theorem clearWait_stepPc_setAgent (s : State) (aid : Nat) (a : Agent) (n : Nat) :
    clearWait (stepPc (setAgent s aid a) aid n) aid =
      setAgent s aid { a with pc := a.pc + BitVec.ofNat 57 n, waitFrom := none } := by
  simp [stepPc, clearWait]

/-- MEND names no register: outside the Primer its checks are those of its switch marker. -/
theorem mend_runs {s u : State} {x0 x : Ctxt} {sw : Bool} (hx : theCtxt s = some x0) (hprimer : x0.a.primer = false)
    (hs : switchMark s x0 sw = .ok (u, x)) : CtlRuns s sw {} [] x0 x u := by
  have hplace : checkPlace x0 x0.a.em {} = .ok () := by
    simp only [checkPlace, hprimer, Bool.false_and, Bool.not_true, Bool.and_false, Bool.or_false, Bool.false_eq_true,
      if_false]
  have hmeld : checkMeld x x0.a.em {} = .ok () := by
    simp only [checkMeld, Bool.not_true, Bool.and_false, Bool.false_eq_true, if_false]
  refine ⟨hx, ?_⟩
  rw [ctlGather, hplace, ok_bind, hs, ok_bind]
  dsimp only
  rw [hmeld]
  rfl

theorem mend_closes {s u : State} {x0 x : Ctxt} {sw : Bool} (hr : CtlRuns s sw {} [] x0 x u) (hmeld : x.a.meld = true) :
    exec (.mend sw) s = .next (setAgent u x.aid
      { x.a with meld := false, staged := [], pc := x.a.pc + 8, waitFrom := none }) := by
  rw [mend_completes ⟨x0, x, u, hr, hmeld, rfl⟩, clearWait_stepPc_setAgent]
  rfl

theorem mend_illegal {s : State} {x : Ctxt} (hx : theCtxt s = some x) (h : x.a.primer = true ∨ x.a.meld = false) :
    exec (.mend false) s = .next (enterTrap s x.aid { cause := .illop, lanes := x.a.em }) := by
  show execMend false s = _
  rw [execMend]
  cases hprimer : x.a.primer with
  | true =>
    rw [ctlInstr, runAgent_of_ctxt _ hx, ctlGather, checkPlace, hprimer]
    rfl
  | false =>
    have hmeld : x.a.meld = false := by simpa [hprimer] using h
    rw [ctlInstr_settles (mend_runs hx hprimer rfl), hmeld]
    rfl

/-- Settles O57, clause by clause: the word (`decode_mendWord`), what MEND does in meld mode (`mend_closes`), with S where
nothing is outstanding (`switchMark_of_quiet`), and where it is refused (`mend_illegal`). -/
theorem mendClosesTheRegion : Obligations.MendClosesTheRegion := by
  refine ⟨fun sw low => decode_mendWord sw, fun s x hx hprimer hmeld => ?_,
    fun s x hx hprimer hmeld hres hlate => ?_, fun s x hx h => mend_illegal hx h⟩
  · exact mend_closes (mend_runs hx hprimer rfl) hmeld
  · rw [mend_closes (mend_runs hx hprimer (switchMark_of_quiet hx hres hlate)) hmeld, setAgent_setAgent]

end Sys2Proof.Machine

end

section

namespace Sys2Proof.Machine
open Sys2Proof Sys2Proof.Claims

/-! ## Task and Easel instructions complete (O34, O35)

An instruction whose checks pass comes to the commit of what its body answers (`taskInstr_completes`). What is left of each
instruction is the answer of its body, once the checks that the rule names have passed. -/

theorem taskInstr_completes {s u u1 v : State} {h : Hdr} {ill : Ctxt → Bool} {srcs : List Src} {dsts : List Ref}
    {uni : List Nat} {size : Nat} {x0 x : Ctxt} {vs : List (Nat → Nat)} {w : Writes}
    {body : State → Ctxt → Mask → List (Nat → Nat) → Eff (State × Writes)} (hr : TaskRuns s h ill srcs dsts uni x0 x u vs)
    (hbody : body u x (activeMask x0.a h.km) vs = .ok (u1, w))
    (hcommit : Commits u1 x h (activeMask x0.a h.km) srcs dsts size w v) :
    taskInstr s h ill srcs dsts uni size body = clearWait v x0.aid := by
  obtain ⟨hx, hl, hg, hvs⟩ := hr
  rw [taskInstr_of_gather body hx hg hl, hvs, ok_bind, hbody, ok_bind]
  exact congrArg (settle s x0.aid) hcommit

/-! ### TSPAWN, TYLD and ALLOC (R279, R280, R286, R287) -/

section
variable {s t : State} {h : Hdr} {d n : Nat} {a b : Opd}

/-- What TSPAWN and TYLD do once every entry point may be executed at and the writes before are acknowledged: one task for
each active lane. -/
theorem spawnTasks_of_checks {u : State} {x : Ctxt} {lanes : Mask} {vs : List (Nat → Nat)} (yield : Bool)
    (hc : SpawnChecks u x lanes vs) :
    spawnTasks u x lanes vs yield = .ok (pushTasks x.p.core (laneTask u x vs yield) (laneList lanes x.w) u) := by
  obtain ⟨⟨ps, hplace⟩, hrelease⟩ := hc
  simp only [spawnTasks, hplace, hrelease, ok_bind]
  rfl

theorem tspawn_completes (hr : spawnRule (.tspawn h d a b) s t) : exec (.tspawn h d a b) s = .next t := by
  obtain ⟨x0, x, u, vs, v, hruns, hchecks, hcommit, rfl⟩ := hr
  show execTspawn h d a b s = _
  refine congrArg _ (taskInstr_completes hruns ?_ hcommit)
  rw [spawnTasks_of_checks false hchecks]
  rfl

theorem tyld_completes (hr : spawnRule (.tyld h d a b) s t) : exec (.tyld h d a b) s = .next t := by
  obtain ⟨x0, x, u, vs, v, ⟨hx, hl, hg, hvs⟩, hchecks, hwait, hcommit, rfl⟩ := hr
  show execTyld h d a b s = _
  rw [execTyld, runAgent_of_ctxt _ hx]
  refine congrArg _ (congrArg (settle s x0.aid) (a₂ := .ok _) ?_)
  dsimp only
  rw [hg, ok_bind]
  refine (if_neg hl).trans ?_
  rw [hvs, ok_bind, spawnTasks_of_checks true hchecks, ok_bind]
  dsimp only at hcommit hwait ⊢
  split
  -- a stroke that ends here waits first
  next hends =>
    rw [hwait hends, ok_bind]
    exact congrArg (· >>= _) hcommit
  next => exact congrArg (· >>= _) hcommit

theorem alloc_completes {d : Dst} (hr : spawnRule (.alloc h n d) s t) : exec (.alloc h n d) s = .next t := by
  obtain ⟨x0, x, u, vs, v, hruns, hcommit, rfl⟩ := hr
  show execAlloc h n d s = _
  exact congrArg _ (taskInstr_completes hruns rfl hcommit)

end

/-- Settles O34, by the lemma of each instruction. -/
theorem taskInstructionsComplete : Obligations.TaskInstructionsComplete := by
  intro i s t hr
  cases i with
  | tspawn => exact tspawn_completes hr
  | tyld => exact tyld_completes hr
  | alloc => exact alloc_completes hr
  | _ => exact hr.elim

/-! ### EQPUSH and EQSTAT (R288, R291, R299) -/

section
variable {s t : State} {h : Hdr} {d n e : Nat} {q sel : Opd}

theorem eqpush_completes {d : Option Nat} (hr : queueRule (.eqpush h d e q) s t) : exec (.eqpush h d e q) s = .next t := by
  obtain ⟨x0, x, u, vs, k, v, hruns, ⟨hn, hqueue⟩, hentries, hrelease, hcommit, rfl⟩ := hr
  have hgood : ((laneList (activeMask x0.a h.km) x.w).filter fun l => entryBad (bytesOf 32 (val vs 0 l))) = [] :=
    List.filter_eq_nil_iff.2 fun l hl => by simp [hentries l hl]
  show execEqpush h d e q s = _
  refine congrArg _ (taskInstr_completes hruns ?_ hcommit)
  dsimp only
  refine (if_neg (Nat.not_lt.2 hn)).trans ?_
  rw [hqueue, ok_bind, hgood]
  dsimp only
  rw [hrelease]
  cases d with
  | none => rfl
  | some k => rfl

/-- The word of EQSTAT as R299 states it. -/
theorem statValue_eq (u : State) (k : EQueue) (sel : Nat) : statValue u k sel =
    if k.configured = false then 0 else match sel with
      | 0 => queueCount k % 2 ^ 32 + 2 ^ 32 * min k.spill.length 0xFFFF + (if k.enable then 2 ^ 48 else 0) +
          (if queueReady k (timerOut u k) then 2 ^ 49 else 0)
      | 1 => min (oldestAge u k) (2 ^ 64 - 1)
      | 2 => k.refused + 2 ^ 32 * min k.firings (2 ^ 32 - 1)
      | _ => k.fill % 2 ^ 16 + 2 ^ 16 * (k.batch % 512) + 2 ^ 32 * k.age := by
  unfold statValue
  cases k.configured <;> rfl

theorem eqstat_completes (hr : queueRule (.eqstat h d q sel) s t) : exec (.eqstat h d q sel) s = .next t := by
  obtain ⟨x0, x, u, vs, k, v, hruns, ⟨hn, hqueue⟩, hsel, hcommit, rfl⟩ := hr
  show execEqstat h d q sel s = _
  refine congrArg _ (taskInstr_completes hruns ?_ hcommit)
  dsimp only
  refine (if_neg (not_or.2 ⟨Nat.not_lt.2 hn, Nat.not_le.2 hsel⟩)).trans ?_
  rw [hqueue, ok_bind, statValue_eq]
  rfl

/-! ### EQCFG (R289, R290) -/

theorem eqcfg_completes {r : Nat} (hr : queueRule (.eqcfg h n d r q) s t) : exec (.eqcfg h n d r q) s = .next t := by
  obtain ⟨x0, x, u, u1, vs, cs, ⟨hx, hg⟩, hpriv, halign, hread, hqueues, hconfigs, rfl⟩ := hr
  have howned : ((List.range n).map fun i => nthVal vs 1 + i).any (fun k =>
      decide (1023 < k) || (tabGet u1.easel k).all fun e => e.ctx != x.p.ctx) = false := by
    rw [List.any_map, List.any_eq_false]
    intro j hj
    obtain ⟨hle, e, he, hctx, -⟩ := hqueues j (List.mem_range.1 hj)
    simp [he, hctx, Nat.not_lt.2 hle]
  have hrings : (List.range n).any (fun i => (tabGet u1.easel (nthVal vs 1 + i)).any fun e =>
      changesRing e ((cs[i]?).getD ([], none)).1) = false := by
    rw [List.any_eq_false]
    intro j hj
    obtain ⟨-, e, he, -, hring⟩ := hqueues j (List.mem_range.1 hj)
    simp [he, hring]
  show execEqcfg h n d r q s = _
  rw [execEqcfg, wideInstr_of_gather _ hx hg]
  refine congrArg _ (congrArg (settle s x0.aid) (a₂ := .ok _) ?_)
  dsimp only
  refine (if_neg hpriv).trans ((if_neg (not_not_intro halign)).trans ?_)
  rw [hread, ok_bind]
  dsimp only
  rw [howned]
  refine (if_neg Bool.false_ne_true).trans ?_
  rw [hconfigs, ok_bind, hrings]
  refine (if_neg Bool.false_ne_true).trans ?_
  simp only [decide_eq_true_eq]
  rfl

/-! ### EQCOMB (R300, R301) -/

theorem eqcomb_completes {str grp gate : Nat} {a : Opd} (hr : queueRule (.eqcomb h str a grp gate) s t) :
    exec (.eqcomb h str a grp gate) s = .next t := by
  obtain ⟨x0, x, u, vs, v, hruns, hlanes, hrelease, hroom, hcommit, rfl⟩ := hr
  dsimp only at hlanes hroom hcommit
  show execEqcomb h str a grp gate s = _
  refine congrArg _ (taskInstr_completes hruns ?_ hcommit)
  dsimp only
  refine (if_neg (mt List.any_eq_true.1 fun ⟨l, hl, haway⟩ => ne_true_of_eq_false (hlanes l hl).1 haway)).trans ?_
  rw [List.flatMap_eq_nil_iff.2 fun l hl => (hlanes l hl).2]
  show (waitRelease _ _ _ _ >>= _) = _
  rw [hrelease, ok_bind, hroom]
  rfl

end

/-- Settles O35, by the lemma of each instruction. -/
theorem easelInstructionsComplete : Obligations.EaselInstructionsComplete := by
  intro i s t hr
  cases i with
  | eqpush => exact eqpush_completes hr
  | eqstat => exact eqstat_completes hr
  | eqcfg => exact eqcfg_completes hr
  | eqcomb => exact eqcomb_completes hr
  | _ => exact hr.elim

end Sys2Proof.Machine
end

section

namespace Sys2Proof.Machine
open Sys2Proof Sys2Proof.Claims

/-! ## The steps of the combine unit, the Easel and the task dispatcher complete (the first part of O36)

One lemma for each step: where its rule enables it, the step takes the branch that the rule names. -/

/-! ### A deposit that is staged (R302, R358) -/

/-- A deposit that the rules do not drop is staged, and completes its slot where it is the last. -/
theorem combPerform_of_deposited {s0 t : State} {d : Deposit} {g : List (Nat × Nat)} (hd : Deposited s0 d g t) :
    combPerform s0 d g = t := by
  obtain ⟨c, own, all, row, sr, rfl, hk, hseen, hdone, hlen, hlen2, hktot, hres, hown, hall, hrow, hword, hothers, rfl⟩ := hd
  unfold combPerform
  refine (if_neg ?_).trans ((if_neg ?_).trans ?_)
  · simp only [hseen, hdone, Bool.false_eq_true, or_false]
    omega
  · omega
  dsimp only at hothers ⊢
  simp only [hown, hall, hrow, hword, hothers]

theorem combineDeposit_completes {id : Nat} {s t : State} (h : easelStepRule (.combineDeposit id) s t) :
    exec (.combineDeposit id) s = .next t := by
  obtain ⟨d, g, p, hd, hage, hsegs, hreach, hgood, hdep⟩ := h
  show execCombineDeposit id s = _
  simp only [execCombineDeposit, hd, if_neg (Nat.not_lt.2 hage), hsegs, hreach, hgood, List.head?_nil,
    combPerform_of_deposited hdep]

/-! ### Timers (R281, R293) -/

theorem easelAgeExpiry_completes {q : Nat} {s t : State} (h : easelStepRule (.easelAgeExpiry q) s t) :
    exec (.easelAgeExpiry q) s = .next t := by
  obtain ⟨e, he, hout, rfl⟩ := h
  show execEaselAgeExpiry q s = _
  simp only [execEaselAgeExpiry, he, if_pos hout]

theorem taskFormingTimer_completes {core : Nat} {s t : State} (h : easelStepRule (.taskFormingTimer core) s t) :
    exec (.taskFormingTimer core) s = .next t := by
  obtain ⟨⟨k, hk, hripe, hage⟩, rfl⟩ := h
  refine congrArg _ (if_pos (List.any_eq_true.2 ⟨k, hk, ?_⟩))
  simp [hripe, hage]

/-! ### Starts (R281, R283, R294, R295) -/

theorem easelFiring_completes {die : Nat} {s t : State} (h : easelStepRule (.easelFiring die) s t) :
    exec (.easelFiring die) s = .next t := by
  obtain ⟨q, e, core, hnext, hdie, rfl⟩ := h
  show execEaselFiring die s = _
  simp only [execEaselFiring, hnext, if_pos hdie]

theorem taskStrokeStart_completes {core : Nat} {s t : State} (h : easelStepRule (.taskStrokeStart core) s t) :
    exec (.taskStrokeStart core) s = .next t := by
  obtain ⟨comm, c, ts, hfire, hplace, hnext, rfl⟩ := h
  show execTaskStrokeStart core s = _
  simp [execTaskStrokeStart, hfire, hplace, hnext]

/-! ### Donation (R285) -/

/-- One step of the search of STEAL_REQUEST for the panel of highest index. -/
def higherPanel (best : Option (Nat × Panel)) (p : Nat × Panel) : Option (Nat × Panel) :=
  match best with
  | none => some p
  | some b => if b.2.idx < p.2.idx then some p else some b

/-- That search is Mathlib's `argmax`. -/
theorem foldl_higherPanel (l : List (Nat × Panel)) : l.foldl higherPanel none = l.argmax fun p => p.2.idx := by
  unfold List.argmax
  congr 1
  funext best p
  cases best <;> rfl

/-- The first item that no other exceeds is the one that `argmax` gives. -/
theorem argmax_of_find {α : Type} [DecidableEq α] {f : α → Nat} {l : List α} {m : α}
    (h : l.find? (fun q => l.all fun r => decide (f r ≤ f q)) = some m) : l.argmax f = some m := by
  obtain ⟨hm, before, after, hl, hbefore⟩ := List.find?_eq_some_iff_append.1 h
  simp only [List.all_eq_true, decide_eq_true_eq] at hm
  refine List.mem_argmax_iff.2 ⟨by simp [hl], hm, fun a ha hle => ?_⟩
  have hnot : ∀ b ∈ before, ¬ f m ≤ f b := fun b hb hmb =>
    absurd (hbefore b hb) (by simpa using fun r hr => (hm r hr).trans hmb)
  have hma : m ∉ before := fun hmem => hnot m hmem (Nat.le_refl _)
  have haa : a ∉ before := fun hmem => hnot a hmem hle
  rw [hl, List.idxOf_append_of_notMem hma, List.idxOf_append_of_notMem haa, List.idxOf_cons_self]
  omega

theorem stealRequest_completes {core : Nat} {s t : State} (h : easelStepRule (.stealRequest core) s t) :
    exec (.stealRequest core) s = .next t := by
  obtain ⟨v, hidle, hpause, hvictim, hitem⟩ := h
  have hmay : coreIdle s core ∧ ((getCore s core).lastSteal.all fun b => decide (b + 256 ≤ s.cycle)) := by
    refine ⟨hidle, ?_⟩
    cases hb : (getCore s core).lastSteal with
    | none => rfl
    | some b => exact decide_eq_true (hpause b hb)
  show execStealRequest core s = _
  refine congrArg _ ((if_pos hmay).trans ?_)
  rw [hvictim]
  dsimp only
  generalize hbest : List.foldl _ _ (donatablePanels s core v) = best
  obtain rfl : (donatablePanels s core v).argmax (fun p => p.2.idx) = best := (foldl_higherPanel _).symm.trans hbest
  obtain ⟨id, p, -, hfind, rfl⟩ | ⟨hnone, rfl⟩ := hitem
  · rw [argmax_of_find hfind]
  · rw [hnone, List.argmax_nil]

theorem easelStepRule_completes {i : Instr} {s t : State} (h : easelStepRule i s t) : exec i s = .next t := by
  cases i with
  | combineDeposit => exact combineDeposit_completes h
  | easelAgeExpiry => exact easelAgeExpiry_completes h
  | easelFiring => exact easelFiring_completes h
  | taskFormingTimer => exact taskFormingTimer_completes h
  | taskStrokeStart => exact taskStrokeStart_completes h
  | stealRequest => exact stealRequest_completes h
  | _ => exact h.elim

end Sys2Proof.Machine
end

section

namespace Sys2Proof.Machine
open Sys2Proof Sys2Proof.Claims

/-! ## What the starts leave (the second part of O36)

A firing makes a panel as a placement does, up to the registers and the channel of its batch (`expertPanel`); a task stroke
is one stroke with its panel. Both are read off the parts that the placement of a group is made of. -/

/-! ### What the making of a panel leaves of the Easel and of the task queues -/

theorem getCore_setCore (s : State) (k : Nat) (g : Core) : getCore (setCore s k g) k = g :=
  congrArg (·.getD {}) (tabGet_tabPut_self s.cores k g)

theorem zeroRange_tasks (s : State) (pa n core : Nat) :
    (getCore (zeroRange s pa n) core).tasks = (getCore s core).tasks := by
  simp only [getCore, zeroRange, tabGet_tabMap]
  cases tabGet s.cores core <;> rfl

theorem zeroGranules_easel_tasks (core : Nat) (gs : List Nat) (s : State) :
    (zeroGranules s core gs).easel = s.easel ∧ ∀ k, (getCore (zeroGranules s core gs) k).tasks = (getCore s k).tasks := by
  induction gs generalizing s with
  | nil => exact ⟨rfl, fun _ => rfl⟩
  | cons g gs ih =>
    obtain ⟨heasel, htasks⟩ := ih (zeroRange s (granulePa core g) 4096)
    exact ⟨heasel, fun k => (htasks k).trans (zeroRange_tasks s _ _ k)⟩

theorem allocScratch_easel_tasks (s : State) (ctx core n : Nat) : (allocScratch s ctx core n).1.easel = s.easel ∧
    ∀ k, (getCore (allocScratch s ctx core n).1 k).tasks = (getCore s k).tasks := by
  unfold allocScratch
  split
  · exact ⟨rfl, fun _ => rfl⟩
  · split
    · exact ⟨rfl, fun _ => rfl⟩
    · exact zeroGranules_easel_tasks core _ s

theorem addStrokes_easel (s : State) (r : CommRec) (panel core : Nat) (regs : Tab DWord) (priv n : Nat) :
    (addStrokes s r panel core regs priv n).1.easel = s.easel := by
  induction n with
  | zero => rfl
  | succ n ih => exact ih

theorem addPrimer_easel (s : State) (r : CommRec) (panel : Nat) (regs : Tab DWord) (priv : Nat) :
    (addPrimer s r panel regs priv).1.easel = s.easel := by
  unfold addPrimer
  split <;> rfl

section
variable (s : State) (comm : Nat) (c : Comm) (idx core : Nat)

theorem makePanel_easel : (makePanel s comm c idx core).easel = s.easel := by
  have hparts : (primerPart s c core).1.easel = s.easel :=
    (addPrimer_easel _ _ _ _ _).trans ((addStrokes_easel _ _ _ _ _ _ _).trans (allocScratch_easel_tasks _ _ _ _).1)
  cases hbatch : c.batch with
  | none => rwa [makePanel_of_record s comm c idx core hbatch]
  | some b => rwa [makePanel_of_batch s comm c idx core hbatch]

/-! ### An expert task (R296) -/

/-- The scalars of an expert task that its batch gives: s0 and s3 to s5. -/
def batchRegs (r : CommRec) (b : Nat × Nat × List QEntry) : List (Nat × DWord) :=
  [(0, BitVec.ofNat 64 b.2.2.length), (3, r.args), (4, BitVec.ofNat 64 b.1), (5, BitVec.ofNat 64 b.2.1)]

/-- s0 to s5 of an expert task as it starts, its scratchpad at `va`. -/
def expertRegs (r : CommRec) (b : Nat × Nat × List QEntry) (va : Nat) : List (Nat × DWord) :=
  [(0, BitVec.ofNat 64 b.2.2.length), (1, BitVec.ofNat 64 va), (2, BitVec.ofNat 64 r.scratch), (3, r.args),
    (4, BitVec.ofNat 64 b.1), (5, BitVec.ofNat 64 b.2.1)]

/-- An agent once the panel has its batch: those of the panel's strokes hold its scalars. -/
def batchAgent (p : Panel) (r : CommRec) (b : Nat × Nat × List QEntry) (a : Agent) : Agent :=
  if p.strokes.contains a.stroke then { a with s := (batchRegs r b).foldl (fun t e => tabPut t e.1 e.2) a.s } else a

/-- The panel of an expert task: its batch stands at the delivery port c0. -/
def batchPanel (p : Panel) (r : CommRec) (b : Nat × Nat × List QEntry) : Panel :=
  { p with chans := [(0, refillPort r.width 256 { kind := .port, queue := b.1, batch := b.2.2, done := true })] }

variable {s comm c idx core}

theorem getPanel_expertPanel (u : State) (id : Nat) (p : Panel) (r : CommRec) (b : Nat × Nat × List QEntry) :
    getPanel (expertPanel u id p r b) id = some (batchPanel p r b) := tabGet_tabPut_self _ _ _

theorem getAgent_expertPanel (u : State) (id : Nat) (p : Panel) (r : CommRec) (b : Nat × Nat × List QEntry) (n : Nat) :
    getAgent (expertPanel u id p r b) n = (getAgent u n).map (batchAgent p r b) :=
  tabGet_tabMap (fun _ => batchAgent p r b) u.agents n

theorem batchAgent_primer_pc (p : Panel) (r : CommRec) (b : Nat × Nat × List QEntry) (a : Agent) :
    (batchAgent p r b a).primer = a.primer ∧ (batchAgent p r b a).pc = a.pc := by
  unfold batchAgent
  split <;> exact ⟨rfl, rfl⟩

/-- What R240 says of the Primer of a panel that starts. -/
theorem PrimerPlaced.starts {u : State} {r : CommRec} {o : Option Nat} (h : PrimerPlaced u r o) :
    (r.access = 0 → o = none) ∧
    (r.access ≠ 0 → ∃ aid a, o = some aid ∧ getAgent u aid = some a ∧ a.primer = true ∧ a.pc = r.access) := by
  cases o with
  | none => exact ⟨fun _ => rfl, fun haccess => absurd h haccess⟩
  | some aid =>
    obtain ⟨haccess, -, a, ha⟩ := h
    exact ⟨fun h0 => absurd h0 haccess, fun _ => ⟨aid, a, rfl, ha⟩⟩

theorem PrimerPlaced.expertPanel {u : State} {r : CommRec} {o : Option Nat} (h : PrimerPlaced u r o) (id : Nat) (p : Panel)
    (b : Nat × Nat × List QEntry) : PrimerPlaced (expertPanel u id p r b) r o := by
  cases o with
  | none => exact h
  | some aid =>
    obtain ⟨haccess, hfresh, a, hagent, hprimer, hpc⟩ := h
    obtain ⟨hprimer2, hpc2⟩ := batchAgent_primer_pc p r b a
    exact ⟨haccess, hfresh, batchAgent p r b a, by rw [getAgent_expertPanel, hagent]; rfl, hprimer2.trans hprimer,
      hpc2.trans hpc⟩

/-- A root agent of an expert task holds s0 to s5 as R296 says, and is else as R240 starts it. -/
theorem startsAt_of_batch {u : State} {id i st priv va : Nat} {p : Panel} {r : CommRec} {b : Nat × Nat × List QEntry}
    (hst : st ∈ p.strokes) (h : StrokePlaced u r id priv (startRegs r va) i st) :
    StartsAt (expertPanel u id p r b) (st + 1) st r.entry (populatedOf r i) 0 priv (expertRegs r b va) := by
  obtain ⟨-, -, m, hagent⟩ := h
  have hbatch : batchAgent p r b { rootAgent st r.entry (populatedOf r i) (startRegs r va) priv with lastIssue := m } =
      { rootAgent st r.entry (populatedOf r i)
          ((batchRegs r b).foldl (fun t e => tabPut t e.1 e.2) (startRegs r va)) priv with lastIssue := m } :=
    if_pos (List.contains_iff_mem.2 hst)
  refine ⟨_, by rw [getAgent_expertPanel, hagent, Option.map_some, hbatch], rfl, rfl, rfl, rfl, rfl, rfl, rfl, rfl, rfl, rfl,
    rfl, rfl, ?_⟩
  simp [sReg, rootAgent, startRegs, batchRegs, expertRegs, tabPut, tabGet]

/-- The strokes, the Primer and the scratchpad that `makePanel` makes, before the panel itself stands in the table. -/
theorem primerPart_spec : (strokesPart s c core).2.length = strokeCount c.record ∧
    (∀ i st, (strokesPart s c core).2[i]? = some st → StrokePlaced (primerPart s c core).1 c.record s.fresh c.priv
      (startRegs c.record (scratchPart s c core).2.1) i st) ∧
    PrimerPlaced (primerPart s c core).1 c.record (primerPart s c core).2 ∧
    Zeroed (primerPart s c core).1 core (scratchPart s c core).2.2 := by
  obtain ⟨-, hzeroed, -, -, -⟩ := allocScratch_spec { s with fresh := s.fresh + 1 } c.ctx core c.record.scratch
  obtain ⟨hstrokes, hcount, hplaced⟩ := addStrokes_spec (scratchPart s c core).1 c.record s.fresh core
    (startRegs c.record (scratchPart s c core).2.1) c.priv (strokeCount c.record)
  obtain ⟨hprimer, hprimerPlaced⟩ := addPrimer_spec (strokesPart s c core).1 c.record s.fresh
    (startRegs c.record (scratchPart s c core).2.1) c.priv
  exact ⟨hcount, fun i st hst => (hplaced i st hst).keeps hprimer, hprimerPlaced, (hstrokes.trans hprimer).zeroed hzeroed⟩

/-- The panel of an expert task starts with its batch at c0 and with s0 to s5 of its firing. -/
theorem makePanel_of_batch_starts {b : Nat × Nat × List QEntry} (hbatch : c.batch = some b) :
    let p := batchPanel (newPanel s comm c idx core) c.record b
    getPanel (makePanel s comm c idx core) s.fresh = some p ∧
    PanelStarts (makePanel s comm c idx core) s.fresh p c.record c.priv (expertRegs c.record b p.slotVA) := by
  obtain ⟨hcount, hstrokes, hprimer, hzeroed⟩ := primerPart_spec (s := s) (c := c) (core := core)
  rw [makePanel_of_batch s comm c idx core hbatch]
  obtain ⟨hnone, hsome⟩ := (hprimer.expertPanel s.fresh (newPanel s comm c idx core) b).starts
  refine ⟨getPanel_expertPanel .., hcount, fun i st hst => ?_, hnone, hsome, rfl, hzeroed⟩
  obtain ⟨-, ⟨n, hstroke⟩, -⟩ := hstrokes i st hst
  exact ⟨_, st + 1, hstroke, rfl, rfl, rfl, rfl, rfl, startsAt_of_batch (List.mem_of_getElem? hst) (hstrokes i st hst)⟩

end

/-- The commission of an expert task (R296): the queue's template, with the batch that its firing takes. -/
def firedComm (q : Nat) (e : EQueue) (batch : List QEntry) (cid : Nat) : Comm :=
  let r := firingRecord e
  { tag := r.tag, rkey := (r.salt ++ r.rank : BitVec 64), tvbase := r.tvbase, tclass := r.tclass, ctx := e.ctx
    record := r, source := .easel q, order := cid * 2 ^ 32, batch := some (q, e.firings, batch) }

/-- The state once a queue has given its oldest entries to a firing and has counted it. -/
def takenFrom (s : State) (q : Nat) (e : EQueue) : State :=
  let took := takeEntries s q (min e.batch (queueCount e))
  { reportMisses took.1 q e (firingRecord e) took.2 with
    easel := tabMod took.1.easel q fun u => { u with firings := u.firings + 1 } }

theorem fire_eq (s : State) (q : Nat) (e : EQueue) (core : Nat) :
    let u := takenFrom s q e
    let c := firedComm q e (takeEntries s q (min e.batch (queueCount e))).2 u.fresh
    fire s q e core = makePanel { setComm u u.fresh c with fresh := u.fresh + 1 } u.fresh c 0 core := rfl

/-- What R296 says of a firing, on any state, queue and core. -/
theorem fire_fired (s : State) (q : Nat) (e : EQueue) (core : Nat) : Fired s q e core (fire s q e core) := by
  rw [fire_eq]
  let took := takeEntries s q (min e.batch (queueCount e))
  let u := takenFrom s q e
  let c := firedComm q e took.2 u.fresh
  let u1 := { setComm u u.fresh c with fresh := u.fresh + 1 }
  have hcomm : getComm (makePanel u1 u.fresh c 0 core) u.fresh = some c :=
    (congrArg (tabGet · u.fresh) (makePanel_comms_saved u1 u.fresh c 0 core).1).trans (tabGet_tabPut_self _ _ _)
  have heasel : tabGet (makePanel u1 u.fresh c 0 core).easel q =
      (tabGet took.1.easel q).map fun k => { k with firings := k.firings + 1 } :=
    (congrArg (tabGet · q) (makePanel_easel u1 u.fresh c 0 core)).trans ((tabGet_tabMod ..).trans (if_pos rfl))
  obtain ⟨hpanel, hstarts⟩ := makePanel_of_batch_starts (s := u1) (comm := u.fresh) (c := c) (idx := 0) (core := core)
    (b := (q, e.firings, took.2)) rfl
  exact ⟨u.fresh, c, u1.fresh, _, hcomm, rfl, rfl, rfl, rfl, hpanel, rfl, rfl, rfl, rfl, rfl, hstarts, heasel⟩

/-! ### A task stroke (R283) -/

/-- The state once the tasks of a stroke have left their queue. -/
def withoutTasks (s : State) (core : Nat) (ts : List Tcb) : State :=
  setCore s core { getCore s core with tasks := ts.foldl (fun l t => l.erase t) (getCore s core).tasks }

/-- The scratchpad of a task stroke, with the state that holds it. -/
def taskScratch (s : State) (core : Nat) (c : Comm) (ts : List Tcb) : State × Nat × List Nat :=
  let u := withoutTasks s core ts
  allocScratch { u with fresh := u.fresh + 1 } c.ctx core (ceilDiv c.record.taskscr 4096 * 4096)

/-- Word j of the tasks of a stroke, by lane. -/
def taskArgs (ts : List Tcb) (width j : Nat) : List Word :=
  (List.range width).map fun l => ((ts[l]?).bind fun t => t.args[j]?).getD 0

/-- A task stroke of a panel: lane l holds task l. -/
def taskStroke (c : Comm) (ts : List Tcb) (id : Nat) : Stroke :=
  { panel := id, idx := 0, width := c.record.width, populated := lanesBelow ts.length
    reserve := ceilDiv c.record.regfloor 8, task := true, enq := ts.map (·.enq)
    vregs := (List.range 4).map fun j => (j, taskArgs ts c.record.width j) }

/-- s0 to s3 of a task stroke. -/
def taskRegs (c : Comm) (ts : List Tcb) (va : Nat) : Tab DWord :=
  [(0, c.record.args), (1, BitVec.ofNat 64 va), (2, BitVec.ofNat 64 (ceilDiv c.record.taskscr 4096 * 4096)),
    (3, BitVec.ofNat 64 ts.length)]

/-- The panel of a task stroke. -/
def taskPanel (core comm : Nat) (c : Comm) (st va : Nat) (gs : List Nat) : Panel :=
  { comm := comm, ctx := c.ctx, core := core, idx := 2 ^ 32 - 1, strokes := [st], lvls := List.replicate 5 0xFFFFFFFF
    slotVA := va, slotBytes := ceilDiv c.record.taskscr 4096 * 4096, granules := gs, classes := List.replicate 7 2, task := true }

/-- The agents of a task stroke hold v0 to v3. -/
def liveArgs (u : State) (st : Nat) : State :=
  { u with agents := tabMap (fun _ a => if a.stroke = st then { a with live := set192 [0, 1, 2, 3] } else a) u.agents }

theorem startTask_eq (s : State) (core comm : Nat) (c : Comm) (ts : List Tcb) :
    let id := (withoutTasks s core ts).fresh
    let scratch := taskScratch s core c ts
    let added := addStroke scratch.1 (taskStroke c ts id) ((ts.head?).elim 0 (·.entry)) (taskRegs c ts scratch.2.1) c.priv core
    startTask s core comm c ts = acquireInvalidate (setPanel (liveArgs added.1 added.2) id
      (taskPanel core comm c added.2 scratch.2.1 scratch.2.2)) core := by
  intro id scratch added
  rfl

theorem vLane_taskStroke {c : Comm} {ts : List Tcb} {id j l : Nat} {b : Tcb} (hj : j < 4) (hl : l < c.record.width)
    (hb : ts[l]? = some b) (adm : Nat) : vLane { taskStroke c ts id with adm := adm } j l = (b.args[j]?).getD 0 := by
  have hname : tabGet (taskStroke c ts id).vregs j = some (taskArgs ts c.record.width j) := by
    interval_cases j <;> rfl
  have hlane : (taskArgs ts c.record.width j)[l]? = some ((b.args[j]?).getD 0) := by
    simp [taskArgs, hl, hb]
  unfold vLane
  dsimp only
  rw [hname, Option.getD_some, hlane, Option.getD_some]

theorem taskScratch_spec (s : State) (core : Nat) (c : Comm) (ts : List Tcb) :
    Zeroed (taskScratch s core c ts).1 core (taskScratch s core c ts).2.2 ∧
    (getCore (taskScratch s core c ts).1 core).tasks = ts.foldl (fun l t => l.erase t) (getCore s core).tasks := by
  unfold taskScratch
  exact ⟨(allocScratch_spec _ _ _ _).2.1,
    ((allocScratch_easel_tasks _ _ _ _).2 core).trans (congrArg (·.tasks) (getCore_setCore s core _))⟩

section
variable (u : State) (k : Stroke) (pc : VAddr) (regs : Tab DWord) (priv core : Nat)

theorem getStroke_addStroke : getStroke (addStroke u k pc regs priv core).1 (addStroke u k pc regs priv core).2 =
    some { k with adm := (getCore u core).admitted } := tabGet_tabPut_self _ _ _

theorem addStroke_tasks : (getCore (addStroke u k pc regs priv core).1 core).tasks = (getCore u core).tasks :=
  congrArg (·.tasks) (getCore_setCore u core _)

theorem acquireInvalidate_tasks : (getCore (acquireInvalidate u core) core).tasks = (getCore u core).tasks :=
  congrArg (·.tasks) (getCore_setCore u core _)

theorem getAgent_addStroke : getAgent (addStroke u k pc regs priv core).1 (u.fresh + 1) =
    some { rootAgent u.fresh pc k.populated regs priv with lastIssue := u.cycle } := tabGet_tabPut_self _ _ _

theorem getAgent_liveArgs {st n : Nat} {a : Agent} (ha : getAgent u n = some a) (hst : a.stroke = st) :
    getAgent (liveArgs u st) n = some { a with live := set192 [0, 1, 2, 3] } := by
  refine (tabGet_tabMap (fun _ a => if a.stroke = st then { a with live := set192 [0, 1, 2, 3] } else a) u.agents n).trans ?_
  rw [show tabGet u.agents n = some a from ha, Option.map_some, if_pos hst]

variable {regs}

/-- The root agent of a stroke as it is added, with v0 to v3 live. -/
theorem startsAt_liveArgs {l : List (Nat × DWord)} (hl : ∀ e ∈ l, e.1 ≠ 63 ∧ tabGet regs e.1 = some e.2) :
    StartsAt (liveArgs (addStroke u k pc regs priv core).1 (addStroke u k pc regs priv core).2)
      (u.fresh + 1) (addStroke u k pc regs priv core).2 pc k.populated (set192 [0, 1, 2, 3]) priv l := by
  refine ⟨_, getAgent_liveArgs _ (getAgent_addStroke u k pc regs priv core) rfl, rfl, rfl, rfl, rfl, rfl, rfl, rfl, rfl, rfl, rfl,
    rfl, rfl, fun e he => ?_⟩
  obtain ⟨hne, hget⟩ := hl e he
  simp only [sReg, rootAgent, if_neg hne, hget, Option.getD_some]

end

theorem startsAt_of_agents {u t : State} {aid st priv : Nat} {pc : VAddr} {lanes : Mask} {live : BitVec 192}
    {regs : List (Nat × DWord)} (h : StartsAt u aid st pc lanes live priv regs) (ht : t.agents = u.agents) :
    StartsAt t aid st pc lanes live priv regs := by
  obtain ⟨a, ha, hrest⟩ := h
  exact ⟨a, (congrArg (tabGet · aid) ht).trans ha, hrest⟩

/-- What R283 says of the start of a task stroke, on any state, core and tasks. -/
theorem startTask_started (s : State) (core comm : Nat) (c : Comm) (ts : List Tcb) :
    TaskStarted s core comm c ts (startTask s core comm c ts) := by
  obtain ⟨hzeroed, hqueue⟩ := taskScratch_spec s core c ts
  rw [startTask_eq]
  generalize (withoutTasks s core ts).fresh = id
  generalize taskScratch s core c ts = scratch at hzeroed hqueue ⊢
  obtain ⟨u, va, gs⟩ := scratch
  dsimp only at hzeroed hqueue ⊢
  let pc : VAddr := (ts.head?).elim 0 (·.entry)
  have hstarts := startsAt_liveArgs u (taskStroke c ts id) pc c.priv core (regs := taskRegs c ts va)
    (l := taskRegs c ts va) (by simp [taskRegs, tabGet])
  have hstroke := getStroke_addStroke u (taskStroke c ts id) pc (taskRegs c ts va) c.priv core
  have htasks := addStroke_tasks u (taskStroke c ts id) pc (taskRegs c ts va) c.priv core
  have hmem := addStroke_mem u (taskStroke c ts id) pc (taskRegs c ts va) c.priv core
  generalize addStroke u (taskStroke c ts id) pc (taskRegs c ts va) c.priv core = added at hstarts hstroke htasks hmem ⊢
  refine ⟨id, taskPanel core comm c added.2 va gs, added.2, _, u.fresh + 1, tabGet_tabPut_self _ _ _, rfl, rfl, rfl, rfl,
    rfl, rfl, fun g hg o ho => ?_, hstroke, rfl, rfl, rfl, rfl, fun j hj l hl b hb => vLane_taskStroke hj hl hb _,
    startsAt_of_agents hstarts rfl, ?_⟩
  · exact (congrArg (memGet · _) hmem).trans (hzeroed g hg o ho)
  · exact (acquireInvalidate_tasks _ core).trans (htasks.trans hqueue)

/-- Settles O36: each step by its own lemma (`easelStepRule_completes`), what a firing leaves by the parts of the panel that
it makes (`fire_fired`), and what a task stroke's start leaves (`startTask_started`). -/
theorem easelStepsComplete : Obligations.EaselStepsComplete := by
  refine ⟨fun i s t h => easelStepRule_completes h, fun s die q core e hnext hdie => ?_,
    fun s core comm c ts hfire hplace hnext => ?_⟩
  · exact ⟨_, easelFiring_completes ⟨q, e, core, hnext, hdie, rfl⟩, fire_fired s q e core⟩
  · exact ⟨_, taskStrokeStart_completes ⟨comm, c, ts, hfire, hplace, hnext, rfl⟩, startTask_started s core comm c ts⟩

end Sys2Proof.Machine
end

section

namespace Sys2Proof.Machine
open Sys2Proof Sys2Proof.Claims

/-! ## Management requests are answered (O42)

Each request of the device manager is `manage` with its name, its signer and its effect; `manage` answers as `answerRule`
says. -/

/-- Whether a request carries the signature that it needs (R356). -/
def signedFor (q : Request) (s : State) : Bool :=
  match q.signer with
  | none => true
  | some key => enrolled s key

/-- An instruction is the management request q: `manage` with its name, its signer and its effect. -/
def IsRequest (i : Instr) (q : Request) (s : State) : Prop :=
  ∃ f, exec i s = .next (manage s i q.name q.early (signedFor q s) f) ∧ f s = q.effect s

/-- With nothing under way, and in ROM and RECOVER where it is answered there, a request is executed or refused (R356). -/
theorem takeRequest_of_idle {s : State} {m : Move} {name : String} {early signed : Bool} {f : State → State}
    (hpower : early = true ∨ s.juran.power ≠ .rom ∧ s.juran.power ≠ .recover) (hidle : busy s = false) :
    takeRequest s m name early signed f = if signed then f s else reply s name none := by
  have hearly : ¬ ((s.juran.power = .rom ∨ s.juran.power = .recover) ∧ (!early) = true) := by
    rintro ⟨hp, he⟩
    obtain h | ⟨hrom, hrec⟩ := hpower
    · simp [h] at he
    · exact hp.elim hrom hrec
  rw [takeRequest, if_neg hearly, hidle]
  cases signed <;> rfl

theorem request_answers {i : Instr} {q : Request} {s t : State} (hi : IsRequest i q s) (h : answerRule q s t) :
    exec i s = .next t := by
  obtain ⟨f, hexec, heffect⟩ := hi
  obtain ⟨hpower, hidle, ht⟩ := h
  rw [hexec, manage, takeRequest_of_idle hpower hidle, heffect]
  change t = match signedFor q s, q.effect s with
    | true, some r => report r.1 (.reply q.name true r.2.1 r.2.2)
    | _, _ => report s (.reply q.name false [] []) at ht
  cases hsigned : signedFor q s with
  | false => simp only [hsigned] at ht; rw [ht]; rfl
  | true =>
    cases hr : q.effect s with
    | none => simp only [hsigned, hr] at ht; rw [ht]; rfl
    | some r => simp only [hsigned, hr] at ht; rw [ht]; rfl

/-! ### Effects that a condition guards -/

section
variable {α : Type} {c d : Prop} [Decidable c] [Decidable d]

theorem none_else_eq (h : c ↔ ¬ d) (x : Option α) : (if c then none else x) = if d then x else none := by
  by_cases hd : d <;> simp [hd, h]

theorem done_else (c : State → Prop) [DecidablePred c] (f : State → State) (s : State) :
    done (fun u => if c u then none else some (f u)) s = if c s then none else some (f s, [], []) := by
  by_cases h : c s <;> simp [done, h]

end

section
variable {i : Instr} {q : Request} {s : State}

theorem isRequest_of_devmgr {f g : State → Option State} (hexec : exec i s = .next (devmgr s i q.name (signedFor q s) f))
    (hlate : q.early = false) (hq : q.effect = done g) (hf : f s = g s) : IsRequest i q s :=
  ⟨fun t => (f t).map fun u => (u, [], []), by rw [hexec, hlate]; rfl, by rw [hq, done, ← hf]⟩

theorem isRequest_of_mapCommand {f g : State → Option State}
    (hexec : exec i s = .next (mapCommand s i q.name (signedFor q s) f)) (hlate : q.early = false)
    (hq : q.effect = done g) (hf : (if s.juran.power = .bist then none else f s) = g s) : IsRequest i q s :=
  isRequest_of_devmgr (f := fun t => if t.juran.power = .bist then none else f t) hexec hlate hq hf

theorem isRequest_of_ctxRequest {id : Nat} {f g : State → Ctx → Option State}
    (hexec : exec i s = .next (ctxRequest s i q.name (signedFor q s) id f)) (hlate : q.early = false)
    (hq : q.effect = ctxEffect id g) (hf : ∀ c, f s c = g s c) : IsRequest i q s :=
  isRequest_of_devmgr hexec hlate hq (congrArg (liveCtx s id).bind (funext hf))

end

/-! ### Requests about the device (R348-R356) -/

theorem tilemap_guard (s : State) (core : Nat) {x : Option State} :
    (if s.juran.power = .bist then none
      else if tileFree s core = true ∧ (!s.juran.tiles.contains core) = true ∧
        (s.juran.tiles.filter fun c => c / 128 == core / 128).length < 8 then x else none) =
      if s.juran.power ≠ .bist ∧ tileFree s core = true ∧ core ∉ s.juran.tiles ∧
        (s.juran.tiles.filter fun c => c / 128 == core / 128).length < 8 then x else none := by
  by_cases hb : s.juran.power = .bist <;> simp [hb]

theorem bankmap_guard (s : State) (core : Nat) (b : BankName) {x : Option State} :
    (if s.juran.power = .bist then none
      else if tileFree s core = true ∧ b.layer < 3 ∧ layerSpare s.juran (tileNow s.juran core) b.layer = true ∧
        (!(bankNow s.juran core b.bank).spare) = true then x else none) =
      if s.juran.power ≠ .bist ∧ tileFree s core = true ∧ b.layer < 3 ∧
        (∀ e ∈ s.juran.banks, e.1 = tileNow s.juran core → e.2.layer ≠ b.layer ∧ e.2.bank ≠ b.bank) then x else none := by
  have hspare : (layerSpare s.juran (tileNow s.juran core) b.layer = true ∧ (!(bankNow s.juran core b.bank).spare) = true) ↔
      ∀ e ∈ s.juran.banks, e.1 = tileNow s.juran core → e.2.layer ≠ b.layer ∧ e.2.bank ≠ b.bank := by
    simp only [layerSpare, bankNow, Bool.not_eq_true', List.any_eq_false, Bool.and_eq_true, beq_iff_eq, not_and]
    exact ⟨fun h e he hp => ⟨h.1 e he hp, h.2 e he hp⟩, fun h => ⟨fun e he hp => (h e he hp).1, fun e he hp => (h e he hp).2⟩⟩
  by_cases hb : s.juran.power = .bist
  · simp [hb]
  · simp only [hb, if_false, ne_eq, not_false_eq_true, true_and, hspare]

theorem deviceRequest_isRequest {i : Instr} {q : Request} (s : State) (h : deviceRequest i = some q) : IsRequest i q s := by
  cases i with
  | identity => cases h; exact ⟨_, rfl, rfl⟩
  | status => cases h; exact ⟨_, rfl, rfl⟩
  | logread g seq => cases h; exact ⟨_, rfl, rfl⟩
  | logclear g => cases h; exact ⟨_, rfl, rfl⟩
  | counters g => cases h; exact ⟨_, rfl, rfl⟩
  | thresh g u v => cases h; exact ⟨_, rfl, by simp only [done_else]; rfl⟩
  | margin g u v => cases h; exact ⟨_, rfl, rfl⟩
  | mgmtFence g core => cases h; exact ⟨_, rfl, by simp [done_else, setJuran]⟩
  | unfence g core => cases h; exact ⟨_, rfl, by simp only [done_else]; rfl⟩
  | tilemap g core => cases h; exact isRequest_of_mapCommand rfl rfl rfl (tilemap_guard s core)
  | bankmap g core b => cases h; exact isRequest_of_mapCommand rfl rfl rfl (bankmap_guard s core b)
  | image g img => cases h; exact ⟨_, rfl, rfl⟩
  | reset g => cases h; exact ⟨_, rfl, rfl⟩
  | _ => cases h

/-! ### Requests about contexts, queues and the table (R245-R248, R305-R320) -/

theorem saveOk_iff (p : CtxParams) (gs : List Range) (size : Nat) : saveOk p gs size = true ↔
    size = 0 ∨ lpddrRange p.saveBase size = true ∧ ∃ g ∈ gs, g.base ≤ p.saveBase ∧ p.saveBase + size ≤ g.base + g.size := by
  simp [saveOk, inRanges]

theorem contextRequest_isRequest {i : Instr} {q : Request} (s : State) (h : contextRequest i = some q) : IsRequest i q s := by
  cases i with
  | createContext g p =>
    cases h
    refine isRequest_of_devmgr rfl rfl rfl (if_congr ?_ rfl rfl)
    simp [assigned, given]
  | extendGrants g id r =>
    cases h
    refine isRequest_of_ctxRequest rfl rfl rfl fun c => none_else_eq ?_ _
    simp [not_and_or, -not_and]
  | enlargeSaveRegion g id size =>
    cases h
    refine isRequest_of_ctxRequest rfl rfl rfl fun c => none_else_eq ?_ _
    simp only [← saveOk_iff]
    simp [not_and_or, -not_and]
  | registerCommissionQueue g n r =>
    cases h
    refine isRequest_of_ctxRequest rfl rfl rfl fun c => none_else_eq ?_ _
    cases hq : tabGet s.cqueues n <;> simp [not_and_or, -not_and]
  | unregisterCommissionQueue g n => cases h; exact isRequest_of_devmgr rfl rfl rfl rfl
  | writeTtEntry g n e =>
    cases h
    refine isRequest_of_devmgr rfl rfl rfl (if_congr ?_ rfl rfl)
    simp [entryOk, and_assoc]
  | setExportWindow g id w =>
    cases h
    refine isRequest_of_ctxRequest rfl rfl rfl fun c => none_else_eq ?_ _
    simp [not_and_or, -not_and]
  | assignEaselQueues g id qs =>
    cases h
    refine isRequest_of_ctxRequest rfl rfl rfl fun c => none_else_eq ?_ _
    simp [not_and_or, -not_and, Option.isSome_iff_ne_none]
  | configureEgressChannel g id chan e =>
    cases h
    refine isRequest_of_ctxRequest rfl rfl rfl fun c => none_else_eq ?_ _
    simp [not_and_or, -not_and, Option.isSome_iff_ne_none]
  | resetChunkPool g id => cases h; exact isRequest_of_ctxRequest rfl rfl rfl fun _ => rfl
  | endCommission g id => cases h; exact isRequest_of_devmgr rfl rfl rfl rfl
  | measureIntoContext g id bytes => cases h; exact isRequest_of_ctxRequest rfl rfl rfl fun _ => rfl
  | attestationReport g id nonce => cases h; exact ⟨_, rfl, rfl⟩
  | _ => cases h

/-- Settles O42: every instruction that is a request is `manage` with its effect (`deviceRequest_isRequest`,
`contextRequest_isRequest`), which answers as the rule says (`request_answers`). -/
theorem requestsAnswered : Obligations.RequestsAnswered := by
  rintro i q s t (hq | hq) h
  · exact request_answers (deviceRequest_isRequest s hq) h
  · exact request_answers (contextRequest_isRequest s hq) h

end Sys2Proof.Machine
end

section

namespace Sys2Proof.Machine
open Sys2Proof Sys2Proof.Claims

/-! ## The steps of the device, the requests that complete later, and reset (O41, O43, O50) -/

section
variable {s t : State}

/-! ### Power, self-test and recovery (R353-R355) -/

/-- The ROM state boots the first image in its order that verifies, else it enters RECOVER. -/
theorem romBoot_of_rule {w : State}
    (h : (bootSlot w.juran = none ∧ t = { w with juran := { w.juran with power := .recover } }) ∨
      ∃ n img, bootSlot w.juran = some (n, img) ∧ t = { w with juran := { w.juran with
        power := .bist, active := n, running := some img, rollback := max w.juran.rollback img.version
        update := if n = w.juran.active then w.juran.update else false } }) : romBoot w = t := by
  obtain ⟨hslot, rfl⟩ | ⟨n, img, hslot, rfl⟩ := h
  · simp only [romBoot, hslot]
  · simp only [romBoot, hslot]

theorem powerOn_completes (h : deviceRule .powerOn s t) : exec .powerOn s = .next t := by
  obtain ⟨w, rfl, hboot⟩ := h
  exact congrArg Host.Outcome.next (romBoot_of_rule hboot)

theorem bistComplete_completes {failed : List TestedUnit} (h : deviceRule (.bistComplete failed) s t) :
    exec (.bistComplete failed) s = .next t := by
  obtain ⟨hbist, rfl⟩ := h
  refine congrArg Host.Outcome.next ?_
  simp only [hbist, ne_eq, not_true_eq_false, if_false]

theorem recoverFetch_completes (h : deviceRule .recoverFetch s t) : exec .recoverFetch s = .next t := by
  obtain ⟨hrecover, hdue, rfl⟩ := h
  refine congrArg Host.Outcome.next (if_pos ⟨hrecover, ?_⟩)
  simpa [Option.all_eq_true] using hdue

theorem recoverImageReceived_completes {img : FwImage} (h : deviceRule (.recoverImageReceived img) s t) :
    exec (.recoverImageReceived img) s = .next t := by
  obtain ⟨hrecover, ⟨hgood, rfl⟩ | ⟨hbad, kind, u, rfl, rfl, rfl⟩⟩ := h
  · refine congrArg Host.Outcome.next ?_
    simp only [hrecover, hgood, ne_eq, not_true_eq_false, if_false, if_true, storeImage]
  · refine congrArg Host.Outcome.next ?_
    simp only [hrecover, hbad, ne_eq, not_true_eq_false, if_false, Bool.false_eq_true]

/-! ### Margins (R349) -/

/-- A sample counts once in a period, where the monitors run (R349; log 71). -/
theorem takeSample_eq (u : ErrUnit) (margin : Nat) (s : State) : takeSample u margin s =
    let s1 := { s with juran := { s.juran with sampled := assocPut s.juran.sampled u (s.cycle / 2 ^ 24) } }
    if s.juran.power ≠ .rom ∧ s.juran.power ≠ .recover ∧ (assocGet s.juran.sampled u).getD 0 < s.cycle / 2 ^ 24 then
      if margin < (assocGet s.juran.margins u).getD 0 then addLog s1 0 4 u 0 (unitCount s1 u) else s1
    else s := by
  have hskip : (s.juran.power = .rom ∨ s.juran.power = .recover ∨ s.cycle / 2 ^ 24 ≤ (assocGet s.juran.sampled u).getD 0) ↔
      ¬ (s.juran.power ≠ .rom ∧ s.juran.power ≠ .recover ∧ (assocGet s.juran.sampled u).getD 0 < s.cycle / 2 ^ 24) := by
    simp only [not_and_or, ne_eq, not_not, not_lt]
  exact (if_congr hskip rfl rfl).trans (ite_not ..)

/-- A sample changes the security block alone. -/
theorem takeSample_juran (u : ErrUnit) (margin : Nat) (s : State) :
    takeSample u margin s = { s with juran := (takeSample u margin s).juran } := by
  rw [takeSample_eq]
  dsimp only
  split
  · split <;> rfl
  · rfl

/-- The protective stop of a state that differs in the security block alone (R349; log 106). -/
theorem protectiveStop_juran (s : State) (j : Juran) : protectiveStop { s with juran := j } =
    let kept := { State.reset with
      juran := { j with power := .safe, stopped := true }, mem := s.mem, badWords := s.badWords, cycle := s.cycle
      agenda := s.agenda, events := s.events, freeN := s.freeN, fresh := s.fresh }
    report (if killing s then complete kept "KILL_CONTEXT" else kept) .protectiveStop := rfl

theorem marginSample_completes {u : ErrUnit} {margin : Nat} {hard : Bool} (h : deviceRule (.marginSample u margin hard) s t) :
    exec (.marginSample u margin hard) s = .next t := by
  refine congrArg Host.Outcome.next ?_
  simp only [deviceRule, ← takeSample_eq] at h
  rw [h]
  cases hard with
  | false => rfl
  | true => exact (congrArg protectiveStop (takeSample_juran u margin s)).trans (protectiveStop_juran s _)

/-! ### Repairs, retraining and device registers (R248, R351, R352) -/

theorem onlineRepairSwitch_completes {n : Nat} (h : deviceRule (.onlineRepairSwitch n) s t) :
    exec (.onlineRepairSwitch n) s = .next t := by
  obtain ⟨r, hr, rfl⟩ := h
  refine congrArg Host.Outcome.next ?_
  cases r <;> simp only [hr]

theorem laneRetrainComplete_completes {port : Nat} (h : deviceRule (.laneRetrainComplete port) s t) :
    exec (.laneRetrainComplete port) s = .next t := by
  obtain ⟨l, n, hretrain, rfl, rfl⟩ := h
  refine congrArg Host.Outcome.next ?_
  simp [hretrain]

/-- The last word of an entry of the time-triggered table (R248). -/
theorem ttWord_last (e : TTEntry) (v : DWord) : ttWord e 3 v.toNat =
    { e with ctx := v.toNat % 4096, policy := v.toNat / 2 ^ 16 % 4, enable := v.getLsbD 23, skipped := v.toNat / 2 ^ 32 } := by
  have hskipped : bitsAt v.toNat 63 32 = v.toNat / 2 ^ 32 := by
    have hv := v.isLt
    simp only [bitsAt]
    omega
  have hcode : bitsAt v.toNat 11 0 = v.toNat % 4096 ∧ bitsAt v.toNat 17 16 = v.toNat / 2 ^ 16 % 4 := by
    simp [bitsAt]
  simp [ttWord, hskipped, hcode, bitAt, BitVec.getLsbD]

theorem deviceRegisterWrite_completes {reg : Nat} {v : DWord} (h : deviceRule (.deviceRegisterWrite reg v) s t) :
    exec (.deviceRegisterWrite reg v) s = .next t := by
  refine congrArg Host.Outcome.next ?_
  simp only [deviceRule] at h
  split at h
  next htable =>
    rw [if_pos htable, h]
    have hword : reg % 4 = 0 ∨ reg % 4 = 1 ∨ reg % 4 = 2 ∨ reg % 4 = 3 := by omega
    obtain hw | hw | hw | hw := hword
    · simp only [hw]; rfl
    · simp only [hw]; rfl
    · simp only [hw, ttWord, BitVec.ofNat_toNat, BitVec.setWidth_eq]
    · simp only [hw, ttWord_last]
  next hother => rw [if_neg hother, h]

end

/-- Settles O41, by the lemma of each step. -/
theorem deviceStepsComplete : Obligations.DeviceStepsComplete := by
  intro i s t h
  cases i with
  | powerOn => exact powerOn_completes h
  | bistComplete failed => exact bistComplete_completes h
  | recoverFetch => exact recoverFetch_completes h
  | recoverImageReceived img => exact recoverImageReceived_completes h
  | marginSample u margin hard => exact marginSample_completes h
  | onlineRepairSwitch n => exact onlineRepairSwitch_completes h
  | laneRetrainComplete port => exact laneRetrainComplete_completes h
  | deviceRegisterWrite reg v => exact deviceRegisterWrite_completes h
  | _ => exact h.elim

/-! ### ROWMAP, CHANMAP, LANEMAP, KILL_CONTEXT and KILL_DRAIN_COMPLETE (R314, R350-R352) -/

section
variable {s t : State} {i : Instr} {name : String} {f : State → Option State}

/-- The device takes a request whose reply follows later: out of ROM, RECOVER and self-test, with nothing under way. -/
def TakesLater (s : State) : Prop :=
  s.juran.power ≠ .rom ∧ s.juran.power ≠ .recover ∧ s.juran.power ≠ .bist ∧ busy s = false

theorem startRequest_starts (hstarts : TakesLater s) (hf : f s = some t) : startRequest s i name true f = t := by
  obtain ⟨hrom, hrecover, hbist, hidle⟩ := hstarts
  simp [startRequest, takeRequest, hrom, hrecover, hbist, hidle, hf]

theorem rowmap_completes {g : Option MgmtKey} {core bank row : Nat} {column : Bool}
    (h : laterRule (.rowmap g core bank row column) s t) : exec (.rowmap g core bank row column) s = .next t := by
  obtain ⟨hstarts, hkey, hcore, hnew, hstock, rfl⟩ := h
  refine congrArg Host.Outcome.next ?_
  rw [hkey]
  refine startRequest_starts hstarts (if_neg ?_)
  have hleft : lineStock s.juran (bankNow s.juran core bank) column ≠ 0 := Nat.sub_ne_zero_of_lt hstock
  simp [hcore, hnew, hleft]

theorem chanmap_completes {g : Option MgmtKey} {chan : Nat} (h : laterRule (.chanmap g chan) s t) :
    exec (.chanmap g chan) s = .next t := by
  obtain ⟨hstarts, hkey, hchan, hspare, rfl⟩ := h
  refine congrArg Host.Outcome.next ?_
  rw [hkey]
  refine startRequest_starts hstarts (if_neg ?_)
  simpa [hchan] using hspare

theorem lanemap_completes {g : Option MgmtKey} {l : LaneName} (h : laterRule (.lanemap g l) s t) :
    exec (.lanemap g l) s = .next t := by
  obtain ⟨hstarts, hkey, hport, hlane, hspare, rfl⟩ := h
  refine congrArg Host.Outcome.next ?_
  rw [hkey]
  refine startRequest_starts hstarts (if_neg ?_)
  simpa [hport, hlane] using hspare

theorem killContext_completes {g : Option MgmtKey} {id : Nat} (h : laterRule (.killContext g id) s t) :
    exec (.killContext g id) s = .next t := by
  obtain ⟨hstarts, hkey, c, hc, rfl⟩ := h
  refine congrArg Host.Outcome.next ?_
  rw [hkey]
  exact startRequest_starts hstarts (congrArg (Option.map _) hc)

theorem killDrainComplete_completes {id : Nat} (h : laterRule (.killDrainComplete id) s t) :
    exec (.killDrainComplete id) s = .next t := by
  obtain ⟨c, n, hc, hkilled, hheld, hquiet, rfl⟩ := h
  refine congrArg Host.Outcome.next ?_
  simp only [hc, hkilled, hheld, hquiet, Option.isNone_some, Bool.not_true, Bool.or_self, Bool.false_eq_true, if_false]

end

/-- Settles O43, by the lemma of each request. -/
theorem laterRequestsComplete : Obligations.LaterRequestsComplete := by
  intro i s t h
  cases i with
  | rowmap g core bank row column => exact rowmap_completes h
  | chanmap g chan => exact chanmap_completes h
  | lanemap g l => exact lanemap_completes h
  | killContext g id => exact killContext_completes h
  | killDrainComplete id => exact killDrainComplete_completes h
  | _ => exact h.elim

/-! ### Reset (R353) -/

/-- Settles O50: the fields of the reset state. -/
theorem resetState : Obligations.ResetState :=
  ⟨rfl, rfl, rfl, rfl, rfl, rfl, rfl, rfl, rfl, rfl, rfl, rfl⟩

end Sys2Proof.Machine
end

section

namespace Sys2Proof.Machine
open Sys2Proof Sys2Proof.Claims

/-! ## System instructions complete (O16)

A system instruction whose checks pass comes to what its body answers (`sysInstr_settles`); each is followed through its
body along the cases of `systemRule`. -/

theorem sysGather_aid (s : State) (x0 : Ctxt) (h : Hdr) (pl : Place) (reads : List Ref) (b : List Opd) (runs : Agent → Bool)
    (masked : Bool) : Yields (fun r => r.2.1.aid = x0.aid) (sysGather s x0 h pl reads b runs masked) := by
  unfold sysGather
  dsimp only
  refine .guard fun _ => (.seq fun _ => .bind (switchMark_aid ..) fun r hr => ?_)
  exact .seq fun _ => .seq fun _ => .seq fun _ => .seq fun _ => (yields_pure _).2 hr

section
variable {s t u : State} {h : Hdr} {x0 x : Ctxt} {v : DWord}

theorem sysRuns_aid {pl : Place} {reads : List Ref} {b : List Opd} {runs : Agent → Bool} {masked : Bool}
    (hr : SysRuns s h pl reads b x0 x u v runs masked) : x.aid = x0.aid := (sysGather_aid ..).of_ok _ hr.2

theorem sysInstr_settles {pl : Place} {reads : List Ref} {b : List Opd} {runs : Agent → Bool} {masked : Bool}
    {body : State → Ctxt → Mask → DWord → Eff State} (hr : SysRuns s h pl reads b x0 x u v runs masked) :
    sysInstr s h pl reads b body runs masked = settle s x.aid (body u x (activeMask x0.a h.km) v) := by
  rw [sysRuns_aid hr]
  exact sysInstr_of_gather body hr.1 hr.2

/-! ### TRAP, HALT and RTT (R328, R329) -/

theorem trap_completes {b : Opd} (hr : systemRule (.trap h b) s t) : exec (.trap h b) s = .next t := by
  obtain ⟨x0, x, u, v, hruns, ht⟩ := hr
  refine congrArg Host.Outcome.next ((sysInstr_settles hruns).trans ?_)
  split at ht
  next hnone =>
    rw [ht]
    exact settle_if_pos hnone
  next hsome =>
    obtain ⟨hcode, rfl⟩ := ht
    rw [settle_if_neg hsome, settle_if_neg (Nat.not_le.2 hcode), sysRuns_aid hruns]
    rfl

theorem halt_completes {b : Opd} (hr : systemRule (.halt h b) s t) : exec (.halt h b) s = .next t := by
  obtain ⟨x0, x, u, v, hruns, hcode, hres, hstreams, rfl⟩ := hr
  refine congrArg Host.Outcome.next ((sysInstr_settles hruns).trans ?_)
  refine (settle_if_neg (Nat.not_le.2 hcode)).trans ?_
  simp only [hres, hstreams, ok_bind]
  rfl

theorem rtt_completes {sw : Bool} (hr : systemRule (.rtt sw) s t) : exec (.rtt sw) s = .next t := by
  obtain ⟨x0, x, u, hruns, hhandler, hres, rfl⟩ := hr
  refine congrArg Host.Outcome.next ((ctlInstr_settles hruns).trans ?_)
  refine (settle_if_neg (by simp [hhandler])).trans ?_
  rw [hres, ok_bind]
  rfl

/-! ### PDONE and CKPT (R334, R335) -/

theorem resume_pc_eq (r : DWord) : (if r.toNat % 8 = 0 ∧ r.toNat < 2 ^ 57 then r.setWidth 57 else 0 : VAddr) =
    if r.toNat % 8 ≠ 0 ∨ 2 ^ 57 ≤ r.toNat then 0 else r.setWidth 57 := by
  rw [← ite_not]
  exact if_congr (by omega) rfl rfl

theorem drains_iff (o : Option PreReq) : o.any (fun r => r.how == .drain) = true ↔ o.map (·.how) = some .drain := by
  cases o <;> simp

theorem pdone_completes {n : Nat} (hr : systemRule (.pdone h n) s t) : exec (.pdone h n) s = .next t := by
  obtain ⟨x0, x, u, v, hruns, hres, hstreams, ht⟩ := hr
  refine congrArg Host.Outcome.next ((sysInstr_settles hruns).trans ?_)
  simp only [hres, hstreams, ok_bind, drains_iff]
  simp only [resume_pc_eq] at ht
  split at ht
  next hdrain => rw [ht]; exact settle_if_pos hdrain
  next hstops => rw [ht]; exact settle_if_neg hstops

theorem ckpt_completes {d : Nat} {b : Opd} (hr : systemRule (.ckpt h d b) s t) : exec (.ckpt h d b) s = .next t := by
  obtain ⟨x0, x, u, v, hruns, hmask, ht⟩ := hr
  refine congrArg Host.Outcome.next ((sysInstr_settles hruns).trans ((settle_if_neg (Nat.not_le.2 hmask)).trans ?_))
  obtain ⟨hhandler | ⟨hwake, hnone⟩, rfl⟩ | ⟨w, hhandler, hwake, rfl⟩ | ⟨hwake, hpending, hhandler, hres, rfl⟩ := ht
  · simp [hhandler]
  · simp [hwake, hnone]
  · simp [hhandler, hwake]
  · simp [hhandler, hwake, hpending, hres]

theorem ckptHint_completes {b : Opd} (hr : systemRule (.ckptHint h b) s t) : exec (.ckptHint h b) s = .next t := by
  obtain ⟨x0, x, u, v, hruns, rfl⟩ := hr
  exact congrArg Host.Outcome.next (sysInstr_settles hruns)

/-! ### ERRD (R330) -/

theorem errd_completes {clr : Bool} {d : Nat} {b : Opd} (hr : systemRule (.errd h clr d b) s t) :
    exec (.errd h clr d b) s = .next t := by
  obtain ⟨x0, x, u, v, hruns, hlanes, hsel, rfl⟩ := hr
  refine congrArg Host.Outcome.next ((sysInstr_settles hruns).trans ((settle_if_neg hlanes).trans ?_))
  refine (settle_if_neg (by omega)).trans ?_
  have hword : v = 0 ∨ v = 1 ∨ v = 2 := by
    have hcases : v.toNat = 0 ∨ v.toNat = 1 ∨ v.toNat = 2 := by omega
    exact hcases.imp BitVec.eq_of_toNat_eq (.imp BitVec.eq_of_toNat_eq BitVec.eq_of_toNat_eq)
  obtain rfl | rfl | rfl := hword <;> rfl

/-! ### TLBI (R313) -/

theorem tlbiCommon_of_forgets {lanes : Mask} {size : Nat} {hit : TlbEntry → Bool} (hf : Forgets u x lanes size hit t) :
    settle s x.aid (tlbiCommon u x lanes size hit) = t := by
  obtain ⟨hstreams, hdone, c, hc, rfl⟩ := hf
  simp only [tlbiCommon, hstreams, hc, ok_bind]
  refine settle_if_neg (c := accessesBefore (setCtx u x.p.ctx _) x.p.ctx (x.a.tlbiAt.getD u.fresh) = true) ?_
  rw [show accessesBefore (setCtx u x.p.ctx _) x.p.ctx (x.a.tlbiAt.getD u.fresh) = false from hdone]
  exact Bool.false_ne_true

theorem tlbiRng_completes {n : Nat} {b : Opd} (hr : systemRule (.tlbiRng h n b) s t) : exec (.tlbiRng h n b) s = .next t := by
  obtain ⟨x0, x, u, v, hruns, hpriv, halign, hsize, hend, hforgets⟩ := hr
  refine congrArg Host.Outcome.next ((sysInstr_settles hruns).trans ((settle_if_neg hpriv).trans ?_))
  refine (settle_if_neg (not_not.2 halign)).trans ((settle_if_neg ?_).trans (tlbiCommon_of_forgets hforgets))
  exact not_or.2 ⟨hsize, Nat.not_lt.2 hend⟩

theorem tlbiAll_completes (hr : systemRule (.tlbiAll h) s t) : exec (.tlbiAll h) s = .next t := by
  obtain ⟨x0, x, u, v, hruns, hpriv, hforgets⟩ := hr
  exact congrArg Host.Outcome.next ((sysInstr_settles hruns).trans ((settle_if_neg hpriv).trans (tlbiCommon_of_forgets hforgets)))

theorem tlbiNg_completes (hr : systemRule (.tlbiNg h) s t) : exec (.tlbiNg h) s = .next t := by
  obtain ⟨x0, x, u, v, hruns, hpriv, hforgets⟩ := hr
  exact congrArg Host.Outcome.next ((sysInstr_settles hruns).trans ((settle_if_neg hpriv).trans (tlbiCommon_of_forgets hforgets)))

end

/-- Settles O16, by the lemma of each instruction. -/
theorem systemInstructionsComplete : Obligations.SystemInstructionsComplete := by
  intro i s t h
  cases i with
  | trap h b => exact trap_completes ‹_›
  | halt h b => exact halt_completes ‹_›
  | rtt sw => exact rtt_completes ‹_›
  | pdone h n => exact pdone_completes ‹_›
  | ckpt h d b => exact ckpt_completes ‹_›
  | ckptHint h b => exact ckptHint_completes ‹_›
  | errd h clr d b => exact errd_completes ‹_›
  | tlbiRng h n b => exact tlbiRng_completes ‹_›
  | tlbiAll h => exact tlbiAll_completes ‹_›
  | tlbiNg h => exact tlbiNg_completes ‹_›
  | _ => exact h.elim

end Sys2Proof.Machine
end

section

namespace Sys2Proof.Machine
open Sys2Proof Sys2Proof.Claims

/-! ## The steps of pre-emption complete (O39) -/

section
variable {s t : State} {who : Requester} {id latency : Nat}

/-! ### Requests (R331, R333-R335) -/

theorem requestHardware_of_option {g : List (Nat × Panel)} {comm : Nat} {c : Comm} {r : PreReq} {bound : Option Nat}
    {how : PreHow} {est : Nat} {miss : Bool} (hopt : chooseOption (options s g c) bound = some (how, est, miss))
    (ht : let q := { r with how := how, miss := if miss then some est else none }
      let s1 := if miss then report s (.boundMiss r.who ((g.head?).elim 0 (·.1)) est none) else s
      (how = .drain ∧ t = setComm (putReqs s1 g q) comm { c with drain := true }) ∨
      (how = .save ∧ ∃ u, giveAreas s1 g c.ctx false (groupSizes s g) q = some u ∧ t = (g.map (·.1)).foldl stopPanel u) ∨
      (how = .flush ∧ t = (g.map (·.1)).foldl stopPanel (putReqs s1 g q))) : requestHardware s g comm c r bound = t := by
  simp only [requestHardware, hopt]
  obtain ⟨rfl, rfl⟩ | ⟨rfl, u, hu, rfl⟩ | ⟨rfl, rfl⟩ := ht
  · rfl
  · simp only [hu, Option.getD_some]
  · rfl

theorem requestGroup_of_requested {g : List (Nat × Panel)} {comm : Nat} {bound : Option Nat}
    (h : Requested s who g comm bound t) : requestGroup s who g comm bound = t := by
  obtain ⟨c, hc, h⟩ := h
  simp only [requestGroup, hc]
  generalize c.record.pmode = mode at h ⊢
  match mode with
  | 0 =>
    obtain ⟨how, est, miss, hopt, ht⟩ := h
    exact requestHardware_of_option hopt ht
  | 1 =>
    obtain ⟨u, hu, rfl⟩ := h
    simp only [requestHandler, hu]
  | _ + 2 => exact h.symm

theorem preemptRequest_completes (h : preemptRule (.preemptRequest who id latency) s t) :
    exec (.preemptRequest who id latency) s = .next t := by
  obtain ⟨p, hp, h⟩ := h
  refine congrArg Host.Outcome.next ?_
  simp only [hp]
  obtain ⟨hnew, hwho, w, hw, rfl⟩ | ⟨hold, hwho, rfl⟩ | ⟨rfl, hpressure, u, hu, rfl⟩ := h
  · rw [if_neg hwho, if_neg (by simp [hnew]), requestGroup_of_requested hw]
  · simp only [hwho, Option.isSome_iff_ne_none.2 hold, if_false, if_true]
  · simp only [hpressure, if_true, pressureSave, hu]

/-! ### Saves (R332, R334, R335, R337) -/

/-- The state in which a stopped panel's Primer is stopped too (R332). -/
def primerStopped (s : State) (p : Panel) : State :=
  match p.primer with
  | some a => stopAgent s a
  | none => s

/-- What PANEL_SAVE does of a stopped panel, its Primer stopped. -/
def saveStopped (s : State) (id : Nat) (p : Panel) (r : PreReq) : State :=
  match r.how, r.keep with
  | .ckpt, none => beginCkpt s id p r
  | how, keep =>
    if !panelQuiet s id p then s
    else match how with
      | .flush => flushPanel s id p
      | .save => savePanel s id p r (fullPlan p 0)
      | .expired => savePanel s id p r (fullPlan p 3)
      | .ckpt => savePanel s id p r (ckptPlan p (keep.getD 0))
      | .handler => finishHandlers s id p r
      | .drain => s

theorem execPanelSave_of_frozen {p : Panel} {r : PreReq} (hp : getPanel s id = some p) (hr : p.req = some r)
    (hfrozen : frozen s id p = true) : execPanelSave id s = .next (saveStopped (primerStopped s p) id p r) := by
  simp only [execPanelSave, hp, hr, hfrozen, Bool.not_true, Bool.false_eq_true, if_false]
  rfl

section
variable {p : Panel} {r : PreReq}

theorem saveStopped_of_flush (hhow : r.how = .flush) (hquiet : panelQuiet s id p = true) :
    saveStopped s id p r = flushPanel s id p := by
  simp [saveStopped, hhow, hquiet]

/-- A save by hardware, or at a checkpoint whose masks are known (R335, R337). -/
theorem saveStopped_of_plan {pl : SavePlan} (hplan : r.how = .save ∧ pl = fullPlan p 0 ∨ r.how = .expired ∧ pl = fullPlan p 3 ∨
      ∃ k, r.how = .ckpt ∧ r.keep = some k ∧ pl = ckptPlan p k) (hquiet : panelQuiet s id p = true) :
    saveStopped s id p r = savePanel s id p r pl := by
  obtain ⟨hhow, rfl⟩ | ⟨hhow, rfl⟩ | ⟨k, hhow, hkeep, rfl⟩ := hplan
  · simp [saveStopped, hhow, hquiet]
  · simp [saveStopped, hhow, hquiet]
  · simp [saveStopped, hhow, hkeep, hquiet]

/-- A fold whose steps count and log errors does so. -/
theorem foldl_counts {α : Type} {f : State → α → State} (h : ∀ s x, CountsErrors s (f s x)) (l : List α) (s : State) :
    CountsErrors s (l.foldl f s) := by
  induction l generalizing s with
  | nil => exact .rfl
  | cons x l ih => exact (h s x).trans (ih _)

/-- The errors that a save meets are counted and logged, which changes nothing else (R348). -/
theorem metSaving_counts (s : State) (p : Panel) (image : Bool) (tiles : List Tile) :
    CountsErrors s (metSaving s p image tiles) := by
  have htiles : ∀ u, CountsErrors u
      ((tiles.filter fun t => t.bad.isSome).foldl (fun t _ => countError t (arraysOf p.core) 0 p.ctx) u) :=
    fun u => foldl_counts (fun _ _ => countError_counts ..) _ u
  cases image with
  | false => exact htiles s
  | true => exact (foldl_counts (fun _ _ => countError_counts ..) _ s).trans (htiles _)

/-- What a save writes of the panel: its area's bytes, with the matrix unit's claim where the plan names it and the panel holds
it. -/
def savedClaim (s : State) (id : Nat) (p : Panel) (pl : SavePlan) : Bool :=
  pl.claim && ((getCore s p.core).matrix.map fun m => m.owner) == some id

def savedBytes (s : State) (id : Nat) (p : Panel) (pl : SavePlan) : List Byte :=
  areaBytes s id p { pl with claim := savedClaim s id p pl }

/-- The state in which a save has its area `a` of the context c, its errors counted. -/
def areaGiven (s : State) (id : Nat) (p : Panel) (r : PreReq) (pl : SavePlan) (c : Ctx) (a : List (Nat × Nat)) : State :=
  let c1 := dropAreas c (r.area.getD [])
  let tiles := ((getCore s p.core).matrix.map fun m =>
    if savedClaim s id p pl then (savedTiles m pl.keep).map (tileOf m) else []).getD []
  setCtx (metSaving s p pl.image tiles) p.ctx { c1 with areas := c1.areas ++ a }

/-- What the device keeps of a panel depends neither on the error counters nor on the contexts. -/
theorem savedOfPanel_areaGiven (pl : SavePlan) (c : Ctx) (a area : List (Nat × Nat)) (size mode keep : Nat)
    (claim image : Bool) (header : List Byte) :
    savedOfPanel (areaGiven s id p r pl c a) id p area size mode keep claim image header =
      savedOfPanel s id p area size mode keep claim image header := by
  dsimp only [areaGiven]
  generalize Option.getD _ _ = tiles
  obtain ⟨counts, log, lost, base, hmet⟩ := metSaving_counts s p pl.image tiles
  rw [hmet]
  rfl

/-- A save whose area has room puts the panel aside (R337). -/
theorem savePanel_of_room {pl : SavePlan} {c : Ctx} {a : List (Nat × Nat)} (hc : getCtx s p.ctx = some c)
    (hroom : saveRoom c (r.area.getD []) (savedBytes s id p pl).length = some a) :
    savePanel s id p r pl =
      let s1 := areaGiven s id p r pl c a
      let bs := savedBytes s id p pl
      putAside s1 id p (savedOfPanel s1 id p a bs.length pl.mode pl.keep (savedClaim s id p pl) pl.image (bs.take 256))
        [(0, bs)] := by
  dsimp only
  rw [savedOfPanel_areaGiven]
  dsimp only [savedBytes, savedClaim] at hroom
  simp only [savePanel, hc, hroom]
  rfl

theorem saveStopped_of_handler (hhow : r.how = .handler) (hquiet : panelQuiet s id p = true) :
    saveStopped s id p r = finishHandlers s id p r := by
  simp [saveStopped, hhow, hquiet]

theorem saveStopped_of_ckpt (hhow : r.how = .ckpt) (hkeep : r.keep = none) : saveStopped s id p r = beginCkpt s id p r := by
  simp [saveStopped, hhow, hkeep]

end

theorem panelSave_completes (h : preemptRule (.panelSave id) s t) : exec (.panelSave id) s = .next t := by
  obtain ⟨p, r, hp, hr, hfrozen, h⟩ := h
  refine (execPanelSave_of_frozen hp hr hfrozen).trans (congrArg Host.Outcome.next ?_)
  obtain ⟨hhow, hquiet, rfl⟩ | ⟨pl, hplan, hquiet, c, a, hc, hroom, rfl⟩ | ⟨hhow, hquiet, hareas, rfl⟩ | ⟨hhow, hkeep, hareas⟩ := h
  · exact saveStopped_of_flush hhow hquiet
  · exact (saveStopped_of_plan hplan hquiet).trans (savePanel_of_room hc hroom)
  · refine (saveStopped_of_handler hhow hquiet).trans (if_pos (List.all_eq_true.2 fun q hq => ?_))
    exact Option.isSome_iff_exists.2 (hareas q hq)
  · exact (saveStopped_of_ckpt hhow hkeep).trans (congrArg (Option.getD · _) hareas)

/-! ### The bound of a request, and restores (R334, R336) -/

theorem preemptBoundExpiry_completes (h : preemptRule (.preemptBoundExpiry id) s t) :
    exec (.preemptBoundExpiry id) s = .next t := by
  obtain ⟨p, r, d, u, hp, hr, hd, hlate, hhow, hruns, hu, rfl⟩ := h
  refine congrArg Host.Outcome.next ?_
  have hmode : (r.how != .handler && r.how != .ckpt) = false := by
    obtain hhow | hhow := hhow <;> rw [hhow] <;> rfl
  have hpassed : (r.deadline.any fun d => decide (d < s.cycle)) = true := by simp [hd, hlate]
  simp only [hp, hr, hpassed, hmode, hruns, hu, Bool.not_true, Bool.or_false, Bool.false_eq_true, if_false]

theorem panelRestore_completes (h : preemptRule (.panelRestore id) s t) : exec (.panelRestore id) s = .next t := by
  obtain ⟨v, core, c, x, hv, hcore, hc, hx, hclaim, hclean, hgood, rfl⟩ := h
  refine congrArg Host.Outcome.next ?_
  have hfree : (v.claim && (getCore s core).matrix.isSome) = false := by
    cases hclaimed : v.claim with
    | false => rfl
    | true => rw [hclaim hclaimed]; rfl
  simp only [hv, hcore, hc, hx, hfree, hclean, hgood, Bool.false_eq_true, if_false, Bool.not_true, Option.isSome_none, or_self]

end

/-- Settles O39, by the lemma of each step. -/
theorem preemptionStepsComplete : Obligations.PreemptionStepsComplete := by
  intro i s t h
  cases i with
  | preemptRequest who id latency => exact preemptRequest_completes h
  | panelSave id => exact panelSave_completes h
  | preemptBoundExpiry id => exact preemptBoundExpiry_completes h
  | panelRestore id => exact panelRestore_completes h
  | _ => exact h.elim

end Sys2Proof.Machine
end

section

namespace Sys2Proof.Machine
open Sys2Proof Sys2Proof.Claims

/-! ## Trap entry (O55, O56)

`enterTrap` of an agent with no outstanding result and no late fault, whose vector is not awaited, counts the error that the
trap met and then stops the Primer, stops the agent, or enters the handler. -/

/-! ### Counting an error changes nothing that a trap looks at -/

section
variable {s u : State} (h : CountsErrors s u)
include h

theorem CountsErrors.mem : u.mem = s.mem := by obtain ⟨_, _, _, _, rfl⟩ := h; rfl

theorem CountsErrors.events : u.events = s.events := by obtain ⟨_, _, _, _, rfl⟩ := h; rfl

theorem CountsErrors.getAgent (n : Nat) : getAgent u n = getAgent s n := by obtain ⟨_, _, _, _, rfl⟩ := h; rfl

theorem CountsErrors.getStroke (n : Nat) : getStroke u n = getStroke s n := by obtain ⟨_, _, _, _, rfl⟩ := h; rfl

theorem CountsErrors.getPanel (n : Nat) : getPanel u n = getPanel s n := by obtain ⟨_, _, _, _, rfl⟩ := h; rfl

theorem CountsErrors.agentPlace (a : Agent) : agentPlace u a = agentPlace s a := by obtain ⟨_, _, _, _, rfl⟩ := h; rfl

theorem CountsErrors.agentTvbase (a : Agent) : agentTvbase u a = agentTvbase s a := by obtain ⟨_, _, _, _, rfl⟩ := h; rfl

theorem CountsErrors.fetchWord (ctx pc : Nat) : fetchWord u ctx pc = fetchWord s ctx pc := by
  obtain ⟨_, _, _, _, rfl⟩ := h
  rfl

end

/-! ### What entry does once nothing is waited for (R324-R327) -/

/-- The agent in its handler's first instruction, `vec`, with its trap registers written (R324). -/
def inHandler (a : Agent) (t : Trap) (vec : Nat) : Agent :=
  { a with
    tcause := BitVec.ofNat 64 (t.cause.code + 2 ^ 8 * a.priv + (if a.meld then 2 ^ 10 else 0) + (if a.frag then 2 ^ 11 else 0))
    tpc := a.pc.setWidth 64, taddr := taddrOf t, tlane0 := t.lanes.setWidth 64, tlane1 := (t.lanes >>> 64).setWidth 64
    taux := t.aux, meldHeld := a.meld, meld := false, staged := [], handler := true, byPreempt := decide (t.cause = .preempt)
    hazV := 0, hazS := 0, hazK := 0, late := none, run := .ready, waitFrom := none
    prePend := if t.cause = .preempt then false else a.prePend, pc := BitVec.ofNat 57 vec }

/-- The address of a trap's vector (R324). -/
def vectorOf (s : State) (a : Agent) (t : Trap) : Nat := (agentTvbase s a).toNat + 8 * t.cause.code

/-- The agent whose owed trap is being entered. -/
def owesNone (a : Agent) : Agent := { a with owed := none }

/-- What an agent does with the trap that it takes. -/
def takeTrap (s : State) (aid : Nat) (a : Agent) (t : Trap) : State :=
  if a.primer then primerFault s aid a t
  else if a.handler then doubleFault s aid a t
  else if agentTvbase s a = 0 then doubleFault s aid a t
  else match fetchWord s (agentCtx s a) (vectorOf s a t) with
    | .error e => doubleFault (countMet s (agentCtx s a) e) aid a t
    | .ok _ => clearStreams (setAgent s aid (inHandler a t (vectorOf s a t))) a.stroke t

section
variable {s : State} {aid : Nat} {a : Agent} {t : Trap}

theorem enterTrap_of_ready (ha : getAgent s aid = some a) (hres : hasResults s aid = false)
    (hvec : vectorAwaited s a (firstTrap a t) = false) : enterTrap s aid t =
      takeTrap (countMet s (agentCtx s a) (firstTrap a t)) aid (owesNone a) (firstTrap a t) := by
  simp only [enterTrap, ha, hres, hvec, Bool.false_eq_true, if_false]
  rfl

/-- With a result outstanding, entry waits as if S were set (R324). -/
theorem enterTrap_of_results (ha : getAgent s aid = some a) (hres : hasResults s aid = true) :
    enterTrap s aid t = setAgent s aid { a with run := .parked ⟨.results, s.cycle⟩, owed := some t } := by
  simp only [enterTrap, ha, hres, if_true]

theorem firstTrap_of_no_late (hlate : a.late = none) : firstTrap a t = t := by
  simp only [firstTrap, hlate]

/-! #### The vector is not waited for -/

/-- The Primer has no vector, and a handler takes none (R325, R327). -/
theorem vectorAwaited_of_stopping (h : a.primer = true ∨ a.handler = true ∨ agentTvbase s a = 0) :
    vectorAwaited s a t = false := by
  obtain h | h | h := h <;> simp [vectorAwaited, h]

theorem vectorAwaited_of_error {e : Trap} (h : fetchWord s (agentCtx s a) (vectorOf s a t) = .error e)
    (hcause : e.cause ≠ .acktimeout) : vectorAwaited s a t = false := by
  rw [vectorOf] at h
  simp [vectorAwaited, h, hcause]

theorem vectorAwaited_of_ok {w : DWord} (h : fetchWord s (agentCtx s a) (vectorOf s a t) = .ok w) :
    vectorAwaited s a t = false := by
  rw [vectorOf] at h
  simp [vectorAwaited, h]

/-! #### The agent is stopped (R325, R327) -/

theorem doubleFault_of_place {ctx tag panel stroke : Nat} (hplace : agentPlace s a = (ctx, tag, panel, stroke)) :
    doubleFault s aid a t = report (setAgent s aid { a with run := .stopped, late := none })
      (.doubleFault (if a.handler then some (a.tcause.toNat % 256) else none) t.cause.code ctx tag panel stroke a.pc) := by
  simp only [doubleFault, hplace]

/-- The trap registers of a Primer that a trap has stopped (R327). -/
def primerStop (a : Agent) (t : Trap) : Agent :=
  { a with run := .stopped, late := none, taddr := taddrOf t, taux := t.aux, tcause := BitVec.ofNat 64 t.cause.code }

theorem primerFault_agent : getAgent (primerFault s aid a t) aid = some (primerStop a t) := by
  unfold primerFault
  dsimp only
  (repeat' split) <;> exact tabGet_tabPut_self ..

theorem primerFault_events {ctx tag panel stroke : Nat} (hplace : agentPlace s a = (ctx, tag, panel, stroke)) :
    (primerFault s aid a t).events = s.events ++ [.primerStop t.cause.code ctx tag panel a.pc] := by
  unfold primerFault
  rw [hplace]
  dsimp only
  (repeat' split) <;> rfl

theorem primerFault_panel {st : Stroke} {p : Panel} (hst : getStroke s a.stroke = some st) (hp : getPanel s st.panel = some p) :
    getPanel (primerFault s aid a t) st.panel = some { p with primerState := t.cause.code } := by
  unfold primerFault
  simp [hst, hp]

theorem takeTrap_of_handler (hprimer : a.primer = false) (hhandler : a.handler = true) :
    takeTrap s aid a t = doubleFault s aid a t := by
  simp [takeTrap, hprimer, hhandler]

theorem takeTrap_of_no_vector (hprimer : a.primer = false)
    (hvec : agentTvbase s a = 0 ∨ ∃ e, fetchWord s (agentCtx s a) (vectorOf s a t) = .error e) :
    ∃ u, CountsErrors s u ∧ takeTrap s aid a t = doubleFault u aid a t := by
  by_cases hstop : a.handler = true ∨ agentTvbase s a = 0
  · refine ⟨s, .rfl, ?_⟩
    obtain h | h := hstop <;> simp [takeTrap, hprimer, h]
  · obtain ⟨hhandler, htv⟩ := not_or.1 hstop
    obtain ⟨e, he⟩ := hvec.resolve_left htv
    refine ⟨countMet s (agentCtx s a) e, countMet_counts .., ?_⟩
    rw [takeTrap, if_neg (by simp [hprimer]), if_neg hhandler, if_neg htv, he]

theorem takeTrap_of_primer (hprimer : a.primer = true) : takeTrap s aid a t = primerFault s aid a t := if_pos hprimer

/-! #### The handler is entered (R324) -/

theorem takeTrap_of_vector (hprimer : a.primer = false) (hhandler : a.handler = false) (htv : agentTvbase s a ≠ 0) {w : DWord}
    (hw : fetchWord s (agentCtx s a) (vectorOf s a t) = .ok w) :
    takeTrap s aid a t = clearStreams (setAgent s aid (inHandler a t (vectorOf s a t))) a.stroke t := by
  rw [takeTrap, if_neg (by simp [hprimer]), if_neg (by simp [hhandler]), if_neg htv, hw]

theorem clearStreams_agents (s : State) (k : Nat) (t : Trap) : (clearStreams s k t).agents = s.agents := by
  unfold clearStreams
  split <;> rfl

theorem clearStreams_stroke {n k : Nat} {q : Stroke} (h : getStroke s n = some q) :
    ∃ q2, getStroke (clearStreams s k t) n = some q2 ∧ q2.vregs = q.vregs ∧ q2.fpst = q.fpst := by
  unfold clearStreams
  split
  · exact ⟨q, h, rfl, rfl⟩
  · next r hr =>
    by_cases hn : n = k
    · subst hn
      cases hr.symm.trans h
      exact ⟨_, tabGet_tabPut_self .., rfl, rfl⟩
    · exact ⟨q, (tabGet_tabPut_of_ne _ _ hn).trans h, rfl, rfl⟩

end

/-! ### Traps in handler state, without a vector, and of the Primer (R325, R327) -/

section
variable {s : State} {aid : Nat} {a : Agent} {t : Trap} {ctx tag panel stroke : Nat}

/-- A trap that the agent takes at once, in a state that differs in the error counters alone. -/
theorem enterTrap_takes (ha : getAgent s aid = some a) (hres : hasResults s aid = false) (hlate : a.late = none)
    (hvec : vectorAwaited s a t = false) : ∃ u, CountsErrors s u ∧ enterTrap s aid t = takeTrap u aid (owesNone a) t := by
  have hfirst : firstTrap a t = t := firstTrap_of_no_late hlate
  have hready := enterTrap_of_ready (t := t) ha hres (by rw [hfirst]; exact hvec)
  rw [hfirst] at hready
  exact ⟨_, countMet_counts .., hready⟩

/-- The vector is the same with the trap's error counted. -/
theorem vector_of_counts {u : State} (h : CountsErrors s u) : agentTvbase u (owesNone a) = agentTvbase s a ∧
    vectorOf u (owesNone a) t = vectorOf s a t ∧ fetchWord u (agentCtx u (owesNone a)) (vectorOf u (owesNone a) t) =
      fetchWord s (agentCtx s a) (vectorOf s a t) := by
  obtain ⟨_, _, _, _, rfl⟩ := h
  exact ⟨rfl, rfl, rfl⟩

/-- In handler state, and where the vector is absent or cannot be fetched, the agent stops (R325). -/
theorem enterTrap_stops (ha : getAgent s aid = some a) (hres : hasResults s aid = false) (hlate : a.late = none)
    (hprimer : a.primer = false) (hstop : a.handler = true ∨ agentTvbase s a = 0 ∨
      ∃ e, fetchWord s (agentCtx s a) (vectorOf s a t) = .error e ∧ e.cause ≠ .acktimeout) :
    ∃ u, CountsErrors s u ∧ enterTrap s aid t = doubleFault u aid (owesNone a) t := by
  obtain hhandler | hvec := hstop
  · obtain ⟨u, hu, he⟩ := enterTrap_takes (t := t) ha hres hlate (vectorAwaited_of_stopping (.inr (.inl hhandler)))
    exact ⟨u, hu, he.trans (takeTrap_of_handler hprimer hhandler)⟩
  · have hwait : vectorAwaited s a t = false := hvec.elim (fun htv => vectorAwaited_of_stopping (.inr (.inr htv)))
      fun ⟨_, he, hcause⟩ => vectorAwaited_of_error he hcause
    obtain ⟨u, hu, he⟩ := enterTrap_takes (t := t) ha hres hlate hwait
    obtain ⟨htv, -, hfetch⟩ := vector_of_counts (a := a) (t := t) hu
    obtain ⟨w, hw, htake⟩ := takeTrap_of_no_vector (s := u) (aid := aid) (a := owesNone a) (t := t) hprimer <| by
      rw [htv, hfetch]
      exact hvec.imp id fun ⟨e, he, _⟩ => ⟨e, he⟩
    exact ⟨w, hu.trans hw, he.trans htake⟩

/-- The agent that stops so keeps its trap registers, and its causes are reported (R325). -/
theorem enterTrap_stopped (ha : getAgent s aid = some a) (hres : hasResults s aid = false) (hlate : a.late = none)
    (hprimer : a.primer = false) (hstop : a.handler = true ∨ agentTvbase s a = 0 ∨
      ∃ e, fetchWord s (agentCtx s a) (vectorOf s a t) = .error e ∧ e.cause ≠ .acktimeout)
    (hplace : agentPlace s a = (ctx, tag, panel, stroke)) :
    getAgent (enterTrap s aid t) aid = some { owesNone a with run := .stopped, late := none } ∧
    (enterTrap s aid t).events = s.events ++
      [.doubleFault (if a.handler then some (a.tcause.toNat % 256) else none) t.cause.code ctx tag panel stroke a.pc] := by
  obtain ⟨u, hu, he⟩ := enterTrap_stops ha hres hlate hprimer hstop
  have hplace' : agentPlace u (owesNone a) = (ctx, tag, panel, stroke) := (hu.agentPlace _).trans hplace
  rw [he, doubleFault_of_place hplace', ← hu.events]
  exact ⟨tabGet_tabPut_self .., rfl⟩

end

/-- Settles O56: an agent that stops without entry (`enterTrap_stopped`), and the Primer, by the parts of `primerFault`. -/
theorem handlerAndPrimerTraps : Obligations.HandlerAndPrimerTraps := by
  intro s aid a t ctx tag panel stroke ha hres hlate hplace
  refine ⟨enterTrap_mem .., fun hprimer hhandler => ?_, fun hprimer hhandler hvec => ?_, fun hprimer => ?_⟩
  · obtain ⟨hb, hevents⟩ := enterTrap_stopped (t := t) ha hres hlate hprimer (.inl hhandler) hplace
    rw [hhandler] at hevents
    exact ⟨_, hb, rfl, rfl, rfl, rfl, rfl, rfl, rfl, rfl, hevents⟩
  · obtain ⟨hb, hevents⟩ := enterTrap_stopped (t := t) ha hres hlate hprimer (.inr hvec) hplace
    rw [hhandler] at hevents
    exact ⟨_, hb, rfl, rfl, rfl, hhandler, hevents⟩
  · obtain ⟨u, hu, he⟩ := enterTrap_takes (t := t) ha hres hlate (vectorAwaited_of_stopping (.inl hprimer))
    have hplace' : agentPlace u (owesNone a) = (ctx, tag, panel, stroke) := (hu.agentPlace _).trans hplace
    have hfault : enterTrap s aid t = primerFault u aid (owesNone a) t := he.trans (takeTrap_of_primer hprimer)
    rw [hfault, primerFault_events hplace', hu.events]
    refine ⟨_, primerFault_agent, rfl, rfl, rfl, rfl, rfl, fun st p hst hp => ?_⟩
    have hst' : getStroke u (owesNone a).stroke = some st := (hu.getStroke _).trans hst
    exact ⟨_, primerFault_panel hst' ((hu.getPanel _).trans hp), rfl⟩

end Sys2Proof.Machine
end

section

namespace Sys2Proof.Machine
open Sys2Proof Sys2Proof.Claims

/-! ## PERM of a TLBI and ALIGN of a memory access (O59)

ALIGN ranks before every other cause that an address gives (R322), and no translation gives it: so an instruction with a
misaligned access raises it, whatever its other accesses meet. -/

/-! ### The causes that a translation gives (R309-R311) -/

/-- What a translation or its page's rights can answer. -/
def IsAddressCause (c : Cause) : Prop := c = .dataerr ∨ c = .xlate ∨ c = .perm

theorem IsAddressCause.ne_align {c : Cause} (h : IsAddressCause c) : c ≠ .align := by
  obtain rfl | rfl | rfl := h <;> exact fun h => nomatch h

theorem walk_cause {m : Memory} {bad : List Nat} {va : Nat} {e : AddrFault} : ∀ {fuel lvl tbl : Nat} {tenant : Bool},
    walk m bad va fuel lvl tbl tenant = .error e → IsAddressCause e.1
  | 0, _, _, _, h => by cases h; exact .inr (.inl rfl)
  | fuel + 1, lvl, tbl, tenant, h => by
    unfold walk at h
    dsimp only at h
    split at h
    · cases h; exact .inl rfl
    split at h
    · cases h; exact .inr (.inl rfl)
    split at h
    · split at h
      · cases h; exact .inr (.inl rfl)
      · exact walk_cause h
    (repeat' split at h) <;> cases h <;> exact .inr (.inl rfl)

theorem translate_cause {s : State} {ctx va : Nat} {e : AddrFault} (h : translate s ctx va = .error e) :
    IsAddressCause e.1 := by
  unfold translate at h
  dsimp only at h
  split at h
  · cases h; exact .inr (.inl rfl)
  split at h
  · split at h <;> cases h
    exact .inr (.inl rfl)
  split at h
  · cases h; exact .inr (.inl rfl)
  split at h
  · cases h
  split at h
  · next hwalk => cases h; exact walk_cause hwalk
  · split at h <;> cases h
    exact .inr (.inl rfl)

theorem accessByte_cause {s : State} {ctx va : Nat} {nd : Need} {e : AddrFault} (h : accessByte s ctx va nd = .error e) :
    IsAddressCause e.1 := by
  unfold accessByte at h
  split at h
  · next ht => cases h; exact translate_cause ht
  · dsimp only at h
    split at h
    · cases h; exact .inr (.inl rfl)
    · cases h; exact .inr (.inl rfl)
    · split at h <;> cases h
      exact .inr (.inr rfl)

theorem firstFault_eq (a b : AddrFault) : firstFault a b = a ∨ firstFault a b = b := by
  unfold firstFault
  split
  · exact .inr rfl
  · exact .inl rfl

theorem accessSegs_cause {s : State} {ctx : Nat} {nd : Need} {e : AddrFault} : ∀ {fuel va n : Nat},
    accessSegs s ctx nd fuel va n = .error e → IsAddressCause e.1
  | 0, _, _, h => nomatch h
  | fuel + 1, va, n, h => by
    unfold accessSegs at h
    dsimp only at h
    split at h
    · cases h
    split at h
    · cases h
    · next hrest => cases h; exact accessSegs_cause hrest
    · next hbyte _ => cases h; exact accessByte_cause hbyte
    · next f g hbyte hrest =>
      cases h
      obtain hf | hf := firstFault_eq f g <;> rw [hf]
      · exact accessByte_cause hbyte
      · exact accessSegs_cause hrest

/-! ### Misaligned accesses (R167, R322) -/

/-- An access whose address is no multiple of its alignment. -/
def misaligned (c : Acc) : Bool := decide (c.addr % (c.align : Int) ≠ 0)

theorem causeRank_eq_zero {c : Cause} : causeRank c = 0 ↔ c = .align := by
  cases c <;> simp [causeRank]

section
variable {s : State} {ctx : Nat} {nd : Need} {c : Acc}

theorem placeAcc_of_misaligned (h : misaligned c = true) : placeAcc s ctx nd c = .error (.align, 0) :=
  if_pos (of_decide_eq_true h)

theorem placeAcc_cause {e : AddrFault} (hc : misaligned c = false) (h : placeAcc s ctx nd c = .error e) : e.1 ≠ .align := by
  unfold placeAcc at h
  rw [if_neg (of_decide_eq_false hc)] at h
  split at h
  · cases h; exact fun h => nomatch h
  · split at h <;> cases h
    next hsegs => exact (accessSegs_cause hsegs).ne_align

theorem addrFaults_of_misaligned (cs : List Acc) (h : misaligned c = true) :
    addrFaults s ctx nd (c :: cs) = (c, (.align, 0)) :: addrFaults s ctx nd cs := by
  simp only [addrFaults, List.filterMap_cons, placeAcc_of_misaligned h]

/-- An aligned access adds no ALIGN fault. -/
theorem addrFaults_of_aligned (cs : List Acc) (h : misaligned c = false) :
    addrFaults s ctx nd (c :: cs) = addrFaults s ctx nd cs ∨
    ∃ e : AddrFault, e.1 ≠ .align ∧ addrFaults s ctx nd (c :: cs) = (c, e) :: addrFaults s ctx nd cs := by
  cases hp : placeAcc s ctx nd c with
  | error e => exact .inr ⟨e, placeAcc_cause h hp, by simp only [addrFaults, List.filterMap_cons, hp]⟩
  | ok p => exact .inl (by simp only [addrFaults, List.filterMap_cons, hp])

/-- The faults that rank first are those of the misaligned accesses. -/
theorem addrFaults_find_align (cs : List Acc) : ((addrFaults s ctx nd cs).find? fun e => causeRank e.2.1 == 0) =
    (cs.find? misaligned).map fun c => (c, (.align, 0)) := by
  induction cs with
  | nil => rfl
  | cons c cs ih =>
    cases hc : misaligned c with
    | true => simp [addrFaults_of_misaligned cs hc, hc, causeRank]
    | false =>
      obtain h | ⟨e, he, h⟩ := addrFaults_of_aligned (s := s) (ctx := ctx) (nd := nd) cs hc
      · simp [h, hc, ih]
      · simp [h, hc, ih, causeRank_eq_zero, he]

theorem addrFaults_any_align (cs : List Acc) (p : Acc → Bool) :
    ((addrFaults s ctx nd cs).any fun e => p e.1 && e.2.1 == .align) = (cs.filter misaligned).any p := by
  induction cs with
  | nil => rfl
  | cons c cs ih =>
    cases hc : misaligned c with
    | true => simp [addrFaults_of_misaligned cs hc, hc, ih]
    | false =>
      obtain h | ⟨e, he, h⟩ := addrFaults_of_aligned (s := s) (ctx := ctx) (nd := nd) cs hc
      · simp [h, hc, ih]
      · simp [h, hc, ih, he]

theorem faultLanes_align (x : Ctxt) (lanes : Mask) (sh : Share) (cs : List Acc) :
    faultLanes x lanes sh (addrFaults s ctx nd cs) .align = wrongLanes x lanes sh (cs.filter misaligned) := by
  cases sh with
  | one => rfl
  | lane => exact congrArg (maskOf x.w) (funext fun l => addrFaults_any_align cs fun a => a.lane == l)
  | group => exact congrArg (lanes &&& maskOf x.w ·) (funext fun l => addrFaults_any_align cs fun a => a.lane == l / 32)

end

/-- The best rank is 0 where one fault has it. -/
theorem foldl_rank_eq_zero {l : List (Acc × AddrFault)} {e : Acc × AddrFault} (he : e ∈ l) (h0 : causeRank e.2.1 = 0)
    (r : Nat) :
    l.foldl (fun r e => min r (causeRank e.2.1)) r = 0 := by
  have hzero : ∀ l : List (Acc × AddrFault), l.foldl (fun r e => min r (causeRank e.2.1)) 0 = 0 := fun l => by
    induction l with
    | nil => rfl
    | cons _ _ ih => simpa using ih
  induction l generalizing r with
  | nil => cases he
  | cons f l ih =>
    obtain rfl | he := List.mem_cons.1 he
    · simp [h0, hzero]
    · exact ih he _

/-- The trap of an instruction whose first misaligned access is `c`. -/
def alignTrap (x : Ctxt) (lanes : Mask) (sh : Share) (cs : List Acc) (c : Acc) : Trap :=
  { cause := .align, addr := BitVec.ofInt 64 c.addr, lanes := wrongLanes x lanes sh (cs.filter misaligned) }

theorem placeAll_of_misaligned {u : State} {x : Ctxt} {cs : List Acc} {c : Acc} (hc : cs.find? misaligned = some c)
    (lanes : Mask) (sh : Share) (nd : Need) : placeAll u x lanes sh nd cs = .error (.trap (alignTrap x lanes sh cs c)) := by
  have hfind := addrFaults_find_align (s := u) (ctx := x.p.ctx) (nd := nd) cs
  rw [hc] at hfind
  have hbest := foldl_rank_eq_zero (List.mem_of_find?_eq_some hfind) rfl 5
  simp only [placeAll, worstFault, hbest, hfind, Option.map_some, faultLanes_align]
  rfl

/-! ### A memory instruction with a misaligned access traps before any effect (R20) -/

/-- An instruction whose description begins with placing its accesses. -/
theorem memInstr_of_misaligned {s u : State} {h : Hdr} {pl : Place} {m : MAddr} {extra : List Src} {dsts : List Ref}
    {straddle : Option (Nat × Nat)} {push : Option Nat} {x0 x : Ctxt} {vs : List (Nat → Nat)} {sh : Share} {nd : Need}
    {cs : List Acc} {c : Acc} {body : State → Ctxt → Mask → List Src → List (Nat → Nat) → Eff State}
    {k : List Placed → Eff State} (hruns : MemRuns s h pl m extra dsts straddle push x0 x u vs)
    (hc : cs.find? misaligned = some c) (hbody : body u x (activeMask x0.a h.km) (addrSrcs h m ++ extra) vs =
      placeAll u x (activeMask x0.a h.km) sh nd cs >>= k) :
    memInstr s h pl m extra dsts straddle push body = enterTrap s x0.aid (alignTrap x (activeMask x0.a h.km) sh cs c) := by
  obtain ⟨hx, hg⟩ := hruns
  rw [memInstr_of_gather body hx hg, hbody, placeAll_of_misaligned hc]
  rfl

/-- A place that is equal by what the operands are. -/
theorem memRuns_at_place {s u : State} {h : Hdr} {pl pl' : Place} {m : MAddr} {extra : List Src} {dsts : List Ref}
    {straddle : Option (Nat × Nat)} {push : Option Nat} {x0 x : Ctxt} {vs : List (Nat → Nat)}
    (hruns : MemRuns s h pl m extra dsts straddle push x0 x u vs) (hpl : pl' = pl) :
    MemRuns s h pl' m extra dsts straddle push x0 x u vs := hpl ▸ hruns

theorem mxAccs_align {m : MAddr} {vs : List (Nat → Nat)} {f : MxFmt} {split : Bool} {g : Nat} :
    ∀ a ∈ mxAccs m vs f split g, a.align = 1 := by
  unfold mxAccs
  cases split <;> simp

/-- LDMX and STMX need no alignment (R173). -/
theorem mxOp_align {h : Hdr} {f : MxFmt} {split : Bool} {d : Nat} {m : MAddr} {o : AccessOp}
    (ho : accessOp (.ldmx h f split d m) = some o ∨ accessOp (.stmx h f split d m) = some o)
    (x : Ctxt) (lanes : Mask) (vs : List (Nat → Nat)) : ∀ a ∈ o.accs x lanes vs, a.align = 1 := by
  intro a ha
  have haccs : o.accs x lanes vs = ((mxGroups x lanes).map (mxAccs m vs f split)).flatten := by
    obtain h | h := ho <;> cases h <;> rfl
  rw [haccs] at ha
  obtain ⟨l, hl, hal⟩ := List.mem_flatten.1 ha
  obtain ⟨g, -, rfl⟩ := List.mem_map.1 hl
  exact mxAccs_align a hal

/-- So none of their accesses is misaligned. -/
theorem mxOp_not_misaligned {h : Hdr} {f : MxFmt} {split : Bool} {d : Nat} {m : MAddr} {o : AccessOp} {x : Ctxt} {lanes : Mask}
    {vs : List (Nat → Nat)} {c : Acc}
    (ho : accessOp (.ldmx h f split d m) = some o ∨ accessOp (.stmx h f split d m) = some o)
    (hc : (o.accs x lanes vs).find? misaligned = some c) : False := by
  have halign := mxOp_align ho x lanes vs c (List.mem_of_find?_eq_some hc)
  have hwrong := List.find?_some hc
  simp [misaligned, halign] at hwrong

section
variable {s u : State} {o : AccessOp} {x0 x : Ctxt} {vs : List (Nat → Nat)} {c : Acc}

/-- LD, LDG, ST, SCT, RED, ATOM, ACAS and RED.ret with a misaligned access (R167). -/
theorem exec_of_misaligned {i : Instr} (ho : accessOp i = some o)
    (hruns : MemRuns s o.h o.pl o.m o.extra o.dsts o.straddle o.push x0 x u vs)
    (hlanes : activeMask x0.a o.h.km ≠ 0 ∨ o.push.isSome = true)
    (hc : (o.accs x (activeMask x0.a o.h.km) vs).find? misaligned = some c) :
    exec i s = .next (enterTrap s x0.aid
      (alignTrap x (activeMask x0.a o.h.km) o.share (o.accs x (activeMask x0.a o.h.km) vs) c)) := by
  cases i with
  | ld h wid sx d m =>
    cases d with
    | v n =>
      cases ho
      exact congrArg Host.Outcome.next (memInstr_of_misaligned (memRuns_at_place hruns (congrArg memPlace (Bool.and_false _))) hc
        (if_neg (by simpa [pushOf] using hlanes)))
    | s n =>
      cases ho
      exact congrArg Host.Outcome.next (memInstr_of_misaligned (memRuns_at_place hruns (congrArg memPlace (Bool.and_true _))) hc
        (if_neg (by simpa [pushOf] using hlanes)))
    | push ch =>
      cases ho
      exact congrArg Host.Outcome.next (memInstr_of_misaligned (memRuns_at_place hruns (congrArg memPlace (Bool.and_true _))) hc
        (if_neg (by simp [pushOf])))
  | ldg h w d m =>
    cases ho
    exact congrArg Host.Outcome.next (memInstr_of_misaligned hruns hc (if_neg (hlanes.resolve_right Bool.false_ne_true)))
  | st h wid d m =>
    cases ho
    exact congrArg Host.Outcome.next (memInstr_of_misaligned hruns hc (if_neg (hlanes.resolve_right Bool.false_ne_true)))
  | sct h wid op d m =>
    cases ho
    exact congrArg Host.Outcome.next (memInstr_of_misaligned hruns hc (if_neg (hlanes.resolve_right Bool.false_ne_true)))
  | atom h wid op sgn d m =>
    cases ho
    exact congrArg Host.Outcome.next (memInstr_of_misaligned hruns hc (if_neg (hlanes.resolve_right Bool.false_ne_true)))
  | red h wid op sgn ret d m =>
    cases ret <;> cases ho <;>
      exact congrArg Host.Outcome.next (memInstr_of_misaligned hruns hc (if_neg (hlanes.resolve_right Bool.false_ne_true)))
  | acas h wid d m =>
    cases d with
    | v k =>
      cases ho
      exact congrArg Host.Outcome.next (memInstr_of_misaligned (memRuns_at_place hruns (congrArg memPlace (Bool.and_false _))) hc
        (if_neg (hlanes.resolve_right Bool.false_ne_true)))
    | s k =>
      cases ho
      exact congrArg Host.Outcome.next (memInstr_of_misaligned (memRuns_at_place hruns (congrArg memPlace (Bool.and_true _))) hc
        (if_neg (hlanes.resolve_right Bool.false_ne_true)))
    | push ch => cases ho
  | ldmx h f split d m => exact (mxOp_not_misaligned (.inl ho) hc).elim
  | stmx h f split d m => exact (mxOp_not_misaligned (.inr ho) hc).elim
  | _ => exact nomatch ho

end

/-! ### A TLBI at U (R313) -/

/-- Where the checks pass, a system instruction at privilege 0 that only M may perform raises PERM. -/
theorem sysInstr_perm {s u : State} {h : Hdr} {pl : Place} {reads : List Ref} {b : List Opd} {runs : Agent → Bool}
    {masked : Bool} {x0 x : Ctxt} {v : DWord} {body : State → Ctxt → Mask → DWord → Eff State} (hx : theCtxt s = some x0)
    (hg : sysGather s x0 h pl reads b runs masked = .ok (u, x, v)) (hpriv : x.a.priv = 0) :
    sysInstr s h pl reads b (fun t y lanes w => if y.a.priv = 0 then trapAt .perm lanes else body t y lanes w) runs masked =
      enterTrap s x0.aid { cause := .perm, lanes := activeMask x0.a h.km } := by
  rw [sysInstr_of_gather _ hx hg, settle_if_pos hpriv]
  rfl

/-- Settles O59: `sysInstr_perm`, `exec_of_misaligned` and `mxOp_align`. -/
theorem privilegeAndAlignmentTraps : Obligations.PrivilegeAndAlignmentTraps := by
  refine ⟨fun i s u h reads b x0 x v hi hx hg hpriv => ?_, fun i s u o x0 x vs c ho hruns => ?_,
    fun h f split d m o ho => mxOp_align ho⟩
  · obtain ⟨n, d, rfl, rfl, rfl⟩ | ⟨rfl, rfl, rfl⟩ | ⟨rfl, rfl, rfl⟩ := hi <;>
      exact congrArg Host.Outcome.next (sysInstr_perm hx hg hpriv)
  · exact fun hlanes hc => exec_of_misaligned ho hruns hlanes hc

end Sys2Proof.Machine
end

section

namespace Sys2Proof.Machine
open Sys2Proof Sys2Proof.Claims

/-! ## Trap entry and the free answers (R324)

`Obligations.TrapEntry` turns on a free value, which no proof can see: where another device holds the vector and has not
answered (`awayAnswer` 3, log 12), an agent with a late fault waits with that fault and the trap that it was given, and the
same agent without the late fault waits with the late fault as its trap. Everything else that it says holds. -/

/-! ### Entry (R324, R326) -/

section
variable {s : State} {aid : Nat} {a : Agent} {t : Trap}

/-- Where the trap can be entered, the agent goes to its handler with nothing else changed but the counters and marks that
entry clears and the error counters. -/
theorem enterTrap_of_canEnter (h : CanEnter s aid a t) : ∃ u, CountsErrors s u ∧
    enterTrap s aid t = clearStreams (setAgent u aid (inHandler (owesNone a) t (vectorOf s a t))) a.stroke t := by
  obtain ⟨ha, ⟨hres, hlate⟩, ⟨hprimer, hhandler⟩, htv, w, hw⟩ := h
  obtain ⟨u, hu, he⟩ := enterTrap_takes (t := t) ha hres hlate (vectorAwaited_of_ok hw)
  obtain ⟨htv', hvec, hfetch⟩ := vector_of_counts (a := a) (t := t) hu
  have htake := takeTrap_of_vector (s := u) (aid := aid) (a := owesNone a) (t := t) hprimer hhandler
    (by rw [htv']; exact htv) (hfetch.trans hw)
  rw [hvec] at htake
  exact ⟨u, hu, he.trans htake⟩

theorem getAgent_clearStreams (s : State) (k n : Nat) (t : Trap) : getAgent (clearStreams s k t) n = getAgent s n :=
  congrArg (tabGet · n) (clearStreams_agents s k t)

/-! ### A late fault is taken instead (R324) -/

/-- The agent whose late fault is being taken. -/
def withoutLate (a : Agent) : Agent := { a with late := none }

theorem addLog_setAgent (s : State) (b : Agent) (pa kind : Nat) (u : ErrUnit) (ctx n : Nat) (d : Option DropPlace) :
    addLog (setAgent s aid b) pa kind u ctx n d = setAgent (addLog s pa kind u ctx n d) aid b := rfl

theorem bumpUnit_setAgent (s : State) (b : Agent) (u : ErrUnit) (pa ctx : Nat) :
    bumpUnit (setAgent s aid b) u pa ctx = setAgent (bumpUnit s u pa ctx) aid b := by
  unfold bumpUnit
  dsimp only
  rw [apply_ite (setAgent · aid b)]
  rfl

theorem countError_setAgent (s : State) (b : Agent) (u : ErrUnit) (pa ctx : Nat) :
    countError (setAgent s aid b) u pa ctx = setAgent (countError s u pa ctx) aid b := by
  simp only [countError, bumpUnit_setAgent, addLog_setAgent]
  rfl

theorem countMet_setAgent (s : State) (b : Agent) (ctx : Nat) (t : Trap) :
    countMet (setAgent s aid b) ctx t = setAgent (countMet s ctx t) aid b := by
  unfold countMet
  split
  · exact countError_setAgent ..
  · rfl

theorem primerFault_withoutLate (b : Agent) : primerFault (setAgent s aid b) aid (withoutLate a) t = primerFault s aid a t := by
  simp only [primerFault, setAgent_setAgent]
  rfl

theorem doubleFault_withoutLate (b : Agent) : doubleFault (setAgent s aid b) aid (withoutLate a) t = doubleFault s aid a t := by
  simp only [doubleFault, setAgent_setAgent]
  rfl

/-- What an agent does with a trap does not look at a late fault. -/
theorem takeTrap_withoutLate (b : Agent) : takeTrap (setAgent s aid b) aid (withoutLate a) t = takeTrap s aid a t := by
  have hplace : agentCtx (setAgent s aid b) (withoutLate a) = agentCtx s a := rfl
  have htv : agentTvbase (setAgent s aid b) (withoutLate a) = agentTvbase s a := rfl
  have hvec : vectorOf (setAgent s aid b) (withoutLate a) t = vectorOf s a t := rfl
  have hfetch : fetchWord (setAgent s aid b) (agentCtx s a) (vectorOf s a t) = fetchWord s (agentCtx s a) (vectorOf s a t) := rfl
  unfold takeTrap
  simp only [hplace, htv, hvec, hfetch, primerFault_withoutLate, doubleFault_withoutLate, countMet_setAgent, setAgent_setAgent]
  rfl

/-- LATE and the number of the others, in the bits of TAUX above the fault's own (R324). -/
theorem lateTrap_aux (l : Trap) (n : Nat) : (lateTrap l n).aux = l.aux ||| BitVec.ofNat 64 (2 ^ 63 + 2 ^ 59 * min n 15) := by
  have hbits : 2 ^ 63 + 2 ^ 59 * min n 15 = 2 ^ 63 ||| min n 15 * 2 ^ 59 := by
    rw [Nat.mul_comm (2 ^ 59), ← Nat.mul_one (2 ^ 63)]
    exact Nat.two_pow_add_eq_or_of_lt (by omega) 1
  rw [hbits, BitVec.ofNat_or, ← BitVec.or_assoc]
  rfl

theorem enterTrap_of_late {l : Trap} {n : Nat} (ha : getAgent s aid = some a) (hres : hasResults s aid = false)
    (hlate : a.late = some (l, n)) (hvec : vectorAwaited s a (lateTrap l n) = false) :
    enterTrap s aid t = enterTrap (setAgent s aid (withoutLate a)) aid (lateTrap l n) := by
  have hfirst : firstTrap a t = lateTrap l n := by simp only [firstTrap, hlate]
  have hready := enterTrap_of_ready (t := t) ha hres (by rw [hfirst]; exact hvec)
  rw [hfirst] at hready
  have hready' := enterTrap_of_ready (s := setAgent s aid (withoutLate a)) (t := lateTrap l n)
    (getAgent_setAgent ..) hres hvec
  rw [hready, hready']
  have hcount := countMet_setAgent (aid := aid) s (withoutLate a) (agentCtx s a) (lateTrap l n)
  exact ((congrArg (takeTrap · aid (withoutLate (owesNone a)) (lateTrap l n)) hcount).trans (takeTrap_withoutLate _)).symm

end

/-! ### What a fetch answers -/

theorem faultTrap_ne_acktimeout {f : AddrFault} {va : DWord} {lanes : Mask} (h : IsAddressCause f.1) :
    (faultTrap f va lanes).cause ≠ .acktimeout := by
  obtain h | h | h := h <;> simp [faultTrap, h]

/-- A fetch answers ACKTIMEOUT only for another device that has not answered. -/
theorem awayAnswer_of_acktimeout {s : State} {ctx pc : Nat} {e : Trap} (h : fetchWord s ctx pc = .error e)
    (he : e.cause = .acktimeout) : awayAnswer s = 3 := by
  unfold fetchWord at h
  split at h
  · next f hbyte =>
    cases h
    exact absurd he (faultTrap_ne_acktimeout (accessByte_cause hbyte))
  split at h
  · cases h; cases he
  · split at h
    · cases h; cases he
    · cases h; cases he
    · assumption
    · cases h
  · split at h <;> cases h
    cases he

theorem fetchWord_of_no_answer {s : State} {ctx pc pa : Nat} {page : TlbEntry} (hbyte : accessByte s ctx pc .x = .ok (pa, page))
    (haway : reachOf s ctx false [(pa, 8)] = .away) (hanswer : awayAnswer s = 3) :
    fetchWord s ctx pc = .error { cause := .acktimeout } := by
  simp only [fetchWord, hbyte, haway, hanswer]

/-- An agent that has not waited yet waits for a vector with no answer. -/
theorem vectorAwaited_of_acktimeout {s : State} {a : Agent} {t e : Trap} (hplace : a.primer = false ∧ a.handler = false)
    (htv : agentTvbase s a ≠ 0) (hwait : a.waitFrom = none) (h : fetchWord s (agentCtx s a) (vectorOf s a t) = .error e)
    (he : e.cause = .acktimeout) : vectorAwaited s a t = true := by
  rw [vectorOf] at h
  have htv' : (agentTvbase s a != 0) = true := bne_iff_ne.2 htv
  simp only [vectorAwaited, hplace, htv', hwait, h, he]
  rfl

theorem awayAnswer_of_vectorAwaited {s : State} {a : Agent} {t : Trap} (h : vectorAwaited s a t = true) : awayAnswer s = 3 := by
  unfold vectorAwaited at h
  split at h
  · next e he =>
    simp only [Bool.and_eq_true, beq_iff_eq] at h
    exact awayAnswer_of_acktimeout he h.1.2
  · simp at h

/-! ### An agent that waits for its vector keeps its late fault (R217, R324) -/

theorem enterTrap_of_awaited {s : State} {aid : Nat} {a : Agent} {t : Trap} (ha : getAgent s aid = some a)
    (hres : hasResults s aid = false) (hvec : vectorAwaited s a (firstTrap a t) = true) :
    enterTrap s aid t = parkAgent (setAgent s aid { a with owed := some t }) aid .answer := by
  simp only [enterTrap, ha, hres, hvec, Bool.false_eq_true, if_false, if_true]

theorem late_of_awaited {s : State} {aid : Nat} {a : Agent} {t : Trap} (ha : getAgent s aid = some a)
    (hres : hasResults s aid = false) (hvec : vectorAwaited s a (firstTrap a t) = true) :
    (getAgent (enterTrap s aid t) aid).map (·.late) = some a.late := by
  rw [enterTrap_of_awaited ha hres hvec]
  simp only [parkAgent, getAgent_setAgent, Option.map_some]

/-- A page of device 1, at the vector table's address. -/
def farPage : TlbEntry :=
  { va := 0x10000, size := 4096, pa := 2 ^ 51 + 2 ^ 44, r := true, w := false, x := true, e := false, p := false, g := false }

/-- One agent, number 4, with a late fault; its vector table lies on device 1, and the next free value is number `n`. -/
def stUnanswered (n : Nat) : State :=
  let s := placeProgram State.reset []
  { s with
    agents := tabMap (fun _ a => { a with late := some ({ cause := .dataerr }, 1) }) s.agents
    comms := [(1, { placedComm with tvbase := 0x10000 })], ctxs := [(1, { placedCtx with tlb := [farPage] })], freeN := n }

/-- Where no answer has come, its agent does not do the same with and without the late fault. -/
theorem late_fault_of_no_answer {n : Nat} (hn : (Config.freeValue 2 n).toNat = 3) :
    ∃ s aid a t l k, getAgent s aid = some a ∧
    hasResults s aid = false ∧ a.late = some (l, k) ∧
    enterTrap s aid t ≠ enterTrap (setAgent s aid (withoutLate a)) aid (lateTrap l k) := by
  obtain ⟨a, ha, hres, hlate, hplace, htv, hwait, hctx, hvector⟩ : ∃ a, getAgent (stUnanswered n) 4 = some a ∧
      hasResults (stUnanswered n) 4 = false ∧ a.late = some ({ cause := .dataerr }, 1) ∧
      (a.primer = false ∧ a.handler = false) ∧ agentTvbase (stUnanswered n) a = 0x10000 ∧ a.waitFrom = none ∧
      agentCtx (stUnanswered n) a = 1 ∧ vectorOf (stUnanswered n) a (lateTrap { cause := .dataerr } 1) = 0x100A8 :=
    ⟨_, rfl, rfl, rfl, ⟨rfl, rfl⟩, rfl, rfl, rfl, rfl⟩
  have hbyte : accessByte (stUnanswered n) 1 0x100A8 .x = .ok (2 ^ 51 + 2 ^ 44 + 0xA8, farPage) := rfl
  have hvec : vectorAwaited (stUnanswered n) a (lateTrap { cause := .dataerr } 1) = true :=
    vectorAwaited_of_acktimeout hplace (by rw [htv]; decide) hwait
      (by rw [hctx, hvector]; exact fetchWord_of_no_answer hbyte rfl hn) rfl
  refine ⟨stUnanswered n, 4, a, { cause := .align }, _, _, ha, hres, hlate, fun heq => ?_⟩
  have h1 := late_of_awaited (t := { cause := .align }) ha hres (by simpa only [firstTrap, hlate] using hvec)
  have h2 := late_of_awaited (s := setAgent (stUnanswered n) 4 (withoutLate a)) (t := lateTrap { cause := .dataerr } 1)
    (getAgent_setAgent ..) hres hvec
  rw [heq, h2, hlate] at h1
  cases h1

/-- `Obligations.TrapEntry` says that no free value withholds another device's answer. -/
theorem trapEntry_iff : Obligations.TrapEntry ↔ ∀ n, (Config.freeValue 2 n).toNat ≠ 3 := by
  constructor
  · intro h n hn
    obtain ⟨s, aid, a, t, l, k, ha, hres, hlate, hne⟩ := late_fault_of_no_answer hn
    exact hne (h.2.2.1 s aid a t l k ha hres hlate)
  · intro h
    refine ⟨fun s aid a t henter => ?_, fun s aid a t ha hres => ⟨_, enterTrap_of_results ha hres⟩,
      fun s aid a t l n ha hres hlate => enterTrap_of_late ha hres hlate ?_, fun l n => ⟨rfl, rfl, rfl, ?_⟩⟩
    · obtain ⟨u, hu, he⟩ := enterTrap_of_canEnter henter
      refine ⟨inHandler (owesNone a) t (vectorOf s a t), ?_, rfl, rfl, rfl, rfl, rfl, rfl, rfl, rfl, rfl, rfl, rfl, rfl, rfl,
        rfl, rfl, rfl, rfl, rfl, rfl, rfl, rfl, fun m hm => ?_, enterTrap_mem .., fun m k hk => ?_⟩
      · rw [he, getAgent_clearStreams, getAgent_setAgent]
      · rw [he, getAgent_clearStreams, getAgent_setAgent_of_ne _ _ hm, hu.getAgent]
      · rw [he]
        exact clearStreams_stroke ((hu.getStroke m).trans hk)
    · exact Bool.eq_false_iff.2 fun hvec => h s.freeN (awayAnswer_of_vectorAwaited hvec)
    · exact lateTrap_aux l n

end Sys2Proof.Machine
end

section

namespace Sys2Proof.Machine
open Sys2Proof Sys2Proof.Claims

/-! ## Decoding gives back what was encoded (O44, O46, O47)

A word is taken apart into the fields that the encoder put together (`rawOf_encA`, `rawOf_encB`, `rawOf_encX`, and those of
Formats B and M); each family's decoder then reads every operand back. -/

/-! ### Codes and operand fields -/

@[simp] theorem tyOfCode_codeOfTy (t : Ty) : tyOfCode (codeOfTy t) = t := by cases t <;> rfl
@[simp] theorem rndField_codeOfRnd (m : Rnd) : rndField (codeOfRnd m) = .ok m := by cases m <;> rfl
@[simp] theorem ccOfCode_codeOfCc (c : CC) : ccOfCode (codeOfCc c) = c := by cases c <;> rfl
@[simp] theorem scopeField_codeOfScope (s : Scope) : scopeField (codeOfScope s) = .ok s := by cases s <;> rfl
@[simp] theorem elemOfCode_codeOfElem (e : Elem) : elemOfCode (codeOfElem e) = some e := by cases e <;> rfl
@[simp] theorem kopOfCode_codeOfKop (o : KopOp) : kopOfCode (codeOfKop o) = some o := by cases o <;> rfl
@[simp] theorem redOfCode_codeOfRed (o : RedOp) : redOfCode (codeOfRed o) = some o := by cases o <;> rfl

@[simp] theorem codeOfTy_lt (t : Ty) : codeOfTy t < 16 := by cases t <;> decide
theorem codeOfRnd_lt (m : Rnd) : codeOfRnd m < 5 := by cases m <;> decide
theorem codeOfCc_lt (c : CC) : codeOfCc c < 8 := by cases c <;> decide
theorem codeOfScope_lt (s : Scope) : codeOfScope s < 6 := by cases s <;> decide
theorem codeOfElem_lt (e : Elem) : codeOfElem e < 9 := by cases e <;> decide
theorem codeOfKop_lt (o : KopOp) : codeOfKop o < 5 := by cases o <;> decide
theorem codeOfRed_lt (o : RedOp) : codeOfRed o < 6 := by cases o <;> decide
theorem codeOfShfl_lt (m : ShflMode) : codeOfShfl m < 4 := by cases m <;> decide
theorem codeOfVote_lt (k : VoteKind) : codeOfVote k < 4 := by cases k <;> decide
theorem bit1_lt (b : Bool) : bit1 b < 2 := by cases b <;> decide
@[simp] theorem decide_bit1 (b : Bool) : decide (bit1 b = 1) = b := by cases b <;> rfl

@[simp] theorem sregField_codeOfSreg {r : SReg} (h : sregWf r = true) : sregField (codeOfSreg r) = .ok r := by
  cases r with
  | lvl n =>
    have hn : n < 5 := by simpa [sregWf] using h
    interval_cases n <;> rfl
  | _ => rfl

theorem codeOfSreg_lt {r : SReg} (h : sregWf r = true) : codeOfSreg r < 128 := by
  cases r with
  | lvl n =>
    have hn : n < 5 := by simpa [sregWf] using h
    simp only [codeOfSreg]; omega
  | _ => simp [codeOfSreg]

@[simp] theorem opdOf_opdField {o : Opd} (h : opdWf o = true) : opdOf (opdField o) = o := by
  cases o with
  | v n => exact if_pos (of_decide_eq_true h)
  | s n =>
    have hn : n < 64 := of_decide_eq_true h
    rw [opdField, opdOf, if_neg (by omega), if_pos (by omega), Nat.add_sub_cancel_left]
  | pop c => rw [opdField, opdOf, if_neg (by omega), if_neg (by omega), if_neg (by omega), Nat.add_sub_cancel_left]
  | peek c =>
    have hc : c < 128 := of_decide_eq_true h
    rw [opdField, opdOf, if_neg (by omega), if_neg (by omega), if_pos (by omega), Nat.add_sub_cancel_left]
  | imm e => simp [opdWf] at h

@[simp] theorem opdField_lt {o : Opd} (h : opdWf o = true) : opdField o < 512 := by
  cases o <;> simp_all [opdWf, opdField] <;> omega

@[simp] theorem dstOf_dstField {d : Dst} (h : dstWf d = true) : dstOf (dstField d) = .ok d := by
  cases d with
  | v n => exact if_pos (of_decide_eq_true h)
  | s n =>
    have hn : n < 64 := of_decide_eq_true h
    rw [dstField, dstOf, if_neg (by omega), if_pos (by omega), Nat.add_sub_cancel_left]
  | push c =>
    have hc : c < 128 := of_decide_eq_true h
    rw [dstField, dstOf, if_neg (by omega), if_neg (by omega), if_pos (by omega), Nat.add_sub_cancel_left]

@[simp] theorem dstField_lt {d : Dst} (h : dstWf d = true) : dstField d < 512 := by
  cases d <;> simp_all [dstWf, dstField] <;> omega

@[simp] theorem maskOf_kField {k : KReg} (h : kWf k = true) : maskOf? (kField k) = .ok k := by
  cases k <;> simp_all [kWf, kField, maskOf?]

@[simp] theorem kField_lt {k : KReg} (h : kWf k = true) : kField k < 512 := by
  cases k <;> simp_all [kWf, kField]; omega

@[simp] theorem sField_of_sWf {n : Nat} (h : sWf n = true) : sField (0xC0 + n) = .ok n := by
  simp_all [sWf, sField]; omega

@[simp] theorem vField_of_vWf {n : Nat} (h : vWf n = true) : vField n = .ok n := by
  simp_all [vWf, vField]

@[simp] theorem opdWf_of_plainWf {o : Opd} (h : plainWf o = true) : opdWf o = true := by
  cases o <;> simp_all [plainWf, opdWf]

@[simp] theorem plainOpd_opdField {o : Opd} (h : plainWf o = true) : plainOpd (opdField o) = .ok o := by
  have hl : opdField o < 256 := by cases o <;> simp_all [plainWf, opdField] <;> omega
  rw [plainOpd, if_pos hl, opdOf_opdField (opdWf_of_plainWf h)]

@[simp] theorem isChanOpd_of_plainWf {o : Opd} (h : plainWf o = true) : isChanOpd o = false := by
  cases o <;> simp_all [plainWf, isChanOpd]

/-! ### The decoder over a word's fields -/

/-- `decode` once the word has been taken apart. -/
def decodeRaw (r : Raw) : Dec Instr :=
  if r.op < 0x09 then decControl r
  else if r.op < 0x0F then decDivergence r
  else if r.op = 0x0F then decControl r
  else if r.op < 0x30 then decInteger r
  else if r.op < 0x50 then decFloat r
  else if r.op < 0x60 then decConvert r
  else if r.op < 0x70 then decLane r
  else if r.op < 0x80 then decMask r
  else if r.op < 0x90 then decMemory r
  else if r.op < 0xA0 then decAtomic r
  else if r.op < 0xB0 then decEngine r
  else if r.op < 0xC0 then decMatrix r
  else if r.op < 0xD0 then decSet r
  else if r.op < 0xE0 then decTask r
  else if r.op < 0xF0 then decSystem r
  else .error .illop

theorem decode_eq_decodeRaw (w e : Nat) : decode w e = decodeRaw (rawOf w e) := rfl

/-! The tables' rewriting equations are made here, once for all proofs below. -/

/-- No table has a row for an opcode beyond a byte. -/
example (r : Raw) (h : r.op = 256) : decodeRaw r = .error .illop ∧ decControl r = .error .illop ∧
    decDivergence r = .error .illop ∧ decInteger r = .error .illop ∧ decFloat r = .error .illop ∧
    decConvert r = .error .illop ∧ decLane r = .error .illop ∧ decMask r = .error .illop ∧ decMemory r = .error .illop ∧
    decAtomic r = .error .illop ∧ decEngine r = .error .illop ∧ decMatrix r = .error .illop ∧
    decSet r = .error .illop ∧ decTask r = .error .illop ∧ decSystem r = .error .illop := by
  simp [decodeRaw, decControl, decDivergence, decInteger, decFloat, decConvert, decLane, decMask, decMemory, decAtomic,
    decEngine, decMatrix, decSet, decTask, decSystem, h]

/-- SBIND has no form beyond its field. -/
example (r : Raw) (h : r.ft = 16) : decSbind r = .error .illop := by simp [decSbind, h]

/-- NOP has no field to check. -/
example (sw : Bool) : (Instr.nop sw).WellFormed := by
  unfold Instr.WellFormed wfInstr
  rfl

/-! ### Words of Formats A and E -/

/-- The fields of a word of Format A or E. -/
abbrev rawF (h : Hdr) (op : Nat) (x : Bool) (d a b c ft fv w e : Nat) : Raw :=
  { w := w, ext := e, sw := h.sw, op := op, km := h.km, la := h.la, lb := h.lb, lc := h.lc, x := x
    d := d, a := a, b := b, c := c, ft := ft, fv := fv }

/-- The header above a word's low 47 bits is read back, and the fields below it are those of the low bits. -/
theorem rawOf_headWord {h : Hdr} {op : Nat} (x : Bool) {low : Nat} (e : Nat) (hkm : h.km < 16) (hop : op < 256)
    (hlow : low < 2 ^ 47) :
    rawOf (headWord h op x + low) e = rawF h op x (low / 2 ^ 38) (low / 2 ^ 29 % 512) (low / 2 ^ 20 % 512)
      (low / 2 ^ 11 % 512) (low / 2 ^ 7 % 16) (low % 128) (headWord h op x + low) e := by
  have h1 := bit1_lt h.sw
  have h2 := bit1_lt h.la
  have h3 := bit1_lt h.lb
  have h4 := bit1_lt h.lc
  have h5 := bit1_lt x
  have hb : ∀ (b : Bool) (n : Nat), n = bit1 b → decide (n = 1) = b := by rintro b n rfl; exact decide_bit1 b
  simp only [rawOf, rawF, headWord, fld, Nat.testBit_eq_decide_div_mod_eq, Raw.mk.injEq, true_and]
  refine ⟨hb _ _ ?_, ?_, ?_, hb _ _ ?_, hb _ _ ?_, hb _ _ ?_, hb _ _ ?_, ?_, ?_, ?_, ?_, ?_, ?_⟩ <;>
    simp only [Nat.reduceAdd, Nat.reduceSub, Nat.reducePow] at * <;> omega

theorem headWord_lt {h : Hdr} {op : Nat} (x : Bool) {low : Nat} (hkm : h.km < 16) (hop : op < 256)
    (hlow : low < 2 ^ 47) : headWord h op x + low < 2 ^ 64 := by
  have h1 := bit1_lt h.sw
  have h2 := bit1_lt h.la
  have h3 := bit1_lt h.lb
  have h4 := bit1_lt h.lc
  have h5 := bit1_lt x
  simp only [headWord]
  omega

/-- The word's fields as one sum below the header. -/
def lowA (d a b c ft fv : Nat) : Nat := d * 2 ^ 38 + a * 2 ^ 29 + b * 2 ^ 20 + c * 2 ^ 11 + ft * 2 ^ 7 + fv

theorem lowA_lt {d a b c ft fv : Nat} (hd : d < 512) (ha : a < 512) (hb : b < 512) (hc : c < 512) (ht : ft < 16)
    (hf : fv < 128) : lowA d a b c ft fv < 2 ^ 47 := by
  simp only [lowA]
  omega

theorem rawOf_lowA {h : Hdr} {op : Nat} (x : Bool) {d a b c ft fv : Nat} (e : Nat) (hkm : h.km < 16) (hop : op < 256)
    (hd : d < 512) (ha : a < 512) (hb : b < 512) (hc : c < 512) (ht : ft < 16) (hf : fv < 128) :
    rawOf (headWord h op x + lowA d a b c ft fv) e =
      rawF h op x d a b c ft fv (headWord h op x + lowA d a b c ft fv) e := by
  rw [rawOf_headWord x e hkm hop (lowA_lt hd ha hb hc ht hf)]
  simp only [rawF, lowA, Raw.mk.injEq, true_and]
  refine ⟨?_, ?_, ?_, ?_, ?_, ?_⟩ <;> omega

/-- An instruction whose words hold these fields round-trips where their decoder gives it back. -/
theorem roundTrip_of_fields {i : Instr} {h : Hdr} {op : Nat} {x : Bool} {d a b c ft fv e : Nat}
    (henc : encode i = some (headWord h op x + lowA d a b c ft fv, e)) (hkm : h.km < 16) (hop : op < 256)
    (hd : d < 512) (ha : a < 512) (hb : b < 512) (hc : c < 512) (ht : ft < 16) (hf : fv < 128) (he : e < 2 ^ 64)
    (hdec : ∀ w, decodeRaw (rawF h op x d a b c ft fv w e) = .ok i) : RoundTrip i := by
  refine ⟨_, henc, headWord_lt x hkm hop (lowA_lt hd ha hb hc ht hf), he, ?_⟩
  rw [decode_eq_decodeRaw, rawOf_lowA x e hkm hop hd ha hb hc ht hf, hdec]

end Sys2Proof.Machine
end

section
namespace Sys2Proof.Machine
open Sys2Proof Sys2Proof.Claims

/-- The extension word that an immediate source B gives. -/
def extOf : Opd → Nat
  | .imm e => e.toNat
  | _ => 0

theorem extOf_lt (b : Opd) : extOf b < 2 ^ 64 := by
  cases b with
  | imm e => exact e.isLt
  | _ => simp [extOf]

theorem encA_eq (h : Hdr) (op d a b c ft fv : Nat) :
    encA h op d a b c ft fv = (headWord h op false + lowA d a b c ft fv, 0) := by
  simp only [encA, lowA, Nat.add_assoc]

theorem encX_eq (h : Hdr) (op d a c ft fv : Nat) (e : DWord) :
    encX h op d a c ft fv e = (headWord h op true + lowA d a 0 c ft fv, e.toNat) := by
  simp only [encX, lowA, Nat.add_assoc, Nat.zero_mul, Nat.zero_add]

theorem encB_eq (h : Hdr) (op d a : Nat) (b : Opd) (c ft fv : Nat) :
    encB h op d a b c ft fv = (headWord h op (isImm b) + lowA d a (opdField b) c ft fv, extOf b) := by
  cases b with
  | imm e => exact encX_eq h op d a c ft fv e
  | _ n => exact encA_eq h op d a _ c ft fv

theorem opdWf_of_srcWf {lb : Bool} {n : Nat} {b : Opd} (h : srcWf lb n b = true) (hi : isImm b = false) :
    opdWf b = true := by
  cases b with
  | imm e => simp [isImm] at hi
  | _ k => exact h

@[simp] theorem opdField_lt_of_srcWf {lb : Bool} {n : Nat} {b : Opd} (h : srcWf lb n b = true) : opdField b < 512 := by
  cases b with
  | imm e => simp [opdField]
  | _ k => exact opdField_lt (opdWf_of_srcWf h rfl)

theorem hdrWf_km {h : Hdr} {la lb lc : Bool} (hh : hdrWf h la lb lc = true) : h.km < 16 := by
  simp only [hdrWf, Bool.and_eq_true, decide_eq_true_eq] at hh
  exact hh.1.1.1

section
variable (h : Hdr) (op : Nat) (x : Bool) (d a b c ft fv w e : Nat)

@[simp] theorem rawF_hdr : (rawF h op x d a b c ft fv w e).hdr = h := rfl
@[simp] theorem rawF_sw : (rawF h op x d a b c ft fv w e).sw = h.sw := rfl
@[simp] theorem rawF_op : (rawF h op x d a b c ft fv w e).op = op := rfl
@[simp] theorem rawF_km : (rawF h op x d a b c ft fv w e).km = h.km := rfl
@[simp] theorem rawF_la : (rawF h op x d a b c ft fv w e).la = h.la := rfl
@[simp] theorem rawF_lb : (rawF h op x d a b c ft fv w e).lb = h.lb := rfl
@[simp] theorem rawF_lc : (rawF h op x d a b c ft fv w e).lc = h.lc := rfl
@[simp] theorem rawF_x : (rawF h op x d a b c ft fv w e).x = x := rfl
@[simp] theorem rawF_d : (rawF h op x d a b c ft fv w e).d = d := rfl
@[simp] theorem rawF_a : (rawF h op x d a b c ft fv w e).a = a := rfl
@[simp] theorem rawF_b : (rawF h op x d a b c ft fv w e).b = b := rfl
@[simp] theorem rawF_c : (rawF h op x d a b c ft fv w e).c = c := rfl
@[simp] theorem rawF_ft : (rawF h op x d a b c ft fv w e).ft = ft := rfl
@[simp] theorem rawF_fv : (rawF h op x d a b c ft fv w e).fv = fv := rfl
@[simp] theorem rawF_ext : (rawF h op x d a b c ft fv w e).ext = e := rfl

end

@[simp] theorem legal_true : legal true = .ok () := rfl
@[simp] theorem field_true : field true = .ok () := rfl
@[simp] theorem dec_ok_bind {α β : Type} (v : α) (f : α → Dec β) : (Except.ok v >>= f : Dec β) = f v := rfl
@[simp] theorem dec_pure {α : Type} (v : α) : (pure v : Dec α) = .ok v := rfl

/-- Source B is read back, whatever type gives its width. -/
@[simp] theorem srcB_rawF {h : Hdr} {op d a c ft fv w n : Nat} {b : Opd} (hb : srcWf h.lb n b = true) :
    srcB (rawF h op (isImm b) d a (opdField b) c ft fv w (extOf b)) n = .ok b := by
  cases hi : isImm b with
  | false => simp [srcB, opdOf_opdField (opdWf_of_srcWf hb hi)]
  | true =>
    cases b with
    | imm e =>
      simp only [srcWf, Bool.and_eq_true] at hb
      simp [srcB, opdField, extOf, hb.1, hb.2]
    | _ k => simp [isImm] at hi

theorem roundTrip_encA {i : Instr} {h : Hdr} {op d a b c ft fv : Nat}
    (hs : op < 256 ∧ h.km < 16 ∧ d < 512 ∧ a < 512 ∧ b < 512 ∧ c < 512 ∧ ft < 16)
    (henc : encode i = some (encA h op d a b c ft fv)) (hf : fv < 128)
    (hdec : ∀ w, decodeRaw (rawF h op false d a b c ft fv w 0) = .ok i) : RoundTrip i := by
  obtain ⟨hop, hkm, hd, ha, hb, hc, ht⟩ := hs
  exact roundTrip_of_fields (henc.trans (congrArg some (encA_eq ..))) hkm hop hd ha hb hc ht hf (by decide) hdec

theorem roundTrip_encX {i : Instr} {h : Hdr} {op d a c ft fv : Nat} {e : DWord}
    (hs : op < 256 ∧ h.km < 16 ∧ d < 512 ∧ a < 512 ∧ c < 512 ∧ ft < 16)
    (henc : encode i = some (encX h op d a c ft fv e)) (hf : fv < 128)
    (hdec : ∀ w, decodeRaw (rawF h op true d a 0 c ft fv w e.toNat) = .ok i) : RoundTrip i := by
  obtain ⟨hop, hkm, hd, ha, hc, ht⟩ := hs
  exact roundTrip_of_fields (henc.trans (congrArg some (encX_eq ..))) hkm hop hd ha (by decide) hc ht hf e.isLt hdec

theorem roundTrip_encB {i : Instr} {h : Hdr} {op d a c ft fv n : Nat} {b : Opd}
    (hs : op < 256 ∧ h.km < 16 ∧ d < 512 ∧ a < 512 ∧ c < 512 ∧ ft < 16)
    (henc : encode i = some (encB h op d a b c ft fv)) (hb : srcWf h.lb n b = true) (hf : fv < 128)
    (hdec : ∀ w, decodeRaw (rawF h op (isImm b) d a (opdField b) c ft fv w (extOf b)) = .ok i) : RoundTrip i := by
  obtain ⟨hop, hkm, hd, ha, hc, ht⟩ := hs
  exact roundTrip_of_fields (henc.trans (congrArg some (encB_eq ..))) hkm hop hd ha (opdField_lt_of_srcWf hb) hc ht hf
    (extOf_lt b) hdec

end Sys2Proof.Machine
end

section
namespace Sys2Proof.Machine
open Sys2Proof Sys2Proof.Claims

/-! ### Integer and bit instructions (R90-R95) -/

/-- Two sources, b of the same type. -/
theorem roundTrip_dec2 {k : Hdr → Ty → Dst → Opd → Opd → Instr} {h : Hdr} {t : Ty} {d : Dst} {a b : Opd} {op fv : Nat}
    (hop : op < 256) (henc : encode (k h t d a b) = some (encB h op (dstField d) (opdField a) b 0 (codeOfTy t) fv))
    (hw : w2 h (tyBits t) d a b = true) (hf : fv < 128)
    (hdec : ∀ r : Raw, r.op = op → r.ft = codeOfTy t → r.fv = fv → decodeRaw r = dec2 r t k) : RoundTrip (k h t d a b) := by
  simp [w2, hdrWf] at hw
  exact roundTrip_encB (by simp [*]) (n := tyBits t) henc (by simp [*]) hf (fun w => by
    rw [hdec _ rfl rfl rfl]
    simp [dec2, noC, *])

/-- Two sources, b read at n bits. -/
theorem roundTrip_dec2At {k : Hdr → Ty → Dst → Opd → Opd → Instr} {h : Hdr} {t : Ty} {d : Dst} {a b : Opd}
    {op fv n : Nat} (hop : op < 256) (henc : encode (k h t d a b) = some (encB h op (dstField d) (opdField a) b 0 (codeOfTy t) fv))
    (hw : w2At h n (tyBits t) d a b = true) (hf : fv < 128)
    (hdec : ∀ r : Raw, r.op = op → r.ft = codeOfTy t → r.fv = fv → decodeRaw r = dec2At r n t k) : RoundTrip (k h t d a b) := by
  simp [w2At, hdrWf] at hw
  exact roundTrip_encB (by simp [*]) (n := n) henc (by simp [*]) hf (fun w => by
    rw [hdec _ rfl rfl rfl]
    simp [dec2At, noC, *])

theorem roundTrip_dec1 {k : Hdr → Ty → Dst → Opd → Instr} {h : Hdr} {t td : Ty} {d : Dst} {a : Opd} {op fv : Nat}
    (hop : op < 256) (henc : encode (k h t d a) = some (encA h op (dstField d) (opdField a) 0 0 (codeOfTy t) fv))
    (hw : w1 h (tyBits t) (tyBits td) d a = true) (hf : fv < 128)
    (hdec : ∀ r : Raw, r.op = op → r.ft = codeOfTy t → r.fv = fv → decodeRaw r = dec1 r t td k) : RoundTrip (k h t d a) := by
  simp [w1, hdrWf] at hw
  exact roundTrip_encA (by simp [*]) henc hf (fun w => by
    rw [hdec _ rfl rfl rfl]
    simp [dec1, noB, noC, *])

theorem roundTrip_dec3 {k : Hdr → Ty → Dst → Opd → Opd → Opd → Instr} {h : Hdr} {t : Ty} {d : Dst} {a b c : Opd}
    {op fv : Nat}
    (hop : op < 256) (henc : encode (k h t d a b c) = some (encB h op (dstField d) (opdField a) b (opdField c) (codeOfTy t) fv))
    (hw : w3 h (tyBits t) d a b c = true) (hf : fv < 128)
    (hdec : ∀ r : Raw, r.op = op → r.ft = codeOfTy t → r.fv = fv → decodeRaw r = dec3 r t k) : RoundTrip (k h t d a b c) := by
  simp [w3, hdrWf] at hw
  exact roundTrip_encB (by simp [*]) (n := tyBits t) henc (by simp [*]) hf (fun w => by
    rw [hdec _ rfl rfl rfl]
    simp [dec3, *])

theorem fld_bit1 (b : Bool) : fld (bit1 b) 6 1 = 0 := by cases b <;> rfl

@[simp] theorem bit1_odd (b : Bool) : decide (bit1 b % 2 = 1) = b := by cases b <;> rfl

/-- Two sources of a type of a list, and F.VAR 0. -/
theorem roundTrip_plain2 {k : Hdr → Ty → Dst → Opd → Opd → Instr} {h : Hdr} {t : Ty} {d : Dst} {a b : Opd} {op : Nat}
    {tys : List Ty} (hop : op < 256) (henc : encode (k h t d a b) = some (encB h op (dstField d) (opdField a) b 0 (codeOfTy t) 0))
    (hw : (tys.contains t && w2 h (tyBits t) d a b) = true)
    (hdec : ∀ r : Raw, r.op = op → r.fv = 0 → tyOfCode r.ft = t → t ∈ tys → decodeRaw r = dec2 r t k) : RoundTrip (k h t d a b) := by
  simp at hw
  exact roundTrip_dec2 hop henc hw.2 (by decide) (fun r h1 h2 h3 => hdec r h1 h3 (by simp [h2]) hw.1)

/-- SHL, SHR and SAR. -/
theorem roundTrip_shift {k : Hdr → Ty → Dst → Opd → Opd → Instr} {h : Hdr} {t : Ty} {d : Dst} {a b : Opd} {op : Nat}
    (hop : op < 256) (henc : encode (k h t d a b) = some (encB h op (dstField d) (opdField a) b 0 (codeOfTy t) 0))
    (hw : (bitTys.contains t && w2At h 32 (tyBits t) d a b) = true)
    (hdec : ∀ r : Raw, r.op = op → r.fv = 0 → tyOfCode r.ft = t → t ∈ bitTys → decodeRaw r = dec2At r 32 t k) : RoundTrip (k h t d a b) := by
  simp at hw
  exact roundTrip_dec2At hop henc hw.2 (by decide) (fun r h1 h2 h3 => hdec r h1 h3 (by simp [h2]) hw.1)

/-- MOV, POPC, CLZ and BREV. -/
theorem roundTrip_plain1 {k : Hdr → Ty → Dst → Opd → Instr} {h : Hdr} {t td : Ty} {d : Dst} {a : Opd} {op : Nat}
    (hop : op < 256) (henc : encode (k h t d a) = some (encA h op (dstField d) (opdField a) 0 0 (codeOfTy t) 0))
    (hw : (bitTys.contains t && w1 h (tyBits t) (tyBits td) d a) = true)
    (hdec : ∀ r : Raw, r.op = op → r.fv = 0 → tyOfCode r.ft = t → t ∈ bitTys → decodeRaw r = dec1 r t td k) : RoundTrip (k h t d a) := by
  simp at hw
  exact roundTrip_dec1 hop henc hw.2 (by decide) (fun r h1 h2 h3 => hdec r h1 h3 (by simp [h2]) hw.1)

theorem roundTrip_iaddc {h : Hdr} {t : Ty} {z : Bool} {kc : Nat} {d : Dst} {a b : Opd}
    (hw : Instr.WellFormed (.iaddc h t z kc d a b)) : RoundTrip (.iaddc h t z kc d a b) := by
  unfold Instr.WellFormed wfInstr at hw
  simp only [Bool.and_eq_true] at hw
  obtain ⟨⟨ht, hk⟩, hw⟩ := hw
  have hk : kc < 16 := by simpa using hk
  have hf : fld (16 * bit1 z + kc) 6 5 = 0 ∧ Nat.testBit (16 * bit1 z + kc) 4 = z ∧ fld (16 * bit1 z + kc) 3 0 = kc := by
    cases z <;> simp [fld, bit1, Nat.testBit_eq_decide_div_mod_eq] <;> omega
  exact roundTrip_dec2 (by decide) (k := fun h t d a b => .iaddc h t z kc d a b) rfl hw (by have := bit1_lt z; omega)
    fun r _ _ _ => by simp [decodeRaw, decInteger, *]

theorem roundTrip_iadds {h : Hdr} {t : Ty} {sub : Bool} {d : Dst} {a b : Opd}
    (hw : Instr.WellFormed (.iadds h t sub d a b)) : RoundTrip (.iadds h t sub d a b) := by
  unfold Instr.WellFormed wfInstr at hw
  simp at hw
  exact roundTrip_dec2 (by decide) (k := fun h t d a b => .iadds h t sub d a b) rfl hw.2 (by have := bit1_lt sub; omega)
    fun r _ _ _ => by simp [decodeRaw, decInteger, fld_bit1, *]

theorem roundTrip_sel {h : Hdr} {t : Ty} {ks : Nat} {d : Dst} {a b : Opd} (hw : Instr.WellFormed (.sel h t ks d a b)) :
    RoundTrip (.sel h t ks d a b) := by
  unfold Instr.WellFormed wfInstr at hw
  simp only [Bool.and_eq_true, Bool.not_eq_true'] at hw
  obtain ⟨⟨⟨ht, hk⟩, hs⟩, hw⟩ := hw
  have hk : ks < 16 := by simpa using hk
  have hd : dstOf (dstField d) = .ok d := by simp [w2] at hw; simp [*]
  have hf : fld ks 6 4 = 0 ∧ fld ks 3 0 = ks := by simp [fld]; omega
  simp [w2, hdrWf] at hw
  exact roundTrip_encB (by simp [*]) (n := tyBits t) rfl (by simp [*]) (by omega) fun w => by
    simp [decodeRaw, decInteger, dec2, noC, *]

theorem roundTrip_rot {h : Hdr} {t : Ty} {right : Bool} {d : Dst} {a b : Opd}
    (hw : Instr.WellFormed (.rot h t right d a b)) : RoundTrip (.rot h t right d a b) := by
  unfold Instr.WellFormed wfInstr at hw
  simp at hw
  exact roundTrip_dec2At (by decide) (k := fun h t d a b => .rot h t right d a b) rfl hw.2 (by have := bit1_lt right; omega)
    fun r _ _ _ => by simp [decodeRaw, decInteger, fld_bit1, *]

theorem roundTrip_bfe {h : Hdr} {t : Ty} {sgn : Bool} {d : Dst} {a b : Opd}
    (hw : Instr.WellFormed (.bfe h t sgn d a b)) : RoundTrip (.bfe h t sgn d a b) := by
  unfold Instr.WellFormed wfInstr at hw
  simp at hw
  exact roundTrip_dec2At (by decide) (k := fun h t d a b => .bfe h t sgn d a b) rfl hw.2 (by have := bit1_lt sgn; omega)
    fun r _ _ _ => by simp [decodeRaw, decInteger, fld_bit1, *]

theorem roundTrip_iabs {h : Hdr} {t : Ty} {sat : Bool} {d : Dst} {a : Opd} (hw : Instr.WellFormed (.iabs h t sat d a)) :
    RoundTrip (.iabs h t sat d a) := by
  unfold Instr.WellFormed wfInstr at hw
  simp at hw
  exact roundTrip_dec1 (by decide) (k := fun h t d a => .iabs h t sat d a) rfl hw.2 (by have := bit1_lt sat; omega)
    fun r _ _ _ => by simp [decodeRaw, decInteger, fld_bit1, *]

theorem roundTrip_imad {h : Hdr} {t : Ty} {d : Dst} {a b c : Opd} (hw : Instr.WellFormed (.imad h t d a b c)) :
    RoundTrip (.imad h t d a b c) := by
  unfold Instr.WellFormed wfInstr at hw
  simp at hw
  exact roundTrip_dec3 (by decide) rfl hw.2 (by decide) fun r _ _ _ => by simp [decodeRaw, decInteger, *]

theorem roundTrip_prmt {h : Hdr} {d : Dst} {a b c : Opd} (hw : Instr.WellFormed (.prmt h d a b c)) :
    RoundTrip (.prmt h d a b c) :=
  roundTrip_dec3 (by decide) (k := fun h _ d a b c => .prmt h d a b c) (t := .b32) rfl hw (by decide) fun r _ _ _ => by
    simp [decodeRaw, decInteger, *]

theorem roundTrip_bfi {h : Hdr} {t : Ty} {d : Dst} {a b c : Opd} (hw : Instr.WellFormed (.bfi h t d a b c)) :
    RoundTrip (.bfi h t d a b c) := by
  unfold Instr.WellFormed wfInstr at hw
  simp [hdrWf] at hw
  exact roundTrip_encB (by simp [*]) (n := 16) rfl (by simp [*]) (by decide) fun w => by
    simp [decodeRaw, decInteger, decBfi, *]

theorem roundTrip_lea {h : Hdr} {t : Ty} {sh : Nat} {d : Dst} {a b : Opd} (hw : Instr.WellFormed (.lea h t sh d a b)) :
    RoundTrip (.lea h t sh d a b) := by
  unfold Instr.WellFormed wfInstr at hw
  simp [hdrWf] at hw
  have hf : fld sh 6 3 = 0 ∧ fld sh 2 0 = sh := by simp [fld]; omega
  exact roundTrip_encB (by simp [*]) (n := tyBits t) rfl (by simp [*]) (by omega) fun w => by simp [decodeRaw, decInteger, noC, *]

theorem roundTrip_icmp {h : Hdr} {t : Ty} {cc : CC} {kd : KReg} {a b : Opd}
    (hw : Instr.WellFormed (.icmp h t cc kd a b)) : RoundTrip (.icmp h t cc kd a b) := by
  unfold Instr.WellFormed wfInstr at hw
  simp [hdrWf] at hw
  have hc := codeOfCc_lt cc
  have hf : fld (codeOfCc cc) 6 3 = 0 ∧ fld (codeOfCc cc) 2 0 = codeOfCc cc := by simp [fld]; omega
  have hn : (codeOfCc cc != 6 && codeOfCc cc != 7) = true := by cases cc <;> simp_all [codeOfCc]
  exact roundTrip_encB (by simp [*]) (n := tyBits t) rfl (by simp [*]) (by omega) fun w => by simp [decodeRaw, decInteger, noC, *]

theorem roundTrip_movi {h : Hdr} {t : Ty} {d : Dst} {x : DWord} (hw : Instr.WellFormed (.movi h t d x)) :
    RoundTrip (.movi h t d x) := by
  unfold Instr.WellFormed wfInstr at hw
  simp [hdrWf] at hw
  have ht : (decide (t ∈ bitTys) || decide (t ∈ floatTys)) = true := by simpa using hw.1.1.1.1
  exact roundTrip_encX (by simp [*]) rfl (by decide) fun w => by simp [decodeRaw, decInteger, noA, noB, noC, *]

/-- Every integer, bit and compare instruction but FCMP. -/
theorem roundTrip_of_integer {i : Instr} (hw : i.WellFormed)
    (hi : (arithOp i).isSome ∨ (divideOp i).isSome ∨ (bitsOp i).isSome ∨ (compareOp i).isSome)
    (hc : ∀ h t cc kd a b, i ≠ .fcmp h t cc kd a b) : RoundTrip i := by
  cases i with
  | iadd | isub | imul | imulh | idiv | irem | imin | imax | and | or | xor | andn =>
    exact roundTrip_plain2 (by decide) rfl hw fun r _ _ _ _ => by simp [decodeRaw, decInteger, *]
  | shl | shr | sar => exact roundTrip_shift (by decide) rfl hw fun r _ _ _ _ => by simp [decodeRaw, decInteger, *]
  | mov => exact roundTrip_plain1 (by decide) rfl hw fun r _ _ _ _ => by simp [decodeRaw, decInteger, *]
  | popc | clz => exact roundTrip_plain1 (by decide) (td := .n32) rfl hw fun r _ _ _ _ => by simp [decodeRaw, decInteger, *]
  | brev => exact roundTrip_plain1 (by decide) rfl hw fun r _ _ _ _ => by simp [decodeRaw, decInteger, *]
  | iaddc => exact roundTrip_iaddc hw
  | iadds => exact roundTrip_iadds hw
  | imad => exact roundTrip_imad hw
  | iabs => exact roundTrip_iabs hw
  | lea => exact roundTrip_lea hw
  | icmp => exact roundTrip_icmp hw
  | sel => exact roundTrip_sel hw
  | rot => exact roundTrip_rot hw
  | bfe => exact roundTrip_bfe hw
  | bfi => exact roundTrip_bfi hw
  | prmt => exact roundTrip_prmt hw
  | movi => exact roundTrip_movi hw
  | fcmp => exact absurd rfl (hc _ _ _ _ _ _)
  | _ => simp [arithOp, divideOp, bitsOp, compareOp] at hi

end Sys2Proof.Machine
end

section
namespace Sys2Proof.Machine
open Sys2Proof Sys2Proof.Claims

/-! ### Control and divergence instructions (R39-R45, R260-R272) -/

@[simp] theorem swHdr_km (sw : Bool) (km : Nat) : (swHdr sw km).km = km := rfl
@[simp] theorem swHdr_sw (sw : Bool) (km : Nat) : (swHdr sw km).sw = sw := rfl
@[simp] theorem swHdr_la (sw : Bool) (km : Nat) : (swHdr sw km).la = false := rfl
@[simp] theorem swHdr_lb (sw : Bool) (km : Nat) : (swHdr sw km).lb = false := rfl
@[simp] theorem swHdr_lc (sw : Bool) (km : Nat) : (swHdr sw km).lc = false := rfl

/-- Format B: the header, the kind, the register and the offset are read back (R33). -/
theorem roundTrip_encBr {i : Instr} {sw : Bool} {op km : Nat} {off : BitVec 36} {kind n : Nat}
    (hop : op < 256) (henc : encode i = some (encBr sw op km off kind n)) (hkm : km < 16) (hk : kind < 4) (hn : n < 64)
    (hdec : ∀ r : Raw, r.sw = sw → r.op = op → r.km = km → r.la = false ∧ r.lb = false ∧ r.lc = false ∧ r.x = false →
      fld r.w 46 11 = off.toNat → fld r.w 10 9 = kind → fld r.w 8 6 = 0 → fld r.w 5 0 = n → decodeRaw r = .ok i) : RoundTrip i := by
  have ho : off.toNat < 2 ^ 36 := off.isLt
  have hl : off.toNat * 2 ^ 11 + (kind * 2 ^ 9 + n) < 2 ^ 47 := by omega
  have hw : encBr sw op km off kind n = (headWord (swHdr sw km) op false + (off.toNat * 2 ^ 11 + (kind * 2 ^ 9 + n)), 0) := by
    simp only [encBr, Nat.add_assoc]
  refine ⟨_, henc.trans (congrArg some hw), headWord_lt _ hkm hop hl, Nat.two_pow_pos 64, ?_⟩
  rw [decode_eq_decodeRaw, rawOf_headWord _ _ hkm hop hl]
  refine hdec _ rfl rfl rfl ⟨rfl, rfl, rfl, rfl⟩ ?_ ?_ ?_ ?_ <;>
    simp only [headWord, fld, Nat.reduceAdd, Nat.reduceSub, Nat.reducePow] at * <;> omega

theorem roundTrip_brzMask {sw : Bool} {km : Nat} {off : BitVec 36} (hw : Instr.WellFormed (.brzMask sw km off)) :
    RoundTrip (.brzMask sw km off) :=
  roundTrip_encBr (by decide) rfl (of_decide_eq_true hw) (by decide) (by decide) fun r _ _ _ _ _ _ _ _ => by
    simp [decodeRaw, decControl, formatB, offOf, *]

theorem roundTrip_brnzMask {sw : Bool} {km : Nat} {off : BitVec 36} (hw : Instr.WellFormed (.brnzMask sw km off)) :
    RoundTrip (.brnzMask sw km off) :=
  roundTrip_encBr (by decide) rfl (of_decide_eq_true hw) (by decide) (by decide) fun r _ _ _ _ _ _ _ _ => by
    simp [decodeRaw, decControl, formatB, offOf, *]

theorem roundTrip_bra {sw : Bool} {off : BitVec 36} : RoundTrip (.bra sw off) :=
  roundTrip_encBr (by decide) rfl (by decide) (by decide) (by decide) fun r _ _ _ _ _ _ _ _ => by
    simp [decodeRaw, decControl, formatB, offOf, *]

/-- BRZ and BRNZ of a scalar, CALL and LOOP. -/
theorem roundTrip_scalarBranch {k : Bool → Nat → BitVec 36 → Instr} {sw : Bool} {op kind n : Nat} {off : BitVec 36}
    (hop : op < 256) (henc : encode (k sw n off) = some (encBr sw op 0 off kind n)) (hn : sWf n = true) (hk : kind < 4)
    (hdec : ∀ r : Raw, r.sw = sw → r.op = op → r.km = 0 → r.la = false ∧ r.lb = false ∧ r.lc = false ∧ r.x = false →
      fld r.w 46 11 = off.toNat → fld r.w 10 9 = kind → fld r.w 8 6 = 0 → fld r.w 5 0 = n → decodeRaw r = .ok (k sw n off)) : RoundTrip (k sw n off) :=
  roundTrip_encBr hop henc (by decide) hk (of_decide_eq_true hn) hdec

theorem roundTrip_split {sw : Bool} {kc tok : Nat} {off : BitVec 36} (hw : Instr.WellFormed (.split sw kc tok off)) :
    RoundTrip (.split sw kc tok off) := by
  unfold Instr.WellFormed wfInstr at hw
  simp at hw
  obtain ⟨hk, ht⟩ := hw
  have ho : off.toNat < 2 ^ 36 := off.isLt
  have hl : off.toNat * 2 ^ 11 + (kc * 2 ^ 7 + tok * 2 ^ 4) < 2 ^ 47 := by omega
  have he : encode (.split sw kc tok off) =
      some (headWord (swHdr sw 0) 0x0A false + (off.toNat * 2 ^ 11 + (kc * 2 ^ 7 + tok * 2 ^ 4)), 0) := by
    simp only [← Nat.add_assoc]
    rfl
  have hkm : (swHdr sw 0).km < 16 := by simp
  refine ⟨_, he, headWord_lt _ hkm (by decide) hl, Nat.two_pow_pos 64, ?_⟩
  rw [decode_eq_decodeRaw, rawOf_headWord _ _ hkm (by decide) hl]
  have hf : ∀ w, w = headWord (swHdr sw 0) 0x0A false + (off.toNat * 2 ^ 11 + (kc * 2 ^ 7 + tok * 2 ^ 4)) →
      fld w 46 11 = off.toNat ∧ fld w 10 7 = kc ∧ fld w 6 4 = tok ∧ fld w 3 0 = 0 := by
    rintro w rfl
    simp only [headWord, fld, Nat.reduceAdd, Nat.reduceSub, Nat.reducePow] at *
    omega
  obtain ⟨h1, h2, h3, h4⟩ := hf _ rfl
  simp [decodeRaw, decDivergence, offOf, *]

theorem roundTrip_brx {sw la : Bool} {tok : Nat} {a : Opd} (hw : Instr.WellFormed (.brx sw la tok a)) :
    RoundTrip (.brx sw la tok a) := by
  unfold Instr.WellFormed wfInstr at hw
  simp [wideWf] at hw
  have hf : fld tok 6 3 = 0 ∧ fld tok 2 0 = tok := by simp [fld]; omega
  exact roundTrip_encA (by simp [*]) rfl (by omega) (fun w => by simp [decodeRaw, decDivergence, noB, noC, *])

theorem roundTrip_join {sw : Bool} {tok : Nat} (hw : Instr.WellFormed (.join sw tok)) : RoundTrip (.join sw tok) := by
  have ht : tok < 8 := of_decide_eq_true hw
  have hf : fld tok 6 3 = 0 ∧ fld tok 2 0 = tok := by simp [fld]; omega
  exact roundTrip_encA (by simp [*]) rfl (by omega) (fun w => by simp [decodeRaw, decDivergence, noA, noB, noC, *])

theorem roundTrip_meld {sw two : Bool} {ka kb : KReg} (hw : Instr.WellFormed (.meld sw two ka kb)) :
    RoundTrip (.meld sw two ka kb) := by
  unfold Instr.WellFormed wfInstr at hw
  simp at hw
  have hk : (!two || kField kb == 0) = true := by cases two <;> simp_all [kField]
  exact roundTrip_encA (by simp [*]) rfl (by have := bit1_lt two; omega)
    (fun w => by simp [decodeRaw, decDivergence, noC, fld_bit1, *])

theorem roundTrip_path {sw : Bool} {j p0 p1 p2 p3 : Nat} (hw : Instr.WellFormed (.path sw j p0 p1 p2 p3)) :
    RoundTrip (.path sw j p0 p1 p2 p3) := by
  unfold Instr.WellFormed wfInstr at hw
  simp [vWf] at hw
  have hf : fld j 6 4 = 0 ∧ fld j 3 0 = j := by simp [fld]; omega
  exact roundTrip_encA (by simp [*]; omega) rfl (by omega) (fun w => by simp [decodeRaw, decDivergence, *])

theorem roundTrip_ret {sw la : Bool} {t : Nat} (hw : Instr.WellFormed (.ret sw la t)) : RoundTrip (.ret sw la t) := by
  have ht : t < 64 := of_decide_eq_true hw
  have ho : opdOf (0xC0 + t) = .s t := opdOf_opdField (o := .s t) hw
  have hf : fld (headWord ⟨sw, 0, la, false, false⟩ 0x05 false + lowA 0 (0xC0 + t) 0 0 0 0) 10 0 = 0 := by
    simp only [headWord, lowA, fld, Nat.reduceAdd, Nat.reduceSub, Nat.reducePow]
    omega
  have hl := lowA_lt (d := 0) (a := 0xC0 + t) (b := 0) (c := 0) (ft := 0) (fv := 0) (by decide) (by omega) (by decide)
    (by decide) (by decide) (by decide)
  refine ⟨_, congrArg some (encA_eq ⟨sw, 0, la, false, false⟩ 0x05 0 (0xC0 + t) 0 0 0 0),
    headWord_lt _ (by simp) (by decide) hl, Nat.two_pow_pos 64, ?_⟩
  rw [decode_eq_decodeRaw, rawOf_lowA _ _ (by simp) (by decide) (by decide) (by omega) (by decide) (by decide) (by decide)
    (by decide)]
  simp [decodeRaw, decControl, isSreg, *]

theorem roundTrip_rgn {sw app : Bool} {win : Nat} {names : DWord} (hw : Instr.WellFormed (.rgn sw win app names)) :
    RoundTrip (.rgn sw win app names) := by
  have ht : win < 3 := of_decide_eq_true hw
  have hf : fld (win + 4 * bit1 app) 6 3 = 0 ∧ fld (win + 4 * bit1 app) 1 0 = win ∧ Nat.testBit (win + 4 * bit1 app) 2 = app := by
    cases app <;> simp [fld, bit1, Nat.testBit_eq_decide_div_mod_eq] <;> omega
  have hn : (win != 3) = true := by simp; omega
  exact roundTrip_encX (by simp [*]) rfl (by have := bit1_lt app; omega)
    (fun w => by simp [decodeRaw, decControl, noA, noB, noC, *])

end Sys2Proof.Machine
end

section
namespace Sys2Proof.Machine
open Sys2Proof Sys2Proof.Claims

/-! ### Floating point and conversions (R96-R103) -/

theorem fmodeOf_fvOf {h : Hdr} {op : Nat} {x : Bool} {d a b c ft w e : Nat} {t : Ty} {m : FMode}
    (hp : m.pk = false ∨ ¬ t = .f32) : fmodeOf (rawF h op x d a b c ft (fvOf m) w e) t = .ok m := by
  obtain ⟨sat, pk, rnd⟩ := m
  have hs : (!(Nat.testBit (fvOf ⟨sat, pk, rnd⟩) 3 && t == .f32)) = true := by
    cases pk <;> cases sat <;> cases rnd <;> simp_all [fvOf, bit1, codeOfRnd, Nat.testBit_eq_decide_div_mod_eq]
  simp only [fmodeOf, hs]
  cases sat <;> cases pk <;> cases rnd <;> rfl

theorem fvOf_lt (m : FMode) : fvOf m < 128 := by
  have h1 := bit1_lt m.sat
  have h2 := bit1_lt m.pk
  have h3 := codeOfRnd_lt m.rnd
  simp only [fvOf]
  omega

theorem pkOnly_pk {h : Hdr} {op : Nat} {x : Bool} {d a b c ft w e : Nat} {t : Ty} {pk : Bool}
    (hp : pk = false ∨ ¬ t = .f32) : pkOnly (rawF h op x d a b c ft (8 * bit1 pk) w e) t = .ok pk := by
  cases pk with
  | false => simp [pkOnly, bit1, fld]
  | true =>
    have ht : (!(t == .f32)) = true := by simpa using hp
    simp [pkOnly, ht, bit1, fld, Nat.testBit_eq_decide_div_mod_eq]

theorem roundTrip_float1 {k : Hdr → Ty → FMode → Dst → Opd → Instr} {h : Hdr} {t : Ty} {m : FMode} {d : Dst} {a : Opd}
    {op : Nat} (hop : op < 256) (henc : encode (k h t m d a) = some (encA h op (dstField d) (opdField a) 0 0 (codeOfTy t) (fvOf m)))
    (hw : (pkWf t m.pk && wf1 h d a) = true)
    (hdec : ∀ r : Raw, r.op = op → tyOfCode r.ft = t → t ∈ floatTys → decodeRaw r = decF1 r t k) : RoundTrip (k h t m d a) := by
  simp [pkWf, wf1, hdrWf] at hw
  exact roundTrip_encA (by simp [*]) henc (fvOf_lt m) (fun w => by
    rw [hdec _ rfl (by simp) hw.1.1, decF1, fmodeOf_fvOf hw.1.2]
    simp [noB, noC, *])

theorem roundTrip_float2 {k : Hdr → Ty → FMode → Dst → Opd → Opd → Instr} {h : Hdr} {t : Ty} {m : FMode} {d : Dst}
    {a b : Opd} {op : Nat}
    (hop : op < 256) (henc : encode (k h t m d a b) = some (encB h op (dstField d) (opdField a) b 0 (codeOfTy t) (fvOf m)))
    (hw : (pkWf t m.pk && wf2 h (fImm t m.pk) d a b) = true)
    (hdec : ∀ r : Raw, r.op = op → tyOfCode r.ft = t → t ∈ floatTys → decodeRaw r = decF2 r t k) : RoundTrip (k h t m d a b) := by
  simp [pkWf, wf2, hdrWf] at hw
  exact roundTrip_encB (by simp [*]) (n := fImm t m.pk) henc (by simp [*]) (fvOf_lt m) (fun w => by
    rw [hdec _ rfl (by simp) hw.1.1, decF2, fmodeOf_fvOf hw.1.2]
    simp [noC, *])

theorem roundTrip_ffma {h : Hdr} {t : Ty} {m : FMode} {d : Dst} {a b c : Opd}
    (hw : Instr.WellFormed (.ffma h t m d a b c)) : RoundTrip (.ffma h t m d a b c) := by
  unfold Instr.WellFormed wfInstr at hw
  simp [pkWf, wf3, hdrWf] at hw
  exact roundTrip_encB (by simp [*]) (n := fImm t m.pk) rfl (by simp [*]) (fvOf_lt m) fun w => by
    simp [decodeRaw, decFloat, decF3, fmodeOf_fvOf, *]

theorem roundTrip_fmin {h : Hdr} {t : Ty} {pk : Bool} {d : Dst} {a b : Opd} (hw : Instr.WellFormed (.fmin h t pk d a b)) :
    RoundTrip (.fmin h t pk d a b) := by
  unfold Instr.WellFormed wfInstr at hw
  simp [pkWf, wf2, hdrWf] at hw
  exact roundTrip_encB (by simp [*]) (n := fImm t pk) rfl (by simp [*]) (by have := bit1_lt pk; omega) fun w => by
    simp [decodeRaw, decFloat, pkOnly_pk, noC, *]

theorem roundTrip_fmax {h : Hdr} {t : Ty} {pk : Bool} {d : Dst} {a b : Opd} (hw : Instr.WellFormed (.fmax h t pk d a b)) :
    RoundTrip (.fmax h t pk d a b) := by
  unfold Instr.WellFormed wfInstr at hw
  simp [pkWf, wf2, hdrWf] at hw
  exact roundTrip_encB (by simp [*]) (n := fImm t pk) rfl (by simp [*]) (by have := bit1_lt pk; omega) fun w => by
    simp [decodeRaw, decFloat, pkOnly_pk, noC, *]

theorem roundTrip_fcmp {h : Hdr} {t : Ty} {cc : CC} {kd : KReg} {a b : Opd}
    (hw : Instr.WellFormed (.fcmp h t cc kd a b)) : RoundTrip (.fcmp h t cc kd a b) := by
  unfold Instr.WellFormed wfInstr at hw
  simp [hdrWf] at hw
  have hc := codeOfCc_lt cc
  have hf : fld (codeOfCc cc) 6 3 = 0 ∧ fld (codeOfCc cc) 2 0 = codeOfCc cc := by simp [fld]; omega
  exact roundTrip_encB (by simp [*]) (n := tyBits t) rfl (by simp [*]) (by omega) fun w => by simp [decodeRaw, decFloat, noC, *]

theorem roundTrip_frnd {h : Hdr} {t : Ty} {pk : Bool} {rnd : Rnd} {d : Dst} {a : Opd}
    (hw : Instr.WellFormed (.frnd h t pk rnd d a)) : RoundTrip (.frnd h t pk rnd d a) := by
  unfold Instr.WellFormed wfInstr at hw
  simp [pkWf, wf1, hdrWf] at hw
  have hv : 8 * bit1 pk + codeOfRnd rnd = fvOf ⟨false, pk, rnd⟩ := by simp [fvOf, bit1]
  exact roundTrip_encA (by simp [*]) rfl (hv ▸ fvOf_lt _) fun w => by
    simp [decodeRaw, decFloat, decF1, fmodeOf_fvOf, noB, noC, *]

theorem roundTrip_fclass {h : Hdr} {t : Ty} {pk : Bool} {d : Dst} {a : Opd} (hw : Instr.WellFormed (.fclass h t pk d a)) :
    RoundTrip (.fclass h t pk d a) := by
  unfold Instr.WellFormed wfInstr at hw
  simp [pkWf, wf1, hdrWf] at hw
  exact roundTrip_encA (by simp [*]) rfl (by have := bit1_lt pk; omega) fun w => by
    simp [decodeRaw, decFloat, pkOnly_pk, noB, noC, *]

theorem roundTrip_fdot2 {h : Hdr} {t : Ty} {sat : Bool} {rnd : Rnd} {d : Dst} {a b c : Opd}
    (hw : Instr.WellFormed (.fdot2 h t sat rnd d a b c)) : RoundTrip (.fdot2 h t sat rnd d a b c) := by
  unfold Instr.WellFormed wfInstr at hw
  simp [wf3, hdrWf] at hw
  have ht : (t == .f16 || t == .bf16) = true := by simp [hw.1]
  have hv : 16 * bit1 sat + codeOfRnd rnd = fvOf ⟨sat, false, rnd⟩ := by simp [fvOf, bit1]
  exact roundTrip_encB (by simp [*]) (n := 32) rfl (by simp [*]) (hv ▸ fvOf_lt _) fun w => by
    simp [decodeRaw, decFloat, fmodeOf_fvOf, *]

theorem roundTrip_fscale {h : Hdr} {t : Ty} {m : FMode} {d : Dst} {a b : Opd}
    (hw : Instr.WellFormed (.fscale h t m d a b)) : RoundTrip (.fscale h t m d a b) := by
  unfold Instr.WellFormed wfInstr at hw
  simp [pkWf, wf2, hdrWf] at hw
  exact roundTrip_encB (by simp [*]) (n := 32) rfl (by simp [*]) (fvOf_lt m) fun w => by
    simp [decodeRaw, decFloat, fmodeOf_fvOf, noC, *]

/-- A code above a rounding mode in F.VAR. -/
theorem fld_code_rnd {n : Nat} {rnd : Rnd} (hn : n < 16) :
    fld (8 * n + codeOfRnd rnd) 6 3 = n ∧ fld (8 * n + codeOfRnd rnd) 2 0 = codeOfRnd rnd ∧ 8 * n + codeOfRnd rnd < 128 := by
  have := codeOfRnd_lt rnd
  simp only [fld, Nat.reduceAdd, Nat.reduceSub, Nat.reducePow]
  omega

theorem roundTrip_cvt {h : Hdr} {td ts : Ty} {rnd : Rnd} {d : Dst} {a : Opd}
    (hw : Instr.WellFormed (.cvt h td ts rnd d a)) : RoundTrip (.cvt h td ts rnd d a) := by
  unfold Instr.WellFormed wfInstr at hw
  simp [w1, hdrWf] at hw
  obtain ⟨h1, h2, h3⟩ := fld_code_rnd (rnd := rnd) (codeOfTy_lt ts)
  exact roundTrip_encA (by simp [*]) rfl h3 fun w => by simp [decodeRaw, decConvert, noB, noC, *]

theorem roundTrip_decQ {k : Hdr → Elem → Rnd → Dst → Opd → Opd → Instr} {h : Hdr} {el : Elem} {rnd : Rnd} {d : Dst}
    {a b : Opd} {op : Nat} (hop : op < 256) (henc : encode (k h el rnd d a b) =
      some (encB h op (dstField d) (opdField a) b 0 (codeOfTy .f32) (8 * codeOfElem el + codeOfRnd rnd)))
    (hw : wf2 h 32 d a b = true) (hdec : ∀ r : Raw, r.op = op → decodeRaw r = decQ r k) :
    RoundTrip (k h el rnd d a b) := by
  simp [wf2, hdrWf] at hw
  obtain ⟨h1, h2, h3⟩ := fld_code_rnd (n := codeOfElem el) (rnd := rnd) (by have := codeOfElem_lt el; omega)
  exact roundTrip_encB (by simp [*]) (n := 32) henc (by simp [*]) h3 (fun w => by
    rw [hdec _ rfl]
    simp [decQ, noC, *])

/-- TPACK and TUNPK. -/
theorem roundTrip_trits {k : Hdr → Dst → Opd → Opd → Instr} {h : Hdr} {d : Dst} {a b : Opd} {op : Nat}
    (hop : op < 256) (henc : encode (k h d a b) = some (encB h op (dstField d) (opdField a) b 0 0 0)) (hw : wf2 h 32 d a b = true)
    (hdec : ∀ r : Raw, r.op = op → r.ft = 0 → r.fv = 0 → dstOf r.d = .ok d → opdOf r.a = a → srcB r 32 = .ok b → noC r = true →
      scalarRule d [a, b] = true → decodeRaw r = .ok (k r.hdr d a b)) :
    RoundTrip (k h d a b) := by
  simp [wf2, hdrWf] at hw
  exact roundTrip_encB (by simp [*]) (n := 32) henc (by simp [*]) (by decide) (fun w =>
    hdec _ rfl rfl rfl (by simp [*]) (by simp [*]) (by simp [*]) (by simp [noC, *]) (by simp [*]))

/-- F.VAR of PACK and UNPK. -/
theorem fld_nib (nib : Bool) (rnd : Rnd) :
    Nat.testBit (8 * bit1 nib + codeOfRnd rnd) 3 = nib ∧ fld (8 * bit1 nib + codeOfRnd rnd) 2 0 = codeOfRnd rnd ∧
      fld (8 * bit1 nib + codeOfRnd rnd) 6 4 = 0 ∧ 8 * bit1 nib + codeOfRnd rnd < 128 := by
  cases nib <;> cases rnd <;> decide

theorem roundTrip_pack {h : Hdr} {t : Ty} {nib : Bool} {rnd : Rnd} {d : Dst} {a b : Opd} {c : Option Opd}
    (hw : Instr.WellFormed (.pack h t nib rnd d a b c)) : RoundTrip (.pack h t nib rnd d a b c) := by
  unfold Instr.WellFormed wfInstr at hw
  obtain ⟨h1, h2, h3, h4⟩ := fld_nib nib rnd
  simp only [Bool.and_eq_true] at hw
  obtain ⟨⟨⟨ht, hr⟩, hn⟩, hw⟩ := hw
  simp at ht
  have hr : (decide (t ∈ floatTys) || rnd == .rne) = true := by simpa using hr
  cases c with
  | some o =>
    simp [wf3, hdrWf] at hw
    exact roundTrip_encB (by simp [*]) (n := 32) rfl (by simp [*]) h4 fun w => by simp [decodeRaw, decConvert, *]
  | none =>
    simp [wf2, hdrWf] at hw
    have ht : (decide (t = .i16) || (decide (t = .n16) || (decide (t = .f16) || decide (t = .bf16)))) = true := by
      simpa [hw.1] using ht
    exact roundTrip_encB (by simp [*]) (n := 32) rfl (by simp [*]) h4 fun w => by simp [decodeRaw, decConvert, noC, *]

theorem roundTrip_unpk {h : Hdr} {t : Ty} {nib : Bool} {rnd : Rnd} {d : Dst} {a b : Opd}
    (hw : Instr.WellFormed (.unpk h t nib rnd d a b)) : RoundTrip (.unpk h t nib rnd d a b) := by
  unfold Instr.WellFormed wfInstr at hw
  obtain ⟨h1, h2, h3, h4⟩ := fld_nib nib rnd
  simp only [Bool.and_eq_true] at hw
  obtain ⟨⟨⟨ht, hr⟩, hn⟩, hw⟩ := hw
  simp at ht
  have hr : (decide (t ∈ floatTys) || rnd == .rne) = true := by simpa using hr
  simp [wf2, hdrWf] at hw
  exact roundTrip_encB (by simp [*]) (n := 32) rfl (by simp [*]) h4 fun w => by simp [decodeRaw, decConvert, noC, *]

end Sys2Proof.Machine
end

section
namespace Sys2Proof.Machine
open Sys2Proof Sys2Proof.Claims

/-! ### Lane and mask instructions (R105-R110, R46-R48) -/

theorem roundTrip_shfl {h : Hdr} {t : Ty} {mode : ShflMode} {g : Nat} {d : Dst} {a b : Opd}
    (hw : Instr.WellFormed (.shfl h t mode g d a b)) : RoundTrip (.shfl h t mode g d a b) := by
  unfold Instr.WellFormed wfInstr at hw
  simp only [Bool.and_eq_true] at hw
  obtain ⟨⟨ht, hg⟩, hw⟩ := hw
  simp [w2At, hdrWf] at hg hw
  have hm := codeOfShfl_lt mode
  have hf : fld (4 * g + codeOfShfl mode) 6 5 = 0 ∧ fld (4 * g + codeOfShfl mode) 4 2 = g ∧
      shflOfCode (fld (4 * g + codeOfShfl mode) 1 0) = mode := by
    refine ⟨by simp [fld]; omega, by simp [fld]; omega, ?_⟩
    have h0 : fld (4 * g + codeOfShfl mode) 1 0 = codeOfShfl mode := by simp [fld]; omega
    rw [h0]
    cases mode <;> rfl
  exact roundTrip_encB (by simp [*]) (n := 32) rfl (by simp [*]) (by omega) fun w => by simp [decodeRaw, decLane, noC, *]

theorem roundTrip_vote {h : Hdr} {k : VoteKind} {d : MDst} {a : Opd} (hw : Instr.WellFormed (.vote h k d a)) :
    RoundTrip (.vote h k d a) := by
  unfold Instr.WellFormed wfInstr at hw
  cases d with
  | mask kd =>
    simp [hdrWf] at hw
    obtain ⟨hw, rfl, hk⟩ := hw
    exact roundTrip_encA (by simp [*, mdstField, kField_lt hk]) rfl (by decide) (fun w => by
      simp [decodeRaw, decLane, noB, noC, mdstField, codeOfVote, *])
  | reg r =>
    simp [hdrWf] at hw
    have hv := codeOfVote_lt k
    have hk : ¬ codeOfVote k = 0 ∧ voteOfCode (codeOfVote k) = k := by cases k <;> simp_all [codeOfVote, voteOfCode]
    exact roundTrip_encA (by simp [*, mdstField, dstField_lt hw.2.1.2]) rfl (by omega) (fun w => by
      simp [decodeRaw, decLane, noB, noC, mdstField, *])

/-- F.VAR of LRED and LSCAN. -/
theorem fld_red (excl : Bool) (rnd : Rnd) (op : RedOp) :
    let n := 64 * bit1 excl + 8 * codeOfRnd rnd + codeOfRed op
    fld n 2 0 = codeOfRed op ∧ fld n 5 3 = codeOfRnd rnd ∧ Nat.testBit n 6 = excl ∧ n < 128 := by
  cases excl <;> cases rnd <;> cases op <;> decide

theorem roundTrip_lred {h : Hdr} {t : Ty} {op : RedOp} {rnd : Rnd} {d : Dst} {a : Opd}
    (hw : Instr.WellFormed (.lred h t op rnd d a)) : RoundTrip (.lred h t op rnd d a) := by
  unfold Instr.WellFormed wfInstr at hw
  simp only [Bool.and_eq_true] at hw
  obtain ⟨⟨⟨⟨⟨⟨⟨ht, hr⟩, hh⟩, hd⟩, hpush⟩, ha⟩, hpd⟩, hpa⟩ := hw
  simp [hdrWf] at hh hpush
  obtain ⟨h1, h2, h3, h4⟩ := fld_red false rnd op
  simp [bit1] at h1 h2 h3 h4
  exact roundTrip_encA (by simp [*]) rfl h4 fun w => by simp [decodeRaw, decLane, decRed, noB, noC, *]

theorem roundTrip_lscan {h : Hdr} {t : Ty} {op : RedOp} {rnd : Rnd} {excl : Bool} {d : Dst} {a : Opd}
    (hw : Instr.WellFormed (.lscan h t op rnd excl d a)) : RoundTrip (.lscan h t op rnd excl d a) := by
  unfold Instr.WellFormed wfInstr at hw
  simp only [Bool.and_eq_true] at hw
  obtain ⟨⟨⟨⟨⟨⟨⟨⟨ht, hr⟩, hh⟩, hd⟩, hpush⟩, hs⟩, ha⟩, hpd⟩, hpa⟩ := hw
  simp [hdrWf] at hh hpush hs
  obtain ⟨h1, h2, h3, h4⟩ := fld_red excl rnd op
  exact roundTrip_encA (by simp [*]) rfl h4 fun w => by simp [decodeRaw, decLane, decRed, noB, noC, *]

theorem roundTrip_bcast {h : Hdr} {t : Ty} {d : Dst} {a : Opd} {b : Option Opd}
    (hw : Instr.WellFormed (.bcast h t d a b)) : RoundTrip (.bcast h t d a b) := by
  unfold Instr.WellFormed wfInstr at hw
  cases b with
  | none =>
    simp [hdrWf] at hw
    have ht : (t == .b32 || t == .b64) = true := by simpa using hw.1.1.1.1.1.1
    exact roundTrip_encA (by simp [*]) rfl (by decide) fun w => by simp [decodeRaw, decLane, noB, noC, *]
  | some o =>
    simp [hdrWf] at hw
    have ht : (t == .b32 || t == .b64) = true := by simpa using hw.1.1.1.1.1.1
    exact roundTrip_encB (by simp [*]) (n := 32) rfl (by simp [*]) (by decide) fun w => by simp [decodeRaw, decLane, noC, *]

@[simp] theorem bit1_le_one (b : Bool) : bit1 b ≤ 1 := Nat.le_of_lt_succ (bit1_lt b)
@[simp] theorem bit1_eq_zero (b : Bool) : bit1 b = 0 ↔ b = false := by cases b <;> simp [bit1]
@[simp] theorem bit1_beq_one (b : Bool) : (bit1 b == 1) = b := by cases b <;> rfl

theorem roundTrip_matchLanes {h : Hdr} {t : Ty} {cnt : Bool} {d : Nat} {a : Opd}
    (hw : Instr.WellFormed (.matchLanes h t cnt d a)) : RoundTrip (.matchLanes h t cnt d a) := by
  unfold Instr.WellFormed wfInstr at hw
  simp [hdrWf, vWf] at hw
  have ht : (t == .b32 || t == .b64) = true := by simpa using hw.1.1.1.1
  exact roundTrip_encA (by simp [*]; omega) rfl (by have := bit1_lt cnt; omega) (fun w => by simp [decodeRaw, decLane, noB, noC, *])

theorem roundTrip_topk {h : Hdr} {t : Ty} {sc d : Nat} {a b : Opd} (hw : Instr.WellFormed (.topk h t sc d a b)) :
    RoundTrip (.topk h t sc d a b) := by
  unfold Instr.WellFormed wfInstr at hw
  simp only [Bool.and_eq_true] at hw
  obtain ⟨⟨⟨⟨⟨⟨ht, hsc⟩, hd⟩, hh⟩, ha⟩, hb⟩, hbc⟩ := hw
  simp [hdrWf] at hsc hd hh hbc
  have hf : fld sc 6 6 = 0 ∧ fld sc 5 0 = sc := by simp [fld]; omega
  exact roundTrip_encB (by simp [*]; omega) (n := 32) rfl hb (by omega) (fun w => by simp [decodeRaw, decLane, noC, *])

theorem roundTrip_kop {h : Hdr} {op : KopOp} {kd ka kb : KReg} (hw : Instr.WellFormed (.kop h op kd ka kb)) :
    RoundTrip (.kop h op kd ka kb) := by
  unfold Instr.WellFormed wfInstr at hw
  simp [hdr0, hdrWf] at hw
  have ho := codeOfKop_lt op
  have hb : (op != .not || (kField kb == 0 && !h.lb)) = true := by cases op <;> simp_all [kField]
  exact roundTrip_encA (by simp [*]) rfl (by omega) fun w => by simp [decodeRaw, decMask, noB, noC, *]

theorem roundTrip_kmov {h : Hdr} {f : KmovForm} (hw : Instr.WellFormed (.kmov h f)) : RoundTrip (.kmov h f) := by
  unfold Instr.WellFormed wfInstr at hw
  cases f with
  | kk d a =>
    simp [hdr0, hdrWf] at hw
    exact roundTrip_encA (by simp [*]) rfl (by decide) fun w => by simp [decodeRaw, decMask, noB, noC, *]
  | loIn d a | hiIn d a =>
    simp [hdr0, hdrWf] at hw
    have ha : a < 64 := of_decide_eq_true hw.2
    exact roundTrip_encA (by simp [*]; omega) rfl (by decide) (fun w => by simp [decodeRaw, decMask, noB, noC, *])
  | loOut d a | hiOut d a =>
    simp [hdr0, hdrWf] at hw
    have hd : d < 64 := of_decide_eq_true hw.1.2
    exact roundTrip_encA (by simp [*]; omega) rfl (by decide) (fun w => by simp [decodeRaw, decMask, noB, noC, *])
  | toV d a =>
    simp [hdr0, hdrWf] at hw
    have hd : d < 192 := of_decide_eq_true hw.1.2
    exact roundTrip_encA (by simp [*]; omega) rfl (by decide) (fun w => by simp [decodeRaw, decMask, noB, noC, *])

@[simp] theorem sWf_lt {n : Nat} (h : sWf n = true) : 0xC0 + n < 512 := by
  have hn : n < 64 := of_decide_eq_true h
  omega

@[simp] theorem vWf_lt {n : Nat} (h : vWf n = true) : n < 512 := by
  have hn : n < 0xC0 := of_decide_eq_true h
  omega

theorem roundTrip_kpop {h : Hdr} {d : Nat} {ka : KReg} (hw : Instr.WellFormed (.kpop h d ka)) :
    RoundTrip (.kpop h d ka) := by
  unfold Instr.WellFormed wfInstr at hw
  simp [hdr0, hdrWf] at hw
  exact roundTrip_encA (by simp [*]) rfl (by decide) fun w => by simp [decodeRaw, decMask, noB, noC, *]

theorem roundTrip_kfnd {h : Hdr} {hi : Bool} {d : Nat} {ka : KReg} {b : Opd}
    (hw : Instr.WellFormed (.kfnd h hi d ka b)) : RoundTrip (.kfnd h hi d ka b) := by
  unfold Instr.WellFormed wfInstr at hw
  simp [hdr0, hdrWf, sclWf] at hw
  exact roundTrip_encB (by simp [*]) (n := 64) rfl (by simp [*]) (by have := bit1_lt hi; omega) fun w => by
    simp [decodeRaw, decMask, noC, *]

theorem roundTrip_srd {h : Hdr} {d : Dst} {r : SReg} (hw : Instr.WellFormed (.srd h d r)) : RoundTrip (.srd h d r) := by
  unfold Instr.WellFormed wfInstr at hw
  simp only [Bool.and_eq_true] at hw
  obtain ⟨⟨⟨hh, hd⟩, hr⟩, hl⟩ := hw
  simp [hdrWf] at hh
  simp only [Bool.not_and] at hl
  exact roundTrip_encA (by simp [*]) rfl (codeOfSreg_lt hr) fun w => by simp [decodeRaw, decMask, noA, noB, noC, *]

theorem roundTrip_swr {h : Hdr} {r : SReg} {a : Opd} (hw : Instr.WellFormed (.swr h r a)) : RoundTrip (.swr h r a) := by
  unfold Instr.WellFormed wfInstr at hw
  simp [hdrWf] at hw
  exact roundTrip_encA (by simp [*]) rfl (codeOfSreg_lt hw.1.2) fun w => by simp [decodeRaw, decMask, noB, noC, *]

/-- CLK and CLK.ptp. -/
theorem roundTrip_clocks {k : Hdr → Nat → Instr} {h : Hdr} {d fv : Nat}
    (henc : encode (k h d) = some (encA h 0x76 (0xC0 + d) 0 0 0 0 fv)) (hw : (hdr0 h false false false && sWf d) = true)
    (hf : fv < 2) (hk : k h d = if fv = 0 then .clk h d else .clkPtp h d) : RoundTrip (k h d) := by
  simp [hdr0, hdrWf] at hw
  exact roundTrip_encA (by simp [*]) henc (by omega) fun w => by simp [decodeRaw, decMask, noA, noB, noC, *]

/-! ### System instructions (R313, R328-R335) -/

/-- The bound on an immediate of TRAP, HALT, CKPT and ERRD is the one on the extension word. -/
theorem ext_below {b : Opd} {n : Nat} (h : (match b with
    | .imm e => decide (e.toNat < n)
    | _ => true) = true) : (!isImm b || decide (extOf b < n)) = true := by
  cases b <;> simp_all [isImm, extOf]

theorem roundTrip_trap {h : Hdr} {b : Opd} (hw : Instr.WellFormed (.trap h b)) : RoundTrip (.trap h b) := by
  unfold Instr.WellFormed wfInstr at hw
  simp only [Bool.and_eq_true] at hw
  obtain ⟨⟨hh, hb⟩, hi⟩ := hw
  have hi : (!isImm b || decide (extOf b < 65536)) = true := ext_below hi
  simp [hdrWf, sclWf] at hh hb
  exact roundTrip_encB (by simp [*]) (n := 64) rfl hb.1 (by decide) fun w => by simp [decodeRaw, decSystem, noA, noC, *]

theorem roundTrip_halt {h : Hdr} {b : Opd} (hw : Instr.WellFormed (.halt h b)) : RoundTrip (.halt h b) := by
  unfold Instr.WellFormed wfInstr at hw
  simp only [Bool.and_eq_true] at hw
  obtain ⟨⟨hh, hb⟩, hi⟩ := hw
  have hi : (!isImm b || decide (extOf b < 65536)) = true := ext_below hi
  simp [hdr0, hdrWf, sclWf] at hh hb
  exact roundTrip_encB (by simp [*]) (n := 64) rfl hb.1 (by decide) fun w => by simp [decodeRaw, decSystem, noA, noC, *]

theorem roundTrip_ckpt {h : Hdr} {d : Nat} {b : Opd} (hw : Instr.WellFormed (.ckpt h d b)) : RoundTrip (.ckpt h d b) := by
  unfold Instr.WellFormed wfInstr at hw
  simp only [Bool.and_eq_true] at hw
  obtain ⟨⟨⟨hh, hd⟩, hb⟩, hi⟩ := hw
  have hi : (!isImm b || decide (extOf b < 2048)) = true := ext_below hi
  simp [hdr0, hdrWf, sclWf] at hh hb
  exact roundTrip_encB (by simp [*]) (n := 64) rfl hb.1 (by decide) fun w => by simp [decodeRaw, decSystem, fld, noA, noC, *]

theorem roundTrip_ckptHint {h : Hdr} {b : Opd} (hw : Instr.WellFormed (.ckptHint h b)) : RoundTrip (.ckptHint h b) := by
  unfold Instr.WellFormed wfInstr at hw
  simp [hdr0, hdrWf, sclWf] at hw
  exact roundTrip_encB (by simp [*]) (n := 32) rfl hw.2.1 (by decide) fun w => by simp [decodeRaw, decSystem, fld, noA, noC, *]

theorem roundTrip_errd {h : Hdr} {clr : Bool} {d : Nat} {b : Opd} (hw : Instr.WellFormed (.errd h clr d b)) :
    RoundTrip (.errd h clr d b) := by
  unfold Instr.WellFormed wfInstr at hw
  simp only [Bool.and_eq_true] at hw
  obtain ⟨⟨⟨hh, hd⟩, hb⟩, hi⟩ := hw
  have hi : (!isImm b || decide (extOf b < 3)) = true := ext_below hi
  simp [hdrWf, sclWf] at hh hb
  exact roundTrip_encB (by simp [*]) (n := 64) rfl hb.1 (by have := bit1_lt clr; omega) fun w => by
    simp [decodeRaw, decSystem, fld_bit1, noA, noC, *]

theorem roundTrip_pdone {h : Hdr} {a : Nat} (hw : Instr.WellFormed (.pdone h a)) : RoundTrip (.pdone h a) := by
  unfold Instr.WellFormed wfInstr at hw
  simp [hdr0, hdrWf] at hw
  exact roundTrip_encA (by simp [*]) rfl (by decide) fun w => by simp [decodeRaw, decSystem, noB, noC, *]

theorem roundTrip_tlbiRng {h : Hdr} {a : Nat} {b : Opd} (hw : Instr.WellFormed (.tlbiRng h a b)) :
    RoundTrip (.tlbiRng h a b) := by
  unfold Instr.WellFormed wfInstr at hw
  simp [hdr0, hdrWf, sclWf] at hw
  exact roundTrip_encB (by simp [*]) (n := 64) rfl hw.2.1 (by decide) fun w => by simp [decodeRaw, decSystem, fld, noC, *]

theorem roundTrip_tlbiAll {h : Hdr} (hw : Instr.WellFormed (.tlbiAll h)) : RoundTrip (.tlbiAll h) := by
  unfold Instr.WellFormed wfInstr at hw
  simp [hdr0, hdrWf] at hw
  exact roundTrip_encA (by simp [*]) rfl (by decide) fun w => by simp [decodeRaw, decSystem, fld, noA, noB, noC, *]

theorem roundTrip_tlbiNg {h : Hdr} (hw : Instr.WellFormed (.tlbiNg h)) : RoundTrip (.tlbiNg h) := by
  unfold Instr.WellFormed wfInstr at hw
  simp [hdr0, hdrWf] at hw
  exact roundTrip_encA (by simp [*]) rfl (by decide) fun w => by simp [decodeRaw, decSystem, fld, noA, noB, noC, *]

end Sys2Proof.Machine
end

section
namespace Sys2Proof.Machine
open Sys2Proof Sys2Proof.Claims

/-! ### Memory and atomic instructions (R32, R167, R170-R175) -/

/-- The field of an index, 0x1FF for none. -/
def idxField : Option Opd → Nat
  | none => 0x1FF
  | some o => opdField o

/-- What a word of Format M holds below its fields D, A and B. -/
structure HoldsM (r : Raw) (h : Hdr) (op d : Nat) (m : MAddr) (wid f : Nat) : Prop where
  hdr : r.hdr = h
  op : r.op = op
  x : r.x = m.ofs.isSome
  ext : r.ext = (m.ofs.map BitVec.toNat).getD 0
  d : r.d = d
  a : r.a = opdField m.base
  b : r.b = idxField m.idx
  ord : fld r.w 19 18 = codeOfOrd m.ord
  scp : fld r.w 17 15 = codeOfScope m.scp
  str : fld r.w 14 11 = m.str
  pol : fld r.w 10 9 = codeOfPol m.pol
  wid : widOf r = wid
  fn : fnOf r = f

theorem codeOfOrd_lt (o : MOrd) : codeOfOrd o < 4 := by cases o <;> decide
theorem codeOfPol_lt (p : Pol) : codeOfPol p < 4 := by cases p <;> decide
@[simp] theorem ordOfCode_codeOfOrd (o : MOrd) : ordOfCode (codeOfOrd o) = o := by cases o <;> rfl
@[simp] theorem polOfCode_codeOfPol (p : Pol) : polOfCode (codeOfPol p) = p := by cases p <;> rfl

theorem idxField_lt {lb : Bool} {m : MAddr} {ords : List MOrd} (hm : addrWf lb m ords = true) : idxField m.idx < 512 := by
  cases hi : m.idx with
  | none => simp [idxField]
  | some o =>
    simp only [addrWf, hi, Bool.and_eq_true] at hm
    exact opdField_lt hm.2.1

/-- A word of Format M round-trips where the decoder of what it holds gives the instruction back. -/
theorem roundTrip_encM {i : Instr} {h : Hdr} {op d wid f : Nat} {m : MAddr} {ords : List MOrd}
    (hs : op < 256 ∧ h.km < 16 ∧ d < 512)
    (henc : encode i = some (encM h op d m wid f)) (hm : addrWf h.lb m ords = true) (hwid : wid < 8) (hf : f < 64)
    (hdec : ∀ r : Raw, HoldsM r h op d m wid f → decodeRaw r = .ok i) : RoundTrip i := by
  obtain ⟨hop, hkm, hd⟩ := hs
  have hidx := idxField_lt hm
  have ho := codeOfOrd_lt m.ord
  have hs := codeOfScope_lt m.scp
  have hp := codeOfPol_lt m.pol
  have hb : opdField m.base < 512 := by simp only [addrWf, Bool.and_eq_true] at hm; exact opdField_lt hm.1.1.1.1
  have hstr : m.str < 16 := by simp only [addrWf, Bool.and_eq_true, decide_eq_true_eq] at hm; exact hm.1.2
  have hl : d * 2 ^ 38 + (opdField m.base * 2 ^ 29 + (idxField m.idx * 2 ^ 20 + (codeOfOrd m.ord * 2 ^ 18 +
      (codeOfScope m.scp * 2 ^ 15 + (m.str * 2 ^ 11 + (codeOfPol m.pol * 2 ^ 9 + (wid * 2 ^ 6 + f))))))) < 2 ^ 47 := by omega
  have he : encM h op d m wid f = (headWord h op m.ofs.isSome + (d * 2 ^ 38 + (opdField m.base * 2 ^ 29 +
      (idxField m.idx * 2 ^ 20 + (codeOfOrd m.ord * 2 ^ 18 + (codeOfScope m.scp * 2 ^ 15 + (m.str * 2 ^ 11 +
      (codeOfPol m.pol * 2 ^ 9 + (wid * 2 ^ 6 + f)))))))), (m.ofs.map BitVec.toNat).getD 0) := by
    simp only [encM, Nat.add_assoc]
    cases m.ofs <;> cases m.idx <;> rfl
  refine ⟨_, henc.trans (congrArg some he), headWord_lt _ hkm hop hl, ?_, ?_⟩
  · cases m.ofs with
    | none => simp
    | some e => exact e.isLt
  rw [decode_eq_decodeRaw, rawOf_headWord _ _ hkm hop hl]
  refine hdec _ ⟨rfl, rfl, rfl, rfl, ?_, ?_, ?_, ?_, ?_, ?_, ?_, ?_, ?_⟩ <;>
    simp only [widOf, fnOf, headWord, fld, Nat.reduceAdd, Nat.reduceSub, Nat.reducePow] at * <;> omega

/-- The address part is read back. -/
theorem addrOf_holds {r : Raw} {h : Hdr} {op d wid f : Nat} {m : MAddr} {ords : List MOrd}
    (hr : HoldsM r h op d m wid f) (hm : addrWf h.lb m ords = true) : addrOf r ords = .ok m := by
  obtain ⟨base, idx, ofs, ord, scp, str, pol⟩ := m
  have hlb : r.lb = h.lb := congrArg Hdr.lb hr.hdr
  simp only [addrWf, Bool.and_eq_true] at hm
  obtain ⟨⟨⟨⟨hb, hp⟩, ho⟩, hs⟩, hi⟩ := hm
  have hx : (if r.x then some (BitVec.ofNat 64 r.ext) else none) = ofs := by
    rw [hr.x, hr.ext]
    cases ofs <;> simp
  cases idx with
  | none =>
    have hlb0 : r.lb = false := by simpa [hlb] using hi
    simp [addrOf, hr.ord, hr.scp, hr.str, hr.pol, hr.a, hr.b, hx, opdOf_opdField hb, hp, idxField, hlb0] at ho ⊢
    simp [ho]
  | some o =>
    simp only [Bool.and_eq_true] at hi
    have hn : ¬ opdField o = 0x1FF ∧ (opdField o != 0x1FF) = true := by
      have hw := hi.1
      cases o <;> simp_all [opdField, opdWf] <;> omega
    simp [addrOf, hr.ord, hr.scp, hr.str, hr.pol, hr.a, hr.b, hx, opdOf_opdField hb, hp, idxField, hn,
      opdOf_opdField hi.1] at ho ⊢
    simp [ho]

theorem HoldsM.lc {r : Raw} {h : Hdr} {op d wid f : Nat} {m : MAddr} (hr : HoldsM r h op d m wid f) : r.lc = h.lc :=
  congrArg Hdr.lc hr.hdr

theorem roundTrip_ld {h : Hdr} {wid : Nat} {sx : Bool} {d : Dst} {m : MAddr} (hw : Instr.WellFormed (.ld h wid sx d m)) :
    RoundTrip (.ld h wid sx d m) := by
  unfold Instr.WellFormed wfInstr at hw
  simp only [Bool.and_eq_true] at hw
  obtain ⟨⟨⟨⟨⟨⟨hh, hm⟩, hwid⟩, hsx⟩, hd⟩, hwd⟩, hs⟩ := hw
  simp [memHdr, hdrWf] at hh hwid
  refine roundTrip_encM (by simp [*]) rfl hm (by omega) (by have := bit1_lt sx; omega) fun r hr => ?_
  have hl : (bit1 sx == 0 || bit1 sx == 1 && decide (wid ≤ 1)) = true := by cases sx <;> simp_all [bit1]
  simp only [decodeRaw, decMemory, hr.op, hr.wid, hr.fn, addrOf_holds hr hm, hr.d, hr.hdr, hr.lc, hl]
  simp [*]

theorem roundTrip_st {h : Hdr} {wid : Nat} {d : Opd} {m : MAddr} (hw : Instr.WellFormed (.st h wid d m)) :
    RoundTrip (.st h wid d m) := by
  unfold Instr.WellFormed wfInstr at hw
  simp only [Bool.and_eq_true] at hw
  obtain ⟨⟨⟨⟨⟨hh, hm⟩, hwid⟩, hd⟩, hwd⟩, hs⟩ := hw
  simp [memHdr, hdrWf] at hh hwid
  refine roundTrip_encM (by simp [*]) rfl hm (by omega) (by decide) fun r hr => ?_
  simp only [decodeRaw, decMemory, hr.op, hr.wid, hr.fn, addrOf_holds hr hm, hr.d, hr.hdr]
  simp [*]

theorem roundTrip_ldg {h : Hdr} {w d : Nat} {m : MAddr} (hw : Instr.WellFormed (.ldg h w d m)) :
    RoundTrip (.ldg h w d m) := by
  unfold Instr.WellFormed wfInstr at hw
  simp [memHdr, hdrWf] at hw
  obtain ⟨⟨⟨⟨hh, hm⟩, hwid⟩, hd⟩, htop⟩ := hw
  have hp : 0 < 2 ^ w := Nat.two_pow_pos w
  have hv : vField d = .ok d := vField_of_vWf (by simp [vWf]; omega)
  have h7 : (w != 7) = true := by simp; omega
  refine roundTrip_encM (by simp [*]; omega) rfl hm (by omega) (by decide) (fun r hr => ?_)
  simp only [decodeRaw, decMemory, hr.op, hr.wid, hr.fn, addrOf_holds hr hm, hr.d, hr.hdr, hr.lc]
  simp [*]

theorem codeOfSct_lt (o : SctOp) : codeOfSct o < 3 := by cases o <;> decide
@[simp] theorem sctOfCode_codeOfSct (o : SctOp) : sctOfCode (codeOfSct o) = o := by cases o <;> rfl

theorem roundTrip_sct {h : Hdr} {wid : Nat} {op : SctOp} {d : Opd} {m : MAddr}
    (hw : Instr.WellFormed (.sct h wid op d m)) : RoundTrip (.sct h wid op d m) := by
  unfold Instr.WellFormed wfInstr at hw
  simp only [Bool.and_eq_true] at hw
  obtain ⟨⟨⟨⟨hh, hm⟩, hwid⟩, hd⟩, hwd⟩ := hw
  have ho := codeOfSct_lt op
  have hc : (wid == 2 || wid == 3 && codeOfSct op != 2) = true := by cases op <;> simp_all [codeOfSct]
  simp [memHdr, hdrWf] at hh hwid
  refine roundTrip_encM (by simp [*]) rfl hm (by omega) (by omega) fun r hr => ?_
  simp only [decodeRaw, decMemory, hr.op, hr.wid, hr.fn, addrOf_holds hr hm, hr.d, hr.hdr]
  simp [*]

theorem codeOfMxFmt_lt (f : MxFmt) : codeOfMxFmt f < 7 := by cases f <;> decide
@[simp] theorem mxFmtOfCode_codeOfMxFmt (f : MxFmt) : mxFmtOfCode (codeOfMxFmt f) = some f := by cases f <;> rfl

/-- LDMX and STMX. -/
theorem roundTrip_mx {k : Hdr → MxFmt → Bool → Nat → MAddr → Instr} {h : Hdr} {lc split : Bool} {f : MxFmt} {op d : Nat}
    {m : MAddr} {ords : List MOrd} (hop : op < 256) (henc : encode (k h f split d m) = some (encM h op d m 0 (8 * bit1 split + codeOfMxFmt f)))
    (hw : mxWf h lc f split d m ords = true) (hdec : ∀ r : Raw, r.op = op → decodeRaw r = decMx r ords lc k) : RoundTrip (k h f split d m) := by
  simp only [mxWf, Bool.and_eq_true] at hw
  obtain ⟨⟨⟨⟨⟨hh, hm⟩, hs⟩, hi⟩, ht⟩, hd⟩ := hw
  simp [memHdr, hdrWf] at hh hd
  have hlc : (lc || !h.lc) = true := by simpa using hh.2
  have hf := codeOfMxFmt_lt f
  have hb := bit1_lt split
  refine roundTrip_encM (by simp [*]; omega) henc hm (by decide) (by omega) (fun r hr => ?_)
  have hn : fnOf r < 16 := by rw [hr.fn]; omega
  have hc : fld r.w 2 0 = codeOfMxFmt f := by
    have := hr.fn
    simp only [fnOf, fld, Nat.reduceAdd, Nat.reduceSub, Nat.reducePow] at this ⊢
    omega
  have hbit : Nat.testBit r.w 3 = split := by
    have h5 := hr.fn
    simp only [fnOf, fld, Nat.reduceAdd, Nat.reduceSub, Nat.reducePow] at h5
    rw [Nat.testBit_eq_decide_div_mod_eq, ← decide_bit1 split]
    congr 1
    simp only [eq_iff_iff]
    omega
  simp only [hdec r hr.op, decMx, hc, hbit, hr.wid, addrOf_holds hr hm, hr.d, hr.hdr, hr.lc, mxFmtOfCode_codeOfMxFmt]
  simp [*]

theorem roundTrip_prf {h : Hdr} {m : MAddr} (hw : Instr.WellFormed (.prf h m)) : RoundTrip (.prf h m) := by
  unfold Instr.WellFormed wfInstr at hw
  simp [memHdr, hdrWf] at hw
  refine roundTrip_encM (by simp [*]) rfl hw.2 (by decide) (by decide) fun r hr => ?_
  simp only [decodeRaw, decMemory, hr.op, hr.wid, hr.fn, addrOf_holds hr hw.2, hr.d, hr.hdr, hr.lc]
  simp [*]

theorem codeOfAtom_lt (o : AtomOp) : codeOfAtom o < 8 := by cases o <;> decide
@[simp] theorem atomOfCode_codeOfAtom (o : AtomOp) : atomOfCode (codeOfAtom o) = o := by cases o <;> rfl

/-- F.VAR of ATOM and RED. -/
theorem fld_atom (ret sgn : Bool) (op : AtomOp) :
    let n := 16 * bit1 ret + 8 * bit1 sgn + codeOfAtom op
    fld n 2 0 = codeOfAtom op ∧ Nat.testBit n 3 = sgn ∧ Nat.testBit n 4 = ret ∧ n < 32 := by
  cases ret <;> cases sgn <;> cases op <;> decide

theorem dstWf_of_plainDstWf {d : Dst} (h : plainDstWf d = true) : dstWf d = true ∧ dstField d < 256 := by
  cases d <;> simp_all [plainDstWf, dstWf, dstField] <;> omega

theorem atomField_of_wf {r : Raw} {h : Hdr} {op wid f : Nat} {aop : AtomOp} {sgn : Bool} {d : Dst} {m : MAddr}
    (hr : HoldsM r h op (dstField d) m wid f) (hw : atomWf h wid aop sgn d m = true) : atomField r aop sgn d m = .ok () := by
  simp only [atomWf, Bool.and_eq_true] at hw
  obtain ⟨⟨⟨⟨⟨⟨hh, hm⟩, hd⟩, hwid⟩, hsgn⟩, hwd⟩, hs⟩ := hw
  have hl := (dstWf_of_plainDstWf hd).2
  simp only [atomField, hr.wid, hr.d, hwid, hsgn, hwd, hs, hl, decide_true, Bool.and_self, field_true]

@[simp] theorem bit1_false : bit1 false = 0 := rfl
@[simp] theorem bit1_true : bit1 true = 1 := rfl

theorem roundTrip_atom {h : Hdr} {wid : Nat} {op : AtomOp} {sgn : Bool} {d : Dst} {m : MAddr}
    (hw : Instr.WellFormed (.atom h wid op sgn d m)) : RoundTrip (.atom h wid op sgn d m) := by
  have hw : atomWf h wid op sgn d m = true := hw
  have hw0 := hw
  simp only [atomWf, Bool.and_eq_true] at hw0
  obtain ⟨⟨⟨⟨⟨⟨hh, hm⟩, hd⟩, hwid⟩, hsgn⟩, hwd⟩, hs⟩ := hw0
  simp [memHdr, hdrWf] at hh hwid
  obtain ⟨h1, h2, -, -⟩ := fld_atom false sgn op
  simp only [bit1_false, Nat.mul_zero, Nat.zero_add] at h1 h2
  have hd := (dstWf_of_plainDstWf hd).1
  have hlt : 8 * bit1 sgn + codeOfAtom op < 16 := by have := codeOfAtom_lt op; have := bit1_lt sgn; omega
  refine roundTrip_encM (by simp [*]) rfl hm (by omega) (by omega) fun r hr => ?_
  have ha := atomField_of_wf hr hw
  simp only [decodeRaw, decAtomic, hr.op, hr.wid, hr.fn, addrOf_holds hr hm, hr.d, hr.hdr]
  simp [*]

theorem roundTrip_red {h : Hdr} {wid : Nat} {op : AtomOp} {sgn ret : Bool} {d : Dst} {m : MAddr}
    (hw : Instr.WellFormed (.red h wid op sgn ret d m)) : RoundTrip (.red h wid op sgn ret d m) := by
  unfold Instr.WellFormed wfInstr at hw
  simp only [Bool.and_eq_true] at hw
  obtain ⟨hne, hw⟩ := hw
  have hw0 := hw
  simp only [atomWf, Bool.and_eq_true] at hw0
  obtain ⟨⟨⟨⟨⟨⟨hh, hm⟩, hd⟩, hwid⟩, hsgn⟩, hwd⟩, hs⟩ := hw0
  simp [memHdr, hdrWf] at hh hwid
  obtain ⟨h1, h2, h3, h4⟩ := fld_atom ret sgn op
  have hd := (dstWf_of_plainDstWf hd).1
  refine roundTrip_encM (by simp [*]) rfl hm (by omega) (by omega) fun r hr => ?_
  have ha := atomField_of_wf hr hw
  simp only [decodeRaw, decAtomic, hr.op, hr.wid, hr.fn, addrOf_holds hr hm, hr.d, hr.hdr]
  simp [*]

theorem roundTrip_acas {h : Hdr} {wid : Nat} {d : Dst} {m : MAddr} (hw : Instr.WellFormed (.acas h wid d m)) :
    RoundTrip (.acas h wid d m) := by
  unfold Instr.WellFormed wfInstr at hw
  simp only [Bool.and_eq_true] at hw
  obtain ⟨⟨⟨⟨hh, hm⟩, hwid⟩, hd⟩, hdd⟩ := hw
  have hd := (dstWf_of_plainDstWf hd).1
  have hlt : wid < 8 := by simp at hwid; omega
  simp [memHdr, hdrWf] at hh
  refine roundTrip_encM (by simp [*]) rfl hm hlt (by decide) fun r hr => ?_
  simp only [decodeRaw, decAtomic, hr.op, hr.wid, hr.fn, addrOf_holds hr hm, hr.d, hr.hdr]
  cases d <;> simp at hdd <;> simp [*]

/-- An address operand of a stroke-wide instruction passes its check. -/
theorem wideOk_of_wideWf {o : Opd} (h : wideWf o = true) : wideOk o = true ∧ opdWf o = true := by
  simp only [wideWf, Bool.and_eq_true] at h
  simp [wideOk, *]

theorem roundTrip_fence {h : Hdr} {ord : MOrd} {scp : Scope} {b : Opd} (hw : Instr.WellFormed (.fence h ord scp b)) :
    RoundTrip (.fence h ord scp b) := by
  unfold Instr.WellFormed wfInstr at hw
  simp [hdr0, hdrWf, sclWf] at hw
  have hs := codeOfScope_lt scp
  have hf : fld (4 * codeOfScope scp + codeOfOrd ord) 6 5 = 0 ∧ fld (4 * codeOfScope scp + codeOfOrd ord) 4 2 = codeOfScope scp ∧
      fld (4 * codeOfScope scp + codeOfOrd ord) 1 0 = codeOfOrd ord ∧ (codeOfOrd ord != 0) = true := by
    have ho := codeOfOrd_lt ord
    refine ⟨by simp [fld]; omega, by simp [fld]; omega, by simp [fld]; omega, ?_⟩
    cases ord <;> simp_all [codeOfOrd]
  exact roundTrip_encB (by simp [*]) (n := 64) rfl hw.2.1 (by have := codeOfOrd_lt ord; omega) fun w => by
    simp [decodeRaw, decAtomic, noA, noC, *]

theorem roundTrip_bar {h : Hdr} {a : Opd} (hw : Instr.WellFormed (.bar h a)) : RoundTrip (.bar h a) := by
  unfold Instr.WellFormed wfInstr at hw
  simp [hdr0, hdrWf] at hw
  obtain ⟨ha, ha'⟩ := wideOk_of_wideWf hw.2
  exact roundTrip_encA (by simp [*]) rfl (by decide) fun w => by simp [decodeRaw, decAtomic, noB, noC, *]

theorem roundTrip_binit {h : Hdr} {a b : Opd} (hw : Instr.WellFormed (.binit h a b)) : RoundTrip (.binit h a b) := by
  unfold Instr.WellFormed wfInstr at hw
  simp [hdr0, hdrWf, sclWf] at hw
  obtain ⟨ha, ha'⟩ := wideOk_of_wideWf hw.1.2
  exact roundTrip_encB (by simp [*]) (n := 64) rfl hw.2.1 (by decide) fun w => by simp [decodeRaw, decAtomic, noC, *]

/-- F.VAR of BARX and CPY. -/
theorem fld_out (scp : Scope) (out : Bool) :
    let n := 2 * codeOfScope scp + bit1 out
    fld n 3 1 = codeOfScope scp ∧ fld n 6 4 = 0 ∧ Nat.testBit n 0 = out ∧ n < 128 := by
  cases scp <;> cases out <;> decide

theorem roundTrip_barx {h : Hdr} {out : Bool} {scp : Scope} {d a b c : Opd}
    (hw : Instr.WellFormed (.barx h out scp d a b c)) : RoundTrip (.barx h out scp d a b c) := by
  unfold Instr.WellFormed wfInstr at hw
  simp [hdr0, hdrWf] at hw
  obtain ⟨⟨⟨⟨⟨hh, hd⟩, ha⟩, hb⟩, hp⟩, hc⟩ := hw
  obtain ⟨hd, hd'⟩ := wideOk_of_wideWf hd
  obtain ⟨ha, ha'⟩ := wideOk_of_wideWf ha
  obtain ⟨hc, hc'⟩ := wideOk_of_wideWf hc
  obtain ⟨h1, h2, h3, h4⟩ := fld_out scp out
  exact roundTrip_encA (by simp [*]) rfl h4 fun w => by simp [decodeRaw, decAtomic, -Nat.testBit_zero, *]

@[simp] theorem promiseOfCode_codeOfPromise (p : Promise) : promiseOfCode (codeOfPromise p) = some p := by cases p <;> rfl
@[simp] theorem condOfCode_codeOfCond (c : WCond) : condOfCode (codeOfCond c) = some c := by cases c <;> rfl

theorem roundTrip_waitf {h : Hdr} {t : Ty} {lvl : Nat} {prom : Promise} {cond : WCond} {d : Nat} {a b : Opd}
    (hw : Instr.WellFormed (.waitf h t lvl prom cond d a b)) : RoundTrip (.waitf h t lvl prom cond d a b) := by
  unfold Instr.WellFormed wfInstr at hw
  simp only [Bool.and_eq_true] at hw
  obtain ⟨⟨⟨⟨⟨⟨ht, hh⟩, hlt⟩, hl0⟩, hd⟩, ha⟩, hb⟩ := hw
  simp [hdr0, hdrWf, sclWf] at hh hlt hb
  obtain ⟨ha, ha'⟩ := wideOk_of_wideWf ha
  have hf : fld (32 * codeOfCond cond + 8 * codeOfPromise prom + lvl) 2 0 = lvl ∧
      fld (32 * codeOfCond cond + 8 * codeOfPromise prom + lvl) 4 3 = codeOfPromise prom ∧
      fld (32 * codeOfCond cond + 8 * codeOfPromise prom + lvl) 6 5 = codeOfCond cond := by
    cases cond <;> cases prom <;> simp [fld, codeOfCond, codeOfPromise] <;> omega
  exact roundTrip_encB (by simp [*]) (n := tyBits t) rfl hb.1 (by cases cond <;> cases prom <;> simp [codeOfCond, codeOfPromise] <;> omega)
    fun w => by simp [decodeRaw, decAtomic, noC, *]

end Sys2Proof.Machine
end

section
namespace Sys2Proof.Machine
open Sys2Proof Sys2Proof.Claims

/-! ### Engines, channels, regions and collectives (R184-R193) -/

@[simp] theorem fld_scope (s : Scope) : fld (codeOfScope s) 2 0 = codeOfScope s ∧ fld (codeOfScope s) 6 3 = 0 := by
  cases s <;> decide

theorem roundTrip_cpy {h : Hdr} {out : Bool} {scp : Scope} {a b c : Opd}
    (hw : Instr.WellFormed (.cpy h out scp a b c)) : RoundTrip (.cpy h out scp a b c) := by
  unfold Instr.WellFormed wfInstr at hw
  simp [hdr0, hdrWf] at hw
  obtain ⟨⟨⟨⟨hh, ha⟩, hb⟩, hp⟩, hc⟩ := hw
  obtain ⟨ha, ha'⟩ := wideOk_of_wideWf ha
  obtain ⟨hc, hc'⟩ := wideOk_of_wideWf hc
  obtain ⟨h1, h2, h3, h4⟩ := fld_out scp out
  exact roundTrip_encA (by simp [*]) rfl h4 fun w => by simp [decodeRaw, decEngine, -Nat.testBit_zero, *]

theorem roundTrip_waitc {h : Hdr} {scp : Scope} {d : Nat} {a b c : Opd} (hw : Instr.WellFormed (.waitc h scp d a b c)) :
    RoundTrip (.waitc h scp d a b c) := by
  unfold Instr.WellFormed wfInstr at hw
  simp [hdr0, hdrWf, sclWf] at hw
  obtain ⟨⟨⟨⟨⟨hh, hd⟩, ha⟩, hb⟩, hc⟩, hs⟩ := hw
  obtain ⟨ha, ha'⟩ := wideOk_of_wideWf ha
  exact roundTrip_encB (by simp [*]) (n := 64) rfl hb.1 (by have := codeOfScope_lt scp; omega) fun w => by
    simp [decodeRaw, decEngine, *]

theorem roundTrip_testc {h : Hdr} {d : Nat} {a b c : Opd} (hw : Instr.WellFormed (.testc h d a b c)) :
    RoundTrip (.testc h d a b c) := by
  unfold Instr.WellFormed wfInstr at hw
  simp [hdr0, hdrWf, sclWf] at hw
  obtain ⟨⟨⟨⟨⟨hh, hd⟩, ha⟩, hb⟩, hc⟩, hs⟩ := hw
  obtain ⟨ha, ha'⟩ := wideOk_of_wideWf ha
  exact roundTrip_encB (by simp [*]) (n := 64) rfl hb.1 (by decide) fun w => by simp [decodeRaw, decEngine, *]

theorem roundTrip_srel {h : Hdr} {c : Nat} (hw : Instr.WellFormed (.srel h c)) : RoundTrip (.srel h c) := by
  unfold Instr.WellFormed wfInstr at hw
  simp [hdr0, hdrWf] at hw
  exact roundTrip_encA (by simp [*]) rfl hw.2 fun w => by simp [decodeRaw, decEngine, noA, noB, noC, *]

/-- SBIND.unbind and SBIND.primer. -/
theorem roundTrip_sbindUnbind {h : Hdr} {c : Nat} (hw : Instr.WellFormed (.sbindUnbind h c)) :
    RoundTrip (.sbindUnbind h c) ∧ RoundTrip (.sbindPrimer h c) := by
  unfold Instr.WellFormed wfInstr at hw
  simp [hdr0, hdrWf] at hw
  exact ⟨roundTrip_encA (by simp [*]) rfl hw.2 fun w => by simp [decodeRaw, decEngine, decSbind, noA, noB, noC, *],
    roundTrip_encA (by simp [*]) rfl hw.2 fun w => by simp [decodeRaw, decEngine, decSbind, noA, noB, noC, *]⟩

theorem roundTrip_sbindRing {h : Hdr} {c : Nat} {p1 p2 p3 : Opd} (hw : Instr.WellFormed (.sbindRing h c p1 p2 p3)) :
    RoundTrip (.sbindRing h c p1 p2 p3) := by
  unfold Instr.WellFormed wfInstr at hw
  simp [hdr0, hdrWf] at hw
  obtain ⟨⟨⟨⟨⟨hh, hc⟩, h1⟩, h2⟩, hn⟩, h3⟩ := hw
  obtain ⟨h1, h1'⟩ := wideOk_of_wideWf h1
  exact roundTrip_encB (by simp [*]) (n := 64) rfl h2 hc fun w => by simp [decodeRaw, decEngine, decSbind, *]

theorem roundTrip_sbindPort {h : Hdr} {c : Nat} {p1 : Opd} (hw : Instr.WellFormed (.sbindPort h c p1)) :
    RoundTrip (.sbindPort h c p1) := by
  unfold Instr.WellFormed wfInstr at hw
  simp [hdr0, hdrWf] at hw
  exact roundTrip_encA (by simp [*]) rfl hw.1.2 fun w => by simp [decodeRaw, decEngine, decSbind, noB, noC, *]

theorem roundTrip_sbindIter {h : Hdr} {c : Nat} {p1 p2 : Opd} (hw : Instr.WellFormed (.sbindIter h c p1 p2)) :
    RoundTrip (.sbindIter h c p1 p2) := by
  unfold Instr.WellFormed wfInstr at hw
  simp [hdr0, hdrWf] at hw
  obtain ⟨⟨⟨⟨hh, hc⟩, h1⟩, h2⟩, hn⟩ := hw
  exact roundTrip_encB (by simp [*]) (n := 32) rfl h2 hc fun w => by simp [decodeRaw, decEngine, decSbind, noC, *]

theorem roundTrip_sbindQuery {h : Hdr} {c d : Nat} (hw : Instr.WellFormed (.sbindQuery h c d)) :
    RoundTrip (.sbindQuery h c d) := by
  unfold Instr.WellFormed wfInstr at hw
  simp [hdr0, hdrWf] at hw
  exact roundTrip_encA (by simp [*]) rfl hw.1.2 fun w => by simp [decodeRaw, decEngine, decSbind, noA, noB, noC, *]

theorem roundTrip_pub {h : Hdr} {scp : Scope} {a : Opd} (hw : Instr.WellFormed (.pub h scp a)) :
    RoundTrip (.pub h scp a) := by
  unfold Instr.WellFormed wfInstr at hw
  simp [hdr0, hdrWf] at hw
  exact roundTrip_encA (by simp [*]) rfl (by have := codeOfScope_lt scp; omega) fun w => by simp [decodeRaw, decEngine, noB, noC, *]

theorem roundTrip_preg {h : Hdr} {d : Nat} {a b : Opd} (hw : Instr.WellFormed (.preg h d a b)) :
    RoundTrip (.preg h d a b) := by
  unfold Instr.WellFormed wfInstr at hw
  simp [hdr0, hdrWf, sclWf] at hw
  obtain ⟨⟨⟨hh, hd⟩, ha⟩, hb⟩ := hw
  obtain ⟨ha, ha'⟩ := wideOk_of_wideWf ha
  exact roundTrip_encB (by simp [*]) (n := 64) rfl hb.1 (by decide) fun w => by simp [decodeRaw, decEngine, fld, noC, *]

theorem roundTrip_pregDrop {h : Hdr} {a : Opd} (hw : Instr.WellFormed (.pregDrop h a)) : RoundTrip (.pregDrop h a) := by
  unfold Instr.WellFormed wfInstr at hw
  simp [hdr0, hdrWf] at hw
  exact roundTrip_encA (by simp [*]) rfl (by decide) fun w => by simp [decodeRaw, decEngine, fld, noB, noC, *]

theorem roundTrip_mcast {h : Hdr} {n : Nat} {a b c : Opd} (hw : Instr.WellFormed (.mcast h n a b c)) :
    RoundTrip (.mcast h n a b c) := by
  unfold Instr.WellFormed wfInstr at hw
  simp [hdr0, hdrWf] at hw
  obtain ⟨⟨⟨⟨⟨hh, h1⟩, h64⟩, ha⟩, hb⟩, hc⟩ := hw
  obtain ⟨ha, ha'⟩ := wideOk_of_wideWf ha
  obtain ⟨hb, hb'⟩ := wideOk_of_wideWf hb
  obtain ⟨hc, hc'⟩ := wideOk_of_wideWf hc
  have hf : fld (n - 1) 6 6 = 0 ∧ fld (n - 1) 5 0 + 1 = n := by simp [fld]; omega
  exact roundTrip_encA (by simp [*]) rfl (by omega) fun w => by simp [decodeRaw, decEngine, *]

theorem roundTrip_coll {h : Hdr} {a c : Opd} (hw : Instr.WellFormed (.coll h a c)) : RoundTrip (.coll h a c) := by
  unfold Instr.WellFormed wfInstr at hw
  simp [hdr0, hdrWf] at hw
  obtain ⟨⟨hh, ha⟩, hc⟩ := hw
  obtain ⟨ha, ha'⟩ := wideOk_of_wideWf ha
  obtain ⟨hc, hc'⟩ := wideOk_of_wideWf hc
  exact roundTrip_encA (by simp [*]) rfl (by decide) fun w => by simp [decodeRaw, decEngine, noB, *]

/-! ### Matrix instructions (R115-R128) -/

theorem descWord_lt {m : MDesc} (h : descWf m = true) : descWord m < 2 ^ 64 := by
  have h1 := m.sofs.isLt
  have h2 := m.stride.isLt
  have h3 : m.str < 16 := by simp only [descWf, Bool.and_eq_true, decide_eq_true_eq] at h; exact h.1.1
  simp only [descWord]
  split <;> omega

/-- The operand descriptor is read back (R117). -/
theorem descOf_descWord {m : MDesc} (h : descWf m = true) : descOf (descWord m) = .ok m := by
  obtain ⟨split, str, sofs, stride⟩ := m
  have h1 := sofs.isLt
  have h2 := stride.isLt
  simp only [descWf, Bool.and_eq_true] at h
  obtain ⟨⟨hstr, hs⟩, ht⟩ := h
  have hstr : str < 16 := of_decide_eq_true hstr
  have hw : descWord ⟨split, str, sofs, stride⟩ = bit1 split * 2 ^ 63 + str * 2 ^ 56 + sofs.toNat * 2 ^ 32 + stride.toNat := by
    cases split <;> simp [descWord, bit1]
  have hb := bit1_lt split
  have hf : fld (descWord ⟨split, str, sofs, stride⟩) 62 60 = 0 ∧ fld (descWord ⟨split, str, sofs, stride⟩) 59 56 = str ∧
      fld (descWord ⟨split, str, sofs, stride⟩) 55 32 = sofs.toNat ∧ fld (descWord ⟨split, str, sofs, stride⟩) 31 0 = stride.toNat ∧
      descWord ⟨split, str, sofs, stride⟩ / 2 ^ 63 % 2 = bit1 split := by
    rw [hw]
    simp only [fld, Nat.reduceAdd, Nat.reduceSub, Nat.reducePow] at *
    omega
  obtain ⟨h1, h2, h3, h4, h5⟩ := hf
  have hz : (split || sofs.toNat == 0) = true := by
    cases split <;> simp_all
  have h5 : Nat.testBit (descWord ⟨split, str, sofs, stride⟩) 63 = split := by
    rw [Nat.testBit_eq_decide_div_mod_eq, h5, decide_bit1]
  simp [descOf, h1, h2, h3, h4, h5, hz, ht]

/-- GANG of a register. -/
theorem roundTrip_gangReg {h : Hdr} {o : Opd} (hh : hdrWf h true false false = true) (ho : plainWf o = true)
    (henc : encode (.gang h o) = some (encA h 0xB0 0 (opdField o) 0 0 0 0)) : RoundTrip (.gang h o) := by
  simp [hdrWf] at hh
  exact roundTrip_encA (by simp [*]) henc (by decide) fun w => by simp [decodeRaw, decMatrix, noB, noC, *]

theorem roundTrip_gang {h : Hdr} {o : Opd} (hw : Instr.WellFormed (.gang h o)) : RoundTrip (.gang h o) := by
  unfold Instr.WellFormed wfInstr at hw
  cases o with
  | imm e =>
    simp [hdrWf] at hw
    exact roundTrip_encX (by simp [*]) rfl (by decide) fun w => by simp [decodeRaw, decMatrix, noB, noC, *]
  | _ n =>
    simp only [Bool.and_eq_true] at hw
    exact roundTrip_gangReg hw.1 hw.2 rfl

theorem roundTrip_mxld {h : Hdr} {half n base : Nat} {idx : Opd} {fw : Nat} {ds : MDesc}
    (hw : Instr.WellFormed (.mxld h half n base idx fw ds)) : RoundTrip (.mxld h half n base idx fw ds) := by
  unfold Instr.WellFormed wfInstr at hw
  simp only [Bool.and_eq_true] at hw
  obtain ⟨⟨⟨⟨⟨⟨⟨⟨hh, hhalf⟩, h1⟩, h8⟩, hb⟩, hi⟩, hs⟩, hfw⟩, hds⟩ := hw
  simp [hdrWf] at hh hhalf h1 h8
  have hv : (isVec idx || isChanOpd idx) = true := by cases idx <;> simp_all [isVec, isChanOpd, isSreg, opdWf]
  have hf : fld (2 * (n - 1) + half) 6 4 = 0 ∧ fld (2 * (n - 1) + half) 0 0 = half ∧ fld (2 * (n - 1) + half) 3 1 + 1 = n := by
    simp only [fld, Nat.reduceAdd, Nat.reduceSub, Nat.reducePow]
    omega
  refine roundTrip_of_fields (h := h) (op := 0xB1) (x := true) (d := 0) (a := 0xC0 + base) (b := opdField idx) (c := fw) (ft := 0)
    (fv := 2 * (n - 1) + half) (e := descWord ds) ?_ hh (by decide) (by decide) (sWf_lt hb) (opdField_lt hi) (vWf_lt hfw) (by decide)
    (by omega) (descWord_lt hds) fun w => ?_
  · simp only [encode, lowA, Nat.add_assoc, Nat.zero_mul, Nat.zero_add]
  · simp [decodeRaw, decMatrix, descOf_descWord hds, *]

theorem roundTrip_mxlb {h : Hdr} {slot n base fw : Nat} {ds : MDesc}
    (hw : Instr.WellFormed (.mxlb h slot n base fw ds)) : RoundTrip (.mxlb h slot n base fw ds) := by
  unfold Instr.WellFormed wfInstr at hw
  simp only [Bool.and_eq_true] at hw
  obtain ⟨⟨⟨⟨⟨⟨hh, hslot⟩, h1⟩, h8⟩, hb⟩, hfw⟩, hds⟩ := hw
  simp [hdrWf] at hh hslot h1 h8
  have hf : fld (8 * (n - 1) + slot) 6 6 = 0 ∧ fld (8 * (n - 1) + slot) 2 0 = slot ∧ fld (8 * (n - 1) + slot) 5 3 + 1 = n := by
    simp only [fld, Nat.reduceAdd, Nat.reduceSub, Nat.reducePow]
    omega
  refine roundTrip_of_fields (h := h) (op := 0xB2) (x := true) (d := 0) (a := 0xC0 + base) (b := 0) (c := fw) (ft := 0)
    (fv := 8 * (n - 1) + slot) (e := descWord ds) ?_ hh.1 (by decide) (by decide) (sWf_lt hb) (by decide) (vWf_lt hfw) (by decide)
    (by omega) (descWord_lt hds) fun w => ?_
  · simp only [encode, lowA, Nat.add_assoc, Nat.zero_mul, Nat.zero_add]
  · simp [decodeRaw, decMatrix, descOf_descWord hds, noB, *]

theorem roundTrip_mma {h : Hdr} {half tile fw skip kbase : Nat} (hw : Instr.WellFormed (.mma h half tile fw skip kbase)) :
    RoundTrip (.mma h half tile fw skip kbase) := by
  unfold Instr.WellFormed wfInstr at hw
  simp [hdrWf] at hw
  have hf : fld half 6 1 = 0 ∧ fld half 0 0 = half := by simp [fld]; omega
  exact roundTrip_encA (by simp [*]; omega) rfl (by omega) (fun w => by simp [decodeRaw, decMatrix, *])

theorem roundTrip_mxz {h : Hdr} {tile : Nat} (hw : Instr.WellFormed (.mxz h tile)) : RoundTrip (.mxz h tile) := by
  unfold Instr.WellFormed wfInstr at hw
  simp [hdrWf] at hw
  exact roundTrip_encA (by simp [*]; omega) rfl (by decide) (fun w => by simp [decodeRaw, decMatrix, noA, noB, noC, *])

theorem fld_tile {tile : Nat} (h : tile < 8) :
    fld tile 6 4 = 0 ∧ fld tile 2 0 = tile ∧ Nat.testBit tile 3 = false ∧
      fld (8 + tile) 6 4 = 0 ∧ fld (8 + tile) 2 0 = tile ∧ Nat.testBit (8 + tile) 3 = true := by
  interval_cases tile <;> decide

theorem roundTrip_mxdrStat {h : Hdr} {tile d : Nat} (hw : Instr.WellFormed (.mxdrStat h tile d)) :
    RoundTrip (.mxdrStat h tile d) := by
  unfold Instr.WellFormed wfInstr at hw
  simp [hdrWf] at hw
  obtain ⟨-, -, -, h4, h5, h6⟩ := fld_tile hw.1.2
  exact roundTrip_encA (by simp [*]) rfl (by omega) fun w => by simp [decodeRaw, decMatrix, noA, noB, noC, *]

theorem roundTrip_mxdr {h : Hdr} {tile d fw scales : Nat} {pos : Opd} (hw : Instr.WellFormed (.mxdr h tile d fw scales pos)) :
    RoundTrip (.mxdr h tile d fw scales pos) := by
  unfold Instr.WellFormed wfInstr at hw
  simp only [Bool.and_eq_true] at hw
  obtain ⟨⟨⟨⟨ht, hd⟩, hfw⟩, hsc⟩, hp⟩ := hw
  have ht : tile < 8 := of_decide_eq_true ht
  obtain ⟨h1, h2, h3, -, -, -⟩ := fld_tile ht
  cases pos with
  | imm e =>
    simp [hdrWf] at hp
    refine roundTrip_of_fields (h := h) (op := 0xB5) (x := true) (d := d) (a := fw) (b := 0xC0 + scales) (c := 0) (ft := 0)
      (fv := tile) (e := e.toNat) ?_ hp.1 (by decide) (vWf_lt hd) (vWf_lt hfw) (sWf_lt hsc) (by decide) (by decide)
      (by omega) e.isLt fun w => ?_
    · simp only [encode, lowA, Nat.add_assoc, Nat.zero_mul, Nat.zero_add]
    · simp [decodeRaw, decMatrix, noC, *]
  | s n =>
    simp [hdrWf, opdWf] at hp
    have hn : sWf n = true := by simp [sWf, hp]
    exact roundTrip_encA (by simp [*, opdField, sWf_lt hn]) rfl (by omega) (fun w => by simp [decodeRaw, decMatrix, opdField, *])
  | _ n => simp [isSreg] at hp

/-- MXADD, MXSAVE and MXREST. -/
theorem roundTrip_tile {k : Hdr → Nat → Nat → Nat → Instr} {h : Hdr} {op tile base str : Nat}
    (hop : op < 256) (henc : encode (k h tile base str) = some (encA h op tile (0xC0 + base) 0 0 0 str))
    (hw : (hdrWf h true false false && decide (tile < 8) && sWf base && decide (str < 16)) = true)
    (hdec : ∀ r : Raw, r.op = op → r.ft = 0 → decodeRaw r = decTile r k) :
    RoundTrip (k h tile base str) := by
  simp [hdrWf] at hw
  have hf : fld str 6 4 = 0 ∧ fld str 3 0 = str := by simp [fld]; omega
  exact roundTrip_encA (by simp [*]; omega) henc (by omega) (fun w => by
    rw [hdec _ rfl rfl]
    simp [decTile, noB, noC, *])

end Sys2Proof.Machine
end

section
namespace Sys2Proof.Machine
open Sys2Proof Sys2Proof.Claims

/-! ### Set instructions (R150-R161) -/

@[simp] theorem opdField_lt_of_plainWf {o : Opd} (h : plainWf o = true) : opdField o < 512 :=
  opdField_lt (opdWf_of_plainWf h)

theorem handleDst_of_plainDstWf {d : Dst} (h : plainDstWf d = true) : handleDst (dstField d) = .ok d ∧ dstField d < 512 := by
  cases d with
  | v n =>
    have hn : n < 0xC0 := of_decide_eq_true h
    exact ⟨if_pos hn, by simp only [dstField]; omega⟩
  | s n =>
    have hn : n < 64 := of_decide_eq_true h
    refine ⟨?_, by simp only [dstField]; omega⟩
    rw [dstField, handleDst, if_neg (by omega), if_pos (by omega), Nat.add_sub_cancel_left]
  | push c => simp [plainDstWf] at h

/-- The status vector of SINS, SREM and EQPUSH is read back. -/
theorem stsField_optV {h : Hdr} {op : Nat} {x : Bool} {d : Option Nat} {a b c ft w e : Nat} (hd : optVWf d = true) :
    stsField (rawF h op x (optV d) a b c ft (bit1 d.isSome) w e) = .ok d := by
  cases d with
  | none => simp [stsField, optV]
  | some n =>
    have hn : vWf n = true := hd
    simp [stsField, optV, hn]

theorem optV_lt {d : Option Nat} (hd : optVWf d = true) : optV d < 512 := by
  cases d with
  | none => simp [optV]
  | some n => exact vWf_lt hd

theorem optS_lt {d : Option Nat} (hd : optSWf d = true) : optS d < 512 := by
  cases d with
  | none => simp [optS]
  | some n => exact sWf_lt hd

/-- SAND, SOR, SSUB and SXOR. -/
theorem roundTrip_binarySet {k : Hdr → Option Nat → Opd → Opd → Opd → Instr} {h : Hdr} {op : Nat} {card : Option Nat}
    {d a b : Opd} (hop : op < 256) (henc : encode (k h card d a b) =
      some (encA h op (opdField d) (opdField a) (opdField b) (optS card) 0 (bit1 card.isSome)))
    (hw : binSetWf h card d a b = true) (hdec : ∀ r : Raw, r.op = op → decodeRaw r = decBinarySet r k) : RoundTrip (k h card d a b) := by
  simp [binSetWf, hdrWf] at hw
  obtain ⟨⟨⟨⟨hh, hc⟩, hd⟩, ha⟩, hb⟩ := hw
  refine roundTrip_encA (by simp [*, optS_lt hc]) henc (by have := bit1_lt card.isSome; omega) (fun w => ?_)
  rw [hdec _ rfl]
  cases card with
  | none => simp [decBinarySet, optS, fld, noC, *]; simp_all
  | some n =>
    have hn : sWf n = true := hc
    simp [decBinarySet, optS, fld, *]

theorem roundTrip_snew {h : Hdr} {d : Dst} {u opt : Opd} (hw : Instr.WellFormed (.snew h d u opt)) :
    RoundTrip (.snew h d u opt) := by
  unfold Instr.WellFormed wfInstr at hw
  simp [hdrWf, sclWf] at hw
  obtain ⟨⟨⟨hh, hd⟩, hu⟩, ho⟩ := hw
  obtain ⟨hd, hl⟩ := handleDst_of_plainDstWf hd
  exact roundTrip_encB (by simp [*]) (n := 64) rfl ho.1 (by decide) fun w => by simp [decodeRaw, decSet, noC, *]

theorem roundTrip_sdel {h : Hdr} {a : Opd} (hw : Instr.WellFormed (.sdel h a)) : RoundTrip (.sdel h a) := by
  unfold Instr.WellFormed wfInstr at hw
  simp [hdrWf] at hw
  exact roundTrip_encA (by simp [*]) rfl (by decide) fun w => by simp [decodeRaw, decSet, noB, noC, *]

/-- SINS and SREM. -/
theorem roundTrip_update {k : Hdr → Option Nat → Opd → Opd → Instr} {h : Hdr} {op : Nat} {d : Option Nat} {a b : Opd}
    (hop : op < 256) (henc : encode (k h d a b) = some (encB h op (optV d) (opdField a) b 0 0 (bit1 d.isSome)))
    (hw : (hdrWf h true true false && optVWf d && plainWf a && srcWf h.lb 32 b) = true)
    (hdec : ∀ r : Raw, r.op = op → r.ft = 0 → fld r.fv 6 1 = 0 → noC r = true → decodeRaw r = (do
      let d ← stsField r
      let a ← plainOpd r.a
      let b ← srcB r 32
      return k r.hdr d a b)) : RoundTrip (k h d a b) := by
  simp [hdrWf] at hw
  exact roundTrip_encB (by simp [*, optV_lt hw.1.1.2]) (n := 32) henc hw.2 (by have := bit1_lt d.isSome; omega) (fun w => by
    rw [hdec _ rfl rfl (by simp [fld_bit1]) (by simp [noC, *]), stsField_optV hw.1.1.2]
    simp [*])

theorem roundTrip_shas {h : Hdr} {d : MDst} {a b : Opd} (hw : Instr.WellFormed (.shas h d a b)) :
    RoundTrip (.shas h d a b) := by
  unfold Instr.WellFormed wfInstr at hw
  simp only [Bool.and_eq_true] at hw
  obtain ⟨⟨⟨hh, ha⟩, hb⟩, hd⟩ := hw
  simp [hdrWf] at hh
  cases d with
  | mask kd =>
    have hd : kWf kd = true := hd
    exact roundTrip_encB (by simp [*, mdstField, kField_lt hd]) (n := 32) rfl hb (by simp) (fun w => by simp [decodeRaw, decSet, fld, mdstField, noC, *])
  | reg r =>
    cases r with
    | v n =>
      have hd : vWf n = true := hd
      exact roundTrip_encB (by simp [*, mdstField, dstField, vWf_lt hd]) (n := 32) rfl hb (by simp)
        (fun w => by simp [decodeRaw, decSet, fld, mdstField, dstField, noC, *])
    | _ n => simp at hd

theorem roundTrip_scard {h : Hdr} {d : Nat} {a : Opd} (hw : Instr.WellFormed (.scard h d a)) :
    RoundTrip (.scard h d a) := by
  unfold Instr.WellFormed wfInstr at hw
  simp [hdrWf] at hw
  exact roundTrip_encA (by simp [*]) rfl (by decide) fun w => by simp [decodeRaw, decSet, noB, noC, *]

theorem roundTrip_sitr {h : Hdr} {sc d : Nat} {a b : Opd} (hw : Instr.WellFormed (.sitr h sc d a b)) :
    RoundTrip (.sitr h sc d a b) := by
  unfold Instr.WellFormed wfInstr at hw
  simp [hdrWf] at hw
  have hf : fld sc 6 6 = 0 ∧ fld sc 5 0 = sc := by simp [fld]; omega
  exact roundTrip_encB (by simp [*]) (n := 32) rfl hw.2 (by omega) fun w => by simp [decodeRaw, decSet, noC, *]

theorem roundTrip_scost {h : Hdr} {op d : Nat} {a b c : Opd} (hw : Instr.WellFormed (.scost h op d a b c)) :
    RoundTrip (.scost h op d a b c) := by
  unfold Instr.WellFormed wfInstr at hw
  simp only [Bool.and_eq_true] at hw
  obtain ⟨⟨⟨⟨⟨⟨hh, hd⟩, ha⟩, hb⟩, hc⟩, hop⟩, hbc⟩ := hw
  simp [hdrWf] at hh
  have hlt : op < 16 := by simp at hop; omega
  have hf : fld op 6 4 = 0 ∧ fld op 3 0 = op := by simp [fld]; omega
  have hlegal : (op == 5 || decide (6 ≤ op) && decide (op ≤ 9) || op == 15) = true := by
    simp at hop ⊢; omega
  have hfield : (decide (6 ≤ op) && decide (op ≤ 9) || opdField b == 255 && opdField c == 255) = true := by
    simp at hbc ⊢
    rcases hbc with h1 | ⟨rfl, rfl⟩
    · exact .inl h1
    · exact .inr ⟨rfl, rfl⟩
  exact roundTrip_encA (by simp [*]) rfl (by omega) fun w => by simp [decodeRaw, decSet, *]

theorem roundTrip_sinfo {h : Hdr} {d : Nat} {a b : Opd} {key : Nat} (hw : Instr.WellFormed (.sinfo h d a b key)) :
    RoundTrip (.sinfo h d a b key) := by
  unfold Instr.WellFormed wfInstr at hw
  simp [hdrWf, sclWf] at hw
  exact roundTrip_encB (by simp [*]) (n := 64) rfl hw.1.2.1 (by decide) fun w => by simp [decodeRaw, decSet, fld, *]

theorem roundTrip_sinfoPin {h : Hdr} {a b : Opd} (hw : Instr.WellFormed (.sinfoPin h a b)) :
    RoundTrip (.sinfoPin h a b) := by
  unfold Instr.WellFormed wfInstr at hw
  simp [hdrWf, sclWf] at hw
  exact roundTrip_encB (by simp [*]) (n := 64) rfl hw.2.1 (by decide) fun w => by simp [decodeRaw, decSet, fld, noC, *]

theorem roundTrip_srank {h : Hdr} {sel : Bool} {d : Nat} {a b : Opd} (hw : Instr.WellFormed (.srank h sel d a b)) :
    RoundTrip (.srank h sel d a b) := by
  unfold Instr.WellFormed wfInstr at hw
  simp [hdrWf] at hw
  exact roundTrip_encB (by simp [*]) (n := 32) rfl hw.2 (by have := bit1_lt sel; omega) fun w => by
    simp [decodeRaw, decSet, fld_bit1, noC, *]

theorem roundTrip_sload {h : Hdr} {str : Nat} {d : Dst} {base : Nat} (hw : Instr.WellFormed (.sload h str d base)) :
    RoundTrip (.sload h str d base) := by
  unfold Instr.WellFormed wfInstr at hw
  simp [hdrWf] at hw
  obtain ⟨hd, hl⟩ := handleDst_of_plainDstWf hw.1.2
  have hf : fld str 6 4 = 0 ∧ fld str 3 0 = str := by simp [fld]; omega
  exact roundTrip_encA (by simp [*]) rfl (by omega) fun w => by simp [decodeRaw, decSet, noB, noC, *]

theorem roundTrip_sstore {h : Hdr} {str d : Nat} {a : Opd} {base lim : Nat} {start : Option Word}
    (hw : Instr.WellFormed (.sstore h str d a base lim start)) : RoundTrip (.sstore h str d a base lim start) := by
  unfold Instr.WellFormed wfInstr at hw
  simp [hdrWf] at hw
  obtain ⟨⟨⟨⟨⟨hh, hs⟩, hd⟩, ha⟩, hb⟩, hl⟩ := hw
  have hf : fld str 6 4 = 0 ∧ fld str 3 0 = str := by simp [fld]; omega
  have he : (start.map BitVec.toNat).getD 0 < 2 ^ 32 := by
    cases start with
    | none => simp
    | some x => exact x.isLt
  refine roundTrip_of_fields (h := h) (op := 0xCF) (x := start.isSome) (d := 0xC0 + d) (a := opdField a) (b := 0xC0 + base)
    (c := 0xC0 + lim) (ft := 0) (fv := str) (e := (start.map BitVec.toNat).getD 0) ?_ hh (by decide) (sWf_lt hd)
    (opdField_lt_of_plainWf ha) (sWf_lt hb) (sWf_lt hl) (by decide) (by omega) (by omega) fun w => ?_
  · simp only [encode, lowA, Nat.add_assoc, Nat.zero_mul, Nat.zero_add]
    cases start <;> rfl
  · cases start with
    | none => simp [decodeRaw, decSet, *]
    | some x =>
      have hx := x.isLt
      simp [decodeRaw, decSet, *]

/-! ### Tasks and the Easel (R279-R301) -/

/-- TSPAWN and TYLD. -/
theorem roundTrip_spawn {k : Hdr → Nat → Opd → Opd → Instr} {h : Hdr} {op d : Nat} {a b : Opd}
    (hop : op < 256) (hw : (hdrWf h true true false && vWf d && wideWf a && plainWf b && (match b with
      | .v n => n % 4 == 0
      | o => o == .s 63)) = true)
    (henc : encode (k h d a b) = some (encA h op d (opdField a) (opdField b) 0 0 0)) (hdec : ∀ r : Raw, r.op = op → decodeRaw r = decSpawn r k) : RoundTrip (k h d a b) := by
  simp only [Bool.and_eq_true] at hw
  obtain ⟨⟨⟨⟨hh, hd⟩, ha⟩, hb⟩, hm⟩ := hw
  simp [hdrWf, wideWf] at hh ha
  have hf : (opdField b == 255 || opdField b % 4 == 0 && decide (opdField b ≤ 188)) = true := by
    cases b with
    | v n =>
      have hn : n < 0xC0 := of_decide_eq_true hb
      have hm : n % 4 = 0 := by simpa using hm
      have hl : n ≤ 188 := by omega
      simp [opdField, hm, hl]
    | s n => simp_all [opdField]
    | _ => simp [plainWf] at hb
  refine roundTrip_encA (by simp [*]) henc (by decide) (fun w => ?_)
  rw [hdec _ rfl]
  simp [decSpawn, noC, *]

theorem roundTrip_alloc {h : Hdr} {sc : Nat} {d : Dst} (hw : Instr.WellFormed (.alloc h sc d)) :
    RoundTrip (.alloc h sc d) := by
  unfold Instr.WellFormed wfInstr at hw
  simp [hdrWf] at hw
  obtain ⟨hd, hl⟩ := handleDst_of_plainDstWf hw.1.2
  have hf : fld sc 6 6 = 0 ∧ fld sc 5 0 = sc := by simp [fld]; omega
  exact roundTrip_encA (by simp [*]) rfl (by omega) fun w => by simp [decodeRaw, decTask, noA, noB, noC, *]

theorem groupField_of_wf {n m top : Nat} (h : groupWf n m top = true) : groupField n m top = .ok n := by
  simp [groupWf] at h
  simp [groupField, h]

theorem roundTrip_eqpush {h : Hdr} {d : Option Nat} {e : Nat} {q : Opd} (hw : Instr.WellFormed (.eqpush h d e q)) :
    RoundTrip (.eqpush h d e q) := by
  unfold Instr.WellFormed wfInstr at hw
  simp [hdrWf] at hw
  obtain ⟨⟨⟨⟨hh, hd⟩, he⟩, hq⟩, hn⟩ := hw
  have hg := groupField_of_wf he
  have hl : e < 512 := by simp [groupWf] at he; omega
  exact roundTrip_encB (by simp [*, optV_lt hd]) (n := 64) rfl hq (by have := bit1_lt d.isSome; omega) (fun w => by
    simp [decodeRaw, decTask, stsField_optV, fld_bit1, noC, *])

theorem roundTrip_eqcomb {h : Hdr} {str : Nat} {a : Opd} {grp gate : Nat}
    (hw : Instr.WellFormed (.eqcomb h str a grp gate)) : RoundTrip (.eqcomb h str a grp gate) := by
  unfold Instr.WellFormed wfInstr at hw
  simp [hdrWf, wideWf] at hw
  obtain ⟨⟨⟨⟨hh, hs⟩, ha⟩, hg⟩, hc⟩ := hw
  have hg' := groupField_of_wf hg
  have hl : grp < 512 := by simp [groupWf] at hg; omega
  have hf : fld str 6 4 = 0 ∧ fld str 3 0 = str := by simp [fld]; omega
  exact roundTrip_encA (by simp [*]) rfl (by omega) fun w => by simp [decodeRaw, decTask, *]

theorem roundTrip_eqcfg {h : Hdr} {n d r : Nat} {q : Opd} (hw : Instr.WellFormed (.eqcfg h n d r q)) :
    RoundTrip (.eqcfg h n d r q) := by
  unfold Instr.WellFormed wfInstr at hw
  simp [hdr0, hdrWf, sclWf] at hw
  obtain ⟨⟨⟨⟨⟨hh, h1⟩, h8⟩, hd⟩, hr⟩, hq⟩ := hw
  have hf : fld (n - 1) 6 3 = 0 ∧ fld (n - 1) 2 0 + 1 = n := by simp [fld]; omega
  exact roundTrip_encB (by simp [*]) (n := 64) rfl hq.1 (by omega) fun w => by simp [decodeRaw, decTask, noC, *]

theorem roundTrip_eqstat {h : Hdr} {d : Nat} {q sel : Opd} (hw : Instr.WellFormed (.eqstat h d q sel)) :
    RoundTrip (.eqstat h d q sel) := by
  unfold Instr.WellFormed wfInstr at hw
  simp [hdrWf, sclWf] at hw
  exact roundTrip_encB (by simp [*]) (n := 64) rfl hw.2.1 (by decide) fun w => by simp [decodeRaw, decTask, noC, *]

/-! ### Every instruction that has words -/

/-- NOP, LAND, EXIT, MEND and RTT. -/
theorem roundTrip_bare (sw : Bool) : RoundTrip (.nop sw) ∧ RoundTrip (.land sw) ∧ RoundTrip (.exit sw) ∧
    RoundTrip (.mend sw) ∧ RoundTrip (.rtt sw) := by
  cases sw <;> exact ⟨⟨_, rfl, by decide, by decide, rfl⟩, ⟨_, rfl, by decide, by decide, rfl⟩,
    ⟨_, rfl, by decide, by decide, rfl⟩, ⟨_, rfl, by decide, by decide, rfl⟩, ⟨_, rfl, by decide, by decide, rfl⟩⟩

/-- Settles O47, by the lemma of each instruction: its words are taken apart and each operand is read back. -/
theorem encodingsRoundTrip : Obligations.EncodingsRoundTrip := by
  intro i hw he
  cases i with
  | nop sw => exact (roundTrip_bare sw).1
  | land sw => exact (roundTrip_bare sw).2.1
  | exit sw => exact (roundTrip_bare sw).2.2.1
  | mend sw => exact (roundTrip_bare sw).2.2.2.1
  | rtt sw => exact (roundTrip_bare sw).2.2.2.2
  | bra => exact roundTrip_bra
  | brzMask => exact roundTrip_brzMask hw
  | brnzMask => exact roundTrip_brnzMask hw
  | brzScalar | brnzScalar | call | loop =>
    exact roundTrip_scalarBranch (by decide) rfl hw (by decide) fun r _ _ _ _ _ _ _ _ => by
      simp [decodeRaw, decControl, formatB, offOf, *]
  | ret => exact roundTrip_ret hw
  | rgn => exact roundTrip_rgn hw
  | brx => exact roundTrip_brx hw
  | split => exact roundTrip_split hw
  | join => exact roundTrip_join hw
  | meld => exact roundTrip_meld hw
  | path => exact roundTrip_path hw
  | iadd | isub | iaddc | iadds | imul | imulh | imad | idiv | irem | imin | imax | iabs | lea | icmp | sel | mov | and | or |
    xor | andn | shl | shr | sar | rot | popc | clz | brev | bfe | bfi | prmt | movi =>
    exact roundTrip_of_integer hw (by simp [arithOp, divideOp, bitsOp, compareOp]) (by simp)
  | fcmp => exact roundTrip_fcmp hw
  | fadd | fsub | fmul | fdiv => exact roundTrip_float2 (by decide) rfl hw fun r _ _ _ => by simp [decodeRaw, decFloat, *]
  | fsqrt | frcp | frsq | fex2 | flg2 | ftanh =>
    exact roundTrip_float1 (by decide) rfl hw fun r _ _ _ => by simp [decodeRaw, decFloat, *]
  | ffma => exact roundTrip_ffma hw
  | fmin => exact roundTrip_fmin hw
  | fmax => exact roundTrip_fmax hw
  | frnd => exact roundTrip_frnd hw
  | fclass => exact roundTrip_fclass hw
  | fdot2 => exact roundTrip_fdot2 hw
  | fscale => exact roundTrip_fscale hw
  | cvt => exact roundTrip_cvt hw
  | qnt | dqnt => exact roundTrip_decQ (by decide) rfl hw fun r _ => by simp [decodeRaw, decConvert, *]
  | tpack | tunpk => exact roundTrip_trits (by decide) rfl hw fun r _ _ _ _ _ _ _ _ => by simp [decodeRaw, decConvert, *]
  | pack => exact roundTrip_pack hw
  | unpk => exact roundTrip_unpk hw
  | shfl => exact roundTrip_shfl hw
  | vote => exact roundTrip_vote hw
  | lred => exact roundTrip_lred hw
  | lscan => exact roundTrip_lscan hw
  | bcast => exact roundTrip_bcast hw
  | matchLanes => exact roundTrip_matchLanes hw
  | topk => exact roundTrip_topk hw
  | kop => exact roundTrip_kop hw
  | kmov => exact roundTrip_kmov hw
  | kpop => exact roundTrip_kpop hw
  | kfnd => exact roundTrip_kfnd hw
  | srd => exact roundTrip_srd hw
  | swr => exact roundTrip_swr hw
  | clk => exact roundTrip_clocks rfl hw (by decide) (by simp)
  | clkPtp => exact roundTrip_clocks rfl hw (by decide) (by simp)
  | ld => exact roundTrip_ld hw
  | st => exact roundTrip_st hw
  | ldg => exact roundTrip_ldg hw
  | sct => exact roundTrip_sct hw
  | ldmx | stmx => exact roundTrip_mx (by decide) rfl hw fun r _ => by simp [decodeRaw, decMemory, *]
  | prf => exact roundTrip_prf hw
  | atom => exact roundTrip_atom hw
  | acas => exact roundTrip_acas hw
  | red => exact roundTrip_red hw
  | fence => exact roundTrip_fence hw
  | bar => exact roundTrip_bar hw
  | barx => exact roundTrip_barx hw
  | binit => exact roundTrip_binit hw
  | waitf => exact roundTrip_waitf hw
  | cpy => exact roundTrip_cpy hw
  | waitc => exact roundTrip_waitc hw
  | testc => exact roundTrip_testc hw
  | srel => exact roundTrip_srel hw
  | sbindUnbind => exact (roundTrip_sbindUnbind hw).1
  | sbindPrimer => exact (roundTrip_sbindUnbind hw).2
  | sbindRing => exact roundTrip_sbindRing hw
  | sbindPort => exact roundTrip_sbindPort hw
  | sbindIter => exact roundTrip_sbindIter hw
  | sbindQuery => exact roundTrip_sbindQuery hw
  | pub => exact roundTrip_pub hw
  | preg => exact roundTrip_preg hw
  | pregDrop => exact roundTrip_pregDrop hw
  | mcast => exact roundTrip_mcast hw
  | coll => exact roundTrip_coll hw
  | gang => exact roundTrip_gang hw
  | mxld => exact roundTrip_mxld hw
  | mxlb => exact roundTrip_mxlb hw
  | mma => exact roundTrip_mma hw
  | mxz => exact roundTrip_mxz hw
  | mxdr => exact roundTrip_mxdr hw
  | mxdrStat => exact roundTrip_mxdrStat hw
  | mxadd | mxsave | mxrest => exact roundTrip_tile (by decide) rfl hw fun r _ _ => by simp [decodeRaw, decMatrix, *]
  | snew => exact roundTrip_snew hw
  | sdel => exact roundTrip_sdel hw
  | sins | srem => exact roundTrip_update (by decide) rfl hw fun r _ _ _ _ => by simp [decodeRaw, decSet, *]
  | shas => exact roundTrip_shas hw
  | scard => exact roundTrip_scard hw
  | sand | sor | ssub | sxor => exact roundTrip_binarySet (by decide) rfl hw fun r _ => by simp [decodeRaw, decSet, *]
  | sitr => exact roundTrip_sitr hw
  | scost => exact roundTrip_scost hw
  | sinfo => exact roundTrip_sinfo hw
  | sinfoPin => exact roundTrip_sinfoPin hw
  | srank => exact roundTrip_srank hw
  | sload => exact roundTrip_sload hw
  | sstore => exact roundTrip_sstore hw
  | tspawn | tyld => exact roundTrip_spawn (by decide) hw rfl fun r _ => by simp [decodeRaw, decTask, *]
  | alloc => exact roundTrip_alloc hw
  | eqpush => exact roundTrip_eqpush hw
  | eqcomb => exact roundTrip_eqcomb hw
  | eqcfg => exact roundTrip_eqcfg hw
  | eqstat => exact roundTrip_eqstat hw
  | trap => exact roundTrip_trap hw
  | halt => exact roundTrip_halt hw
  | pdone => exact roundTrip_pdone hw
  | ckpt => exact roundTrip_ckpt hw
  | ckptHint => exact roundTrip_ckptHint hw
  | tlbiRng => exact roundTrip_tlbiRng hw
  | tlbiAll => exact roundTrip_tlbiAll hw
  | tlbiNg => exact roundTrip_tlbiNg hw
  | errd => exact roundTrip_errd hw
  | _ => exact absurd he Bool.false_ne_true

/-- Settles O46, by the lemma of the integer decoder (`roundTrip_of_integer`) and that of FCMP. -/
theorem integerEncodingsRoundTrip : Obligations.IntegerEncodingsRoundTrip := by
  intro i hw hi
  by_cases hc : ∃ h t cc kd a b, i = .fcmp h t cc kd a b
  · obtain ⟨h, t, cc, kd, a, b, rfl⟩ := hc
    exact roundTrip_fcmp hw
  · exact roundTrip_of_integer hw hi fun h t cc kd a b e => hc ⟨h, t, cc, kd, a, b, e⟩

/-- Settles O44: the words of the spec's examples, decoded one by one. -/
theorem decodeWords : Obligations.DecodeWords := by
  unfold Obligations.DecodeWords
  decide

/-- Settles O49: the reset state lists no byte. -/
theorem resetMemoryForm : Obligations.ResetMemoryForm := rfl

end Sys2Proof.Machine
end

