-- ==== Sys2Proof/Proofs/RegisterRun.lean ====
section
/-! SUPPORT. A register instruction as `Machine.regInstr` of its table entry: what it answers when it is ready and when
no lane is active, and the three shared shapes (element-wise integer, element-wise floating point, plain). -/

namespace Sys2Proof.Machine
open Sys2Proof Sys2Proof.Claims

/-- The machine's run of a table entry, whose writes never fail. -/
def RegOp.run (s : State) (o : RegOp) : State :=
  regInstr s o.is o.km o.place o.reads o.uni o.always fun x lanes vs => .ok (o.writes x lanes vs)

theorem RegOp.run_of_ready {s s2 : State} {o : RegOp} {x0 x : Ctxt} {vs : List (Nat → Nat)}
    (h : RegReady s o x0 x vs s2) : RegOp.run s o = regDone s2 o x0 x vs := by
  obtain ⟨hx, ⟨s1, hg, hr⟩, hl⟩ := h
  exact regInstr_commits hx hg hl rfl hr

theorem RegOp.run_of_idle {s s2 : State} {o : RegOp} {x0 x : Ctxt} {vs : List (Nat → Nat)}
    (h : RegIdle s o x0 x vs s2) : RegOp.run s o = regIdle s2 o x0 x vs := by
  obtain ⟨hx, ⟨s1, hg, hr⟩, hl, ha⟩ := h
  unfold RegOp.run
  rw [ha] at hg ⊢
  exact regInstr_idle rfl hx hg hl hr

/-! ## Numbers below 2^n (R66, R67) -/

theorem wrapInt_eq_toNat (n : Nat) (z : Int) : wrapInt n z = (BitVec.ofInt n z).toNat := by
  rw [BitVec.toNat_ofInt, wrapInt]

theorem wrapInt_lt (n : Nat) (z : Int) : wrapInt n z < 2 ^ n := by
  rw [wrapInt_eq_toNat]
  exact BitVec.isLt _

theorem wrapInt_natCast (n k : Nat) : wrapInt n (k : Int) = k % 2 ^ n := by
  rw [wrapInt, ← Int.natCast_emod, Int.toNat_natCast]

theorem signedOf_eq_toInt (n x : Nat) : signedOf n x = (BitVec.ofNat n x).toInt := by
  simp [signedOf, BitVec.toInt, BitVec.toNat_ofNat]

theorem signedOf_mod (n x : Nat) : signedOf n (x % 2 ^ n) = signedOf n x := by
  simp [signedOf]

theorem intVal_mod (t : Ty) (x : Nat) : intVal t (x % 2 ^ Ty.bits t) = intVal t x := by
  simp [intVal, signedOf_mod]

theorem fillDst_mod (d : Dst) (t : Ty) (x : Nat) : fillDst d t (x % 2 ^ Ty.bits t) = fillDst d t x := by
  simp [fillDst, fillTo, signedOf_mod]

/-- A register holds the low bits of a result: two results that agree there fill it alike. -/
theorem fillDst_congr {d : Dst} {t : Ty} {x y : Nat} (h : x % 2 ^ Ty.bits t = y % 2 ^ Ty.bits t) :
    fillDst d t x = fillDst d t y := by
  rw [← fillDst_mod d t x, h, fillDst_mod]

theorem clampInt_eq {lo hi : Int} (x : Int) (h : lo ≤ hi) : clampInt lo hi x = max lo (min x hi) := by
  unfold clampInt
  omega

theorem intMin_le_intMax (t : Ty) : intMin t ≤ intMax t := by
  have hp : ∀ n : Nat, (0 : Int) < ((2 ^ n : Nat) : Int) := fun n => by exact_mod_cast Nat.two_pow_pos n
  have h1 := hp (Ty.bits t - 1)
  have h2 := hp (Ty.bits t)
  unfold intMin intMax
  split <;> omega

/-! ## Element-wise integer instructions (R87, R90-R95) -/

/-- The element-wise shape runs a table entry whose results fill registers as the machine's do. -/
theorem lanewise_eq_run (s : State) (o : LaneOp) {f : List Nat → Nat}
    (hf : ∀ vs l, fillDst o.d o.td (f (o.args vs l)) = fillDst o.d o.td (o.f (o.args vs l))) :
    lanewise s o.h o.place o.late o.d o.td o.srcs f o.size = RegOp.run s o.reg := by
  unfold lanewise RegOp.run LaneOp.reg
  congr 1
  funext x lanes vs
  congr 2
  funext l
  exact hf vs l

theorem args_lt (o : LaneOp) (vs : List (Nat → Nat)) (l i : Nat) :
    arg (o.args vs l) i < 2 ^ (((o.srcs[i]?).map (·.2)).getD 32) := by
  by_cases h : i < o.srcs.length
  · simpa [arg, LaneOp.args, h] using Nat.mod_lt _ (Nat.two_pow_pos _)
  · simp [arg, LaneOp.args, h]

theorem intOp1_eq_run (s : State) {h : Hdr} {t td : Ty} {d : Dst} {a : Opd} {f g : Nat → Nat}
    (hf : ∀ x, x < 2 ^ Ty.bits t → f x % 2 ^ Ty.bits td = g x % 2 ^ Ty.bits td) :
    intOp1 s h t td d a f = RegOp.run s (one h t td d a g).reg :=
  lanewise_eq_run s (one h t td d a g) fun vs l => fillDst_congr (hf _ (args_lt (one h t td d a g) vs l 0))

theorem intOp2_eq_run (s : State) {h : Hdr} {late : Bool} {t : Ty} {d : Dst} {a b : Opd} {f g : Nat → Nat → Nat}
    (hf : ∀ x y, x < 2 ^ Ty.bits t → y < 2 ^ Ty.bits t → f x y % 2 ^ Ty.bits t = g x y % 2 ^ Ty.bits t) :
    intOp2 s h late t d a b f = RegOp.run s (two h t d a b g late).reg :=
  lanewise_eq_run s (two h t d a b g late) fun vs l =>
    fillDst_congr (hf _ _ (args_lt (two h t d a b g late) vs l 0) (args_lt (two h t d a b g late) vs l 1))

theorem intOpCount_eq_run (s : State) {h : Hdr} {t : Ty} {d : Dst} {a b : Opd} {f g : Nat → Nat → Nat}
    (hf : ∀ x y, x < 2 ^ Ty.bits t → f x y % 2 ^ Ty.bits t = g x y % 2 ^ Ty.bits t) :
    intOpCount s h t d a b f = RegOp.run s (counted h t 32 d a b g).reg :=
  lanewise_eq_run s (counted h t 32 d a b g) fun vs l =>
    fillDst_congr (hf _ _ (args_lt (counted h t 32 d a b g) vs l 0))

theorem intOp3_eq_run (s : State) {h : Hdr} {t : Ty} {d : Dst} {a b c : Opd} {f g : Nat → Nat → Nat → Nat}
    (hf : ∀ x y z, x < 2 ^ Ty.bits t → y < 2 ^ Ty.bits t → z < 2 ^ Ty.bits t →
      f x y z % 2 ^ Ty.bits t = g x y z % 2 ^ Ty.bits t) :
    intOp3 s h t d a b c f = RegOp.run s (three h t (Ty.bits t) (Ty.regs t) d a b c g).reg :=
  lanewise_eq_run s (three h t (Ty.bits t) (Ty.regs t) d a b c g) fun vs l =>
    fillDst_congr (hf _ _ _ (args_lt (three h t (Ty.bits t) (Ty.regs t) d a b c g) vs l 0)
      (args_lt (three h t (Ty.bits t) (Ty.regs t) d a b c g) vs l 1)
      (args_lt (three h t (Ty.bits t) (Ty.regs t) d a b c g) vs l 2))

/-! ## Element-wise floating-point instructions (R81, R85, R96) -/

theorem joinElems_fst (pk : Bool) (g : Nat → Nat × BitVec 6) :
    (joinElems pk g).1 = if pk then (g 0).1 + (g 1).1 * 2 ^ 16 else (g 0).1 := by
  cases pk <;> rfl

theorem joinElems_snd (pk : Bool) (g : Nat → Nat × BitVec 6) :
    (joinElems pk g).2 = if pk then (g 0).2 ||| (g 1).2 else (g 0).2 := by
  cases pk <;> rfl

/-- The index of an element under `.rsk`, in the machine's words and in the tables' (R81, R96). -/
theorem elemIndex_eq (v : Bool) (l e : Nat) : (if v then 2 * l else 0) + e = if v then 2 * l + e else e := by
  cases v <;> simp

/-- The floating-point shape runs a table entry whose element function is the machine's. -/
theorem floatOp_eq_run (s : State) {h : Hdr} {late : Bool} {t : Ty} {pk : Bool} {rnd : Option Rnd} {d : Dst}
    {srcs : List Src} {size : Nat} {tr : Ty} {f g : RMode → List Nat → Nat × BitVec 6} (hf : ∀ md v, f md v = g md v) :
    Machine.floatOp s h late t pk rnd d srcs f size tr = RegOp.run s (FloatOp.mk h late t pk rnd d srcs size tr g).reg := by
  obtain rfl : f = g := funext fun md => funext fun v => hf md v
  unfold Machine.floatOp RegOp.run FloatOp.reg
  congr 1
  funext x lanes vs
  simp only [joinElems_fst, joinElems_snd, elemIndex_eq]
  rfl

end Sys2Proof.Machine
end

