-- ==== Sys2Proof/Proofs/IntegerResults.lean ====
section
/-! SUPPORT. The integer instructions give the results of their table (spec/05_alu_instructions.md R90, R91), and O1 and
O2. -/

namespace Sys2Proof.Machine
open Sys2Proof Sys2Proof.Claims

/-- A type that holds at least one bit has its least value's magnitude as half of its range. -/
theorem two_pow_pred (t : Ty) (h : t ≠ .none) : 2 ^ Ty.bits t = 2 * 2 ^ (Ty.bits t - 1) := by
  revert h
  cases t <;> decide

/-- Half a range and its negation are one residue. -/
theorem neg_emod_double {k : Nat} (hk : 0 < k) : (-(k : Int)) % ((2 * k : Nat) : Int) = k := by
  rw [Int.emod_eq_iff (by omega)]
  exact ⟨by omega, by omega, ⟨1, by push_cast; ring⟩⟩

theorem ne_none_of_intTys {t : Ty} (h : intTys.contains t = true) : t ≠ .none := by
  rintro rfl
  exact absurd h (by decide)

theorem signedOf_of_lt {n x : Nat} (h : x < 2 ^ n) :
    signedOf n x = if 2 * x < 2 ^ n then (x : Int) else (x : Int) - (2 ^ n : Nat) := by
  simp [signedOf, Nat.mod_eq_of_lt h]

/-- Wrapping the value of n bits gives the bits back. -/
theorem wrapInt_intVal {t : Ty} {x : Nat} (h : x < 2 ^ Ty.bits t) : wrapInt (Ty.bits t) (intVal t x) = x := by
  unfold intVal
  split
  · rw [signedOf_eq_toInt, wrapInt_eq_toNat, BitVec.ofInt_toInt, BitVec.toNat_ofNat, Nat.mod_eq_of_lt h]
  · rw [wrapInt_natCast, Nat.mod_mod, Nat.mod_eq_of_lt h]

theorem isub_result {n x y : Nat} :
    wrapInt n ((x : Int) - y) = (BitVec.ofNat n x - BitVec.ofNat n y).toNat := by
  rw [wrapInt_eq_toNat]
  congr 1
  apply BitVec.eq_of_toInt_eq
  rw [BitVec.toInt_ofInt, BitVec.toInt_sub, BitVec.toInt_ofNat', BitVec.toInt_ofNat', ← Int.sub_bmod]

/-- The absolute value of R90, whose one overflow is the least value's. -/
theorem iabs_result {t : Ty} (ht : t ≠ .none) {sat : Bool} {x : Nat} (hs : Ty.signed t = true) (hx : x < 2 ^ Ty.bits t) :
    wrapInt (Ty.bits t) (if sat then clampInt (intMin t) (intMax t) (intVal t x).natAbs else (intVal t x).natAbs) =
      if intVal t x = intMin t then (if sat then wrapInt (Ty.bits t) (intMax t) else x)
      else wrapInt (Ty.bits t) (intVal t x).natAbs := by
  have hp := two_pow_pred t ht
  have hpos : 0 < 2 ^ (Ty.bits t - 1) := Nat.two_pow_pos _
  have hb : intVal t x = if 2 * x < 2 ^ Ty.bits t then (x : Int) else (x : Int) - (2 ^ Ty.bits t : Nat) := by
    rw [intVal, if_pos hs, signedOf_of_lt hx]
  have hmin : intMin t = -((2 ^ (Ty.bits t - 1) : Nat) : Int) := if_pos hs
  have hmax : intMax t = ((2 ^ (Ty.bits t - 1) : Nat) : Int) - 1 := if_pos hs
  generalize 2 ^ (Ty.bits t - 1) = k at *
  by_cases hm : intVal t x = intMin t
  · have hxk : x = k := by split at hb <;> omega
    rw [if_pos hm, hm, hmin, Int.natAbs_neg, Int.natAbs_natCast]
    cases sat
    · simp [wrapInt_natCast, hxk, hp, Nat.mod_eq_of_lt (show k < 2 * k by omega)]
    · have hc : clampInt (-(k : Int)) (intMax t) k = intMax t := by unfold clampInt; omega
      simp [hc]
  · rw [if_neg hm]
    cases sat
    · rfl
    · have hc : clampInt (intMin t) (intMax t) ((intVal t x).natAbs : Int) = (intVal t x).natAbs := by
        unfold clampInt
        split at hb <;> omega
      rw [if_pos rfl, hc]

/-- A zero divisor and the least value over -1 are the two cases where R91 gives no quotient. -/
theorem divRem_of_ne {t : Ty} (ht : t ≠ .none) {x y : Nat} (hx : x < 2 ^ Ty.bits t) (hy : intVal t y ≠ 0) :
    divRem t x y = (wrapInt (Ty.bits t) ((intVal t x).tdiv (intVal t y)),
      wrapInt (Ty.bits t) ((intVal t x).tmod (intVal t y))) := by
  unfold divRem
  rw [if_neg hy]
  split
  case isTrue h =>
    obtain ⟨hs, ha, hb⟩ := h
    have hx' := wrapInt_intVal hx
    have hmin : intMin t = -((2 ^ (Ty.bits t - 1) : Nat) : Int) := if_pos hs
    have hself : wrapInt (Ty.bits t) (-intMin t) = wrapInt (Ty.bits t) (intMin t) := by
      rw [hmin, neg_neg, wrapInt, wrapInt, two_pow_pred t ht, neg_emod_double (Nat.two_pow_pos _), ← Int.natCast_emod,
        Nat.mod_eq_of_lt (lt_mul_of_one_lt_left (Nat.two_pow_pos _) (by decide))]
    rw [hb, ha, Int.tdiv_neg, Int.tdiv_one, Int.tmod_neg, Int.tmod_one, hself, ← ha, hx']
    simp [wrapInt]
  case isFalse => rfl

/-- What a zero divisor gives (R91). -/
theorem divRem_of_zero {t : Ty} (ht : t ≠ .none) {x y : Nat} (hy : intVal t y = 0) :
    divRem t x y = (if Ty.signed t then (if 0 ≤ intVal t x then wrapInt (Ty.bits t) (intMax t)
      else wrapInt (Ty.bits t) (intMin t)) else 2 ^ Ty.bits t - 1, x) := by
  have hp := two_pow_pred t ht
  have hpos : 0 < 2 ^ (Ty.bits t - 1) := Nat.two_pow_pos _
  unfold divRem
  rw [if_pos hy]
  cases hs : Ty.signed t
  · rfl
  · simp only [intMin, intMax, hs, wrapInt, if_true, Bool.not_true, Bool.false_eq_true, if_false]
    rw [hp]
    generalize 2 ^ (Ty.bits t - 1) = k at *
    congr 2
    · rw [Int.emod_eq_of_lt (by omega) (by omega)]
      omega
    · rw [neg_emod_double hpos]
      omega

theorem idiv_result {t : Ty} (ht : t ≠ .none) {x y : Nat} (hx : x < 2 ^ Ty.bits t) :
    (divRem t x y).1 = if intVal t y = 0 then
        (if Ty.signed t then (if 0 ≤ intVal t x then wrapInt (Ty.bits t) (intMax t) else wrapInt (Ty.bits t) (intMin t))
         else 2 ^ Ty.bits t - 1)
      else wrapInt (Ty.bits t) ((intVal t x).tdiv (intVal t y)) := by
  by_cases hy : intVal t y = 0
  · rw [divRem_of_zero ht hy, if_pos hy]
  · rw [divRem_of_ne ht hx hy, if_neg hy]

theorem irem_result {t : Ty} (ht : t ≠ .none) {x y : Nat} (hx : x < 2 ^ Ty.bits t) :
    (divRem t x y).2 = if intVal t y = 0 then x
      else wrapInt (Ty.bits t) (intVal t x - (intVal t x).tdiv (intVal t y) * intVal t y) := by
  by_cases hy : intVal t y = 0
  · rw [divRem_of_zero ht hy, if_pos hy]
  · rw [divRem_of_ne ht hx hy, if_neg hy, Int.tmod_def, mul_comm]

/-! ## O1 and O2 -/

theorem next_congr {s t : State} (h : s = t) : (Host.Outcome.next s : Out) = .next t := congrArg _ h

theorem and_left {p q : Bool} (h : (p && q) = true) : p = true := (Bool.and_eq_true _ _ ▸ h).1

/-- Every instruction of R90's table runs its entry. -/
theorem exec_of_arithOp {i : Instr} {o : LaneOp} (hi : arithOp i = some o) (hw : i.WellFormed) (s : State) :
    exec i s = .next (RegOp.run s o.reg) := by
  cases i
  case iadd h t d a b =>
    cases hi
    exact next_congr (intOp2_eq_run s fun x y _ _ => (Nat.mod_mod _ _).symm)
  case isub h t d a b =>
    cases hi
    exact next_congr (intOp2_eq_run s fun x y _ _ => by rw [wrapT, isub_result])
  case iadds h t sub d a b =>
    cases hi
    exact next_congr (intOp2_eq_run s fun x y _ _ => by rw [wrapT, clampInt_eq _ (intMin_le_intMax t)])
  case imul h t d a b =>
    cases hi
    exact next_congr (intOp2_eq_run s fun x y _ _ => (Nat.mod_mod _ _).symm)
  case imulh h t d a b =>
    cases hi
    exact next_congr (intOp2_eq_run s fun x y _ _ => by rw [wrapT, Nat.cast_pow, Nat.cast_ofNat])
  case imad h t d a b c =>
    cases hi
    exact next_congr (intOp3_eq_run s fun x y z _ _ _ => (Nat.mod_mod _ _).symm)
  case imin h t d a b =>
    cases hi
    exact next_congr (intOp2_eq_run s fun x y _ _ => by simp only [← not_le, ite_not])
  case imax h t d a b =>
    cases hi
    refine next_congr (intOp2_eq_run s fun x y hx hy => ?_)
    rcases lt_trichotomy (intVal t x) (intVal t y) with h | h | h
    · rw [if_pos h, if_pos h.le]
    · rw [if_neg h.not_lt, if_pos h.le, ← wrapInt_intVal hx, h, wrapInt_intVal hy]
    · rw [if_neg h.not_gt, if_neg (not_le.2 h)]
  case iabs h t sat d a =>
    cases hi
    have hs : [Ty.i8, .i16, .i32, .i64].contains t = true := and_left hw
    have ht : t ≠ .none ∧ Ty.signed t = true := by
      revert hs
      clear hw
      cases t <;> decide
    exact next_congr (intOp1_eq_run s fun x hx => congrArg (· % _) (iabs_result ht.1 ht.2 hx))
  case lea h t sh d a b =>
    cases hi
    refine next_congr (lanewise_eq_run s (LaneOp.mk h false d .n64 [(srcOf a 2 1 h.la, 64),
      (srcOf b (Ty.regs t) 2 h.lb, Ty.bits t)] (scalarPlace d [a, b]) (Machine.sizeOf b)
      fun v => wrapInt 64 ((arg v 0 : Int) + intVal t (arg v 1) * 2 ^ sh)) fun vs l => ?_)
    rw [Nat.cast_pow, Nat.cast_ofNat]
    rfl
  case mov h t d a =>
    cases hi
    exact next_congr (intOp1_eq_run s fun x _ => rfl)
  case movi h t d v =>
    cases hi
    exact next_congr (lanewise_eq_run s (LaneOp.mk h false d t [(srcOf (.imm v) 1 2 false, Ty.bits t)] (scalarPlace d []) 16
      fun v => arg v 0) fun vs l => rfl)
  all_goals cases hi

theorem exec_of_divideOp {i : Instr} {o : LaneOp} (hi : divideOp i = some o) (hw : i.WellFormed) (s : State) :
    exec i s = .next (RegOp.run s o.reg) := by
  cases i
  case idiv h t d a b =>
    cases hi
    exact next_congr (intOp2_eq_run s fun x y hx _ => by rw [idiv_result (ne_none_of_intTys (and_left hw)) hx])
  case irem h t d a b =>
    cases hi
    exact next_congr (intOp2_eq_run s fun x y hx _ => by rw [irem_result (ne_none_of_intTys (and_left hw)) hx])
  all_goals cases hi

end Sys2Proof.Machine
end

