-- ==== Sys2Proof/Proofs/BitResults.lean ====
section
/-! SUPPORT. The bit instructions give the results of their table (spec/05_alu_instructions.md R93-R95). -/

namespace Sys2Proof.Machine
open Sys2Proof Sys2Proof.Claims

theorem bits_pos_of_bitTys {t : Ty} (h : bitTys.contains t = true) : 0 < Ty.bits t := by
  revert h
  cases t <;> decide

/-! ## Shifts and rotates (R94) -/

theorem shlN_eq (n x b : Nat) : shlN n x b = (BitVec.ofNat n x <<< b).toNat := by
  rw [BitVec.toNat_shiftLeft, BitVec.toNat_ofNat, Nat.shiftLeft_eq, Nat.mod_mul_mod, shlN]
  split
  · next h => rw [Nat.mod_eq_zero_of_dvd (Dvd.dvd.mul_left (Nat.pow_dvd_pow 2 h) x)]
  · rfl

theorem shrN_eq (n x b : Nat) : shrN n x b = (BitVec.ofNat n x >>> b).toNat := by
  rw [BitVec.toNat_ushiftRight, BitVec.toNat_ofNat, Nat.shiftRight_eq_div_pow, shrN]
  split
  · next h =>
    rw [Nat.div_eq_of_lt ((Nat.mod_lt _ (Nat.two_pow_pos n)).trans_le (Nat.pow_le_pow_right (by decide) h))]
  · rfl

/-- Beyond the width every bit of a shifted value is its sign. -/
theorem ediv_two_pow_min {n : Nat} {z : Int} (hlo : -((2 ^ n : Nat) : Int) ≤ z) (hhi : z < ((2 ^ n : Nat) : Int)) (b : Nat) :
    z / ((2 ^ min b n : Nat) : Int) = z / ((2 ^ b : Nat) : Int) := by
  rcases le_total b n with h | h
  · rw [min_eq_left h]
  · rw [min_eq_right h]
    have hle : ((2 ^ n : Nat) : Int) ≤ ((2 ^ b : Nat) : Int) := by exact_mod_cast Nat.pow_le_pow_right (by decide) h
    have hpos : (0 : Int) < ((2 ^ n : Nat) : Int) := by exact_mod_cast Nat.two_pow_pos n
    by_cases hz : 0 ≤ z
    · rw [Int.ediv_eq_zero_of_lt hz hhi, Int.ediv_eq_zero_of_lt hz (by omega)]
    · have hneg : ∀ k : Int, 0 < k → -k ≤ z → z / k = -1 := fun k hk hl => by
        rw [Int.ediv_eq_iff_of_pos hk]
        omega
      rw [hneg _ hpos hlo, hneg _ (by omega) (by omega)]

theorem sarN_eq (n x b : Nat) : sarN n x b = ((BitVec.ofNat n x).sshiftRight b).toNat := by
  have hlo := BitVec.le_two_mul_toInt (x := BitVec.ofNat n x)
  have hhi := BitVec.two_mul_toInt_lt (x := BitVec.ofNat n x)
  have hpos : (0 : Int) < ((2 ^ n : Nat) : Int) := by exact_mod_cast Nat.two_pow_pos n
  rw [sarN, signedOf_eq_toInt, ediv_two_pow_min (by push_cast at *; omega) (by push_cast at *; omega), wrapInt_eq_toNat]
  congr 1
  apply BitVec.eq_of_toInt_eq
  rw [BitVec.toInt_sshiftRight, BitVec.toInt_ofInt, ← Int.shiftRight_eq_div_pow, ← BitVec.toInt_sshiftRight,
    ← BitVec.toInt_ofInt, BitVec.ofInt_toInt]

/-- A rotation by k puts two disjoint parts side by side. -/
theorem rotate_parts {n x k : Nat} (hx : x < 2 ^ n) (hk : k ≤ n) :
    x * 2 ^ k % 2 ^ n + x / 2 ^ (n - k) = (x <<< k) % 2 ^ n ||| x >>> (n - k) := by
  have hsplit : 2 ^ n = 2 ^ (n - k) * 2 ^ k := by rw [← Nat.pow_add, Nat.sub_add_cancel hk]
  have hlow : x / 2 ^ (n - k) < 2 ^ k := by
    rw [Nat.div_lt_iff_lt_mul (Nat.two_pow_pos _), mul_comm, ← hsplit]
    exact hx
  rw [Nat.shiftLeft_eq, Nat.shiftRight_eq_div_pow, hsplit, Nat.mul_mod_mul_right, mul_comm,
    Nat.two_pow_add_eq_or_of_lt hlow]

theorem rotN_left_eq {n x : Nat} (hn : 0 < n) (hx : x < 2 ^ n) (b : Nat) :
    rotN n false x b = ((BitVec.ofNat n x).rotateLeft b).toNat := by
  have hk : b % n ≤ n := (Nat.mod_lt _ hn).le
  simp only [rotN, Bool.false_eq_true, if_false]
  rw [BitVec.toNat_rotateLeft, BitVec.toNat_ofNat, Nat.mod_eq_of_lt hx, rotate_parts hx hk]

theorem rotN_right_eq {n x : Nat} (hn : 0 < n) (hx : x < 2 ^ n) (b : Nat) :
    rotN n true x b = ((BitVec.ofNat n x).rotateRight b).toNat := by
  have hk : b % n < n := Nat.mod_lt _ hn
  simp only [rotN, if_true]
  rw [BitVec.toNat_rotateRight, BitVec.toNat_ofNat, Nat.mod_eq_of_lt hx]
  by_cases h0 : b % n = 0
  · simp [h0, Nat.div_eq_of_lt hx, Nat.mod_eq_of_lt hx, Nat.shiftLeft_eq]
  · rw [Nat.mod_eq_of_lt (show n - b % n < n by omega), rotate_parts hx (by omega), Nat.sub_sub_self hk.le, Nat.or_comm]

/-! ## Counts and reversal (R93) -/

theorem popN_eq (n x : Nat) : popN n x = (List.range n).countP fun i => x.testBit i := by
  rw [popN, List.countP_eq_length_filter]
  rfl

theorem length_takeWhile_range {p : Nat → Bool} {n m : Nat} (hm : m ≤ n) (hp : ∀ i < m, p i = true)
    (hq : m < n → p m = false) : ((List.range n).takeWhile p).length = m := by
  have hsplit : List.range n = List.range m ++ (List.range (n - m)).map (m + ·) := by
    rw [← List.range_add, Nat.add_sub_cancel' hm]
  rw [hsplit, List.takeWhile_append_of_pos (fun i hi => hp i (List.mem_range.1 hi)), List.length_append, List.length_range]
  rcases Nat.eq_zero_or_pos (n - m) with h0 | h0
  · simp [h0]
  · obtain ⟨k, hk⟩ : ∃ k, n - m = k + 1 := ⟨n - m - 1, by omega⟩
    rw [hk, List.range_succ_eq_map]
    simp [hq (by omega)]

theorem clzN_eq {n x : Nat} (hx : x < 2 ^ n) :
    clzN n x = ((List.range n).takeWhile fun i => !x.testBit (n - 1 - i)).length := by
  rw [clzN, Nat.mod_eq_of_lt hx]
  split
  · next h0 => exact (length_takeWhile_range le_rfl (fun i _ => by simp [h0]) fun h => absurd h (lt_irrefl n)).symm
  · next h0 =>
    have hlog : Nat.log2 x < n := (Nat.log2_lt h0).2 hx
    refine (length_takeWhile_range (by omega) (fun i hi => ?_) fun _ => ?_).symm
    · have hbit : x.testBit (n - 1 - i) = false :=
        Nat.testBit_lt_two_pow (Nat.lt_log2_self.trans_le (Nat.pow_le_pow_right (by decide) (by omega)))
      rw [hbit]
      rfl
    · have hbit : x.testBit (n - 1 - (n - 1 - Nat.log2 x)) = true := by
        rw [show n - 1 - (n - 1 - Nat.log2 x) = Nat.log2 x by omega]
        exact Nat.testBit_log2 h0
      rw [hbit]
      rfl

theorem brevN_eq (n x : Nat) : brevN n x = (BitVec.ofNat n x).reverse.toNat := by
  apply Nat.eq_of_testBit_eq
  intro i
  rw [brevN, testBit_natOfBits, BitVec.testBit_toNat, BitVec.getLsbD_reverse, BitVec.getMsbD_eq_getLsbD, BitVec.getLsbD_ofNat,
    bitAt]
  by_cases h : i < n
  · simp [h, show n - 1 - i < n by omega]
  · simp [h]

/-! ## Fields and bytes (R95) -/

theorem bitsAt_field (x pos : Nat) {m : Nat} (hm : 0 < m) : bitsAt x (pos + m - 1) pos = x / 2 ^ pos % 2 ^ m := by
  rw [bitsAt, show pos + m - 1 + 1 - pos = m by omega]

theorem wrapInt_signed_field {n m f : Nat} (hm : 0 < m) (hmn : m ≤ n) (hf : f < 2 ^ m) :
    wrapInt n (signedOf m f) = if f.testBit (m - 1) then f + (2 ^ n - 2 ^ m) else f := by
  have hp : 2 ^ m = 2 * 2 ^ (m - 1) := by rw [← Nat.pow_succ', Nat.succ_eq_add_one, Nat.sub_add_cancel hm]
  have hle : 2 ^ m ≤ 2 ^ n := Nat.pow_le_pow_right (by decide) hmn
  have hbit : f.testBit (m - 1) = decide (2 ^ (m - 1) ≤ f) := by
    rcases lt_or_ge f (2 ^ (m - 1)) with h | h
    · rw [Nat.testBit_lt_two_pow h, decide_eq_false (by omega)]
    · rw [Nat.testBit_eq_decide_div_mod_eq, Nat.div_eq_of_lt_le (k := 1) (by omega) (by omega)]
      simp [h]
  rw [signedOf_of_lt hf, hbit]
  generalize 2 ^ (m - 1) = k at *
  by_cases h : k ≤ f
  · rw [if_neg (by omega), if_pos (by simpa using h), wrapInt]
    rw [← Int.add_emod_right, Int.emod_eq_of_lt (by omega) (by omega)]
    omega
  · rw [if_pos (by omega), if_neg (by simpa using h), wrapInt_natCast, Nat.mod_eq_of_lt (by omega)]

theorem bfeN_eq (n : Nat) (sgn : Bool) (x : Nat) {ctl : Nat} (hc : ctl < 2 ^ 16) :
    bfeN n sgn x ctl =
      if min (ctl / 256) (n - ctl % 256) = 0 then 0
      else if sgn && (x / 2 ^ (ctl % 256) % 2 ^ min (ctl / 256) (n - ctl % 256)).testBit
          (min (ctl / 256) (n - ctl % 256) - 1) then
        x / 2 ^ (ctl % 256) % 2 ^ min (ctl / 256) (n - ctl % 256) + (2 ^ n - 2 ^ min (ctl / 256) (n - ctl % 256))
      else x / 2 ^ (ctl % 256) % 2 ^ min (ctl / 256) (n - ctl % 256) := by
  have hlen : ctl / 256 % 256 = ctl / 256 := Nat.mod_eq_of_lt (by omega)
  simp only [bfeN, hlen]
  generalize ctl / 256 = len
  generalize ctl % 256 = pos
  by_cases h0 : len = 0 ∨ n ≤ pos
  · rw [if_pos h0, if_pos (by omega)]
  · have hm : 0 < min len (n - pos) := by omega
    rw [if_neg h0, if_neg hm.ne', bitsAt_field _ _ hm]
    cases sgn
    · rfl
    · rw [if_pos rfl, Bool.true_and, wrapInt_signed_field hm (by omega) (Nat.mod_lt _ (Nat.two_pow_pos _))]

theorem bfiN_eq (n x z : Nat) {ctl : Nat} (hc : ctl < 2 ^ 16) :
    bfiN n x ctl z =
      if min (ctl / 256) (n - ctl % 256) = 0 then z
      else z / 2 ^ (ctl % 256 + min (ctl / 256) (n - ctl % 256)) * 2 ^ (ctl % 256 + min (ctl / 256) (n - ctl % 256)) +
        x % 2 ^ min (ctl / 256) (n - ctl % 256) * 2 ^ (ctl % 256) + z % 2 ^ (ctl % 256) := by
  have hlen : ctl / 256 % 256 = ctl / 256 := Nat.mod_eq_of_lt (by omega)
  have hm : (if n ≤ ctl % 256 then 0 else min (ctl / 256) (n - ctl % 256)) = min (ctl / 256) (n - ctl % 256) := by
    split <;> omega
  simp only [bfiN, hlen, hm]
  generalize min (ctl / 256) (n - ctl % 256) = m
  generalize ctl % 256 = pos
  by_cases h0 : m = 0
  · simp [h0]
  · rw [if_neg h0, if_neg h0, if_neg h0, bitsAt_field _ _ (by omega), mul_one, Nat.pow_add, ← Nat.div_div_eq_div_mul]
    -- z is its bits above the field, the field and the bits below it
    have h1 := Nat.div_add_mod z (2 ^ pos)
    have h2 := Nat.div_add_mod (z / 2 ^ pos) (2 ^ m)
    generalize z / 2 ^ pos / 2 ^ m = q at *
    generalize z / 2 ^ pos % 2 ^ m = r at *
    generalize z % 2 ^ pos = l at *
    rw [← h1, ← h2]
    have : 2 ^ pos * (2 ^ m * q + r) + l - r * 2 ^ pos = q * (2 ^ pos * 2 ^ m) + l := by
      rw [show 2 ^ pos * (2 ^ m * q + r) + l = q * (2 ^ pos * 2 ^ m) + l + r * 2 ^ pos by ring, Nat.add_sub_cancel]
    omega

/-- Byte k of the eight that b:a holds. -/
theorem bitsAt_pair {x y k : Nat} (hx : x < 2 ^ 32) (hk : k < 8) :
    bitsAt (x + y * 2 ^ 32) (8 * k + 7) (8 * k) = if k < 4 then x / 256 ^ k % 256 else y / 256 ^ (k - 4) % 256 := by
  rw [bitsAt, show 8 * k + 7 + 1 - 8 * k = 8 by omega]
  interval_cases k <;> simp <;> omega

theorem ofBytes_four (b0 b1 b2 b3 : Byte) :
    ofBytes [b0, b1, b2, b3] = b0.toNat + b1.toNat * 256 + b2.toNat * 256 ^ 2 + b3.toNat * 256 ^ 3 := by
  simp only [ofBytes]
  ring

theorem bitsAt_nibble (z j : Nat) : bitsAt z (4 * j + 3) (4 * j) = z / 16 ^ j % 16 := by
  rw [bitsAt, show 4 * j + 3 + 1 - 4 * j = 4 by omega, Nat.pow_mul]
  norm_num

/-- One byte of PRMT's result, by its selector (R95). -/
def pickByte (x y sel : Nat) : Nat :=
  let byte := fun (k : Nat) => if k < 4 then x / 256 ^ k % 256 else y / 256 ^ (k - 4) % 256
  if sel < 8 then byte sel else if 128 ≤ byte (sel - 8) then 255 else 0

theorem prmtN_byte {x y sel : Nat} (hx : x < 2 ^ 32) (hs : sel < 16) :
    (BitVec.ofNat 8 (if sel < 8 then bitsAt (x + y * 2 ^ 32) (8 * (sel % 8) + 7) (8 * (sel % 8))
      else if 128 ≤ bitsAt (x + y * 2 ^ 32) (8 * (sel % 8) + 7) (8 * (sel % 8)) then 255 else 0)).toNat =
      pickByte x y sel := by
  rw [bitsAt_pair hx (Nat.mod_lt _ (by decide)), BitVec.toNat_ofNat, pickByte]
  have hmod : sel % 8 = if sel < 8 then sel else sel - 8 := by split <;> omega
  have hbyte : ∀ k, (if k < 4 then x / 256 ^ k % 256 else y / 256 ^ (k - 4) % 256) < 256 := fun k => by split <;> omega
  rw [hmod]
  by_cases h8 : sel < 8
  · simp only [if_pos h8]
    exact Nat.mod_eq_of_lt (hbyte sel)
  · simp only [if_neg h8]
    exact Nat.mod_eq_of_lt (by split <;> split <;> decide)

theorem prmtN_eq {x : Nat} (y z : Nat) (hx : x < 2 ^ 32) :
    prmtN x y z = pickByte x y (z / 16 ^ 0 % 16) + pickByte x y (z / 16 ^ 1 % 16) * 256 +
      pickByte x y (z / 16 ^ 2 % 16) * 256 ^ 2 + pickByte x y (z / 16 ^ 3 % 16) * 256 ^ 3 := by
  have hs : ∀ j, z / 16 ^ j % 16 < 16 := fun j => Nat.mod_lt _ (by decide)
  rw [← prmtN_byte hx (hs 0), ← prmtN_byte hx (hs 1), ← prmtN_byte hx (hs 2), ← prmtN_byte hx (hs 3), ← ofBytes_four]
  simp only [prmtN, bitsAt_nibble]
  rfl

/-! ## The table -/

/-- Every instruction of the table of R93 to R95 runs its entry. -/
theorem exec_of_bitsOp {i : Instr} {o : LaneOp} (hi : bitsOp i = some o) (hw : i.WellFormed) (s : State) :
    exec i s = .next (RegOp.run s o.reg) := by
  cases i
  case and h t d a b =>
    cases hi
    exact next_congr (intOp2_eq_run s fun x y hx hy => by simp [Nat.mod_eq_of_lt hx, Nat.mod_eq_of_lt hy])
  case or h t d a b =>
    cases hi
    exact next_congr (intOp2_eq_run s fun x y hx hy => by simp [Nat.mod_eq_of_lt hx, Nat.mod_eq_of_lt hy])
  case xor h t d a b =>
    cases hi
    exact next_congr (intOp2_eq_run s fun x y hx hy => by simp [Nat.mod_eq_of_lt hx, Nat.mod_eq_of_lt hy])
  case andn h t d a b =>
    cases hi
    exact next_congr (intOp2_eq_run s fun x y hx hy => by simp [Nat.mod_eq_of_lt hx, Nat.mod_eq_of_lt hy])
  case shl h t d a b =>
    cases hi
    exact next_congr (intOpCount_eq_run s fun x y _ => by rw [shlN_eq])
  case shr h t d a b =>
    cases hi
    exact next_congr (intOpCount_eq_run s fun x y _ => by rw [shrN_eq])
  case sar h t d a b =>
    cases hi
    exact next_congr (intOpCount_eq_run s fun x y _ => by rw [sarN_eq])
  case rot h t right d a b =>
    cases hi
    have hn := bits_pos_of_bitTys (and_left hw)
    refine next_congr (intOpCount_eq_run s fun x y hx => ?_)
    cases right
    · rw [rotN_left_eq hn hx, if_neg Bool.false_ne_true]
    · rw [rotN_right_eq hn hx, if_pos rfl]
  case popc h t d a =>
    cases hi
    exact next_congr (intOp1_eq_run s fun x _ => by rw [popN_eq])
  case clz h t d a =>
    cases hi
    exact next_congr (intOp1_eq_run s fun x hx => by rw [clzN_eq hx])
  case brev h t d a =>
    cases hi
    exact next_congr (intOp1_eq_run s fun x _ => by rw [brevN_eq])
  case bfe h t sgn d a b =>
    cases hi
    exact next_congr (lanewise_eq_run s (counted h t 16 d a b _) fun vs l =>
      congrArg (fillDst d t) (bfeN_eq (Ty.bits t) sgn _ (args_lt (counted h t 16 d a b _) vs l 1)))
  case bfi h t d a b c =>
    cases hi
    exact next_congr (lanewise_eq_run s (three h t 16 1 d a b c _) fun vs l =>
      congrArg (fillDst d t) (bfiN_eq (Ty.bits t) _ _ (args_lt (three h t 16 1 d a b c _) vs l 1)))
  case prmt h d a b c =>
    cases hi
    exact next_congr (intOp3_eq_run s fun x y z hx _ _ => congrArg (· % _) (prmtN_eq y z hx))
  all_goals cases hi

end Sys2Proof.Machine
end

