-- ==== Sys2Proof/Proofs/RegisterResults.lean ====
section
/-! SUPPORT. The remaining register instructions run the entries of their tables: comparisons, floating point, conversions,
lane and mask instructions, and reads of special registers. -/

namespace Sys2Proof.Machine
open Sys2Proof Sys2Proof.Claims

/-- An instruction whose function gives the writes of its entry runs it. -/
theorem run_congr {s : State} {is : Issue} {km : Nat} {pl : Place} {reads : List Ref} {uni : List Nat} {always : Bool}
    {f : Ctxt → Mask → List (Nat → Nat) → Eff Writes} {w : Ctxt → Mask → List (Nat → Nat) → Writes}
    (hf : ∀ x lanes vs, f x lanes vs = .ok (w x lanes vs)) :
    regInstr s is km pl reads uni always f = RegOp.run s ⟨is, km, pl, reads, uni, always, w⟩ := by
  unfold RegOp.run
  congr 1
  funext x lanes vs
  exact hf x lanes vs

/-! ## Comparisons, carries and choices (R90, R92, R98) -/

/-- The carry out is the sum's bit n: the sum of two n-bit numbers and a carry is below 2^(n+1). -/
theorem carry_out (n x y : Nat) {c : Nat} (hc : c ≤ 1) :
    bitAt (x % 2 ^ n + y % 2 ^ n + c) n = decide (2 ^ n ≤ x % 2 ^ n + y % 2 ^ n + c) := by
  have hx := Nat.mod_lt x (Nat.two_pow_pos n)
  have hy := Nat.mod_lt y (Nat.two_pow_pos n)
  rw [bitAt, Nat.testBit_eq_decide_div_mod_eq]
  rcases lt_or_ge (x % 2 ^ n + y % 2 ^ n + c) (2 ^ n) with h | h
  · rw [Nat.div_eq_of_lt h, decide_eq_false (by omega), decide_eq_false (by omega)]
  · rw [Nat.div_eq_of_lt_le (k := 1) (by omega) (by omega), decide_eq_true h]
    rfl

theorem exec_of_compareOp {i : Instr} {o : RegOp} (hi : compareOp i = some o) (s : State) :
    exec i s = .next (RegOp.run s o) := by
  cases i
  case icmp h t cc kd a b =>
    obtain rfl := Option.some.inj hi
    refine next_congr (run_congr fun x lanes vs => ?_)
    cases cc <;> simp [intCond, BEq.beq, bne]
  case fcmp h t cc kd a b =>
    obtain rfl := Option.some.inj hi
    rfl
  case iaddc h t z kc d a b =>
    obtain rfl := Option.some.inj hi
    refine next_congr (run_congr fun x lanes vs => ?_)
    have hc : ∀ p q : Bool, (if p = true then 0 else if q = true then 1 else 0) = if (!p && q) = true then 1 else 0 := by decide
    have hle : ∀ p : Bool, (if p = true then 1 else 0) ≤ 1 := by decide
    simp only [hc, carry_out _ _ _ (hle _)]
  case sel h t ks d a b =>
    obtain rfl := Option.some.inj hi
    refine next_congr (run_congr fun x lanes vs => ?_)
    simp only [apply_ite (fillDst d t)]
  all_goals cases hi

/-! ## Floating point (R96, R97) -/

theorem exec_of_floatOp {i : Instr} {o : FloatOp} (hi : Claims.floatOp i = some o) (s : State) :
    exec i s = .next (RegOp.run s o.reg) := by
  cases i
  case fadd | fsub | fmul | fdiv | fsqrt | frcp | frsq | fex2 | flg2 | ftanh | ffma | fmin | fmax | frnd | fclass =>
    obtain rfl := Option.some.inj hi
    exact next_congr (floatOp_eq_run s fun md v => rfl)
  all_goals cases hi

/-! ## Conversions (R101-R103) -/

/-- The sign of a byte as a trit, and whether the byte is one (R103). -/
theorem asTrit_eq {b : Nat} (hb : b < 256) :
    asTrit b = (if b = 0 then 0 else if b < 128 then 1 else -1, if b == 0 || b == 1 || b == 255 then 0 else flBadpack) := by
  have hs : signedOf 8 b = if b < 128 then (b : Int) else (b : Int) - 256 := by
    rw [signedOf_of_lt (show b < 2 ^ 8 from hb)]
    split <;> split <;> omega
  simp only [asTrit, hs, clampInt]
  by_cases h0 : b = 0
  · subst h0
    rfl
  · by_cases h1 : b = 1
    · subst h1
      rfl
    · by_cases h255 : b = 255
      · subst h255
        rfl
      · by_cases h : b < 128
        · have h2 : ¬ (b : Int) < -1 := by omega
          have h3 : (1 : Int) < b := by omega
          simp [h, h0, h1, h255, h2, h3, show (1 : Int) ≠ b by omega]
        · have h2 : (b : Int) - 256 < -1 := by omega
          simp [h, h0, h1, h255, h2, show ¬ (-1 : Int) = b - 256 by omega]

theorem or_badpack (p q : Prop) [Decidable p] [Decidable q] :
    (if p then (0#6) else flBadpack) ||| (if q then 0#6 else flBadpack) = if p ∧ q then 0#6 else flBadpack := by
  by_cases hp : p <;> by_cases hq : q <;> simp [hp, hq]

theorem bitsAt_byte (x i : Nat) : bitsAt x (8 * i + 7) (8 * i) = x / 256 ^ i % 256 := by
  rw [bitsAt, show 8 * i + 7 + 1 - 8 * i = 8 by omega, Nat.pow_mul]
  norm_num

/-- The trits of a byte: of one that packs none, zeros and BADPACK (R74). -/
theorem tritsOf_getElem (b : Nat) {i : Nat} (hi : i < 5) :
    (tritsOf b).1[i]? = some (if 243 ≤ b then 0 else ((b / 3 ^ i % 3 : Nat) : Int) - 1) := by
  unfold tritsOf
  split
  · interval_cases i <;> rfl
  · simp [hi]

theorem tritsOf_snd (b : Nat) : (tritsOf b).2 = decide (243 ≤ b) := by
  unfold tritsOf
  split <;> simp [*]

theorem length_tritsOf (b : Nat) : (tritsOf b).1.length = 5 := by
  unfold tritsOf
  split <;> simp

/-- Place q of equal blocks laid end to end. -/
theorem getElem?_flatten_map_range {α : Type} (f : Nat → List α) {m : Nat} (hm : 0 < m) (hf : ∀ i, (f i).length = m)
    (n q : Nat) : (((List.range n).map f).flatten)[q]? = if q < n * m then (f (q / m))[q % m]? else none := by
  induction n with
  | zero => simp
  | succ n ih =>
    have hlen : (((List.range n).map f).flatten).length = n * m := by
      simp [List.length_flatten, Function.comp_def, hf]
    rw [List.range_succ, List.map_append, List.flatten_append, List.getElem?_append, hlen, ih]
    by_cases h : q < n * m
    · rw [if_pos h, if_pos h, if_pos (by rw [Nat.succ_mul]; omega)]
    · rw [if_neg h]
      by_cases h2 : q < (n + 1) * m
      · rw [Nat.succ_mul] at h2
        have hdiv : q / m = n := by
          rw [Nat.div_eq_iff hm]
          omega
        have hmod : q % m = q - n * m := by
          have := Nat.div_add_mod q m
          rw [hdiv, mul_comm] at this
          omega
        rw [if_pos (by rw [Nat.succ_mul]; exact h2), hdiv, hmod]
        simp
      · rw [if_neg h2, Nat.succ_mul] at *
        simp [hf]
        omega

/-- TPACK's byte and flag, trit by trit (R103). -/
theorem tpack_result (x y : Nat) :
    let ts := ((List.range 4).map fun i => asTrit (bitsAt x (8 * i + 7) (8 * i))) ++ [asTrit (y % 256)]
    let byte := fun (i : Nat) => if i < 4 then x / 256 ^ i % 256 else y % 256
    let trit := fun (i : Nat) => if byte i = 0 then 0 else if byte i < 128 then 1 else (-1 : Int)
    packTrits (ts.map (·.1)) = ((List.range 5).map fun i => (trit i + 1).toNat * 3 ^ i).sum ∧
      ts.foldl (fun m t => m ||| t.2) 0 =
        if (List.range 5).all fun i => byte i == 0 || byte i == 1 || byte i == 255 then 0 else flBadpack := by
  have hlt : ∀ x i : Nat, x / 256 ^ i % 256 < 256 := fun x i => Nat.mod_lt _ (by decide)
  simp only [bitsAt_byte, asTrit_eq (hlt _ _), asTrit_eq (Nat.mod_lt _ (show 0 < 256 by decide))]
  constructor
  · simp [List.range_succ, packTrits]
    ring
  · simp [List.range_succ, or_badpack, and_assoc]

/-- Trit q of the twenty that four bytes hold, and 0 beyond them (R74, R103). -/
def tritAt (x q : Nat) : Int :=
  if 20 ≤ q ∨ 243 ≤ x / 256 ^ (q / 5) % 256 then 0 else ((x / 256 ^ (q / 5) % 256 / 3 ^ (q % 5) % 3 : Nat) : Int) - 1

theorem getElem_trits (x q : Nat) :
    ((((List.range 4).map fun i => (tritsOf (x / 256 ^ i % 256)).1).flatten)[q]?).getD 0 = tritAt x q := by
  rw [getElem?_flatten_map_range _ (by decide) (fun i => length_tritsOf _), tritAt]
  by_cases h : q < 20
  · rw [if_pos h, tritsOf_getElem _ (Nat.mod_lt _ (by decide)), Option.getD_some]
    simp [Nat.not_le.2 h]
  · rw [if_neg h, if_pos (Or.inl (Nat.not_lt.1 h))]
    rfl

theorem digits_four (a b c d : Nat) : a + b * 256 + c * 256 ^ 2 + d * 256 ^ 3 =
    a * 256 ^ 0 + (b * 256 ^ 1 + (c * 256 ^ 2 + (d * 256 ^ 3 + 0))) := by
  ring

theorem sum_range_four (g : Nat → Nat) : ((List.range 4).map g).sum = g 0 + (g 1 + (g 2 + (g 3 + 0))) := rfl

theorem ofBytes_ofInt (f : Nat → Int) : ofBytes ((List.range 4).map fun m => BitVec.ofInt 8 (f m)) =
    ((List.range 4).map fun m => wrapInt 8 (f m) * 256 ^ m).sum := by
  rw [sum_range_four, wrapInt_eq_toNat, wrapInt_eq_toNat, wrapInt_eq_toNat, wrapInt_eq_toNat]
  exact (ofBytes_four _ _ _ _).trans (digits_four _ _ _ _)

/-- TUNPK's four trits and its flag (R103). -/
theorem tunpk_result (x j : Nat) :
    ofBytes ((List.range 4).map fun m => BitVec.ofInt 8 ((((((List.range 4).map fun i =>
      tritsOf (bitsAt x (8 * i + 7) (8 * i))).map (·.1)).flatten)[j + m]?).getD 0)) =
        ((List.range 4).map fun m => wrapInt 8 (tritAt x (j + m)) * 256 ^ m).sum ∧
      (((List.range 4).map fun i => tritsOf (bitsAt x (8 * i + 7) (8 * i))).any (·.2)) =
        (List.range 4).any fun i => decide (243 ≤ x / 256 ^ i % 256) := by
  simp only [bitsAt_byte, List.map_map, Function.comp_def, getElem_trits, ofBytes_ofInt, List.any_map, tritsOf_snd,
    and_self]

theorem exec_of_convertOp {i : Instr} {o : FloatOp} (hi : convertOp i = some o) (s : State) :
    exec i s = .next (RegOp.run s o.reg) := by
  cases i
  case qnt | dqnt | unpk | fdot2 =>
    obtain rfl := Option.some.inj hi
    exact next_congr (floatOp_eq_run s fun md v => rfl)
  case tpack h d a b =>
    obtain rfl := Option.some.inj hi
    refine next_congr (floatOp_eq_run s fun md v => ?_)
    exact Prod.ext (tpack_result (arg v 0) (arg v 1)).1 (tpack_result (arg v 0) (arg v 1)).2
  case tunpk h d a b =>
    obtain rfl := Option.some.inj hi
    refine next_congr (floatOp_eq_run s fun md v => ?_)
    have hr := tunpk_result (arg v 0) (arg v 1 % 32)
    exact Prod.ext hr.1 (congrArg (fun c : Bool => if c then flBadpack else 0) hr.2)
  all_goals cases hi

end Sys2Proof.Machine
end

