-- ==== Sys2Proof/Proofs/LaneResults.lean ====
section
/-! SUPPORT. FSCALE, CVT and PACK, the lane and mask instructions and the reads of special registers run the entries of
their tables (spec/05_alu_instructions.md R97, R100, R102, R104-R110; spec/02_encoding.md R46-R48). -/

namespace Sys2Proof.Machine
open Sys2Proof Sys2Proof.Claims

/-- The range of a PACK element is that of its n bits (R102). -/
theorem packRange_eq {t : Ty} {nib : Bool} (ht : [Ty.i8, .n8, .i16, .n16, .f16, .bf16].contains t = true)
    (hn : nib = true → t = .i8 ∨ t = .n8) :
    packRange t nib =
      (if Ty.signed t then -2 ^ ((if nib then 4 else Ty.bits t) - 1) else 0,
       if Ty.signed t then 2 ^ ((if nib then 4 else Ty.bits t) - 1) - 1 else 2 ^ (if nib then 4 else Ty.bits t) - 1) := by
  cases nib
  case true => obtain rfl | rfl := hn rfl <;> rfl
  case false =>
    clear hn
    revert ht
    cases t <;> decide

theorem packRange_le (t : Ty) (nib : Bool) : (packRange t nib).1 ≤ (packRange t nib).2 := by
  unfold packRange
  split
  · split <;> decide
  · exact intMin_le_intMax t

/-- An integer element of PACK: the value saturated to its range, and the flags where that changes it (R102). -/
theorem satPack_packRange {t : Ty} {nib : Bool} (ht : [Ty.i8, .n8, .i16, .n16, .f16, .bf16].contains t = true)
    (hn : nib = true → t = .i8 ∨ t = .n8) (z : Int) :
    satPack (packRange t nib).1 (packRange t nib).2 z (packBits t nib) =
      let n := if nib then 4 else Ty.bits t
      let lo : Int := if Ty.signed t then -2 ^ (n - 1) else 0
      let hi : Int := if Ty.signed t then 2 ^ (n - 1) - 1 else 2 ^ n - 1
      (wrapInt n (max lo (min z hi)), if lo ≤ z ∧ z ≤ hi then 0 else flInvalid ||| flInexact) := by
  have hflag : ∀ lo hi : Int, (if z < lo ∨ hi < z then flInvalid ||| flInexact else 0) =
      if lo ≤ z ∧ z ≤ hi then 0 else flInvalid ||| flInexact := fun lo hi => by
    by_cases hz : lo ≤ z ∧ z ≤ hi
    · rw [if_pos hz, if_neg (by omega)]
    · rw [if_neg hz, if_pos (by omega)]
  rw [satPack, clampInt_eq z (packRange_le t nib), hflag, packRange_eq ht hn]
  rfl

theorem exec_of_scaleOp {i : Instr} {o : RegOp} (hi : scaleOp i = some o) (hw : i.WellFormed) (s : State) :
    exec i s = .next (RegOp.run s o) := by
  cases i
  case fscale h t m d a b =>
    obtain rfl := Option.some.inj hi
    refine next_congr (run_congr fun x lanes vs => ?_)
    simp only [joinElems_fst, joinElems_snd, elemIndex_eq]
    rfl
  case cvt h td ts rnd d a =>
    obtain rfl := Option.some.inj hi
    rfl
  case pack h t nib rnd d a b c =>
    obtain rfl := Option.some.inj hi
    refine next_congr (run_congr fun x lanes vs => ?_)
    have hw := and_left hw
    have hn : nib = true → t = .i8 ∨ t = .n8 := by
      rintro rfl
      have hb : (!true || t == .i8 || t == .n8) = true := (Bool.and_eq_true _ _ ▸ hw).2
      simpa using hb
    simp only [satPack_packRange (and_left (and_left hw)) hn, elemIndex_eq]
    rfl
  all_goals cases hi

theorem exec_of_acrossOp {i : Instr} {o : RegOp} (hi : acrossOp i = some o) (s : State) :
    exec i s = .next (RegOp.run s o) := by
  cases i
  case shfl | lred | lscan | matchLanes | topk =>
    obtain rfl := Option.some.inj hi
    rfl
  case vote h k d a =>
    obtain rfl := Option.some.inj hi
    cases d <;> rfl
  case bcast h t d a b =>
    obtain rfl := Option.some.inj hi
    cases b <;> rfl
  all_goals cases hi

theorem exec_of_masksOp {i : Instr} {o : RegOp} (hi : masksOp i = some o) (s : State) :
    exec i s = .next (RegOp.run s o) := by
  cases i
  case kop | kpop | kfnd =>
    obtain rfl := Option.some.inj hi
    rfl
  case kmov h f =>
    cases f
    case toV n ka =>
      obtain rfl := Option.some.inj hi
      refine next_congr (run_congr fun x lanes vs => ?_)
      have hb : ∀ b : Bool, (if b = true then 1 else 0) = b.toNat := by decide
      simp only [hb]
    all_goals
      obtain rfl := Option.some.inj hi
      rfl
  all_goals cases hi

theorem exec_of_readOp {i : Instr} {s : State} {o : RegOp} (hi : readOp s i = some o) :
    exec i s = .next (RegOp.run s o) := by
  cases i
  case srd | clk | clkPtp =>
    obtain rfl := Option.some.inj hi
    rfl
  all_goals cases hi

end Sys2Proof.Machine
end

