-- ==== Sys2Proof/Proofs/RegisterInstructions.lean ====
section
/-! The register instructions complete with the results that their rules give. -/

namespace Sys2Proof.Machine
open Sys2Proof Sys2Proof.Claims

/-- Every register instruction runs its entry, in whichever table it stands. -/
theorem exec_of_regOp {i : Instr} {s : State} {o : RegOp} (hi : regOp s i = some o) (hw : i.WellFormed) :
    exec i s = .next (RegOp.run s o) := by
  simp only [regOp, Option.or_eq_some_iff, Option.map_eq_some_iff] at hi
  obtain ⟨l, hl, rfl⟩ | ⟨-, hi⟩ := hi
  · exact exec_of_arithOp hl hw s
  obtain ⟨l, hl, rfl⟩ | ⟨-, hi⟩ := hi
  · exact exec_of_divideOp hl hw s
  obtain ⟨l, hl, rfl⟩ | ⟨-, hi⟩ := hi
  · exact exec_of_bitsOp hl hw s
  obtain hi | ⟨-, hi⟩ := hi
  · exact exec_of_compareOp hi s
  obtain ⟨l, hl, rfl⟩ | ⟨-, hi⟩ := hi
  · exact exec_of_floatOp hl s
  obtain ⟨l, hl, rfl⟩ | ⟨-, hi⟩ := hi
  · exact exec_of_convertOp hl s
  obtain hi | ⟨-, hi⟩ := hi
  · exact exec_of_scaleOp hi hw s
  obtain hi | ⟨-, hi⟩ := hi
  · exact exec_of_acrossOp hi s
  obtain hi | ⟨-, hi⟩ := hi
  · exact exec_of_masksOp hi s
  · exact exec_of_readOp hi

/-- Settles O1: the machine's run of R90's table, committed. -/
theorem integerArithmeticCompletes : Obligations.IntegerArithmeticCompletes := by
  intro i o hi hw s s2 x0 x vs hr
  rw [exec_of_arithOp hi hw, RegOp.run_of_ready hr]

/-- Settles O2: a zero divisor and the least value over -1 have results of their own, and none traps. -/
theorem divisionCompletes : Obligations.DivisionCompletes := by
  intro i o hi hw s s2 x0 x vs hr
  rw [exec_of_divideOp hi hw, RegOp.run_of_ready hr]

/-- Settles O3: the model's arithmetic on numbers agrees with the operations on words of n bits. -/
theorem bitInstructionsComplete : Obligations.BitInstructionsComplete := by
  intro i o hi hw s s2 x0 x vs hr
  rw [exec_of_bitsOp hi hw, RegOp.run_of_ready hr]

/-- Settles O4. -/
theorem compareCarryAndChoiceComplete : Obligations.CompareCarryAndChoiceComplete := by
  intro i o hi _ s s2 x0 x vs hr
  rw [exec_of_compareOp hi, RegOp.run_of_ready hr]

/-- Settles O5: each element is rounded once, and a lane's flags are its elements'. -/
theorem floatArithmeticCompletes : Obligations.FloatArithmeticCompletes := by
  intro i o hi _ s s2 x0 x vs hr
  rw [exec_of_floatOp hi, RegOp.run_of_ready hr]

/-- Settles O6. -/
theorem conversionsComplete : Obligations.ConversionsComplete := by
  intro i o hi _ s s2 x0 x vs hr
  rw [exec_of_convertOp hi, RegOp.run_of_ready hr]

/-- Settles O7. -/
theorem scaleConvertAndPackComplete : Obligations.ScaleConvertAndPackComplete := by
  intro i o hi hw s s2 x0 x vs hr
  rw [exec_of_scaleOp hi hw, RegOp.run_of_ready hr]

/-- Settles O8. -/
theorem laneInstructionsComplete : Obligations.LaneInstructionsComplete := by
  intro i o hi _ s s2 x0 x vs hr
  rw [exec_of_acrossOp hi, RegOp.run_of_ready hr]

/-- Settles O9. -/
theorem maskInstructionsComplete : Obligations.MaskInstructionsComplete := by
  intro i o hi _ s s2 x0 x vs hr
  rw [exec_of_masksOp hi, RegOp.run_of_ready hr]

/-- Settles O10. -/
theorem specialReadsComplete : Obligations.SpecialReadsComplete := by
  intro i s o hi s2 x0 x vs hr
  rw [exec_of_readOp hi, RegOp.run_of_ready hr]

end Sys2Proof.Machine
end

