-- ==== Sys2Proof/Proofs/DeadReads.lean ====
section
/-! SUPPORT. Every register instruction is the shared shape with the operands of its entry, whatever its fields are: the
checks of R24 come before any effect, so a dead name that it reads is a DEADREAD. -/

namespace Sys2Proof.Machine
open Sys2Proof Sys2Proof.Claims

/-- An instruction that is the shared shape with an entry's operands. -/
def RunsAs (i : Instr) (s : State) (o : RegOp) : Prop :=
  ∃ f, exec i s = .next (regInstr s o.is o.km o.place o.reads o.uni o.always f)

theorem RunsAs.of_run {i : Instr} {s : State} {o : RegOp} (h : exec i s = .next (RegOp.run s o)) : RunsAs i s o := ⟨_, h⟩

theorem RunsAs.of_lanewise {i : Instr} {s : State} {o : LaneOp} {f : List Nat → Nat}
    (h : exec i s = .next (lanewise s o.h o.place o.late o.d o.td o.srcs f o.size)) : RunsAs i s o.reg :=
  ⟨_, h.trans (next_congr rfl)⟩

theorem runsAs_of_arithOp {i : Instr} {o : LaneOp} (hi : arithOp i = some o) (s : State) : RunsAs i s o.reg := by
  cases i
  case iadd | isub | iadds | imul | imulh | imad | imin | imax | iabs | lea | mov | movi =>
    obtain rfl := Option.some.inj hi
    exact .of_lanewise rfl
  all_goals cases hi

theorem runsAs_of_divideOp {i : Instr} {o : LaneOp} (hi : divideOp i = some o) (s : State) : RunsAs i s o.reg := by
  cases i
  case idiv | irem =>
    obtain rfl := Option.some.inj hi
    exact .of_lanewise rfl
  all_goals cases hi

theorem runsAs_of_bitsOp {i : Instr} {o : LaneOp} (hi : bitsOp i = some o) (s : State) : RunsAs i s o.reg := by
  cases i
  case and | or | xor | andn | shl | shr | sar | rot | popc | clz | brev | bfe | bfi | prmt =>
    obtain rfl := Option.some.inj hi
    exact .of_lanewise rfl
  all_goals cases hi

theorem runsAs_of_scaleOp {i : Instr} {o : RegOp} (hi : scaleOp i = some o) (s : State) : RunsAs i s o := by
  cases i
  case fscale | cvt | pack =>
    obtain rfl := Option.some.inj hi
    exact ⟨_, rfl⟩
  all_goals cases hi

theorem runsAs_of_regOp {i : Instr} {s : State} {o : RegOp} (hi : regOp s i = some o) : RunsAs i s o := by
  simp only [regOp, Option.or_eq_some_iff, Option.map_eq_some_iff] at hi
  obtain ⟨l, hl, rfl⟩ | ⟨-, hi⟩ := hi
  · exact runsAs_of_arithOp hl s
  obtain ⟨l, hl, rfl⟩ | ⟨-, hi⟩ := hi
  · exact runsAs_of_divideOp hl s
  obtain ⟨l, hl, rfl⟩ | ⟨-, hi⟩ := hi
  · exact runsAs_of_bitsOp hl s
  obtain hi | ⟨-, hi⟩ := hi
  · exact .of_run (exec_of_compareOp hi s)
  obtain ⟨l, hl, rfl⟩ | ⟨-, hi⟩ := hi
  · exact .of_run (exec_of_floatOp hl s)
  obtain ⟨l, hl, rfl⟩ | ⟨-, hi⟩ := hi
  · exact .of_run (exec_of_convertOp hl s)
  obtain hi | ⟨-, hi⟩ := hi
  · exact runsAs_of_scaleOp hi s
  obtain hi | ⟨-, hi⟩ := hi
  · exact .of_run (exec_of_acrossOp hi s)
  obtain hi | ⟨-, hi⟩ := hi
  · exact .of_run (exec_of_masksOp hi s)
  · exact .of_run (exec_of_readOp hi)

/-! ## DEADREAD (R18, R24) -/

/-- Where nothing is protected and a source's name is dead, the checks end in the trap of R24. -/
theorem checkRegs_dead {x : Ctxt} {lanes : Mask} {srcs : List Src} {refs : List Ref} {k f : Nat}
    (hz : firstHaz x.a ((srcs.map fun r => (srcKeys x.a lanes r, false, r.field)) ++ refs.map (refKeys x.a lanes)) = none)
    (hd : ((srcs.map fun r => (srcKeys x.a lanes r, false, r.field)).findSome? fun e =>
      (e.1.find? fun k => decide (k < 0xC0) && !isLive x.a k).map fun k => (k, e.2.2)) = some (k, f)) :
    checkRegs x lanes srcs refs = trapAt .deadread lanes (regAux k f false) := by
  unfold checkRegs
  simp only [hz, hd]

/-- The checks before those of the registers pass, and the registers' check stops the instruction. -/
theorem gather_of_checkRegs {s u : State} {x0 x : Ctxt} {is : Issue} {km : Nat} {pl : Place} {reads : List Ref}
    {uni : List Nat} {always : Bool} {t : Stop} (hp : checkPlace x0 (activeMask x0.a km) pl = .ok ())
    (hs : switchMark s x0 is.sw = .ok (u, x)) (hm : checkMeldPairs x (activeMask x0.a km) is.srcs is.dsts = .ok ())
    (hst : ∀ n r, is.straddle = some (n, r) → x.a.meld = true → n < 0xB0 → n + r ≤ 0xB0)
    (hr : checkRegs x (activeMask x0.a km) is.srcs (reads ++ is.dsts ++ (if always then [] else selRefs x km)) = .error t) :
    gather s x0 is km pl reads uni always = .error t := by
  unfold gather
  simp only [hp, hs, hm, bind, Except.bind]
  split
  case h_1 n r hq =>
    have hno : ¬ (x.a.meld && decide (n < 0xB0) && decide (0xB0 < n + r)) = true := by
      simp only [Bool.and_eq_true, decide_eq_true_eq]
      rintro ⟨⟨hmeld, hlt⟩, hgt⟩
      have := hst n r hq hmeld hlt
      omega
    rw [if_neg hno]
    simp only [hr]
  case h_2 => simp only [hr]

/-- Settles O58: the checks before R24's pass, nothing is protected, and so the first dead name is the trap's. -/
theorem deadReads : Obligations.DeadReads := by
  intro i s u o x0 x k f hi hx lanes names hp hs hm hst hz hd
  obtain ⟨g, hexec⟩ := runsAs_of_regOp hi
  have hg := gather_of_checkRegs (uni := o.uni) hp hs hm hst (checkRegs_dead hz hd)
  rw [hexec, regInstr, runAgent_of_ctxt _ hx]
  simp only [hg, bind, Except.bind]
  rfl

end Sys2Proof.Machine
end

