-- ==== Sys2Proof/Proofs/StoresNothing.lean ====
section
namespace Sys2Proof.Machine
open Sys2Proof Sys2Proof.Claims

/-- An instruction of the list leaves memory as it is: each has a lemma of its own that says so, and the others are not in
the list. -/
theorem exec_mem_of_storesNothing {i : Instr} (s : State) (h : storesNothing i = true) :
    (nextOr s (exec i s)).mem = s.mem := by
  unfold exec
  split
  any_goals simp
  all_goals exact absurd h Bool.false_ne_true

/-- Settles O52: memory is the same, and so is every byte that it reads. -/
theorem instructionsLeaveMemory : Obligations.InstructionsLeaveMemory := by
  intro i s t h ht pa
  have hm := exec_mem_of_storesNothing s h
  rw [ht, nextOr_next] at hm
  rw [hm]

end Sys2Proof.Machine
end

