-- ==== Sys2Proof/Proofs/RegisterFrame.lean ====
section
/-! SUPPORT. What a register instruction's operations on the state leave as it was: each reaches its agent, its stroke and
its panel alone (spec/01_machine.md R10, R17, R20), and composes with the next. -/

namespace Sys2Proof.Machine
open Sys2Proof Sys2Proof.Claims

/-- What an agent keeps through an instruction that writes `w`. -/
structure AgentFrame (w : Writes) (a b : Agent) : Prop where
  control : KeepsControl a b
  scalars : ∀ n, n ∉ w.s.map (·.1) → sReg b n = sReg a n
  masks : ∀ n, n ∉ w.k.map (·.1) → kReg b n = kReg a n
  em : 16 ∉ w.k.map (·.1) → b.em = a.em

/-- What its stroke keeps. -/
structure StrokeFrame (w : Writes) (a b : Stroke) : Prop where
  panel : b.panel = a.panel
  lanes : ∀ n lane, n ∉ w.v.map (·.name) → vLane b n lane = vLane a n lane
  flags : w.fl = 0 → b.fpst = a.fpst
  rest : b.sstat = a.sstat ∧ b.ssbytes = a.ssbytes ∧ b.gang = a.gang ∧ b.acks = a.acks ∧ b.marks = a.marks ∧
    b.splits = a.splits ∧ b.populated = a.populated ∧ b.width = a.width
  ptp : w.ptp = none → b.ptp = a.ptp

theorem keepsControl_refl (a : Agent) : KeepsControl a a := by constructor <;> simp

theorem keepsControl_trans {a b c : Agent} (h : KeepsControl a b) (g : KeepsControl b c) : KeepsControl a c := by
  obtain ⟨h1, h2, h3⟩ := h
  obtain ⟨g1, g2, g3⟩ := g
  constructor
  · simp only [g1, h1, and_self]
  · simp only [g2, h2, and_self]
  · simp only [g3, h3, and_self]

theorem AgentFrame.rfl {w : Writes} {a : Agent} : AgentFrame w a a := ⟨keepsControl_refl a, by simp, by simp, by simp⟩

theorem AgentFrame.trans {w : Writes} {a b c : Agent} (h : AgentFrame w a b) (g : AgentFrame w b c) : AgentFrame w a c :=
  ⟨keepsControl_trans h.control g.control, fun n hn => (g.scalars n hn).trans (h.scalars n hn),
    fun n hn => (g.masks n hn).trans (h.masks n hn), fun hn => (g.em hn).trans (h.em hn)⟩

theorem StrokeFrame.rfl {w : Writes} {a : Stroke} : StrokeFrame w a a := ⟨by simp, by simp, by simp, by simp, by simp⟩

theorem StrokeFrame.trans {w : Writes} {a b c : Stroke} (h : StrokeFrame w a b) (g : StrokeFrame w b c) :
    StrokeFrame w a c where
  panel := g.panel.trans h.panel
  lanes n l hn := (g.lanes n l hn).trans (h.lanes n l hn)
  flags hf := (g.flags hf).trans (h.flags hf)
  rest := by
    obtain ⟨h1, h2, h3, h4, h5, h6, h7, h8⟩ := h.rest
    obtain ⟨g1, g2, g3, g4, g5, g6, g7, g8⟩ := g.rest
    exact ⟨g1.trans h1, g2.trans h2, g3.trans h3, g4.trans h4, g5.trans h5, g6.trans h6, g7.trans h7, g8.trans h8⟩
  ptp hp := (g.ptp hp).trans (h.ptp hp)

/-- t is s with other agents, strokes, panels, cores, Easel queues and results. -/
def SameDevice (s t : State) : Prop :=
  ∃ ag st pn co ea fn rs fr, t = { s with
    agents := ag, strokes := st, panels := pn, cores := co, easel := ea, freeN := fn, results := rs, fresh := fr }

/-- From s to t agent `aid` of stroke k and panel pn writes `w` and nothing beyond its frame. -/
structure Framed (aid k pn : Nat) (w : Writes) (s t : State) : Prop where
  device : SameDevice s t
  agents : ∀ n, n ≠ aid → getAgent t n = getAgent s n
  strokes : ∀ n, n ≠ k → getStroke t n = getStroke s n
  panels : ∀ n, n ≠ pn → getPanel t n = getPanel s n
  cores : ∀ n, (getCore t n).matrix = (getCore s n).matrix ∧ (getCore t n).tasks = (getCore s n).tasks
  agent : ∀ a, getAgent s aid = some a → ∃ b, getAgent t aid = some b ∧ AgentFrame w a b
  stroke : ∀ a, getStroke s k = some a → ∃ b, getStroke t k = some b ∧ StrokeFrame w a b

/-- The agent stands in the stroke, and the stroke in the panel. -/
def Stands (aid k pn : Nat) (s : State) : Prop :=
  ∃ a st, getAgent s aid = some a ∧ a.stroke = k ∧ getStroke s k = some st ∧ st.panel = pn

section
variable {aid k pn : Nat} {w : Writes}

theorem Framed.rfl {s : State} : Framed aid k pn w s s where
  device := ⟨_, _, _, _, _, _, _, _, Eq.refl s⟩
  agents _ _ := Eq.refl _
  strokes _ _ := Eq.refl _
  panels _ _ := Eq.refl _
  cores _ := ⟨Eq.refl _, Eq.refl _⟩
  agent a h := ⟨a, h, .rfl⟩
  stroke a h := ⟨a, h, .rfl⟩

theorem Framed.trans {s u t : State} (h : Framed aid k pn w s u) (g : Framed aid k pn w u t) : Framed aid k pn w s t where
  device := by
    obtain ⟨_, _, _, _, _, _, _, _, h⟩ := h.device
    obtain ⟨_, _, _, _, _, _, _, _, g⟩ := g.device
    subst h g
    exact ⟨_, _, _, _, _, _, _, _, Eq.refl _⟩
  agents n hn := (g.agents n hn).trans (h.agents n hn)
  strokes n hn := (g.strokes n hn).trans (h.strokes n hn)
  panels n hn := (g.panels n hn).trans (h.panels n hn)
  cores n := ⟨(g.cores n).1.trans (h.cores n).1, (g.cores n).2.trans (h.cores n).2⟩
  agent a ha := by
    obtain ⟨b, hb, hab⟩ := h.agent a ha
    obtain ⟨c, hc, hbc⟩ := g.agent b hb
    exact ⟨c, hc, hab.trans hbc⟩
  stroke a ha := by
    obtain ⟨b, hb, hab⟩ := h.stroke a ha
    obtain ⟨c, hc, hbc⟩ := g.stroke b hb
    exact ⟨c, hc, hab.trans hbc⟩

theorem Framed.stands {s t : State} (h : Framed aid k pn w s t) (hs : Stands aid k pn s) : Stands aid k pn t := by
  obtain ⟨a, st, ha, hk, hst, hp⟩ := hs
  obtain ⟨b, hb, hab⟩ := h.agent a ha
  obtain ⟨c, hc, hac⟩ := h.stroke st hst
  exact ⟨b, c, hb, hab.control.place.1.trans hk, hc, hac.panel.trans hp⟩

/-- Two operations in a row, the second where the agent still stands. -/
theorem Framed.next {s u t : State} (h : Framed aid k pn w s u) (hs : Stands aid k pn s)
    (g : Stands aid k pn u → Framed aid k pn w u t) : Framed aid k pn w s t := h.trans (g (h.stands hs))

/-! ### The operations on the state -/

theorem framed_setAgent {s : State} {b : Agent} (h : ∀ a, getAgent s aid = some a → AgentFrame w a b) :
    Framed aid k pn w s (setAgent s aid b) where
  device := ⟨_, _, _, _, _, _, _, _, Eq.refl _⟩
  agents _ hn := getAgent_setAgent_of_ne s b hn
  strokes _ _ := Eq.refl _
  panels _ _ := Eq.refl _
  cores _ := ⟨Eq.refl _, Eq.refl _⟩
  agent a ha := ⟨b, getAgent_setAgent s aid b, h a ha⟩
  stroke a ha := ⟨a, ha, .rfl⟩

theorem framed_setStroke {s : State} {b : Stroke} (h : ∀ a, getStroke s k = some a → StrokeFrame w a b) :
    Framed aid k pn w s (setStroke s k b) where
  device := ⟨_, _, _, _, _, _, _, _, Eq.refl _⟩
  agents _ _ := Eq.refl _
  strokes _ hn := getStroke_setStroke_of_ne s b hn
  panels _ _ := Eq.refl _
  cores _ := ⟨Eq.refl _, Eq.refl _⟩
  agent a ha := ⟨a, ha, .rfl⟩
  stroke a ha := ⟨b, getStroke_setStroke s k b, h a ha⟩

theorem framed_setPanel (s : State) (p : Panel) : Framed aid k pn w s (setPanel s pn p) where
  device := ⟨_, _, _, _, _, _, _, _, Eq.refl _⟩
  agents _ _ := Eq.refl _
  strokes _ _ := Eq.refl _
  panels _ hn := getPanel_setPanel_of_ne s p hn
  cores _ := ⟨Eq.refl _, Eq.refl _⟩
  agent a ha := ⟨a, ha, .rfl⟩
  stroke a ha := ⟨a, ha, .rfl⟩

/-- Another queue, another supply of free values, other results. -/
theorem framed_queues (s : State) (ea : Tab EQueue) (fn : Nat) (rs : Tab Result) (fr : Nat) :
    Framed aid k pn w s { s with easel := ea, freeN := fn, results := rs, fresh := fr } where
  device := ⟨_, _, _, _, _, _, _, _, Eq.refl _⟩
  agents _ _ := Eq.refl _
  strokes _ _ := Eq.refl _
  panels _ _ := Eq.refl _
  cores _ := ⟨Eq.refl _, Eq.refl _⟩
  agent a ha := ⟨a, ha, .rfl⟩
  stroke a ha := ⟨a, ha, .rfl⟩

theorem getCore_setCore_of_ne (s : State) (g : Core) {c n : Nat} (h : n ≠ c) : getCore (setCore s c g) n = getCore s n := by
  simp [getCore, setCore, tabGet_tabPut_of_ne _ _ h]

theorem framed_acquireInvalidate (s : State) (core : Nat) : Framed aid k pn w s (acquireInvalidate s core) where
  device := ⟨_, _, _, _, _, _, _, _, Eq.refl _⟩
  agents _ _ := Eq.refl _
  strokes _ _ := Eq.refl _
  panels _ _ := Eq.refl _
  cores n := by
    unfold acquireInvalidate
    by_cases h : n = core
    · subst h
      rw [getCore_setCore]
      exact ⟨Eq.refl _, Eq.refl _⟩
    · rw [getCore_setCore_of_ne _ _ h]
      exact ⟨Eq.refl _, Eq.refl _⟩
  agent a ha := ⟨a, ha, .rfl⟩
  stroke a ha := ⟨a, ha, .rfl⟩

theorem framed_addResult (s : State) (r : Result) : Framed aid k pn w s (addResult s r) := framed_queues s _ _ _ _

theorem framed_foldl {α : Type} {f : State → α → State} {l : List α} {s : State} (hs : Stands aid k pn s)
    (hf : ∀ u x, x ∈ l → Stands aid k pn u → Framed aid k pn w u (f u x)) : Framed aid k pn w s (l.foldl f s) := by
  induction l generalizing s with
  | nil => exact .rfl
  | cons x l ih =>
    exact (hf s x List.mem_cons_self hs).next hs fun hu => ih hu fun u y hy => hf u y (List.mem_cons_of_mem _ hy)

/-! ### Pops, frees and protection -/

theorem framed_drainSpill (s : State) (q fuel : Nat) : Framed aid k pn w s (drainSpill s q fuel) := by
  induction fuel generalizing s with
  | zero => exact .rfl
  | succ n ih =>
    unfold drainSpill
    split
    · exact .rfl
    · split
      · exact .rfl
      · split
        · exact .rfl
        · exact (framed_queues s _ _ _ _).trans (ih _)

theorem framed_takeEntries (s : State) (q n : Nat) : Framed aid k pn w s (takeEntries s q n).1 := by
  induction n generalizing s with
  | zero => exact .rfl
  | succ n ih =>
    unfold takeEntries
    split
    · exact .rfl
    · split
      · exact .rfl
      · exact ((framed_queues s _ _ _ _).trans (framed_drainSpill _ _ _)).trans (ih _)

theorem framed_popChan (s : State) (c : Nat) : Framed aid k pn w s (popChan s pn c) := by
  unfold popChan
  split
  · exact .rfl
  · split
    · exact .rfl
    · exact framed_setPanel s _

theorem framed_chanAcquire (s : State) (c : Nat) : Framed aid k pn w s (chanAcquire s pn c) := by
  unfold chanAcquire
  split
  · exact .rfl
  · split
    · exact .rfl
    · split
      · exact framed_acquireInvalidate s _
      · exact .rfl

theorem framed_popAll {s : State} (srcs : List Src) (hs : Stands aid k pn s) : Framed aid k pn w s (popAll s pn srcs) := by
  unfold popAll
  refine framed_foldl hs fun u r _ _ => ?_
  split
  · exact (framed_chanAcquire u _).trans (framed_popChan _ _)
  · exact framed_chanAcquire u _
  · exact .rfl

/-- An agent with other live names, HAZARD set, program counter, RSTEP or wait. -/
theorem agentFrame_of_marks (a : Agent) (live : BitVec 192) (hv : BitVec 192) (hs : BitVec 64) (hk : BitVec 17) :
    AgentFrame w a { a with live := live, hazV := hv, hazS := hs, hazK := hk } :=
  ⟨⟨by simp, by simp, by simp⟩, fun _ _ => Eq.refl _, fun _ _ => Eq.refl _, fun _ => Eq.refl _⟩

theorem framed_freeNames (s : State) (ns : List Nat) : Framed aid k pn w s (freeNames s aid ns) := by
  unfold freeNames
  split
  · exact .rfl
  · next a ha =>
    refine framed_setAgent fun a' ha' => ?_
    cases ha.symm.trans ha'
    exact agentFrame_of_marks a _ _ _ _

end

end Sys2Proof.Machine
end

