-- ==== Sys2Proof/Proofs/RegisterFrameWrites.lean ====
section
/-! SUPPORT. The frame of a register instruction's writes, of its commit and of its checks, and the frame itself. -/

namespace Sys2Proof.Machine
open Sys2Proof Sys2Proof.Claims

section
variable {aid k pn : Nat} {w : Writes}

theorem Stands.agent_stroke {s : State} {a : Agent} (hs : Stands aid k pn s) (ha : getAgent s aid = some a) :
    a.stroke = k := by
  obtain ⟨a', st, ha', hk, hst, hp⟩ := hs
  cases ha.symm.trans ha'
  exact hk

theorem Stands.stroke_panel {s : State} {st : Stroke} (hs : Stands aid k pn s) (hst : getStroke s k = some st) :
    st.panel = pn := by
  obtain ⟨a', st', ha', hk, hst', hp⟩ := hs
  cases hst.symm.trans hst'
  exact hp

/-! ### Writes to the agent -/

/-- Another agent in its place: the frame reaches from what it was. -/
theorem framed_setAgent_of_get {s : State} {a b : Agent} (ha : getAgent s aid = some a) (h : AgentFrame w a b) :
    Framed aid k pn w s (setAgent s aid b) :=
  framed_setAgent fun _ ha' => by cases ha.symm.trans ha'; exact h

theorem framed_setStroke_of_get {s : State} {a b : Stroke} (ha : getStroke s k = some a) (h : StrokeFrame w a b) :
    Framed aid k pn w s (setStroke s k b) :=
  framed_setStroke fun _ ha' => by cases ha.symm.trans ha'; exact h

theorem agentFrame_foldl {α : Type} {f : Agent → α → Agent} {l : List α} {a : Agent}
    (hf : ∀ b x, x ∈ l → AgentFrame w b (f b x)) : AgentFrame w a (l.foldl f a) := by
  induction l generalizing a with
  | nil => exact .rfl
  | cons x l ih => exact (hf a x List.mem_cons_self).trans (ih fun b y hy => hf b y (List.mem_cons_of_mem _ hy))

theorem agentFrame_protectRef (lanes : Mask) (a : Agent) (r : Ref) : AgentFrame w a (protectRef lanes a r) := by
  cases r with
  | v n regs f => exact agentFrame_of_marks a _ _ _ _
  | s n f =>
    rw [protectRef]
    split
    · exact .rfl
    · exact agentFrame_of_marks a _ _ _ _
  | k n f => exact agentFrame_of_marks a _ _ _ _

theorem sReg_setSReg_of_ne (a : Agent) (x : DWord) {n m : Nat} (h : n ≠ m) : sReg (setSReg a m x) n = sReg a n := by
  unfold setSReg
  split
  · rfl
  · simp [sReg, tabGet_tabPut_of_ne _ _ h]

theorem agentFrame_setSReg (a : Agent) {x : Nat × DWord} (hx : x ∈ w.s) : AgentFrame w a (setSReg a x.1 x.2) where
  control := by
    unfold setSReg
    split
    · exact keepsControl_refl a
    · exact ⟨by simp, by simp, by simp⟩
  scalars n hn := sReg_setSReg_of_ne a x.2 fun h => hn (h ▸ List.mem_map_of_mem hx)
  masks n _ := by
    unfold setSReg
    split <;> rfl
  em _ := by
    unfold setSReg
    split <;> rfl

theorem kReg_setKReg_of_ne (a : Agent) (m : Mask) {n j : Nat} (h : n ≠ j) : kReg (setKReg a j m) n = kReg a n := by
  simp [kReg, setKReg, tabGet_tabPut_of_ne _ _ h]

theorem agentFrame_writeK (a : Agent) {x : Nat × Mask × Mask} (hx : x ∈ w.k) :
    AgentFrame w a (writeK a x.1 x.2.1 x.2.2) := by
  have hmem : x.1 ∈ w.k.map (·.1) := List.mem_map_of_mem hx
  unfold writeK
  split
  · next h16 =>
    exact ⟨⟨by simp [setEm], by simp [setEm], by simp [setEm]⟩, fun _ _ => rfl, fun _ _ => rfl, fun h => absurd (h16 ▸ hmem) h⟩
  · exact ⟨⟨by simp [setKReg], by simp [setKReg], by simp [setKReg]⟩, fun _ _ => rfl,
      fun n hn => kReg_setKReg_of_ne _ _ fun h => hn (h ▸ hmem), fun _ => rfl⟩

theorem agentFrame_mendK (whole : Mask) (a : Agent) (n : Nat) (lanes : Mask) : AgentFrame w a (mendK whole a n lanes) := by
  unfold mendK
  split
  · exact ⟨⟨by simp, by simp, by simp⟩, fun _ _ => rfl, fun _ _ => rfl, fun _ => rfl⟩
  · exact .rfl

theorem framed_protect (s : State) (lanes : Mask) (dsts : List Ref) : Framed aid k pn w s (protect s aid lanes dsts) := by
  unfold protect
  split
  · exact .rfl
  · next a ha => exact framed_setAgent_of_get ha (agentFrame_foldl fun b r _ => agentFrame_protectRef lanes b r)

theorem framed_bumpStep (s : State) : Framed aid k pn w s (bumpStep s aid) := by
  unfold bumpStep
  split
  · exact .rfl
  · next a ha =>
    exact framed_setAgent_of_get ha ⟨⟨by simp, by simp, by simp⟩, fun _ _ => rfl, fun _ _ => rfl, fun _ => rfl⟩

theorem framed_stepPc (s : State) (size : Nat) : Framed aid k pn w s (stepPc s aid size) := by
  unfold stepPc
  split
  · exact .rfl
  · next a ha =>
    exact framed_setAgent_of_get ha ⟨⟨by simp, by simp, by simp⟩, fun _ _ => rfl, fun _ _ => rfl, fun _ => rfl⟩

theorem framed_clearWait (s : State) : Framed aid k pn w s (clearWait s aid) := by
  unfold clearWait
  split
  · next a ha =>
    exact framed_setAgent_of_get ha ⟨⟨by simp, by simp, by simp⟩, fun _ _ => rfl, fun _ _ => rfl, fun _ => rfl⟩
  · exact .rfl

/-! ### Writes to the stroke -/

theorem vLane_of_tabPut (a : Stroke) (m : Nat) (vals : List Word) (bad : List (Nat × Nat)) {n : Nat} (h : n ≠ m) (lane : Nat) :
    vLane { a with vregs := tabPut a.vregs m vals, badV := bad } n lane = vLane a n lane := by
  simp [vLane, tabGet_tabPut_of_ne _ _ h]

theorem framed_writeV {s : State} {x : VWrite} (hs : Stands aid k pn s) (hx : x ∈ w.v) :
    Framed aid k pn w s (writeV s aid x) := by
  unfold writeV
  split
  · exact .rfl
  · next a ha =>
    obtain rfl := hs.agent_stroke ha
    split
    · exact .rfl
    · next st hst =>
      refine (framed_setStroke_of_get hst ?_).trans (framed_setAgent_of_get (a := a) ha (agentFrame_of_marks a _ _ _ _))
      exact ⟨rfl, fun n l hn => vLane_of_tabPut _ _ _ _ (by rintro rfl; exact hn (List.mem_map_of_mem hx)) l, fun _ => rfl,
        by simp, fun _ => rfl⟩

theorem framed_setFlags (s : State) (h : w.fl ≠ 0) : Framed aid k pn w s (setFlags s k w.fl) := by
  unfold setFlags
  split
  · exact .rfl
  · next st hst =>
    exact framed_setStroke_of_get hst ⟨rfl, fun _ _ _ => rfl, fun h0 => absurd h0 h, by simp, fun _ => rfl⟩

theorem framed_readPtp (s : State) : Framed aid k pn w s (readPtp s k w.ptp) := by
  unfold readPtp
  split
  · next v st hv hst =>
    exact framed_setStroke_of_get hst ⟨rfl, fun _ _ _ => rfl, fun _ => rfl, by simp, fun h0 => by simp [hv] at h0⟩
  · exact .rfl

theorem framed_applyWrites {s : State} (hs : Stands aid k pn s) : Framed aid k pn w s (applyWrites s aid w) := by
  unfold applyWrites
  extract_lets s1
  have h1 : Framed aid k pn w s s1 := framed_foldl hs fun _ _ hx hu => framed_writeV hu hx
  refine h1.next hs fun hs1 => ?_
  split
  · exact .rfl
  · next a ha =>
    rw [hs1.agent_stroke ha]
    extract_lets a1 whole a2 s2 s3
    have h2 : Framed aid k pn w s1 s2 := framed_setAgent_of_get ha
      ((agentFrame_foldl fun b x hx => agentFrame_setSReg b hx).trans
        (agentFrame_foldl fun b x hx => (agentFrame_writeK b hx).trans (agentFrame_mendK _ _ _ _)))
    have h3 : Framed aid k pn w s2 s3 := by
      refine Framed.trans ?_ (framed_readPtp _)
      split
      · exact .rfl
      · next hfl => exact framed_setFlags s2 hfl
    refine (h2.trans h3).next hs1 fun hs3 => ?_
    split
    · exact .rfl
    · split
      · exact .rfl
      · next st hst =>
        rw [hs3.stroke_panel hst]
        split
        · exact .rfl
        · split
          · exact .rfl
          · exact framed_setPanel s3 _

/-! ### The commit -/

theorem framed_writeBack {s : State} {x : Ctxt} (is : Issue) (lanes : Mask) (hs : Stands aid k pn s) (ha : x.aid = aid)
    (hp : x.st.panel = pn) : Framed aid k pn w s (writeBack s x is lanes w) := by
  unfold writeBack
  rw [ha, hp]
  extract_lets s2 late empty t s3 s4
  have h2 : Framed aid k pn w s s2 := (framed_popAll is.srcs hs).trans (framed_freeNames _ _)
  have h3 : Framed aid k pn w s2 s3 := by
    have hs2 := h2.stands hs
    unfold s3 t
    split
    · split
      · exact framed_protect s2 lanes is.dsts
      · exact (framed_protect s2 lanes is.dsts).trans (framed_addResult _ _)
    · exact framed_applyWrites hs2
  have h4 : Framed aid k pn w s3 s4 := by
    unfold s4
    split
    · exact framed_bumpStep s3
    · exact .rfl
  exact ((h2.trans h3).trans h4).trans (framed_stepPc s4 is.size)

end

/-! ### The checks -/

/-- Behind an instruction's checks: only its agent's HAZARD set, its panel's channels and their queues have changed. -/
structure Behind (w : Writes) (s : State) (x0 : Ctxt) (u : State) (x : Ctxt) : Prop where
  frame : Framed x0.aid x0.a.stroke x0.st.panel w s u
  aid : x.aid = x0.aid
  stroke : x.a.stroke = x0.a.stroke
  st : x.st = x0.st
  strokes : u.strokes = s.strokes

theorem switchMark_behind {w : Writes} {s : State} {x0 : Ctxt} (hx : getAgent s x0.aid = some x0.a) (sw : Bool) :
    Yields (fun r => Behind w s x0 r.1 r.2) (switchMark s x0 sw) := by
  unfold switchMark
  split
  · refine .seq fun _ => (yields_pure _).2 ?_
    exact ⟨framed_setAgent_of_get hx (agentFrame_of_marks x0.a _ _ _ _), rfl, rfl, rfl, rfl⟩
  · exact (yields_ok _).2 ⟨.rfl, rfl, rfl, rfl, rfl⟩

@[simp] theorem drainSpill_strokes (s : State) (q fuel : Nat) : (drainSpill s q fuel).strokes = s.strokes := by
  induction fuel generalizing s with
  | zero => rfl
  | succ n ih =>
    unfold drainSpill
    split
    · rfl
    · split
      · rfl
      · split
        · rfl
        · exact ih _

@[simp] theorem takeEntries_strokes (s : State) (q n : Nat) : (takeEntries s q n).1.strokes = s.strokes := by
  induction n generalizing s with
  | zero => rfl
  | succ n ih =>
    unfold takeEntries
    (repeat' split)
    any_goals rfl
    exact (ih _).trans (drainSpill_strokes _ _ _)

theorem pullGroup_behind {w : Writes} {s u : State} {x0 x : Ctxt} (h : Behind w s x0 u x) (c need : Nat) :
    Behind w s x0 (pullGroup u x c need).1 (pullGroup u x c need).2 := by
  unfold pullGroup
  split
  · exact h
  · next ch _ =>
    split
    · dsimp only
      split
      · exact h
      · refine ⟨h.frame.trans ((framed_takeEntries u ch.queue x.w).trans ?_), h.aid, h.stroke, h.st, (takeEntries_strokes _ _ _).trans h.strokes⟩
        rw [h.st]
        exact framed_setPanel _ _
    · exact h

theorem pullAll_behind {w : Writes} {s u : State} {x0 x : Ctxt} (h : Behind w s x0 u x) (srcs : List Src) :
    Behind w s x0 (pullAll u x srcs).1 (pullAll u x srcs).2 := by
  unfold pullAll
  refine List.foldlRecOn (motive := fun r : State × Ctxt => Behind w s x0 r.1 r.2) _ _ h fun r hr i _ => ?_
  split
  · split
    · exact pullGroup_behind hr _ _
    · exact pullGroup_behind hr _ _
    · exact hr
  · exact hr

theorem gather_behind {w : Writes} {s : State} {x0 : Ctxt} (hx : getAgent s x0.aid = some x0.a) (is : Issue) (km : Nat)
    (pl : Place) (reads : List Ref) (uni : List Nat) (always : Bool) :
    Yields (fun r => Behind w s x0 r.1 r.2.1) (gather s x0 is km pl reads uni always) := by
  unfold gather
  refine .seq fun _ => .bind (switchMark_behind (w := w) hx is.sw) fun r hr => .seq fun _ => ?_
  extract_lets -underBinder rest
  have hrest : ∀ u, Yields (fun r => Behind w s x0 r.1 r.2.1) (rest u) := fun _ => by
    refine .seq fun _ => .seq fun _ => .seq fun _ => .seq fun _ => .seq fun _ => .seq fun _ => ?_
    rw [yields_pure]
    exact pullAll_behind hr is.srcs
  split
  · exact .guard hrest
  · exact hrest ()

theorem reserveFor_behind {w : Writes} {s u : State} {x0 x : Ctxt} (hst : getStroke s x0.a.stroke = some x0.st)
    (h : Behind w s x0 u x) (freed adds : List Nat) :
    Yields (fun t => Framed x0.aid x0.a.stroke x0.st.panel w s t) (reserveFor u x freed adds) := by
  unfold reserveFor
  dsimp only
  split
  · rw [yields_ok]
    exact h.frame
  · split
    · rw [yields_ok, h.stroke, h.st]
      have hu : getStroke u x0.a.stroke = some x0.st := by rwa [getStroke, h.strokes]
      exact h.frame.trans (framed_setStroke_of_get hu ⟨rfl, fun _ _ _ => rfl, fun _ => rfl, by simp, fun _ => rfl⟩)
    · exact yields_error _

/-- The frame of the claims, where agent and stroke are found. -/
theorem Framed.regFrame {s t : State} {x : Ctxt} {w : Writes} (h : Framed x.aid x.a.stroke x.st.panel w s t)
    (ha : getAgent s x.aid = some x.a) (hst : getStroke s x.a.stroke = some x.st) : RegFrame s t x w := by
  obtain ⟨b, hb, hab⟩ := h.agent _ ha
  obtain ⟨c, hc, hac⟩ := h.stroke _ hst
  obtain ⟨h1, h2, h3, h4, h5, h6, h7, h8⟩ := hac.rest
  have hd := h.device
  refine ⟨?_, ?_, ⟨h.agents, h.strokes, h.panels, h.cores⟩, ⟨b, hb, hab.control, hab.scalars, hab.masks, hab.em⟩,
    ⟨c, hc, hac.lanes, hac.flags, h1, h2, h3, h4, h5, h6, h7, h8, hac.ptp⟩⟩ <;>
  · obtain ⟨_, _, _, _, _, _, _, _, rfl⟩ := hd
    simp

/-- Settles O51: the checks, the granules and the commit each keep the frame. -/
theorem registerFrame : Obligations.RegisterFrame := by
  intro i s o hi hw s2 t x0 x vs hr ht
  rw [exec_of_regOp hi hw, RegOp.run_of_ready hr] at ht
  cases ht
  obtain ⟨hx, ⟨s1, hg, hres⟩, -⟩ := hr
  have ha := theCtxt_agent hx
  have hst := theCtxt_stroke hx
  have hframe : Framed x0.aid x0.a.stroke x0.st.panel (o.writes x (activeMask x0.a o.km) vs) s
      (regDone s2 o x0 x vs) := by
    have hb := (gather_behind (w := o.writes x (activeMask x0.a o.km) vs) ha o.is o.km o.place o.reads o.uni o.always).of_ok _ hg
    have hs2 := (reserveFor_behind hst hb _ _).of_ok _ hres
    exact (hs2.next ⟨x0.a, x0.st, ha, rfl, hst, rfl⟩ fun hsd =>
      framed_writeBack o.is (activeMask x0.a o.km) hsd hb.aid (congrArg _ hb.st)).trans (framed_clearWait _)
  exact hframe.regFrame ha hst

end Sys2Proof.Machine
end

