-- ==== Sys2Proof/Proofs/RegisterWrites.lean ====
section
/-! SUPPORT. Where register writes land (spec/01_machine.md R14, R17; spec/14_divergence.md R258) and which lanes a
selector names (R15, R259, R262). -/

namespace Sys2Proof.Machine
open Sys2Proof Sys2Proof.Claims

theorem getLsbD_bit192 (m n : Nat) (h : n < 192) : (bit192 m).getLsbD n = (n == m) := by
  rw [bit192, BitVec.getLsbD_ofNat, Nat.testBit_two_pow, decide_eq_true h, Bool.true_and, beq_eq_decide]
  exact decide_eq_decide.2 eq_comm

theorem getElem?_mergeLanes (w : Nat) (old : List Word) (m : Mask) (vals : List Word) {l : Nat} (h : l < w) :
    (mergeLanes w old m vals)[l]? = some (if m.getLsbD l then (vals[l]?).getD 0 else (old[l]?).getD 0) := by
  simp [mergeLanes, h]

/-- Agent and stroke behind a write of a vector name. -/
theorem writeV_eq {s : State} {aid : Nat} {a : Agent} {st : Stroke} (w : VWrite) (ha : getAgent s aid = some a)
    (hst : getStroke s a.stroke = some st) : ∃ bad, writeV s aid w = setAgent (setStroke s a.stroke { st with
      vregs := tabPut st.vregs w.name (mergeLanes st.width
        (if (strokeLive s a.stroke).getLsbD w.name then (tabGet st.vregs w.name).getD [] else []) w.lanes w.vals)
      badV := bad }) aid { a with live := a.live ||| bit192 w.name } := by
  unfold writeV
  rw [ha]
  dsimp only
  rw [hst]
  exact ⟨_, rfl⟩

theorem vLane_tabPut_mergeLanes (st : Stroke) (n : Nat) (live : Bool) (lanes : Mask) (vals : List Word) (bad : List (Nat × Nat))
    {l : Nat} (h : l < st.width) :
    vLane { st with vregs := tabPut st.vregs n (mergeLanes st.width (if live then (tabGet st.vregs n).getD [] else []) lanes vals)
                    badV := bad } n l =
      if lanes.getLsbD l then (vals[l]?).getD 0 else if live then vLane st n l else 0 := by
  cases live <;> simp [vLane, getElem?_mergeLanes _ _ _ _ h]

theorem sReg_setSReg (a : Agent) (n m : Nat) (v : DWord) :
    sReg (setSReg a n v) m = if m = 63 then 0 else if m = n then v else sReg a m := by
  by_cases hm : m = 63
  · simp [sReg, hm]
  · by_cases hn : m = n
    · subst hn
      simp [sReg, setSReg, hm]
    · rw [sReg_setSReg_of_ne a v hn, if_neg hm, if_neg hn]

theorem laneSet_le_lset {a : Agent} {l : Nat} (h : (laneSet a).getLsbD l = true) : a.lset.getLsbD l = true := by
  unfold laneSet at h
  split at h
  · rw [BitVec.getLsbD_and, Bool.and_eq_true] at h
    exact h.1
  · exact h

theorem writeK_em_le_lset {a : Agent} {lanes m : Mask} {l : Nat} (h : (writeK a 16 lanes m).em.getLsbD l = true) :
    a.lset.getLsbD l = true := by
  simp only [writeK, if_true, setEm, BitVec.getLsbD_and, Bool.and_eq_true] at h
  exact laneSet_le_lset h.2

/-- KM 12-15 selects the lanes on path KM − 12. -/
theorem getLsbD_path (a : Agent) {km l : Nat} (hl : l < 128) (h12 : 12 ≤ km) (h16 : km < 16) :
    ((if km % 2 = 1 then a.pathLo else ~~~a.pathLo).getLsbD l = true ∧
      (if 14 ≤ km then a.pathHi else ~~~a.pathHi).getLsbD l = true) ↔ pathOf a l = km - 12 := by
  have hnot : ∀ m : Mask, (~~~m).getLsbD l = !m.getLsbD l := fun m => by rw [BitVec.getLsbD_not, decide_eq_true hl, Bool.true_and]
  unfold pathOf
  rw [apply_ite (BitVec.getLsbD · l), apply_ite (BitVec.getLsbD · l), hnot, hnot]
  generalize a.pathLo.getLsbD l = lo
  generalize a.pathHi.getLsbD l = hi
  obtain rfl | rfl | rfl | rfl : km = 12 ∨ km = 13 ∨ km = 14 ∨ km = 15 := by omega
  all_goals decide +revert

theorem getLsbD_activeMask (a : Agent) {km l : Nat} (hl : l < 128) (hkm : km < 16) :
    (activeMask a km).getLsbD l = true ↔ a.em.getLsbD l = true ∧
      (km = 0 ∨ (a.meld = true ∧ 12 ≤ km ∧ pathOf a l = km - 12) ∨
        (km ≠ 0 ∧ ¬ (a.meld = true ∧ 12 ≤ km) ∧ (kReg a km).getLsbD l = true)) := by
  unfold activeMask
  by_cases h0 : km = 0
  · simp [h0]
  · by_cases hm : a.meld = true ∧ 12 ≤ km
    · have hsel := getLsbD_path a hl hm.2 hkm
      simp only [h0, hm, decide_true, Bool.and_self, if_true, if_false, BitVec.getLsbD_and, Bool.and_eq_true, and_assoc, hsel,
        true_and, false_or, not_true_eq_false, false_and, and_false, or_false]
    · have hsel : (a.meld && decide (12 ≤ km)) = false := by simpa using hm
      simp only [h0, hm, hsel, if_false, Bool.false_eq_true, BitVec.getLsbD_and, Bool.and_eq_true, false_or, ne_eq,
        not_false_eq_true, true_and, ← and_assoc, false_and]

/-- Settles O54. -/
theorem registerWritesLand : Obligations.RegisterWritesLand := by
  refine ⟨fun s aid a st w ha hst => ?_, sReg_setSReg, fun a lanes m l => writeK_em_le_lset,
    fun a km l => getLsbD_activeMask a⟩
  obtain ⟨bad, hw⟩ := writeV_eq w ha hst
  rw [hw]
  refine ⟨_, _, getAgent_setAgent _ _ _, getStroke_setStroke _ _ _, fun l hl => vLane_tabPut_mergeLanes st _ _ _ _ _ hl,
    fun n l hn => vLane_of_tabPut st _ _ _ hn l, fun n hn => ?_⟩
  simp [isLive, getLsbD_bit192 _ _ hn]

end Sys2Proof.Machine
end

