-- ==== Sys2Proof/Proofs/NopAndStep.lean ====
section
/-! SUPPORT. NOP and LAND: their words, what they do, and where a LAND is a good target (spec/02_encoding.md R40,
spec/14_divergence.md R272); and the step that issues an agent (spec/13_commissions.md R255). -/

namespace Sys2Proof.Machine
open Sys2Proof Sys2Proof.Claims

/-! ### Words of a header and nothing else -/

/-- The word of opcode `op` with S and the 55 bits below its header. -/
def headerWord (sw : Bool) (op low : Nat) : Nat := (if sw then 2 ^ 63 else 0) + op * 2 ^ 55 + low

section
variable (sw : Bool) {op low : Nat}

theorem rawOf_headerWord_op (hop : op < 0x100) (hlow : low < 2 ^ 55) : (rawOf (headerWord sw op low) 0).op = op := by
  simp only [rawOf, fld, headerWord]
  split <;> omega

theorem rawOf_headerWord_sw (hop : op < 0x100) (hlow : low < 2 ^ 55) : (rawOf (headerWord sw op low) 0).sw = sw := by
  simp only [rawOf, headerWord, Nat.testBit_eq_decide_div_mod_eq]
  cases sw
  · simp only [Bool.false_eq_true, if_false, decide_eq_false_iff_not]
    omega
  · simp only [if_true, decide_eq_true_eq]
    omega

theorem bare_headerWord (hlow : low < 2 ^ 55) : bare (rawOf (headerWord sw op low) 0) = decide (low = 0) := by
  have hmod : headerWord sw op low % 2 ^ 55 = low := by
    unfold headerWord
    split <;> omega
  simp only [bare, rawOf, hmod]
  rfl

end

theorem decode_nopWord (sw : Bool) {low : Nat} (hlow : low < 2 ^ 55) :
    decode (headerWord sw 0x00 low) 0 = if low = 0 then .ok (.nop sw) else .error .resfield := by
  simp only [decode, rawOf_headerWord_op sw (op := 0x00) (by omega) hlow, decControl,
    rawOf_headerWord_sw sw (op := 0x00) (by omega) hlow, bare_headerWord sw (op := 0x00) hlow]
  by_cases h : low = 0
  · rw [if_pos h, decide_eq_true h]
    rfl
  · rw [if_neg h, decide_eq_false h]
    rfl

theorem decode_landWord (sw : Bool) {low : Nat} (hlow : low < 2 ^ 55) :
    decode (headerWord sw 0x08 low) 0 = if low = 0 then .ok (.land sw) else .error .resfield := by
  simp only [decode, rawOf_headerWord_op sw (op := 0x08) (by omega) hlow, decControl,
    rawOf_headerWord_sw sw (op := 0x08) (by omega) hlow, bare_headerWord sw (op := 0x08) hlow]
  by_cases h : low = 0
  · rw [if_pos h, decide_eq_true h]
    rfl
  · rw [if_neg h, decide_eq_false h]
    rfl

/-! ### What they do -/

theorem exec_of_nop_or_land {i : Instr} {sw : Bool} (h : i = .nop sw ∨ i = .land sw) (s : State) :
    exec i s = .next (ctlInstr s sw { primer := true } [] fun s x _ => .ok (stepPc s x.aid 8)) := by
  obtain rfl | rfl := h <;> rfl

/-- A control instruction that may run everywhere and names no register checks nothing but its switch marker. -/
theorem ctlRuns_of_switchMark {s u : State} {x0 x : Ctxt} {sw : Bool} (hx : theCtxt s = some x0)
    (hs : switchMark s x0 sw = .ok (u, x)) : CtlRuns s sw { primer := true } [] x0 x u := by
  have hplace : checkPlace x0 x0.a.em { primer := true } = .ok () := by simp [checkPlace]
  have hmeld : checkMeld x x0.a.em { primer := true } = .ok () := by simp [checkMeld]
  refine ⟨hx, ?_⟩
  rw [ctlGather, hplace, ok_bind, hs, ok_bind]
  dsimp only
  rw [hmeld]
  rfl

theorem nop_or_land_advances {i : Instr} {s u : State} {x0 x : Ctxt} {sw : Bool} (h : i = .nop sw ∨ i = .land sw)
    (hx : theCtxt s = some x0) (hs : switchMark s x0 sw = .ok (u, x)) :
    exec i s = .next (clearWait (stepPc u x.aid 8) x.aid) := by
  rw [exec_of_nop_or_land h, ctlInstr_settles (ctlRuns_of_switchMark hx hs)]
  rfl

theorem clearWait_stepPc {s : State} {aid : Nat} {a : Agent} (ha : getAgent s aid = some a) (n : Nat) :
    clearWait (stepPc s aid n) aid = setAgent s aid { a with pc := a.pc + BitVec.ofNat 57 n, waitFrom := none } := by
  simp [stepPc, clearWait, ha, setAgent_setAgent]

theorem nop_or_land_parks {i : Instr} {s : State} {x : Ctxt} (h : i = .nop true ∨ i = .land true)
    (hx : theCtxt s = some x) (hr : hasResults s x.aid = true) : exec i s = .next (parkAgent s x.aid .results) := by
  rw [exec_of_nop_or_land h, ctlInstr, runAgent_of_ctxt _ hx]
  simp only [ctlGather, checkPlace, switchMark, waitS, hr, Bool.not_true, Bool.and_false, Bool.or_self, Bool.false_eq_true,
    if_false, if_true]
  rfl

theorem parkAgent_eq {s : State} {aid : Nat} {a : Agent} (ha : getAgent s aid = some a) (k : WaitKind) :
    ∃ w, parkAgent s aid k = setAgent s aid { a with run := .parked w, waitFrom := some w } := by
  unfold parkAgent
  rw [ha]
  exact ⟨_, rfl⟩

/-! ### Targets of a BRX (R272) -/

/-- A target whose word can be fetched is good where the word, its S bit aside, is LAND's. -/
theorem brxFail_eq_none_iff {s : State} {x : Ctxt} {t : Nat} {w : DWord} (h8 : t % 8 = 0) (ht : t < 2 ^ 57)
    (hw : fetchWord s x.p.ctx t = .ok w) : brxFail s x t = none ↔ w.toNat % 2 ^ 63 = 0x0400000000000000 := by
  have hin : ¬ (t % 8 ≠ 0 ∨ 2 ^ 57 ≤ t) := by omega
  rw [brxFail, if_neg hin, hw]
  dsimp only
  split
  · next h => exact ⟨fun _ => h, fun _ => rfl⟩
  · next h => exact ⟨nofun, fun h' => absurd h' h⟩

theorem fetchWord_of_here {s : State} {ctx pc pa : Nat} {page : TlbEntry} {g : List (Nat × Nat)}
    (hp : accessByte s ctx pc .x = .ok (pa, page)) (hg : reachOf s ctx false [(pa, 8)] = .here g) (hb : segsBad s g = none) :
    fetchWord s ctx pc = .ok (BitVec.ofNat 64 (ofBytes (readSegs s.mem g))) := by
  simp only [fetchWord, hp, hg, hb]

/-- Settles O60: the words (`decode_nopWord`, `decode_landWord`), what the two do without S and with it, and a BRX's
target. -/
theorem nopAndLandDoNothing : Obligations.NopAndLandDoNothing := by
  refine ⟨fun land sw low hlow => ?_, fun i s x h hx => ?_, fun i s x h hx => ⟨fun hr => ?_, fun hr hl => ?_⟩,
    fun s x t pa page h8 ht hp g hg hb => ?_⟩
  · cases land with
    | false =>
      have h := decode_nopWord sw hlow
      rwa [headerWord, Nat.zero_mul] at h
    | true => exact decode_landWord sw hlow
  · rw [nop_or_land_advances h hx rfl, clearWait_stepPc (theCtxt_agent hx)]
    rfl
  · rw [nop_or_land_parks h hx hr]
    obtain ⟨w, hw⟩ := parkAgent_eq (theCtxt_agent hx) .results
    exact ⟨w, congrArg _ hw⟩
  · rw [nop_or_land_advances h hx (switchMark_of_quiet hx hr hl), clearWait_stepPc_setAgent]
    rfl
  · rw [brxFail_eq_none_iff h8 ht (fetchWord_of_here hp hg hb), BitVec.toNat_ofNat]
    omega

/-! ### The step that issues an agent -/

/-- Settles O45: the agent may issue, owes no trap and takes no PREEMPT, so its word is fetched, decoded and run. -/
theorem stepRunsDecoded : Obligations.StepRunsDecoded := by
  intro s aid rest a w e i hag s0 ha hmay howed hpre hfetch hdec
  have hissue : issueAgent s0 aid = afterRun aid a w (exec i (afterFetch (markIssue s0 aid a) a w)) := by
    simp only [issueAgent, ha, hmay, howed, hpre, hfetch, runWord, hdec, Bool.not_true, Bool.false_eq_true, if_false]
  rw [← hissue, step, stepDevice, hag]
  rfl

end Sys2Proof.Machine
end

