-- ==== Sys2Proof/Proofs/Control.lean ====
section
/-! SUPPORT. The branches, calls and loops, EXIT and SWR where their checks pass (spec/02_encoding.md R39-R47): each runs its
body on the state that the checks leave. -/

namespace Sys2Proof.Machine
open Sys2Proof Sys2Proof.Claims

/-! ### Branches (R39-R43) -/

/-- Where the condition holds the branch goes to its target, else to the next instruction. -/
theorem settle_branchIf {s u t : State} {x : Ctxt} {lanes : Mask} {c : Bool} {off : BitVec 36} (h : Branches u x c off t) :
    settle s x.aid (branchIf u x lanes c off) = t := by
  unfold Branches at h
  unfold branchIf
  split at h
  · next hc =>
    obtain ⟨tgt, htgt, rfl⟩ := h
    rw [if_pos hc, relTarget_of_target lanes htgt]
    rfl
  · next hc =>
    rw [if_neg hc, h]
    rfl

theorem branchMask_completes {s u t : State} {sw : Bool} {km : Nat} {x0 x : Ctxt} {off : BitVec 36} {c : Mask → Bool}
    (hr : MaskRuns s sw km x0 x u) (h : Branches u x (c (testMask x km)) off t) : branchMask s sw km off c = t := by
  obtain ⟨hx, hg⟩ := hr
  rw [branchMask, runAgent_of_ctxt _ hx, hg]
  rw [← (ctlGather_aid ..).of_ok _ hg]
  exact settle_branchIf h

theorem execCall_completes {sw : Bool} {l : Nat} {off : BitVec 36} {s t : State} (h : branchRule (.call sw l off) s t) :
    execCall sw l off s = .next t := by
  obtain ⟨x0, x, u, tgt, hr, htgt, rfl⟩ := h
  rw [execCall, ctlInstr_settles hr, relTarget_of_target x0.a.em htgt]
  rfl

theorem execRet_completes {sw la : Bool} {n : Nat} {s t : State} (h : branchRule (.ret sw la n) s t) :
    execRet sw la n s = .next t := by
  obtain ⟨x0, x, u, hr, h8, hlt, ⟨p, hp⟩, rfl⟩ := h
  have hexec : checkExec u x x0.a.em (sReg x.a n).toNat = .ok () := by simp only [checkExec, hp]
  rw [execRet, ctlInstr_settles hr]
  dsimp only
  rw [if_neg (not_not.2 h8), if_neg (Nat.not_le.2 hlt), hexec]
  rfl

theorem execLoop_completes {sw : Bool} {n : Nat} {off : BitVec 36} {s t : State} (h : branchRule (.loop sw n off) s t) :
    execLoop sw n off s = .next t := by
  obtain ⟨x0, x, u, hr, h⟩ := h
  rw [execLoop, ctlInstr_settles hr]
  have h0 : sReg x.a n = 0 ↔ (sReg x.a n).toNat = 0 := BitVec.toNat_eq
  have h1 : sReg x.a n = 1 ↔ (sReg x.a n).toNat = 1 := BitVec.toNat_eq
  dsimp only
  split at h
  · next h2 =>
    obtain ⟨tgt, htgt, rfl⟩ := h
    rw [if_neg (mt h0.1 (by omega)), if_neg (mt h1.1 (by omega)), relTarget_of_target x0.a.em htgt]
    rfl
  · next h2 =>
    subst h
    by_cases hz : sReg x.a n = 0
    · rw [if_pos hz, if_pos hz]
      rfl
    · have hn := mt h0.2 hz
      rw [if_neg hz, if_neg hz, if_pos (h1.2 (by omega))]
      rfl

/-- The window's named live names, counted before or after the test. -/
theorem filter_isLive_map (a : Agent) (names : DWord) (win : Nat) :
    (((List.range 64).filter fun b => names.getLsbD b).map fun b => 64 * win + b).filter (isLive a) =
      ((List.range 64).filter fun b => names.getLsbD b && isLive a (64 * win + b)).map (64 * win + ·) := by
  rw [List.filter_map, List.filter_filter]
  simp only [Function.comp_def, Bool.and_comm]

theorem execRgn_completes {sw : Bool} {win : Nat} {app : Bool} {names : DWord} {s t : State}
    (h : branchRule (.rgn sw win app names) s t) : execRgn sw win app names s = .next t := by
  obtain ⟨x0, x, u, hr, rfl⟩ := h
  rw [execRgn, ctlInstr_settles hr]
  dsimp only
  rw [filter_isLive_map]
  rfl

/-- Settles O12: each branch runs `branchIf` behind its checks; CALL, RET, LOOP and RGN each have a lemma. -/
theorem branchesComplete : Obligations.BranchesComplete := by
  intro i s t h
  cases i
  case nop | land =>
    obtain ⟨x0, x, u, hr, rfl⟩ := h
    exact next_congr (ctlInstr_settles hr)
  case bra | brzScalar | brnzScalar =>
    obtain ⟨x0, x, u, hr, h⟩ := h
    exact next_congr ((ctlInstr_settles hr).trans (settle_branchIf h))
  case brzMask | brnzMask =>
    obtain ⟨x0, x, u, hr, h⟩ := h
    exact next_congr (branchMask_completes hr h)
  case call => exact execCall_completes h
  case ret => exact execRet_completes h
  case loop => exact execLoop_completes h
  case rgn => exact execRgn_completes h
  all_goals exact h.elim

/-! ### EXIT (R44) -/

theorem execExit_completes {sw : Bool} {s t : State} (h : exitRule (.exit sw) s t) : execExit sw s = .next t := by
  obtain ⟨x0, x, u, hr, hw, hst, h⟩ := h
  rw [execExit, ctlInstr_settles hr, hw, ok_bind, hst, ok_bind]
  split at h
  · next hp =>
    rw [if_pos hp, h]
    rfl
  · next hp =>
    rw [if_neg hp]
    split at h
    · next hf =>
      have hend : exitAgent u x x0.a.em 9 { x.a with hazV := 0, hazS := 0, hazK := 0, handler := false } =
          .ok (endAgent (setAgent u x.aid { x.a with hazV := 0, hazS := 0, hazK := 0, handler := false }) x.aid) := by
        simp only [exitAgent, hf]
      rw [hend, h]
      rfl
    · obtain ⟨v, hv, rfl⟩ := h
      rw [hv]
      rfl

/-- Settles O13. -/
theorem exitCompletes : Obligations.ExitCompletes := by
  intro i s t h
  cases i
  case exit => exact execExit_completes h
  all_goals exact h.elim

/-! ### SWR (R46, R47) -/

theorem writable_of_allowed {r : SReg} {priv : Nat} (h : r = .status ∨ r = .fpst ∨ r = .sstat ∨ r = .ssbytes ∨ r = .rstep ∨
    r = .tpc ∨ (r = .tvbase ∧ 1 ≤ priv)) : writable priv r = true := by
  obtain rfl | rfl | rfl | rfl | rfl | rfl | ⟨rfl, h⟩ := h
  any_goals rfl
  exact decide_eq_true h

theorem execSwr_completes {h : Hdr} {r : SReg} {a : Opd} {s t : State} (hr : swrRule (.swr h r a) s t) :
    execSwr h r a s = .next t := by
  obtain ⟨x0, x, u, vs, v, hx, hp, hs, hc, hu, hrd, hl, hw, hvs, hres, rfl⟩ := hr
  rw [execSwr, runAgent_of_ctxt _ hx]
  simp only [hp, hs, hc, hu, hrd, ok_bind, writable_of_allowed hw, Bool.not_true, Bool.false_eq_true, if_false, hvs, hl,
    commitRegs, List.map_nil, hres]
  rw [(switchMark_aid ..).of_ok _ hs]
  rfl

/-- Settles O15. -/
theorem specialWritesComplete : Obligations.SpecialWritesComplete := by
  intro i s t h
  cases i
  case swr => exact execSwr_completes h
  all_goals exact h.elim

end Sys2Proof.Machine
end

