-- ==== Sys2Proof/Proofs/Prefetch.lean ====
section
/-! SUPPORT. PRF whose translation meets an uncorrectable error in a page table: the model counts and logs the error
(spec/19_health.md R348, `countWalk` in `execPrf`), the rule of the claims leaves the error log as it was. -/

namespace Sys2Proof.Machine
open Sys2Proof Sys2Proof.Claims

/-- One agent with lane 0 active, number 4, and an uncorrectable error in the first entry of its root table. -/
def stTableError : State :=
  let s := placeProgram State.reset []
  { s with cur := 4, badWords := [placedBase + 0x1000], agents := tabMap (fun _ a => { a with em := 1 }) s.agents }

def prfHdr : Hdr := { sw := false, km := 0, la := false, lb := false, lc := false }

/-- s4, which holds 0, as an address. -/
def prfAddr : MAddr := ⟨.s 4, none, none, .rlx, .pnl, 0, .norm⟩

/-- What the rule leaves, behind its checks. -/
def prefetched (x0 x : Ctxt) (u v : State) (vs : List (Nat → Nat)) : State :=
  let places := (laneList (activeMask x0.a prfHdr.km) x.w).filterMap fun l =>
    (placeAcc u x.p.ctx .r { lane := l, addr := laneAddr prfAddr vs 1 l, n := 1, align := 1 }).toOption
  let pieces := if prfAddr.pol = .norm ∨ prfAddr.pol = .keep then places.flatMap fun p => p.segs.map fun g => (g.1, p.pub) else []
  let w := pieces.foldl (fun w g =>
    if cacheable x.p.core g.1 g.2 then fillLine w x.p.core x.p.ctx g.1 (prfAddr.pol == .keep) else w) v
  clearWait (stepPc w x.aid (mSize prfAddr)) x.aid

/-- The rule's checks pass there, and what it leaves logs no error. -/
def prfLogsNothing : Bool :=
  match theCtxt stTableError with
  | none => false
  | some x0 =>
    match memGather stTableError x0 prfHdr { primer := noVecAddr prfAddr } prfAddr [] [] none none with
    | .error _ => false
    | .ok (u, x, vs) =>
      match issueRegs u x (addrSrcs prfHdr prfAddr) [] with
      | .error _ => false
      | .ok v => decide ((prefetched x0 x u v vs).juran.log.length = 0)

theorem prefetchRule_of_logsNothing (h : prfLogsNothing = true) :
    ∃ t, prefetchRule (.prf prfHdr prfAddr) stTableError t ∧ t.juran.log.length = 0 := by
  unfold prfLogsNothing at h
  split at h
  · cases h
  next x0 hx =>
    split at h
    · cases h
    next u x vs hg =>
      split at h
      · cases h
      next v hv => exact ⟨_, ⟨x0, x, u, v, vs, ⟨hx, hg⟩, hv, rfl⟩, of_decide_eq_true h⟩

/-- Refutes O18: an active lane's translation meets an error in the page table. The rule leaves the error log empty, and the
model logs the error. -/
theorem not_prefetchCompletes : ¬ Obligations.PrefetchCompletes := by
  intro h
  obtain ⟨t, hrule, hlog⟩ := prefetchRule_of_logsNothing (by decide)
  have hexec := h _ _ _ hrule
  have hone : (nextOr stTableError (exec (.prf prfHdr prfAddr) stTableError)).juran.log.length = 1 := by decide
  rw [hexec, nextOr_next, hlog] at hone
  exact absurd hone (by decide)

end Sys2Proof.Machine
end

