-- ==== Sys2Proof/Proofs/Accesses.lean ====
section
/-! SUPPORT. Loads, stores and atomics whose checks pass and whose accesses translate (spec/08_memory_instructions.md R169-R175): each
comes to `issueRead`, `issueWrites` or `issueAtomic`, and those to what the rules say; and the same with no lane active. -/

namespace Sys2Proof.Machine
open Sys2Proof Sys2Proof.Claims

/-! ### The shared shapes -/

theorem memGather_aid (s : State) (x0 : Ctxt) (h : Hdr) (pl : Place) (m : MAddr) (extra : List Src) (dsts : List Ref)
    (straddle : Option (Nat × Nat)) (push : Option Nat) :
    Yields (fun r => r.2.1.aid = x0.aid) (memGather s x0 h pl m extra dsts straddle push) := by
  unfold memGather
  refine .seq fun _ => .bind (switchMark_aid ..) fun r hr => .seq fun _ => ?_
  extract_lets -underBinder rest
  have hrest : ∀ u, Yields (fun r => r.2.1.aid = x0.aid) (rest u) := fun _ => by
    refine .seq fun _ => .seq fun _ => .seq fun _ => .seq fun _ => .seq fun _ => .seq fun _ => (yields_pure _).2 ?_
    exact (pullAll_aid _ _ _).trans hr
  split
  · exact .guard hrest
  · exact hrest ()

/-- A memory instruction comes to what its description answers. -/
theorem memInstr_completes {s u w : State} {h : Hdr} {pl pl' : Place} {m : MAddr} {extra : List Src} {dsts : List Ref}
    {straddle : Option (Nat × Nat)} {push : Option Nat} {x0 x : Ctxt} {vs : List (Nat → Nat)}
    {body : State → Ctxt → Mask → List Src → List (Nat → Nat) → Eff State}
    (hr : MemRuns s h pl m extra dsts straddle push x0 x u vs) (hpl : pl' = pl)
    (hb : body u x (activeMask x0.a h.km) (addrSrcs h m ++ extra) vs = .ok w) :
    memInstr s h pl' m extra dsts straddle push body = clearWait w x.aid := by
  obtain ⟨hx, hg⟩ := hr
  subst hpl
  rw [memInstr_of_gather body hx hg, hb, (memGather_aid ..).of_ok _ hg]
  rfl

/-- Where it has no operands but its address. -/
theorem memInstr_completes_of_address {s u w : State} {h : Hdr} {pl pl' : Place} {m : MAddr} {dsts : List Ref}
    {straddle : Option (Nat × Nat)} {push : Option Nat} {x0 x : Ctxt} {vs : List (Nat → Nat)}
    {body : State → Ctxt → Mask → List Src → List (Nat → Nat) → Eff State}
    (hr : MemRuns s h pl m [] dsts straddle push x0 x u vs) (hpl : pl' = pl)
    (hb : body u x (activeMask x0.a h.km) (addrSrcs h m) vs = .ok w) :
    memInstr s h pl' m [] dsts straddle push body = clearWait w x.aid :=
  memInstr_completes hr hpl (by rw [List.append_nil, hb])

section
variable {s v : State} {x : Ctxt} {lanes : Mask} {srcs : List Src} {dsts : List Ref} {size : Nat}

theorem issueRead_of_issueRegs {r : Result} (h : issueRegs s x srcs (r.dst.map (·.2.1)) = .ok v) :
    issueRead s x srcs lanes dsts size r = .ok (stepPc (acquirePerformed (addResult (protect v x.aid lanes dsts)
      { r with po := x.po, before := x.a.before }) x.p.core r.ord r.scp) x.aid size) := by
  rw [issueRead, h]
  rfl

/-- A description that, with a lane active, places its accesses and leaves a result. -/
theorem read_body {c : Prop} [Decidable c] {k : Eff State} {sh : Share} {cs : List Acc} {ps : List Placed}
    {r : List Placed → Result} (hc : ¬ c) (hp : placeAll s x lanes sh .r cs = .ok ps)
    (h : issueRegs s x srcs ((r ps).dst.map (·.2.1)) = .ok v) :
    (if c then k else placeAll s x lanes sh .r cs >>= fun ps => issueRead s x srcs lanes dsts size (r ps)) =
      .ok (stepPc (acquirePerformed (addResult (protect v x.aid lanes dsts)
        { r ps with po := x.po, before := x.a.before }) x.p.core (r ps).ord (r ps).scp) x.aid size) := by
  rw [if_neg hc, hp, ok_bind, issueRead_of_issueRegs h]

/-- What an instruction that returns no value leaves, in terms of its packets. -/
def written (u v : State) (x : Ctxt) (m : MAddr) (op : PacketOp) (g : List (List PacketPart)) (flagged : Bool) : State :=
  let w := if flagged then
    { v with groups := tabPut v.groups v.fresh { stroke := x.a.stroke, left := g.length }, fresh := v.fresh + 1 } else v
  acquirePerformed (sendPackets w { packetOf u x m op with group := if flagged then some v.fresh else none } g) x.p.core
    m.ord m.scp

theorem released_bind {α : Type} {m : MAddr} (hrel : Released s x lanes m) (k : Unit → Eff α) :
    (if MOrd.releases m.ord = true then waitRelease s x lanes (streamBit m.str) >>= k else k ()) = k () := by
  split
  · next h => rw [hrel h, ok_bind]
  · rfl

theorem issueWrites_of_room {m : MAddr} {op : PacketOp} {g : List (List PacketPart)} {flagged : Bool}
    (hrel : Released s x lanes m) (hroom : checkRoom s x m.str (groupCount g) = .ok ()) (h : issueRegs s x srcs [] = .ok v) :
    issueWrites s x srcs lanes m op g size flagged = .ok (stepPc (written s v x m op g flagged) x.aid size) := by
  unfold issueWrites
  extract_lets -underBinder k
  rw [released_bind hrel]
  simp only [k, hroom, ok_bind, h]
  rfl

/-- A description that, with a lane active, places its accesses and sends packets. -/
theorem write_body {c : Prop} [Decidable c] {k : Eff State} {sh : Share} {nd : Need} {cs : List Acc} {ps : List Placed}
    {m : MAddr} {op : PacketOp} {flagged : Bool} {g : List Placed → List (List PacketPart)} (hc : ¬ c)
    (hp : placeAll s x lanes sh nd cs = .ok ps) (hrel : Released s x lanes m)
    (hroom : checkRoom s x m.str (groupCount (g ps)) = .ok ()) (h : issueRegs s x srcs [] = .ok v) :
    (if c then k else placeAll s x lanes sh nd cs >>= fun ps => issueWrites s x srcs lanes m op (g ps) size flagged) =
      .ok (stepPc (written s v x m op (g ps) flagged) x.aid size) := by
  rw [if_neg hc, hp, ok_bind, issueWrites_of_room hrel hroom h]

/-- With no lane active an access pops, frees, protects and goes on (R15, R22). -/
theorem idle_body {c : Prop} [Decidable c] {k : Eff State} (hc : c) (h : issueRegs s x srcs [] = .ok v) :
    (if c then commitIdle s x srcs lanes dsts size else k) = .ok (stepPc (protect v x.aid lanes dsts) x.aid size) := by
  rw [if_pos hc, commitIdle, h]
  rfl

end

/-! ### Loads (R170, R171, R173) -/

/-- Settles O17. -/
theorem loadsComplete : Obligations.LoadsComplete := by
  intro i s t ⟨o, ho, x0, x, u, v, vs, ps, hr, hl, hp, hi, ht⟩
  subst ht
  cases i with
  | ld h wid sx d m =>
    cases d with
    | v n =>
      cases ho
      exact next_congr (memInstr_completes_of_address hr (congrArg memPlace (Bool.and_false _))
        (read_body (by simpa [pushOf] using hl) hp hi))
    | s n =>
      cases ho
      exact next_congr (memInstr_completes_of_address hr (congrArg memPlace (Bool.and_true _))
        (read_body (by simpa [pushOf] using hl) hp hi))
    | push c =>
      cases ho
      exact next_congr (memInstr_completes_of_address hr (congrArg memPlace (Bool.and_true _)) (read_body (by simp [pushOf]) hp hi))
  | ldg h w d m =>
    cases ho
    exact next_congr (memInstr_completes_of_address hr rfl (read_body (hl.resolve_right Bool.false_ne_true) hp hi))
  | ldmx h f split d m =>
    cases ho
    exact next_congr (memInstr_completes_of_address hr rfl (read_body (hl.resolve_right Bool.false_ne_true) hp hi))
  | _ => exact nomatch ho

end Sys2Proof.Machine
end

