-- ==== Sys2Proof/Proofs/StoresAndAtomics.lean ====
section
/-! SUPPORT. Stores and atomics (spec/08_memory_instructions.md R170, R172, R173, R175), and the accesses of no lane (R15). -/

namespace Sys2Proof.Machine
open Sys2Proof Sys2Proof.Claims

/-! ### ST, SCT and RED -/

theorem storeOp_completes {i : Instr} {o : StoreOp} {s u v : State} {x0 x : Ctxt} {vs : List (Nat → Nat)} {ps : List Placed}
    (ho : storeOp i = some o) (hr : MemRuns s o.h o.pl o.m o.extra [] none none x0 x u vs)
    (hl : activeMask x0.a o.h.km ≠ 0)
    (hp : placeAll u x (activeMask x0.a o.h.km) o.share o.need (o.accs x (activeMask x0.a o.h.km) vs) = .ok ps)
    (hrel : Released u x (activeMask x0.a o.h.km) o.m)
    (hroom : checkRoom u x o.m.str (groupCount (o.groups vs ps)) = .ok ())
    (hi : issueRegs u x (addrSrcs o.h o.m ++ o.extra) [] = .ok v) :
    exec i s = .next (clearWait (stepPc (written u v x o.m o.op (o.groups vs ps) o.flagged) x.aid (mSize o.m)) x.aid) := by
  cases i with
  | st | sct =>
    cases ho
    refine next_congr (memInstr_completes hr rfl ?_)
    rw [List.length_append]
    exact write_body hl hp hrel hroom hi
  | red h wid op sgn ret d m =>
    cases ret with
    | false =>
      cases ho
      refine next_congr (memInstr_completes hr rfl ?_)
      rw [List.length_append]
      exact write_body hl hp hrel hroom hi
    | true => exact nomatch ho
  | _ => exact nomatch ho

/-! ### STMX (R173) -/

/-- Every lane of a group that has an active one is active, and holds the scale of the group's first. -/
def WholeGroups (x : Ctxt) (lanes : Mask) (scale : Nat → Nat) : Prop :=
  ∀ g ∈ mxGroups x lanes, ∀ j < 32, lanes.getLsbD (32 * g + j) = true ∧ scale (32 * g + j) = scale (32 * g)

/-- The active lanes of a group. -/
def activeIn (lanes : Mask) (g : Nat) : List Nat :=
  (List.range 32).filterMap fun i => if lanes.getLsbD (32 * g + i) then some (32 * g + i) else none

section
variable {x : Ctxt} {lanes : Mask} {scale : Nat → Nat}

theorem WholeGroups.activeIn_eq (h : WholeGroups x lanes scale) {g : Nat} (hg : g ∈ mxGroups x lanes) :
    activeIn lanes g = (List.range 32).map (32 * g + ·) := by
  rw [activeIn, ← List.filterMap_eq_map]
  refine List.filterMap_congr fun j hj => ?_
  rw [if_pos (h g hg j (List.mem_range.1 hj)).1]
  rfl

/-- An active lane is one of a group of the instruction. -/
theorem mem_mxGroups {l : Nat} (hw : x.w % 32 = 0) (hl : l < x.w) (ha : lanes.getLsbD l = true) : l / 32 ∈ mxGroups x lanes := by
  refine List.mem_filter.2 ⟨List.mem_range.2 (by omega), List.any_eq_true.2 ⟨l % 32, List.mem_range.2 (by omega), ?_⟩⟩
  rwa [Nat.div_add_mod]

theorem maskOf_eq_zero {w : Nat} {p : Nat → Bool} (h : ∀ l < w, p l = false) : maskOf w p = 0 := by
  refine BitVec.eq_of_getLsbD_eq fun l hl => ?_
  rw [getLsbD_maskOf _ _ hl, show (0 : Mask).getLsbD l = false from BitVec.getLsbD_zero]
  by_cases hw : l < w
  · rw [h l hw, Bool.and_false]
  · rw [decide_eq_false hw, Bool.false_and]

/-- No lane holds another scale than its group's first. -/
theorem WholeGroups.scales_agree (h : WholeGroups x lanes scale) (hw : x.w % 32 = 0) :
    (maskOf x.w fun l => lanes.getLsbD l && scale l != scale (((activeIn lanes (l / 32)).head?).getD l)) = 0 := by
  refine maskOf_eq_zero fun l hl => ?_
  cases ha : lanes.getLsbD l with
  | false => rfl
  | true =>
    have hg := mem_mxGroups hw hl ha
    have hs := (h _ hg (l % 32) (by omega)).2
    rw [Nat.div_add_mod] at hs
    have hhead : (((activeIn lanes (l / 32)).head?).getD l) = 32 * (l / 32) := by
      rw [h.activeIn_eq hg]
      rfl
    rw [hhead, hs, Bool.true_and, bne_self_eq_false]

theorem WholeGroups.whole (h : WholeGroups x lanes scale) :
    ((mxGroups x lanes).any fun g => (activeIn lanes g).length != 32) = false := by
  refine List.any_eq_false.2 fun g hg => ?_
  rw [h.activeIn_eq hg, List.length_map, List.length_range]
  decide

end

/-- The blocks that an STMX stores, with its groups' numbers. -/
def mxBlocks (x : Ctxt) (lanes : Mask) (f : MxFmt) (code scale : Nat → Nat) : List (Nat × List Byte × Bool) :=
  (mxGroups x lanes).map fun g => (g, mxEncode f ((List.range 32).map fun j => code (32 * g + j)) (scale (32 * g)))

/-- The packets of an STMX whose groups are whole. -/
def mxPackets (x : Ctxt) (lanes : Mask) (f : MxFmt) (code scale : Nat → Nat) (ps : List Placed) : List (List PacketPart) :=
  groupLines ((mxBlocks x lanes f code scale).map fun e =>
    { lanes := (List.range 32).map (32 * e.1 + ·), segs := groupSegs ps e.1, bytes := e.2.1 : PacketPart }) []

theorem WholeGroups.packets {x : Ctxt} {lanes : Mask} {scale : Nat → Nat} (h : WholeGroups x lanes scale) (f : MxFmt)
    (code : Nat → Nat) (ps : List Placed) :
    groupLines ((mxBlocks x lanes f code scale).map fun e =>
      { lanes := activeIn lanes e.1, segs := groupSegs ps e.1, bytes := e.2.1 : PacketPart }) [] =
      mxPackets x lanes f code scale ps := by
  refine congrArg (groupLines · []) (List.map_congr_left fun e he => ?_)
  obtain ⟨g, hg, rfl⟩ := List.mem_map.1 he
  simp only [h.activeIn_eq hg]

theorem stmx_completes {h : Hdr} {f : MxFmt} {split : Bool} {d : Nat} {m : MAddr} {s u v : State} {x0 x : Ctxt}
    {vs : List (Nat → Nat)} {ps : List Placed}
    (hr : MemRuns s h {} m [srcOf (.v d) 1 0 h.lc, srcOf (.v (d + 1)) 1 0 h.lc] [] (some (d, 2)) none x0 x u vs)
    (hl : activeMask x0.a h.km ≠ 0) (hw : x.w % 32 = 0)
    (hg : WholeGroups x (activeMask x0.a h.km) fun l => dataVal h m 2 1 vs l % 256)
    (hp : placeAll u x (activeMask x0.a h.km) .group .w
      ((mxGroups x (activeMask x0.a h.km)).map (mxAccs m vs f split)).flatten = .ok ps)
    (hrel : Released u x (activeMask x0.a h.km) m)
    (hroom : checkRoom u x m.str (groupCount (mxPackets x (activeMask x0.a h.km) f (dataVal h m 2 2 vs)
      (fun l => dataVal h m 2 1 vs l % 256) ps)) = .ok ())
    (hi : issueRegs u x (addrSrcs h m ++ [srcOf (.v d) 1 0 h.lc, srcOf (.v (d + 1)) 1 0 h.lc]) [] = .ok v) :
    exec (.stmx h f split d m) s = .next (clearWait (stepPc
      (if (mxBlocks x (activeMask x0.a h.km) f (dataVal h m 2 2 vs) fun l => dataVal h m 2 1 vs l % 256).any fun e => e.2.2 then
        setFlags (sendPackets v (packetOf u x m .write) (mxPackets x (activeMask x0.a h.km) f (dataVal h m 2 2 vs)
          (fun l => dataVal h m 2 1 vs l % 256) ps)) x.a.stroke flBadpack
      else sendPackets v (packetOf u x m .write) (mxPackets x (activeMask x0.a h.km) f (dataVal h m 2 2 vs)
          (fun l => dataVal h m 2 1 vs l % 256) ps)) x.aid (mSize m)) x.aid) := by
  refine next_congr (memInstr_completes hr rfl ?_)
  rw [List.length_append]
  have hdiff := hg.scales_agree hw
  have hwhole := hg.whole
  have hpk := hg.packets f (dataVal h m 2 2 vs) ps
  rw [if_neg hl]
  extract_lets gs k code scale active diff enc rest1 rest2
  have hplaced : rest1 () = .ok (stepPc (if enc.any fun e => e.2.2 then
      setFlags (sendPackets v (packetOf u x m .write) (mxPackets x (activeMask x0.a h.km) f code scale ps)) x.a.stroke flBadpack
      else sendPackets v (packetOf u x m .write) (mxPackets x (activeMask x0.a h.km) f code scale ps)) x.aid (mSize m)) := by
    unfold rest1
    simp only [gs, hp, ok_bind]
    rw [released_bind hrel]
    have hgroups : groupLines (enc.map fun e => { lanes := active e.1, segs := groupSegs ps e.1, bytes := e.2.1 : PacketPart }) [] =
        mxPackets x (activeMask x0.a h.km) f code scale ps := hpk
    have hfits : checkRoom u x m.str (groupCount (mxPackets x (activeMask x0.a h.km) f code scale ps)) = .ok () := hroom
    simp only [hgroups, hfits, ok_bind, hi]
    rfl
  exact (if_neg (not_not.2 hdiff)).trans ((if_neg (Bool.eq_false_iff.1 hwhole)).trans hplaced)

/-- Settles O19: ST, SCT and RED by `storeOp_completes`, STMX by `stmx_completes`. -/
theorem storesComplete : Obligations.StoresComplete := by
  intro i s t h
  obtain ⟨o, ho, x0, x, u, v, vs, ps, hr, hl, hp, hrel, hroom, hi, rfl⟩ |
    ⟨h, f, split, d, m, rfl, x0, x, u, v, vs, ps, hr, hl, hw, hg, hp, hrel, hroom, hi, rfl⟩ := h
  · exact storeOp_completes ho hr hl hp hrel hroom hi
  · exact stmx_completes hr hl hw hg hp hrel hroom hi

/-! ### Atomics that return a value (R175) -/

/-- The names that an atomic's result writes. -/
def atomicDst (x : Ctxt) (lanes : Mask) (d : Dst) (regs : Nat) : List (Nat × Nat × Mask) :=
  match d with
  | .v k => dstParts x.a lanes k regs
  | _ => []

/-- The outstanding result of an atomic of `n` packets. -/
def atomicResult (x : Ctxt) (lanes : Mask) (m : MAddr) (d : Dst) (regs : Nat) (ps : List Placed) (n : Nat) : Result :=
  { agent := x.aid, ctx := x.p.ctx, kind := .atomic, mask := lanes, reads := laneReads ps, ord := m.ord
    scp := m.scp, str := m.str, dst := atomicDst x lanes d regs, waits := n, po := x.po, before := x.a.before
    sdst := match d with
      | .s k => [k]
      | _ => [] }

/-- What an atomic leaves before its program counter: its packets, and the result that they fill. -/
def atomicIssued (u v : State) (x : Ctxt) (lanes : Mask) (m : MAddr) (d : Dst) (regs : Nat) (op : PacketOp)
    (g : List (List PacketPart)) (ps : List Placed) (after : Bool) : State :=
  acquirePerformed (sendPackets (addResult (protect v x.aid lanes (dstRef d regs 0)) (atomicResult x lanes m d regs ps g.length))
    { packetOf u x m op with result := some v.fresh, after := after } g) x.p.core m.ord m.scp

theorem issueAtomic_of_room {s v : State} {x : Ctxt} {lanes : Mask} {srcs : List Src} {m : MAddr} {d : Dst} {regs : Nat}
    {op : PacketOp} {g : List (List PacketPart)} {ps : List Placed} {after : Bool}
    (hrel : Released s x lanes m) (hroom : checkRoom s x m.str (groupCount g) = .ok ())
    (h : issueRegs s x srcs ((atomicDst x lanes d regs).map (·.2.1)) = .ok v) :
    issueAtomic s x srcs lanes m d regs op g ps after =
      .ok (stepPc (atomicIssued s v x lanes m d regs op g ps after) x.aid (mSize m)) := by
  unfold issueAtomic
  extract_lets -underBinder k
  rw [released_bind hrel]
  unfold k
  rw [hroom, ok_bind]
  dsimp only
  cases d <;> (simp only [atomicDst] at h; rw [h]; rfl)

/-- A description that, with a lane active, places its accesses and leaves an atomic. -/
theorem atomic_body {c : Prop} [Decidable c] {k : Eff State} {s v : State} {x : Ctxt} {lanes : Mask} {srcs : List Src} {m : MAddr}
    {d : Dst} {regs : Nat} {op : PacketOp} {after : Bool} {sh : Share} {nd : Need} {cs : List Acc} {ps : List Placed}
    {g : List Placed → List (List PacketPart)} (hc : ¬ c)
    (hp : placeAll s x lanes sh nd cs = .ok ps) (hrel : Released s x lanes m)
    (hroom : checkRoom s x m.str (groupCount (g ps)) = .ok ())
    (h : issueRegs s x srcs ((atomicDst x lanes d regs).map (·.2.1)) = .ok v) :
    (if c then k else placeAll s x lanes sh nd cs >>= fun ps => issueAtomic s x srcs lanes m d regs op (g ps) ps after) =
      .ok (stepPc (atomicIssued s v x lanes m d regs op (g ps) ps after) x.aid (mSize m)) := by
  rw [if_neg hc, hp, ok_bind, issueAtomic_of_room hrel hroom h]

theorem atomicOp_completes {i : Instr} {o : StoreOp} {d : Dst} {regs : Nat} {after : Bool} {s u v : State} {x0 x : Ctxt}
    {vs : List (Nat → Nat)} {ps : List Placed}
    (ho : atomicOp i = some (o, d, regs, after)) (hr : MemRuns s o.h o.pl o.m o.extra o.dsts none none x0 x u vs)
    (hl : activeMask x0.a o.h.km ≠ 0)
    (hp : placeAll u x (activeMask x0.a o.h.km) o.share o.need (o.accs x (activeMask x0.a o.h.km) vs) = .ok ps)
    (hrel : Released u x (activeMask x0.a o.h.km) o.m)
    (hroom : checkRoom u x o.m.str (groupCount (o.groups vs ps)) = .ok ())
    (hi : issueRegs u x (addrSrcs o.h o.m ++ o.extra) ((atomicDst x (activeMask x0.a o.h.km) d regs).map (·.2.1)) = .ok v) :
    exec i s = .next (clearWait (stepPc (atomicIssued u v x (activeMask x0.a o.h.km) o.m d regs o.op (o.groups vs ps) ps after)
      x.aid (mSize o.m)) x.aid) := by
  cases i with
  | atom h wid op sgn d m =>
    cases ho
    refine next_congr (memInstr_completes hr rfl ?_)
    rw [List.length_append]
    exact atomic_body hl hp hrel hroom hi
  | red h wid op sgn ret d m =>
    cases ret with
    | true =>
      cases ho
      refine next_congr (memInstr_completes hr rfl ?_)
      rw [List.length_append]
      exact atomic_body hl hp hrel hroom hi
    | false => exact nomatch ho
  | acas h wid d m =>
    cases d with
    | v k =>
      cases ho
      refine next_congr (memInstr_completes hr (congrArg memPlace (Bool.and_false _)) ?_)
      rw [List.length_append]
      exact atomic_body hl hp hrel hroom hi
    | s k =>
      cases ho
      refine next_congr (memInstr_completes hr (congrArg memPlace (Bool.and_true _)) ?_)
      rw [List.length_append]
      exact atomic_body hl hp hrel hroom hi
    | push c => exact nomatch ho
  | _ => exact nomatch ho

theorem dsts_of_atomicOp {i : Instr} {o : StoreOp} {d : Dst} {regs : Nat} {after : Bool}
    (ho : atomicOp i = some (o, d, regs, after)) : o.dsts = dstRef d regs 0 := by
  cases i with
  | atom h wid op sgn d m => cases ho; rfl
  | red h wid op sgn ret d m =>
    cases ret with
    | true => cases ho; rfl
    | false => exact nomatch ho
  | acas h wid d m =>
    cases d with
    | v k => cases ho; rfl
    | s k => cases ho; rfl
    | push c => exact nomatch ho
  | _ => exact nomatch ho

/-- Settles O20. -/
theorem atomicsComplete : Obligations.AtomicsComplete := by
  intro i s t ⟨o, d, regs, after, ho, x0, x, u, v, vs, ps, hr, hl, hp, hrel, hroom, hi, ht⟩
  rw [ht, dsts_of_atomicOp ho]
  exact atomicOp_completes ho hr hl hp hrel hroom hi

end Sys2Proof.Machine
end

