-- ==== Sys2Proof/Proofs/NoLane.lean ====
section
/-! SUPPORT. Instructions that act on active lanes, with none active (spec/01_machine.md R15, R22). -/

namespace Sys2Proof.Machine
open Sys2Proof Sys2Proof.Claims

/-! ### Memory instructions -/

theorem accessOp_idles {i : Instr} {o : AccessOp} {s u v : State} {x0 x : Ctxt} {vs : List (Nat → Nat)}
    (ho : accessOp i = some o) (hpush : o.push = none) (hl : activeMask x0.a o.h.km = 0)
    (hr : MemRuns s o.h o.pl o.m o.extra o.dsts o.straddle none x0 x u vs)
    (hi : issueRegs u x (addrSrcs o.h o.m ++ o.extra) [] = .ok v) :
    exec i s = .next (clearWait (stepPc (protect v x.aid (activeMask x0.a o.h.km) o.dsts) x.aid (mSize o.m)) x.aid) := by
  cases i with
  | ld h wid sx d m =>
    cases d with
    | v n =>
      cases ho
      exact next_congr (memInstr_completes hr (congrArg memPlace (Bool.and_false _)) (idle_body (by simpa [pushOf] using hl) hi))
    | s n =>
      cases ho
      exact next_congr (memInstr_completes hr (congrArg memPlace (Bool.and_true _)) (idle_body (by simpa [pushOf] using hl) hi))
    | push c =>
      cases ho
      exact nomatch hpush
  | ldg | ldmx | st | sct | stmx | atom =>
    cases ho
    exact next_congr (memInstr_completes hr rfl (idle_body hl hi))
  | red h wid op sgn ret d m =>
    cases ret with
    | false =>
      cases ho
      exact next_congr (memInstr_completes hr rfl (idle_body hl hi))
    | true =>
      cases ho
      exact next_congr (memInstr_completes hr rfl (idle_body hl hi))
  | acas h wid d m =>
    cases d with
    | v k =>
      cases ho
      exact next_congr (memInstr_completes hr (congrArg memPlace (Bool.and_false _)) (idle_body hl hi))
    | s k =>
      cases ho
      exact next_congr (memInstr_completes hr (congrArg memPlace (Bool.and_true _)) (idle_body hl hi))
    | push c => exact nomatch ho
  | _ => exact nomatch ho

/-! ### Set instructions -/

theorem setInstr_idles {acc : Bool} {i : Instr} {s u u0 v : State} {h : Hdr} {size : Nat} {srcs : List Src} {dsts : List Ref}
    {uni hands : List Nat} {x0 x y : Ctxt} {vs : List (Nat → Nat)}
    {body : State → Ctxt → Mask → List (Nat → Nat) → Eff SetPlan} (hx : theCtxt s = some x0) (hl : activeMask x0.a h.km = 0)
    (hg : setGather s x0 h srcs dsts uni = .ok (u0, y)) (hp : (u, x) = pullAll u0 y srcs)
    (hv : srcValues u x (activeMask x0.a h.km) srcs srcs.length 0 = .ok vs) (hi : issueRegs u x srcs [] = .ok v) :
    setInstr acc i s h size srcs dsts uni hands body =
      clearWait (stepPc (protect v x.aid (activeMask x0.a h.km) dsts) x.aid size) x0.aid := by
  rw [setInstr, runAgent_of_ctxt _ hx, ← settle_ok s]
  congr 1
  rw [hg, ok_bind]
  dsimp -zeta only
  rw [← hp]
  dsimp -zeta only
  rw [hv, ok_bind, idle_body hl hi]

/-! ### Task and Easel instructions -/

theorem taskInstr_idles {s u v : State} {h : Hdr} {ill : Ctxt → Bool} {srcs : List Src} {dsts : List Ref} {uni : List Nat}
    {size : Nat} {x0 x : Ctxt} {body : State → Ctxt → Mask → List (Nat → Nat) → Eff (State × Writes)}
    (hx : theCtxt s = some x0) (hl : activeMask x0.a h.km = 0) (hg : taskGather s x0 h ill srcs dsts uni = .ok (u, x))
    (hc : Commits u x h 0 srcs dsts size {} v) : taskInstr s h ill srcs dsts uni size body = clearWait v x0.aid := by
  rw [taskInstr, runAgent_of_ctxt _ hx]
  simp only [hg, ok_bind, hl, if_true]
  rw [show commitRegs u x { sw := h.sw, size := size, srcs := srcs, dsts := dsts } 0 {} = .ok v from hc]
  rfl

theorem tyld_idles {h : Hdr} {d : Nat} {a b : Opd} {s u v : State} {x0 x : Ctxt} (hx : theCtxt s = some x0)
    (hl : activeMask x0.a h.km = 0) (hg : taskGather s x0 h notTask (taskSrcs h a b) [.v d 1 0] [] = .ok (u, x))
    (hc : Commits u x h 0 (taskSrcs h a b) [.v d 1 0] 8 {} v) : execTyld h d a b s = .next (clearWait v x0.aid) := by
  rw [execTyld, runAgent_of_ctxt _ hx]
  simp only [hg, ok_bind, hl, if_true]
  rw [show commitRegs u x { sw := h.sw, size := 8, srcs := taskSrcs h a b, dsts := [.v d 1 0] } 0 {} = .ok v from hc]
  rfl

theorem taskOp_idles {i : Instr} {o : TaskOp} {s u v : State} {x0 x : Ctxt} (ho : taskOp i = some o)
    (hx : theCtxt s = some x0) (hl : activeMask x0.a o.h.km = 0)
    (hg : taskGather s x0 o.h o.ill o.srcs o.dsts o.uni = .ok (u, x)) (hc : Commits u x o.h 0 o.srcs o.dsts o.size {} v) :
    exec i s = .next (clearWait v x0.aid) := by
  cases i with
  | tspawn | alloc | eqstat | eqcomb =>
    cases ho
    exact next_congr (taskInstr_idles hx hl hg hc)
  | tyld h d a b =>
    cases ho
    exact tyld_idles hx hl hg hc
  | eqpush h d e q =>
    cases ho
    cases d with
    | none => exact next_congr (taskInstr_idles hx hl hg hc)
    | some n => exact next_congr (taskInstr_idles hx hl hg hc)
  | _ => exact nomatch ho

/-! ### TRAP and ERRD -/

theorem sysInstr_idles {s u w : State} {h : Hdr} {pl : Place} {reads : List Ref} {b : List Opd} {x0 x : Ctxt} {v : DWord}
    {body : State → Ctxt → Mask → DWord → Eff State} (hx : theCtxt s = some x0)
    (hg : sysGather s x0 h pl reads b (fun _ => true) true = .ok (u, x, v)) (hb : body u x (activeMask x0.a h.km) v = .ok w) :
    sysInstr s h pl reads b body (masked := true) = clearWait w x0.aid := by
  rw [sysInstr_of_gather body hx hg, hb]
  rfl

/-- Settles O11: register instructions by `RegOp.run_of_idle`; the others each have a lemma. -/
theorem noLaneNoEffect : Obligations.NoLaneNoEffect := by
  refine ⟨fun i s o hi hw s2 x0 x vs h => ?_, fun i s t h => ?_⟩
  · rw [exec_of_regOp hi hw, RegOp.run_of_idle h]
  obtain ⟨o, ho, hpush, x0, x, u, v, vs, hl, hr, hi, rfl⟩ | ⟨o, ho, x0, x, u, u0, y, v, vs, hx, hl, hg, hp, hv, hi, rfl⟩ |
    ⟨o, ho, x0, x, u, v, hx, hl, hg, hc, rfl⟩ | ⟨h, clr, d, b, x0, x, u, v, rfl, hx, hl, hg, rfl⟩ |
    ⟨h, b, x0, x, u, v, rfl, hx, hl, hg, rfl⟩ := h
  · have haid : x.aid = x0.aid := (memGather_aid ..).of_ok _ hr.2
    rw [accessOp_idles ho hpush hl hr hi, hl, haid]
  · obtain ⟨body, hm⟩ := setForm_means ho
    have hidle := setInstr_idles (acc := false) (i := i) (size := o.size) (hands := o.hands) (body := body) hx hl hg hp
      (by rw [hl]; exact hv) hi
    rw [hl] at hidle
    exact (hm.issue s).trans (next_congr hidle)
  · exact taskOp_idles ho hx hl hg hc
  · exact next_congr (sysInstr_idles hx hg (if_pos hl))
  · exact next_congr (sysInstr_idles hx hg (if_pos hl))

end Sys2Proof.Machine
end

