-- ==== Sys2Proof/Proofs/FencesAndBarriers.lean ====
section
/-! SUPPORT. Stroke-wide instructions (spec/08_memory_instructions.md R177), and FENCE, BINIT, BAR and WAITF of them
(R176-R182). -/

namespace Sys2Proof.Machine
open Sys2Proof Sys2Proof.Claims

theorem wideGather_aid (s : State) (x0 : Ctxt) (h : Hdr) (pl : Place) (srcs : List Src) (refs : List Ref) :
    Yields (fun r => r.2.1.aid = x0.aid) (wideGather s x0 h pl srcs refs) := by
  unfold wideGather
  refine .seq fun _ => .bind (switchMark_aid ..) fun r hr => ?_
  exact .seq fun _ => .seq fun _ => .seq fun _ => .seq fun _ => .seq fun _ => (yields_pure _).2 hr

/-- A stroke-wide instruction whose checks pass settles as its description does. -/
theorem wideInstr_settles {s u : State} {h : Hdr} {pl : Place} {srcs : List Src} {refs : List Ref} {x0 x : Ctxt} {vs : List Nat}
    {body : State → Ctxt → Mask → List Nat → Eff State} (hr : WideRuns s h pl srcs refs x0 x u vs) :
    wideInstr s h pl srcs refs body = settle s x.aid (body u x x0.a.em vs) := by
  obtain ⟨hx, hg⟩ := hr
  rw [wideInstr_of_gather body hx hg, (wideGather_aid ..).of_ok _ hg]

theorem wideInstr_completes {s u w : State} {h : Hdr} {pl : Place} {srcs : List Src} {refs : List Ref} {x0 x : Ctxt}
    {vs : List Nat} {body : State → Ctxt → Mask → List Nat → Eff State} (hr : WideRuns s h pl srcs refs x0 x u vs)
    (hb : body u x x0.a.em vs = .ok w) : wideInstr s h pl srcs refs body = clearWait w x.aid := by
  rw [wideInstr_settles hr, hb]
  rfl

theorem readsPending_eq_false {s : State} {aid : Nat} {m : BitVec 16}
    (h : ∀ r ∈ s.results, r.2.agent = aid → m.getLsbD r.2.str = true → readsLeft r.2 = false) :
    readsPending s aid m = false := by
  refine List.any_eq_false.2 fun r hr => ?_
  simp only [Bool.and_eq_true, beq_iff_eq, not_and, Bool.not_eq_true]
  exact fun ⟨ha, hm⟩ => h r hr ha hm

theorem checkSound_of_sound {s : State} {segs : List (Nat × Nat)} (h : segsBad s segs = none) (lanes : Mask) :
    checkSound s lanes segs = .ok () := by
  rw [checkSound, h]
  rfl

theorem fence_completes {h : Hdr} {ord : MOrd} {scp : Scope} {b : Opd} {s t : State} (hr : syncRule (.fence h ord scp b) s t) :
    execFence h ord scp b s = .next t := by
  obtain ⟨x0, x, u, vs, hr, h0, hlt, hreads, hsets, hmat, hatom, hrel, rfl⟩ := hr
  refine next_congr (wideInstr_completes hr ?_)
  have hv : ¬ (nthVal vs 0 = 0 ∨ 2 ^ 16 ≤ nthVal vs 0) := by omega
  have hatomics : (MOrd.acquires ord && atomicsPending u x (BitVec.ofNat 16 (nthVal vs 0))) = false := by
    cases ha : MOrd.acquires ord with
    | false => rfl
    | true => exact hatom ha
  simp only [hv, if_false, readsPending_eq_false hreads, hsets, hmat, Bool.or_self, hatomics, Bool.false_eq_true]
  split
  · next hq => rw [hrel hq, ok_bind]; rfl
  · rfl

theorem binit_completes {h : Hdr} {a b : Opd} {s t : State} (hr : syncRule (.binit h a b) s t) :
    execBinit h a b s = .next t := by
  obtain ⟨x0, x, u, vs, off, hr, h16, hoff, hm, hsound, hidle, rfl⟩ := hr
  refine next_congr (wideInstr_completes hr ?_)
  have hbusy : (x.p.barriers.contains off && (barArrived (barObj u x.p off) != 0 || barPending (barObj u x.p off) != 0)) = false := by
    by_cases hreg : off ∈ x.p.barriers
    · simp [hidle hreg]
    · simp [hreg]
  simp only [h16, ne_eq, not_true_eq_false, if_false, hoff, Nat.not_le.2 hm, checkSound_of_sound hsound, ok_bind, hbusy,
    Bool.false_eq_true]
  rfl

theorem theBar_of_registered {x : Ctxt} {va off : Nat} (hoff : scratchOff x.p va 16 = some off) (hreg : off ∈ x.p.barriers)
    (lanes : Mask) : theBar x lanes va = .ok off := by
  simp [theBar, hoff, hreg]

theorem bar_completes {h : Hdr} {a : Opd} {s t : State} (hr : syncRule (.bar h a) s t) : execBar h a s = .next t := by
  obtain ⟨x0, x, u, vs, off, hr, hoff, hreg, hsound, hmember, hclass, hframes, hmixed, hwait, rfl⟩ := hr
  refine next_congr (wideInstr_completes hr ?_)
  have hserial : inSerial x.a = false := by simp [inSerial, hframes]
  simp only [theBar_of_registered hoff hreg, ok_bind, checkSound_of_sound hsound, hmember, Bool.not_true, Bool.false_eq_true,
    if_false, hclass, hserial, hmixed, hwait]
  rfl

theorem waitf_completes {h : Hdr} {ty : Ty} {lvl : Nat} {prom : Promise} {cond : WCond} {d : Nat} {a b : Opd} {s t : State}
    (hr : syncRule (.waitf h ty lvl prom cond d a b) s t) : execWaitf h ty lvl prom cond d a b s = .next t := by
  obtain ⟨x0, x, u, vs, ps, hr, hlvl, hp, hprom, rfl⟩ := hr
  refine next_congr (wideInstr_completes hr ?_)
  simp only [Nat.not_le.2 hlvl, if_false, hp, ok_bind, hprom]
  rfl

theorem waitfConditionMet_completes {aid : Nat} {s t : State} (hr : syncRule (.waitfConditionMet aid) s t) :
    execWaitfConditionMet aid s = .next t := by
  obtain ⟨hready, a, r0, r, v, ha, hrec, hnow, hv, hsound, rfl⟩ := hr
  simp only [execWaitfConditionMet, hready, if_true, ha, hrec, Option.map_some, hnow, hv, hsound]

/-- Settles O21. -/
theorem fencesAndBarriersComplete : Obligations.FencesAndBarriersComplete := by
  intro i s t h
  cases i
  case fence => exact fence_completes h
  case binit => exact binit_completes h
  case bar => exact bar_completes h
  case waitf => exact waitf_completes h
  case waitfConditionMet => exact waitfConditionMet_completes h
  all_goals exact h.elim

end Sys2Proof.Machine
end

