-- ==== Sys2Proof/Proofs/Streamer.lean ====
section
/-! SUPPORT. The streamer's instructions at their issue, the waits for a completion object, the channels' instructions and
publishable regions (spec/08_memory_instructions.md R181-R192): each is stroke-wide, and its checks are those of its rule. -/

namespace Sys2Proof.Machine
open Sys2Proof Sys2Proof.Claims

/-! ### CPY, BARX and MCAST (R181, R184, R192) -/

section
variable {u : State} {x : Ctxt} {lanes : Mask}

theorem packedOf_of_packedAt {out : Bool} {b : Opd} {v pk : Nat} {ring : Option (Nat × Nat)} (h : PackedAt x out b v pk ring) :
    packedOf x lanes out b v = .ok (pk, ring) := by
  unfold PackedAt at h
  unfold packedOf
  split at h
  · next hb =>
    obtain ⟨rfl, rfl⟩ := h
    rfl
  · next c hb =>
    obtain ⟨rfl, ch, hch, hkind, hfree, rfl, rfl⟩ := h
    have hslot : ringSlot x lanes c = .ok (ch.base + ch.nextSlot * ch.slotBytes, ch.nextSlot) := by
      simp [ringSlot, hch, hkind, Nat.not_le.2 hfree]
    simp only [Bool.false_eq_true, if_false, hslot, ok_bind]
    rfl

theorem checkComp_of_completionAt {has : Bool} {comp bytes : Nat} {co : Option Nat} (h : CompletionAt u x has comp bytes co) :
    checkComp u x lanes co bytes = .ok () := by
  unfold CompletionAt at h
  split at h
  · obtain ⟨-, o, -, rfl, hsound⟩ := h
    simp only [checkComp, hsound]
    rfl
  · subst h
    rfl

/-- The object that the instruction names, or none. -/
theorem completionAt_cases {has : Bool} {comp bytes : Nat} {co : Option Nat} (h : CompletionAt u x has comp bytes co) :
    (has = false ∧ co = none) ∨
    (has = true ∧ ∃ o, scratchOff x.p comp (8 + 8 * ceilDiv (ceilDiv bytes 512) 64) = some o ∧ co = some o) := by
  cases has with
  | false => exact .inl ⟨rfl, h⟩
  | true =>
    obtain ⟨-, o, ho, hco, -⟩ := h
    exact .inr ⟨rfl, o, ho, hco⟩

theorem completionAt_aligned {has : Bool} {comp bytes : Nat} {co : Option Nat} (h : CompletionAt u x has comp bytes co) :
    (has && comp % 8 != 0) = false := by
  unfold CompletionAt at h
  split at h
  · next hh => simp [h.1]
  · next hh => simp [hh]

theorem checkCopy_of_copyChecks {rec comp : Nat} {has : Bool} {packed : Option Nat} {out : Bool} {l : Layout} {co : Option Nat}
    (h : CopyChecks u x lanes rec comp has packed out l co) : checkCopy u x lanes rec comp has packed out = .ok (l, co) := by
  obtain ⟨hrights, halign, ⟨ro, hro, hl, hbad, hsound⟩, hpacked, hco, ⟨ps, hps⟩, -⟩ := h
  subst hl
  unfold checkCopy
  have hcomp := checkComp_of_completionAt (lanes := lanes) hco
  have hbounds : ∀ v, packed = some v →
      (scratchOff x.p v (layBytes (layOf ((List.range 64).map fun i => memGet u.mem (scratchPa x.p (ro + i)))))).isNone = false :=
    fun v hv => Option.isNone_eq_false_iff.2 (hpacked v hv)
  simp only [hrights, Bool.not_true, Bool.false_eq_true, if_false, halign, ne_eq, not_true_eq_false, completionAt_aligned hco,
    hro, checkSound_of_sound hsound, ok_bind, hbad, hps]
  obtain ⟨rfl, rfl⟩ | ⟨rfl, o, ho, rfl⟩ := completionAt_cases hco
  · cases packed with
    | none => simp only [Bool.false_eq_true, if_false, hcomp, ok_bind]; rfl
    | some v => simp only [hbounds v rfl, Bool.false_eq_true, if_false, hcomp, ok_bind]; rfl
  · cases packed with
    | none => simp only [if_true, ho, hcomp, ok_bind]; rfl
    | some v => simp only [hbounds v rfl, Bool.false_eq_true, if_false, if_true, ho, hcomp, ok_bind]; rfl

theorem copyChecks_issues {rec comp : Nat} {has : Bool} {packed : Option Nat} {out : Bool} {l : Layout} {co : Option Nat}
    (h : CopyChecks u x lanes rec comp has packed out l co) : hasRights x = true ∧ checkReuse u x co = .ok () := by
  obtain ⟨hrights, -, -, -, -, -, hreuse⟩ := h
  exact ⟨hrights, hreuse⟩

theorem checkSend_of_hasRoom {q : Copy} (h : HasRoom u x q) : checkSend u x q = .ok () := if_pos h

end

theorem cpy_completes {h : Hdr} {out : Bool} {scp : Scope} {a b c : Opd} {s t : State}
    (hr : copyRule (.cpy h out scp a b c) s t) : execCpy h out scp a b c s = .next t := by
  obtain ⟨x0, x, u, vs, pk, ring, l, co, hr, hpk, hc, hroom, rfl⟩ := hr
  refine next_congr (wideInstr_completes hr ?_)
  obtain ⟨hrights, hreuse⟩ := copyChecks_issues hc
  simp only [hrights, Bool.not_true, Bool.false_eq_true, if_false, packedOf_of_packedAt hpk, ok_bind, checkCopy_of_copyChecks hc,
    hreuse, checkSend_of_hasRoom hroom]
  rfl

theorem barx_completes {h : Hdr} {out : Bool} {scp : Scope} {d a b c : Opd} {s t : State}
    (hr : copyRule (.barx h out scp d a b c) s t) : execBarx h out scp d a b c s = .next t := by
  obtain ⟨x0, x, u, vs, pk, ring, l, co, off, hr, hpk, hc, hoff, hreg, hsound, hlt, hclass, hroom, rfl⟩ := hr
  refine next_congr (wideInstr_completes hr ?_)
  obtain ⟨hrights, hreuse⟩ := copyChecks_issues hc
  simp only [hrights, Bool.not_true, Bool.false_eq_true, if_false, packedOf_of_packedAt hpk, ok_bind, checkCopy_of_copyChecks hc,
    theBar_of_registered hoff hreg, checkSound_of_sound hsound, Nat.not_le.2 hlt, hclass, hreuse, checkSend_of_hasRoom hroom]
  rfl

theorem mcast_completes {h : Hdr} {n : Nat} {a b c : Opd} {s t : State}
    (hr : copyRule (.mcast h n a b c) s t) : execMcast h n a b c s = .next t := by
  obtain ⟨x0, x, u, vs, l, co, lo, ps, hr, hc, hlo, hps, hsound, hroom, rfl⟩ := hr
  refine next_congr (wideInstr_completes hr ?_)
  obtain ⟨-, hreuse⟩ := copyChecks_issues hc
  simp only [ok_bind, checkCopy_of_copyChecks hc, hlo, checkSound_of_sound hsound, hps, hreuse, checkSend_of_hasRoom hroom]
  rfl

/-- Settles O22. -/
theorem copiesComplete : Obligations.CopiesComplete := by
  intro i s t h
  cases i
  case cpy => exact cpy_completes h
  case barx => exact barx_completes h
  case mcast => exact mcast_completes h
  all_goals exact h.elim

/-! ### WAITC and TESTC (R186) -/

theorem waitc_completes {h : Hdr} {scp : Scope} {d : Nat} {a b c : Opd} {s t : State}
    (hr : windowRule (.waitc h scp d a b c) s t) : execWaitc h scp d a b c s = .next t := by
  obtain ⟨x0, x, u, v, vs, st, w, hr, hw, h⟩ := hr
  obtain ⟨hmet, rfl⟩ | ⟨hmet, herr, rfl⟩ := h
  · refine next_congr (wideInstr_completes hr ?_)
    simp only [hw, ok_bind, windowMask, hmet, if_true]
    rfl
  · refine next_congr (wideInstr_completes hr ?_)
    simp only [hw, ok_bind, windowMask, hmet, if_false, herr, if_true]
    rfl

theorem testc_completes {h : Hdr} {d : Nat} {a b c : Opd} {s t : State} (hr : windowRule (.testc h d a b c) s t) :
    execTestc h d a b c s = .next t := by
  obtain ⟨x0, x, u, v, vs, st, w, hr, hw, rfl⟩ := hr
  refine next_congr (wideInstr_completes hr ?_)
  simp only [hw, ok_bind]
  rfl

/-- Settles O23. -/
theorem completionWaitsComplete : Obligations.CompletionWaitsComplete := by
  intro i s t h
  cases i
  case waitc => exact waitc_completes h
  case testc => exact testc_completes h
  all_goals exact h.elim

/-! ### Channels (R187-R189) -/

theorem bindChan_completes {s t : State} {h : Hdr} {c size : Nat} {srcs : List Src}
    {ok : State → Ctxt → List Nat → State → Chan → Prop} {f : State → Ctxt → Mask → List Nat → Eff (State × Chan)}
    (hr : Binds s h c size srcs ok t) (hf : ∀ u x lanes vs w ch, ok u x vs w ch → f u x lanes vs = .ok (w, ch)) :
    bindChan s h c size srcs f = t := by
  obtain ⟨x0, x, u, vs, w, ch, hr, hfree, hok, rfl⟩ := hr
  refine wideInstr_completes hr ?_
  simp only [hfree, Option.isSome_none, Bool.false_eq_true, if_false, hf u x x0.a.em vs w ch hok, ok_bind]
  rfl

theorem srel_completes {h : Hdr} {c : Nat} {s t : State} (hr : channelRule (.srel h c) s t) : execSrel h c s = .next t := by
  obtain ⟨x0, x, u, vs, ch, hr, hch, hkind, hrel, rfl⟩ := hr
  refine next_congr (wideInstr_completes hr ?_)
  simp only [hch, hkind, ne_eq, not_true_eq_false, if_false, hrel, ok_bind]
  rfl

theorem sbindUnbind_completes {h : Hdr} {c : Nat} {s t : State} (hr : channelRule (.sbindUnbind h c) s t) :
    execSbindUnbind h c s = .next t := by
  obtain ⟨x0, x, u, vs, ch, hr, hch, hcopies, rfl⟩ := hr
  refine next_congr (wideInstr_completes hr ?_)
  simp only [hch, hcopies, ne_eq, not_true_eq_false, if_false]

theorem sbindRing_completes {h : Hdr} {c : Nat} {p1 p2 p3 : Opd} {s t : State}
    (hr : channelRule (.sbindRing h c p1 p2 p3) s t) : execSbindRing h c p1 p2 p3 s = .next t := by
  refine next_congr (bindChan_completes hr fun u x lanes vs w ch => ?_)
  rintro ⟨halign, hfits, hbytes, hchunks, hmin, hmax, rfl, rfl⟩
  have hslots : ¬ (nthVal vs 1 = 0 ∨ nthVal vs 1 % 512 ≠ 0 ∨ nthVal vs 2 = 0 ∨ 16 < nthVal vs 2) := by omega
  simp only [hslots, if_false, halign, ne_eq, not_true_eq_false, Option.isNone_eq_false_iff.2 hfits, Bool.false_eq_true]
  rfl

theorem sbindPort_completes {h : Hdr} {c : Nat} {p1 : Opd} {s t : State} (hr : channelRule (.sbindPort h c p1) s t) :
    execSbindPort h c p1 s = .next t := by
  refine next_congr (bindChan_completes hr fun u x lanes vs w ch => ?_)
  rintro ⟨e, hq, he, hctx, hpull, rfl, rfl⟩
  have hqueue : checkQueue u x lanes (nthVal vs 0) false = .ok e := by simp [checkQueue, Nat.not_lt.2 hq, he, hctx]
  simp only [hqueue, ok_bind, hpull, Option.isSome_none, Bool.false_eq_true, if_false]
  rfl

theorem sbindIter_completes {h : Hdr} {c : Nat} {p1 p2 : Opd} {s t : State} (hr : channelRule (.sbindIter h c p1 p2) s t) :
    execSbindIter h c p1 p2 s = .next t := by
  refine next_congr (bindChan_completes hr fun u x lanes vs w ch => ?_)
  rintro ⟨hlt, hgood, rfl, rfl⟩
  simp only [Nat.not_le.2 hlt, if_false, hgood]
  rfl

theorem sbindQuery_completes {h : Hdr} {c d : Nat} {s t : State} (hr : channelRule (.sbindQuery h c d) s t) :
    execSbindQuery h c d s = .next t := by
  obtain ⟨x0, x, u, vs, hr, rfl⟩ := hr
  exact next_congr (wideInstr_completes hr rfl)

/-- Settles O24. -/
theorem channelInstructionsComplete : Obligations.ChannelInstructionsComplete := by
  intro i s t h
  cases i
  case srel => exact srel_completes h
  case sbindUnbind => exact sbindUnbind_completes h
  case sbindPrimer =>
    exact next_congr (bindChan_completes h fun u x lanes vs w ch => by rintro ⟨rfl, rfl⟩; rfl)
  case sbindRing => exact sbindRing_completes h
  case sbindPort => exact sbindPort_completes h
  case sbindIter => exact sbindIter_completes h
  case sbindQuery => exact sbindQuery_completes h
  all_goals exact h.elim

/-! ### Publishable regions (R190, R191) -/

theorem preg_completes {h : Hdr} {d : Nat} {a b : Opd} {s t : State} (hr : regionRule (.preg h d a b) s t) :
    execPreg h d a b s = .next t := by
  obtain ⟨x0, x, u, vs, segs, hr, h0, hn, hbase, hsegs, hslice, h⟩ := hr
  have hgeom : ¬ (nthVal vs 1 = 0 ∨ nthVal vs 1 % 4096 ≠ 0 ∨ nthVal vs 0 % 4096 ≠ 0) := by omega
  dsimp only at h
  split at h
  · next hfull =>
    subst h
    refine next_congr (wideInstr_completes hr ?_)
    simp only [hgeom, if_false, hsegs, ok_bind, hslice, Bool.not_true, Bool.false_eq_true, hfull, if_true]
    rfl
  · next hroom =>
    obtain ⟨hsound, rfl⟩ := h
    refine next_congr (wideInstr_completes hr ?_)
    simp only [hgeom, if_false, hsegs, ok_bind, hslice, Bool.not_true, Bool.false_eq_true, hroom, checkSound_of_sound hsound]
    rfl

theorem theRegion_of_find {u : State} {x : Ctxt} {n : Nat} {r : Region}
    (h : (u.regions.find? fun q => q.ctx == x.p.ctx && q.num == n) = some r) (lanes : Mask) : theRegion u x lanes n = .ok r := by
  simp only [theRegion, h]

theorem pregDrop_completes {h : Hdr} {a : Opd} {s t : State} (hr : regionRule (.pregDrop h a) s t) :
    execPregDrop h a s = .next t := by
  obtain ⟨x0, x, u, vs, r, hr, hreg, rfl⟩ := hr
  refine next_congr (wideInstr_completes hr ?_)
  simp only [theRegion_of_find hreg, ok_bind]
  rfl

theorem pub_completes {h : Hdr} {scp : Scope} {a : Opd} {s t : State} (hr : regionRule (.pub h scp a) s t) :
    execPub h scp a s = .next t := by
  obtain ⟨x0, x, u, vs, r, hr, hreg, hrel, hcopy, rfl⟩ := hr
  refine next_congr (wideInstr_completes hr ?_)
  simp only [theRegion_of_find hreg, ok_bind, hrel, hcopy, Bool.false_eq_true, if_false]
  rfl

/-- Settles O25. -/
theorem regionInstructionsComplete : Obligations.RegionInstructionsComplete := by
  intro i s t h
  cases i
  case preg => exact preg_completes h
  case pregDrop => exact pregDrop_completes h
  case pub => exact pub_completes h
  all_goals exact h.elim

end Sys2Proof.Machine
end

