-- ==== Sys2Proof/Proofs/Collectives.lean ====
section
/-! SUPPORT. COLL outside cycle 0 (spec/08_memory_instructions.md R193): the model records the cycle in which the collective
began (`execColl`), the rule of the claims records 0. -/

namespace Sys2Proof.Machine
open Sys2Proof Sys2Proof.Claims

/-- A page with the engine right, at 0x30000. -/
def gatherPage : TlbEntry :=
  { va := 0x30000, size := 4096, pa := 0x100000, r := true, w := true, x := true, e := true, p := true, g := false }

/-- One agent, number 4, in cycle 1; s4 holds the address of a descriptor: one element of level 3 from 0x20100 to 0x30000. -/
def stGather : State :=
  let s := placeProgram State.reset []
  { s with
    cur := 4, cycle := 1
    mem := s.mem ++ [(2 ^ 48 + 0x20001, 1), (2 ^ 48 + 0x20002, 2), (2 ^ 48 + 0x2000A, 3), (2 ^ 48 + 0x20010, 1),
      (2 ^ 48 + 0x20019, 3)]
    agents := tabMap (fun _ a => { a with s := [(4, 0x20000)] }) s.agents
    ctxs := [(1, { placedCtx with tlb := [gatherPage] })]
    comms := [(1, { placedComm with record := { placedComm.record with
      levels := 4, classes := [1, 1, 0], domains := [1, 1, 4] } })] }

/-- COLL of the descriptor at s4, with no completion object. -/
def gatherColl : Instr := .coll { sw := false, km := 0, la := false, lb := false, lc := false } (.s 4) (.s 63)

def isOk {ε α : Type} : Except ε α → Bool
  | .ok _ => true
  | .error _ => false

theorem exists_of_isOk {ε α : Type} {e : Except ε α} (h : isOk e = true) : ∃ v, e = .ok v := by
  cases e with
  | ok v => exact ⟨v, rfl⟩
  | error _ => cases h

/-- The checks of a COLL on the descriptor's bytes. -/
def collFits (v : State) (x : Ctxt) (lanes : Mask) (bs : List Byte) : Bool :=
  let f := fun o k => ofBytes ((bs.drop o).take k)
  let r := x.c.record
  let op := f 24 1 % 16
  let lvl := f 25 1
  let n := collN r lvl
  decide (f 16 4 ≠ 0 ∧ op < 3 ∧ f 24 1 / 16 < 4 ∧ 3 ≤ lvl ∧ lvl < r.levels ∧ 4 ≤ domainOf r lvl ∧ f 26 6 = 0 ∧
    (op = 1 → f 16 4 % n = 0)) && decide (x.p.task = false ∧ classOf r lvl = 0) && isOk (waitRelease v x lanes allStreams) &&
  isOk (placeAll v x lanes .one .r [{ lane := 0, addr := (f 0 8 : Int), n := 4 * f 16 4, align := 4 }]) &&
  isOk (placeAll v x lanes .one .we
    [{ lane := 0, addr := (f 8 8 : Int), n := collBytes op (f 16 4) n, align := 4 }])

/-- Every check that the rule names passes in `stGather`. -/
def gatherPasses : Bool :=
  match theCtxt stGather with
  | none => false
  | some x0 =>
    match wideGather stGather x0 { sw := false, km := 0, la := false, lb := false, lc := false } chanPlace
      [addrSrc { sw := false, km := 0, la := false, lb := false, lc := false } (.s 4), srcOf (.s 63) 2 3 false] [] with
    | .error _ => false
    | .ok (u, x, vs) =>
      match placeAll u x x0.a.em .one .r [{ lane := 0, addr := (nthVal vs 0 : Int), n := 32, align := 8 }] with
      | .error _ => false
      | .ok ps =>
        match readNow u x x0.a.em ps with
        | .error _ => false
        | .ok (v, bs) =>
          hasRights x && collFits v x x0.a.em bs

theorem stepPc_colls (s : State) (aid n : Nat) : (stepPc s aid n).colls = s.colls := by
  unfold stepPc
  split <;> rfl

theorem clearWait_colls (s : State) (aid : Nat) : (clearWait s aid).colls = s.colls := by
  unfold clearWait
  split <;> rfl

/-- What the rule leaves holds a collective that began in cycle 0. -/
theorem collectiveRule_of_passes (h : gatherPasses = true) :
    ∃ t, collectiveRule gatherColl stGather t ∧ ∃ k q, tabGet t.colls k = some q ∧ q.born = 0 := by
  unfold gatherPasses at h
  split at h
  · cases h
  next x0 hx =>
    split at h
    · cases h
    next u x vs hg =>
      split at h
      · cases h
      next ps hp =>
        split at h
        · cases h
        next v bs hr =>
          simp only [collFits, Bool.and_eq_true, decide_eq_true_eq] at h
          obtain ⟨hrights, ⟨⟨⟨⟨a, b, c, d, e, f, g, j⟩, htask, hclass⟩, hw⟩, h1⟩, h2⟩ := h
          obtain ⟨_, hw⟩ := exists_of_isOk hw
          obtain ⟨p1, h1⟩ := exists_of_isOk h1
          obtain ⟨p2, h2⟩ := exists_of_isOk h2
          refine ⟨_, ⟨x0, x, u, v, vs, ps, bs, none, p1, p2, ⟨hx, hg⟩, hrights, hp, hr, a, b, c, d, e, f, g, j, rfl, h1, h2,
            htask, hclass, hw, rfl, rfl⟩, ?_⟩
          rw [clearWait_colls, stepPc_colls]
          exact ⟨_, _, tabGet_tabPut_self _ _ _, rfl⟩

/-- Refutes O26: in cycle 1 the model's collective began in cycle 1, and the rule's in cycle 0. -/
theorem not_collectiveCompletes : ¬ Obligations.CollectiveCompletes := by
  intro h
  obtain ⟨t, hrule, k, q, hq, hborn⟩ := collectiveRule_of_passes (by decide)
  have hexec := h _ _ _ hrule
  have hone : (nextOr stGather (exec gatherColl stGather)).colls.all (fun c => c.2.born == 1) = true := by decide
  rw [hexec, nextOr_next] at hone
  have hborn' := List.all_eq_true.1 hone (k, q) (mem_of_tabGet hq)
  rw [hborn] at hborn'
  exact absurd hborn' (by decide)

end Sys2Proof.Machine
end

