-- ==== Sys2Proof/Proofs/PacketFrames.lean ====
section
/-! SUPPORT. A packet of which another device takes a part: this device writes the pieces of the part that lie here too
(`localShare`, spec/12_order_engines.md R232), and the pieces that the claims name (`packetSegs`) are only those of parts that
lie here whole. -/

namespace Sys2Proof.Machine
open Sys2Proof Sys2Proof.Claims

/-- A store of two bytes, one in this device's memory at 2^48, one in the window of device 5. -/
def acrossPacket : Packet :=
  { agent := 0, stroke := 0, core := 0, ctx := 1, str := 0, op := .write, counted := false, born := 0
    parts := [{ lanes := [0], segs := [(2 ^ 48, 1), (2 ^ 51 + 5 * 2 ^ 44, 1)], bytes := [0xAB, 0xCD] }] }

def stAcross : State :=
  { placeProgram State.reset [] with packets := [(7, acrossPacket)] }

/-- The packet's performance, as another device answers it. -/
def answerAcross : Instr := .writePacketAtHome 7 (.ok [])

theorem packetSegs_acrossPacket : packetSegs stAcross acrossPacket = [] := by decide

theorem insideBarrier_nil (s : State) (pa : Nat) : ¬ insideBarrier s [] pa := by
  rintro ⟨_, _, _, _, ⟨_, hq, _⟩, _⟩
  cases hq

/-- Refutes O53: the packet has no part that lies here whole, and its performance writes 0xAB at 2^48. -/
theorem not_packetFrame : ¬ Obligations.PacketFrame := by
  intro h
  have hstep : exec answerAcross stAcross = .next (nextOr stAcross (exec answerAcross stAcross)) := rfl
  have hframe := h answerAcross stAcross _ [] ⟨acrossPacket, rfl, packetSegs_acrossPacket.symm⟩ hstep (2 ^ 48)
    (fun ⟨_, hq, _⟩ => nomatch hq) (insideBarrier_nil _ _)
  exact absurd hframe (by decide)

end Sys2Proof.Machine
end

