-- ==== Sys2Proof/Proofs/EngineSteps.lean ====
section
/-! SUPPORT. CHUNK_LANDED, MCAST_DELIVERY and COLL_HOP where they are enabled (spec/08_memory_instructions.md R184, R185, R192;
spec/11_order_devices.md R219-R222). -/

namespace Sys2Proof.Machine
open Sys2Proof Sys2Proof.Claims

/-! ## Chunks -/

theorem landIn_of_written {s w : State} {id k : Nat} {c : Copy} {bs : List (Nat × List Byte)} {p : Panel}
    (hb : chunkBytes s c k = .ok bs) (hp : landPanel s c = some p)
    (hw : coreWrite (chunkRead s c k) p.core c.ctx (bs.flatMap fun e => (List.range (layElem c.lay.fmt)).map fun j =>
      (scratchPa p (c.packed - p.slotVA + placeByte c.lay (layElem c.lay.fmt * e.1 + j)), 1)) (bs.flatMap (·.2)) = (w, none)) :
    landIn s id c k = chunkOk w id c k := by
  simp only [landIn, hb, hp, hw]

theorem landOut_of_written {s w : State} {id k : Nat} {c : Copy} {ps : List (Nat × List (Nat × Nat))}
    (ht : tensorPieces s c k = (ps, none)) (hw : outElems s c ps = (w, none)) :
    landOut s id c k = chunkOk (copyAck w id c k 0 none).1 id (copyAck w id c k 0 none).2 k := by
  simp only [landOut, ht, hw, Option.map_none]

/-- A chunk that can land and is no part that another device took too long to answer. -/
theorem execChunkLanded_of_ready {s : State} {id k : Nat} {c : Copy} (hc : tabGet s.copies id = some c)
    (hr : chunkReady s c k = true) (ho : c.mcast = false → servedOf c k 0 = none → tooOld s (partBorn c k 0) = false) :
    execChunkLanded id k s = .next
      (if c.mcast then chunkOk s id c k else if c.out then landOut s id c k else landIn s id c k) := by
  have hage : (!c.mcast && (servedOf c k 0).isNone && tooOld s (partBorn c k 0)) = false := by
    cases hm : c.mcast with
    | true => rfl
    | false =>
      cases hs : servedOf c k 0 with
      | none => exact ho hm hs
      | some _ => rfl
  simp only [execChunkLanded, hc, hr, if_true, hage, Bool.false_eq_true, if_false]

theorem chunkLands_completes {s t : State} {id k : Nat} {c : Copy} (hc : tabGet s.copies id = some c)
    (h : ChunkLands s id k c t) : execChunkLanded id k s = .next t := by
  obtain ⟨hr, ho, h⟩ := h
  rw [execChunkLanded_of_ready hc hr ho]
  rcases h with ⟨hm, rfl⟩ | ⟨hm, hout, bs, p, w, hb, hp, hw, rfl⟩ | ⟨hm, hout, ps, w, ht, hw, rfl⟩
  · rw [if_pos hm]
  · rw [if_neg (by simp [hm]), if_neg (by simp [hout]), landIn_of_written hb hp hw]
  · rw [if_neg (by simp [hm]), if_pos hout, landOut_of_written ht hw]

theorem collLand_of_written {s w : State} {id k : Nat} {c : Coll} {bytes : List Byte} {g : List (Nat × Nat)}
    (hg : segsFor s c.ctx .we (c.dst + 512 * k) ((bytes.drop (512 * k)).take 512).length = .ok g)
    (hr : reachOf s c.ctx true g ≠ .refused) (ha : reachOf s c.ctx true g ≠ .away)
    (hw : coreWrite s c.core c.ctx (hereWrites s c.ctx g ((bytes.drop (512 * k)).take 512)).1
      (hereWrites s c.ctx g ((bytes.drop (512 * k)).take 512)).2 = (w, none)) :
    collLand s id c bytes k =
      let v := chunkBit w id c.panel c.comp c.orphan k
      if (k :: c.landed).length < ceilDiv bytes.length 512 then
        { v with colls := tabPut v.colls id { c with landed := k :: c.landed } }
      else { v with colls := tabDel v.colls id } := by
  have haway : (reachOf s c.ctx true g == .away) = false := beq_eq_false_iff_ne.2 ha
  simp only [collLand, hg, haway, hr, Bool.false_eq_true, if_false, false_and, or_self, hw]

theorem execChunkLanded_of_coll {s : State} {id k : Nat} {c : Coll} {bytes : List Byte} (hcopy : tabGet s.copies id = none)
    (hc : tabGet s.colls id = some c) (hb : c.out = some bytes) (hk : k < ceilDiv bytes.length 512)
    (hl : c.landed.contains k = false) : execChunkLanded id k s = .next (collLand s id c bytes k) := by
  have hland : k < ceilDiv bytes.length 512 ∧ (!c.landed.contains k) = true := ⟨hk, by rw [hl]; rfl⟩
  simp only [execChunkLanded, hcopy, hc, hb]
  rw [if_pos hland]

theorem collLands_completes {s t : State} {id k : Nat} {c : Coll} {bytes : List Byte} (hcopy : tabGet s.copies id = none)
    (hc : tabGet s.colls id = some c) (hb : c.out = some bytes) (h : CollLands s id k c bytes t) :
    execChunkLanded id k s = .next t := by
  obtain ⟨hk, hl, g, w, v, hg, hr, ha, hw, rfl, rfl⟩ := h
  rw [execChunkLanded_of_coll hcopy hc hb hk hl, collLand_of_written hg hr ha hw]
  refine next_congr ?_
  dsimp only
  split <;> rfl

/-! ## MCAST_DELIVERY -/

theorem mcastLine_of_written {s w : State} {id l d : Nat} {c : Copy} {how : RemoteAck} {es : List (Nat × List Byte)}
    {g : List (Nat × Nat)}
    (hg : lineSegs s c d ((es.filter fun e => (lineElems c l).contains e.1).map (·.1)) = .ok g)
    (hhow : (∃ g1, reachOf s c.ctx true g = .here g1 ∧ how = .here) ∨ (reachOf s c.ctx true g = .away ∧ ∃ b, how = .ok b))
    (hw : coreWrite s c.core c.ctx
      (hereWrites s c.ctx g ((es.filter fun e => (lineElems c l).contains e.1).flatMap (·.2))).1
      (hereWrites s c.ctx g ((es.filter fun e => (lineElems c l).contains e.1).flatMap (·.2))).2 = (w, none)) :
    mcastLine s id c l d how es = mcastAnswer w id c l d es none := by
  obtain ⟨g1, hr, rfl⟩ | ⟨hr, b, rfl⟩ := hhow
  · simp only [mcastLine, hg, hr, hw]
  · simp only [mcastLine, hg, hr, hw]

theorem lineDelivered_completes {s t : State} {id l d : Nat} {how : RemoteAck} {c : Copy} (hc : tabGet s.copies id = some c)
    (h : LineDelivered s id l d how c t) : execMcastDelivery id l d how s = .next t := by
  obtain ⟨hm, hd, hl, hs, hh, ho, hread, es, g, w, hes, hg, hhow, hw, rfl⟩ := h
  have hline : (!c.mcast || d == c.dests.length) = false := by rw [hm, beq_eq_false_iff_ne.2 (by omega)]; rfl
  have hopen : ¬ (c.dests.length < d ∨ ceilDiv c.bytes 128 ≤ l ∨ (servedOf c l (d + 1)).isSome ∨ heldBack c l (d + 1)) := by
    simp [hs, hh]
    omega
  have hfirst : ((servedOf c (l / 4) (c.dests.length + 1)).isNone && chunkAway s c (l / 4) &&
      (servedOf c (l / 4) 0).isNone) = false := by
    cases ha : chunkAway s c (l / 4) with
    | false => simp
    | true => rcases hread ha with h | h <;> simp [← Option.not_isSome, h]
  refine next_congr ?_
  simp only [hc, hline, Bool.false_eq_true, if_false]
  rw [if_neg hopen, ho, hfirst]
  simp only [Bool.false_eq_true, if_false, hes]
  exact mcastLine_of_written hg hhow hw

theorem partServed_completes {s t : State} {id k d : Nat} {how : RemoteAck} {c : Copy} (hc : tabGet s.copies id = some c)
    (h : PartServed s id k d how c t) : execMcastDelivery id k d how s = .next t := by
  obtain ⟨hpart, hk, hdone, hfail, hs, ha, hh, ho, bs, rfl, rfl⟩ := h
  have hserve : (!c.mcast || d == c.dests.length) = true := by
    rcases hpart with h | h <;> simp [h]
  have hopen : ¬ (chunkCount c ≤ k ∨ c.done.contains k ∨ c.failed.contains k ∨ (servedOf c k 0).isSome ∨
      !chunkAway s c k ∨ heldBack c k 0) := by
    rw [hdone, hfail, hs, ha, hh]
    simp
    omega
  refine next_congr ?_
  simp only [hc, hserve, if_true]
  rw [servePart, if_neg hopen, ho]
  rfl

/-! ## COLL_HOP -/

theorem collAgree_of_alike {c : Coll} {peers : List (Nat × Coll)} {others : List CollOther}
    (hp : ∀ e ∈ peers, e.2.level = c.level ∧ e.2.op = c.op ∧ e.2.wire = c.wire ∧ e.2.count = c.count)
    (ho : ∀ o ∈ others, o.level = c.level ∧ o.op = c.op ∧ o.wire = c.wire ∧ o.count = c.count ∧ o.failed = false) :
    collAgree c peers others = true := by
  rw [collAgree, Bool.and_eq_true, List.all_eq_true, List.all_eq_true]
  refine ⟨fun e he => ?_, fun o hmem => ?_⟩
  · obtain ⟨hl, hop, hw, hn⟩ := hp e he
    simp [hl, hop, hw, hn]
  · obtain ⟨hl, hop, hw, hn, -⟩ := ho o hmem
    simp [hl, hop, hw, hn]

theorem hopsRun_completes {s t : State} {id : Nat} {c : Coll} {others : List CollOther} (hc : tabGet s.colls id = some c)
    (h : HopsRun s c id others t) : execCollHop id others s = .next t := by
  obtain ⟨cm, hcm, hout, hsecond, hn, hsilent, hp, ho, hsrc, rfl⟩ := h
  have hall : ¬ ((collPeers s cm.record c).length + others.length ≠ collN cm.record c.level ∨
      (collPeers s cm.record c).any (fun e => collSilent s e.2) = true) := by
    rw [not_or, not_ne_iff, Bool.not_eq_true, List.any_eq_false]
    exact ⟨hn, fun e he => by simp [hsilent e he]⟩
  have hsound : ((collSources s (collPeers s cm.record c)).2.any (fun e => sourceFailed e.2) ||
      others.any fun o => o.failed) = false := by
    rw [Bool.or_eq_false_iff, List.any_eq_false, List.any_eq_false]
    refine ⟨fun e he => ?_, fun o hmem => ?_⟩
    · obtain ⟨ws, hws⟩ := hsrc e he
      simp [hws, sourceFailed]
    · obtain ⟨-, -, -, -, hf⟩ := ho o hmem
      simp [hf]
  refine next_congr ?_
  simp only [hc, hcm, hout, Option.isSome_none, hsecond, Bool.false_eq_true, if_false]
  rw [if_neg hall, collAgree_of_alike hp ho, hsound]
  simp only [Bool.not_true, Bool.false_eq_true, if_false]
  rfl

/-- Settles O27, step by step. -/
theorem engineStepsComplete : Obligations.EngineStepsComplete := by
  intro i s t hr
  cases i
  case chunkLanded id k =>
    rcases hr with ⟨c, hc, h⟩ | ⟨hcopy, c, bytes, hc, hb, h⟩
    · exact chunkLands_completes hc h
    · exact collLands_completes hcopy hc hb h
  case mcastDelivery id l d how =>
    obtain ⟨c, hc, h | h⟩ := hr
    · exact lineDelivered_completes hc h
    · exact partServed_completes hc h
  case collHop id others =>
    obtain ⟨c, hc, h⟩ := hr
    exact hopsRun_completes hc h
  all_goals exact nomatch hr

end Sys2Proof.Machine
end

