-- ==== Sys2Proof/Proofs/PacketSteps.lean ====
section
/-! SUPPORT. Results, packets and acknowledgements where their steps are enabled (spec/01_machine.md R21;
spec/10_order_cores.md R209-R211; spec/11_order_devices.md R216, R217; spec/16_isolation.md R315, R316). -/

namespace Sys2Proof.Machine
open Sys2Proof Sys2Proof.Claims

/-! ## RESULT_RETURN -/

theorem refusedReads_eq_nil {s : State} {r : Result}
    (h : ∀ l ∈ r.reads, l.val = none → pieceRefused s r.ctx l.segs = false) : refusedReads s r = [] := by
  refine List.filter_eq_nil_iff.2 fun l hl => ?_
  obtain ⟨hmem, hopen⟩ := List.mem_filter.1 hl
  rw [h l hmem (Option.isNone_iff_eq_none.1 hopen)]
  exact Bool.false_ne_true

/-- Reads that are all reached and meet no error take their values. -/
theorem performRead_of_sound {s : State} {id : Nat} {r : Result} {copy : Bool} {others : List Byte}
    (hr : ∀ l ∈ r.reads, l.val = none → pieceRefused s r.ctx l.segs = false) (hb : badReads s r copy = []) :
    performRead s id r copy others =
      let q := fillReads s r (agentCore s r.agent) copy (fun _ => true) others
      acquirePerformed (writeResult q.1 id { r with reads := q.2 }) (agentCore s r.agent) r.ord r.scp := by
  simp only [performRead, refusedReads_eq_nil hr, hb, ne_eq, not_true_eq_false, if_false]

theorem acquirePerformed_eq (s : State) (core : Nat) (ord : MOrd) (scp : Scope) :
    acquirePerformed s core ord scp =
      if MOrd.acquires ord = true ∧ Scope.wide scp = true then acquireInvalidate s core else s := by
  simp only [acquirePerformed, Bool.and_eq_true]

theorem execResultReturn_of_ready {s : State} {id : Nat} {how : Served} {r : Result} (hr : tabGet s.results id = some r)
    (hready : resultReady s id r how = true) (hlate : r.late = none) :
    execResultReturn id how s = .next (if isRead r then
      match how with
      | .home => performRead s id r false []
      | .copy => performRead s id r true []
      | .remote bs => performRead s id r true bs
      | .remoteRefused => remoteXlate s id r ((openReads r).filter fun l => pieceAway s r.ctx l.segs)
      | .remoteErr => remoteDataErr s id r ((openReads r).filter fun l => pieceAway s r.ctx l.segs)
      else writeResult s id r) := by
  refine next_congr ?_
  simp only [hr, hready, hlate, if_true]
  cases how <;> rfl

theorem resultReturn_completes {s t : State} {id : Nat} {how : Served} (h : packetRule (.resultReturn id how) s t) :
    execResultReturn id how s = .next t := by
  obtain ⟨r, hr, hready, hlate, h⟩ := h
  rw [execResultReturn_of_ready hr hready hlate]
  refine next_congr ?_
  rcases h with ⟨hread, hreached, copy, others, hhow, hb, rfl⟩ | ⟨hread, rfl⟩
  · rw [if_pos hread]
    have hperf := performRead_of_sound (id := id) (others := others) hreached hb
    rw [acquirePerformed_eq] at hperf
    rcases hhow with ⟨rfl, rfl, rfl⟩ | ⟨rfl, rfl, rfl⟩ | ⟨rfl, rfl⟩ <;> exact hperf
  · rw [if_neg (by simp [hread])]

/-! ## WRITE_PACKET_AT_HOME -/

theorem packetDropped_eq_false {s : State} {k : Packet} {c : Ctx} (hc : getCtx s k.ctx = some c) (hk : c.killed = none)
    (hb : s.cycle - k.born ≤ 2 ^ 21) : packetDropped s k = false := by
  simp only [packetDropped, hc, Option.any_some, hk, Option.isNone_none, Bool.not_true, Bool.false_or, decide_eq_false_iff_not]
  omega

theorem execWritePacketAtHome_here {s : State} {id : Nat} {k : Packet} {parts : List (PacketPart × List (Nat × Nat))}
    (hk : tabGet s.packets id = some k) (hd : packetDropped s k = false) (hready : packetReady s id k .here = true)
    (hparts : parts.map (·.1) = k.parts) (hreach : ∀ p ∈ parts, reachOf s k.ctx true p.1.segs = .here p.2) :
    execWritePacketAtHome id .here s = .next (performPacket { s with packets := tabDel s.packets id } k parts) := by
  have hmap : k.parts.map (fun p => (p, reachOf s k.ctx true p.segs)) = parts.map fun p => (p.1, Reach.here p.2) := by
    rw [← hparts, List.map_map]
    exact List.map_congr_left fun p hp => congrArg (Prod.mk p.1) (hreach p hp)
  have hnone : (parts.map fun p => (p.1, Reach.here p.2)).any (fun p => p.2 == .refused) = false := by
    simp
  refine next_congr ?_
  simp only [hk, hd, Bool.false_eq_true, if_false, hready, if_true, hmap, hnone, List.map_map]
  exact congrArg _ (List.map_id _)

theorem performPacket_of_sound {s : State} {k : Packet} {parts : List (PacketPart × List (Nat × Nat))}
    (h : (match k.op with
      | .write => refusingWord s (parts.map (·.2)).flatten
      | _ => updateRefused s (parts.map (·.2)).flatten) = none) :
    performPacket s k parts =
      let segs := (parts.map (·.2)).flatten
      let a := applyParts k parts (clearBad s segs, packetResult s k, 0)
      sendAck (packetCopies (scribble (putResult a.1 k (a.2.1.map fun q => { q with fl := q.fl ||| a.2.2 })) segs) k segs)
        k none a.2.2 := by
  unfold performPacket
  dsimp only
  split
  · next w hw => exact absurd (hw.symm.trans h) (by simp)
  · rfl

theorem remotePacket_of_written {s v : State} {k : Packet} {olds : List Byte}
    (h : engineWrite s k.ctx (localShare s k).1 (localShare s k).2 = (v, none)) :
    remotePacket s k olds =
      let a := remoteParts k k.parts olds (packetResult v k, 0)
      sendAck (acquirePerformed (homeWrite (putResult v k (a.1.map fun q => { q with fl := q.fl ||| a.2 })) k.core k.ctx
        (localShare s k).1) k.core k.ord k.scp) k none a.2 := by
  simp only [remotePacket, h]

theorem writePacketAtHome_completes {s t : State} {id : Nat} {how : RemoteAck}
    (h : packetRule (.writePacketAtHome id how) s t) : execWritePacketAtHome id how s = .next t := by
  obtain ⟨k, c, hk, hc, hkill, hb, hready, h⟩ := h
  have hd := packetDropped_eq_false hc hkill hb
  rcases h with ⟨rfl, parts, hparts, hreach, hsound, rfl⟩ | ⟨olds, v, rfl, hw, rfl⟩
  · rw [execWritePacketAtHome_here hk hd hready hparts hreach, performPacket_of_sound hsound]
    simp only [packetCopies, acquirePerformed_eq]
  · refine next_congr ?_
    simp only [hk, hd, Bool.false_eq_true, if_false, hready, if_true, remotePacket_of_written hw, acquirePerformed_eq]

/-! ## Acknowledgements -/

theorem ackReceived_completes {s t : State} {id : Nat} (h : packetRule (.ackReceived id) s t) :
    execAckReceived id s = .next t := by
  obtain ⟨k, st, hk, hb, hst, rfl⟩ := h
  have hage : ¬ 2 ^ 21 < s.cycle - k.born := by omega
  refine next_congr ?_
  simp only [hk, hage, if_false, takeAck, hst]
  cases k.fault with
  | none => rfl
  | some pa => cases tabGet st.marks k.str <;> rfl

theorem acktimeout_completes {s t : State} {aid : Nat} (h : packetRule (.acktimeout aid) s t) :
    execAcktimeout aid s = .next t := by
  obtain ⟨a, ha, hout, howed, rfl⟩ := h
  have hdue : ¬ (timedOut s a = 0 ∧ (!unanswered s a) = true) := fun ⟨h0, hn⟩ =>
    hout.elim (fun h => h h0) fun h => by simp [h] at hn
  refine next_congr ?_
  simp only [ha, howed]
  rw [if_neg hdue]

theorem remoteReadTimeout_completes {s t : State} {id : Nat} (h : packetRule (.remoteReadTimeout id) s t) :
    execRemoteReadTimeout id s = .next t := by
  obtain ⟨r, hr, hout, rfl⟩ := h
  refine next_congr ?_
  simp only [hr, hout, if_true]
  rfl

/-! ## Losses -/

theorem eq_loseParcel_of_lost {s t : State} {p : Parcel} (h : Lost s p t) : t = loseParcel s p := by
  cases p <;> exact h

theorem packetAgeDiscard_completes {s t : State} {p : Parcel} (h : packetRule (.packetAgeDiscard p) s t) :
    execPacketAgeDiscard p s = .next t := by
  obtain ⟨b, hb, hold, hlost⟩ := h
  refine next_congr ?_
  simp only [hb, tooOld, hold, decide_true, if_true]
  exact (eq_loseParcel_of_lost hlost).symm

theorem uncorrectableHeaderDrop_completes {s t : State} {p : Parcel} {atHome : Bool} {port link layer : Nat}
    (h : packetRule (.uncorrectableHeaderDrop p atHome port link layer) s t) :
    execUncorrectableHeaderDrop p atHome port link layer s = .next t := by
  obtain ⟨b, w, hb, hlost, rfl⟩ := h
  rw [eq_loseParcel_of_lost hlost]
  refine next_congr ?_
  simp only [hb, Option.isSome_some, if_true]

/-- Settles O37, step by step. -/
theorem packetStepsComplete : Obligations.PacketStepsComplete := by
  intro i s t hr
  cases i
  case resultReturn => exact resultReturn_completes hr
  case writePacketAtHome => exact writePacketAtHome_completes hr
  case ackReceived => exact ackReceived_completes hr
  case acktimeout => exact acktimeout_completes hr
  case remoteReadTimeout => exact remoteReadTimeout_completes hr
  case packetAgeDiscard => exact packetAgeDiscard_completes hr
  case uncorrectableHeaderDrop => exact uncorrectableHeaderDrop_completes hr
  case flitCrcRetransmit => exact next_congr (Eq.symm hr)
  all_goals exact nomatch hr

end Sys2Proof.Machine
end
